-- ==== Sys2Proof/Word.lean ====
section
/-! DEFINITION. The words of the part: bytes, the station clock's 33 bits, and the sets the formats
section gives as bit masks (10_management_ports_requests_and_formats.md, R182). -/

namespace Sys2Proof

/-- One byte on a line or in a frame. -/
abbrev Byte := BitVec 8

/-- A station-clock value, 0..2^33-1 (R141). -/
abbrev StationTime := BitVec 33

/-- A set of feeds: bit f stands for Ff (R182). -/
abbrev FeedSet := BitVec 24

/-- A set of region groups: bit g stands for group g (R182). -/
abbrev GroupSet := BitVec 16

/-- A set of the seven leg events, in the order R182 numbers them. -/
abbrev EventSet := BitVec 7

/-- A set of the seven attention kinds, in the order R182 numbers them. -/
abbrev KindSet := BitVec 7

/-- A sparse table keyed by number: a key that is not listed holds its starting value. -/
abbrev Table (α : Type) := List (Nat × α)

end Sys2Proof
end

