-- ==== Sys2Proof/Syntax.lean ====
section
/-! DEFINITION. The commands of the part: one constructor of `Instr` for each row of
spec/opcode_table.json, in the table's order. -/

namespace Sys2Proof

/-- The two requesters (00_scope.md), in the order R1's owner field lists them. -/
inductive Requester where
  | site
  | network
deriving DecidableEq, Repr

/-- The two matchers of a splice entry's trigger (R103, R138). -/
inductive MatcherName where
  | a
  | b
deriving DecidableEq, Repr

/-- A request transaction as SITE clocks it in (R170). The bytes on MOSI after the transaction byte
0x57 are the two bytes of `len`, the kind byte, which is the row's own, and `rest`: every further
byte that arrives before SSN rises. -/
structure Frame where
  len  : BitVec 16
  rest : List Byte
deriving DecidableEq, Repr

/-- What comes where an input misses its sync byte: the 188 bytes from the expected position on (R30). -/
structure Missed where
  input : Nat
  bytes : List Byte
deriving DecidableEq, Repr

/-- The commands, one constructor per row of the opcode table. A row that is a SITE request carries
the request frame; NETWORK's requests run in `queueHeadTaken` (log entry 1). -/
inductive Instr where
  /-- OPEN_BATCH (R102) -/
  | openBatch (f : Frame)
  /-- CLOSE_BATCH (R105) -/
  | closeBatch (f : Frame)
  /-- ABANDON_BATCH (R116) -/
  | abandonBatch (f : Frame)
  /-- APPLY (R113) -/
  | apply (f : Frame)
  /-- CREATE_RECORD (R2) -/
  | createRecord (f : Frame)
  /-- AMEND_RECORD (R12) -/
  | amendRecord (f : Frame)
  /-- RETIRE_RECORD (R17) -/
  | retireRecord (f : Frame)
  /-- BIND_SLOT (R106) -/
  | bindSlot (f : Frame)
  /-- UNBIND_SLOT (R106) -/
  | unbindSlot (f : Frame)
  /-- SET_LEG (R60) -/
  | setLeg (f : Frame)
  /-- BATCH_IDLE_EXPIRED (R117): the requester whose idle timer has reached the limit -/
  | batchIdleExpired (r : Requester)
  /-- COMMIT_ACT (R125): the requester whose commit is in flight -/
  | commitAct (r : Requester)
  /-- CANCEL_SPLICE (R156) -/
  | cancelSplice (f : Frame)
  /-- RESUME_SLOT (R55) -/
  | resumeSlot (f : Frame)
  /-- ARM_PROBE (R21) -/
  | armProbe (f : Frame)
  /-- SET_INPUT (R27) -/
  | setInput (f : Frame)
  /-- SET_LEG_OWNER (R61) -/
  | setLegOwner (f : Frame)
  /-- SET_STATION_TIME (R142) -/
  | setStationTime (f : Frame)
  /-- SET_BATCH_LIMIT (R118) -/
  | setBatchLimit (f : Frame)
  /-- SET_RELAY (R177) -/
  | setRelay (f : Frame)
  /-- SET_COUNTER_PAIR (R163) -/
  | setCounterPair (f : Frame)
  /-- SET_ATTENTION_MASK (R167) -/
  | setAttentionMask (f : Frame)
  /-- CLEAR_ATTENTION (R168) -/
  | clearAttention (f : Frame)
  /-- READ_RECORD (R23) -/
  | readRecord (f : Frame)
  /-- FIND_RECORD (R178) -/
  | findRecord (f : Frame)
  /-- LIST_RECORDS (R178) -/
  | listRecords (f : Frame)
  /-- READ_LEG (R82) -/
  | readLeg (f : Frame)
  /-- READ_SLOT (R82) -/
  | readSlot (f : Frame)
  /-- READ_SPLICE (R158) -/
  | readSplice (f : Frame)
  /-- READ_OUTCOME (R101) -/
  | readOutcome (f : Frame)
  /-- READ_COUNTERS (R164) -/
  | readCounters (f : Frame)
  /-- READ_INPUT (R165) -/
  | readInput (f : Frame)
  /-- QUERY_CARRIAGE (R179) -/
  | queryCarriage (f : Frame)
  /-- READ_ATTENTION (R168) -/
  | readAttention (f : Frame)
  /-- READ_RELAY (R176) -/
  | readRelay (f : Frame)
  /-- CLEAR_ALL (R180) -/
  | clearAll (f : Frame)
  /-- CLEARING_ACT (R180) -/
  | clearingAct
  /-- UNKNOWN_REQUEST (R170): a frame whose kind byte is none of the catalogue's -/
  | unknownRequest (kind : Byte) (f : Frame)
  /-- STATUS_POLL (R169): the transaction byte and how many further bytes are clocked; with 0x57, a
  request frame cut before its kind byte (log entry 40) -/
  | statusPoll (transaction : Byte) (more : Nat)
  /-- REPLY_READ (R172): how many bytes are clocked after the transaction byte 0x52 -/
  | replyRead (clocked : Nat)
  /-- RESETN_ASSERTED (R181) -/
  | resetnAsserted
  /-- RESETN_RELEASED (R181) -/
  | resetnReleased
  /-- QUEUE_HEAD_TAKEN (R175) -/
  | queueHeadTaken
  /-- SYNC_ACQUIRED (R29): the bytes the input examines, up to the third sync byte -/
  | syncAcquired (input : Nat) (bytes : List Byte)
  /-- SYNC_CANDIDATE_GIVEN_UP (R29): the bytes the input examines, up to the one that fails -/
  | syncCandidateGivenUp (input : Nat) (bytes : List Byte)
  /-- MISSING_SYNC_BYTE (R30) -/
  | missingSyncByte (m : Missed)
  /-- PACKET_RECEIVED (R30): the byte at the expected position and the 187 bytes after it; the row is the
  whole packet (log entry 8) -/
  | packetReceived (input : Nat) (sync : Byte) (after : List Byte)
  /-- LOSS_WINDOW_EXPIRED (R43) -/
  | lossWindowExpired (handle : Nat)
  /-- RESTORE_HOLD_ENDED (R44) -/
  | restoreHoldEnded (handle : Nat)
  /-- LOSS_NOTICE (R50): the FLT takes its next notice, a loss -/
  | lossNotice
  /-- RESTORATION_NOTICE (R52): the FLT takes its next notice, a restoration -/
  | restorationNotice
  /-- ON_AIR_UPDATE (R14): the CTAB takes its next on-air update -/
  | onAirUpdate
  /-- SWITCH_DEADLINE_EXPIRED (R76) -/
  | switchDeadlineExpired (feed slot : Nat)
  /-- OUTPUT_OPPORTUNITY (R89) -/
  | outputOpportunity (feed : Nat)
  /-- DIRECTORY_PERIOD_EXPIRED (R93) -/
  | directoryPeriodExpired (feed : Nat)
  /-- STATION_CLOCK_TICK (R141) -/
  | stationClockTick
  /-- CUE_MATURED (R35) -/
  | cueMatured
  /-- TIME_MATCHER_OCCURS (R145): the entry and which of its matchers -/
  | timeMatcherOccurs (entry : Nat) (matcher : MatcherName)
  /-- RESET_RELEASE_TIME_ELAPSED (R181) -/
  | resetReleaseTimeElapsed
deriving DecidableEq, Repr

end Sys2Proof
end

