-- ==== Sys2Proof/Decode.lean ====
section
/-! DEFINITION. The table gives no row of this part any bits (every row of spec/opcode_table.json has
empty fields), so no word spells a command. The bytes of request frames and command packets are
decoded in Machine/Operands.lean. -/

namespace Sys2Proof

/-- The command a word spells by the table's bits: none, for every word. -/
def decodeTableWord (_nbits _w : Nat) : Option Instr := none

end Sys2Proof
end

