-- ==== Sys2Proof/Config.lean ====
section
/-! DEFINITION. What the part fixes (the sizes its rules give) and what the spec leaves open (free
values: constants without a body, so that no proof can see them). -/

namespace Sys2Proof.Config

/-- Handles are 1..1023 (R1). -/
def maxHandle : Nat := 1023

/-- The stream map holds up to 4096 entries (R36). -/
def mapSize : Nat := 4096

/-- Feed legs F0..F23 (R58). -/
def feeds : Nat := 24

/-- Slots of a leg (R68). -/
def slotsPerLeg : Nat := 16

/-- Splice entries 0..63 (R138). -/
def spliceEntries : Nat := 64

/-- Places of the splice edit store (R139). -/
def storePlaces : Nat := 1024

/-- Edits of a workspace (R99). -/
def workspaceEdits : Nat := 64

/-- Levels of a workspace (R99). -/
def maxDepth : Nat := 4

/-- Cues of the cue pending list (R34). -/
def cuePlaces : Nat := 32

/-- Packets of a leg's output buffer (R88). -/
def bufferPlaces : Nat := 128

/-- Entries of the network command queue (R174). -/
def queuePlaces : Nat := 8

/-- The directory allowance in kbit/s (R66). -/
def directoryAllowance : Nat := 100

/-- The highest value of a saturating counter (R40, R162). -/
def counterMax : Nat := 2 ^ 32 - 1

/-- Station-clock ticks in one millisecond: both are derived from the 27 MHz reference, 300 periods to
a tick (R141). DEDUCED, log entry 5. -/
def ticksPerMs : Nat := 90

/-- Station-clock ticks in one second (R152). -/
def ticksPerSecond : Nat := 90000

/-- The fields that may be read while absent and for which section 10.7 gives no "none" encoding
(log entry 13), and the id bytes of a CUE matcher for ANY (log entry 43). -/
inductive BlankField where
  | recordOwner | recordInput | recordProgramme | recordClass | recordRegion
  | componentKind | recordPeak | recordLossWindow | recordRestoreHold | recordAutoReturn
  | probeTime | probeContinuity | probeRandomAccess | probePayloadStart
  | slotProgramme | slotDeadline
  | entryOwner | entryRole | entryMode | entryCount | entryRemaining | entryTolerance
  | entryExecutedAt | entryApplied | entrySkipped | heldTime | anyId
  | detailKind | detailInput
deriving DecidableEq, Repr

/-- FREE VALUE: the bytes given for an absent field that has no "none" encoding, by field and byte
position (R1, R23, R82, R158, R166; log entries 13 and 43). -/
opaque noneByte : BlankField → Nat → Byte

/-- FREE VALUE: the payload byte count, 0..184 (R162), of a packet whose adaptation field's length byte
runs past the packet's end, for which the spec's subtraction (R84) gives no count (log entry 34). -/
opaque payloadCount : Nat → Fin 185

end Sys2Proof.Config
end

