-- ==== Sys2Proof/Machine/Bytes.lean ====
section
/-! DEFINITION. Bytes: multi-byte fields most significant byte first (R182), the CRC-16 of frames and
messages (R183), the CRC-32 of directories and the transport packet's fields (R25, R185). -/

namespace Sys2Proof.Machine

/-! ### Numbers and bytes -/

/-- The low `n` bytes of a number, most significant first (R182). -/
def bytesOf : Nat → Nat → List Byte
  | 0, _ => []
  | n + 1, v => BitVec.ofNat 8 (v / 256 ^ n) :: bytesOf n v

/-- The number that bytes spell, most significant first (R182). -/
def natOf (bs : List Byte) : Nat :=
  bs.foldl (fun a b => 256 * a + b.toNat) 0

/-- A yes/no or flag byte: R182 gives 0 and 1, and the model takes 1 as yes (DESIGN CHOICE, log entry 41). -/
def flagByte (b : Bool) : Byte := if b then 1 else 0

/-! ### Checks -/

/-- One bit of the CRC-16 with polynomial 0x1021, most significant bit first (R183). -/
def crc16Bit (c : BitVec 16) : BitVec 16 :=
  if c.msb then (c <<< 1) ^^^ 0x1021#16 else c <<< 1

def crc16Byte (c : BitVec 16) (b : Byte) : BitVec 16 :=
  let c := c ^^^ (b.setWidth 16 <<< 8)
  crc16Bit (crc16Bit (crc16Bit (crc16Bit (crc16Bit (crc16Bit (crc16Bit (crc16Bit c)))))))

/-- The CRC-16 of R183: initial value 0xFFFF, no final inversion. -/
def crc16 (bs : List Byte) : BitVec 16 := bs.foldl crc16Byte 0xFFFF#16

/-- One bit of the CRC-32 with polynomial 0x04C11DB7, most significant bit first (R185). -/
def crc32Bit (c : BitVec 32) : BitVec 32 :=
  if c.msb then (c <<< 1) ^^^ 0x04C11DB7#32 else c <<< 1

def crc32Byte (c : BitVec 32) (b : Byte) : BitVec 32 :=
  let c := c ^^^ (b.setWidth 32 <<< 24)
  crc32Bit (crc32Bit (crc32Bit (crc32Bit (crc32Bit (crc32Bit (crc32Bit (crc32Bit c)))))))

/-- The CRC-32 of R185: initial value 0xFFFFFFFF, no final inversion. -/
def crc32 (bs : List Byte) : BitVec 32 := bs.foldl crc32Byte 0xFFFFFFFF#32

/-! ### The transport packet (R25, R185) -/

def byteAt (p : List Byte) (i : Nat) : Byte := p.getD i 0

def pktError (p : List Byte) : Bool := (byteAt p 1).getLsbD 7

def pktPayloadStart (p : List Byte) : Bool := (byteAt p 1).getLsbD 6

def pktPid (p : List Byte) : Nat :=
  256 * ((byteAt p 1) &&& 0x1F#8).toNat + (byteAt p 2).toNat

/-- Adaptation-field control 10 or 11. -/
def pktHasField (p : List Byte) : Bool := (byteAt p 3).getLsbD 5

/-- Adaptation-field control 01 or 11. -/
def pktHasPayload (p : List Byte) : Bool := (byteAt p 3).getLsbD 4

def pktContinuity (p : List Byte) : Nat := ((byteAt p 3) &&& 0x0F#8).toNat

/-- The adaptation field's length; 0 when there is none. -/
def pktFieldLength (p : List Byte) : Nat :=
  if pktHasField p then (byteAt p 4).toNat else 0

/-- R25: clear without an adaptation field, or with one of zero length. -/
def pktDiscontinuity (p : List Byte) : Bool :=
  decide (1 ≤ pktFieldLength p) && (byteAt p 5).getLsbD 7

/-- R25: clear without an adaptation field, or with one of zero length. -/
def pktRandomAccess (p : List Byte) : Bool :=
  decide (1 ≤ pktFieldLength p) && (byteAt p 5).getLsbD 6

/-- The bytes after the header and the adaptation field (R185). -/
def pktPayload (p : List Byte) : List Byte :=
  p.drop (4 + if pktHasField p then 1 + pktFieldLength p else 0)

/-- R84: 184 less the adaptation field's length with its length byte, or 0 without a payload; a length
byte beyond the packet's end leaves the count open (log entry 34). -/
def pktPayloadBytes (p : List Byte) : Nat :=
  if pktHasPayload p then
    if pktHasField p then
      if pktFieldLength p ≤ 183 then 183 - pktFieldLength p else (Config.payloadCount (pktFieldLength p)).val
    else 184
  else 0

/-- The packet with another PID (R84): bits 7..5 of byte 1 are carried. -/
def pktSetPid (p : List Byte) (pid : Nat) : List Byte :=
  let b1 := ((byteAt p 1) &&& 0xE0#8) ||| ((BitVec.ofNat 8 (pid / 256)) &&& 0x1F#8)
  (p.set 1 b1).set 2 (BitVec.ofNat 8 pid)

/-- The packet with another continuity count (R84, R85). -/
def pktSetContinuity (p : List Byte) (n : Nat) : List Byte :=
  p.set 3 (((byteAt p 3) &&& 0xF0#8) ||| ((BitVec.ofNat 8 n) &&& 0x0F#8))

/-- The packet with its discontinuity flag set, in an adaptation field of length 1 or more (R87). -/
def pktSetDiscontinuity (p : List Byte) : List Byte :=
  p.set 5 ((byteAt p 5) ||| 0x80#8)

/-- Bytes 1 and 2 of a header that the part makes: the payload-start flag and the PID. The transport-error flag
and bit 5 of byte 1 are 0, as are bits 7..6 of byte 3 in the packets below, where no rule states them for a packet
of the part's own (R87, R96, R185; DESIGN CHOICE, log entry 38). -/
def headerPid (start : Bool) (pid : Nat) : List Byte :=
  [(if start then 0x40#8 else 0) ||| ((BitVec.ofNat 8 (pid / 256)) &&& 0x1F#8), BitVec.ofNat 8 pid]

/-- A preface packet (R87, R185; log entry 38). -/
def prefacePacket (pid n : Nat) : List Byte :=
  [0x47#8] ++ headerPid false pid ++ [0x20#8 ||| ((BitVec.ofNat 8 n) &&& 0x0F#8), 183#8, 0x80#8]
    ++ List.replicate 182 0xFF#8

/-- The null packet (R91, R185). -/
def nullPacket : List Byte :=
  [0x47#8, 0x1F#8, 0xFF#8, 0x10#8] ++ List.replicate 184 0xFF#8

/-- A directory packet: payload only, the rest filled with 0xFF (R96, R185; log entry 38). -/
def directoryPacket (start : Bool) (pid n : Nat) (content : List Byte) : List Byte :=
  [0x47#8] ++ headerPid start pid ++ [0x10#8 ||| ((BitVec.ofNat 8 n) &&& 0x0F#8)] ++ content
    ++ List.replicate (184 - content.length) 0xFF#8

end Sys2Proof.Machine
end

