-- ==== Sys2Proof/Machine/State.lean ====
section
/-! DEFINITION. The state of the part, block by block, as plain data, and its value right after reset.
Every millisecond timer is held as the uptime at which it started (log entry 5). A table lists only
the keys that do not hold their starting value. -/

namespace Sys2Proof.Machine

/-! ### Stops -/

/-- Why a command is not a command of this part. Each is raised by the command's own meaning when an
operand names something the part does not have; safe (the machine stops where nothing could have
been sent). Log entry 4. -/
inductive Fault where
  /-- an input line outside 0..7; raised by the four input rows; safe -/
  | noSuchInput
  /-- a feed outside F0..F23 or a slot outside 0..15; raised by the three leg rows; safe -/
  | noSuchLeg
  /-- a handle outside 1..1023; raised by the two monitor rows; safe -/
  | noSuchRecord
  /-- a splice entry outside 0..63; raised by TIME_MATCHER_OCCURS; safe -/
  | noSuchEntry
  /-- bytes that are not a packet: not 188 of them, or not begun by 0x47; raised by PACKET_RECEIVED; safe -/
  | notAPacket
  /-- bytes that show no missing sync byte: not 188 of them, or begun by 0x47; raised by MISSING_SYNC_BYTE; safe -/
  | notAMiss
  /-- a transaction or kind byte that belongs to another row; raised by STATUS_POLL and UNKNOWN_REQUEST; safe -/
  | otherRow
deriving DecidableEq, Repr

/-- Commands without a meaning. -/
inductive Refusal where
  /-- a row whose meaning is not written yet; raised by exec's arm for it; safe -/
  | notModelled (mnemonic : String)
deriving DecidableEq, Repr

/-! ### Codes and small enumerations, in the order the value lists stand (R182) -/

/-- The refusal and abort codes (R182). -/
inductive Code where
  | badField | notDeferrable | notClaimed | legEditNotAllowed | retireNotAllowed
  | unknownHandle | notBindable | notOwner | slotReserved | workspaceFull
  | keyExists | tableFull | pidTaken | mapFull | redundant
  | sourceLost | regionRefused | capacityExceeded | outputCollision | fallbackInvalid
  | inUse | spliceTableFull | spliceStoreFull | zoneRefused | claimed
  | noBatch | depthExceeded | batchExpired | stateRefused | notPermitted
deriving DecidableEq, Repr

/-- Record states that hold content; FREE is a record that is not listed (R1). -/
inductive RecState where
  | reserved | live | lost | restoring | retiring
deriving DecidableEq, Repr

/-- R7 -/
inductive ProgClass where
  | network | regional
deriving DecidableEq, Repr

/-- R5 -/
inductive CompKind where
  | video | audio | subtitle | data
deriving DecidableEq, Repr

/-- R59 -/
inductive LegState where
  | idle | onAir | muted
deriving DecidableEq, Repr

/-- R58 -/
inductive Zone where
  | site | network | shared
deriving DecidableEq, Repr

/-- R68 -/
inductive OnAir where
  | empty | steady | pending | substituted | slated
deriving DecidableEq, Repr

/-- R102 -/
inductive Mode where
  | immediate | deferred
deriving DecidableEq, Repr

/-- R103 -/
inductive TriggerMode where
  | sole | either | after | countThen | orDeadline
deriving DecidableEq, Repr

/-- R33 -/
inductive CueKind where
  | out | inn
deriving DecidableEq, Repr

/-- R138 -/
inductive EntryState where
  | free | armed | primed | held | switching
deriving DecidableEq, Repr

/-- R138 -/
inductive Role where
  | original | ret
deriving DecidableEq, Repr

/-- R140 -/
inductive LastResult where
  | none | done | failed | cancelled
deriving DecidableEq, Repr

/-- R101 -/
inductive Result where
  | none | committed | deferred | abandoned | aborted
deriving DecidableEq, Repr

/-- R161 -/
inductive CountUnit where
  | packets | bytes
deriving DecidableEq, Repr

/-- R29 -/
inductive Sync where
  | search | locked
deriving DecidableEq, Repr

/-- The seven leg events (R160), in the order of R182's bits. -/
inductive LegEvent where
  | forwarded | droppedFull | droppedMuted | switchedClean | switchedForced | substituted | slated
deriving DecidableEq, Repr

/-- The seven attention kinds (R166), in the order of R182's bits. -/
inductive AttKind where
  | spliceDone | spliceFailed | sourceLost | sourceRestored | probeDone | relayWaiting | networkQueueFull
deriving DecidableEq, Repr

/-- R173 -/
inductive Disposition where
  | taken | refused | ended | frameError | unknownRequest
deriving DecidableEq, Repr

/-- What the site port is doing (R181). -/
inductive Phase where
  | asserted   -- RESETN asserted
  | settling   -- released; the data sheet's time has not run out
  | running
deriving DecidableEq, Repr

/-! ### Input Front End (R26, R29, R30, R40) -/

/-- The nine counters of an input (R40). -/
structure InputCounters where
  received       : Nat
  syncLosses     : Nat
  errored        : Nat
  unmapped       : Nat
  continuity     : Nat
  cuesReceived   : Nat
  cuesDropped    : Nat
  commandsTaken  : Nat
  commandsDropped : Nat
deriving DecidableEq, Repr

def InputCounters.zero : InputCounters := ⟨0, 0, 0, 0, 0, 0, 0, 0, 0⟩

/-- A contribution input (R26). -/
structure Input where
  enabled    : Bool
  cuePid     : Option Nat
  commandPid : Nat
  bearing    : Bool
  sync       : Sync
  /-- one missing sync byte is pending (R30) -/
  miss       : Bool
  /-- a sync loss has come since the input was last LOCKED (R30, log entry 10) -/
  lost       : Bool
  /-- in SEARCH: the bytes from the candidate's sync byte on (R29) -/
  window     : List Byte
  counters   : InputCounters
deriving DecidableEq, Repr

/-- R26's starting values of input `i`. -/
def Input.start (i : Nat) : Input :=
  { enabled := false, cuePid := none, commandPid := 0x1FF0, bearing := i == 0,
    sync := .search, miss := false, lost := false, window := [], counters := .zero }

/-! ### Stream Map (R36) -/

/-- A stream map entry; its key is (input, source PID). -/
structure MapEntry where
  handle : Nat
  index  : Nat
  active : Bool
  lastCount : Option Nat
deriving DecidableEq, Repr

/-! ### Carriage Table (R1, R41) -/

/-- R5 -/
structure Component where
  pid  : Nat
  kind : CompKind
deriving DecidableEq, Repr

/-- R4 -/
structure Key where
  input     : Nat
  programme : Nat
deriving DecidableEq, Repr

/-- R22 -/
structure ProbeResult where
  arrival      : StationTime
  index        : Nat
  continuity   : Nat
  randomAccess : Bool
  payloadStart : Bool
deriving DecidableEq, Repr

/-- A carriage record that is not FREE (R1), with its source monitor (R41). -/
structure Record where
  state        : RecState
  owner        : Requester
  key          : Key
  cls          : ProgClass
  region       : Nat
  components   : List Component
  peak         : Nat
  fallback     : Option Nat
  lossWindow   : Nat
  restoreHold  : Nat
  autoReturn   : Bool
  planned      : Nat
  onAir        : Nat
  spliceRefs   : Nat
  fallbackRefs : Nat
  hit          : Bool
  armed        : Bool
  probe        : Option ProbeResult
  /-- the uptime at which the silence timer started; none: stopped -/
  silence      : Option Nat
  /-- the uptime at which the hold timer started; none: stopped -/
  hold         : Option Nat
  silentFlag   : Bool
deriving DecidableEq, Repr

/-- A notice handed to the FLT (R48). -/
inductive Notice where
  | loss (handle : Nat)
  | restoration (handle : Nat)
deriving DecidableEq, Repr

/-- An on-air update handed to the CTAB (R14). -/
structure OnAirUpdate where
  old : Option Nat
  new : Option Nat
deriving DecidableEq, Repr

/-! ### Feed Leg Table (R58, R68) -/

/-- R58 -/
structure Leg where
  state      : LegState
  zone       : Zone
  claim      : Option Requester
  accept     : GroupSet
  streamId   : Nat
  capacity   : Nat
  dirPid     : Nat
  dirPeriod  : Nat
  switchWait : Nat
deriving DecidableEq, Repr

/-- R58's starting values of leg `f`. -/
def Leg.start (f : Nat) : Leg :=
  { state := .idle, zone := .site, claim := none, accept := BitVec.allOnes 16, streamId := f + 1,
    capacity := 24000, dirPid := 0x10, dirPeriod := 100, switchWait := 1000 }

/-- R67 -/
structure Binding where
  handle    : Nat
  programme : Nat
  base      : Nat
deriving DecidableEq, Repr

/-- A running timer with the length it was started with, in milliseconds (R76, R93). -/
structure Timer where
  start  : Nat
  length : Nat
deriving DecidableEq, Repr

/-- R68 -/
structure Slot where
  planned  : Option Binding
  onAir    : OnAir
  source   : Option Nat
  outgoing : Option Nat
  deadline : Option Timer
  reserved : Option Nat
deriving DecidableEq, Repr

/-- R68's starting values. -/
def Slot.start : Slot := ⟨none, .empty, none, none, none, none⟩

/-! ### Replicator and Feed Output (ch. 5) -/

/-- A packet in a leg's output buffer (R84, R87). -/
structure Buffered where
  bytes   : List Byte
  preface : Bool
  cls     : ProgClass
  payload : Nat
deriving DecidableEq, Repr

/-- A slot entry of a directory (R94). -/
structure DirectoryEntry where
  programme  : Nat
  on         : Bool
  components : List Component
deriving DecidableEq, Repr

/-- What is compared between two directories (R97). -/
structure Directory where
  streamId : Nat
  entries  : List DirectoryEntry
deriving DecidableEq, Repr

/-- R98 -/
structure LegOut where
  buffer  : List Buffered
  due     : List (List Byte)
  timer   : Option Timer
  last    : Option Directory
  version : BitVec 5
  /-- the packet last put on the output line -/
  line    : Option (List Byte)
deriving DecidableEq, Repr

def LegOut.start : LegOut := ⟨[], [], none, none, 0, none⟩

/-! ### Edits, triggers and the Edit Engine (ch. 6) -/

/-- The fields of a CREATE RECORD (R3). -/
structure CreateFields where
  key         : Key
  cls         : ProgClass
  region      : Nat
  components  : List Component
  peak        : Nat
  fallback    : Option Nat
  lossWindow  : Option Nat
  restoreHold : Option Nat
  autoReturn  : Option Bool
deriving DecidableEq, Repr

/-- The fields of an AMEND RECORD (R12). -/
structure AmendFields where
  handle        : Nat
  setFallback   : Option Nat
  clearFallback : Bool
  peak          : Option Nat
  lossWindow    : Option Nat
  restoreHold   : Option Nat
  autoReturn    : Option Bool
  region        : Option Nat
deriving DecidableEq, Repr

/-- The fields of a SET LEG (R60). -/
structure LegFields where
  feed       : Nat
  state      : Option LegState
  accept     : Option GroupSet
  capacity   : Option Nat
  streamId   : Option Nat
  dirPid     : Option Nat
  dirPeriod  : Option Nat
  switchWait : Option Nat
deriving DecidableEq, Repr

/-- The two edits a splice entry may hold (R139): bind the slot, or unbind it (`binding` absent). -/
structure SlotEdit where
  feed    : Nat
  slot    : Nat
  binding : Option Binding
deriving DecidableEq, Repr

/-- The six edits (R106); a CREATE RECORD holds the handle it reserved, 0 before it arrives. -/
inductive Edit where
  | create (handle : Nat) (c : CreateFields)
  | amend (a : AmendFields)
  | retire (handle : Nat)
  | slot (e : SlotEdit)
  | setLeg (l : LegFields)
deriving DecidableEq, Repr

/-- A level's three controls (R99). -/
structure Level where
  legEdits  : Bool
  retire    : Bool
  tolerance : Nat
deriving DecidableEq, Repr

/-- R103; a CUE matcher without an id matches ANY; `timeAfter` is the TIME matcher of a HELD return,
whose station time is written at the original's execution (R152). -/
inductive Matcher where
  | cue (input : Nat) (id : Option (BitVec 32)) (kind : CueKind)
  | time (t : StationTime)
  | timeAfter (seconds : Nat)
deriving DecidableEq, Repr

/-- R103 -/
structure Trigger where
  mode  : TriggerMode
  a     : Matcher
  b     : Option Matcher
  count : Nat
deriving DecidableEq, Repr

/-- R103: at least one of the two is present. -/
structure ReturnOption where
  inCue    : Bool
  duration : Option Nat
deriving DecidableEq, Repr

/-- A commit in flight (R123): the kind of the request that started it, and an APPLY's handles. -/
structure CommitFlight where
  kind    : Byte
  handles : List Nat
deriving DecidableEq, Repr

/-- R99 -/
structure Workspace where
  depth      : Nat
  levels     : List Level
  mode       : Mode
  trigger    : Option Trigger
  returnOpt  : Option ReturnOption
  claims     : FeedSet
  edits      : List (Edit × Nat)
  handles    : List Nat
  mapEntries : List Nat
  /-- the skipped count (R127); between acts it is 0 (log entry 39) -/
  skipped    : Nat
  /-- the uptime at which the idle timer started; none: stopped -/
  idle       : Option Nat
  flight     : Option CommitFlight
deriving DecidableEq, Repr

/-- R99's starting values. -/
def Workspace.start : Workspace :=
  ⟨0, [], .immediate, none, none, 0, [], [], [], 0, none, none⟩

/-- R101's subject. -/
structure Subject where
  handle : Option Nat
  feed   : Option Nat
  slot   : Option Nat
  entry  : Option Nat
deriving DecidableEq, Repr

def Subject.none : Subject := ⟨.none, .none, .none, .none⟩

/-- R101; `code` is 0 when absent. -/
structure OutcomeRecord where
  result  : Result
  code    : Nat
  index   : Option Nat
  subject : Subject
  depth   : Nat
  applied : Nat
  skipped : Nat
  mode    : Mode
  entry   : Option Nat
  ret     : Option Nat
deriving DecidableEq, Repr

def OutcomeRecord.start : OutcomeRecord :=
  ⟨.none, 0, none, .none, 0, 0, 0, .immediate, none, none⟩

/-! ### Splice Scheduler (ch. 8) -/

/-- R33 -/
structure Cue where
  input    : Nat
  id       : BitVec 32
  kind     : CueKind
  preRoll  : Nat
  arrival  : StationTime
  maturity : StationTime
deriving DecidableEq, Repr

/-- R138 -/
structure Entry where
  state      : EntryState
  owner      : Option Requester
  role       : Option Role
  partner    : Option Nat
  trigger    : Option Trigger
  remaining  : Option Nat
  /-- matcher A is TIME and has occurred -/
  occurredA  : Bool
  /-- matcher B is TIME and has occurred -/
  occurredB  : Bool
  tolerance  : Option Nat
  edits      : List SlotEdit
  tracked    : List (Nat × Nat)
  executedAt : Option StationTime
  applied    : Option Nat
  skipped    : Option Nat
  result     : LastResult
  code       : Option Code
deriving DecidableEq, Repr

def Entry.start : Entry :=
  ⟨.free, none, none, none, none, none, false, false, none, [], [], none, none, none, .none, none⟩

/-! ### Statistics Unit (R161) -/

structure Pair where
  mask     : EventSet
  unit     : CountUnit
  network  : Nat
  regional : Nat
deriving DecidableEq, Repr

/-- R161's starting values of the pair with key 8 * feed + number: pair 0 counts FORWARDED. -/
def Pair.start (k : Nat) : Pair :=
  ⟨if k % 8 = 0 then 1 else 0, .packets, 0, 0⟩

/-! ### Management Interface (ch. 10) -/

/-- R172 -/
structure Reply where
  kind  : Byte
  disp  : Disposition
  code  : Nat
  depth : Nat
  body  : List Byte
deriving DecidableEq, Repr

/-- Which request SITE has in flight beyond its own step (R171). -/
inductive PortFlight where
  | commit
  | clearAll
deriving DecidableEq, Repr

/-- R169 -/
structure Port where
  flight  : Option PortFlight
  reply   : Option Reply
  ignored : Bool
  buffer  : List Byte
deriving DecidableEq, Repr

def Port.start : Port := ⟨none, none, false, []⟩

/-- The MISO pin (R169, R181). -/
inductive Miso where
  | released
  | shifted (bytes : List Byte)
deriving DecidableEq, Repr

/-- An entry of the network command queue (R174): the body holds the kind and the parameters. -/
structure Command where
  seq   : Nat
  input : Nat
  body  : List Byte
deriving DecidableEq, Repr

/-- NETWORK's request in flight (R175). -/
structure NetFlight where
  seq   : Nat
  input : Nat
  kind  : Byte
deriving DecidableEq, Repr

/-- R176 -/
structure Posting where
  seq   : Nat
  input : Nat
  reply : Reply
deriving DecidableEq, Repr

/-- R176 -/
structure Mailbox where
  posting : Option Posting
  unread  : Bool
deriving DecidableEq, Repr

/-! ### Hand-overs within the part -/

/-- An act of the source monitor that a commit act made due at once (R46). -/
inductive DueAct where
  /-- the expiry of the loss window of the record -/
  | expiry (handle : Nat)
  /-- the end of the restore hold of the record -/
  | holdEnd (handle : Nat)
deriving DecidableEq, Repr

/-- A report that a tracked slot left PENDING: the slot, and the SWITCHING entries that tracked it as it left
(R80, R155; log entry 28). -/
structure SlotReport where
  feed    : Nat
  slot    : Nat
  entries : List Nat
deriving DecidableEq, Repr

/-! ### The whole part -/

structure State where
  /-- the commands that wait, first in first out -/
  pending : List Instr
  phase   : Phase
  /-- ticks of 90 kHz since power-on: what every millisecond timer is measured in (log entry 5) -/
  uptime  : Nat
  /-- the station clock (R141) -/
  clock   : StationTime
  /-- keyed by input number -/
  inputs  : Table Input
  /-- keyed by 8192 * input + source PID -/
  smap    : Table MapEntry
  /-- keyed by handle; a handle not listed is FREE -/
  records : Table Record
  notices : List Notice
  /-- the acts of the source monitor that are due at once, in the order they are taken (R46) -/
  ctabDue : List DueAct
  /-- keyed by feed -/
  legs    : Table Leg
  /-- keyed by 16 * feed + slot -/
  slots   : Table Slot
  updates : List OnAirUpdate
  /-- the reports of tracked slots that left PENDING, in the order of the moves, not yet taken by the SPS:
  they wait only while a TIME matcher's occurrence is due (R80, R145) -/
  reports : List SlotReport
  /-- keyed by feed -/
  outs    : Table LegOut
  /-- next continuity counts, keyed by 8192 * feed + PID -/
  counts  : Table Nat
  /-- discontinuity marks, keyed by 8192 * feed + PID -/
  marks   : Table Bool
  siteWs  : Workspace
  netWs   : Workspace
  siteOutcome : OutcomeRecord
  netOutcome  : OutcomeRecord
  /-- the batch idle limit in seconds (R118) -/
  idleLimit : Nat
  /-- requesters whose idle expiry is due at once (R118) -/
  idleDue : List Requester
  /-- keyed by entry number -/
  entries : Table Entry
  cues    : List Cue
  /-- keyed by 8 * feed + pair -/
  pairs   : Table Pair
  /-- the flags that are set, each with its first detail, keyed by the kind's bit (R166) -/
  attention : Table Nat
  attMask : KindSet
  /-- ATTN is asserted (driven low) -/
  attn    : Bool
  port    : Port
  miso    : Miso
  netQueue  : List Command
  netFlight : Option NetFlight
  mailbox : Mailbox
  relayOn : Bool
deriving DecidableEq, Repr

/-- Power-on, right after the release of RESETN: every block at the power-on values its chapter gives
(R24, R26, R38, R58, R81, R98, R99, R101, R118, R159, R161, R166, R167, R181). The port takes its
first transaction after RESET_RELEASE_TIME_ELAPSED (log entry 7). -/
def State.reset : State where
  pending := []
  phase := .settling
  uptime := 0
  clock := 0
  inputs := []
  smap := []
  records := []
  notices := []
  ctabDue := []
  legs := []
  slots := []
  updates := []
  reports := []
  outs := []
  counts := []
  marks := []
  siteWs := .start
  netWs := .start
  siteOutcome := .start
  netOutcome := .start
  idleLimit := 30
  idleDue := []
  entries := []
  cues := []
  pairs := []
  attention := []
  attMask := BitVec.allOnes 7
  attn := false
  port := .start
  miso := .shifted []
  netQueue := []
  netFlight := none
  mailbox := ⟨none, false⟩
  relayOn := true

end Sys2Proof.Machine
end

