-- ==== Sys2Proof/Machine/Table.lean ====
section
/-! DEFINITION. Reading and writing the sparse tables: keys rise, and a value equal to the starting
value is not listed, so equal tables are equal lists. -/

namespace Sys2Proof.Machine

variable {α : Type}

/-- The value listed under a key. -/
def Table.find? : Table α → Nat → Option α
  | [], _ => none
  | (k', v) :: t, k => if k' = k then some v else Table.find? t k

/-- The table with `v` listed under `k`, at its place. -/
def Table.put : Table α → Nat → α → Table α
  | [], k, v => [(k, v)]
  | (k', v') :: t, k, v =>
    if k < k' then (k, v) :: (k', v') :: t
    else if k = k' then (k, v) :: t
    else (k', v') :: Table.put t k v

/-- The table with nothing listed under `k`. -/
def Table.erase (t : Table α) (k : Nat) : Table α :=
  t.filter fun c => c.1 != k

/-- The value of a key in a table whose unlisted keys hold `d`. -/
def Table.look (d : α) (t : Table α) (k : Nat) : α :=
  (Table.find? t k).getD d

/-- The table with key `k` holding `v`, in a table whose unlisted keys hold `d`. -/
def Table.store [DecidableEq α] (d : α) (t : Table α) (k : Nat) (v : α) : Table α :=
  if v = d then Table.erase t k else Table.put t k v

/-- The canonical form's order: keys strictly rising. -/
def Table.rising : Table α → Bool
  | [] => true
  | [_] => true
  | a :: b :: t => decide (a.1 < b.1) && Table.rising (b :: t)

end Sys2Proof.Machine
end

