-- ==== Sys2Proof/Machine/Ops.lean ====
section
/-! DEFINITION. The named operations over the tables of the part: one home for each piece of state, and
one way to read and to write it. -/

namespace Sys2Proof.Machine

/-! ### Reading and writing -/

def State.input (s : State) (i : Nat) : Input := Table.look (Input.start i) s.inputs i

def State.setInput (s : State) (i : Nat) (x : Input) : State :=
  { s with inputs := Table.store (Input.start i) s.inputs i x }

/-- A record that is not FREE (R1). -/
def State.record? (s : State) (h : Nat) : Option Record := Table.find? s.records h

def State.setRecord (s : State) (h : Nat) (r : Record) : State :=
  { s with records := Table.put s.records h r }

/-- Change a record that is not FREE; a FREE one has nothing to change. -/
def State.modRecord (s : State) (h : Nat) (f : Record → Record) : State :=
  match s.record? h with
  | some r => s.setRecord h (f r)
  | none => s

def State.leg (s : State) (f : Nat) : Leg := Table.look (Leg.start f) s.legs f

def State.setLeg (s : State) (f : Nat) (l : Leg) : State :=
  { s with legs := Table.store (Leg.start f) s.legs f l }

/-- The key of a slot: legs in order, slots in order within a leg. -/
def slotKey (f i : Nat) : Nat := 16 * f + i

def State.slotAt (s : State) (k : Nat) : Slot := Table.look Slot.start s.slots k

def State.slot (s : State) (f i : Nat) : Slot := s.slotAt (slotKey f i)

def State.setSlotAt (s : State) (k : Nat) (x : Slot) : State :=
  { s with slots := Table.store Slot.start s.slots k x }

/-- Every slot's key, legs in order and slots in order within a leg. -/
def slotKeys : List Nat := List.range (Config.feeds * Config.slotsPerLeg)

def State.out (s : State) (f : Nat) : LegOut := Table.look .start s.outs f

def State.setOut (s : State) (f : Nat) (o : LegOut) : State :=
  { s with outs := Table.store .start s.outs f o }

/-- The key of a PID of a leg (R85, R86), and of a source PID of an input (R36). -/
def pidKey (n pid : Nat) : Nat := 8192 * n + pid

def State.count (s : State) (f pid : Nat) : Nat := Table.look 0 s.counts (pidKey f pid)

def State.setCount (s : State) (f pid n : Nat) : State :=
  { s with counts := Table.store 0 s.counts (pidKey f pid) n }

def State.mark (s : State) (f pid : Nat) : Bool := Table.look false s.marks (pidKey f pid)

def State.setMark (s : State) (f pid : Nat) (b : Bool) : State :=
  { s with marks := Table.store false s.marks (pidKey f pid) b }

/-- The eight PIDs of a slot's output range become due on leg `f` (R67, R86). -/
def State.markRange (s : State) (f base : Nat) : State :=
  (List.range 8).foldl (fun s k => s.setMark f (base + k) true) s

def State.entry (s : State) (e : Nat) : Entry := Table.look .start s.entries e

def State.setEntry (s : State) (e : Nat) (x : Entry) : State :=
  { s with entries := Table.store .start s.entries e x }

def State.pair (s : State) (k : Nat) : Pair := Table.look (Pair.start k) s.pairs k

def State.setPair (s : State) (k : Nat) (p : Pair) : State :=
  { s with pairs := Table.store (Pair.start k) s.pairs k p }

def State.ws (s : State) : Requester → Workspace
  | .site => s.siteWs
  | .network => s.netWs

def State.setWs (s : State) (r : Requester) (w : Workspace) : State :=
  match r with
  | .site => { s with siteWs := w }
  | .network => { s with netWs := w }

def State.outcome (s : State) : Requester → OutcomeRecord
  | .site => s.siteOutcome
  | .network => s.netOutcome

def State.setOutcome (s : State) (r : Requester) (o : OutcomeRecord) : State :=
  match r with
  | .site => { s with siteOutcome := o }
  | .network => { s with netOutcome := o }

/-- While RESETN is asserted no event has an effect but its release (R181, log entry 7). -/
def State.awake (s : State) (act : State → State) : State :=
  if s.phase = .asserted then s else act s

/-! ### Time (R41, R76, R93, R117; log entry 5) -/

/-- A timer started at uptime `start` has reached `ms` milliseconds. -/
def State.reached (s : State) (start ms : Nat) : Bool :=
  decide (Config.ticksPerMs * ms ≤ s.uptime - start)

def State.timerReached (s : State) (t : Timer) : Bool := s.reached t.start t.length

/-- The station clock has reached the time `t` (R35, R141). -/
def State.clockReached (s : State) (t : StationTime) : Bool :=
  decide ((s.clock - t).toNat < 2 ^ 32)

/-! ### Questions about records (R6, R49) -/

/-- The record is LIVE. -/
def State.usable (s : State) (h : Nat) : Bool :=
  match s.record? h with
  | some r => r.state = .live
  | none => false

/-- LIVE, or RETIRING with its silent flag clear (R49). -/
def State.onAirFit (s : State) (h : Nat) : Bool :=
  match s.record? h with
  | some r => r.state = .live || (r.state = .retiring && !r.silentFlag)
  | none => false

/-- LIVE, LOST or RESTORING (R6). -/
def State.committed (s : State) (h : Nat) : Bool :=
  match s.record? h with
  | some r => r.state = .live || r.state = .lost || r.state = .restoring
  | none => false

def State.fallbackOf (s : State) (h : Nat) : Option Nat :=
  match s.record? h with
  | some r => r.fallback
  | none => none

/-- The record's fallback, when it is usable (R49). -/
def State.usableFallback (s : State) (h : Nat) : Option Nat :=
  match s.fallbackOf h with
  | some fb => if s.usable fb then some fb else none
  | none => none

/-! ### Freeing records and the reference counts -/

/-- R19: the record becomes FREE and the Stream Map removes its entries. -/
def State.freeRecord (s : State) (h : Nat) : State :=
  { s with
    records := Table.erase s.records h
    smap := s.smap.filter fun c => c.2.handle != h }

/-- The CTAB takes one on-air update; a RETIRING record whose on-air count it brings to 0 is freed in
the same act (R14, R18). -/
def State.takeUpdate (s : State) (u : OnAirUpdate) : State :=
  let s := match u.new with
    | some n => s.modRecord n fun r => { r with onAir := r.onAir + 1 }
    | none => s
  match u.old with
  | none => s
  | some o =>
    let s := s.modRecord o fun r => { r with onAir := r.onAir - 1 }
    match s.record? o with
    | some r => if r.state = .retiring && r.onAir == 0 then s.freeRecord o else s
    | none => s

/-- The CTAB takes every on-air update handed to it, oldest first (R78). -/
def State.takeUpdates (s : State) : State :=
  s.updates.foldl State.takeUpdate { s with updates := [] }

/-- A record gains or loses one planned binding (R13). -/
def State.plan (s : State) (old new : Option Nat) : State :=
  let s := match new with
    | some n => s.modRecord n fun r => { r with planned := r.planned + 1 }
    | none => s
  match old with
  | some o => s.modRecord o fun r => { r with planned := r.planned - 1 }
  | none => s

/-- A record's fallback changes: the fallback reference counts move (R16). -/
def State.moveFallbackRef (s : State) (old new : Option Nat) : State :=
  let s := match new with
    | some n => s.modRecord n fun r => { r with fallbackRefs := r.fallbackRefs + 1 }
    | none => s
  match old with
  | some o => s.modRecord o fun r => { r with fallbackRefs := r.fallbackRefs - 1 }
  | none => s

/-- +1 on the splice reference count of each record a BIND SLOT edit of the list names (R15). -/
def State.addSpliceRefs (s : State) (edits : List SlotEdit) : State :=
  edits.foldl (fun s e => match e.binding with
    | some b => s.modRecord b.handle fun r => { r with spliceRefs := r.spliceRefs + 1 }
    | none => s) s

/-- -1 on the splice reference count of each record a BIND SLOT edit of the list names (R15). -/
def State.dropSpliceRefs (s : State) (edits : List SlotEdit) : State :=
  edits.foldl (fun s e => match e.binding with
    | some b => s.modRecord b.handle fun r => { r with spliceRefs := r.spliceRefs - 1 }
    | none => s) s

/-! ### Claims and reservations (R62, R63, R70) -/

/-- Every leg claimed by the requester goes to claim holder none (R63). -/
def State.releaseClaims (s : State) (r : Requester) : State :=
  (List.range Config.feeds).foldl (fun s f =>
    if (s.leg f).claim = some r then s.setLeg f { s.leg f with claim := none } else s) s

/-- The slots reserved by entry `e` pass to `heir`, or are released (R70). -/
def State.passReservations (s : State) (e : Nat) (heir : Option Nat) : State :=
  slotKeys.foldl (fun s k =>
    if (s.slotAt k).reserved = some e then s.setSlotAt k { s.slotAt k with reserved := heir } else s) s

/-- The free places of the splice edit store (R139). -/
def State.freePlaces (s : State) : Nat :=
  Config.storePlaces -
    ((s.entries.map fun c => if c.2.state = .free then 0 else c.2.edits.length).sum)

/-! ### Leg plan (R66) -/

/-- The declared peak rate a planned binding counts (R66). -/
def State.plannedRate (s : State) (b : Option Binding) : Nat :=
  match b with
  | some b => match s.record? b.handle with
    | some r => r.peak
    | none => 0
  | none => 0

/-- The planned load of a leg (R66). -/
def State.plannedLoad (s : State) (f : Nat) : Nat :=
  ((List.range Config.slotsPerLeg).map fun i => s.plannedRate (s.slot f i).planned).sum

end Sys2Proof.Machine
end

