-- ==== Sys2Proof/Machine/Judge.lean ====
section
/-! DEFINITION. Judging edits: the picture of the tables that a commit act or a splice execution builds,
the two tolerable codes, the leg laws, fallbacks and retirements
(07_commit_and_validation.md, R125 to R130; 08_splice_entries_and_triggers.md, R150). -/

namespace Sys2Proof.Machine

/-- Why a batch or an execution fails: the code, the failing edit's position and the subject (R101). -/
structure Failure where
  code    : Code
  index   : Option Nat
  subject : Subject
deriving DecidableEq, Repr

def Failure.plain (c : Code) : Failure := ⟨c, none, .none⟩

/-! ### What an edit names (R106, R108) -/

/-- The handles of an edit that must be ones the requester can name, in the edit's order. The first that fails check
6 or 7 is the failure's subject: where an AMEND RECORD's own handle and the fallback it sets both fail one check, R121
and R126 do not say which, and the model names the amended handle (DESIGN CHOICE, log entry 15). -/
def Edit.named : Edit → List Nat
  | .create _ c => c.fallback.toList
  | .amend a => a.handle :: a.setFallback.toList
  | .retire h => [h]
  | .slot e => (e.binding.map (·.handle)).toList
  | .setLeg _ => []

/-- The handles of an edit that must be bindable: all but that of a RETIRE RECORD. -/
def Edit.bound : Edit → List Nat
  | .retire _ => []
  | e => e.named

/-- The feed an edit names (R62). -/
def Edit.feed? : Edit → Option Nat
  | .slot e => some e.feed
  | .setLeg l => some l.feed
  | .create .. | .amend _ | .retire _ => none

/-- The subject of a failure that concerns the edit as a whole (R127, log entry 15). -/
def Edit.subject : Edit → Subject
  | .create h _ => { Subject.none with handle := some h }
  | .amend a => { Subject.none with handle := some a.handle }
  | .retire h => { Subject.none with handle := some h }
  | .slot e => { Subject.none with feed := some e.feed, slot := some e.slot }
  | .setLeg l => { Subject.none with feed := some l.feed }

/-- Checks 6 and 7 (R106, R108, R126), by what can be named and what is being retired. -/
def handleFailure (known retiring : Nat → Bool) (e : Edit) : Option (Code × Nat) :=
  match e.named.find? (fun h => !known h) with
  | some h => some (.unknownHandle, h)
  | none => (e.bound.find? retiring).map fun h => (.notBindable, h)

/-- Check 9 (R70, R110). -/
def reservedBy (s : State) (e : Edit) : Option Subject :=
  match e with
  | .slot e => (s.slot e.feed e.slot).reserved.map fun n => ⟨none, some e.feed, some e.slot, some n⟩
  | .create .. | .amend _ | .retire _ | .setLeg _ => none

def handleSubject (h : Nat) : Subject := { Subject.none with handle := some h }

/-! ### Writing an edit's fields -/

/-- The changes of an AMEND RECORD, written into the record (R12). -/
def AmendFields.apply (a : AmendFields) (r : Record) : Record :=
  { r with
    fallback := if a.clearFallback then none else a.setFallback.orElse fun _ => r.fallback
    peak := a.peak.getD r.peak
    lossWindow := a.lossWindow.getD r.lossWindow
    restoreHold := a.restoreHold.getD r.restoreHold
    autoReturn := a.autoReturn.getD r.autoReturn
    region := a.region.getD r.region }

/-- The fields of a SET LEG, written into the leg (R59, R60). -/
def LegFields.apply (l : LegFields) (x : Leg) : Leg :=
  { x with
    state := l.state.getD x.state
    accept := l.accept.getD x.accept
    capacity := l.capacity.getD x.capacity
    streamId := l.streamId.getD x.streamId
    dirPid := l.dirPid.getD x.dirPid
    dirPeriod := l.dirPeriod.getD x.dirPeriod
    switchWait := l.switchWait.getD x.switchWait }

/-! ### The picture (R125) -/

/-- The tables as the edits so far would leave them, with the records retired so far (and the position
of each RETIRE RECORD), the edits applied and the number skipped. -/
structure Picture where
  tables  : State
  retired : List (Nat × Nat)
  applied : List Edit
  skipped : Nat

def Picture.start (s : State) : Picture := ⟨s, [], [], 0⟩

/-- RETIRING in the tables, or retired earlier in the batch. -/
def Picture.retiring (p : Picture) (h : Nat) : Bool :=
  p.retired.any (fun c => c.1 == h) || ((p.tables.record? h).map (·.state)) == some .retiring

/-- A handle an edit can name at the commit act: not FREE and not RESERVED in the picture (R126). R126's check names
FREE handles and those RESERVED by the other workspace. One RESERVED by the batch's own workspace whose CREATE RECORD
was skipped (DEDUCED), or stands later in the list than the edit, which named the record that had the handle before
(DESIGN CHOICE), is unknown to the model (log entry 17). -/
def Picture.known (p : Picture) (h : Nat) : Bool :=
  match p.tables.record? h with
  | some r => r.state != .reserved
  | none => false

/-- REDUNDANT in the picture (R127). -/
def Picture.redundant (p : Picture) : Edit → Bool
  | .slot e => (p.tables.slot e.feed e.slot).planned == e.binding
  | .retire h => p.retiring h
  | .amend a => (p.tables.record? a.handle).any fun r => a.apply r == r
  | .create .. | .setLeg _ => false

/-- The record a fallback is set to is LOST in the picture (R127). -/
def Picture.lostFallback (p : Picture) (fb : Option Nat) : Bool :=
  fb.any fun h => ((p.tables.record? h).map (·.state)) == some .lost

/-- SOURCE_LOST in the picture (R127). -/
def Picture.sourceLost (p : Picture) : Edit → Bool
  | .slot e =>
    match e.binding with
    | some b =>
      match p.tables.record? b.handle with
      | some r => (r.state == .lost || r.state == .restoring) && (p.tables.usableFallback b.handle).isNone
      | none => false
    | none => false
  | .create _ c => p.lostFallback c.fallback
  | .amend a => p.lostFallback a.setFallback
  | .retire _ | .setLeg _ => false

/-- The picture's tables with an edit applied. -/
def State.paint (s : State) : Edit → State
  | .create h _ => s.modRecord h fun r => { r with state := .live }
  | .amend a => s.modRecord a.handle a.apply
  | .retire _ => s
  | .slot e =>
    s.setSlotAt (slotKey e.feed e.slot) { s.slot e.feed e.slot with planned := e.binding }
  | .setLeg l => s.setLeg l.feed (l.apply (s.leg l.feed))

/-- The picture with the edit at position `n` applied. -/
def Picture.applyEdit (p : Picture) (n : Nat) (e : Edit) : Picture :=
  { p with
    tables := p.tables.paint e
    retired := match e with
      | .retire h => p.retired ++ [(h, n)]
      | _ => p.retired
    applied := p.applied ++ [e] }

def Picture.skip (p : Picture) : Picture := { p with skipped := p.skipped + 1 }

/-- The edit at position `n` is judged with a tolerance, and applied, skipped or failed (R120, R127; log
entry 16). -/
def Picture.judge (p : Picture) (n : Nat) (e : Edit) (tolerance : Nat) : Except Failure Picture :=
  if p.redundant e then
    if 1 ≤ tolerance then .ok p.skip else .error ⟨.redundant, some n, e.subject⟩
  else if p.sourceLost e then
    if 2 ≤ tolerance then .ok p.skip else .error ⟨.sourceLost, some n, e.subject⟩
  else .ok (p.applyEdit n e)

/-- Checks 6, 7 and 9 again, on the picture (R126). -/
def Picture.recheck (p : Picture) (n : Nat) (e : Edit) : Option Failure :=
  match handleFailure p.known p.retiring e with
  | some (c, h) => some ⟨c, some n, handleSubject h⟩
  | none => (reservedBy p.tables e).map fun x => ⟨.slotReserved, some n, x⟩

/-- Stage 1 of a commit act from position `n` on (R126, R127). -/
def Picture.walk : Picture → Nat → List (Edit × Nat) → Except Failure Picture
  | p, _, [] => .ok p
  | p, n, (e, stamp) :: rest =>
    match p.recheck n e with
    | some f => .error f
    | none =>
      match p.judge n e stamp with
      | .ok q => Picture.walk q (n + 1) rest
      | .error f => .error f

/-- Stage 1 of an execution: the handles and slots are held by the entry itself (R150). -/
def Picture.walkEntry : Picture → Nat → List SlotEdit → Nat → Except Failure Picture
  | p, _, [], _ => .ok p
  | p, n, e :: rest, tolerance =>
    match p.judge n (.slot e) tolerance with
    | .ok q => Picture.walkEntry q (n + 1) rest tolerance
    | .error f => .error f

/-! ### Stage 2: the leg laws (R65 to R67, R128) -/

/-- The region group of a record, when there is such a record, is in the set (R65). -/
def regionIn (s : State) (accept : GroupSet) (h : Nat) : Bool :=
  match s.record? h with
  | some r => accept.getLsbD r.region
  | none => true

/-- A planned slot breaks R65. -/
def regionBad (s : State) (c : Nat × Slot) : Bool :=
  match c.2.planned with
  | some b =>
    let accept := (s.leg (c.1 / 16)).accept
    !(regionIn s accept b.handle && (s.fallbackOf b.handle).all (regionIn s accept))
  | none => false

def regionFailure (s : State) : Option Failure :=
  (s.slots.find? (regionBad s)).map fun c =>
    ⟨.regionRefused, none,
      ⟨c.2.planned.map (·.handle), some (c.1 / 16), some (c.1 % 16), none⟩⟩

/-- A leg breaks R66. -/
def capacityBad (s : State) (f : Nat) : Bool :=
  decide ((s.leg f).capacity < s.plannedLoad f + Config.directoryAllowance)

def capacityFailure (s : State) : Option Failure :=
  ((List.range Config.feeds).find? (capacityBad s)).map fun f =>
    ⟨.capacityExceeded, none, { Subject.none with feed := some f }⟩

/-- Two planned bindings of one leg collide: the same programme number, or ranges that share a PID
(R67). -/
def collide (a b : Binding) : Bool :=
  a.programme == b.programme || (decide (a.base < b.base + 8) && decide (b.base < a.base + 8))

/-- Two slots of one leg collide. -/
def slotsCollide (c d : Nat × Slot) : Bool :=
  c.1 / 16 == d.1 / 16 && match c.2.planned, d.2.planned with
    | some a, some b => collide a b
    | _, _ => false

/-- The higher slot of the lowest colliding pair (R128). -/
def firstCollision : List (Nat × Slot) → Option Nat
  | [] => none
  | c :: t =>
    match t.find? (slotsCollide c) with
    | some d => some d.1
    | none => firstCollision t

def collisionFailure (s : State) : Option Failure :=
  (firstCollision s.slots).map fun k =>
    ⟨.outputCollision, none, ⟨none, some (k / 16), some (k % 16), none⟩⟩

/-- The three laws in their order, on every leg (R128). -/
def legLaws (s : State) : Option Failure :=
  match regionFailure s with
  | some f => some f
  | none =>
    match capacityFailure s with
    | some f => some f
    | none => collisionFailure s

/-! ### Stages 3 and 4 (R129, R130) -/

/-- A record whose fallback is judged: committed and not retired by the batch (log entry 18). -/
def Picture.stays (p : Picture) (h : Nat) : Bool :=
  p.tables.committed h && !p.retired.any (fun c => c.1 == h)

/-- The record's fallback breaks R129. -/
def Picture.fallbackBad (p : Picture) (c : Nat × Record) : Bool :=
  match c.2.fallback with
  | some fb =>
    p.stays c.1 && (!p.stays fb || fb == c.1
      || (p.tables.record? fb).any fun r => decide (c.2.peak < r.peak))
  | none => false

def Picture.fallbackFailure (p : Picture) : Option Failure :=
  (p.tables.records.find? p.fallbackBad).map fun c =>
    ⟨.fallbackInvalid, none, handleSubject c.1⟩

/-- Planned bindings of the picture that name a record (R130). -/
def Picture.plannedOf (p : Picture) (h : Nat) : Nat :=
  p.tables.slots.countP fun c => c.2.planned.map (·.handle) == some h

/-- Records of the picture, not retired by the batch, whose fallback names a record (R130). -/
def Picture.fallbackRefsOf (p : Picture) (h : Nat) : Nat :=
  p.tables.records.countP fun c => p.stays c.1 && c.2.fallback == some h

/-- The record a RETIRE RECORD retires is still in use (R130). -/
def Picture.inUse (p : Picture) (h : Nat) : Bool :=
  p.plannedOf h != 0 || ((p.tables.record? h).map (·.spliceRefs)).getD 0 != 0
    || p.fallbackRefsOf h != 0

def Picture.retireFailure (p : Picture) : Option Failure :=
  (p.retired.find? fun c => p.inUse c.1).map fun c =>
    ⟨.inUse, some c.2, handleSubject c.1⟩

end Sys2Proof.Machine
end

