-- ==== Sys2Proof/Machine/Flags.lean ====
section
/-! DEFINITION. The attention set and the ATTN line (R166, R167), the leg event counters (R160 to R162)
and the input counters (R40). -/

namespace Sys2Proof.Machine

/-! ### Attention (R166, R167) -/

/-- The bit of an attention kind (R182). -/
def AttKind.bit : AttKind → Nat
  | .spliceDone => 0
  | .spliceFailed => 1
  | .sourceLost => 2
  | .sourceRestored => 3
  | .probeDone => 4
  | .relayWaiting => 5
  | .networkQueueFull => 6

/-- At least one flag whose kind is in the mask is set (R167). -/
def attentionWanted (flags : Table Nat) (mask : KindSet) : Bool :=
  flags.any fun c => mask.getLsbD c.1

/-- The MIF drives ATTN anew (R167). -/
def State.driveAttn (s : State) : State :=
  { s with attn := attentionWanted s.attention s.attMask }

/-- R166: a kind's flag is set with its first detail when it is clear; a flag already set stays. -/
def State.raise (s : State) (k : AttKind) (detail : Nat) : State :=
  match Table.find? s.attention k.bit with
  | some _ => s
  | none => { s with attention := Table.put s.attention k.bit detail }.driveAttn

/-! ### Leg event counters (R160 to R162) -/

/-- The bit of a leg event (R182). -/
def LegEvent.bit : LegEvent → Nat
  | .forwarded => 0
  | .droppedFull => 1
  | .droppedMuted => 2
  | .switchedClean => 3
  | .switchedForced => 4
  | .substituted => 5
  | .slated => 6

/-- The events that concern one packet (R160). -/
def LegEvent.ofPacket : LegEvent → Bool
  | .forwarded | .droppedFull | .droppedMuted => true
  | .switchedClean | .switchedForced | .substituted | .slated => false

/-- An addition that saturates at 2^32-1 (R40, R162). -/
def saturate (a b : Nat) : Nat := min (a + b) Config.counterMax

/-- What a report adds to a pair's counter (R162's table). -/
def Pair.amount (u : CountUnit) (e : LegEvent) (payload : Nat) : Nat :=
  match u with
  | .packets => 1
  | .bytes => if e.ofPacket then payload else 1

/-- A pair takes a report (R162). -/
def Pair.take (p : Pair) (e : LegEvent) (c : ProgClass) (payload : Nat) : Pair :=
  if p.mask.getLsbD e.bit then
    match c with
    | .network => { p with network := saturate p.network (Pair.amount p.unit e payload) }
    | .regional => { p with regional := saturate p.regional (Pair.amount p.unit e payload) }
  else p

/-- The STU takes a report: every pair of the leg, in one act (R162). -/
def State.report (s : State) (f : Nat) (e : LegEvent) (c : ProgClass) (payload : Nat) : State :=
  (List.range 8).foldl (fun s n => s.setPair (8 * f + n) ((s.pair (8 * f + n)).take e c payload)) s

/-- A report that names a record: its class is read when the report is made (R160). -/
def State.reportFor (s : State) (f : Nat) (e : LegEvent) (h : Nat) (payload : Nat) : State :=
  match s.record? h with
  | some r => s.report f e r.cls payload
  | none => s

/-! ### Input counters (R40) -/

/-- Change an input's counters; each saturates (R40). -/
def State.countInput (s : State) (i : Nat) (f : InputCounters → InputCounters) : State :=
  s.setInput i { s.input i with counters := f (s.input i).counters }

def InputCounters.incReceived (c : InputCounters) : InputCounters :=
  { c with received := saturate c.received 1 }

def InputCounters.incSyncLosses (c : InputCounters) : InputCounters :=
  { c with syncLosses := saturate c.syncLosses 1 }

def InputCounters.incErrored (c : InputCounters) : InputCounters :=
  { c with errored := saturate c.errored 1 }

def InputCounters.incUnmapped (c : InputCounters) : InputCounters :=
  { c with unmapped := saturate c.unmapped 1 }

def InputCounters.incContinuity (c : InputCounters) : InputCounters :=
  { c with continuity := saturate c.continuity 1 }

def InputCounters.incCuesReceived (c : InputCounters) : InputCounters :=
  { c with cuesReceived := saturate c.cuesReceived 1 }

def InputCounters.incCuesDropped (c : InputCounters) : InputCounters :=
  { c with cuesDropped := saturate c.cuesDropped 1 }

def InputCounters.incCommandsTaken (c : InputCounters) : InputCounters :=
  { c with commandsTaken := saturate c.commandsTaken 1 }

def InputCounters.incCommandsDropped (c : InputCounters) : InputCounters :=
  { c with commandsDropped := saturate c.commandsDropped 1 }

end Sys2Proof.Machine
end

