-- ==== Sys2Proof/Machine/Operands.lean ====
section
/-! DEFINITION. The parameters of requests: their layout (R173, R182) and the ranges their fields must
lie in (R27, R102, R103, R107 and each direct request's rule). A layout that does not fill its bytes
exactly and a field out of range are both answered by the owner (R173; log entries 11, 12). -/

namespace Sys2Proof.Machine

/-! ### Reading fields (R182) -/

/-- A number of `n` bytes, most significant first, and the bytes after it. -/
def getNat (n : Nat) (p : List Byte) : Option (Nat × List Byte) :=
  if p.length < n then none else some (natOf (p.take n), p.drop n)

/-- An optional part: its bytes follow only when its presence bit is set. -/
def getIf (present : Bool) (n : Nat) (p : List Byte) : Option (Option Nat × List Byte) :=
  if present then (getNat n p).map fun x => (some x.1, x.2) else some (none, p)

/-- Parameters of fixed widths that fill the bytes exactly. -/
def fieldsOf : List Nat → List Byte → Option (List Nat)
  | [], [] => some []
  | [], _ :: _ => none
  | n :: ns, p =>
    match getNat n p with
    | some (v, q) => (fieldsOf ns q).map (v :: ·)
    | none => none

/-- Presence bits beyond the parts a request has are out of range (log entry 11). -/
def presenceOk (parts presence : Nat) : Bool := decide (presence < 2 ^ parts)

/-! ### Enumerations, numbered in the order their value lists stand (R182) -/

/-- A yes/no field or a flag: R182 gives the bytes 0 and 1, and the model takes 1 as yes (DESIGN CHOICE, log entry
41). -/
def flag? : Nat → Option Bool
  | 0 => some false
  | 1 => some true
  | _ => none

def optFlag? : Option Nat → Option (Option Bool)
  | none => some none
  | some n => (flag? n).map some

def ProgClass.ofNat? : Nat → Option ProgClass
  | 0 => some .network
  | 1 => some .regional
  | _ => none

def CompKind.ofNat? : Nat → Option CompKind
  | 0 => some .video
  | 1 => some .audio
  | 2 => some .subtitle
  | 3 => some .data
  | _ => none

def LegState.ofNat? : Nat → Option LegState
  | 0 => some .idle
  | 1 => some .onAir
  | 2 => some .muted
  | _ => none

def Zone.ofNat? : Nat → Option Zone
  | 0 => some .site
  | 1 => some .network
  | 2 => some .shared
  | _ => none

def Mode.ofNat? : Nat → Option Mode
  | 0 => some .immediate
  | 1 => some .deferred
  | _ => none

def TriggerMode.ofNat? : Nat → Option TriggerMode
  | 0 => some .sole
  | 1 => some .either
  | 2 => some .after
  | 3 => some .countThen
  | 4 => some .orDeadline
  | _ => none

def CueKind.ofNat? : Nat → Option CueKind
  | 0 => some .out
  | 1 => some .inn
  | _ => none

def CountUnit.ofNat? : Nat → Option CountUnit
  | 0 => some .packets
  | 1 => some .bytes
  | _ => none

def Requester.ofNat? : Nat → Option Requester
  | 0 => some .site
  | 1 => some .network
  | _ => none

/-! ### Ranges (chapters 1 and 4) -/

def handleOk (h : Nat) : Bool := decide (1 ≤ h) && decide (h ≤ Config.maxHandle)

def feedOk (f : Nat) : Bool := decide (f < Config.feeds)

def slotOk (i : Nat) : Bool := decide (i < Config.slotsPerLeg)

def within (lo hi v : Nat) : Bool := decide (lo ≤ v) && decide (v ≤ hi)

/-- A source PID, a cue PID or a command PID: 0x0020..0x1FFE. -/
def pidOk (p : Nat) : Bool := within 0x20 0x1FFE p

def lossWindowOk (v : Nat) : Bool := within 40 2000 v && v % 10 == 0

def restoreHoldOk (v : Nat) : Bool := within 0 5000 v && v % 100 == 0

/-! ### Edits (R106, R107) -/

/-- An edit as it was sent: the feed field it carries, and the edit it spells when it passes the field
check of R107. -/
structure SentEdit where
  feed : Option Nat
  edit : Option Edit
deriving DecidableEq, Repr

/-- One item of a component list (R5, R182). -/
def component? (x : Nat × Nat) : Option Component :=
  match CompKind.ofNat? x.2 with
  | some k => if pidOk x.1 then some ⟨x.1, k⟩ else none
  | none => none

/-- R5, R107: 1..8 entries, no source PID twice. -/
def componentsOk (cs : List Component) : Bool :=
  within 1 8 cs.length && decide (cs.map (·.pid)).Nodup

/-- The field check of CREATE RECORD (R107). -/
def checkCreate (presence input programme cls region : Nat) (items : List (Nat × Nat)) (peak : Nat)
    (fb lw rh ar : Option Nat) : Option Edit := do
  let cls ← ProgClass.ofNat? cls
  let components ← items.mapM component?
  let autoReturn ← optFlag? ar
  if presenceOk 4 presence && within 0 7 input && within 1 65535 programme && within 0 15 region
      && componentsOk components && within 32 40000 peak && fb.all handleOk && lw.all lossWindowOk
      && rh.all restoreHoldOk then
    some (.create 0 ⟨⟨input, programme⟩, cls, region, components, peak, fb, lw, rh, autoReturn⟩)
  else none

/-- The field check of AMEND RECORD (R107). -/
def checkAmend (presence handle : Nat) (fb : Option Nat) (clear : Bool)
    (peak lw rh ar region : Option Nat) : Option Edit := do
  let autoReturn ← optFlag? ar
  if presenceOk 7 presence && presence != 0 && handleOk handle && !(fb.isSome && clear)
      && fb.all (fun f => handleOk f && f != handle) && peak.all (within 32 40000)
      && lw.all lossWindowOk && rh.all restoreHoldOk && region.all (within 0 15) then
    some (.amend ⟨handle, fb, clear, peak, lw, rh, autoReturn, region⟩)
  else none

/-- The field check of SET LEG (R107). -/
def checkSetLeg (presence feed : Nat) (st accept capacity streamId dirPid dirPeriod wait : Option Nat) :
    Option Edit := do
  let st ← match st with
    | none => some none
    | some n => (LegState.ofNat? n).map some
  if presenceOk 7 presence && presence != 0 && feedOk feed && capacity.all (within 1000 60000)
      && dirPid.all (within 0x10 0x1F) && dirPeriod.all (within 25 1000)
      && wait.all (within 100 4000) then
    some (.setLeg ⟨feed, st, accept.map (BitVec.ofNat 16), capacity, streamId, dirPid, dirPeriod, wait⟩)
  else none

/-- The field check of BIND SLOT (R107). -/
def checkBind (feed slot handle programme base : Nat) : Option Edit :=
  if feedOk feed && slotOk slot && handleOk handle && within 1 65535 programme
      && within 0x20 0x1FF7 base then
    some (.slot ⟨feed, slot, some ⟨handle, programme, base⟩⟩)
  else none

/-- The field check of UNBIND SLOT (R107). -/
def checkUnbind (feed slot : Nat) : Option Edit :=
  if feedOk feed && slotOk slot then some (.slot ⟨feed, slot, none⟩) else none

/-- `c` items of source PID and kind (R182). -/
def getItems : Nat → List Byte → Option (List (Nat × Nat) × List Byte)
  | 0, p => some ([], p)
  | c + 1, p => do
    let (pid, p) ← getNat 2 p
    let (kind, p) ← getNat 1 p
    let (items, p) ← getItems c p
    some ((pid, kind) :: items, p)

def getCreate (p : List Byte) : Option (SentEdit × List Byte) := do
  let (presence, p) ← getNat 1 p
  let (input, p) ← getNat 1 p
  let (programme, p) ← getNat 2 p
  let (cls, p) ← getNat 1 p
  let (region, p) ← getNat 1 p
  let (c, p) ← getNat 1 p
  let (items, p) ← getItems c p
  let (peak, p) ← getNat 2 p
  let (fb, p) ← getIf (presence.testBit 0) 2 p
  let (lw, p) ← getIf (presence.testBit 1) 2 p
  let (rh, p) ← getIf (presence.testBit 2) 2 p
  let (ar, p) ← getIf (presence.testBit 3) 1 p
  some (⟨none, checkCreate presence input programme cls region items peak fb lw rh ar⟩, p)

def getAmend (p : List Byte) : Option (SentEdit × List Byte) := do
  let (presence, p) ← getNat 1 p
  let (handle, p) ← getNat 2 p
  let (fb, p) ← getIf (presence.testBit 0) 2 p
  let clear := presence.testBit 1
  let (peak, p) ← getIf (presence.testBit 2) 2 p
  let (lw, p) ← getIf (presence.testBit 3) 2 p
  let (rh, p) ← getIf (presence.testBit 4) 2 p
  let (ar, p) ← getIf (presence.testBit 5) 1 p
  let (region, p) ← getIf (presence.testBit 6) 1 p
  some (⟨none, checkAmend presence handle fb clear peak lw rh ar region⟩, p)

def getRetire (p : List Byte) : Option (SentEdit × List Byte) := do
  let (handle, p) ← getNat 2 p
  some (⟨none, if handleOk handle then some (.retire handle) else none⟩, p)

def getBind (p : List Byte) : Option (SentEdit × List Byte) := do
  let (feed, p) ← getNat 1 p
  let (slot, p) ← getNat 1 p
  let (handle, p) ← getNat 2 p
  let (programme, p) ← getNat 2 p
  let (base, p) ← getNat 2 p
  some (⟨some feed, checkBind feed slot handle programme base⟩, p)

def getUnbind (p : List Byte) : Option (SentEdit × List Byte) := do
  let (feed, p) ← getNat 1 p
  let (slot, p) ← getNat 1 p
  some (⟨some feed, checkUnbind feed slot⟩, p)

def getSetLeg (p : List Byte) : Option (SentEdit × List Byte) := do
  let (presence, p) ← getNat 1 p
  let (feed, p) ← getNat 1 p
  let (st, p) ← getIf (presence.testBit 0) 1 p
  let (accept, p) ← getIf (presence.testBit 1) 2 p
  let (capacity, p) ← getIf (presence.testBit 2) 2 p
  let (streamId, p) ← getIf (presence.testBit 3) 2 p
  let (dirPid, p) ← getIf (presence.testBit 4) 2 p
  let (dirPeriod, p) ← getIf (presence.testBit 5) 2 p
  let (wait, p) ← getIf (presence.testBit 6) 2 p
  some (⟨some feed, checkSetLeg presence feed st accept capacity streamId dirPid dirPeriod wait⟩, p)

/-- The parameters of the edit of a kind byte, and the bytes after them. -/
def getEdit (kind : Nat) (p : List Byte) : Option (SentEdit × List Byte) :=
  match kind with
  | 0x10 => getCreate p
  | 0x11 => getAmend p
  | 0x12 => getRetire p
  | 0x13 => getBind p
  | 0x14 => getUnbind p
  | 0x15 => getSetLeg p
  | _ => none

/-- An edit sent as a request: bytes that its kind does not fill exactly fail the field check (R173). -/
def parseEdit (kind : Nat) (p : List Byte) : Option Edit :=
  match getEdit kind p with
  | some (e, []) => e.edit
  | _ => none

def getEdits : Nat → List Byte → Option (List SentEdit × List Byte)
  | 0, p => some ([], p)
  | n + 1, p => do
    let (kind, p) ← getNat 1 p
    let (e, p) ← getEdit kind p
    let (es, p) ← getEdits n p
    some (e :: es, p)

/-- APPLY: a count byte, 1..4, then each edit as its kind byte and parameters (R182). -/
def parseApply (p : List Byte) : Option (List SentEdit) :=
  match getNat 1 p with
  | some (n, p) =>
    if within 1 4 n then
      match getEdits n p with
      | some (es, []) => some es
      | _ => none
    else none
  | none => none

/-! ### OPEN BATCH (R102 to R104) -/

/-- A matcher as it was sent (R182). -/
inductive SentMatcher where
  | absent
  | cue (input any id kind : Nat)
  | time (t : Nat)
  | unknownForm
deriving DecidableEq, Repr

/-- A matcher and the bytes after it. The spec lays out form bytes 0, 1 and 0xFF; another one takes the form
byte alone, which matters only in a nested OPEN BATCH, whose trigger is not checked (R104; DESIGN CHOICE,
log entry 11). -/
def getMatcher (p : List Byte) : Option (SentMatcher × List Byte) := do
  let (form, p) ← getNat 1 p
  if form = 0 then
    let (input, p) ← getNat 1 p
    let (any, p) ← getNat 1 p
    let (id, p) ← getNat 4 p
    let (kind, p) ← getNat 1 p
    some (.cue input any id kind, p)
  else if form = 1 then
    let (t, p) ← getNat 5 p
    some (.time t, p)
  else if form = 0xFF then some (.absent, p)
  else some (.unknownForm, p)

/-- A matcher's ranges (R103): the outer Option is the check, the inner one its absence. The four id bytes of ANY
may have any value and are not held (R182; DESIGN CHOICE, log entry 43). -/
def matcher? : SentMatcher → Option (Option Matcher)
  | .absent => some none
  | .cue input any id kind => do
    let any ← flag? any
    let kind ← CueKind.ofNat? kind
    if input < 8 then some (some (.cue input (if any then none else some (BitVec.ofNat 32 id)) kind))
    else none
  | .time t => if t < 2 ^ 33 then some (some (.time (BitVec.ofNat 33 t))) else none
  | .unknownForm => none

def Matcher.isTime : Matcher → Bool
  | .cue .. => false
  | .time _ | .timeAfter _ => true

/-- R103's table. -/
def trigger? (mode : Nat) (a b : SentMatcher) (n : Nat) : Option Trigger := do
  let mode ← TriggerMode.ofNat? mode
  let a ← matcher? a
  let a ← a
  let b ← matcher? b
  let bOk := match mode with
    | .sole => b.isNone
    | .either | .after | .countThen => b.isSome
    | .orDeadline => b.any Matcher.isTime
  if bOk && within 1 255 n then some ⟨mode, a, b, n⟩ else none

/-- A return option as it was sent: its flag byte and its duration (R182). -/
def returnOption? (flags : Nat) (duration : Option Nat) (a : Matcher) : Option (Option ReturnOption) :=
  if flags < 4 && duration.all (within 1 47721) && !(flags.testBit 0 && a.isTime) then
    if flags = 0 then some none else some (some ⟨flags.testBit 0, duration⟩)
  else none

/-- What an OPEN BATCH carries for the batch as a whole (R102). -/
structure BatchParams where
  claims    : FeedSet
  mode      : Mode
  trigger   : Option Trigger
  returnOpt : Option ReturnOption
deriving DecidableEq, Repr

/-- An OPEN BATCH as it was sent: its level's controls when they are in range, and what it carries for
the batch when that is in range too (R102 checks 1 and 2). -/
structure SentOpen where
  level : Option Level
  batch : Option BatchParams
deriving DecidableEq, Repr

def level? (legEdits retire tolerance : Nat) : Option Level := do
  let legEdits ← flag? legEdits
  let retire ← flag? retire
  if tolerance ≤ 2 then some ⟨legEdits, retire, tolerance⟩ else none

/-- R102 checks 1 and 2, R103: an IMMEDIATE batch carries neither trigger nor return option. -/
def batch? (presence claims mode : Nat) (trigger : Option (Nat × SentMatcher × SentMatcher × Nat))
    (ret : Option (Nat × Option Nat)) : Option BatchParams := do
  let mode ← Mode.ofNat? mode
  if presenceOk 2 presence then
    match mode, trigger with
    | .immediate, none =>
      if ret.all (fun r => r.1 == 0) then some ⟨BitVec.ofNat 24 claims, .immediate, none, none⟩ else none
    | .immediate, some _ => none
    | .deferred, none => none
    | .deferred, some (m, a, b, n) => do
      let t ← trigger? m a b n
      match ret with
      | none => some ⟨BitVec.ofNat 24 claims, .deferred, some t, none⟩
      | some (flags, duration) => do
        let ro ← returnOption? flags duration t.a
        some ⟨BitVec.ofNat 24 claims, .deferred, some t, ro⟩
  else none

def getTrigger (p : List Byte) : Option ((Nat × SentMatcher × SentMatcher × Nat) × List Byte) := do
  let (mode, p) ← getNat 1 p
  let (a, p) ← getMatcher p
  let (b, p) ← getMatcher p
  let (n, p) ← getNat 1 p
  some ((mode, a, b, n), p)

def getReturn (p : List Byte) : Option ((Nat × Option Nat) × List Byte) := do
  let (flags, p) ← getNat 1 p
  let (duration, p) ← getIf (flags.testBit 1) 4 p
  some ((flags, duration), p)

/-- OPEN BATCH: presence byte (trigger, return option), claim set, mode, the three controls, then the
parts that are present (log entry 11). -/
def parseOpen (p : List Byte) : Option SentOpen := do
  let (presence, p) ← getNat 1 p
  let (claims, p) ← getNat 3 p
  let (mode, p) ← getNat 1 p
  let (legEdits, p) ← getNat 1 p
  let (retire, p) ← getNat 1 p
  let (tolerance, p) ← getNat 1 p
  let (trigger, p) ← if presence.testBit 0 then (getTrigger p).map fun x => (some x.1, x.2)
    else some (none, p)
  let (ret, p) ← if presence.testBit 1 then (getReturn p).map fun x => (some x.1, x.2)
    else some (none, p)
  match p with
  | [] => some ⟨level? legEdits retire tolerance, batch? presence claims mode trigger ret⟩
  | _ :: _ => none

/-! ### SET INPUT (R27) -/

/-- The settings a SET INPUT carries; `cuePid` present and none clears the cue PID. -/
structure InputSettings where
  input      : Nat
  enabled    : Option Bool
  cuePid     : Option (Option Nat)
  commandPid : Option Nat
  bearing    : Option Bool
deriving DecidableEq, Repr

/-- R27 step 1. -/
def parseSetInput (p : List Byte) : Option InputSettings := do
  let (presence, p) ← getNat 1 p
  let (input, p) ← getNat 1 p
  let (enabled, p) ← getIf (presence.testBit 0) 1 p
  let (cue, p) ← getIf (presence.testBit 1) 2 p
  let (command, p) ← getIf (presence.testBit 2) 2 p
  let (bearing, p) ← getIf (presence.testBit 3) 1 p
  let enabled ← optFlag? enabled
  let bearing ← optFlag? bearing
  if p.isEmpty && presenceOk 4 presence && decide (input < 8)
      && cue.all (fun c => c == 0xFFFF || pidOk c) && command.all pidOk
      && !(bearing == some true && decide (1 < input)) then
    some ⟨input, enabled, cue.map (fun c => if c = 0xFFFF then none else some c), command, bearing⟩
  else none

/-! ### Reads with an optional clear (R23, R164; log entry 11) -/

/-- READ RECORD: presence byte (clear), handle. -/
def parseReadRecord (p : List Byte) : Option (Bool × Nat) :=
  match fieldsOf [1, 2] p with
  | some [presence, h] =>
    if presenceOk 1 presence && handleOk h then some (presence.testBit 0, h) else none
  | _ => none

/-- What READ COUNTERS names (R164). -/
inductive CounterPlace where
  | feed (f : Nat)
  | input (i : Nat)
deriving DecidableEq, Repr

/-- READ COUNTERS: presence byte (clear), selector, feed or input. -/
def parseReadCounters (p : List Byte) : Option (Bool × CounterPlace) :=
  match fieldsOf [1, 1, 1] p with
  | some [presence, selector, n] =>
    if presenceOk 1 presence then
      if selector = 0 ∧ n < Config.feeds then some (presence.testBit 0, .feed n)
      else if selector = 1 ∧ n < 8 then some (presence.testBit 0, .input n)
      else none
    else none
  | _ => none

end Sys2Proof.Machine
end

