-- ==== Sys2Proof/Machine/Monitor.lean ====
section
/-! DEFINITION. The Carriage Table's own acts: the source monitor (R41 to R47, R57), the hit marker and
the probe (R20, R22), and on-air updates (R14). -/

namespace Sys2Proof.Machine

/-! ### The source monitor -/

/-- The CTAB raises SOURCE_LOST and hands the loss to the FLT (R48, R57). -/
def State.reportLoss (s : State) (h : Nat) : State :=
  let s := s.raise .sourceLost h
  { s with notices := s.notices ++ [.loss h] }

/-- The CTAB raises SOURCE_RESTORED and hands the restoration to the FLT (R48, R57). -/
def State.reportRestoration (s : State) (h : Nat) : State :=
  let s := s.raise .sourceRestored h
  { s with notices := s.notices ++ [.restoration h] }

/-- The loss window of record `h` expires (R43; log entry 33). -/
def State.loseSource (s : State) (h : Nat) (r : Record) : State :=
  match r.state with
  | .live | .restoring =>
    (s.setRecord h { r with state := .lost, silence := none, hold := none }).reportLoss h
  | .retiring =>
    if r.silentFlag then s.setRecord h { r with silence := none }
    else (s.setRecord h { r with silentFlag := true }).reportLoss h
  | .reserved | .lost => s

/-- The expiry of the loss window of record `h`, if the silence timer has reached it (R43). -/
def State.expireWindow (s : State) (h : Nat) : State :=
  match s.record? h with
  | some r =>
    match r.silence with
    | some t => if s.reached t r.lossWindow then s.loseSource h r else s
    | none => s
  | none => s

/-- The end of the restore hold of record `h`, if the hold timer has reached it (R44). -/
def State.endHold (s : State) (h : Nat) : State :=
  match s.record? h with
  | some r =>
    match r.state, r.hold with
    | .restoring, some t =>
      if s.reached t r.restoreHold then
        (s.setRecord h { r with state := .live, hold := none }).reportRestoration h
      else s
    | _, _ => s
  | none => s

/-- One act that a commit act made due (R43, R44, R46). -/
def State.takeDue (s : State) : DueAct → State
  | .expiry h => s.expireWindow h
  | .holdEnd h => s.endHold h

/-- The CTAB takes the expiries and hold ends that a commit act made due at once, before any later act
of its own (R46). The spec leaves open in which order several are taken: the model takes the records in
the order of the AMEND RECORD edits that made them due, and a record's expiry before its hold end (R12,
R45, R46, R131; DESIGN CHOICE, log entry 6). -/
def State.settleCtab (s : State) : State := s.ctabDue.foldl State.takeDue { s with ctabDue := [] }

/-- A packet of the principal component counts for the monitor (R42). -/
def State.countPacket (s : State) (h : Nat) : State :=
  match s.record? h with
  | some r =>
    let r := { r with silence := some s.uptime }
    match r.state with
    | .live | .restoring => s.setRecord h r
    | .lost =>
      if r.restoreHold = 0 then (s.setRecord h { r with state := .live }).reportRestoration h
      else s.setRecord h { r with state := .restoring, hold := some s.uptime }
    | .retiring => s.setRecord h { r with silentFlag := false }
    | .reserved => s
  | none => s

/-! ### Hit marker and probe -/

/-- The result a packet gives a probe, with the packet's arrival station time (R22). -/
def probeOf (index : Nat) (arrival : StationTime) (p : List Byte) : ProbeResult :=
  ⟨arrival, index, pktContinuity p, pktRandomAccess p, pktPayloadStart p⟩

/-- An armed probe is completed by a matched packet, which arrived at the station clock as it stands
(R22, R25, R141; log entry 8). -/
def State.completeProbe (s : State) (h index : Nat) (p : List Byte) : State :=
  match s.record? h with
  | some r =>
    if r.armed then
      (s.setRecord h { r with armed := false, probe := some (probeOf index s.clock p) }).raise
        .probeDone h
    else s
  | none => s

/-- The CTAB takes a packet matched to component `index` of record `h` (R20, R22, R42). -/
def State.notePacket (s : State) (h index : Nat) (p : List Byte) : State :=
  let s := s.settleCtab
  let s := s.modRecord h fun r => { r with hit := true }
  let s := s.completeProbe h index p
  if index = 0 then s.countPacket h else s

/-! ### The rows -/

/-- LOSS_WINDOW_EXPIRED (R43), after the acts a commit made due (R46). -/
def execLossWindowExpired (h : Nat) (s : State) : Host.Outcome State Fault Refusal :=
  if handleOk h then .next (s.awake fun s => s.settleCtab.expireWindow h) else .fault .noSuchRecord

/-- RESTORE_HOLD_ENDED (R44), after the acts a commit made due (R46). -/
def execRestoreHoldEnded (h : Nat) (s : State) : Host.Outcome State Fault Refusal :=
  if handleOk h then .next (s.awake fun s => s.settleCtab.endHold h) else .fault .noSuchRecord

/-- ON_AIR_UPDATE: the CTAB takes the update handed on first (R14, R18, R78). -/
def execOnAirUpdate (s : State) : Host.Outcome State Fault Refusal :=
  .next (s.awake fun s =>
    let s := s.settleCtab
    match s.updates with
    | u :: rest => { s with updates := rest }.takeUpdate u
    | [] => s)

end Sys2Proof.Machine
end

