-- ==== Sys2Proof/Machine/Formats.lean ====
section
/-! DEFINITION. Encodings of what the part sends: codes and enumerations (R182), reply bodies (R173,
section 10.2), reply frames, postings and directories (R172, R183, R185). -/

namespace Sys2Proof.Machine

/-! ### Numbers of codes and enumerations (R182) -/

def Code.num : Code → Nat
  | .badField => 1
  | .notDeferrable => 2
  | .notClaimed => 3
  | .legEditNotAllowed => 4
  | .retireNotAllowed => 5
  | .unknownHandle => 6
  | .notBindable => 7
  | .notOwner => 8
  | .slotReserved => 9
  | .workspaceFull => 10
  | .keyExists => 11
  | .tableFull => 12
  | .pidTaken => 13
  | .mapFull => 14
  | .redundant => 15
  | .sourceLost => 16
  | .regionRefused => 17
  | .capacityExceeded => 18
  | .outputCollision => 19
  | .fallbackInvalid => 20
  | .inUse => 21
  | .spliceTableFull => 22
  | .spliceStoreFull => 23
  | .zoneRefused => 24
  | .claimed => 25
  | .noBatch => 26
  | .depthExceeded => 27
  | .batchExpired => 28
  | .stateRefused => 29
  | .notPermitted => 30

def Disposition.num : Disposition → Nat
  | .taken => 0
  | .refused => 1
  | .ended => 2
  | .frameError => 3
  | .unknownRequest => 4

/-- FREE is 0 (R182). -/
def RecState.num : RecState → Nat
  | .reserved => 1
  | .live => 2
  | .lost => 3
  | .restoring => 4
  | .retiring => 5

def requesterNum : Requester → Nat
  | .site => 0
  | .network => 1

/-- The claim holder's value list is none, SITE, NETWORK (R58). -/
def claimNum : Option Requester → Nat
  | none => 0
  | some .site => 1
  | some .network => 2

def ProgClass.num : ProgClass → Nat
  | .network => 0
  | .regional => 1

def CompKind.num : CompKind → Nat
  | .video => 0
  | .audio => 1
  | .subtitle => 2
  | .data => 3

def LegState.num : LegState → Nat
  | .idle => 0
  | .onAir => 1
  | .muted => 2

def Zone.num : Zone → Nat
  | .site => 0
  | .network => 1
  | .shared => 2

def OnAir.num : OnAir → Nat
  | .empty => 0
  | .steady => 1
  | .pending => 2
  | .substituted => 3
  | .slated => 4

def Mode.num : Mode → Nat
  | .immediate => 0
  | .deferred => 1

def TriggerMode.num : TriggerMode → Nat
  | .sole => 0
  | .either => 1
  | .after => 2
  | .countThen => 3
  | .orDeadline => 4

def CueKind.num : CueKind → Nat
  | .out => 0
  | .inn => 1

def EntryState.num : EntryState → Nat
  | .free => 0
  | .armed => 1
  | .primed => 2
  | .held => 3
  | .switching => 4

def Role.num : Role → Nat
  | .original => 0
  | .ret => 1

def LastResult.num : LastResult → Nat
  | .none => 0
  | .done => 1
  | .failed => 2
  | .cancelled => 3

def Result.num : Result → Nat
  | .none => 0
  | .committed => 1
  | .deferred => 2
  | .abandoned => 3
  | .aborted => 4

def CountUnit.num : CountUnit → Nat
  | .packets => 0
  | .bytes => 1

def Sync.num : Sync → Nat
  | .search => 0
  | .locked => 1

/-! ### Fields (R182) -/

/-- The bytes of an absent field that has no "none" encoding: free values (log entry 13). -/
def blank (b : Config.BlankField) (n : Nat) : List Byte :=
  (List.range n).map (Config.noneByte b)

def encHandle (h : Option Nat) : List Byte := bytesOf 2 (h.getD 0)

/-- Feed, slot, component index or splice entry: 0xFF is none. -/
def encSmall (n : Option Nat) : List Byte := bytesOf 1 (n.getD 0xFF)

def encPid (p : Option Nat) : List Byte := bytesOf 2 (p.getD 0xFFFF)

def encOr (b : Config.BlankField) (n : Nat) : Option Nat → List Byte
  | some v => bytesOf n v
  | none => blank b n

def encFlag (b : Bool) : List Byte := [flagByte b]

def encTime (t : StationTime) : List Byte := bytesOf 5 t.toNat

/-! ### READ RECORD, FIND RECORD, LIST RECORDS (R23, R178) -/

/-- One of the eight component items of READ RECORD (section 10.2). -/
def encComponent : Option Component → List Byte
  | some c => bytesOf 2 c.pid ++ bytesOf 1 c.kind.num
  | none => bytesOf 2 0xFFFF ++ blank .componentKind 1

def encComponents (cs : List Component) : List Byte :=
  (List.range 8).flatMap fun k => encComponent cs[k]?

def encProbe : Option ProbeResult → List Byte
  | some p => encTime p.arrival ++ bytesOf 1 p.index ++ bytesOf 1 p.continuity
      ++ encFlag p.randomAccess ++ encFlag p.payloadStart
  | none => blank .probeTime 5 ++ encSmall none ++ blank .probeContinuity 1
      ++ blank .probeRandomAccess 1 ++ blank .probePayloadStart 1

/-- The fields of R1 in their table's order. -/
def encRecord (h : Nat) : Option Record → List Byte
  | some r =>
    bytesOf 2 h ++ bytesOf 1 r.state.num ++ bytesOf 1 (requesterNum r.owner)
      ++ bytesOf 1 r.key.input ++ bytesOf 2 r.key.programme ++ bytesOf 1 r.cls.num
      ++ bytesOf 1 r.region ++ encComponents r.components ++ bytesOf 2 r.peak ++ encHandle r.fallback
      ++ bytesOf 2 r.lossWindow ++ bytesOf 2 r.restoreHold ++ encFlag r.autoReturn
      ++ bytesOf 2 r.planned ++ bytesOf 2 r.onAir ++ bytesOf 2 r.spliceRefs ++ bytesOf 2 r.fallbackRefs
      ++ encFlag r.hit ++ encFlag r.armed ++ encProbe r.probe
  | none =>
    bytesOf 2 h ++ bytesOf 1 0 ++ blank .recordOwner 1
      ++ blank .recordInput 1 ++ blank .recordProgramme 2 ++ blank .recordClass 1
      ++ blank .recordRegion 1 ++ encComponents [] ++ blank .recordPeak 2 ++ encHandle none
      ++ blank .recordLossWindow 2 ++ blank .recordRestoreHold 2 ++ blank .recordAutoReturn 1
      ++ bytesOf 2 0 ++ bytesOf 2 0 ++ bytesOf 2 0 ++ bytesOf 2 0
      ++ encFlag false ++ encFlag false ++ encProbe none

/-- An item of LIST RECORDS: handle, state, owner and key (R178). -/
def encListed (c : Nat × Record) : List Byte :=
  bytesOf 2 c.1 ++ bytesOf 1 c.2.state.num ++ bytesOf 1 (requesterNum c.2.owner)
    ++ bytesOf 1 c.2.key.input ++ bytesOf 2 c.2.key.programme

/-! ### READ LEG, READ SLOT (R82) -/

def encLeg (s : State) (f : Nat) : List Byte :=
  let l := s.leg f
  bytesOf 1 l.state.num ++ bytesOf 1 l.zone.num ++ bytesOf 1 (claimNum l.claim)
    ++ bytesOf 2 l.accept.toNat ++ bytesOf 2 l.streamId ++ bytesOf 2 l.capacity ++ bytesOf 2 l.dirPid
    ++ bytesOf 2 l.dirPeriod ++ bytesOf 2 l.switchWait ++ bytesOf 1 (s.out f).version.toNat
    ++ bytesOf 2 (s.plannedLoad f)
    ++ (List.range Config.slotsPerLeg).flatMap fun i => bytesOf 1 (s.slot f i).onAir.num

/-- The milliseconds that remain of a running timer (R82, log entry 27). -/
def State.remainingMs (s : State) (t : Timer) : Nat :=
  t.length - (s.uptime - t.start) / Config.ticksPerMs

def encSlot (s : State) (f i : Nat) : List Byte :=
  let x := s.slot f i
  encHandle (x.planned.map (·.handle)) ++ encOr .slotProgramme 2 (x.planned.map (·.programme))
    ++ encPid (x.planned.map (·.base)) ++ bytesOf 1 x.onAir.num ++ encHandle x.source
    ++ encHandle x.outgoing ++ encOr .slotDeadline 2 (x.deadline.map s.remainingMs)
    ++ encSmall x.reserved

/-! ### READ SPLICE (R158) -/

/-- A matcher (R158, R182). R182 gives ANY the flag byte 1 and 4 bytes without a value: what was sent there is not
held, and READ SPLICE gives a free value (DESIGN CHOICE, log entry 43). A HELD return's TIME matcher has no station
time yet (log entry 24). -/
def encMatcher : Option Matcher → List Byte
  | none => [0xFF]
  | some (.cue input id kind) =>
    [0] ++ bytesOf 1 input ++ encFlag id.isNone ++ encOr .anyId 4 (id.map (·.toNat)) ++ bytesOf 1 kind.num
  | some (.time t) => [1] ++ encTime t
  | some (.timeAfter _) => [1] ++ blank .heldTime 5

/-- The occurred mark of a TIME matcher; a CUE matcher has none. -/
def encMark (m : Option Matcher) (occurred : Bool) : List Byte :=
  match m with
  | some (.time _) | some (.timeAfter _) => encFlag occurred
  | some (.cue ..) | none => []

def encSlotEdit (e : SlotEdit) : List Byte :=
  match e.binding with
  | some b => [0x13] ++ bytesOf 1 e.feed ++ bytesOf 1 e.slot ++ bytesOf 2 b.handle
      ++ bytesOf 2 b.programme ++ bytesOf 2 b.base
  | none => [0x14] ++ bytesOf 1 e.feed ++ bytesOf 1 e.slot

def encEntry (s : State) (n : Nat) : List Byte :=
  let x := s.entry n
  let a := x.trigger.map (·.a)
  let b := x.trigger.bind (·.b)
  bytesOf 1 x.state.num ++ encOr .entryOwner 1 (x.owner.map requesterNum)
    ++ encOr .entryRole 1 (x.role.map Role.num) ++ encSmall x.partner
    ++ encOr .entryMode 1 (x.trigger.map (·.mode.num)) ++ encMatcher a ++ encMatcher b
    ++ encOr .entryCount 1 (x.trigger.map (·.count)) ++ encOr .entryRemaining 1 x.remaining
    ++ encMark a x.occurredA ++ encMark b x.occurredB ++ encOr .entryTolerance 1 x.tolerance
    ++ bytesOf 1 x.edits.length ++ x.edits.flatMap encSlotEdit
    ++ bytesOf 1 x.tracked.length ++ x.tracked.flatMap (fun t => bytesOf 1 t.1 ++ bytesOf 1 t.2)
    ++ encOr .entryExecutedAt 5 (x.executedAt.map (·.toNat)) ++ encOr .entryApplied 1 x.applied
    ++ encOr .entrySkipped 1 x.skipped ++ bytesOf 1 x.result.num
    ++ bytesOf 1 ((x.code.map Code.num).getD 0)
    ++ bytesOf 2 s.freePlaces ++ encTime s.clock

/-! ### READ OUTCOME, READ COUNTERS, READ INPUT (R101, R164, R165) -/

/-- The outcome record's 14 bytes (R182). -/
def encOutcome (o : OutcomeRecord) : List Byte :=
  bytesOf 1 o.result.num ++ bytesOf 1 o.code ++ bytesOf 1 (o.index.getD 0)
    ++ encHandle o.subject.handle ++ encSmall o.subject.feed ++ encSmall o.subject.slot
    ++ encSmall o.subject.entry ++ bytesOf 1 o.depth ++ bytesOf 1 o.applied ++ bytesOf 1 o.skipped
    ++ bytesOf 1 o.mode.num ++ encSmall o.entry ++ encSmall o.ret

def encPair (p : Pair) : List Byte :=
  bytesOf 1 p.mask.toNat ++ bytesOf 1 p.unit.num ++ bytesOf 4 p.network ++ bytesOf 4 p.regional

def encCounters (c : InputCounters) : List Byte :=
  bytesOf 4 c.received ++ bytesOf 4 c.syncLosses ++ bytesOf 4 c.errored ++ bytesOf 4 c.unmapped
    ++ bytesOf 4 c.continuity ++ bytesOf 4 c.cuesReceived ++ bytesOf 4 c.cuesDropped
    ++ bytesOf 4 c.commandsTaken ++ bytesOf 4 c.commandsDropped

def encInput (x : Input) : List Byte :=
  encFlag x.enabled ++ encPid x.cuePid ++ bytesOf 2 x.commandPid ++ encFlag x.bearing
    ++ bytesOf 1 x.sync.num ++ encCounters x.counters

/-! ### READ ATTENTION, READ RELAY (R168, R176, R183) -/

/-- A first detail in the encoding of what it names (log entry 14). -/
def encDetail (bit : Nat) (d : Option Nat) : List Byte :=
  match bit with
  | 0 | 1 => encSmall d
  | 2 | 3 | 4 => encHandle d
  | 5 => encOr .detailKind 1 d
  | _ => encOr .detailInput 1 d

/-- READ ATTENTION's body (R168). The state of the ATTN line is 1 when it is asserted, and so low, which no rule
states (DESIGN CHOICE, log entry 41). -/
def encAttention (s : State) : List Byte :=
  ((List.range 7).flatMap fun k => encFlag (Table.find? s.attention k).isSome)
    ++ ((List.range 7).flatMap fun k => encDetail k (Table.find? s.attention k))
    ++ bytesOf 1 s.attMask.toNat ++ encFlag s.attn

/-- Kind, disposition, code, depth and body (R172, R176). -/
def encReply (r : Reply) : List Byte :=
  [r.kind] ++ bytesOf 1 r.disp.num ++ bytesOf 1 r.code ++ bytesOf 1 r.depth ++ r.body

def encMailbox (m : Mailbox) : List Byte :=
  encFlag m.unread ++ match m.posting with
    | some p => bytesOf 2 p.seq ++ bytesOf 1 p.input ++ encReply p.reply
    | none => []

/-- A reply frame: length, the reply, CRC-16 (R183). -/
def replyFrame (r : Reply) : List Byte :=
  let content := bytesOf 2 (encReply r).length ++ encReply r
  content ++ bytesOf 2 (crc16 content).toNat

/-! ### Directories (R94, R96, R185) -/

def encDirectoryEntry (e : DirectoryEntry) : List Byte :=
  bytesOf 2 e.programme ++ encFlag e.on ++ bytesOf 1 e.components.length
    ++ e.components.flatMap fun c => bytesOf 2 c.pid ++ bytesOf 1 c.kind.num

/-- A directory's bytes: header, slot entries, CRC-32. Bits 7..5 of the version byte are 0, which R185 does not
state (DESIGN CHOICE, log entry 38). -/
def encDirectory (d : Directory) (version : BitVec 5) : List Byte :=
  let entries := d.entries.flatMap encDirectoryEntry
  let content := [0xD0#8] ++ bytesOf 1 version.toNat ++ bytesOf 2 d.streamId
    ++ bytesOf 2 entries.length ++ entries
  content ++ bytesOf 4 (crc32 content).toNat

/-- The first packet's pointer byte and up to 183 bytes, then up to 184 bytes a packet (R96). -/
def directoryChunks (content : List Byte) : List (List Byte) :=
  ([0#8] ++ content.take 183) ::
    (if content.length ≤ 183 then []
     else (content.drop 183).take 184 ::
       (if content.length ≤ 367 then [] else [(content.drop 367).take 184]))

end Sys2Proof.Machine
end

