-- ==== Sys2Proof/Machine/Output.lean ====
section
/-! DEFINITION. The Replicator and Feed Output: copies, output buffers, the output line, leg states at
the output and the feed directory (05_replication_and_feed_output.md, R83 to R98). -/

namespace Sys2Proof.Machine

/-! ### Copies (R83 to R88) -/

/-- The continuity count of the next packet on a PID of a leg (R85). -/
def nextCount (n : Nat) (payload : Bool) : Nat := if payload then n else (n + 15) % 16

/-- The copy for output PID `pid` (R84), its discontinuity flag set in place when `flagged` (R87). -/
def copyOf (p : List Byte) (pid n : Nat) (flagged : Bool) : List Byte :=
  let q := pktSetContinuity (pktSetPid p pid) (nextCount n (pktHasPayload p))
  if flagged then pktSetDiscontinuity q else q

/-- A copy of packet `p` is offered to the buffer of leg `f` on `pid` (R85, R87, R88). -/
def State.offer (s : State) (f pid : Nat) (cls : ProgClass) (p : List Byte) : State :=
  let o := s.out f
  let n := s.count f pid
  let due := s.mark f pid
  let room := decide (1 ≤ pktFieldLength p)
  let preface : List Buffered :=
    if due && !room then [⟨prefacePacket pid (nextCount n false), true, cls, 0⟩] else []
  let copy : Buffered := ⟨copyOf p pid n (due && room), false, cls, pktPayloadBytes p⟩
  if o.buffer.length + preface.length + 1 ≤ Config.bufferPlaces then
    let s := s.setOut f { o with buffer := o.buffer ++ preface ++ [copy] }
    let s := if pktHasPayload p then s.setCount f pid ((n + 1) % 16) else s
    s.setMark f pid false
  else s.report f .droppedFull cls (pktPayloadBytes p)

/-- One slot's copy of a packet of class `cls` on output PID `pid`, by the state of its leg (R83). -/
def State.copyTo (s : State) (f pid : Nat) (cls : ProgClass) (p : List Byte) : State :=
  match (s.leg f).state with
  | .onAir => s.offer f pid cls p
  | .muted => s.report f .droppedMuted cls (pktPayloadBytes p)
  | .idle => s

/-- The copies of a packet of record `R`, component `k`, one for each slot that has `R` on air, legs in
order and slots in order (R83). -/
def State.makeCopies (s : State) (R k : Nat) (cls : ProgClass) (p : List Byte) : State :=
  s.slots.foldl (fun t c =>
    match c.2.source, c.2.planned with
    | some r, some b => if r = R then t.copyTo (c.1 / 16) (b.base + k) cls p else t
    | _, _ => t) s

/-! ### The output line (R89 to R91) -/

/-- The arbiter of a leg that is ON_AIR or MUTED chooses a packet and the line sends it (R89 to R91). -/
def State.sendPacket (s : State) (f : Nat) : State :=
  let o := s.out f
  match o.due, o.buffer with
  | p :: rest, _ => s.setOut f { o with due := rest, line := some p }
  | [], b :: rest =>
    let s := s.setOut f { o with buffer := rest, line := some b.bytes }
    if b.preface then s else s.report f .forwarded b.cls b.payload
  | [], [] => s.setOut f { o with line := some nullPacket }

/-! ### Directories (R93 to R97) -/

/-- The record whose components a slot entry lists (R95). -/
def listedRecord (st : LegState) (x : Slot) (b : Binding) : Nat :=
  match st, x.onAir with
  | .onAir, .pending | .onAir, .substituted => x.source.getD b.handle
  | _, _ => b.handle

/-- The air state of a slot entry (R95). -/
def listedOn (st : LegState) (x : Slot) : Bool :=
  match st, x.onAir with
  | .onAir, .slated => false
  | .onAir, _ => true
  | _, _ => false

/-- Component `k` of a record on output PID base + k (R94). -/
def outputComponents (base : Nat) (cs : List Component) : List Component :=
  cs.mapIdx fun k c => ⟨base + k, c.kind⟩

/-- The directory's entry of slot `i`, when the slot has a planned binding (R94, R95). -/
def State.directoryEntry? (s : State) (f i : Nat) : Option DirectoryEntry :=
  let x := s.slot f i
  x.planned.map fun b =>
    let st := (s.leg f).state
    let cs := ((s.record? (listedRecord st x b)).map (·.components)).getD []
    ⟨b.programme, listedOn st x, outputComponents b.base cs⟩

/-- What leg `f`'s directory holds (R94). -/
def State.directoryOf (s : State) (f : Nat) : Directory :=
  ⟨(s.leg f).streamId, (List.range Config.slotsPerLeg).filterMap (s.directoryEntry? f)⟩

/-- The packets of a directory on `pid`, continuity counts rising from `n` (R96). -/
def directoryPackets (pid n : Nat) (content : List Byte) : List (List Byte) :=
  (directoryChunks content).mapIdx fun k c => directoryPacket (k == 0) pid ((n + k) % 16) c

/-- A build: the version, the packets made due, and the last built content (R94 to R97). -/
def State.buildDirectory (s : State) (f : Nat) : State :=
  let o := s.out f
  let d := s.directoryOf f
  let version := match o.last with
    | none => o.version
    | some l => if l = d then o.version else o.version + 1
  let pid := (s.leg f).dirPid
  let n := s.count f pid
  let packets := directoryPackets pid n (encDirectory d version)
  (s.setOut f { o with due := o.due ++ packets, last := some d, version := version }).setCount
    f pid ((n + packets.length) % 16)

/-- A build and a start of the period timer (R92, R93). -/
def State.startDirectory (s : State) (f : Nat) : State :=
  let s := s.buildDirectory f
  s.setOut f { s.out f with timer := some ⟨s.uptime, (s.leg f).dirPeriod⟩ }

/-! ### A change of leg state at the output (R92) -/

/-- Marks become due on the range of every planned slot of leg `f` (R86). -/
def State.markPlanned (s : State) (f : Nat) : State :=
  (List.range Config.slotsPerLeg).foldl (fun s i =>
    match (s.slot f i).planned with
    | some b => s.markRange f b.base
    | none => s) s

/-- The leg's state has gone from `old` to the one it has now (R92). -/
def State.changeOutput (s : State) (f : Nat) (old : LegState) : State :=
  match old, (s.leg f).state with
  | .idle, .onAir => (s.markPlanned f).startDirectory f
  | .idle, .muted => s.startDirectory f
  | .onAir, .muted => s.setOut f { s.out f with buffer := [] }
  | .muted, .onAir => s.markPlanned f
  | .onAir, .idle | .muted, .idle => s.setOut f { s.out f with buffer := [], due := [], timer := none }
  | .idle, .idle | .onAir, .onAir | .muted, .muted => s

/-! ### The rows -/

/-- OUTPUT_OPPORTUNITY (R89 to R91): an IDLE leg makes none (log entry 25). -/
def execOutputOpportunity (f : Nat) (s : State) : Host.Outcome State Fault Refusal :=
  if feedOk f then
    .next (s.awake fun s => if (s.leg f).state = .idle then s else s.sendPacket f)
  else .fault .noSuchLeg

/-- The period timer of leg `f` expires, if it has been reached (R93; log entry 3). -/
def State.expirePeriod (s : State) (f : Nat) : State :=
  match (s.out f).timer with
  | some t => if s.timerReached t then s.startDirectory f else s
  | none => s

/-- DIRECTORY_PERIOD_EXPIRED (R93). -/
def execDirectoryPeriodExpired (f : Nat) (s : State) : Host.Outcome State Fault Refusal :=
  if feedOk f then .next (s.awake fun s => s.expirePeriod f) else .fault .noSuchLeg

end Sys2Proof.Machine
end

