-- ==== Sys2Proof/Machine/Entries.lean ====
section
/-! DEFINITION. Splice entries as the other blocks see them: what an entry listens to and which TIME
matchers are due (R143, R145), the end of an entry's life, and the reports that a tracked slot has left
PENDING (R138 to R140, R155). -/

namespace Sys2Proof.Machine

/-! ### What an entry listens to (R143) -/

def Entry.listens (x : Entry) (m : MatcherName) : Bool :=
  match x.trigger with
  | none => false
  | some t =>
    match x.state, t.mode with
    | .armed, .sole => m == .a
    | .armed, .either | .armed, .orDeadline => true
    | .armed, .after | .armed, .countThen => m == .b
    | .primed, .after | .primed, .countThen => m == .a
    | _, _ => false

def Entry.matcher (x : Entry) : MatcherName → Option Matcher
  | .a => x.trigger.map (·.a)
  | .b => x.trigger.bind (·.b)

/-- The matcher is TIME and has occurred. -/
def Entry.occurred (x : Entry) : MatcherName → Bool
  | .a => x.occurredA
  | .b => x.occurredB

def Entry.markOccurred (x : Entry) : MatcherName → Entry
  | .a => { x with occurredA := true }
  | .b => { x with occurredB := true }

/-- The matcher is TIME, listens, waits, and its time has been reached (R145). -/
def State.timeDue (s : State) (e : Nat) (m : MatcherName) : Bool :=
  let x := s.entry e
  x.listens m && !x.occurred m &&
    match x.matcher m with
    | some (.time t) => s.clockReached t
    | some (.cue ..) | some (.timeAfter _) | none => false

/-- Every matcher, entries ascending and A before B: R141's order at a tick and at SET STATION TIME, and the model's
for what an act outside them makes due (DESIGN CHOICE, log entry 6). -/
def allMatchers : List (Nat × MatcherName) :=
  (List.range Config.spliceEntries).flatMap fun e => [(e, .a), (e, .b)]

/-- A TIME matcher is due: its occurrence is the SPS's next act (R145). -/
def State.timeWaits (s : State) : Bool := allMatchers.any fun x => s.timeDue x.1 x.2

/-! ### The end of an entry's life (R139, R140) -/

/-- The entry goes to FREE: only the fields R138 marks kept stay; the result is written (R140). -/
def Entry.freed (x : Entry) (result : LastResult) (code : Option Code) : Entry :=
  { Entry.start with
    owner := x.owner, role := x.role, executedAt := x.executedAt,
    applied := x.applied, skipped := x.skipped, result := result, code := code }

/-- Entry `e` goes to FREE, giving back its store places (R139, R140). -/
def State.freeEntry (s : State) (e : Nat) (result : LastResult) (code : Option Code) : State :=
  s.setEntry e ((s.entry e).freed result code)

/-! ### Reports (R80, R155) -/

/-- The SWITCHING entries that track the slot, ascending (R155). -/
def State.trackers (s : State) (f i : Nat) : List Nat :=
  (List.range Config.spliceEntries).filter fun e =>
    (s.entry e).state == .switching && (s.entry e).tracked.contains (f, i)

/-- The FLT reports that slot `i` of leg `f` has left PENDING, when an entry tracks it (R80). -/
def State.reportLeft (s : State) (f i : Nat) : State :=
  if (s.trackers f i).isEmpty then s else { s with reports := s.reports ++ [⟨f, i, s.trackers f i⟩] }

/-- The entry loses a tracked slot; left with none, it ends DONE (R155). -/
def State.untrack (s : State) (e : Nat) (t : Nat × Nat) : State :=
  let x := s.entry e
  if x.state = .switching && x.tracked.contains t then
    let s := s.setEntry e { x with tracked := x.tracked.filter (· != t) }
    if (s.entry e).tracked.isEmpty then
      (s.freeEntry e .done none).raise .spliceDone e
    else s
  else s

/-- The SPS takes one report that a slot left PENDING; the entries that tracked the slot as it left lose it, in
ascending order (R155; the order within one report is the model's, log entry 36). -/
def State.takeReport (s : State) (t : SlotReport) : State :=
  t.entries.foldl (fun s e => s.untrack e (t.feed, t.slot)) s

/-- The SPS takes every report handed to it, oldest first (R80, R155). -/
def State.drainReports (s : State) : State :=
  s.reports.foldl State.takeReport { s with reports := [] }

/-- The SPS takes the reports handed to it, each an act of its own, unless a TIME matcher's occurrence is
due: that is its next act, and they wait for it (R80, R145, R155; log entries 6, 28). -/
def State.takeReports (s : State) : State := if s.timeWaits then s else s.drainReports

end Sys2Proof.Machine
end

