-- ==== Sys2Proof/Machine/Slots.lean ====
section
/-! DEFINITION. The slot on-air state machine: every move of a slot, whatever its cause
(03_source_monitoring_substitution_and_restoration.md, R48 to R55;
04_feed_legs_and_programme_slots.md, R71 to R80), and the rows that move slots. -/

namespace Sys2Proof.Machine

/-- What a move leaves in the slot, and the leg event it reports (R79). -/
structure Move where
  slot  : Slot
  event : Option LegEvent
deriving DecidableEq, Repr

/-! ### The moves -/

/-- The planned record `p` is on air. -/
def goSteady (x : Slot) (p : Nat) (event : Option LegEvent) : Move :=
  ⟨{ x with onAir := .steady, source := some p, outgoing := none, deadline := none }, event⟩

/-- Nothing is on air; entry from another state is reported (R79). -/
def goSlated (x : Slot) : Move :=
  ⟨{ x with onAir := .slated, source := none, outgoing := none, deadline := none },
    if x.onAir = .slated then none else some .slated⟩

/-- The slot of planned record `p` takes its usable fallback, or goes off air (R49, R50, R71, R76). -/
def goFallback (s : State) (x : Slot) (p : Nat) : Move :=
  match s.usableFallback p with
  | some fb =>
    ⟨{ x with onAir := .substituted, source := some fb, outgoing := none, deadline := none },
      if x.onAir = .substituted then none else some .substituted⟩
  | none => goSlated x

/-- The slot's source, if any, is on-air fit (R49, R74). -/
def State.sourceFit (s : State) (x : Slot) : Bool :=
  match x.source with
  | some o => s.onAirFit o
  | none => true

/-- The slot of leg `f` enters PENDING toward `p` with its source as outgoing source; an outgoing
source that is not on-air fit forces the switch at once (R71, R74). -/
def enterPending (s : State) (f : Nat) (x : Slot) (p : Nat) : Move :=
  if s.sourceFit x then
    ⟨{ x with onAir := .pending, outgoing := x.source,
              deadline := some ⟨s.uptime, (s.leg f).switchWait⟩ }, none⟩
  else goSteady x p (some .switchedForced)

/-- A planned binding changes (R71, R72, R73). -/
def bindMove (s : State) (f : Nat) (x : Slot) : Option Binding → Move
  | none =>
    ⟨{ x with planned := none, onAir := .empty, source := none, outgoing := none,
              deadline := none }, none⟩
  | some b =>
    let y := { x with planned := some b }
    if x.planned.map (·.handle) = some b.handle then ⟨y, none⟩
    else if s.usable b.handle then
      if x.source = some b.handle then goSteady y b.handle none
      else enterPending s f y b.handle
    else goFallback s y b.handle

/-- The fallback of the slot's planned record `p` was `old` and has changed (R54). A slot SUBSTITUTED on a source
other than `old`, for which R54's table has no row, does not move (DESIGN CHOICE, log entry 21). -/
def fallbackMove (s : State) (f : Nat) (x : Slot) (p : Nat) (old : Option Nat) : Option Move :=
  match x.onAir with
  | .substituted =>
    if x.source = old then
      some (if s.usable p then enterPending s f x p else goFallback s x p)
    else none
  | .slated =>
    if !s.usable p && (s.usableFallback p).isSome then some (goFallback s x p) else none
  | .empty | .steady | .pending => none

/-- A loss notice for `X` (R50, R51). -/
def lossMove (s : State) (X : Nat) (x : Slot) : Option Move :=
  match x.planned with
  | none => none
  | some b =>
    if b.handle = X then
      match x.onAir with
      | .steady | .pending => some (goFallback s x X)
      | .empty | .substituted | .slated => none
    else if x.source = some X then
      match x.onAir with
      | .pending =>
        some (if s.usable b.handle then goSteady x b.handle (some .switchedForced)
          else goFallback s x b.handle)
      | .substituted =>
        some (if s.usable b.handle then goSteady x b.handle (some .switchedForced)
          else goSlated x)
      | .empty | .steady | .slated => none
    else none

/-- A restoration notice for `X` (R52, R53). -/
def restorationMove (s : State) (X : Nat) (f : Nat) (x : Slot) : Option Move :=
  match x.planned with
  | none => none
  | some b =>
    if b.handle = X then
      match x.onAir with
      | .slated => some (enterPending s f x X)
      | .substituted =>
        if ((s.record? X).map (·.autoReturn)).getD false then some (enterPending s f x X) else none
      | .empty | .steady | .pending => none
    else if x.onAir = .slated && !s.usable b.handle && s.fallbackOf b.handle == some X then
      some (goFallback s x b.handle)
    else none

/-- A switch point of the usable record `R` (R75). -/
def sightingMove (R : Nat) (x : Slot) : Option Move :=
  match x.planned with
  | none => none
  | some b =>
    if b.handle = R && x.onAir = .pending then some (goSteady x R (some .switchedClean)) else none

/-- The switch deadline of a slot PENDING toward `p` expires (R76). -/
def deadlineMove (s : State) (x : Slot) (p : Nat) : Move :=
  if s.usable p then goSteady x p (some .switchedForced) else goFallback s x p

/-! ### Making a move -/

/-- The PID base of the slot's output range at the act: that of the binding after it, or before it when
the act removes the binding (R86, log entry 20). -/
def rangeBase (before after : Slot) : Option Nat :=
  match after.planned with
  | some b => some b.base
  | none => before.planned.map (·.base)

/-- A change of on-air source hands on one update and makes the range's marks due (R78, R86). -/
def State.changeSource (s : State) (f : Nat) (before after : Slot) : State :=
  if before.source = after.source then s
  else
    let s := { s with updates := s.updates ++ [⟨before.source, after.source⟩] }
    match rangeBase before after with
    | some base => s.markRange f base
    | none => s

/-- The leg event of a move names the planned record after it (R79). -/
def State.reportMove (s : State) (f : Nat) (m : Move) : State :=
  match m.event, m.slot.planned with
  | some e, some b => s.reportFor f e b.handle 0
  | _, _ => s

/-- Slot `i` of leg `f` makes the move: the slot is written, its update, marks, event and report given
(R78 to R80). -/
def State.applyMove (s : State) (f i : Nat) (m : Move) : State :=
  let before := s.slot f i
  let s := ((s.setSlotAt (slotKey f i) m.slot).changeSource f before m.slot).reportMove f m
  if before.onAir = .pending && m.slot.onAir != .pending then s.reportLeft f i else s

/-- One act of the FLT over every slot: a slot that is not listed is EMPTY and does not move. The slots
move, and hand on their updates, events and reports, legs ascending and slots ascending within a leg: the
order is the model's (R48, R78, R80; DESIGN CHOICE, log entry 36). The move is given the slot's key. -/
def State.moveSlots (s : State) (move : Nat → Slot → Option Move) : State :=
  (s.slots.map (·.1)).foldl (fun s k =>
    match move k (s.slotAt k) with
    | some m => s.applyMove (k / 16) (k % 16) m
    | none => s) s

/-- A slot's planned binding is written: planned counts, marks and the slot's one move (R13, R69, R71 to
R73, R86). -/
def State.rebind (s : State) (f i : Nat) (new : Option Binding) : State :=
  let x := s.slot f i
  if x.planned = new then s
  else
    let move := bindMove s f x new
    let s := s.plan (x.planned.map (·.handle)) (new.map (·.handle))
    let s := match x.planned, new with
      | some a, some b => if a.handle = b.handle && a.base != b.base then s.markRange f b.base else s
      | _, _ => s
    s.applyMove f i move

/-! ### Acts of the FLT on notices (R48) -/

def State.takeLoss (s : State) (X : Nat) : State :=
  if s.onAirFit X then s else (s.moveSlots fun _ x => lossMove s X x).takeReports

def State.takeRestoration (s : State) (X : Nat) : State :=
  if s.usable X then (s.moveSlots fun k x => restorationMove s X (k / 16) x).takeReports else s

/-- A packet of record `R` passes the FLT; `point` says that it is a switch point of `R` (R75). -/
def State.sight (s : State) (R : Nat) (point : Bool) : State :=
  if point && s.usable R then (s.moveSlots fun _ x => sightingMove R x).takeReports else s

/-! ### The rows -/

/-- LOSS_NOTICE: the FLT takes the notice handed on first, a loss (R48, R50, R51; log entry 29). -/
def execLossNotice (s : State) : Host.Outcome State Fault Refusal :=
  .next (s.awake fun s =>
    match s.notices with
    | .loss X :: rest => { s with notices := rest }.takeLoss X
    | .restoration _ :: _ | [] => s)

/-- RESTORATION_NOTICE: the FLT takes the notice handed on first, a restoration (R48, R52, R53; log
entry 29). -/
def execRestorationNotice (s : State) : Host.Outcome State Fault Refusal :=
  .next (s.awake fun s =>
    match s.notices with
    | .restoration X :: rest => { s with notices := rest }.takeRestoration X
    | .loss _ :: _ | [] => s)

/-- The deadline of slot `i` of leg `f` expires, if it has been reached (R76; log entry 3). -/
def State.expireDeadline (s : State) (f i : Nat) : State :=
  let x := s.slot f i
  match x.onAir, x.planned, x.deadline with
  | .pending, some b, some t =>
    if s.timerReached t then (s.applyMove f i (deadlineMove s x b.handle)).takeReports else s
  | _, _, _ => s

/-- SWITCH_DEADLINE_EXPIRED (R76). -/
def execSwitchDeadlineExpired (f i : Nat) (s : State) : Host.Outcome State Fault Refusal :=
  if feedOk f && slotOk i then .next (s.awake fun s => s.expireDeadline f i)
  else .fault .noSuchLeg

end Sys2Proof.Machine
end

