-- ==== Sys2Proof/Machine/Commit.lean ====
section
/-! DEFINITION. The end of a batch and the commit act (06_edit_batches.md, R115, R121;
07_commit_and_validation.md, R125, R131 to R137). -/

namespace Sys2Proof.Machine

/-! ### The end of a batch (R115, R121, R132) -/

/-- Every record of the list that is still RESERVED is freed with its map entries (R9, R19). -/
def State.freeReserved (s : State) (hs : List Nat) : State :=
  hs.foldl (fun s h =>
    if ((s.record? h).map (·.state)) = some .reserved then s.freeRecord h else s) s

/-- The batch of `r` ends: what it still reserves is freed, its claims are released, the workspace is
emptied and the outcome record is written (R115, R121, R132, R137). The skipped count of R127 is kept in
the picture of the act, so the workspace's own is 0 before and after it, which R115 does not settle
(DESIGN CHOICE, log entry 39). -/
def State.endBatch (s : State) (r : Requester) (o : OutcomeRecord) : State :=
  (((s.freeReserved (s.ws r).handles).releaseClaims r).setWs r .start).setOutcome r o

/-- The outcome record of a batch of `w` that fails or expires (R121). -/
def abortedOutcome (w : Workspace) (f : Failure) : OutcomeRecord :=
  ⟨.aborted, f.code.num, f.index, f.subject, w.depth, 0, 0, w.mode, none, none⟩

/-- The batch of `r` ends without a commit: the CTAB frees what it reserved, after what a commit act made due
there (R19, R46, R115). -/
def State.endEarly (s : State) (r : Requester) (o : OutcomeRecord) : State := s.settleCtab.endBatch r o

/-- A batch of `r` is aborted (R115). -/
def State.abort (s : State) (r : Requester) (f : Failure) : State :=
  s.endEarly r (abortedOutcome (s.ws r) f)

/-! ### Writing the picture into the tables (R131, R151) -/

/-- The slots a list of edits names, in ascending order, each with the binding after the last edit. -/
def bindingsOf (edits : List SlotEdit) : Table (Option Binding) :=
  edits.foldl (fun t e => Table.put t (slotKey e.feed e.slot) e.binding) []

/-- Planned bindings are written and each slot that changes moves once (R131 parts 2 and 3, R151). -/
def State.writeBindings (s : State) (edits : List SlotEdit) : State :=
  (bindingsOf edits).foldl (fun s c => s.rebind (c.1 / 16) (c.1 % 16) c.2) s

def Edit.slotEdit? : Edit → Option SlotEdit
  | .slot e => some e
  | .create .. | .amend _ | .retire _ | .setLeg _ => none

/-- A record created by the batch is committed: LIVE, its monitor started, its map entries ACTIVE, its
fallback counted (R10, R16, R38, R41). -/
def State.commitRecord (s : State) (h : Nat) : State :=
  let s := s.modRecord h fun r =>
    { r with state := .live, silence := some s.uptime, hold := none, silentFlag := false }
  let s := s.moveFallbackRef none (s.fallbackOf h)
  { s with smap := s.smap.map fun c =>
      if c.2.handle = h then (c.1, { c.2 with active := true, lastCount := none }) else c }

/-- An applied AMEND RECORD writes its changes (R12, R16). -/
def State.amendRecord (s : State) (a : AmendFields) : State :=
  let old := s.fallbackOf a.handle
  let s := s.modRecord a.handle a.apply
  let new := s.fallbackOf a.handle
  if old = new then s else s.moveFallbackRef old new

/-- R131 part 1. -/
def State.writeRecord (s : State) : Edit → State
  | .create h _ => s.commitRecord h
  | .amend a => s.amendRecord a
  | .retire _ | .slot _ | .setLeg _ => s

/-- R131 part 2, for legs. -/
def State.writeLeg (s : State) : Edit → State
  | .setLeg l => s.setLeg l.feed (l.apply (s.leg l.feed))
  | .create .. | .amend _ | .retire _ | .slot _ => s

/-- The move of a slot whose binding is what it was in `before` and whose planned record's fallback is
not (R54, R131 part 3; log entry 21). -/
def refallback (before s : State) (k : Nat) (x : Slot) : Option Move :=
  match x.planned with
  | some b =>
    if (before.slotAt k).planned != x.planned || before.fallbackOf b.handle == s.fallbackOf b.handle
    then none
    else fallbackMove s (k / 16) x b.handle (before.fallbackOf b.handle)
  | none => none

/-- The source monitor of a record that goes to RETIRING (R47). -/
def Record.retire (r : Record) : Record :=
  { r with state := .retiring, hold := none, fallback := none, silentFlag := r.state == .lost }

/-- R131 part 4: a retired record's fallback is cleared, and it is freed or goes to RETIRING (R17). -/
def State.retireRecord (s : State) (h : Nat) : State :=
  let s := s.moveFallbackRef (s.fallbackOf h) none
  match s.record? h with
  | some r => if r.onAir = 0 then s.freeRecord h else s.setRecord h r.retire
  | none => s

/-- R131 part 5: the legs whose state has changed since `before`. Several SET LEGs of one leg act at the
output by their net change only (R92, R112; DESIGN CHOICE, log entry 37). -/
def State.writeOutputs (before s : State) : State :=
  (List.range Config.feeds).foldl (fun s f => s.changeOutput f (before.leg f).state) s

/-- The acts that are due at once for an amended record: the expiry of a window, and the end of a hold, that a
running timer has already reached (R46; their order is the model's, log entry 6). An AMEND RECORD of either value
makes due both: one of the hold alone also an expiry whose unchanged window the silence timer had already reached, and
one of the window alone also the end of a hold already reached, so that they precede a packet where R45 leaves the
order open (DESIGN CHOICE, log entry 6). -/
def State.dueActs (s : State) (h : Nat) : List DueAct :=
  match s.record? h with
  | some r =>
    (if r.silence.any fun t => s.reached t r.lossWindow then [.expiry h] else [])
      ++ if r.state == .restoring && r.hold.any fun t => s.reached t r.restoreHold then [.holdEnd h] else []
  | none => []

/-- An amended record's window or hold that a running timer has already reached falls due at once (R46). -/
def State.fallDue (s : State) (h : Nat) : State := { s with ctabDue := s.ctabDue ++ s.dueActs h }

/-- The records whose loss window or restore hold the applied edits amend. -/
def timedAmends (edits : List Edit) : List Nat :=
  edits.filterMap fun
    | .amend a => if a.lossWindow.isSome || a.restoreHold.isSome then some a.handle else none
    | .create .. | .retire _ | .slot _ | .setLeg _ => none

/-- An IMMEDIATE commit that passes is written, parts 1 to 5 (R131). -/
def State.writePicture (s : State) (p : Picture) : State :=
  let before := s
  let s := p.applied.foldl State.writeRecord s
  let s := p.applied.foldl State.writeLeg s
  let s := s.writeBindings (p.applied.filterMap Edit.slotEdit?)
  let s := (s.moveSlots (refallback before s)).takeUpdates
  let s := p.retired.foldl (fun s c => s.retireRecord c.1) s
  let s := State.writeOutputs before s
  (timedAmends p.applied).foldl State.fallDue s

/-! ### The IMMEDIATE commit (R125, R131, R132) -/

/-- Stages 1 to 4 of an IMMEDIATE commit. -/
def judgeImmediate (s : State) (w : Workspace) : Except Failure Picture :=
  match (Picture.start s).walk 1 w.edits with
  | .error f => .error f
  | .ok p =>
    match legLaws p.tables with
    | some f => .error f
    | none =>
      match p.fallbackFailure with
      | some f => .error f
      | none =>
        match p.retireFailure with
        | some f => .error f
        | none => .ok p

/-- The outcome record of a batch that commits without a splice entry (R132, R133). -/
def committedOutcome (w : Workspace) (p : Picture) : OutcomeRecord :=
  ⟨.committed, 0, none, .none, w.depth, p.applied.length, p.skipped, w.mode, none, none⟩

def State.commitImmediate (s : State) (r : Requester) : State :=
  let w := s.ws r
  match judgeImmediate s w with
  | .error f => s.abort r f
  | .ok p => (s.writePicture p).endBatch r (committedOutcome w p)

/-! ### The DEFERRED commit (R133 to R136) -/

/-- Stage 1 of a DEFERRED commit, and stage 2 when there is a stored edit (R133). -/
def judgeDeferred (s : State) (w : Workspace) : Except Failure Picture :=
  match (Picture.start s).walk 1 w.edits with
  | .error f => .error f
  | .ok p =>
    if p.applied.isEmpty then .ok p
    else
      match legLaws p.tables with
      | some f => .error f
      | none => .ok p

/-- The inverse edits of the slots the stored edits name, in ascending order (R134, R135). -/
def inverseEdits (s : State) (stored : List SlotEdit) : List SlotEdit :=
  (bindingsOf stored).map fun c => ⟨c.1 / 16, c.1 % 16, (s.slotAt c.1).planned⟩

/-- The trigger of a return entry (R152's table); a TIME matcher's time is written at the original's
execution (log entry 24). -/
def returnTrigger (a : Matcher) (ro : ReturnOption) : Trigger :=
  let cue := match a with
    | .cue input id _ => Matcher.cue input id .inn
    | m => m
  match ro.inCue, ro.duration with
  | true, some d => ⟨.orDeadline, cue, some (.timeAfter d), 1⟩
  | true, none => ⟨.sole, cue, none, 1⟩
  | false, some d => ⟨.sole, .timeAfter d, none, 1⟩
  | false, none => ⟨.sole, cue, none, 1⟩

/-- The FREE splice entries, ascending (R134). -/
def State.freeEntries (s : State) : List Nat :=
  (List.range Config.spliceEntries).filter fun e => (s.entry e).state == .free

/-- The tolerance of the outermost level (R136). -/
def outerTolerance (w : Workspace) : Nat := ((w.levels.head?).map (·.tolerance)).getD 0

/-- The original entry of a DEFERRED commit (R136 part 1). -/
def originalEntry (r : Requester) (w : Workspace) (t : Trigger) (stored : List SlotEdit)
    (ret : Option Nat) : Entry :=
  { Entry.start with
    state := .armed, owner := some r, role := some .original, partner := ret, trigger := some t,
    remaining := some t.count, tolerance := some (outerTolerance w), edits := stored }

/-- The return entry of a DEFERRED commit (R136 part 2). -/
def returnEntry (r : Requester) (w : Workspace) (t : Trigger) (ro : ReturnOption)
    (inverse : List SlotEdit) (orig : Nat) : Entry :=
  { Entry.start with
    state := .held, owner := some r, role := some .ret, partner := some orig,
    trigger := some (returnTrigger t.a ro), remaining := some 1,
    tolerance := some (outerTolerance w), edits := inverse }

/-- Every slot the stored edits name is reserved by the entry (R136 part 3). -/
def State.reserve (s : State) (stored : List SlotEdit) (e : Nat) : State :=
  (bindingsOf stored).foldl (fun s c => s.setSlotAt c.1 { s.slotAt c.1 with reserved := some e }) s

/-- Stage 5 (R134): the original entry and, when one was asked for, the return entry. -/
def allocate (s : State) (stored inverse : Nat) (wantsReturn : Bool) :
    Except Failure (Nat × Option Nat) :=
  match s.freeEntries, wantsReturn with
  | o :: n :: _, true =>
    if stored + inverse ≤ s.freePlaces then .ok (o, some n) else .error (.plain .spliceStoreFull)
  | o :: _, false =>
    if stored ≤ s.freePlaces then .ok (o, none) else .error (.plain .spliceStoreFull)
  | _, _ => .error (.plain .spliceTableFull)

/-- R136's outcome; R121 names the splice entry as its subject. -/
def deferredOutcome (w : Workspace) (p : Picture) (orig : Nat) (ret : Option Nat) : OutcomeRecord :=
  ⟨.deferred, 0, none, { Subject.none with entry := some orig }, w.depth, p.applied.length, p.skipped,
    w.mode, some orig, ret⟩

/-- R136 parts 1 to 4. -/
def State.armEntries (s : State) (r : Requester) (w : Workspace) (t : Trigger)
    (stored inverse : List SlotEdit) (orig : Nat) (ret : Option Nat) : State :=
  let s := s.setEntry orig (originalEntry r w t stored ret)
  let s := (s.reserve stored orig).addSpliceRefs stored
  match ret, w.returnOpt with
  | some n, some ro => (s.setEntry n (returnEntry r w t ro inverse orig)).addSpliceRefs inverse
  | _, _ => s

def State.commitDeferred (s : State) (r : Requester) : State :=
  let w := s.ws r
  match judgeDeferred s w, w.trigger with
  | .error f, _ => s.abort r f
  | .ok p, none => s.endBatch r (committedOutcome w p)
  | .ok p, some t =>
    let stored := p.applied.filterMap Edit.slotEdit?
    if stored.isEmpty then s.endBatch r (committedOutcome w p)
    else
      let inverse := inverseEdits s stored
      match allocate s stored.length inverse.length w.returnOpt.isSome with
      | .error f => s.abort r f
      | .ok (orig, ret) =>
        (s.armEntries r w t stored inverse orig ret).endBatch r (deferredOutcome w p orig ret)

/-! ### The act -/

/-- The CTAB is ready for a commit or an execution: what it must take first is taken (R46, R78; log
entries 6, 19). -/
def State.tablesReady (s : State) : State := s.settleCtab.takeUpdates

/-- The commit act of `r` at the tables, with the SPS's reports it gives rise to (R125, R155). -/
def State.commit (s : State) (r : Requester) : State :=
  let s := s.tablesReady
  match (s.ws r).mode with
  | .immediate => (s.commitImmediate r).takeReports
  | .deferred => s.commitDeferred r

end Sys2Proof.Machine
end

