-- ==== Sys2Proof/Machine/Splice.lean ====
section
/-! DEFINITION. The Splice Scheduler: matchers, triggers, execution, the cue pending list and the station
clock (08_splice_entries_and_triggers.md, R138 to R157; 02_contribution_inputs_and_the_stream_map.md,
R34, R35). -/

namespace Sys2Proof.Machine

/-! ### Counting (R146 to R148) -/

/-- What an occurrence of a listening matcher does to the entry, and whether it completes the trigger. -/
def Entry.hear (x : Entry) (m : MatcherName) : Entry × Bool :=
  match x.trigger with
  | none => (x, false)
  | some t =>
    let left := x.remaining.getD 0 - 1
    let counted := { x with remaining := some left }
    match t.mode, x.state, m with
    | .orDeadline, _, .b => (x, true)
    | .after, .armed, _ => ({ x with state := .primed, remaining := some t.count }, false)
    | .countThen, .armed, _ =>
      if left = 0 then ({ x with state := .primed, remaining := some 1 }, false) else (counted, false)
    | .sole, _, _ | .either, _, _ | .orDeadline, _, .a | .after, _, _ | .countThen, _, _ =>
      (counted, left == 0)

/-! ### Execution (R149 to R153) -/

/-- The two stages of an execution (R150). -/
def judgeEntry (s : State) (x : Entry) : Except Failure Picture :=
  match (Picture.start s).walkEntry 1 x.edits (x.tolerance.getD 0) with
  | .error f => .error f
  | .ok p =>
    match legLaws p.tables with
    | some f => .error f
    | none => .ok p

/-- A return's TIME matcher is given its station time (R152). -/
def Matcher.written (now : StationTime) : Matcher → Matcher
  | .timeAfter d => .time (now + BitVec.ofNat 33 (d * Config.ticksPerSecond))
  | m => m

def Trigger.written (now : StationTime) (t : Trigger) : Trigger :=
  { t with a := t.a.written now, b := t.b.map (Matcher.written now) }

/-- The partner of an original, which is HELD while the original waits (R138, R152). -/
def Entry.heir (x : Entry) : Option Nat :=
  if x.role = some .original then x.partner else none

/-- The partner of an original executed now is armed and takes its reservations (R70, R152). -/
def State.armReturn (s : State) (e : Nat) : State :=
  match (s.entry e).heir with
  | some n =>
    let x := s.entry n
    (s.passReservations e (some n)).setEntry n
      { x with state := .armed, remaining := some 1, trigger := x.trigger.map (·.written s.clock) }
  | none => s.passReservations e none

/-- The entry's slots that are PENDING (R80, R151; log entry 35), by ascending feed and slot: the order in which
READ SPLICE lists them is the model's (R158; DESIGN CHOICE, log entry 42). -/
def State.pendingSlots (s : State) (edits : List SlotEdit) : List (Nat × Nat) :=
  ((bindingsOf edits).filter fun c => (s.slotAt c.1).onAir == .pending).map fun c => (c.1 / 16, c.1 % 16)

/-- R151 part 5. -/
def State.finishEntry (s : State) (e applied skipped : Nat) : State :=
  let x := { s.entry e with executedAt := some s.clock, applied := some applied, skipped := some skipped }
  let tracked := s.pendingSlots x.edits
  if tracked.isEmpty then ((s.setEntry e x).freeEntry e .done none).raise .spliceDone e
  else s.setEntry e { x with state := .switching, tracked := tracked }

/-- A passing execution is applied (R151). -/
def State.passEntry (s : State) (e : Nat) (p : Picture) : State :=
  let s := (s.writeBindings (p.applied.filterMap Edit.slotEdit?)).dropSpliceRefs (s.entry e).edits
  (s.takeUpdates.armReturn e).finishEntry e p.applied.length p.skipped

/-- A HELD partner of entry `e` ends with it: its references fall and it goes to FREE (R153, R156). -/
def State.endHeldPartner (s : State) (e : Nat) (result : LastResult) (code : Option Code) : State :=
  match (s.entry e).heir with
  | some n =>
    if (s.entry n).state = .held then (s.dropSpliceRefs (s.entry n).edits).freeEntry n result code else s
  | none => s

/-- A failing execution ends the entry's life (R153). -/
def State.failEntry (s : State) (e : Nat) (code : Code) : State :=
  let s := s.endHeldPartner e .failed (some code)
  let s := (s.dropSpliceRefs (s.entry e).edits).passReservations e none
  let x := { s.entry e with executedAt := some s.clock, applied := some 0, skipped := some 0 }
  ((s.setEntry e x).freeEntry e .failed (some code)).raise .spliceFailed e

/-- The execution of entry `e`, one act at the tables within the act of the SPS that completes its trigger
(R149 to R153). -/
def State.execute (s : State) (e : Nat) : State :=
  let s := s.tablesReady
  match judgeEntry s (s.entry e) with
  | .ok p => s.passEntry e p
  | .error f => s.failEntry e f.code

/-- An occurrence of a matcher of entry `e`, with the execution it sets going (R146 to R149). -/
def State.occur (s : State) (e : Nat) (m : MatcherName) : State :=
  let (x, done) := (s.entry e).hear m
  let s := s.setEntry e x
  if done then s.execute e else s

/-! ### Cues (R34, R35, R144) -/

/-- A CUE matcher matches the cue (R144). -/
def Matcher.matchesCue (c : Cue) : Matcher → Bool
  | .cue input id kind => input == c.input && kind == c.kind && id.all (· == c.id)
  | .time _ | .timeAfter _ => false

/-- The matcher listens and matches the cue. -/
def Entry.hearsCue (x : Entry) (c : Cue) (m : MatcherName) : Bool :=
  x.listens m && (x.matcher m).any (Matcher.matchesCue c)

/-- The cue is offered to entry `e`, judged against the matchers that listen as its offer starts; when A
completes the trigger the entry hears no more (R144, R146). -/
def State.offerTo (s : State) (c : Cue) (e : Nat) : State :=
  let x := s.entry e
  match x.hearsCue c .a, x.hearsCue c .b with
  | true, true => if (x.hear .a).2 then s.occur e .a else (s.occur e .a).occur e .b
  | true, false => s.occur e .a
  | false, true => s.occur e .b
  | false, false => s

/-- A matured cue is offered to the entries that are ARMED or PRIMED as the offer begins (R144). -/
def State.offerCue (s : State) (c : Cue) : State :=
  ((List.range Config.spliceEntries).filter fun e =>
    (s.entry e).state == .armed || (s.entry e).state == .primed).foldl (fun s e => s.offerTo c e) s

/-- Every cue that has been reached leaves the list and is offered, in list order (R35). -/
def State.matureCues (s : State) : State :=
  let ready := s.cues.filter fun c => s.clockReached c.maturity
  ready.foldl State.offerCue { s with cues := s.cues.filter fun c => !s.clockReached c.maturity }

/-- The cue's remaining time (R34). -/
def Cue.remaining (now : StationTime) (c : Cue) : Nat := (c.maturity - now).toNat

/-- The list with a new cue at its place (R34; log entry 22). -/
def placeCue (now : StationTime) (c : Cue) : List Cue → List Cue
  | [] => [c]
  | d :: t => if c.remaining now < d.remaining now then c :: d :: t else d :: placeCue now c t

/-! ### TIME matchers (R141, R145) -/

/-- A TIME matcher occurs, if it is due (R145). -/
def State.timeOccurs (s : State) (e : Nat) (m : MatcherName) : State :=
  if s.timeDue e m then (s.setEntry e ((s.entry e).markOccurred m)).occur e m else s

/-- The listening TIME matchers are tested (R141). -/
def State.testTimes (s : State) : State :=
  (allMatchers.filter fun x => s.timeDue x.1 x.2).foldl (fun s x => s.timeOccurs x.1 x.2) s

/-- What an earlier act made due as the SPS's next act comes first: the gate's occurrence, then those of
what it primes, then the reports that waited for them (R80, R145, R155; log entries 6, 28). R145 gives no order of
several that one act outside a tick makes due (a cue offer that primes two entries, a commit, an execution): the model
takes them one after another, entries ascending and A before B, as R141 does at a tick (DESIGN CHOICE, log entry 6). -/
def State.spsReady (s : State) : State := s.testTimes.testTimes.takeReports

/-- The tests of a tick and of SET STATION TIME, on the clock as it stands (R141, R142). A TIME matcher A that the
clock has reached, of an entry whose gate a cue of this act opens, listens when the TIME matchers are tested and
occurs in this act, in its place among them, where R145 and R148 speak of the SPS's next act (DESIGN CHOICE, log
entry 6). -/
def State.testClock (s : State) : State := s.matureCues.testTimes

/-- A cue arrives at the SPS: offered at once, placed in the list, or dropped by a full list (R34). -/
def State.takeCue (s : State) (c : Cue) : State :=
  let s := s.spsReady
  if c.preRoll = 0 then (s.offerCue c).takeReports
  else if Config.cuePlaces ≤ s.cues.length then s.countInput c.input InputCounters.incCuesDropped
  else { s with cues := placeCue s.clock c s.cues }

/-! ### Setting and cancelling (R142, R156) -/

/-- The station clock is written and the tests made (R142). -/
def State.setClock (s : State) (t : StationTime) : State :=
  { s.spsReady with clock := t }.testClock.takeReports

/-- The partner field of the original of a HELD return is cleared (R156). -/
def State.clearPartner (s : State) (e : Nat) : State :=
  match (s.entry e).partner with
  | some o => s.setEntry o { s.entry o with partner := none }
  | none => s

/-- The cancellation of an entry that is ARMED, PRIMED or HELD, one act with the CTAB and the FLT, after what a
commit act made due at the CTAB (R46, R156). -/
def State.cancelEntry (s : State) (e : Nat) : State :=
  let s := s.settleCtab
  let s := if (s.entry e).state = .held then s.clearPartner e else s.endHeldPartner e .cancelled none
  ((s.dropSpliceRefs (s.entry e).edits).passReservations e none).freeEntry e .cancelled none

/-! ### The rows -/

/-- STATION_CLOCK_TICK: the clock counts on and the tests are made (R141; log entry 5). -/
def execStationClockTick (s : State) : Host.Outcome State Fault Refusal :=
  .next (s.awake fun s =>
    let s := s.spsReady
    { s with clock := s.clock + 1, uptime := s.uptime + 1 }.testClock.takeReports)

/-- CUE_MATURED: the first cue of the list that has been reached leaves it and is offered (R35). -/
def execCueMatured (s : State) : Host.Outcome State Fault Refusal :=
  .next (s.awake fun s =>
    let s := s.spsReady
    match s.cues.find? fun c => s.clockReached c.maturity with
    | some c => ({ s with cues := s.cues.erase c }.offerCue c).takeReports
    | none => s)

/-- TIME_MATCHER_OCCURS (R145): no effect on a matcher that is not due (log entry 3). -/
def execTimeMatcherOccurs (e : Nat) (m : MatcherName) (s : State) :
    Host.Outcome State Fault Refusal :=
  if e < Config.spliceEntries then
    .next (s.awake fun s => if s.timeDue e m then (s.timeOccurs e m).takeReports else s)
  else .fault .noSuchEntry

end Sys2Proof.Machine
end

