-- ==== Sys2Proof/WellFormed.lean ====
section
/-! DEFINITION. Which commands can be sent at all: their numbers name something the part has, a
packet is a packet, and a row's kind byte is its own. What a request's parameters may hold is no
matter of form: the part judges them and answers (R173). -/

namespace Sys2Proof

/-- The kinds of the request catalogue (10_management_ports_requests_and_formats.md, 10.2). -/
def catalogue : List Nat :=
  [0x01, 0x02, 0x03, 0x04, 0x10, 0x11, 0x12, 0x13, 0x14, 0x15, 0x20, 0x21, 0x22,
   0x30, 0x31, 0x32, 0x33, 0x34, 0x35, 0x36, 0x37,
   0x40, 0x41, 0x42, 0x43, 0x44, 0x45, 0x46, 0x47, 0x48, 0x49, 0x4A, 0x4B, 0x7F]

/-- A packet is 188 bytes that begin with the sync byte (R30). -/
def isPacket (bytes : List Byte) : Bool :=
  bytes.length == 188 && bytes.head? == some 0x47#8

/-- The bytes of a missing sync byte: 188 that do not begin with one (R30). -/
def isMiss (bytes : List Byte) : Bool :=
  bytes.length == 188 && !(bytes.head? == some 0x47#8)

/-- A transaction that reaches no kind byte and reads no reply: a status poll, or a request frame of at
most its two length bytes (R169, R170; log entry 40). -/
def pollOk (transaction : Byte) (more : Nat) : Bool :=
  transaction != 0x52#8 && (transaction != 0x57#8 || decide (more ≤ 2))

/-- The checks on a command's own operands. -/
def Instr.wellFormed : Instr → Bool
  | .unknownRequest k _ => !catalogue.contains k.toNat
  | .statusPoll t more => pollOk t more
  | .syncAcquired i _ | .syncCandidateGivenUp i _ => decide (i < 8)
  | .missingSyncByte m => decide (m.input < 8) && isMiss m.bytes
  | .packetReceived i sync after => decide (i < 8) && isPacket (sync :: after)
  | .lossWindowExpired h | .restoreHoldEnded h => decide (1 ≤ h) && decide (h ≤ 1023)
  | .switchDeadlineExpired f i => decide (f < 24) && decide (i < 16)
  | .outputOpportunity f | .directoryPeriodExpired f => decide (f < 24)
  | .timeMatcherOccurs e _ => decide (e < 64)
  | .openBatch _ | .closeBatch _ | .abandonBatch _ | .apply _ | .createRecord _
  | .amendRecord _ | .retireRecord _ | .bindSlot _ | .unbindSlot _ | .setLeg _
  | .batchIdleExpired _ | .commitAct _ | .cancelSplice _ | .resumeSlot _ | .armProbe _
  | .setInput _ | .setLegOwner _ | .setStationTime _ | .setBatchLimit _ | .setRelay _
  | .setCounterPair _ | .setAttentionMask _ | .clearAttention _ | .readRecord _
  | .findRecord _ | .listRecords _ | .readLeg _ | .readSlot _ | .readSplice _
  | .readOutcome _ | .readCounters _ | .readInput _ | .queryCarriage _
  | .readAttention _ | .readRelay _ | .clearAll _ | .clearingAct | .replyRead _
  | .resetnAsserted | .resetnReleased | .queueHeadTaken | .lossNotice
  | .restorationNotice | .onAirUpdate | .stationClockTick | .cueMatured
  | .resetReleaseTimeElapsed => true

end Sys2Proof
end

