-- ==== Sys2Proof/Machine/Inputs.lean ====
section
/-! DEFINITION. The Input Front End and the Stream Map: packet sync, classification, cue and command
packets, the lookup and the path of a matched packet
(02_contribution_inputs_and_the_stream_map.md, R28 to R33, R39; R174, R183, R184). -/

namespace Sys2Proof.Machine

/-! ### Packet sync (R29, R30) -/

/-- The byte at a position, when it has arrived, is 0x47. -/
def syncAt (w : List Byte) (k : Nat) : Bool := w[k]?.all (· == 0x47#8)

/-- The first byte is a candidate that no byte seen so far gives up (R29). -/
def isCandidate (w : List Byte) : Bool := syncAt w 0 && syncAt w 188 && syncAt w 376

/-- The search goes on from the byte after a candidate that is given up (R29). -/
def settleWindow : List Byte → List Byte
  | [] => []
  | b :: t => if isCandidate (b :: t) then b :: t else settleWindow t

/-- One byte examined in SEARCH; the third sync byte locks the input (R29). -/
def Input.examine (x : Input) (b : Byte) : Input :=
  match x.sync with
  | .locked => x
  | .search =>
    let w := settleWindow (x.window ++ [b])
    if w.length = 377 then { x with sync := .locked, window := [] } else { x with window := w }

/-- The Stream Map forgets the last continuity count of every entry of input `i` (R30, R39). -/
def State.forgetCounts (s : State) (i : Nat) : State :=
  { s with smap := s.smap.map fun c =>
      if c.1 / 8192 = i then (c.1, { c.2 with lastCount := none }) else c }

/-- An enabled input in SEARCH examines bytes; LOCKED again after a sync loss, its entries' counts are
forgotten (R29, R30; log entries 9, 10). -/
def State.examineBytes (s : State) (i : Nat) (bytes : List Byte) : State :=
  let x := s.input i
  if x.enabled && x.sync == .search then
    let y := bytes.foldl Input.examine x
    match y.sync with
    | .search => s.setInput i y
    | .locked =>
      let t := s.setInput i { y with lost := false }
      if y.lost then t.forgetCounts i else t
  else s

/-- A LOCKED input finds no sync byte at the first of the 188 bytes. The second miss in a row sends it to
SEARCH, and the search starts at the byte after the missing position (R30; log entry 9). -/
def State.missSync (s : State) (i : Nat) (bytes : List Byte) : State :=
  let x := s.input i
  if x.enabled && x.sync == .locked then
    if x.miss then
      (s.setInput i { x with
        sync := .search, miss := false, lost := true, window := [],
        counters := x.counters.incSyncLosses }).examineBytes i bytes.tail
    else s.setInput i { x with miss := true }
  else s

/-! ### Cue packets (R33, R183, R184) -/

/-- The cue message a packet's payload spells; none when it has not the form, an unknown kind, or a bad
check (R33, R184). -/
def cueOf (i : Nat) (arrival : StationTime) (p : List Byte) : Option Cue :=
  let q := pktPayload p
  if pktPayloadStart p && decide (14 ≤ q.length) && byteAt q 0 == 0xC1#8
      && natOf ((q.drop 12).take 2) == (crc16 (q.take 12)).toNat then
    (CueKind.ofNat? (byteAt q 1).toNat).map fun kind =>
      let preRoll := natOf ((q.drop 6).take 4)
      ⟨i, BitVec.ofNat 32 (natOf ((q.drop 2).take 4)), kind, preRoll, arrival,
        arrival + BitVec.ofNat 33 preRoll⟩
  else none

/-- A packet on the cue PID (R33, R34): the message takes the packet's arrival time, the station clock as
it stands (R25, R141; log entry 8). -/
def State.cuePacket (s : State) (i : Nat) (p : List Byte) : State :=
  if pktHasPayload p then
    match cueOf i s.clock p with
    | some c => (s.countInput i InputCounters.incCuesReceived).takeCue c
    | none => s.countInput i InputCounters.incCuesDropped
  else s

/-! ### Command packets (R32, R174, R183) -/

/-- The command a packet's payload spells; none when it is malformed or fails its check (R174). -/
def commandOf (i : Nat) (p : List Byte) : Option Command :=
  let q := pktPayload p
  let L := natOf ((q.drop 3).take 2)
  let checked := (q.drop 1).take (4 + L)
  if pktPayloadStart p && byteAt q 0 == 0xC6#8 && within 1 177 L && decide (7 + L ≤ q.length)
      && natOf ((q.drop (5 + L)).take 2) == (crc16 checked).toNat then
    some ⟨natOf ((q.drop 1).take 2), i, (q.drop 5).take L⟩
  else none

/-- A packet on the command PID (R32, R174). -/
def State.commandPacket (s : State) (i : Nat) (p : List Byte) : State :=
  if pktHasPayload p then
    match commandOf i p with
    | some c =>
      if Config.queuePlaces ≤ s.netQueue.length then
        (s.countInput i InputCounters.incCommandsDropped).raise .networkQueueFull i
      else
        { s.countInput i InputCounters.incCommandsTaken with netQueue := s.netQueue ++ [c] }
    | none => s.countInput i InputCounters.incCommandsDropped
  else s

/-! ### The lookup (R39) -/

/-- The last continuity count after a packet with a payload, and whether it shows an error (R39). -/
def checkContinuity (last : Option Nat) (n : Nat) (discontinuity : Bool) : Option Nat × Bool :=
  match last with
  | none => (some n, false)
  | some l => (some n, !discontinuity && n != l && n != (l + 1) % 16)

/-- The continuity check of a matched packet on the entry under `k` (R39). -/
def State.continuity (s : State) (i k : Nat) (m : MapEntry) (p : List Byte) : State :=
  if pktHasPayload p then
    let (last, bad) := checkContinuity m.lastCount (pktContinuity p) (pktDiscontinuity p)
    let s := { s with smap := Table.put s.smap k { m with lastCount := last } }
    if bad then s.countInput i InputCounters.incContinuity else s
  else s

/-- The packet is a switch point of its record (R5, R75). -/
def isSwitchPoint (r : Record) (index : Nat) (p : List Byte) : Bool :=
  index == 0 && match r.components with
    | c :: _ => if c.kind = .video then pktRandomAccess p else pktPayloadStart p
    | [] => false

/-- A matched packet goes through the CTAB, the FLT and the RFO (R20, R22, R42, R75, R83). -/
def State.matchedPacket (s : State) (h index : Nat) (p : List Byte) : State :=
  let s := s.notePacket h index p
  match s.record? h with
  | some r => (s.sight h (isSwitchPoint r index p)).makeCopies h index r.cls p
  | none => s

/-- A packet is looked up in the Stream Map (R39). -/
def State.lookup (s : State) (i : Nat) (p : List Byte) : State :=
  let k := pidKey i (pktPid p)
  match (Table.find? s.smap k).filter (·.active) with
  | some m => (s.continuity i k m p).matchedPacket m.handle m.index p
  | none => s.countInput i InputCounters.incUnmapped

/-! ### Classification (R31) -/

/-- A delivered packet is sorted, the first row of R31's table that applies deciding. -/
def State.classify (s : State) (i : Nat) (p : List Byte) : State :=
  let x := s.input i
  let pid := pktPid p
  if pktError p then s.countInput i InputCounters.incErrored
  else if pid = 0x1FFF then s
  else if x.cuePid = some pid then s.cuePacket i p
  else if x.bearing && x.commandPid == pid then s.commandPacket i p
  else s.lookup i p

/-- A LOCKED input finds its sync byte: the packet is delivered and counted, and a miss cleared (R30). -/
def State.deliver (s : State) (i : Nat) (p : List Byte) : State :=
  let x := s.input i
  if x.enabled && x.sync == .locked then
    (s.setInput i { x with miss := false, counters := x.counters.incReceived }).classify i p
  else s

/-! ### The rows -/

/-- SYNC_ACQUIRED (R29). -/
def execSyncAcquired (i : Nat) (bytes : List Byte) (s : State) : Host.Outcome State Fault Refusal :=
  if i < 8 then .next (s.awake fun s => s.examineBytes i bytes) else .fault .noSuchInput

/-- SYNC_CANDIDATE_GIVEN_UP (R29). -/
def execSyncCandidateGivenUp (i : Nat) (bytes : List Byte) (s : State) :
    Host.Outcome State Fault Refusal :=
  if i < 8 then .next (s.awake fun s => s.examineBytes i bytes) else .fault .noSuchInput

/-- MISSING_SYNC_BYTE (R30). -/
def execMissingSyncByte (m : Missed) (s : State) : Host.Outcome State Fault Refusal :=
  if m.input < 8 then
    if isMiss m.bytes then .next (s.awake fun s => s.missSync m.input m.bytes) else .fault .notAMiss
  else .fault .noSuchInput

/-- PACKET_RECEIVED (R30, R31; log entry 8). -/
def execPacketReceived (i : Nat) (sync : Byte) (after : List Byte) (s : State) :
    Host.Outcome State Fault Refusal :=
  if i < 8 then
    if isPacket (sync :: after) then .next (s.awake fun s => s.deliver i (sync :: after))
    else .fault .notAPacket
  else .fault .noSuchInput

end Sys2Proof.Machine
end

