-- ==== Sys2Proof/Machine/Batch.lean ====
section
/-! DEFINITION. The Edit Engine as the owner of batch requests and edits: opening, nesting, closing,
arrivals, APPLY, abandon and expiry (06_edit_batches.md, R99 to R119). An owner takes a requester's
request and answers it, or leaves it in flight. -/

namespace Sys2Proof.Machine

/-- An owner's answer (R173). -/
structure Answer where
  disp : Disposition
  code : Nat
  body : List Byte
deriving DecidableEq, Repr

def Answer.taken (body : List Byte) : Answer := ⟨.taken, 0, body⟩

def Answer.refused (c : Code) : Answer := ⟨.refused, c.num, []⟩

/-- A refusal with ZONE_REFUSED or CLAIMED names a feed (R102, section 10.2). -/
def Answer.refusedAt (c : Code) (f : Nat) : Answer := ⟨.refused, c.num, bytesOf 1 f⟩

/-- The answer to a request that ended its requester's batch: the outcome record as it was written,
after an APPLY's handles (R173, section 10.2; log entry 14). -/
def Answer.ended (before : List Byte) (o : OutcomeRecord) : Answer :=
  ⟨.ended, o.code, before ++ encOutcome o⟩

/-- The four handles of an APPLY's answer (section 10.2). -/
def applyHandles (hs : List Nat) : List Byte := (List.range 4).flatMap fun k => bytesOf 2 (hs.getD k 0)

/-! ### Controls (R100) -/

/-- Leg edits are allowed by every open level. -/
def Workspace.legEdits (w : Workspace) : Bool := w.levels.all (·.legEdits)

/-- Retirement is allowed by every open level. -/
def Workspace.retire (w : Workspace) : Bool := w.levels.all (·.retire)

/-- The largest tolerance of any open level. -/
def Workspace.tolerance (w : Workspace) : Nat := w.levels.foldl (fun t l => max t l.tolerance) 0

/-! ### The idle timer (R117, R118) -/

/-- Each request the MIF takes from a requester restarts its idle timer while its batch is open. -/
def State.restartIdle (s : State) (r : Requester) : State :=
  if 1 ≤ (s.ws r).depth then s.setWs r { s.ws r with idle := some s.uptime } else s

/-- The batch of `r` expires, if its idle timer has reached the limit (R117, R121). -/
def State.expireIdle (s : State) (r : Requester) : State :=
  match (s.ws r).idle with
  | some t => if s.reached t (1000 * s.idleLimit) then s.abort r (.plain .batchExpired) else s
  | none => s

/-- Expiries that a SET BATCH LIMIT made due come before any later act of the EDE (R118; log entry 6). -/
def State.settleIdle (s : State) : State :=
  s.idleDue.foldl State.expireIdle { s with idleDue := [] }

/-! ### Claims (R62) -/

/-- The zone allows the requester to claim. -/
def zoneAllows : Requester → Zone → Bool
  | _, .shared => true
  | .site, .site => true
  | .network, .network => true
  | .site, .network | .network, .site => false

/-- The feeds of a set, lowest first. -/
def feedsOf (c : FeedSet) : List Nat := (List.range Config.feeds).filter fun f => c.getLsbD f

/-- A claiming act takes every feed for the requester, or none and names the lowest that failed (R62,
R102). -/
def State.claim (s : State) (r : Requester) (feeds : List Nat) : Except (Code × Nat) State :=
  match feeds.find? fun f => !zoneAllows r (s.leg f).zone with
  | some f => .error (.zoneRefused, f)
  | none =>
    match feeds.find? fun f => (s.leg f).claim.isSome with
    | some f => .error (.claimed, f)
    | none => .ok (feeds.foldl (fun s f => s.setLeg f { s.leg f with claim := some r }) s)

/-! ### OPEN BATCH, CLOSE BATCH, ABANDON BATCH (R102 to R105, R116) -/

/-- The workspace right after an OPEN BATCH at depth 0 (R102). -/
def openedWorkspace (now : Nat) (l : Level) (b : BatchParams) : Workspace :=
  { Workspace.start with
    depth := 1, levels := [l], mode := b.mode, trigger := b.trigger, returnOpt := b.returnOpt,
    claims := b.claims, idle := some now }

/-- The batch of `r` is aborted by the request, which is answered with the outcome (R115, R173). -/
def State.abortAnswered (s : State) (r : Requester) (f : Failure) (before : List Byte) :
    State × Option Answer :=
  let s := s.abort r f
  (s, some (.ended before (s.outcome r)))

/-- OPEN BATCH at depth 0 (R102). -/
def ownOpenFirst (s : State) (r : Requester) (p : List Byte) : State × Option Answer :=
  match (parseOpen p).bind (·.level), (parseOpen p).bind (·.batch) with
  | some l, some b =>
    match s.claim r (feedsOf b.claims) with
    | .ok s => (s.setWs r (openedWorkspace s.uptime l b), some (.taken []))
    | .error (c, f) => (s, some (.refusedAt c f))
  | _, _ => (s, some (.refused .badField))

/-- OPEN BATCH (R102, R104; log entry 12). -/
def ownOpenBatch (s : State) (r : Requester) (p : List Byte) : State × Option Answer :=
  let w := s.ws r
  if w.depth = 0 then ownOpenFirst s r p
  else if Config.maxDepth ≤ w.depth then s.abortAnswered r (.plain .depthExceeded) []
  else
    match (parseOpen p).bind (·.level) with
    | some l =>
      (s.setWs r { w with depth := w.depth + 1, levels := w.levels ++ [l] }, some (.taken []))
    | none => s.abortAnswered r (.plain .badField) []

/-- CLOSE BATCH (R105, R123; log entry 12). -/
def ownCloseBatch (s : State) (r : Requester) (p : List Byte) : State × Option Answer :=
  let w := s.ws r
  if w.depth = 0 then (s, some (.refused .noBatch))
  else if p ≠ [] then (s, some (.refused .badField))
  else if w.depth = 1 then (s.setWs r { w with idle := none, flight := some ⟨0x02, []⟩ }, none)
  else (s.setWs r { w with depth := w.depth - 1, levels := w.levels.dropLast }, some (.taken []))

/-- The outcome of an abandoned batch (R116, R121). -/
def abandonedOutcome (w : Workspace) (code : Nat) : OutcomeRecord :=
  ⟨.abandoned, code, none, .none, w.depth, 0, 0, w.mode, none, none⟩

/-- ABANDON BATCH (R116; log entry 12). -/
def ownAbandonBatch (s : State) (r : Requester) (p : List Byte) : State × Option Answer :=
  let w := s.ws r
  if w.depth = 0 then (s, some (.refused .noBatch))
  else
    match fieldsOf [1] p with
    | some [code] =>
      if 32 ≤ code then
        let s := s.endEarly r (abandonedOutcome w code)
        (s, some (.ended [] (s.outcome r)))
      else (s, some (.refused .badField))
    | _ => (s, some (.refused .badField))

/-! ### Arrivals (R106 to R112) -/

/-- A handle the requester can name (R6, R108): committed, RETIRING, or RESERVED by its own workspace. -/
def State.nameable (s : State) (r : Requester) (h : Nat) : Bool :=
  match s.record? h with
  | some x => x.state != .reserved || (s.ws r).handles.contains h
  | none => false

def State.isRetiring (s : State) (h : Nat) : Bool := ((s.record? h).map (·.state)) == some .retiring

/-- The record an AMEND RECORD or RETIRE RECORD is about (check 8). -/
def Edit.owned : Edit → Option Nat
  | .amend a => some a.handle
  | .retire h => some h
  | .create .. | .slot _ | .setLeg _ => none

/-- Checks 2 to 5 (R106, R109): the edit against the workspace. -/
def controlFailure (w : Workspace) (allowRetire : Bool) (e : Edit) : Option (Code × Subject) :=
  let deferrable := match e with
    | .slot _ => true
    | .create .. | .amend _ | .retire _ | .setLeg _ => false
  if w.mode = .deferred && !deferrable then some (.notDeferrable, .none)
  else if e.feed?.any (fun f => !w.claims.getLsbD f) then
    some (.notClaimed, { Subject.none with feed := e.feed? })
  else
    match e with
    | .setLeg l =>
      if w.legEdits then none
      else some (.legEditNotAllowed, { Subject.none with feed := some l.feed })
    | .retire h => if allowRetire then none else some (.retireNotAllowed, handleSubject h)
    | .create .. | .amend _ | .slot _ => none

/-- Checks 6 to 9 (R106, R108, R110): the edit against the tables. -/
def tableFailure (s : State) (r : Requester) (e : Edit) : Option (Code × Subject) :=
  match handleFailure (s.nameable r) s.isRetiring e with
  | some (c, h) => some (c, handleSubject h)
  | none =>
    match e.owned.filter fun h => ((s.record? h).map (·.owner)) != some r with
    | some h => some (.notOwner, handleSubject h)
    | none => (reservedBy s e).map fun x => (.slotReserved, x)

/-- The PIDs an input takes out of its packet stream (R26). -/
def Input.reservedPids (x : Input) : List Nat :=
  x.cuePid.toList ++ if x.bearing then [x.commandPid] else []

/-- The source PID of input `i` has a stream map entry, in either state (R27, R37). -/
def State.mapped (s : State) (i pid : Nat) : Bool := (Table.find? s.smap (pidKey i pid)).isSome

/-- The lowest handle whose record is FREE (R2). -/
def State.lowestFree (s : State) : Option Nat :=
  (List.range' 1 Config.maxHandle).find? fun h => (s.record? h).isNone

/-- The record a CREATE RECORD reserves (R3). -/
def createdRecord (r : Requester) (c : CreateFields) : Record :=
  { state := .reserved, owner := r, key := c.key, cls := c.cls, region := c.region,
    components := c.components, peak := c.peak, fallback := c.fallback,
    lossWindow := c.lossWindow.getD 200, restoreHold := c.restoreHold.getD 1000,
    autoReturn := c.autoReturn.getD true, planned := 0, onAir := 0, spliceRefs := 0,
    fallbackRefs := 0, hit := false, armed := false, probe := none, silence := none, hold := none,
    silentFlag := false }

/-- The keys of the map entries of a record's components, with the components' indices (R37). -/
def mapKeys (c : CreateFields) : List (Nat × Nat) :=
  c.components.mapIdx fun k x => (pidKey c.key.input x.pid, k)

/-- One RESERVED entry for each component (R37). -/
def State.reserveEntries (s : State) (h : Nat) (c : CreateFields) : State :=
  { s with smap := (mapKeys c).foldl (fun t x => Table.put t x.1 ⟨h, x.2, false, none⟩) s.smap }

/-- Checks 11 to 13, and the reservation of a handle and of its map entries (R2, R4, R37, R111). -/
def State.reserveRecord (s : State) (r : Requester) (c : CreateFields) : Except Code (Nat × State) :=
  if s.records.any fun x => x.2.key == c.key then .error .keyExists
  else
    match s.lowestFree with
    | none => .error .tableFull
    | some h =>
      let taken := fun x : Component =>
        (s.input c.key.input).reservedPids.contains x.pid || s.mapped c.key.input x.pid
      if c.components.any taken then .error .pidTaken
      else if Config.mapSize < s.smap.length + c.components.length then .error .mapFull
      else .ok (h, (s.setRecord h (createdRecord r c)).reserveEntries h c)

/-- The edit joins the workspace with its stamp (R112). -/
def Workspace.hold (w : Workspace) (e : Edit) : Workspace :=
  { w with edits := w.edits ++ [(e, w.tolerance)] }

/-- The arrival of an edit that has passed its field check: checks 2 to 13 in their order, then the
edit's place in the workspace; a CREATE RECORD gives the handle it reserved, another edit 0 (R106 to
R112). -/
def State.arrive (s : State) (r : Requester) (allowRetire : Bool) (e : Edit) :
    Except (Code × Subject) (Nat × State) :=
  let w := s.ws r
  match controlFailure w allowRetire e with
  | some f => .error f
  | none =>
    match tableFailure s r e with
    | some f => .error f
    | none =>
      if Config.workspaceEdits ≤ w.edits.length then .error (.workspaceFull, .none)
      else
        match e with
        | .create _ c =>
          match s.settleCtab.reserveRecord r c with
          | .error code => .error (code, .none)
          | .ok (h, t) =>
            let w := { w.hold (.create h c) with
              handles := w.handles ++ [h], mapEntries := w.mapEntries ++ (mapKeys c).map (·.1) }
            .ok (h, t.setWs r w)
        | .amend _ | .retire _ | .slot _ | .setLeg _ => .ok (0, s.setWs r (w.hold e))

/-- The failure of an arrival: its position is one more than the edits held, absent for WORKSPACE_FULL
(R121). With 64 edits held an edit that fails checks 1 to 9 thus has position 65, outside the range 1..64
that R101 gives the field: the spec does not settle it (DESIGN CHOICE, log entry 15). -/
def arrivalFailure (w : Workspace) (f : Code × Subject) : Failure :=
  ⟨f.1, if f.1 = .workspaceFull then none else some (w.edits.length + 1), f.2⟩

/-- The arrival of an edit as it was sent: check 1, then the others (R106, R107). -/
def State.arriveSent (s : State) (r : Requester) (allowRetire : Bool) (e : Option Edit) :
    Except Failure (Nat × State) :=
  match e with
  | none => .error (arrivalFailure (s.ws r) (.badField, .none))
  | some e =>
    match s.arrive r allowRetire e with
    | .ok x => .ok x
    | .error f => .error (arrivalFailure (s.ws r) f)

/-- An edit sent as a request (R106, R112). -/
def ownEdit (kind : Nat) (s : State) (r : Requester) (p : List Byte) : State × Option Answer :=
  if (s.ws r).depth = 0 then (s, some (.refused .noBatch))
  else
    match s.arriveSent r (s.ws r).retire (parseEdit kind p) with
    | .error f => s.abortAnswered r f []
    | .ok (h, t) => (t, some (.taken (if kind = 0x10 then bytesOf 2 h else [])))

/-! ### APPLY (R113, R114) -/

/-- The edits of an APPLY arrive in order, up to the first that fails; the handles so far are in edit
order. -/
def State.arriveAll (s : State) (r : Requester) : List SentEdit → List Nat →
    State × List Nat × Option Failure
  | [], hs => (s, hs, none)
  | e :: rest, hs =>
    match s.arriveSent r false e.edit with
    | .error f => (s, hs, some f)
    | .ok (h, t) => t.arriveAll r rest (hs ++ [h])

/-- The workspace as an APPLY at depth 0 takes it: one level, depth 0 (R113 step 3). -/
def applyWorkspace (feeds : List Nat) : Workspace :=
  { Workspace.start with
    levels := [⟨true, false, 0⟩]
    claims := feeds.foldl (fun c f => c ||| BitVec.twoPow 24 f) 0 }

/-- The distinct feeds the edits name, lowest first (R62, R113). -/
def feedsNamed (es : List SentEdit) : List Nat :=
  (List.range Config.feeds).filter fun f => es.any fun e => e.feed == some f

/-- APPLY at depth 0 (R113; log entry 12). Section 10.2 says that an APPLY gives four handles without saying that it
must be taken: the model gives them with TAKEN and ENDED only, so that a refusal with BAD_FIELD has an empty body, and
one with ZONE_REFUSED or CLAIMED the feed alone (R173; DESIGN CHOICE, log entry 14). -/
def ownApplyAlone (s : State) (r : Requester) (p : List Byte) : State × Option Answer :=
  match parseApply p with
  | none => (s, some (.refused .badField))
  | some es =>
    if es.any fun e => e.feed.any fun f => !feedOk f then (s, some (.refused .badField))
    else
      let feeds := feedsNamed es
      match s.claim r feeds with
      | .error (c, f) => (s, some (.refusedAt c f))
      | .ok t =>
        match (t.setWs r (applyWorkspace feeds)).arriveAll r es [] with
        | (t, hs, some f) => t.abortAnswered r f (applyHandles hs)
        | (t, hs, none) => (t.setWs r { t.ws r with flight := some ⟨0x04, hs⟩ }, none)

/-- APPLY inside a batch (R114). Bytes that do not spell its edits abort the batch before any edit
arrives, with BAD_FIELD and no failing edit index: the spec gives no index (DESIGN CHOICE, log entry 12). -/
def ownApplyInside (s : State) (r : Requester) (p : List Byte) : State × Option Answer :=
  match parseApply p with
  | none => s.abortAnswered r (.plain .badField) (applyHandles [])
  | some es =>
    match s.arriveAll r es [] with
    | (t, hs, some f) => t.abortAnswered r f (applyHandles hs)
    | (t, hs, none) => (t, some (.taken (applyHandles hs)))

def ownApply (s : State) (r : Requester) (p : List Byte) : State × Option Answer :=
  if (s.ws r).depth = 0 then ownApplyAlone s r p else ownApplyInside s r p

/-- The answer to the request whose commit was in flight (R123, R173). -/
def commitAnswer (fl : CommitFlight) (o : OutcomeRecord) : Answer :=
  .ended (if fl.kind = 0x04 then applyHandles fl.handles else []) o

end Sys2Proof.Machine
end

