-- ==== Sys2Proof/Machine/Requests.lean ====
section
/-! DEFINITION. The owners of direct requests: settings, cancels, probes and reads. Each takes a
requester's request in one act and answers it (R21, R23, R27, R28, R55, R61, R82, R101, R118, R142,
R156, R158, R163 to R168, R176 to R180). -/

namespace Sys2Proof.Machine

/-- An owner's act that answers at once. -/
abbrev Owner := State → Requester → List Byte → State × Answer

/-! ### Splices and slots -/

/-- CANCEL SPLICE (R156). -/
def ownCancelSplice (s : State) (r : Requester) (p : List Byte) : State × Answer :=
  match fieldsOf [1] p with
  | some [e] =>
    if e < Config.spliceEntries then
      let s := s.spsReady
      let x := s.entry e
      if x.owner ≠ some r then (s, .refused .notOwner)
      else if x.state = .free ∨ x.state = .switching then (s, .refused .stateRefused)
      else (s.cancelEntry e, .taken [])
    else (s, .refused .badField)
  | _ => (s, .refused .badField)

/-- A SUBSTITUTED slot whose planned record is LIVE: its move to PENDING (R55). -/
def resumeMove (s : State) (f : Nat) (x : Slot) : Option Move :=
  match x.planned with
  | some b =>
    if x.onAir = .substituted && s.usable b.handle then some (enterPending s f x b.handle) else none
  | none => none

/-- RESUME SLOT (R55). -/
def ownResumeSlot (s : State) (r : Requester) (p : List Byte) : State × Answer :=
  match fieldsOf [1, 1] p with
  | some [f, i] =>
    if feedOk f && slotOk i then
      if r = .network ∧ (s.leg f).zone = .site then (s, .refused .notPermitted)
      else
        match resumeMove s f (s.slot f i) with
        | some m => ((s.applyMove f i m).takeReports, .taken [])
        | none => (s, .refused .stateRefused)
    else (s, .refused .badField)
  | _ => (s, .refused .badField)

/-! ### Settings -/

/-- ARM PROBE (R21). -/
def ownArmProbe (s : State) (_r : Requester) (p : List Byte) : State × Answer :=
  match fieldsOf [2] p with
  | some [h] =>
    if handleOk h then
      let s := s.settleCtab
      match s.record? h with
      | some x =>
        if x.state = .reserved then (s, .refused .stateRefused)
        else (s.setRecord h { x with armed := true, probe := none }, .taken [])
      | none => (s, .refused .stateRefused)
    else (s, .refused .badField)
  | _ => (s, .refused .badField)

/-- The settings of an input after a SET INPUT (R27). -/
def InputSettings.apply (c : InputSettings) (x : Input) : Input :=
  { x with
    enabled := c.enabled.getD x.enabled
    cuePid := c.cuePid.getD x.cuePid
    commandPid := c.commandPid.getD x.commandPid
    bearing := c.bearing.getD x.bearing }

/-- Disabling an enabled input, or enabling a disabled one, leaves it in SEARCH with nothing partly
received (R28; log entry 10). -/
def switchSync (old new : Input) : Input :=
  if old.enabled = new.enabled then new
  else { new with sync := .search, miss := false, window := [] }

/-- SET INPUT (R27, R28). -/
def ownSetInput (s : State) (_r : Requester) (p : List Byte) : State × Answer :=
  match parseSetInput p with
  | none => (s, .refused .badField)
  | some c =>
    let old := s.input c.input
    let new := c.apply old
    if new.cuePid = some new.commandPid then (s, .refused .badField)
    else if new.reservedPids.any fun q => !old.reservedPids.contains q && s.mapped c.input q then
      (s, .refused .pidTaken)
    else (s.setInput c.input (switchSync old new), .taken [])

/-- SET LEG OWNER (R61). -/
def ownSetLegOwner (s : State) (_r : Requester) (p : List Byte) : State × Answer :=
  match fieldsOf [1, 1] p with
  | some [f, z] =>
    match Zone.ofNat? z with
    | some z =>
      if feedOk f then
        if (s.leg f).claim.isSome then (s, .refused .claimed)
        else (s.setLeg f { s.leg f with zone := z }, .taken [])
      else (s, .refused .badField)
    | none => (s, .refused .badField)
  | _ => (s, .refused .badField)

/-- SET STATION TIME (R142). -/
def ownSetStationTime (s : State) (_r : Requester) (p : List Byte) : State × Answer :=
  match fieldsOf [5] p with
  | some [t] =>
    if t < 2 ^ 33 then (s.setClock (BitVec.ofNat 33 t), .taken []) else (s, .refused .badField)
  | _ => (s, .refused .badField)

/-- The requesters whose running idle timer has already reached the limit (R118). -/
def State.idleReached (s : State) : List Requester :=
  [Requester.site, .network].filter fun r => (s.ws r).idle.any fun t => s.reached t (1000 * s.idleLimit)

/-- SET BATCH LIMIT (R118; log entry 6). -/
def ownSetBatchLimit (s : State) (_r : Requester) (p : List Byte) : State × Answer :=
  match fieldsOf [4] p with
  | some [n] =>
    if within 1 600 n then
      let s := { s with idleLimit := n }
      ({ s with idleDue := s.idleReached }, .taken [])
    else (s, .refused .badField)
  | _ => (s, .refused .badField)

/-- SET RELAY (R177): a flag byte, 1 for enabled (DESIGN CHOICE, log entry 41). -/
def ownSetRelay (s : State) (_r : Requester) (p : List Byte) : State × Answer :=
  match (fieldsOf [1] p).bind fun l => flag? (l.headD 2) with
  | some b => ({ s with relayOn := b }, .taken [])
  | none => (s, .refused .badField)

/-- SET COUNTER PAIR (R163). -/
def ownSetCounterPair (s : State) (_r : Requester) (p : List Byte) : State × Answer :=
  match fieldsOf [1, 1, 1, 1] p with
  | some [f, n, mask, u] =>
    match CountUnit.ofNat? u with
    | some u =>
      if feedOk f && decide (n < 8) && decide (mask < 128) then
        (s.setPair (8 * f + n) ⟨BitVec.ofNat 7 mask, u, 0, 0⟩, .taken [])
      else (s, .refused .badField)
    | none => (s, .refused .badField)
  | _ => (s, .refused .badField)

/-- SET ATTENTION MASK (R167). -/
def ownSetAttentionMask (s : State) (_r : Requester) (p : List Byte) : State × Answer :=
  match fieldsOf [1] p with
  | some [mask] =>
    if mask < 128 then ({ s with attMask := BitVec.ofNat 7 mask }.driveAttn, .taken [])
    else (s, .refused .badField)
  | _ => (s, .refused .badField)

/-- CLEAR ATTENTION (R168). -/
def ownClearAttention (s : State) (_r : Requester) (p : List Byte) : State × Answer :=
  match fieldsOf [1] p with
  | some [mask] =>
    if mask < 128 then
      ({ s with attention := s.attention.filter fun c => !mask.testBit c.1 }.driveAttn, .taken [])
    else (s, .refused .badField)
  | _ => (s, .refused .badField)

/-! ### Reads -/

/-- READ RECORD (R20, R23). -/
def ownReadRecord (s : State) (_r : Requester) (p : List Byte) : State × Answer :=
  match parseReadRecord p with
  | some (clear, h) =>
    let s := s.settleCtab
    let body := encRecord h (s.record? h)
    (if clear then s.modRecord h fun x => { x with hit := false } else s, .taken body)
  | none => (s, .refused .badField)

/-- FIND RECORD (R178). -/
def ownFindRecord (s : State) (_r : Requester) (p : List Byte) : State × Answer :=
  match fieldsOf [1, 2] p with
  | some [input, programme] =>
    if decide (input < 8) && within 1 65535 programme then
      let s := s.settleCtab
      let body := match s.records.find? fun c => c.2.key == ⟨input, programme⟩ with
        | some c => bytesOf 2 c.1 ++ bytesOf 1 c.2.state.num
        | none => bytesOf 2 0 ++ bytesOf 1 0
      (s, .taken body)
    else (s, .refused .badField)
  | _ => (s, .refused .badField)

/-- The records a LIST RECORDS gives (R178). -/
def listedFrom (records : Table Record) (start : Nat) : List (Nat × Record) :=
  (records.filter fun c => decide (start ≤ c.1)).take 16

/-- The next handle of a LIST RECORDS (R178). -/
def nextListed (l : List (Nat × Record)) : Nat :=
  match l[15]? with
  | some c => if c.1 < Config.maxHandle then c.1 + 1 else 0
  | none => 0

/-- LIST RECORDS (R178; log entry 14). -/
def ownListRecords (s : State) (_r : Requester) (p : List Byte) : State × Answer :=
  match fieldsOf [2] p with
  | some [start] =>
    if handleOk start then
      let s := s.settleCtab
      let l := listedFrom s.records start
      (s, .taken (l.flatMap encListed ++ bytesOf 2 (nextListed l)))
    else (s, .refused .badField)
  | _ => (s, .refused .badField)

/-- READ LEG (R82). -/
def ownReadLeg (s : State) (_r : Requester) (p : List Byte) : State × Answer :=
  match fieldsOf [1] p with
  | some [f] => if feedOk f then (s, .taken (encLeg s f)) else (s, .refused .badField)
  | _ => (s, .refused .badField)

/-- READ SLOT (R82). -/
def ownReadSlot (s : State) (_r : Requester) (p : List Byte) : State × Answer :=
  match fieldsOf [1, 1] p with
  | some [f, i] =>
    if feedOk f && slotOk i then (s, .taken (encSlot s f i)) else (s, .refused .badField)
  | _ => (s, .refused .badField)

/-- READ SPLICE (R158). -/
def ownReadSplice (s : State) (_r : Requester) (p : List Byte) : State × Answer :=
  match fieldsOf [1] p with
  | some [e] =>
    if e < Config.spliceEntries then
      let s := s.spsReady
      (s, .taken (encEntry s e))
    else (s, .refused .badField)
  | _ => (s, .refused .badField)

/-- READ OUTCOME (R101). -/
def ownReadOutcome (s : State) (_r : Requester) (p : List Byte) : State × Answer :=
  match (fieldsOf [1] p).bind fun l => Requester.ofNat? (l.headD 2) with
  | some q => (s, .taken (encOutcome (s.outcome q)))
  | none => (s, .refused .badField)

/-- The eight pairs of a leg with their counters at 0 (R164). -/
def State.clearPairs (s : State) (f : Nat) : State :=
  (List.range 8).foldl (fun s n =>
    s.setPair (8 * f + n) { s.pair (8 * f + n) with network := 0, regional := 0 }) s

/-- READ COUNTERS (R164). -/
def ownReadCounters (s : State) (_r : Requester) (p : List Byte) : State × Answer :=
  match parseReadCounters p with
  | some (clear, .feed f) =>
    let body := (List.range 8).flatMap fun n => encPair (s.pair (8 * f + n))
    (if clear then s.clearPairs f else s, .taken body)
  | some (clear, .input i) =>
    let body := encCounters (s.input i).counters
    (if clear then s.countInput i fun _ => .zero else s, .taken body)
  | none => (s, .refused .badField)

/-- READ INPUT (R165). -/
def ownReadInput (s : State) (_r : Requester) (p : List Byte) : State × Answer :=
  match fieldsOf [1] p with
  | some [i] => if i < 8 then (s, .taken (encInput (s.input i))) else (s, .refused .badField)
  | _ => (s, .refused .badField)

/-- Feed `f` has record `h` on air (R179). -/
def State.carries (s : State) (h f : Nat) : Bool :=
  (List.range Config.slotsPerLeg).any fun i => (s.slot f i).source == some h

/-- The code of a QUERY CARRIAGE (R179). -/
def State.carriage (s : State) (h : Nat) (feeds : List Nat) : Nat :=
  if !feeds.any (s.carries h) then 0
  else if feeds.all (s.carries h) then 3
  else if (feeds.head?).any (s.carries h) then 2
  else 1

/-- QUERY CARRIAGE (R179). -/
def ownQueryCarriage (s : State) (_r : Requester) (p : List Byte) : State × Answer :=
  match fieldsOf [2, 3] p with
  | some [h, feeds] =>
    if handleOk h then
      (s, .taken (bytesOf 1 (s.carriage h (feedsOf (BitVec.ofNat 24 feeds)))))
    else (s, .refused .badField)
  | _ => (s, .refused .badField)

/-- READ ATTENTION (R168). -/
def ownReadAttention (s : State) (_r : Requester) (p : List Byte) : State × Answer :=
  if p = [] then (s, .taken (encAttention s)) else (s, .refused .badField)

/-- READ RELAY (R176). -/
def ownReadRelay (s : State) (_r : Requester) (p : List Byte) : State × Answer :=
  if p = [] then ({ s with mailbox := ⟨none, false⟩ }, .taken (encMailbox s.mailbox))
  else (s, .refused .badField)

end Sys2Proof.Machine
end

