-- ==== Sys2Proof/Machine/Port.lean ====
section
/-! DEFINITION. The Management Interface: the site port's transactions and frames, the network command
queue and the relay mailbox, CLEAR ALL and reset
(10_management_ports_requests_and_formats.md, R169 to R177, R180, R181, R183). -/

namespace Sys2Proof.Machine

/-! ### The status byte and MISO (R169, R171, R183) -/

/-- The port status byte. -/
def Port.status (p : Port) : Byte :=
  0xA0#8 ||| (if p.flight.isNone then 1#8 else 2#8) ||| (if p.reply.isSome then 4#8 else 0)
    ||| (if p.ignored then 8#8 else 0)

/-- A transaction in which `bytes` follow the status byte on MISO (log entry 26). -/
def State.shift (s : State) (bytes : List Byte) : State :=
  { s with miso := .shifted (s.port.status :: bytes) }

/-- Transactions are taken only once the data sheet's time after reset has run out (R181). -/
def State.whenRunning (s : State) (act : State → State) : State :=
  if s.phase = .running then act s else s

/-! ### Frames (R170) -/

/-- What the MIF finds of a frame that was not cut short: its kind and parameters, or a frame error. -/
inductive FrameCheck where
  | cut
  | bad
  | good (params : List Byte)
deriving DecidableEq, Repr

/-- The length and the CRC-16 of a request frame are judged (R170 steps 1 and 3, R183). -/
def checkFrame (kind : Byte) (f : Frame) : FrameCheck :=
  let L := f.len.toNat
  let content := kind :: f.rest
  if content.length < L + 2 then .cut
  else if within 1 508 L
      && natOf ((content.drop L).take 2) == (crc16 (bytesOf 2 L ++ content.take L)).toNat then
    .good ((content.take L).drop 1)
  else .bad

/-- An unread reply is discarded and the last frame ignored mark cleared (R170 step 3). -/
def State.acceptFrame (s : State) : State :=
  { s with port := { s.port with reply := none, ignored := false } }

/-- A reply that carries no answer of an owner: code 0, the requester's depth, no body (R170). -/
def bareReply (s : State) (r : Requester) (kind : Byte) (d : Disposition) : Reply :=
  ⟨kind, d, 0, (s.ws r).depth, []⟩

/-- A request transaction, from the fall of SSN to its rise; `hand` takes an accepted frame that passes
its check. The receive buffer holds the frame only while the transaction lasts (R169, R170; log entry
26). -/
def State.transact (s : State) (kind : Byte) (f : Frame) (hand : State → List Byte → State) : State :=
  s.whenRunning fun s =>
    let s := s.shift (List.replicate (3 + f.rest.length) 0x00#8)
    match checkFrame kind f, s.port.flight with
    | .cut, _ => s
    | _, some _ => { s with port := { s.port with ignored := true } }
    | .bad, none =>
      let s := s.acceptFrame
      { s with port := { s.port with reply := some (bareReply s .site 0x00#8 .frameError) } }
    | .good params, none => hand s.acceptFrame params

/-! ### Answers (R171 to R173, R176) -/

/-- The reply an answer gives, with the requester's depth after the request (R172, R173). -/
def replyOf (s : State) (r : Requester) (kind : Byte) (a : Answer) : Reply :=
  ⟨kind, a.disp, a.code, (s.ws r).depth, a.body⟩

/-- NETWORK's answer is posted while the relay is enabled, and discarded while it is not (R176). -/
def State.post (s : State) (q : NetFlight) (reply : Reply) : State :=
  let s := { s with netFlight := none }
  if s.relayOn then
    { s with mailbox := ⟨some ⟨q.seq, q.input, reply⟩, true⟩ }.raise .relayWaiting reply.kind.toNat
  else s

/-- The owner's answering act ends the request's flight (R171, R172, R175, R176). -/
def State.answer (s : State) (r : Requester) (kind : Byte) (a : Answer) : State :=
  match r with
  | .site => { s with port := { s.port with flight := none, reply := some (replyOf s .site kind a) } }
  | .network =>
    match s.netFlight with
    | some q => s.post q (replyOf s .network kind a)
    | none => s

/-- What the MIF and the EDE do with each request taken: due expiries come first, then the requester's
idle timer restarts (R117, R118; log entry 30). -/
def State.takeRequest (s : State) (r : Requester) : State := s.settleIdle.restartIdle r

/-- A request is handed to an owner that may leave it in flight. -/
def State.handBatch (s : State) (r : Requester) (kind : Byte)
    (owner : State → Requester → List Byte → State × Option Answer) (p : List Byte) : State :=
  match owner (s.takeRequest r) r p with
  | (s, some a) => s.answer r kind a
  | (s, none) =>
    match r with
    | .site => { s with port := { s.port with flight := some .commit } }
    | .network => s

/-- A request is handed to an owner that answers at once. -/
def State.handDirect (s : State) (r : Requester) (kind : Byte) (owner : Owner) (p : List Byte) :
    State :=
  let (s, a) := owner (s.takeRequest r) r p
  s.answer r kind a

/-- A SITE request row of a batch request or an edit. -/
def siteBatch (kind : Byte) (owner : State → Requester → List Byte → State × Option Answer)
    (f : Frame) (s : State) : State :=
  s.transact kind f fun s p => s.handBatch .site kind owner p

/-- A SITE request row of a direct request. -/
def siteDirect (kind : Byte) (owner : Owner) (f : Frame) (s : State) : State :=
  s.transact kind f fun s p => s.handDirect .site kind owner p

/-! ### The network command queue (R175) -/

/-- The head's request is handed to its owner as a request of NETWORK; a SITE-only kind is refused by
the MIF (R173, R175). -/
def State.handNetwork (s : State) (kind : Byte) (p : List Byte) : State :=
  match kind.toNat with
  | 0x01 => s.handBatch .network kind ownOpenBatch p
  | 0x02 => s.handBatch .network kind ownCloseBatch p
  | 0x03 => s.handBatch .network kind ownAbandonBatch p
  | 0x04 => s.handBatch .network kind ownApply p
  | 0x10 => s.handBatch .network kind (ownEdit 0x10) p
  | 0x11 => s.handBatch .network kind (ownEdit 0x11) p
  | 0x12 => s.handBatch .network kind (ownEdit 0x12) p
  | 0x13 => s.handBatch .network kind (ownEdit 0x13) p
  | 0x14 => s.handBatch .network kind (ownEdit 0x14) p
  | 0x15 => s.handBatch .network kind (ownEdit 0x15) p
  | 0x20 => s.handDirect .network kind ownCancelSplice p
  | 0x21 => s.handDirect .network kind ownResumeSlot p
  | 0x49 => s.handDirect .network kind ownQueryCarriage p
  | _ => s.handDirect .network kind (fun s _ _ => (s, .refused .notPermitted)) p

/-- A command taken from the head of the queue, now in flight (R175). -/
def State.runCommand (s : State) (c : Command) : State :=
  let kind := c.body.headD 0
  let q : NetFlight := ⟨c.seq, c.input, kind⟩
  let s := { s with netFlight := some q }
  if catalogue.contains kind.toNat then s.handNetwork kind c.body.tail
  else s.post q (bareReply s .network kind .unknownRequest)

/-- The head is taken when NETWORK has no request in flight and does not wait on the mailbox (R175). -/
def State.takeHead (s : State) : State :=
  match s.netQueue with
  | c :: rest =>
    if s.netFlight.isNone && !(s.relayOn && s.mailbox.unread) then
      { s with netQueue := rest }.runCommand c
    else s
  | [] => s

/-! ### Starting events (R180, R181) -/

/-- The clearing act: every block takes its starting values; the station clock, the last frame ignored
mark and the model's own fields stay (R180; log entries 5, 7, 26). -/
def State.clear (s : State) : State :=
  { State.reset with
    pending := s.pending, phase := s.phase, uptime := s.uptime, clock := s.clock, miso := s.miso,
    port := { Port.start with
      ignored := s.port.ignored,
      reply := some ⟨0x7F#8, .taken, 0, 0, []⟩ } }

/-! ### The rows of the port -/

/-- UNKNOWN_REQUEST (R170 step 4): a kind of the catalogue belongs to another row. -/
def execUnknownRequest (kind : Byte) (f : Frame) (s : State) : Host.Outcome State Fault Refusal :=
  if catalogue.contains kind.toNat then .fault .otherRow
  else
    .next (s.transact kind f fun s _ =>
      { s with port := { s.port with reply := some (bareReply s .site kind .unknownRequest) } })

/-- STATUS_POLL (R169, R171): the status byte, then 0xFF. With transaction byte 0x57 it is a request
transaction that ends before the frame's kind byte: MISO gives 0x00 and the frame is discarded (R170 step
1; log entry 40). -/
def execStatusPoll (transaction : Byte) (more : Nat) (s : State) :
    Host.Outcome State Fault Refusal :=
  if pollOk transaction more then
    .next (s.whenRunning fun s =>
      s.shift (List.replicate more (if transaction = 0x57#8 then 0x00#8 else 0xFF#8)))
  else .fault .otherRow

/-- The bytes a reply transaction shifts out after the status byte (R169, R172). -/
def replyBytes (p : Port) (clocked : Nat) : List Byte :=
  let frame := match p.reply with
    | some r => replyFrame r
    | none => []
  (frame ++ List.replicate (clocked - frame.length) 0xFF#8).take clocked

/-- The reply is read in full when every byte of it is clocked out (R172). -/
def Port.readReply (p : Port) (clocked : Nat) : Port :=
  match p.reply with
  | some r => if (replyFrame r).length ≤ clocked then { p with reply := none } else p
  | none => p

/-- REPLY_READ (R169, R172). -/
def execReplyRead (clocked : Nat) (s : State) : Host.Outcome State Fault Refusal :=
  .next (s.whenRunning fun s =>
    let t := s.shift (replyBytes s.port clocked)
    { t with port := t.port.readReply clocked })

/-- QUEUE_HEAD_TAKEN (R175). -/
def execQueueHeadTaken (s : State) : Host.Outcome State Fault Refusal :=
  .next (s.awake State.takeHead)

/-! ### The rows of commits and expiries -/

/-- The commit act of `r`. The SPS takes part in a DEFERRED one, so what an earlier act made due as its next
act comes first (R125, R145). -/
def State.commitAct (s : State) (r : Requester) : State :=
  match (s.ws r).mode with
  | .immediate => s.commit r
  | .deferred => s.spsReady.commit r

/-- The commit in flight for `r` is taken by the tables and answered (R123, R125, R171, R176). -/
def State.commitAnswered (s : State) (r : Requester) : State :=
  let s := s.settleIdle
  match (s.ws r).flight with
  | some fl =>
    let s := s.commitAct r
    s.answer r fl.kind (commitAnswer fl (s.outcome r))
  | none => s

/-- COMMIT_ACT (R125): no effect when no commit of `r` is in flight (log entry 3). -/
def execCommitAct (r : Requester) (s : State) : Host.Outcome State Fault Refusal :=
  .next (s.awake fun s => s.commitAnswered r)

/-- BATCH_IDLE_EXPIRED (R117), after the expiries that a SET BATCH LIMIT made due (R118): no effect while the
limit has not been reached (log entry 3). -/
def execBatchIdleExpired (r : Requester) (s : State) : Host.Outcome State Fault Refusal :=
  .next (s.awake fun s => s.settleIdle.expireIdle r)

/-! ### The rows of starting events -/

/-- CLEAR_ALL: in flight until the clearing act (R180). -/
def execClearAll (f : Frame) (s : State) : Host.Outcome State Fault Refusal :=
  .next (s.transact 0x7F#8 f fun s p =>
    let s := s.takeRequest .site
    if p = [] then { s with port := { s.port with flight := some .clearAll } }
    else s.answer .site 0x7F#8 (.refused .badField))

/-- CLEARING_ACT (R180): no effect when no CLEAR ALL is in flight (log entry 3). -/
def execClearingAct (s : State) : Host.Outcome State Fault Refusal :=
  .next (s.awake fun s => if s.port.flight = some .clearAll then s.clear else s)

/-- RESETN_ASSERTED (R181; log entry 7). -/
def execResetnAsserted (s : State) : Host.Outcome State Fault Refusal :=
  .next { State.reset with pending := s.pending, phase := .asserted, miso := .released }

/-- RESETN_RELEASED (R181): every block takes its power-on values (log entry 7). -/
def execResetnReleased (s : State) : Host.Outcome State Fault Refusal :=
  .next (if s.phase = .asserted then { State.reset with pending := s.pending } else s)

/-- RESET_RELEASE_TIME_ELAPSED (R181): transactions are taken from now on. -/
def execResetReleaseTimeElapsed (s : State) : Host.Outcome State Fault Refusal :=
  .next (if s.phase = .settling then { s with phase := .running } else s)

end Sys2Proof.Machine
end

