-- ==== Sys2Proof/Machine/Site.lean ====
section
/-! DEFINITION. The SITE request rows: each is one request transaction with its frame, the request's
hand-on and its owner's act (R169, R170, R173; section 10.2; log entry 1). -/

namespace Sys2Proof.Machine

/-- OPEN_BATCH (R102, R104). -/
def execOpenBatch (f : Frame) (s : State) : Host.Outcome State Fault Refusal :=
  .next (siteBatch 0x01#8 ownOpenBatch f s)

/-- CLOSE_BATCH (R105). -/
def execCloseBatch (f : Frame) (s : State) : Host.Outcome State Fault Refusal :=
  .next (siteBatch 0x02#8 ownCloseBatch f s)

/-- ABANDON_BATCH (R116). -/
def execAbandonBatch (f : Frame) (s : State) : Host.Outcome State Fault Refusal :=
  .next (siteBatch 0x03#8 ownAbandonBatch f s)

/-- APPLY (R113, R114). -/
def execApply (f : Frame) (s : State) : Host.Outcome State Fault Refusal :=
  .next (siteBatch 0x04#8 ownApply f s)

/-- CREATE_RECORD (R2 to R5, R106). -/
def execCreateRecord (f : Frame) (s : State) : Host.Outcome State Fault Refusal :=
  .next (siteBatch 0x10#8 (ownEdit 0x10) f s)

/-- AMEND_RECORD (R12, R106). -/
def execAmendRecord (f : Frame) (s : State) : Host.Outcome State Fault Refusal :=
  .next (siteBatch 0x11#8 (ownEdit 0x11) f s)

/-- RETIRE_RECORD (R17, R106). -/
def execRetireRecord (f : Frame) (s : State) : Host.Outcome State Fault Refusal :=
  .next (siteBatch 0x12#8 (ownEdit 0x12) f s)

/-- BIND_SLOT (R106). -/
def execBindSlot (f : Frame) (s : State) : Host.Outcome State Fault Refusal :=
  .next (siteBatch 0x13#8 (ownEdit 0x13) f s)

/-- UNBIND_SLOT (R106). -/
def execUnbindSlot (f : Frame) (s : State) : Host.Outcome State Fault Refusal :=
  .next (siteBatch 0x14#8 (ownEdit 0x14) f s)

/-- SET_LEG (R60, R106). -/
def execSetLeg (f : Frame) (s : State) : Host.Outcome State Fault Refusal :=
  .next (siteBatch 0x15#8 (ownEdit 0x15) f s)

/-- CANCEL_SPLICE (R156). -/
def execCancelSplice (f : Frame) (s : State) : Host.Outcome State Fault Refusal :=
  .next (siteDirect 0x20#8 ownCancelSplice f s)

/-- RESUME_SLOT (R55). -/
def execResumeSlot (f : Frame) (s : State) : Host.Outcome State Fault Refusal :=
  .next (siteDirect 0x21#8 ownResumeSlot f s)

/-- ARM_PROBE (R21). -/
def execArmProbe (f : Frame) (s : State) : Host.Outcome State Fault Refusal :=
  .next (siteDirect 0x22#8 ownArmProbe f s)

/-- SET_INPUT (R27). -/
def execSetInput (f : Frame) (s : State) : Host.Outcome State Fault Refusal :=
  .next (siteDirect 0x30#8 ownSetInput f s)

/-- SET_LEG_OWNER (R61). -/
def execSetLegOwner (f : Frame) (s : State) : Host.Outcome State Fault Refusal :=
  .next (siteDirect 0x31#8 ownSetLegOwner f s)

/-- SET_STATION_TIME (R142). -/
def execSetStationTime (f : Frame) (s : State) : Host.Outcome State Fault Refusal :=
  .next (siteDirect 0x32#8 ownSetStationTime f s)

/-- SET_BATCH_LIMIT (R118). -/
def execSetBatchLimit (f : Frame) (s : State) : Host.Outcome State Fault Refusal :=
  .next (siteDirect 0x33#8 ownSetBatchLimit f s)

/-- SET_RELAY (R177). -/
def execSetRelay (f : Frame) (s : State) : Host.Outcome State Fault Refusal :=
  .next (siteDirect 0x34#8 ownSetRelay f s)

/-- SET_COUNTER_PAIR (R163). -/
def execSetCounterPair (f : Frame) (s : State) : Host.Outcome State Fault Refusal :=
  .next (siteDirect 0x35#8 ownSetCounterPair f s)

/-- SET_ATTENTION_MASK (R167). -/
def execSetAttentionMask (f : Frame) (s : State) : Host.Outcome State Fault Refusal :=
  .next (siteDirect 0x36#8 ownSetAttentionMask f s)

/-- CLEAR_ATTENTION (R168). -/
def execClearAttention (f : Frame) (s : State) : Host.Outcome State Fault Refusal :=
  .next (siteDirect 0x37#8 ownClearAttention f s)

/-- READ_RECORD (R23). -/
def execReadRecord (f : Frame) (s : State) : Host.Outcome State Fault Refusal :=
  .next (siteDirect 0x40#8 ownReadRecord f s)

/-- FIND_RECORD (R178). -/
def execFindRecord (f : Frame) (s : State) : Host.Outcome State Fault Refusal :=
  .next (siteDirect 0x41#8 ownFindRecord f s)

/-- LIST_RECORDS (R178). -/
def execListRecords (f : Frame) (s : State) : Host.Outcome State Fault Refusal :=
  .next (siteDirect 0x42#8 ownListRecords f s)

/-- READ_LEG (R82). -/
def execReadLeg (f : Frame) (s : State) : Host.Outcome State Fault Refusal :=
  .next (siteDirect 0x43#8 ownReadLeg f s)

/-- READ_SLOT (R82). -/
def execReadSlot (f : Frame) (s : State) : Host.Outcome State Fault Refusal :=
  .next (siteDirect 0x44#8 ownReadSlot f s)

/-- READ_SPLICE (R158). -/
def execReadSplice (f : Frame) (s : State) : Host.Outcome State Fault Refusal :=
  .next (siteDirect 0x45#8 ownReadSplice f s)

/-- READ_OUTCOME (R101). -/
def execReadOutcome (f : Frame) (s : State) : Host.Outcome State Fault Refusal :=
  .next (siteDirect 0x46#8 ownReadOutcome f s)

/-- READ_COUNTERS (R164). -/
def execReadCounters (f : Frame) (s : State) : Host.Outcome State Fault Refusal :=
  .next (siteDirect 0x47#8 ownReadCounters f s)

/-- READ_INPUT (R165). -/
def execReadInput (f : Frame) (s : State) : Host.Outcome State Fault Refusal :=
  .next (siteDirect 0x48#8 ownReadInput f s)

/-- QUERY_CARRIAGE (R179). -/
def execQueryCarriage (f : Frame) (s : State) : Host.Outcome State Fault Refusal :=
  .next (siteDirect 0x49#8 ownQueryCarriage f s)

/-- READ_ATTENTION (R168). -/
def execReadAttention (f : Frame) (s : State) : Host.Outcome State Fault Refusal :=
  .next (siteDirect 0x4A#8 ownReadAttention f s)

/-- READ_RELAY (R176). -/
def execReadRelay (f : Frame) (s : State) : Host.Outcome State Fault Refusal :=
  .next (siteDirect 0x4B#8 ownReadRelay f s)

end Sys2Proof.Machine
end

