-- ==== Sys2Proof/Machine/Dispatch.lean ====
section
/-! DEFINITION. The meaning of every command, one arm per constructor. -/

namespace Sys2Proof.Machine

def exec (i : Instr) (s : State) : Host.Outcome State Fault Refusal :=
  match i with
  | .openBatch f => Sys2Proof.Machine.execOpenBatch f s
  | .closeBatch f => Sys2Proof.Machine.execCloseBatch f s
  | .abandonBatch f => Sys2Proof.Machine.execAbandonBatch f s
  | .apply f => Sys2Proof.Machine.execApply f s
  | .createRecord f => Sys2Proof.Machine.execCreateRecord f s
  | .amendRecord f => Sys2Proof.Machine.execAmendRecord f s
  | .retireRecord f => Sys2Proof.Machine.execRetireRecord f s
  | .bindSlot f => Sys2Proof.Machine.execBindSlot f s
  | .unbindSlot f => Sys2Proof.Machine.execUnbindSlot f s
  | .setLeg f => Sys2Proof.Machine.execSetLeg f s
  | .batchIdleExpired r => Sys2Proof.Machine.execBatchIdleExpired r s
  | .commitAct r => Sys2Proof.Machine.execCommitAct r s
  | .cancelSplice f => Sys2Proof.Machine.execCancelSplice f s
  | .resumeSlot f => Sys2Proof.Machine.execResumeSlot f s
  | .armProbe f => Sys2Proof.Machine.execArmProbe f s
  | .setInput f => Sys2Proof.Machine.execSetInput f s
  | .setLegOwner f => Sys2Proof.Machine.execSetLegOwner f s
  | .setStationTime f => Sys2Proof.Machine.execSetStationTime f s
  | .setBatchLimit f => Sys2Proof.Machine.execSetBatchLimit f s
  | .setRelay f => Sys2Proof.Machine.execSetRelay f s
  | .setCounterPair f => Sys2Proof.Machine.execSetCounterPair f s
  | .setAttentionMask f => Sys2Proof.Machine.execSetAttentionMask f s
  | .clearAttention f => Sys2Proof.Machine.execClearAttention f s
  | .readRecord f => Sys2Proof.Machine.execReadRecord f s
  | .findRecord f => Sys2Proof.Machine.execFindRecord f s
  | .listRecords f => Sys2Proof.Machine.execListRecords f s
  | .readLeg f => Sys2Proof.Machine.execReadLeg f s
  | .readSlot f => Sys2Proof.Machine.execReadSlot f s
  | .readSplice f => Sys2Proof.Machine.execReadSplice f s
  | .readOutcome f => Sys2Proof.Machine.execReadOutcome f s
  | .readCounters f => Sys2Proof.Machine.execReadCounters f s
  | .readInput f => Sys2Proof.Machine.execReadInput f s
  | .queryCarriage f => Sys2Proof.Machine.execQueryCarriage f s
  | .readAttention f => Sys2Proof.Machine.execReadAttention f s
  | .readRelay f => Sys2Proof.Machine.execReadRelay f s
  | .clearAll f => Sys2Proof.Machine.execClearAll f s
  | .clearingAct => Sys2Proof.Machine.execClearingAct s
  | .unknownRequest k f => Sys2Proof.Machine.execUnknownRequest k f s
  | .statusPoll t n => Sys2Proof.Machine.execStatusPoll t n s
  | .replyRead n => Sys2Proof.Machine.execReplyRead n s
  | .resetnAsserted => Sys2Proof.Machine.execResetnAsserted s
  | .resetnReleased => Sys2Proof.Machine.execResetnReleased s
  | .queueHeadTaken => Sys2Proof.Machine.execQueueHeadTaken s
  | .syncAcquired j b => Sys2Proof.Machine.execSyncAcquired j b s
  | .syncCandidateGivenUp j b => Sys2Proof.Machine.execSyncCandidateGivenUp j b s
  | .missingSyncByte j => Sys2Proof.Machine.execMissingSyncByte j s
  | .packetReceived j t b => Sys2Proof.Machine.execPacketReceived j t b s
  | .lossWindowExpired h => Sys2Proof.Machine.execLossWindowExpired h s
  | .restoreHoldEnded h => Sys2Proof.Machine.execRestoreHoldEnded h s
  | .lossNotice => Sys2Proof.Machine.execLossNotice s
  | .restorationNotice => Sys2Proof.Machine.execRestorationNotice s
  | .onAirUpdate => Sys2Proof.Machine.execOnAirUpdate s
  | .switchDeadlineExpired f n => Sys2Proof.Machine.execSwitchDeadlineExpired f n s
  | .outputOpportunity f => Sys2Proof.Machine.execOutputOpportunity f s
  | .directoryPeriodExpired f => Sys2Proof.Machine.execDirectoryPeriodExpired f s
  | .stationClockTick => Sys2Proof.Machine.execStationClockTick s
  | .cueMatured => Sys2Proof.Machine.execCueMatured s
  | .timeMatcherOccurs e m => Sys2Proof.Machine.execTimeMatcherOccurs e m s
  | .resetReleaseTimeElapsed => Sys2Proof.Machine.execResetReleaseTimeElapsed s

end Sys2Proof.Machine
end

