-- ==== Sys2Proof/Safety.lean ====
section
/-! DEFINITION. The terms claims are stated in: a safe run, the states in which SITE's next request is
taken, what an answered request leaves, and the laws every step keeps. -/

namespace Sys2Proof.Machine

/-- A run of `n` steps from `s` that meets no fault and no refusal. -/
def SafeRun (n : Nat) (s : State) : Prop := ∃ t, Host.Core.run Sys2Proof.core n s = .next t

/-! ### Requests of SITE -/

/-- The frame of a request with its length and its CRC-16 (R183). -/
def requestFrame (kind : Byte) (params : List Byte) : Frame :=
  let L := params.length + 1
  ⟨BitVec.ofNat 16 L, params ++ bytesOf 2 (crc16 (bytesOf 2 L ++ kind :: params)).toNat⟩

/-- The splice scheduler has nothing due: no report waits and no TIME matcher is to occur (R80, R145). -/
def State.spsIdle (s : State) : Prop := s.reports = [] ∧ ∀ e m, s.timeDue e m = false

/-- SITE's next request is taken: the port takes transactions, none of SITE's requests is in flight, and
no act that an earlier one made due is still to come (R46, R80, R118, R145, R171). -/
def State.ready (s : State) : Prop :=
  s.phase = .running ∧ s.port.flight = none ∧ s.idleDue = [] ∧ s.ctabDue = [] ∧ s.spsIdle

/-- The state as a request of SITE with `n` bytes of parameters finds it: MISO has given the status byte
and zeros, the old reply and the last frame ignored mark are gone, and SITE's running batch has its idle
timer restarted (R117, R169, R170). -/
def State.accepted (s : State) (n : Nat) : State :=
  { s with
    miso := .shifted (s.port.status :: List.replicate (5 + n) 0x00#8)
    port := { s.port with reply := none, ignored := false }
    siteWs := if 1 ≤ s.siteWs.depth then { s.siteWs with idle := some s.uptime } else s.siteWs }

/-- The owner's answer stands in the reply store and the port is READY (R171, R172). -/
def State.replied (s : State) (kind : Byte) (a : Answer) : State :=
  { s with port := { s.port with
      flight := none, reply := some ⟨kind, a.disp, a.code, s.siteWs.depth, a.body⟩ } }

/-- Parameters laid out in a row: each field's width in bytes and its value (R182). -/
def packed (fields : List (Nat × Nat)) : List Byte := fields.flatMap fun x => bytesOf x.1 x.2

/-- The rows of SITE's requests: the kind byte and the command of a frame. -/
def siteRows : List (Byte × (Frame → Instr)) :=
  [(0x01#8, .openBatch), (0x02#8, .closeBatch), (0x03#8, .abandonBatch), (0x04#8, .apply),
   (0x10#8, .createRecord), (0x11#8, .amendRecord), (0x12#8, .retireRecord), (0x13#8, .bindSlot),
   (0x14#8, .unbindSlot), (0x15#8, .setLeg), (0x20#8, .cancelSplice), (0x21#8, .resumeSlot),
   (0x22#8, .armProbe), (0x30#8, .setInput), (0x31#8, .setLegOwner), (0x32#8, .setStationTime),
   (0x33#8, .setBatchLimit), (0x34#8, .setRelay), (0x35#8, .setCounterPair), (0x36#8, .setAttentionMask),
   (0x37#8, .clearAttention), (0x40#8, .readRecord), (0x41#8, .findRecord), (0x42#8, .listRecords),
   (0x43#8, .readLeg), (0x44#8, .readSlot), (0x45#8, .readSplice), (0x46#8, .readOutcome),
   (0x47#8, .readCounters), (0x48#8, .readInput), (0x49#8, .queryCarriage), (0x4A#8, .readAttention),
   (0x4B#8, .readRelay), (0x7F#8, .clearAll)]

/-- A row whose transaction byte is 0x57: a request of SITE, or a frame of a kind outside the
catalogue. -/
def IsRequestRow (row : Byte × (Frame → Instr)) : Prop :=
  row ∈ siteRows ∨ (row.1.toNat ∉ catalogue ∧ row.2 = .unknownRequest row.1)

/-- The direct requests: the kind byte and the command of a frame. -/
def directRows : List (Byte × (Frame → Instr)) :=
  [(0x20#8, .cancelSplice), (0x21#8, .resumeSlot),
   (0x22#8, .armProbe), (0x30#8, .setInput), (0x31#8, .setLegOwner), (0x32#8, .setStationTime),
   (0x33#8, .setBatchLimit), (0x34#8, .setRelay), (0x35#8, .setCounterPair), (0x36#8, .setAttentionMask),
   (0x37#8, .clearAttention), (0x40#8, .readRecord), (0x41#8, .findRecord), (0x42#8, .listRecords),
   (0x43#8, .readLeg), (0x44#8, .readSlot), (0x45#8, .readSplice), (0x46#8, .readOutcome),
   (0x47#8, .readCounters), (0x48#8, .readInput), (0x49#8, .queryCarriage), (0x4A#8, .readAttention),
   (0x4B#8, .readRelay)]

/-- The lengths that the parameters of the direct requests may have: a kind byte and the bytes of its fields, which
for SET INPUT depend on the settings it carries (R182). -/
def directLengths : List (Byte × Nat) :=
  [(0x20#8, 1), (0x21#8, 2), (0x22#8, 2), (0x31#8, 2), (0x32#8, 5), (0x33#8, 4), (0x34#8, 1), (0x35#8, 4),
   (0x36#8, 1), (0x37#8, 1), (0x40#8, 3), (0x41#8, 3), (0x42#8, 2), (0x43#8, 1), (0x44#8, 2), (0x45#8, 1),
   (0x46#8, 1), (0x47#8, 3), (0x48#8, 1), (0x49#8, 5), (0x4A#8, 0), (0x4B#8, 0)]
    ++ (List.range' 2 7).map fun n => (0x30#8, n)

/-- The six edits: the kind byte and the command of a frame. -/
def editRows : List (Byte × (Frame → Instr)) :=
  [(0x10#8, .createRecord), (0x11#8, .amendRecord), (0x12#8, .retireRecord), (0x13#8, .bindSlot),
   (0x14#8, .unbindSlot), (0x15#8, .setLeg)]

/-- The bytes of a frame from its kind byte on, and what of them the check reads (R170, R183). -/
def frameComplete (f : Frame) : Prop := f.len.toNat + 2 ≤ f.rest.length + 1

/-- The two CRC bytes spell the CRC-16 over the length bytes, the kind and the parameters (R183). -/
def frameCrcOk (kind : Byte) (f : Frame) : Prop :=
  natOf (((kind :: f.rest).drop f.len.toNat).take 2)
    = (crc16 (bytesOf 2 f.len.toNat ++ (kind :: f.rest).take f.len.toNat)).toNat

/-- The state with MISO having given the status byte and zeros through a request transaction of a frame
with `n` bytes after its kind byte (R169). -/
def State.clocked (s : State) (n : Nat) : State :=
  { s with miso := .shifted (s.port.status :: List.replicate (3 + n) 0x00#8) }

/-- The code that answers a QUERY CARRIAGE: 0 when no feed of the set has the record on air, 3 when every feed
of a set that is not empty has it, and otherwise 2 or 1 as the lowest feed of the set has it or not (R179). -/
def State.carriageCode (s : State) (h : Nat) (feeds : FeedSet) (code : Nat) : Prop :=
  let has := fun f => ∃ i < 16, (s.slot f i).source = some h
  (code = 0 ∧ ∀ f < 24, feeds.getLsbD f → ¬ has f)
    ∨ (code = 3 ∧ (∃ f < 24, feeds.getLsbD f) ∧ ∀ f < 24, feeds.getLsbD f → has f)
    ∨ ((∃ f < 24, feeds.getLsbD f ∧ has f) ∧ (∃ f < 24, feeds.getLsbD f ∧ ¬ has f)
      ∧ ∃ low < 24, feeds.getLsbD low ∧ (∀ f < low, ¬ feeds.getLsbD f)
        ∧ ((code = 2 ∧ has low) ∨ (code = 1 ∧ ¬ has low)))

/-! ### Starting values -/

/-- What the splice scheduler holds right after a starting event (R159). -/
def State.spliceStart (s : State) : Prop :=
  (∀ e, (s.entry e).state = .free ∧ (s.entry e).result = .none ∧ (s.entry e).executedAt = none
      ∧ (s.entry e).applied = none ∧ (s.entry e).skipped = none ∧ (s.entry e).tracked = [])
    ∧ s.freePlaces = 1024 ∧ (∀ f i, (s.slot f i).reserved = none) ∧ (∀ h, s.record? h = none)
    ∧ s.attention = [] ∧ s.cues = []

/-- What the feed leg table holds right after a starting event, with nothing handed on or counted
(R58, R81). -/
def State.slotStart (s : State) : Prop :=
  (∀ f i, s.slot f i = ⟨none, .empty, none, none, none, none⟩)
    ∧ (∀ f, s.leg f = ⟨.idle, .site, none, BitVec.allOnes 16, f + 1, 24000, 0x0010, 100, 1000⟩)
    ∧ s.updates = [] ∧ s.reports = []
    ∧ ∀ k, (s.pair k).network = 0 ∧ (s.pair k).regional = 0

/-- What the other blocks hold right after a starting event (R24, R26, R38, R85, R86, R98, R99, R101,
R118, R161, R166, R167, R177, R180, R181). -/
def State.otherStart (s : State) : Prop :=
  (∀ i, s.input i = ⟨false, none, 0x1FF0, i == 0, .search, false, false, [], .zero⟩)
    ∧ (∀ h, s.record? h = none) ∧ s.smap = []
    ∧ (∀ f, (s.out f).buffer = [] ∧ (s.out f).due = [] ∧ (s.out f).timer = none
        ∧ (s.out f).last = none ∧ (s.out f).version = 0)
    ∧ (∀ f q, s.count f q = 0) ∧ (∀ f q, s.mark f q = false)
    ∧ (∀ r, s.ws r = Workspace.start) ∧ (∀ r, s.outcome r = OutcomeRecord.start) ∧ s.idleLimit = 30
    ∧ (∀ k, (s.pair k).mask = (if k % 8 = 0 then 1 else 0) ∧ (s.pair k).unit = .packets)
    ∧ s.attention = [] ∧ s.attMask = BitVec.allOnes 7 ∧ s.attn = false
    ∧ s.netQueue = [] ∧ s.netFlight = none ∧ s.mailbox = ⟨none, false⟩ ∧ s.relayOn = true

/-! ### The end of a batch -/

/-- What the end of the batch of `r` leaves: its workspace at its starting values, its outcome record
`o`, every record it still reserves FREE with its stream map entries gone, its claims released, and
nothing else changed (R115, R121, R137). -/
def State.batchEnded (s t : State) (r : Requester) (o : OutcomeRecord) : Prop :=
  let freed := fun h => h ∈ (s.ws r).handles ∧ ∃ x, s.record? h = some x ∧ x.state = .reserved
  t = ({ s with records := t.records, smap := t.smap, legs := t.legs }.setWs r .start).setOutcome r o
    ∧ (∀ h, (freed h → t.record? h = none) ∧ (¬ freed h → t.record? h = s.record? h))
    ∧ (∀ c, c ∈ t.smap ↔ c ∈ s.smap ∧ ¬ freed c.2.handle)
    ∧ ∀ f, t.leg f
      = if f < 24 ∧ (s.leg f).claim = some r then { s.leg f with claim := none } else s.leg f

/-- The batch of `r` has ended ABORTED with a code, the failing edit's index and the subject (R121). -/
def State.batchAborted (s t : State) (r : Requester) (c : Code) (index : Option Nat)
    (subject : Subject) : Prop :=
  s.batchEnded t r
    ⟨.aborted, c.num, index, subject, (s.ws r).depth, 0, 0, (s.ws r).mode, none, none⟩

/-- A request of SITE with `n` bytes of parameters has aborted its batch and is answered with the outcome
record, after `first` (R115, R173). -/
def State.answersAbort (s : State) (run : Host.Outcome State Fault Refusal) (kind : Byte) (n : Nat)
    (first : List Byte) (c : Code) (index : Option Nat) (subject : Subject) : Prop :=
  ∃ u, (s.accepted n).batchAborted u .site c index subject
    ∧ run = .next (u.replied kind (.ended first (u.outcome .site)))

/-! ### Arrivals (R106 to R114) -/

/-- `keys` are the numbers that have the property, ascending. -/
def lists (keys : List Nat) (P : Nat → Prop) : Prop := keys.Pairwise (· < ·) ∧ ∀ k, k ∈ keys ↔ P k

/-- One act after another, each as `R` gives it. -/
def inTurn {α : Type} (R : α → State → State → Prop) : List α → State → State → Prop
  | [], s, u => u = s
  | a :: l, s, u => ∃ v, R a s v ∧ inTurn R l v u

/-- An edit of `r` passes checks 2 to 5: deferrable, on a claimed leg, and allowed by every level's
controls; a RETIRE RECORD never is in an APPLY (R106, R109, R113, R114). -/
def State.allows (s : State) (r : Requester) (inApply : Bool) (e : Edit) : Prop :=
  ((s.ws r).mode = .immediate ∨ ∃ x, e = .slot x)
    ∧ (∀ f, e.feed? = some f → (s.ws r).claims.getLsbD f = true)
    ∧ (∀ l, e = .setLeg l → ∀ v ∈ (s.ws r).levels, v.legEdits = true)
    ∧ (∀ h, e = .retire h → inApply = false ∧ ∀ v ∈ (s.ws r).levels, v.retire = true)

/-- `r` can name the handle: its record is not FREE, and is RESERVED only by the workspace of `r` (R6,
R108). -/
def State.names (s : State) (r : Requester) (h : Nat) : Prop :=
  ∃ x, s.record? h = some x ∧ (x.state = .reserved → h ∈ (s.ws r).handles)

/-- The handle's record is not RETIRING (R108). -/
def State.bindable (s : State) (h : Nat) : Prop := ∀ x, s.record? h = some x → x.state ≠ .retiring

/-- An edit of `r` passes checks 6 to 9: it names records that `r` can name and bind, its own where it must be,
and a slot that no splice entry reserves (R106, R108, R110). -/
def State.admits (s : State) (r : Requester) (e : Edit) : Prop :=
  (∀ h ∈ e.named, s.names r h) ∧ (∀ h ∈ e.bound, s.bindable h)
    ∧ (∀ h, e.owned = some h → ∀ x, s.record? h = some x → x.owner = r)
    ∧ (∀ x, e = .slot x → (s.slot x.feed x.slot).reserved = none)

/-- An edit of `r` passes checks 2 to 10: the workspace has room for it too (R106). -/
def State.mayArrive (s : State) (r : Requester) (inApply : Bool) (e : Edit) : Prop :=
  s.allows r inApply e ∧ s.admits r e ∧ (s.ws r).edits.length < 64

/-- No record has the key (check 11, R4). -/
def State.keyFree (s : State) (k : Key) : Prop := ∀ h x, s.record? h = some x → x.key ≠ k

/-- The input neither reserves the PIDs of the components nor has stream map entries for them (R37). -/
def State.pidsFree (s : State) (c : CreateFields) : Prop :=
  ∀ x ∈ c.components, s.mapped c.key.input x.pid = false ∧ x.pid ∉ (s.input c.key.input).reservedPids

/-- The lowest handle whose record is FREE (R2). -/
def State.lowestIs (s : State) (h : Nat) : Prop :=
  1 ≤ h ∧ h ≤ 1023 ∧ s.record? h = none ∧ ∀ g, 1 ≤ g → g < h → s.record? g ≠ none

/-- An edit of `r` in range fails its arrival with this code and subject: the first of checks 2 to 13 that it does
not pass (R106 to R111, R37; which handle is the subject when two fail one check is the model's choice, log entry
15). -/
def State.failsArrival (s : State) (r : Requester) (inApply : Bool) (e : Edit) (c : Code) (x : Subject) : Prop :=
  let w := s.ws r
  let onHandle := fun h => (⟨some h, none, none, none⟩ : Subject)
  let onFeed := fun f => (⟨none, some f, none, none⟩ : Subject)
  (w.mode = .deferred ∧ (∀ d, e ≠ .slot d) ∧ c = .notDeferrable ∧ x = .none)
    ∨ ((w.mode = .immediate ∨ ∃ d, e = .slot d) ∧
      ((∃ f, e.feed? = some f ∧ w.claims.getLsbD f = false ∧ c = .notClaimed ∧ x = onFeed f)
        ∨ (∃ l, e = .setLeg l ∧ w.claims.getLsbD l.feed = true ∧ (∃ v ∈ w.levels, v.legEdits = false)
          ∧ c = .legEditNotAllowed ∧ x = onFeed l.feed)
        ∨ ∃ h, e = .retire h ∧ (inApply = true ∨ ∃ v ∈ w.levels, v.retire = false)
          ∧ c = .retireNotAllowed ∧ x = onHandle h))
    ∨ (s.allows r inApply e ∧
      ((∃ l h m, e.named = l ++ h :: m ∧ (∀ g ∈ l, s.names r g) ∧ ¬ s.names r h
          ∧ c = .unknownHandle ∧ x = onHandle h)
        ∨ ((∀ h ∈ e.named, s.names r h) ∧
          ((∃ l h m, e.bound = l ++ h :: m ∧ (∀ g ∈ l, s.bindable g) ∧ ¬ s.bindable h
              ∧ c = .notBindable ∧ x = onHandle h)
            ∨ ((∀ h ∈ e.bound, s.bindable h) ∧
              ((∃ h y, e.owned = some h ∧ s.record? h = some y ∧ y.owner ≠ r
                  ∧ c = .notOwner ∧ x = onHandle h)
                ∨ ∃ d n, e = .slot d ∧ (s.slot d.feed d.slot).reserved = some n
                  ∧ c = .slotReserved ∧ x = ⟨none, some d.feed, some d.slot, some n⟩))))
        ∨ (s.admits r e ∧ 64 ≤ w.edits.length ∧ c = .workspaceFull ∧ x = .none)))
    ∨ (s.mayArrive r inApply e ∧ x = .none ∧ ∃ n q, e = .create n q ∧
      ((¬ s.keyFree q.key ∧ c = .keyExists)
        ∨ (s.keyFree q.key ∧ (∀ h, ¬ s.lowestIs h) ∧ c = .tableFull)
        ∨ (s.keyFree q.key ∧ (∃ h, s.lowestIs h) ∧ ¬ s.pidsFree q ∧ c = .pidTaken)
        ∨ (s.keyFree q.key ∧ (∃ h, s.lowestIs h) ∧ s.pidsFree q
          ∧ 4096 < s.smap.length + q.components.length ∧ c = .mapFull)))

/-- The failing edit's position in the outcome record: one more than the edits held, and none for
WORKSPACE_FULL (R121; that 64 held edits give position 65 is the model's choice, log entry 15). -/
def Workspace.failsAt (w : Workspace) (c : Code) : Option Nat :=
  if c = .workspaceFull then none else some (w.edits.length + 1)

/-- The effective tolerance: the largest of any open level (R100, R112). -/
def Workspace.stampIs (w : Workspace) (n : Nat) : Prop :=
  (∀ v ∈ w.levels, v.tolerance ≤ n) ∧ (n = 0 ∨ ∃ v ∈ w.levels, v.tolerance = n)

/-- A CREATE RECORD of `r` has reserved the lowest FREE handle, in a record with the fields it carries and the
defaults of the others, and a RESERVED stream map entry for each component, and has joined the workspace with its
stamp; nothing else has changed (R2, R3, R37, R111, R112). -/
def State.reserves (s u : State) (r : Requester) (c : CreateFields) (h : Nat) : Prop :=
  let w := s.ws r
  let keys := c.components.map fun x => pidKey c.key.input x.pid
  s.lowestIs h ∧ ∃ stamp, w.stampIs stamp
    ∧ u = ({ s.setRecord h
        { state := .reserved, owner := r, key := c.key, cls := c.cls, region := c.region,
          components := c.components, peak := c.peak, fallback := c.fallback,
          lossWindow := c.lossWindow.getD 200, restoreHold := c.restoreHold.getD 1000,
          autoReturn := c.autoReturn.getD true, planned := 0, onAir := 0, spliceRefs := 0,
          fallbackRefs := 0, hit := false, armed := false, probe := none, silence := none,
          hold := none, silentFlag := false } with smap := u.smap } : State).setWs r
      { w with
        edits := w.edits ++ [(.create h c, stamp)], handles := w.handles ++ [h]
        mapEntries := w.mapEntries ++ keys }
    ∧ (∀ (k : Nat) (x : Component), c.components[k]? = some x →
      Table.find? u.smap (pidKey c.key.input x.pid) = some ⟨h, k, false, none⟩)
    ∧ ∀ k, k ∉ keys → Table.find? u.smap k = Table.find? s.smap k

/-- An edit of `r` has passed its checks and joined the workspace with its stamp; `h` is the handle that a CREATE
RECORD has reserved, and 0 for another edit (R106, R111, R112). -/
def State.joins (s u : State) (r : Requester) (inApply : Bool) (e : Edit) (h : Nat) : Prop :=
  let w := s.ws r
  s.mayArrive r inApply e
    ∧ (((∀ n c, e ≠ .create n c) ∧ h = 0 ∧ ∃ stamp, w.stampIs stamp
        ∧ u = s.setWs r { w with edits := w.edits ++ [(e, stamp)] })
      ∨ ∃ n c, e = .create n c ∧ s.keyFree c.key ∧ s.pidsFree c
        ∧ s.smap.length + c.components.length ≤ 4096 ∧ s.reserves u r c h)

/-- The edits of an APPLY have arrived in their order, each giving its handle (R113, R114). -/
def State.arrivals (r : Requester) : List SentEdit → State → State → List Nat → Prop
  | [], s, u, hs => u = s ∧ hs = []
  | e :: l, s, u, hs => ∃ d h v rest, e.edit = some d ∧ s.joins v r true d h
    ∧ State.arrivals r l v u rest ∧ hs = h :: rest

/-- An edit of an APPLY fails as it arrives, its fields first (R106, R107). -/
def State.failsSent (s : State) (r : Requester) (e : SentEdit) (c : Code) (x : Subject) : Prop :=
  (e.edit = none ∧ c = .badField ∧ x = .none) ∨ ∃ d, e.edit = some d ∧ s.failsArrival r true d c x

/-- What an APPLY of `r` comes to on the state `t` that its owner finds, where `answers` says that it is answered
and `flies` that its commit is in flight. At depth 0 a bad form is refused with BAD_FIELD, a feed of the other's
zone with ZONE_REFUSED and a claimed one with CLAIMED, naming the lowest; otherwise it claims the feeds it names
and takes the workspace as a one-level batch. Its edits arrive in order; the first that fails aborts the batch,
with the handles so far in the answer, and when all pass the commit is in flight, or, inside a batch, the APPLY is
TAKEN with its handles (R62, R113, R114, R115; that a bad form inside a batch gives no position, and that a refusal
with BAD_FIELD has an empty body and another the feed alone, are the model's choices, log entries 12 and 14; the
position and the subject of an edit that fails are as log entry 15 has them). -/
def State.applies (t : State) (r : Requester) (p : List Byte) (answers : State → Answer → Prop)
    (flies : State → Prop) : Prop :=
  let w := t.ws r
  let aborts := fun (u : State) hs c index x =>
    ∃ v, u.batchAborted v r c index x ∧ answers v (.ended (applyHandles hs) (v.outcome r))
  (parseApply p = none → w.depth = 0 → answers t (.refused .badField))
    ∧ (parseApply p = none → 1 ≤ w.depth → aborts t [] .badField none .none)
    ∧ ∀ es, parseApply p = some es →
      let runs := fun (v : State) (passes : State → List Nat → Prop) =>
        ∃ l rest u hs, es = l ++ rest ∧ State.arrivals r l v u hs
          ∧ ((rest = [] ∧ passes u hs)
            ∨ ∃ e more c x, rest = e :: more ∧ u.failsSent r e c x
              ∧ aborts u hs c ((u.ws r).failsAt c) x)
      let named := fun f => ∃ e ∈ es, e.feed = some f
      let barred := fun f => named f
        ∧ (t.leg f).zone = match r with
          | .site => .network
          | .network => .site
      let held := fun f => named f ∧ (t.leg f).claim ≠ none
      (1 ≤ w.depth → runs t fun u hs => answers u (.taken (applyHandles hs)))
        ∧ (w.depth = 0 → (∃ f, 24 ≤ f ∧ named f) → answers t (.refused .badField))
        ∧ (w.depth = 0 → (∀ f, named f → f < 24) →
          (∀ f, barred f → (∀ g < f, ¬ barred g) → answers t (.refusedAt .zoneRefused f))
            ∧ ((∀ f, ¬ barred f) → ∀ f, held f → (∀ g < f, ¬ held g) → answers t (.refusedAt .claimed f))
            ∧ ((∀ f, ¬ barred f ∧ ¬ held f) → ∃ legs claims,
              (∀ f, claims.getLsbD f = true ↔ named f)
                ∧ (∀ f, Table.look (Leg.start f) legs f
                  = if claims.getLsbD f then { t.leg f with claim := some r } else t.leg f)
                ∧ runs (({ t with legs := legs } : State).setWs r
                    ⟨0, [⟨true, false, 0⟩], .immediate, none, none, claims, [], [], [], 0, none, none⟩)
                  fun u hs => flies (u.setWs r { u.ws r with flight := some ⟨0x04#8, hs⟩ })))

/-! ### Tables -/

/-- A sparse table in its one canonical form: keys rise, and no listed value is the starting one. -/
def Table.canonical {α : Type} (start : Nat → α) (t : Table α) : Prop :=
  Table.rising t ∧ ∀ c ∈ t, c.2 ≠ start c.1

/-- Every table is in its one canonical form, so that equal tables are equal data. -/
def State.canonical (s : State) : Prop :=
  Table.canonical Input.start s.inputs ∧ Table.rising s.smap ∧ Table.rising s.records
    ∧ Table.canonical Leg.start s.legs ∧ Table.canonical (fun _ => Slot.start) s.slots
    ∧ Table.canonical (fun _ => LegOut.start) s.outs ∧ Table.canonical (fun _ => 0) s.counts
    ∧ Table.canonical (fun _ => false) s.marks ∧ Table.canonical (fun _ => Entry.start) s.entries
    ∧ Table.canonical Pair.start s.pairs ∧ Table.rising s.attention

/-! ### The commit act and its answer -/

/-- Nothing handed on or made due is still to be taken (R46, R78, R80, R118, R145). -/
def State.quiet (s : State) : Prop :=
  s.ctabDue = [] ∧ s.idleDue = [] ∧ s.updates = [] ∧ s.spsIdle

/-- An answer to the command with this sequence number and input is posted, unread, with RELAY_WAITING
raised, while the relay is enabled, and otherwise discarded (R176). -/
def State.posted (s : State) (seq input : Nat) (kind : Byte) (a : Answer) : State :=
  if s.relayOn then
    ({ s with mailbox :=
        ⟨some ⟨seq, input, ⟨kind, a.disp, a.code, s.netWs.depth, a.body⟩⟩, true⟩ } : State).raise
      .relayWaiting kind.toNat
  else s

/-- The next request of NETWORK is the command at the head of the queue, of this kind and with these
parameters, nothing holds it back, and no expiry is due before it (R118, R175). -/
def State.networkReady (s : State) (c : Command) (rest : List Command) (kind : Byte) (p : List Byte) : Prop :=
  s.phase ≠ .asserted ∧ s.idleDue = [] ∧ s.netQueue = c :: rest ∧ s.netFlight = none
    ∧ (s.relayOn = true → s.mailbox.unread = false) ∧ c.body = kind :: p

/-- The state as the owner of that request finds it: the command has left the queue and is NETWORK's request
in flight, and NETWORK's running batch has its idle timer restarted (R117, R175). -/
def State.begun (s : State) (c : Command) (rest : List Command) (kind : Byte) : State :=
  { s with
    netQueue := rest
    netFlight := some ⟨c.seq, c.input, kind⟩
    netWs := if 1 ≤ s.netWs.depth then { s.netWs with idle := some s.uptime } else s.netWs }

/-- The owner's answer ends the flight of NETWORK's request and is posted (R175, R176). -/
def State.networkReplied (s : State) (c : Command) (kind : Byte) (a : Answer) : State :=
  ({ s with netFlight := none } : State).posted c.seq c.input kind a

/-- The batch that ended is answered ENDED with its outcome record, after the four handles of an APPLY: to
SITE in its reply, to NETWORK in a posting (R123, R171, R173, R176). -/
def State.commitReplied (u : State) (r : Requester) (fl : CommitFlight) : State :=
  let first := if fl.kind = 0x04#8 then
    (List.range 4).flatMap fun k => bytesOf 2 (fl.handles.getD k 0) else []
  match r, u.netFlight with
  | .site, _ => u.replied fl.kind (.ended first (u.outcome .site))
  | .network, some q =>
    ({ u with netFlight := none } : State).posted q.seq q.input fl.kind (.ended first (u.outcome .network))
  | .network, none => u

/-- The commit act ends the batch with the outcome record `o` on the tables of `u`, the reports that its slots
left PENDING are taken, and the batch is answered (R80, R132, R136; that they are taken within the row is log entry
28's form). -/
def State.endsCommit (u : State) (run : Host.Outcome State Fault Refusal) (r : Requester)
    (fl : CommitFlight) (o : OutcomeRecord) : Prop :=
  ∃ v, u.batchEnded v r o ∧ run = .next (v.takeReports.commitReplied r fl)

/-- The commit act fails: the batch is ABORTED with the code, the failing edit's index and the subject, none
of the tables is changed but for what the end of a batch gives back, and the batch is answered (R137). -/
def State.failsCommit (s : State) (run : Host.Outcome State Fault Refusal) (r : Requester)
    (fl : CommitFlight) (c : Code) (index : Option Nat) (subject : Subject) : Prop :=
  ∃ v, s.batchAborted v r c index subject ∧ run = .next (v.commitReplied r fl)

/-- A commit of `r` is in flight, with the batch's mode, and nothing is due before its act (R123, R125). -/
def State.commitWaits (s : State) (r : Requester) (fl : CommitFlight) (m : Mode) : Prop :=
  s.phase ≠ .asserted ∧ s.quiet ∧ s.canonical ∧ (s.ws r).flight = some fl ∧ (s.ws r).mode = m

/-- The outcome of a batch that commits without a splice entry (R132, R133). -/
def State.committedWith (s : State) (r : Requester) (applied skipped : Nat) : OutcomeRecord :=
  ⟨.committed, 0, none, .none, (s.ws r).depth, applied, skipped, (s.ws r).mode, none, none⟩

/-- The leg of slot key `k` accepts the region group of its planned record, and that of the record's fallback
(R65). -/
def State.regionAccepted (t : State) (k : Nat) : Prop :=
  ∀ b x, (t.slotAt k).planned = some b → t.record? b.handle = some x →
    (t.leg (k / 16)).accept.getLsbD x.region = true
      ∧ ∀ fb y, x.fallback = some fb → t.record? fb = some y →
        (t.leg (k / 16)).accept.getLsbD y.region = true

/-- The planned load of leg `f` and the directory's allowance stay within the leg's capacity (R66). -/
def State.loadFits (t : State) (f : Nat) : Prop :=
  ((List.range 16).map fun i =>
      ((((t.slot f i).planned.bind fun b => t.record? b.handle).map (·.peak)).getD 0)).sum + 100
    ≤ (t.leg f).capacity

/-- Slot keys `j` and `k`, rising, are of one leg, and their planned bindings share a programme number or a PID
(R67). -/
def State.outputsClash (t : State) (j k : Nat) : Prop :=
  j < k ∧ j / 16 = k / 16 ∧ ∃ a b, (t.slotAt j).planned = some a ∧ (t.slotAt k).planned = some b
    ∧ (a.programme = b.programme ∨ (a.base < b.base + 8 ∧ b.base < a.base + 8))

/-- The three leg laws hold on every leg (R128). -/
def State.legsLawful (t : State) : Prop :=
  (∀ k, t.regionAccepted k) ∧ (∀ f < 24, t.loadFits f) ∧ ∀ j k, ¬ t.outputsClash j k

/-- The record is LIVE, LOST or RESTORING in the picture and the batch does not retire it (R129). -/
def Picture.remains (p : Picture) (h : Nat) : Prop :=
  (∃ x, p.tables.record? h = some x ∧ (x.state = .live ∨ x.state = .lost ∨ x.state = .restoring))
    ∧ ∀ n, (h, n) ∉ p.retired

/-- The record remains, and its fallback does not, is itself, or has a higher peak rate (R129). -/
def Picture.fallbackWrong (p : Picture) (h : Nat) : Prop :=
  p.remains h ∧ ∃ x fb, p.tables.record? h = some x ∧ x.fallback = some fb
    ∧ (¬ p.remains fb ∨ fb = h ∨ ∃ y, p.tables.record? fb = some y ∧ x.peak < y.peak)

/-- The record is planned in some slot, named by a splice entry, or the fallback of a record that remains
(R130). -/
def Picture.stillUsed (p : Picture) (h : Nat) : Prop :=
  (∃ k b, (p.tables.slotAt k).planned = some b ∧ b.handle = h)
    ∨ (∃ x, p.tables.record? h = some x ∧ x.spliceRefs ≠ 0)
    ∨ ∃ g x, p.remains g ∧ p.tables.record? g = some x ∧ x.fallback = some h

/-- A directory of leg `f` has been built from the tables of `s`, its packets stand at the end of the due
list, and the period timer has started; nothing else of the outputs has changed (R92 to R97; that bits 7 to 5 of the
version byte are 0 is the model's choice, log entry 38, and that 1 says that a slot is on air, log entry 41). -/
def State.directoryBuilt (s t : State) (f : Nat) : Prop :=
  let o := s.out f
  ∃ packets, packets ≠ []
    ∧ (∀ g, g ≠ f → t.out g = s.out g)
    ∧ t.out f = { o with
        due := o.due ++ packets
        timer := some ⟨s.uptime, (s.leg f).dirPeriod⟩
        last := some (s.directoryOf f)
        version := if o.last = none ∨ o.last = some (s.directoryOf f) then o.version else o.version + 1 }
    ∧ (∀ (n : Nat) (p : List Byte), packets[n]? = some p → p.length = 188
      ∧ p.head? = some 0x47#8 ∧ ((s.leg f).dirPid < 8192 → pktPid p = (s.leg f).dirPid)
      ∧ pktContinuity p = (s.count f (s.leg f).dirPid + n) % 16
      ∧ pktPayloadStart p = decide (n = 0) ∧ pktHasPayload p = true ∧ pktHasField p = false)
    ∧ ((s.leg f).dirPid < 8192 → ∀ g q, q < 8192 → t.count g q
      = if g = f ∧ q = (s.leg f).dirPid then (s.count g q + packets.length) % 16 else s.count g q)
    ∧ ((∀ h x, s.record? h = some x → x.components.length ≤ 8) →
      let entries := (s.directoryOf f).entries.flatMap fun d =>
        bytesOf 2 d.programme ++ [flagByte d.on] ++ bytesOf 1 d.components.length
          ++ d.components.flatMap fun c => bytesOf 2 c.pid ++ bytesOf 1 c.kind.num
      let content := [0xD0#8] ++ bytesOf 1 (t.out f).version.toNat ++ bytesOf 2 (s.leg f).streamId
        ++ bytesOf 2 entries.length ++ entries
      ∃ fill < 184, packets.flatMap (·.drop 4)
        = [0x00#8] ++ content ++ bytesOf 4 (crc32 content).toNat ++ List.replicate fill 0xFF#8)

/-- The marks of a leg's planned slots' output ranges are due, and no other mark has changed (R86). -/
def State.marksDue (s t : State) (f : Nat) : Prop :=
  ∀ g q, q < 8192 → (t.mark g q = true ↔ s.mark g q = true
    ∨ (g = f ∧ ∃ i < 16, ∃ b, (s.slot f i).planned = some b ∧ b.base ≤ q ∧ q < b.base + 8))

/-! ### What moves of slots hand on (R13, R14, R78 to R80, R86) -/

/-- The leg event of a slot's move from `x` to `y`, where a switch to the planned record is of the kind `switch`
(R79). -/
def moveEvent (switch : LegEvent) (x y : Slot) : Option LegEvent :=
  if x.onAir = y.onAir then none
  else match y.onAir with
    | .steady => some switch
    | .substituted => some .substituted
    | .slated => some .slated
    | .empty | .pending => none

/-- The leg event of a slot's move from `x` to `y` at a change of its binding: a record that stays on air gives
none, and one that the slot is taken to at once is forced (R71, R74, R79). -/
def bindingEvent (x y : Slot) : Option LegEvent :=
  if y.onAir = .steady then (if x.source = y.source then none else some .switchedForced)
  else moveEvent .switchedForced x y

/-- The act that takes a slot from `x` to `y` makes the mark of PID `q` due: its source changes, or its binding
keeps the record and changes the range, and `q` is in its range (R86; that the range of a binding that the act
removes is meant too is the model's reading, log entry 20). -/
def Slot.marks (x y : Slot) (q : Nat) : Prop :=
  ∃ b, y.planned.or x.planned = some b ∧ b.base ≤ q ∧ q < b.base + 8
    ∧ (x.source ≠ y.source ∨ ∃ a, x.planned = some a ∧ a.handle = b.handle ∧ a.base ≠ b.base)

/-- From `s` to `u` the marks of the ranges of the slots that an act has moved have become due, and no other mark
has changed (R86). -/
def State.marksMoved (s u : State) : Prop :=
  (∀ k b, (s.slotAt k).planned = some b ∨ (u.slotAt k).planned = some b → b.base ≤ 0x1FF7) →
    ∀ g q, q < 8192 →
      (u.mark g q = true ↔ s.mark g q = true ∨ ∃ i < 16, (s.slot g i).marks (u.slot g i) q)

/-- From `s` to `u` the leg events of the slots moved have been counted, each on its leg with the class of the
slot's planned record (R56, R79, R160; the order of the slots is log entry 36's choice). -/
def State.eventsCounted (s u : State) (event : Slot → Slot → Option LegEvent) : Prop :=
  ∃ keys, lists keys (fun k => event (s.slotAt k) (u.slotAt k) ≠ none)
    ∧ u.pairs = (keys.foldl (fun t k => match event (s.slotAt k) (u.slotAt k), (u.slotAt k).planned with
        | some e, some b => t.reportFor (k / 16) e b.handle 0
        | _, _ => t) s).pairs

/-- From `s` to `u` one on-air update has been handed on for each slot whose source has changed (R78; in the
order of log entry 36). -/
def State.updatesMade (s u : State) : Prop :=
  ∃ keys, lists keys (fun k => (s.slotAt k).source ≠ (u.slotAt k).source)
    ∧ u.updates = s.updates ++ keys.map fun k => ⟨(s.slotAt k).source, (u.slotAt k).source⟩

/-- From `s` to `u` one report has been given for each tracked slot that has left PENDING, with the entries that
tracked it (R80; in the order of log entry 36). -/
def State.reportsMade (s u : State) : Prop :=
  ∃ keys, lists keys (fun k => (s.slotAt k).onAir = .pending ∧ (u.slotAt k).onAir ≠ .pending
      ∧ s.trackers (k / 16) (k % 16) ≠ [])
    ∧ u.reports = s.reports ++ keys.map fun k => ⟨k / 16, k % 16, s.trackers (k / 16) (k % 16)⟩

/-- An act of the FLT has moved slots and handed on what their moves give, and has done nothing else (R78 to R80,
R86; the order of the slots is log entry 36's choice, and the range marked for a removed binding log entry 20's
reading). -/
def State.slotsMoved (s u : State) (event : Slot → Slot → Option LegEvent) : Prop :=
  u = { s with
      slots := u.slots, updates := u.updates, marks := u.marks, pairs := u.pairs, reports := u.reports }
    ∧ s.updatesMade u ∧ s.marksMoved u ∧ s.eventsCounted u event ∧ s.reportsMade u

/-- A record's planned count is the number of planned bindings that name it, and its on-air count the number of
slots that have it on air, with no on-air update waiting (R13, R14). -/
def State.countsTrue (s : State) : Prop :=
  ∀ h x, s.record? h = some x →
    x.planned = s.slots.countP (fun c => c.2.planned.map (·.handle) == some h)
      ∧ x.onAir = s.slots.countP (fun c => c.2.source == some h)

/-- From `s` to `u` the counts of the records have followed the slots, and a RETIRING record that has left its
last slot is FREE, with its stream map entries gone; no other record is (R13, R14, R18, R19, R78). -/
def State.countsFollow (s u : State) : Prop :=
  (∀ h q, s.record? h = some q → q.state ≠ .retiring → (u.record? h).isSome)
    ∧ (∀ c, c ∈ u.smap ↔ c ∈ s.smap
      ∧ ((s.record? c.2.handle).isSome → (u.record? c.2.handle).isSome))
    ∧ (s.countsTrue → u.countsTrue ∧ ∀ h q, s.record? h = some q →
      (u.record? h = none ↔ q.state = .retiring ∧ (∃ k, (s.slotAt k).source = some h)
        ∧ ∀ k, (u.slotAt k).source ≠ some h))

/-! ### Occurrences and executions (R143 to R153) -/

/-- An occurrence of matcher `m` that does not complete the trigger takes the entry from `x` to `y`: the gate
of an AFTER trigger primes it with its count anew, each occurrence of the gate of COUNT_THEN lowers the
remaining count and the last primes it, and any other lowers the remaining count (R146 to R148). -/
def Entry.counts (x : Entry) (m : MatcherName) (y : Entry) : Prop :=
  ∃ t, x.trigger = some t ∧
    ((t.mode = .after ∧ x.state = .armed ∧ m = .b
        ∧ y = { x with state := .primed, remaining := some t.count })
      ∨ (∃ n, t.mode = .countThen ∧ x.state = .armed ∧ m = .b ∧ x.remaining = some n
        ∧ y = if n ≤ 1 then { x with state := .primed, remaining := some 1 }
          else { x with remaining := some (n - 1) })
      ∨ ∃ n, x.remaining = some (n + 2)
        ∧ (t.mode = .sole ∨ t.mode = .either ∨ (t.mode = .orDeadline ∧ m = .a)
          ∨ ((t.mode = .after ∨ t.mode = .countThen) ∧ x.state = .primed))
        ∧ y = { x with remaining := some (n + 1) })

/-- An occurrence of matcher `m` completes the entry's trigger: the deadline of OR_DEADLINE, or an
occurrence that brings the remaining count to 0 (R146 to R148). -/
def Entry.completes (x : Entry) (m : MatcherName) : Prop :=
  ∃ t, x.trigger = some t ∧
    ((t.mode = .orDeadline ∧ m = .b)
      ∨ (x.remaining = some 1 ∧ (t.mode = .sole ∨ t.mode = .either ∨ (t.mode = .orDeadline ∧ m = .a)
        ∨ ((t.mode = .after ∨ t.mode = .countThen) ∧ x.state = .primed))))

/-- BIND SLOT edits of the list that name the record (R15). -/
def bindsOf (edits : List SlotEdit) (h : Nat) : Nat :=
  edits.countP fun d => d.binding.map (·.handle) == some h

/-- What is left of an entry that has gone to FREE (R138, R140). -/
def Entry.ended (x : Entry) (result : LastResult) (code : Option Code) : Entry :=
  ⟨.free, x.owner, x.role, none, none, none, false, false, none, [], [], x.executedAt, x.applied, x.skipped,
    result, code⟩

/-- The entry as the execution act at `now` has written it (R151 part 5). -/
def Entry.executed (x : Entry) (now : StationTime) (applied skipped : Nat) : Entry :=
  { x with executedAt := some now, applied := some applied, skipped := some skipped }

/-- The return that waits HELD on the entry, when it is an original with one (R152, R153). -/
def State.heldReturn (s : State) (x : Entry) : Option Nat :=
  if x.role = some .original then x.partner.filter fun n => decide ((s.entry n).state = .held) else none

/-- The execution of entry `e` in `s` fails with code `c` (R153): the entry and its HELD return are FREE with
FAILED and the code, the references of both are given up, its reservations are released, SPLICE_FAILED is
raised, and nothing else changes. -/
def State.executionFailed (s u : State) (e : Nat) (c : Code) : Prop :=
  let x := s.entry e
  let mate := s.heldReturn x
  let ends := x.edits ++ (mate.map fun n => (s.entry n).edits).getD []
  u = { s with
      entries := u.entries, records := u.records, slots := u.slots
      attention := (s.raise .spliceFailed e).attention, attn := (s.raise .spliceFailed e).attn }
    ∧ (∀ d, u.entry d = if d = e then (x.executed s.clock 0 0).ended .failed (some c)
        else if mate = some d then (s.entry d).ended .failed (some c) else s.entry d)
    ∧ (∀ h, u.record? h
      = (s.record? h).map fun r => { r with spliceRefs := r.spliceRefs - bindsOf ends h })
    ∧ ∀ f < 24, ∀ i < 16, u.slot f i
      = if (s.slot f i).reserved = some e then { s.slot f i with reserved := none } else s.slot f i

/-- A slot's planned binding after the last edit of the list that names it (R151 part 1). -/
def lastBinding (s : State) (edits : List SlotEdit) (f i : Nat) : Option Binding :=
  match (edits.filter fun d => decide (d.feed = f ∧ d.slot = i)).getLast? with
  | some d => d.binding
  | none => (s.slot f i).planned

/-- The execution of entry `e` in `s` passes with these edits applied and a number skipped (R151, R152): each
slot the applied edits name has its last binding and makes its one move, the entry's references are given
up, its reservations pass to its return, which is armed with its TIME matcher written, or are released, and
the entry, stamped with the clock, follows its PENDING slots in SWITCHING or ends FREE with DONE. The order of the
reports, the range marked for a removed binding, the slots tracked and the form of a return's TIME matcher are as log
entries 36, 20, 35 and 24 have them. -/
def State.executionPassed (s u : State) (e : Nat) (applied : List SlotEdit) (skipped : Nat) : Prop :=
  let x := s.entry e
  let heir := if x.role = some .original then x.partner else none
  let y := x.executed s.clock applied.length skipped
  let waits := fun f i => (∃ d ∈ x.edits, d.feed = f ∧ d.slot = i) ∧ (u.slot f i).onAir = .pending
  u = { s with
      records := u.records, smap := u.smap, slots := u.slots, entries := u.entries, marks := u.marks
      pairs := u.pairs, attention := u.attention, attn := u.attn, reports := u.reports }
    ∧ (∀ f < 24, ∀ i < 16, u.slot f i = { (s.rebind f i (lastBinding s applied f i)).slot f i with
        reserved := if (s.slot f i).reserved = some e then heir else (s.slot f i).reserved })
    ∧ (∀ h r, u.record? h = some r → ∃ q, s.record? h = some q ∧ r = { q with
        planned := r.planned, onAir := r.onAir, spliceRefs := q.spliceRefs - bindsOf x.edits h })
    ∧ s.countsFollow u ∧ s.marksMoved u ∧ s.eventsCounted u bindingEvent ∧ s.reportsMade u
    ∧ ((∀ f < 24, ∀ i < 16, ¬ waits f i) → u.entry e = y.ended .done none
      ∧ u.attention = (s.raise .spliceDone e).attention ∧ u.attn = (s.raise .spliceDone e).attn)
    ∧ (∀ f < 24, ∀ i < 16, waits f i → u.attention = s.attention ∧ u.attn = s.attn
      ∧ ∃ left a b tracked, u.entry e = { y with
        state := .switching, remaining := left, occurredA := a, occurredB := b, tracked := tracked }
      ∧ ∀ g j, (g, j) ∈ tracked ↔ g < 24 ∧ j < 16 ∧ waits g j)
    ∧ (∀ n, heir = some n → u.entry n = { s.entry n with
        state := .armed, remaining := some 1
        trigger := (s.entry n).trigger.map fun t =>
          let at_ := fun | .timeAfter d => .time (s.clock + BitVec.ofNat 33 (90000 * d)) | m => m
          { t with a := at_ t.a, b := t.b.map at_ } })
    ∧ ∀ d, d ≠ e → heir ≠ some d → u.entry d = s.entry d

/-- The execution of entry `e` in `s`: its edits are judged on the picture, with its tolerance, and the leg laws
on what they leave, and it fails or passes (R149 to R153). -/
def State.executes (s u : State) (e : Nat) : Prop :=
  (∀ f, judgeEntry s (s.entry e) = .error f → s.executionFailed u e f.code)
    ∧ ∀ p, judgeEntry s (s.entry e) = .ok p →
      s.executionPassed u e (p.applied.filterMap Edit.slotEdit?) p.skipped

/-- An occurrence of matcher `m` of entry `e` is counted, or completes the trigger and executes the entry (R146 to
R149). -/
def State.occurs (s u : State) (e : Nat) (m : MatcherName) : Prop :=
  (∀ y, (s.entry e).counts m y → u = s.setEntry e y) ∧ ((s.entry e).completes m → s.executes u e)

/-- A cue is offered to entry `e`: each listening matcher that matches it occurs, A before B, and B no more when
A has completed the trigger (R144, R146). -/
def State.offeredTo (s u : State) (c : Cue) (e : Nat) : Prop :=
  let x := s.entry e
  let a := x.hearsCue c .a
  let b := x.hearsCue c .b
  (a = false → b = false → u = s) ∧ (a = true → b = false → s.occurs u e .a)
    ∧ (a = false → b = true → s.occurs u e .b)
    ∧ (a = true → b = true → ∃ v, s.occurs v e .a
      ∧ (x.completes .a → u = v) ∧ (¬ x.completes .a → v.occurs u e .b))

/-- A cue is offered, in ascending order, to the entries that are ARMED or PRIMED as its offer begins; a return
that one of them arms is not offered it (R144). -/
def State.cueOffered (s u : State) (c : Cue) : Prop :=
  inTurn (fun e v w => v.offeredTo w c e)
    ((List.range 64).filter fun e => decide ((s.entry e).state = .armed ∨ (s.entry e).state = .primed)) s u

/-- A TIME matcher that is due is marked and occurs (R145). -/
def State.timeTested (s u : State) (e : Nat) (m : MatcherName) : Prop :=
  (s.timeDue e m = false → u = s)
    ∧ (s.timeDue e m = true → (s.setEntry e ((s.entry e).markOccurred m)).occurs u e m)

/-- The TIME matchers that are due occur, entries ascending and A before B, each if it still is (R141, R145). -/
def State.timesTested (s u : State) : Prop :=
  inTurn (fun x v w => v.timeTested w x.1 x.2) (allMatchers.filter fun x => s.timeDue x.1 x.2) s u

/-- The tests of a tick and of SET STATION TIME on the clock as it stands: the cues it has reached leave the list
and are offered in list order, and then the TIME matchers that are due occur (R35, R141, R142; that a matcher A
which such a cue's gate opens is tested in the same act is the model's choice, log entry 6; an execution is as
`executionPassed` and `executionFailed` have it). -/
def State.clockTested (s u : State) : Prop :=
  ∃ v, inTurn (fun c v w => v.cueOffered w c) (s.cues.filter fun c => s.clockReached c.maturity)
      { s with cues := s.cues.filter fun c => !s.clockReached c.maturity } v
    ∧ v.timesTested u

/-- The splice scheduler has taken the reports of `s`: each SWITCHING entry has lost the tracked slots of the
reports that name it, one left with none has ended DONE with SPLICE_DONE raised, and nothing else has changed
(R155). -/
def State.reportsTaken (s t : State) : Prop :=
  let x := fun e => s.entry e
  let leaves := fun e (p : Nat × Nat) => s.reports.any fun y => y.entries.contains e && p == (y.feed, y.slot)
  let left := fun e => (x e).tracked.filter fun p => !leaves e p
  let hit := fun e => (x e).state = .switching ∧ ∃ p ∈ (x e).tracked, leaves e p = true
  t = { s with entries := t.entries, attention := t.attention, attn := t.attn, reports := [] }
    ∧ (∀ e, (hit e → t.entry e
        = if left e = [] then (x e).ended .done none else { x e with tracked := left e })
      ∧ (¬ hit e → t.entry e = x e))
    ∧ ((∀ e, hit e → left e ≠ []) → t.attention = s.attention ∧ t.attn = s.attn)
    ∧ (∀ e, hit e → left e = [] → ∃ d, Table.find? t.attention 0 = some d
      ∧ (Table.find? s.attention 0 = some d ∨ (Table.find? s.attention 0 = none ∧ hit d ∧ left d = [])))

/-! ### Laws -/

/-- A candidate's sync byte with the bytes after it, where no expected position that has come is anything but 0x47
(R29). -/
def liveCandidate (w : List Byte) : Prop :=
  w[0]? = some 0x47#8 ∧ (∀ b, w[188]? = some b → b = 0x47#8) ∧ ∀ b, w[376]? = some b → b = 0x47#8

/-- The search over the bytes rests on `w`: the longest end of them that is a live candidate, and nothing where
there is none (R29). -/
def restsOn (w bytes : List Byte) : Prop :=
  w <:+ bytes ∧ (w = [] ∨ liveCandidate w) ∧ ∀ v, v <:+ bytes → w.length < v.length → ¬ liveCandidate v

/-- What an input's sync state says of its fields: a disabled input is in SEARCH, a miss is pending in LOCKED only,
and the search window is empty but in the SEARCH of an enabled input, where it stands on a live candidate short of
its third sync byte (R28 to R30). -/
def Input.law (x : Input) : Prop :=
  (x.enabled = false → x.sync = .search) ∧ (x.enabled = false ∨ x.sync = .locked → x.window = [])
    ∧ (x.window = [] ∨ (liveCandidate x.window ∧ x.window.length ≤ 376))
    ∧ (x.miss = true → x.sync = .locked)

/-- Every input keeps its law. -/
def State.inputLaw (s : State) : Prop := ∀ i, (s.input i).law

/-- ATTN is asserted while a flag whose kind is in the mask is set, and only then (R167). -/
def State.attnLaw (s : State) : Prop := s.attn = attentionWanted s.attention s.attMask

/-- A workspace within its sizes: depth 0..4 and at most 64 edits, one level record for each open level,
or the one level of an APPLY at depth 0 (R99, R113). -/
def Workspace.bounded (w : Workspace) : Prop :=
  w.depth ≤ Config.maxDepth ∧ w.edits.length ≤ Config.workspaceEdits
    ∧ (w.levels.length = w.depth ∨ (w.depth = 0 ∧ w.levels.length = 1))

/-- What a slot's on-air state says of its fields (R68): nothing is planned exactly in EMPTY; the source
is absent in EMPTY and SLATED, the planned record in STEADY, the outgoing source in PENDING and present
in SUBSTITUTED; the switch deadline runs exactly in PENDING, the only state with an outgoing source. -/
def Slot.law (x : Slot) : Prop :=
  match x.onAir with
  | .empty => x.planned = none ∧ x.source = none ∧ x.outgoing = none ∧ x.deadline = none
  | .steady =>
    x.planned.isSome ∧ x.source = x.planned.map (·.handle) ∧ x.outgoing = none ∧ x.deadline = none
  | .pending => x.planned.isSome ∧ x.source = x.outgoing ∧ x.deadline.isSome
  | .substituted => x.planned.isSome ∧ x.source.isSome ∧ x.outgoing = none ∧ x.deadline = none
  | .slated => x.planned.isSome ∧ x.source = none ∧ x.outgoing = none ∧ x.deadline = none

/-- Every slot of the part keeps its law. -/
def State.slotLaw (s : State) : Prop := ∀ k, (s.slotAt k).law

/-- Every store of the part holds no more than it has places for: the two workspaces (R99), the cue
pending list (R34), the network command queue (R174), every leg's output buffer (R88), the stream map (R36)
and the splice edit store, in which a FREE entry holds nothing (R139). -/
def State.bounded (s : State) : Prop :=
  s.siteWs.bounded ∧ s.netWs.bounded ∧ s.cues.length ≤ Config.cuePlaces
    ∧ s.netQueue.length ≤ Config.queuePlaces
    ∧ (∀ f, (s.out f).buffer.length ≤ Config.bufferPlaces)
    ∧ s.smap.length ≤ Config.mapSize
    ∧ (s.entries.map fun c => c.2.edits.length).sum ≤ Config.storePlaces
    ∧ ∀ e, (s.entry e).state = .free → (s.entry e).edits = []

/-- The stream map holds exactly the components of the records that are not FREE: each entry belongs to such
a record, which lists its PID at its index, and is ACTIVE unless the record is RESERVED; and each component
of such a record has its entry (R36 to R38). -/
def State.mapLaw (s : State) : Prop :=
  (∀ k m, Table.find? s.smap k = some m → ∃ x c, s.record? m.handle = some x
      ∧ x.components[m.index]? = some c ∧ k = pidKey x.key.input c.pid
      ∧ (m.active = true ↔ x.state ≠ .reserved))
    ∧ ∀ h x, s.record? h = some x → ∀ k c, x.components[k]? = some c →
      ∃ m, Table.find? s.smap (pidKey x.key.input c.pid) = some m ∧ m.handle = h ∧ m.index = k

/-- An entry whose edits hold splice references: ARMED, PRIMED or HELD (R15). -/
def Entry.holds (x : Entry) : Bool := x.state == .armed || x.state == .primed || x.state == .held

/-- An ARMED or PRIMED original that waits with entry `n` as its return (R138). -/
def Entry.waitsWith (x : Entry) (n : Nat) : Prop :=
  (x.state = .armed ∨ x.state = .primed) ∧ x.role = some .original ∧ x.partner = some n

/-- What the counts of a record stand for (R13, R15), with what makes them safe to rely on: a record's planned
count is the number of planned bindings that name it, and its splice reference count the number of BIND SLOT
edits of ARMED, PRIMED and HELD entries that do; those bindings and edits name records that are LIVE, LOST or
RESTORING; a HELD return and an ARMED or PRIMED original are partners of each other; and a DEFERRED batch holds
bindings and unbindings only (R106). -/
def State.countLaw (s : State) : Prop :=
  (∀ h x, s.record? h = some x →
      x.planned = s.slots.countP (fun c => c.2.planned.map (·.handle) == some h)
        ∧ x.spliceRefs = ((s.entries.filter (·.2.holds)).map fun c => bindsOf c.2.edits h).sum)
    ∧ (∀ k b, (s.slotAt k).planned = some b → s.committed b.handle = true)
    ∧ (∀ e, (s.entry e).holds = true → ∀ d ∈ (s.entry e).edits, ∀ b, d.binding = some b →
      s.committed b.handle = true)
    ∧ (∀ e n, (s.entry e).waitsWith n → (s.entry n).state = .held ∧ (s.entry n).role = some .ret
      ∧ (s.entry n).partner = some e)
    ∧ (∀ n, (s.entry n).state = .held → ∃ e, (s.entry n).partner = some e ∧ (s.entry e).waitsWith n)
    ∧ ∀ r, (s.ws r).mode = .deferred → ∀ c ∈ (s.ws r).edits, ∃ d, c.1 = .slot d

/-- A slot edit's feed, slot and binding are in range (R60, R67, R107). -/
def SlotEdit.inRange (d : SlotEdit) : Prop :=
  d.feed < 24 ∧ d.slot < 16 ∧ ∀ b, d.binding = some b → 0x20 ≤ b.base ∧ b.base ≤ 0x1FF7

/-- The slot edits of the workspaces and of the splice entries, and the planned bindings, are in range (R60, R67,
R107). -/
def State.rangeLaw (s : State) : Prop :=
  (∀ r, ∀ c ∈ (s.ws r).edits, ∀ d, c.1 = .slot d → d.inRange)
    ∧ (∀ e, ∀ d ∈ (s.entry e).edits, d.inRange)
    ∧ ∀ k b, (s.slotAt k).planned = some b → 0x20 ≤ b.base ∧ b.base ≤ 0x1FF7

/-- The tables are as an execution finds them: true to their laws, with nothing due or handed on at the carriage
table. -/
def State.settled (s : State) : Prop :=
  s.canonical ∧ s.countLaw ∧ s.rangeLaw ∧ s.ctabDue = [] ∧ s.updates = []

/-- The on-air counts with the updates still to be taken (R14): a record's count and the updates that will add to
it make up the slots that have it on air and the updates that will take from it, and no update finds a count at 0
to take from. What is on air, or handed on as a source, is a record that is neither FREE nor RESERVED, and no
RETIRING record is still to come on air (R18, R49). -/
def State.onAirLaw (s : State) : Prop :=
  let news := fun (l : List OnAirUpdate) h => l.countP fun u => u.new == some h
  let olds := fun (l : List OnAirUpdate) h => l.countP fun u => u.old == some h
  (∀ h x, s.record? h = some x →
      x.onAir + news s.updates h = s.slots.countP (fun c => c.2.source == some h) + olds s.updates h
        ∧ (∀ n, olds (s.updates.take n) h ≤ x.onAir + news (s.updates.take n) h)
        ∧ (x.state = .retiring → news s.updates h = 0))
    ∧ ∀ h, (∃ k, (s.slotAt k).source = some h) ∨ (∃ u ∈ s.updates, u.new = some h ∨ u.old = some h) →
      ∃ x, s.record? h = some x ∧ x.state ≠ .reserved

/-- The fallback reference counts (R16): a record's count is the number of records, RESERVED ones apart, whose
fallback it is; their fallbacks are LIVE, LOST or RESTORING, and a RETIRING record has none. The handles of the two
workspaces are those of their CREATE RECORDs, no handle twice, and each is RESERVED (R99, R111). -/
def State.fallbackCountLaw (s : State) : Prop :=
  (∀ h x, s.record? h = some x → x.fallbackRefs
      = s.records.countP fun c => c.2.state != .reserved && c.2.fallback == some h)
    ∧ (∀ h x fb, s.record? h = some x → x.state ≠ .reserved → x.fallback = some fb →
      x.state ≠ .retiring ∧ s.committed fb = true)
    ∧ (∀ r, (s.ws r).handles = (s.ws r).edits.filterMap fun c => match c.1 with
      | .create h _ => some h
      | _ => none)
    ∧ (s.siteWs.handles ++ s.netWs.handles).Nodup
    ∧ ∀ r, ∀ h ∈ (s.ws r).handles, ∃ x, s.record? h = some x ∧ x.state = .reserved

/-- A SUBSTITUTED slot has its planned record's fallback on air (R68). -/
def State.fallbackLaw (s : State) : Prop :=
  ∀ k b, (s.slotAt k).onAir = .substituted → (s.slotAt k).planned = some b →
    (s.slotAt k).source = s.fallbackOf b.handle

/-- The commit act at the front of the queue, if one stands there, is of a batch that does not both bind a slot
to a record and change that record's fallback (log entry 21). -/
def State.bindsApart (s : State) : Prop :=
  ∀ r rest, s.pending = .commitAct r :: rest → ∀ d b a m n, (Edit.slot d, m) ∈ (s.ws r).edits →
    (Edit.amend a, n) ∈ (s.ws r).edits → d.binding = some b → a.handle = b.handle →
    a.setFallback = none ∧ a.clearFallback = false

/-- No two records that are not FREE have the same key (R4). -/
def State.keysDistinct (s : State) : Prop :=
  ∀ g h x y, s.record? g = some x → s.record? h = some y → x.key = y.key → g = h

end Sys2Proof.Machine
end

