-- ==== Sys2Proof/Certificates/Slice0/Obligations.lean ====
section
/-! DEFINITION. What is claimed of the model, statement by statement. A statement about SITE's requests
takes the port `ready` (Safety.lean); `accepted` and `replied` say what the port itself leaves, so that
the rest of each equality is the owner's act and, with it, the frame: every field that is not written
there is unchanged. -/

open Sys2Proof Sys2Proof.Machine

/-! ### The step and the queue -/

/-- A step takes the command at the front of the queue and runs it on the state with the queue's rest, and
no command touches the queue. With nothing waiting the part idles (the model's choice, log entry 2). -/
def Obligations.StepTakesTheFrontCommand : Prop :=
  (∀ (c : Instr) (s : State), step { s with pending := c :: s.pending } = exec c s)
    ∧ (∀ s : State, s.pending = [] → step s = .next s)
    ∧ ∀ (c : Instr) (s t : State), exec c s = .next t → t.pending = s.pending

/-- An event that names an input, leg, slot, record or entry the part does not have, bytes that are no
packet or show no missing sync byte, and a transaction or kind byte of another row stop with a fault of
their own (the model's choice, log entries 4 and 40). -/
def Obligations.AbsentThingsStopTheRun : Prop :=
  (∀ (i : Nat) (b : List Byte) (s : State), 8 ≤ i →
      exec (.syncAcquired i b) s = .fault .noSuchInput
        ∧ exec (.syncCandidateGivenUp i b) s = .fault .noSuchInput
        ∧ exec (.missingSyncByte ⟨i, b⟩) s = .fault .noSuchInput
        ∧ ∀ a, exec (.packetReceived i a b) s = .fault .noSuchInput)
    ∧ (∀ (i : Nat) (a : Byte) (b : List Byte) (s : State), i < 8 → a ≠ 0x47#8 ∨ b.length ≠ 187 →
      exec (.packetReceived i a b) s = .fault .notAPacket)
    ∧ (∀ (i : Nat) (b : List Byte) (s : State), i < 8 → b.head? = some 0x47#8 ∨ b.length ≠ 188 →
      exec (.missingSyncByte ⟨i, b⟩) s = .fault .notAMiss)
    ∧ (∀ (h : Nat) (s : State), h = 0 ∨ 1024 ≤ h →
      exec (.lossWindowExpired h) s = .fault .noSuchRecord
        ∧ exec (.restoreHoldEnded h) s = .fault .noSuchRecord)
    ∧ (∀ (f i : Nat) (s : State), 24 ≤ f ∨ 16 ≤ i →
      exec (.switchDeadlineExpired f i) s = .fault .noSuchLeg)
    ∧ (∀ (f : Nat) (s : State), 24 ≤ f →
      exec (.outputOpportunity f) s = .fault .noSuchLeg
        ∧ exec (.directoryPeriodExpired f) s = .fault .noSuchLeg)
    ∧ (∀ (e : Nat) (m : MatcherName) (s : State), 64 ≤ e →
      exec (.timeMatcherOccurs e m) s = .fault .noSuchEntry)
    ∧ (∀ (k : Byte) (f : Frame) (s : State), k.toNat ∈ catalogue →
      exec (.unknownRequest k f) s = .fault .otherRow)
    ∧ ∀ (t : Byte) (n : Nat) (s : State), (t = 0x57#8 ∧ 3 ≤ n) ∨ t = 0x52#8 →
      exec (.statusPoll t n) s = .fault .otherRow

/-! ### The site port (R169 to R173, R181, R183) -/

/-- Before the data sheet's time after reset has run out no transaction is taken and none changes the
port or MISO (R181). After it, a frame cut short, before its kind byte or after it, is discarded, whatever
the port is doing, and a whole frame that comes while a request is in flight sets the last frame ignored
mark; neither does anything else (R170 steps 1 and 2). An accepted frame whose length is outside 1..508 or
whose CRC-16 fails is answered FRAME ERROR with kind 0, and one that passes but whose kind is not in the
catalogue UNKNOWN REQUEST with its kind; both with code 0, SITE's depth and no body, and nothing else
changes (R170 steps 3 and 4). Which row carries a frame cut before its kind byte is the model's choice (log
entry 40). -/
def Obligations.FramesAreTakenOrDiscarded : Prop :=
  (∀ s : State, s.phase ≠ .running →
    (∀ row f, IsRequestRow row → exec (row.2 f) s = .next s)
      ∧ (∀ (t : Byte) (n : Nat), t ≠ 0x52#8 → (t = 0x57#8 → n ≤ 2) →
        exec (.statusPoll t n) s = .next s)
      ∧ ∀ n, exec (.replyRead n) s = .next s)
    ∧ (∀ (n : Nat) (s : State), n ≤ 2 → s.phase = .running → exec (.statusPoll 0x57#8 n) s
      = .next { s with miso := .shifted (s.port.status :: List.replicate n 0x00#8) })
    ∧ (∀ (row : Byte × (Frame → Instr)) (f : Frame) (s : State), IsRequestRow row → s.phase = .running →
      (¬ frameComplete f → exec (row.2 f) s = .next (s.clocked f.rest.length))
        ∧ (frameComplete f → s.port.flight.isSome → exec (row.2 f) s
          = .next { s.clocked f.rest.length with port := { s.port with ignored := true } })
        ∧ (frameComplete f → s.port.flight = none →
          ¬ (1 ≤ f.len.toNat ∧ f.len.toNat ≤ 508 ∧ frameCrcOk row.1 f) →
          exec (row.2 f) s = .next { s.clocked f.rest.length with
            port := { s.port with
              reply := some ⟨0x00#8, .frameError, 0, s.siteWs.depth, []⟩, ignored := false } }))
    ∧ ∀ (k : Byte) (f : Frame) (s : State), k.toNat ∉ catalogue → s.phase = .running →
      s.port.flight = none → frameComplete f → 1 ≤ f.len.toNat → f.len.toNat ≤ 508 → frameCrcOk k f →
      exec (.unknownRequest k f) s = .next { s.clocked f.rest.length with
        port := { s.port with
          reply := some ⟨k, .unknownRequest, 0, s.siteWs.depth, []⟩, ignored := false } }

/-- The status byte shows READY, BUSY, REPLY WAITING and LAST FRAME IGNORED in bits 0 to 3 under 1010,
and a status-only transaction shifts it out, then 0xFF, and changes nothing (R169, R171, R183). A reply
transaction that clocks out the whole reply reads it, and one that ends sooner leaves it waiting; with no
reply waiting 0xFF comes throughout (R169, R172). -/
def Obligations.TheStatusAndTheReplyAreShiftedOut : Prop :=
  ((∀ p : Port, p.status.getLsbD 0 = p.flight.isNone ∧ p.status.getLsbD 1 = p.flight.isSome
      ∧ p.status.getLsbD 2 = p.reply.isSome ∧ p.status.getLsbD 3 = p.ignored
      ∧ p.status >>> 4 = 0x0A#8)
    ∧ ∀ (t : Byte) (n : Nat) (s : State), t ≠ 0x57#8 → t ≠ 0x52#8 → s.phase = .running →
      exec (.statusPoll t n) s
        = .next { s with miso := .shifted (s.port.status :: List.replicate n 0xFF#8) })
    ∧ (∀ (n : Nat) (s : State), s.phase = .running →
    (∀ r, s.port.reply = some r → (replyFrame r).length ≤ n →
        exec (.replyRead n) s = .next { s with
          miso := .shifted (s.port.status ::
            (replyFrame r ++ List.replicate (n - (replyFrame r).length) 0xFF#8))
          port := { s.port with reply := none } })
      ∧ (∀ r, s.port.reply = some r → n < (replyFrame r).length →
        exec (.replyRead n) s
          = .next { s with miso := .shifted (s.port.status :: (replyFrame r).take n) })
      ∧ (s.port.reply = none →
        exec (.replyRead n) s
          = .next { s with miso := .shifted (s.port.status :: List.replicate n 0xFF#8) }))


/-- A direct request whose parameters are shorter or longer than its fields, or hold an operand out of range, is
refused with BAD_FIELD by its owner, and nothing is done: the reads of records, counters, legs, slots, splices,
outcomes and inputs, FIND RECORD, LIST RECORDS, QUERY CARRIAGE and SET RELAY here, and the other settings with
their own statements (R20, R82, R101, R158, R164, R165, R173, R177 to R179; that a clear option is a presence byte
is the model's reading, log entry 11). A CLEAR ALL with parameters is refused too (by the model's reading of R173, log
entry 12). -/
def Obligations.BadParametersAreRefused : Prop :=
  ∀ s : State, s.ready →
    let refused := fun (k : Byte) (command : Frame → Instr) (p : List Byte) =>
      exec (command (requestFrame k p)) s = .next ((s.accepted p.length).replied k (.refused .badField))
    (∀ row ∈ directRows, ∀ p : List Byte, p.length ≤ 507 → (row.1, p.length) ∉ directLengths →
        refused row.1 row.2 p)
      ∧ (∀ p : List Byte, p.length ≤ 507 → p ≠ [] → refused 0x7F#8 .clearAll p)
      ∧ (∀ c h, c < 256 → h < 65536 → 2 ≤ c ∨ h = 0 ∨ 1024 ≤ h →
        refused 0x40#8 .readRecord (packed [(1, c), (2, h)]))
      ∧ (∀ i n, i < 256 → n < 65536 → 8 ≤ i ∨ n = 0 → refused 0x41#8 .findRecord (packed [(1, i), (2, n)]))
      ∧ (∀ h, h < 65536 → h = 0 ∨ 1024 ≤ h → refused 0x42#8 .listRecords (packed [(2, h)]))
      ∧ (∀ f, 24 ≤ f → f < 256 → refused 0x43#8 .readLeg (packed [(1, f)]))
      ∧ (∀ f i, f < 256 → i < 256 → 24 ≤ f ∨ 16 ≤ i → refused 0x44#8 .readSlot (packed [(1, f), (1, i)]))
      ∧ (∀ e, 64 ≤ e → e < 256 → refused 0x45#8 .readSplice (packed [(1, e)]))
      ∧ (∀ r, 2 ≤ r → r < 256 → refused 0x46#8 .readOutcome (packed [(1, r)]))
      ∧ (∀ c k n, c < 256 → k < 256 → n < 256 → 2 ≤ c ∨ 2 ≤ k ∨ (k = 0 ∧ 24 ≤ n) ∨ (k = 1 ∧ 8 ≤ n) →
        refused 0x47#8 .readCounters (packed [(1, c), (1, k), (1, n)]))
      ∧ (∀ i, 8 ≤ i → i < 256 → refused 0x48#8 .readInput (packed [(1, i)]))
      ∧ (∀ h (feeds : FeedSet), h < 65536 → h = 0 ∨ 1024 ≤ h →
        refused 0x49#8 .queryCarriage (packed [(2, h), (3, feeds.toNat)]))
      ∧ ∀ b, 2 ≤ b → b < 256 → refused 0x34#8 .setRelay (packed [(1, b)])

/-! ### Starting events (R24, R58, R81, R98, R159, R180, R181) -/

/-- The assertion of RESETN releases MISO and deasserts ATTN, and until the release no other event has an
effect; without it a release has none (R181; that events other than transactions have no effect while RESETN is
asserted, and that a release while it is not asserted changes nothing, are the model's choices, log entries 7 and
3). At the release every block takes its power-on values, with the clock at 0 and the port READY, with no reply waiting
and no frame ignored, and so it is right after power-on; the first transaction is taken once the data sheet's
time has elapsed, before and after which the elapsing has no effect (R24, R26, R98, R99, R181; the last is
the model's choice, log entry 3, and so is that a field without a power-on value in the spec starts empty or clear, log
entry 31). -/
def Obligations.ResetTakesThePowerOnValues : Prop :=
  (∀ s : State, ∃ t, exec .resetnAsserted s = .next t ∧ t.phase = .asserted ∧ t.miso = .released
      ∧ t.attn = false)
    ∧ (∀ (c : Instr) (s t : State), s.phase = .asserted → c ≠ .resetnAsserted → c ≠ .resetnReleased →
      exec c s = .next t → t = s)
    ∧ (∀ s : State, s.phase = .asserted → ∃ t, exec .resetnReleased s = .next t ∧ t.otherStart
      ∧ t.slotStart ∧ t.spliceStart ∧ t.clock = 0 ∧ t.port = ⟨none, none, false, []⟩
      ∧ t.phase = .settling)
    ∧ (∀ s : State, s.phase ≠ .asserted → exec .resetnReleased s = .next s)
    ∧ (∀ s : State, s.phase = .settling →
      exec .resetReleaseTimeElapsed s = .next { s with phase := .running })
    ∧ (∀ s : State, s.phase ≠ .settling → exec .resetReleaseTimeElapsed s = .next s)
    ∧ (State.reset.otherStart ∧ State.reset.slotStart ∧ State.reset.spliceStart
      ∧ State.reset.clock = 0 ∧ State.reset.phase = .settling)

/-- R159: what power-on and the clearing act leave in the splice scheduler. -/
def Obligations.StartingEventsFreeEverySplice : Prop :=
  (∀ s : State, s.phase = .asserted → ∃ t, exec .resetnReleased s = .next t ∧ t.spliceStart
      ∧ t.clock = 0)
    ∧ ∀ s : State, s.phase ≠ .asserted → s.port.flight = some .clearAll →
      ∃ t, exec .clearingAct s = .next t ∧ t.spliceStart ∧ t.clock = s.clock

/-- R81: what power-on and the clearing act leave in the slots and legs. -/
def Obligations.StartingEventsEmptyEverySlot : Prop :=
  (∀ s : State, s.phase = .asserted → ∃ t, exec .resetnReleased s = .next t ∧ t.slotStart)
    ∧ ∀ s : State, s.phase ≠ .asserted → s.port.flight = some .clearAll →
      ∃ t, exec .clearingAct s = .next t ∧ t.slotStart

/-- A CLEAR ALL is in flight from its hand-on, with nothing else changed, until the clearing act, which
gives every block its starting values, keeps the clock and the last frame ignored mark, and leaves the
reply TAKEN (R180). Without one in flight the clearing act has nothing to do (the model's choice, log entry
3). -/
def Obligations.ClearAllWaitsForItsAct : Prop :=
  (∀ s : State, s.ready → exec (.clearAll (requestFrame 0x7F#8 [])) s
      = .next { s.accepted 0 with port := { (s.accepted 0).port with flight := some .clearAll } })
    ∧ (∀ s : State, s.phase ≠ .asserted → s.port.flight = some .clearAll →
      ∃ t, exec .clearingAct s = .next t ∧ t.otherStart ∧ t.slotStart ∧ t.spliceStart
        ∧ t.clock = s.clock ∧ t.phase = s.phase ∧ t.miso = s.miso
        ∧ t.port = ⟨none, some ⟨0x7F#8, .taken, 0, 0, []⟩, s.port.ignored, []⟩)
    ∧ ∀ s : State, s.port.flight ≠ some .clearAll → exec .clearingAct s = .next s

/-! ### Reads (R20, R23, R82, R101, R158, R164, R165, R168, R176, R178, R179) -/

/-- READ RECORD gives the record as it stands; with the clear option the hit marker is clear after it, and
nothing else changes (R20, R23). READ COUNTERS gives a leg's eight pairs or an input's nine counters, and
with the clear option they are 0 after it, with masks, units, settings and sync state unchanged (R164). READ
RELAY gives the mailbox and empties it (R176). The place of the clear option is the model's reading (log entry 11),
that 1 asks for it is its choice (log entry 41), and the replies' layouts are its reading (log entry 14); the fields of
a FREE record that have no none encoding are free values (log entry 13). -/
def Obligations.ReadsThatClear : Prop :=
  (∀ (h : Nat) (s : State), s.ready → 1 ≤ h → h ≤ 1023 →
    exec (.readRecord (requestFrame 0x40#8 (packed [(1, 0), (2, h)]))) s
        = .next ((s.accepted 3).replied 0x40#8 (.taken (encRecord h (s.record? h))))
      ∧ (s.record? h = none →
        exec (.readRecord (requestFrame 0x40#8 (packed [(1, 1), (2, h)]))) s
          = .next ((s.accepted 3).replied 0x40#8 (.taken (encRecord h none))))
      ∧ ∀ x, s.record? h = some x →
        exec (.readRecord (requestFrame 0x40#8 (packed [(1, 1), (2, h)]))) s
          = .next (((s.accepted 3).setRecord h { x with hit := false }).replied 0x40#8
            (.taken (encRecord h (some x)))))
    ∧ ∀ s : State, s.ready →
    (∀ f < 24, exec (.readCounters (requestFrame 0x47#8 (packed [(1, 0), (1, 0), (1, f)]))) s
        = .next ((s.accepted 3).replied 0x47#8
          (.taken ((List.range 8).flatMap fun n => encPair (s.pair (8 * f + n))))))
      ∧ (∀ f < 24, ∃ t,
        exec (.readCounters (requestFrame 0x47#8 (packed [(1, 1), (1, 0), (1, f)]))) s
            = .next ({ s.accepted 3 with pairs := t }.replied 0x47#8
              (.taken ((List.range 8).flatMap fun n => encPair (s.pair (8 * f + n)))))
          ∧ ∀ k, Table.look (Pair.start k) t k
            = if k / 8 = f then ⟨(s.pair k).mask, (s.pair k).unit, 0, 0⟩ else s.pair k)
      ∧ (∀ i < 8, exec (.readCounters (requestFrame 0x47#8 (packed [(1, 0), (1, 1), (1, i)]))) s
        = .next ((s.accepted 3).replied 0x47#8 (.taken (encCounters (s.input i).counters))))
      ∧ (∀ i < 8, exec (.readCounters (requestFrame 0x47#8 (packed [(1, 1), (1, 1), (1, i)]))) s
        = .next (((s.accepted 3).setInput i { s.input i with counters := .zero }).replied 0x47#8
          (.taken (encCounters (s.input i).counters))))
      ∧ exec (.readRelay (requestFrame 0x4B#8 [])) s
        = .next ({ s.accepted 0 with mailbox := ⟨none, false⟩ }.replied 0x4B#8
          (.taken (encMailbox s.mailbox)))

/-- FIND RECORD gives the handle and state of the record with the key, or handle 0 and FREE; LIST RECORDS
gives up to 16 records from the start handle on in handle order, and where the next list starts (R178).
READ LEG, READ SLOT, READ SPLICE, READ OUTCOME, READ INPUT and READ ATTENTION give what they name as it
stands (R82, R101, R158, R165, R168). QUERY CARRIAGE answers 0 when no feed of the set has the record on air, 3 when
every feed of a set that is not empty has it, and otherwise 2 or 1 as the lowest feed of the set has it or not
(R179). None of them changes anything. The replies' layouts are the model's reading (log entry 14); that 1 says
yes, and ATTN asserted, the order of the tracked slots, and the id bytes of a CUE matcher for ANY, a free value, are
its choices (log entries 41, 42 and 43). R82 gives no rounding of the time that remains of a running switch deadline:
that READ SLOT gives it in whole milliseconds rounded up is the model's choice (log entry 27), in milliseconds of 90
ticks (log entry 5). The absent fields of READ SLOT, READ SPLICE and READ ATTENTION that have no none encoding are free
values (log entry 13). -/
def Obligations.ReadsGiveWhatStands : Prop :=
  ((∀ (i n : Nat) (s : State), s.ready → s.canonical → s.keysDistinct → i < 8 → 1 ≤ n → n ≤ 65535 →
      (∀ h x, s.record? h = some x → x.key = ⟨i, n⟩ →
          exec (.findRecord (requestFrame 0x41#8 (packed [(1, i), (2, n)]))) s
            = .next ((s.accepted 3).replied 0x41#8 (.taken (packed [(2, h), (1, x.state.num)]))))
        ∧ ((∀ h x, s.record? h = some x → x.key ≠ ⟨i, n⟩) →
          exec (.findRecord (requestFrame 0x41#8 (packed [(1, i), (2, n)]))) s
            = .next ((s.accepted 3).replied 0x41#8 (.taken (packed [(2, 0), (1, 0)])))))
    ∧ ∀ (h : Nat) (s : State), s.ready → 1 ≤ h → h ≤ 1023 →
      ∃ l next, l = (s.records.filter fun c => decide (h ≤ c.1)).take 16
        ∧ (l.length < 16 → next = 0)
        ∧ (∀ c, l[15]? = some c → next = if c.1 < 1023 then c.1 + 1 else 0)
        ∧ exec (.listRecords (requestFrame 0x42#8 (packed [(2, h)]))) s
          = .next ((s.accepted 2).replied 0x42#8 (.taken (l.flatMap encListed ++ bytesOf 2 next))))
    ∧ ∀ s : State, s.ready →
    (∀ f < 24, exec (.readLeg (requestFrame 0x43#8 (packed [(1, f)]))) s
        = .next ((s.accepted 1).replied 0x43#8 (.taken (encLeg s f))))
      ∧ (∀ f < 24, ∀ i < 16, exec (.readSlot (requestFrame 0x44#8 (packed [(1, f), (1, i)]))) s
        = .next ((s.accepted 2).replied 0x44#8 (.taken (encSlot s f i))))
      ∧ (∀ e < 64, exec (.readSplice (requestFrame 0x45#8 (packed [(1, e)]))) s
        = .next ((s.accepted 1).replied 0x45#8 (.taken (encEntry s e))))
      ∧ (∀ r, exec (.readOutcome (requestFrame 0x46#8 (packed [(1, requesterNum r)]))) s
        = .next ((s.accepted 1).replied 0x46#8 (.taken (encOutcome (s.outcome r)))))
      ∧ (∀ i < 8, exec (.readInput (requestFrame 0x48#8 (packed [(1, i)]))) s
        = .next ((s.accepted 1).replied 0x48#8 (.taken (encInput (s.input i)))))
      ∧ exec (.readAttention (requestFrame 0x4A#8 [])) s
        = .next ((s.accepted 0).replied 0x4A#8 (.taken (encAttention s)))
      ∧ ∀ (h : Nat) (feeds : FeedSet), 1 ≤ h → h ≤ 1023 → ∃ code, s.carriageCode h feeds code
        ∧ exec (.queryCarriage (requestFrame 0x49#8 (packed [(2, h), (3, feeds.toNat)]))) s
          = .next ((s.accepted 5).replied 0x49#8 (.taken (packed [(1, code)])))

/-! ### Settings (R21, R27, R28, R61, R118, R142, R163, R167, R168, R177) -/

/-- A SET INPUT out of form or range is refused with BAD_FIELD (R27 step 1, R173). One in form is checked against
the settings the input would have: a cue PID equal to the command PID is refused with BAD_FIELD, a newly reserved
PID that the stream map holds with PID_TAKEN, and otherwise the settings are written, with the sync state kept
unless the enable setting changes, when the input is in SEARCH with nothing partly received (R27, R28). Nothing
else changes. -/
def Obligations.InputsAreSet : Prop :=
  (∀ (p : List Byte) (s : State), s.ready → p.length ≤ 507 → parseSetInput p = none →
      exec (.setInput (requestFrame 0x30#8 p)) s
        = .next ((s.accepted p.length).replied 0x30#8 (.refused .badField)))
    ∧ ∀ (p : List Byte) (c : InputSettings) (s : State), s.ready → p.length ≤ 507 →
    parseSetInput p = some c →
    let old := s.input c.input
    let new := c.apply old
    let taken := ∃ q, q ∈ new.reservedPids ∧ q ∉ old.reservedPids ∧ s.mapped c.input q = true
    (new.cuePid = some new.commandPid →
        exec (.setInput (requestFrame 0x30#8 p)) s
          = .next ((s.accepted p.length).replied 0x30#8 (.refused .badField)))
      ∧ (new.cuePid ≠ some new.commandPid → taken →
        exec (.setInput (requestFrame 0x30#8 p)) s
          = .next ((s.accepted p.length).replied 0x30#8 (.refused .pidTaken)))
      ∧ (new.cuePid ≠ some new.commandPid → ¬ taken →
        exec (.setInput (requestFrame 0x30#8 p)) s
          = .next (((s.accepted p.length).setInput c.input
            (if old.enabled = new.enabled then new
              else { new with sync := .search, miss := false, window := [] })).replied 0x30#8
              (.taken [])))

/-- SET COUNTER PAIR writes the pair's mask and unit and clears both its counters (R163). SET ATTENTION MASK
writes the mask and CLEAR ATTENTION clears the named flags, both driving ATTN anew (R167, R168). A feed,
pair, mask, unit or set out of range is refused with BAD_FIELD and nothing changes. -/
def Obligations.CountersAndAttentionAreSet : Prop :=
  (∀ (f n m u : Nat) (s : State), s.ready → f < 256 → n < 256 → m < 256 → u < 256 →
    (f < 24 → n < 8 → m < 128 → ∀ v : CountUnit, u = v.num →
        exec (.setCounterPair (requestFrame 0x35#8 (packed [(1, f), (1, n), (1, m), (1, u)]))) s
          = .next (((s.accepted 4).setPair (8 * f + n) ⟨BitVec.ofNat 7 m, v, 0, 0⟩).replied 0x35#8
            (.taken [])))
      ∧ (24 ≤ f ∨ 8 ≤ n ∨ 128 ≤ m ∨ 2 ≤ u →
        exec (.setCounterPair (requestFrame 0x35#8 (packed [(1, f), (1, n), (1, m), (1, u)]))) s
          = .next ((s.accepted 4).replied 0x35#8 (.refused .badField))))
    ∧ ∀ (m : Nat) (s : State), s.ready → m < 256 →
    (m < 128 →
        exec (.setAttentionMask (requestFrame 0x36#8 (packed [(1, m)]))) s
            = .next ({ s.accepted 1 with
              attMask := BitVec.ofNat 7 m
              attn := attentionWanted s.attention (BitVec.ofNat 7 m) }.replied 0x36#8 (.taken []))
          ∧ ∃ flags, exec (.clearAttention (requestFrame 0x37#8 (packed [(1, m)]))) s
              = .next ({ s.accepted 1 with
                attention := flags, attn := attentionWanted flags s.attMask }.replied 0x37#8 (.taken []))
            ∧ ∀ k, Table.find? flags k = if m.testBit k then none else Table.find? s.attention k)
      ∧ (128 ≤ m →
        exec (.setAttentionMask (requestFrame 0x36#8 (packed [(1, m)]))) s
            = .next ((s.accepted 1).replied 0x36#8 (.refused .badField))
          ∧ exec (.clearAttention (requestFrame 0x37#8 (packed [(1, m)]))) s
            = .next ((s.accepted 1).replied 0x37#8 (.refused .badField)))

/-- SET RELAY, SET BATCH LIMIT and SET LEG OWNER write the relay setting, the idle limit and a leg's zone; a limit
outside 1..600 s and a zone or feed out of range are refused with BAD_FIELD, and a claimed leg with CLAIMED, with
nothing changed (R61, R118, R177). That the CLAIMED refusal has no body is the model's reading (log entry 14), as
are the four bytes of a limit (log entry 11); that 1 enables the relay is its choice (log entry 41); that an idle
timer the new limit finds run out is noted as due, and that seconds count ticks, are its form (log entries 6 and
5). SET STATION TIME writes the clock; while no cue of the list and no listening TIME matcher has been reached on
it, nothing else happens; a value of 2^33 or more is refused and the clock unchanged (R142). ARM PROBE arms the
probe of a record that is neither FREE nor RESERVED and removes any earlier result; of another handle in range it
is refused with STATE_REFUSED, and of a handle out of range with BAD_FIELD (R21). -/
def Obligations.SettingsAreWritten : Prop :=
  (∀ s : State, s.ready →
    (∀ b : Bool, exec (.setRelay (requestFrame 0x34#8 (packed [(1, b.toNat)]))) s
        = .next ({ s.accepted 1 with relayOn := b }.replied 0x34#8 (.taken [])))
      ∧ (∀ n, 1 ≤ n → n ≤ 600 → ∃ due,
        exec (.setBatchLimit (requestFrame 0x33#8 (packed [(4, n)]))) s
            = .next ({ s.accepted 4 with idleLimit := n, idleDue := due }.replied 0x33#8 (.taken []))
          ∧ ∀ r, r ∈ due ↔ ∃ t, ((s.accepted 4).ws r).idle = some t ∧ 90 * (1000 * n) ≤ s.uptime - t)
      ∧ (∀ n, n = 0 ∨ 600 < n → n < 2 ^ 32 →
        exec (.setBatchLimit (requestFrame 0x33#8 (packed [(4, n)]))) s
          = .next ((s.accepted 4).replied 0x33#8 (.refused .badField)))
      ∧ (∀ f < 24, ∀ z : Zone,
        exec (.setLegOwner (requestFrame 0x31#8 (packed [(1, f), (1, z.num)]))) s
          = if (s.leg f).claim = none then
              .next (((s.accepted 2).setLeg f { s.leg f with zone := z }).replied 0x31#8 (.taken []))
            else .next ((s.accepted 2).replied 0x31#8 (.refused .claimed)))
      ∧ ∀ f z, f < 256 → z < 256 → 24 ≤ f ∨ 3 ≤ z →
        exec (.setLegOwner (requestFrame 0x31#8 (packed [(1, f), (1, z)]))) s
          = .next ((s.accepted 2).replied 0x31#8 (.refused .badField)))
    ∧ (∀ (n : Nat) (s : State), s.ready →
    (n < 2 ^ 33 → (∀ c ∈ s.cues, ({ s with clock := BitVec.ofNat 33 n } : State).clockReached c.maturity = false) →
        (∀ e m, ({ s with clock := BitVec.ofNat 33 n } : State).timeDue e m = false) →
        exec (.setStationTime (requestFrame 0x32#8 (packed [(5, n)]))) s
          = .next ({ s.accepted 5 with clock := BitVec.ofNat 33 n }.replied 0x32#8 (.taken [])))
      ∧ (2 ^ 33 ≤ n → n < 2 ^ 40 →
        exec (.setStationTime (requestFrame 0x32#8 (packed [(5, n)]))) s
          = .next ((s.accepted 5).replied 0x32#8 (.refused .badField))))
    ∧ ∀ (h : Nat) (s : State), s.ready → h < 65536 →
    (∀ x, 1 ≤ h → h ≤ 1023 → s.record? h = some x → x.state ≠ .reserved →
        exec (.armProbe (requestFrame 0x22#8 (packed [(2, h)]))) s
          = .next (((s.accepted 2).setRecord h { x with armed := true, probe := none }).replied 0x22#8
            (.taken [])))
      ∧ (1 ≤ h → h ≤ 1023 → (∀ x, s.record? h = some x → x.state = .reserved) →
        exec (.armProbe (requestFrame 0x22#8 (packed [(2, h)]))) s
          = .next ((s.accepted 2).replied 0x22#8 (.refused .stateRefused)))
      ∧ (h = 0 ∨ 1024 ≤ h →
        exec (.armProbe (requestFrame 0x22#8 (packed [(2, h)]))) s
          = .next ((s.accepted 2).replied 0x22#8 (.refused .badField)))

/-! ### Batches (R62, R99 to R119) -/

/-- An OPEN BATCH at depth 0 claims every leg of its claim set or none: with every zone open to SITE and no
leg claimed the workspace opens at depth 1 with what the request carries; otherwise it is refused with
ZONE_REFUSED, or else with CLAIMED, naming the lowest feed that failed, and nothing changes. One whose fields
are out of range is refused with BAD_FIELD (R62, R102). At depth 1 to 3 an OPEN BATCH adds a level with its
three controls and changes nothing else of the batch; out of range they abort the whole batch with BAD_FIELD,
and at depth 4 any OPEN BATCH aborts it with DEPTH_EXCEEDED, with no failing edit index (R104; that bytes
which do not spell an OPEN BATCH count as out of range is the model's choice, log entry 12). -/
def Obligations.BatchesAreOpened : Prop :=
  (∀ (p : List Byte) (s : State), s.ready → p.length ≤ 507 → s.siteWs.depth = 0 →
    (∀ (l : Level) (b : BatchParams), parseOpen p = some ⟨some l, some b⟩ →
      let barred := fun f => b.claims.getLsbD f = true ∧ (s.leg f).zone = .network
      let held := fun f => b.claims.getLsbD f = true ∧ (s.leg f).claim ≠ none
      ((∀ f < 24, ¬ barred f ∧ ¬ held f) → ∃ legs,
          exec (.openBatch (requestFrame 0x01#8 p)) s
              = .next (({ s.accepted p.length with
                  siteWs := ⟨1, [l], b.mode, b.trigger, b.returnOpt, b.claims, [], [], [], 0,
                    some s.uptime, none⟩
                  legs := legs } : State).replied 0x01#8 (.taken []))
            ∧ ∀ f, Table.look (Leg.start f) legs f
              = if b.claims.getLsbD f then { s.leg f with claim := some .site } else s.leg f)
        ∧ (∀ f < 24, barred f → (∀ g < f, ¬ barred g) →
          exec (.openBatch (requestFrame 0x01#8 p)) s
            = .next ((s.accepted p.length).replied 0x01#8 (.refusedAt .zoneRefused f)))
        ∧ ((∀ f < 24, ¬ barred f) → ∀ f < 24, held f → (∀ g < f, ¬ held g) →
          exec (.openBatch (requestFrame 0x01#8 p)) s
            = .next ((s.accepted p.length).replied 0x01#8 (.refusedAt .claimed f))))
      ∧ ((∀ l b, parseOpen p ≠ some ⟨some l, some b⟩) →
        exec (.openBatch (requestFrame 0x01#8 p)) s
          = .next ((s.accepted p.length).replied 0x01#8 (.refused .badField))))
    ∧ ∀ (p : List Byte) (s : State), s.ready → p.length ≤ 507 → 1 ≤ s.siteWs.depth →
    let w := (s.accepted p.length).siteWs
    (w.depth < 4 → ∀ l b, parseOpen p = some ⟨some l, b⟩ →
        exec (.openBatch (requestFrame 0x01#8 p)) s
          = .next (({ s.accepted p.length with
              siteWs := { w with depth := w.depth + 1, levels := w.levels ++ [l] } } : State).replied
                0x01#8 (.taken [])))
      ∧ (w.depth < 4 → (∀ l b, parseOpen p ≠ some ⟨some l, b⟩) →
        s.answersAbort (exec (.openBatch (requestFrame 0x01#8 p)) s) 0x01#8 p.length [] .badField none
          .none)
      ∧ (4 ≤ w.depth →
        s.answersAbort (exec (.openBatch (requestFrame 0x01#8 p)) s) 0x01#8 p.length [] .depthExceeded
          none .none)

/-- Edits give their fields, in the order of their rules and each in its range, and nothing else: BIND SLOT,
UNBIND SLOT, RETIRE RECORD, and, with a presence byte and their optional parts, CREATE RECORD, AMEND RECORD
and SET LEG; a value out of range, a component's kind and a presence bit beyond the request's parts among them, or
an AMEND RECORD or SET LEG that changes nothing, fails the field check, and so do more or fewer bytes than the edit's
fields have (R3, R5, R8, R12, R60, R107, R173, R182; that a fallback of handle 0 is out of range is the model's
reading, log entry 32, as are the presence bits, that one beyond the parts is out of range, and that AMEND RECORD's
clear option is bit 1 with no bytes, log entry 11; that 1 says yes is its choice, log entry 41). -/
def Obligations.EditsAreReadInTheirOrder : Prop :=
  let opt := fun (n : Nat) (v : Option Nat) => (v.map (bytesOf n)).getD []
  let bits := fun l : List Bool => l.foldr (fun b n => 2 * n + b.toNat) 0
  let yes := fun v : Option Nat => v.map (· == 1)
  let pid := fun q : Nat => 0x20 ≤ q ∧ q ≤ 0x1FFE
  let opts := fun (v : Option Nat) (ok : Nat → Prop) => ∀ x, v = some x → ok x
  (∀ f i h n q : Nat, f < 256 → i < 256 → h < 65536 → n < 65536 → q < 65536 →
      parseEdit 0x13 (packed [(1, f), (1, i), (2, h), (2, n), (2, q)])
        = if f < 24 ∧ i < 16 ∧ 1 ≤ h ∧ h ≤ 1023 ∧ 1 ≤ n ∧ 0x20 ≤ q ∧ q ≤ 0x1FF7 then
            some (.slot ⟨f, i, some ⟨h, n, q⟩⟩)
          else none)
    ∧ (∀ f i : Nat, f < 256 → i < 256 → parseEdit 0x14 (packed [(1, f), (1, i)])
        = if f < 24 ∧ i < 16 then some (.slot ⟨f, i, none⟩) else none)
    ∧ (∀ h : Nat, h < 65536 →
      parseEdit 0x12 (packed [(2, h)]) = if 1 ≤ h ∧ h ≤ 1023 then some (.retire h) else none)
    ∧ (∀ p : List Byte, (p.length ≠ 8 → parseEdit 0x13 p = none)
      ∧ (p.length ≠ 2 → parseEdit 0x14 p = none ∧ parseEdit 0x12 p = none))
    ∧ (∀ (i n cl g peak extra : Nat) (cs : List (Nat × Nat)) (fb lw rh ar : Option Nat) (more : List Byte),
      i < 256 → n < 65536 → cl < 256 → g < 256 → peak < 65536 → extra < 16 → cs.length < 256 →
      (∀ c ∈ cs, c.1 < 65536 ∧ c.2 < 256) →
      opts fb (· < 65536) → opts lw (· < 65536) → opts rh (· < 65536) → opts ar (· < 256) →
      let sent := packed [(1, bits [fb.isSome, lw.isSome, rh.isSome, ar.isSome] + 16 * extra), (1, i), (2, n),
          (1, cl), (1, g), (1, cs.length)]
        ++ cs.flatMap (fun c => packed [(2, c.1), (1, c.2)]) ++ bytesOf 2 peak
        ++ opt 2 fb ++ opt 2 lw ++ opt 2 rh ++ opt 1 ar
      let e := parseEdit 0x10 (sent ++ more)
      let kind := fun k : Nat =>
        if k = 0 then CompKind.video else if k = 1 then .audio else if k = 2 then .subtitle else .data
      let ok := more = [] ∧ extra = 0 ∧ (∀ c ∈ cs, c.2 < 4) ∧ i < 8 ∧ 1 ≤ n ∧ cl < 2 ∧ g < 16
        ∧ 1 ≤ cs.length ∧ cs.length ≤ 8
        ∧ (cs.map (·.1)).Nodup ∧ (∀ c ∈ cs, pid c.1) ∧ 32 ≤ peak ∧ peak ≤ 40000
        ∧ opts fb (fun h => 1 ≤ h ∧ h ≤ 1023) ∧ opts lw (fun v => 40 ≤ v ∧ v ≤ 2000 ∧ v % 10 = 0)
        ∧ opts rh (fun v => v ≤ 5000 ∧ v % 100 = 0) ∧ opts ar (· < 2)
      (ok → e = some (.create 0 ⟨⟨i, n⟩, if cl = 0 then .network else .regional, g,
          cs.map fun c => ⟨c.1, kind c.2⟩, peak, fb, lw, rh, yes ar⟩)) ∧ (¬ ok → e = none)
        ∧ ∀ k < sent.length, parseEdit 0x10 (sent.take k) = none)
    ∧ (∀ (h extra : Nat) (fb : Option Nat) (clear : Bool) (peak lw rh ar g : Option Nat) (more : List Byte),
      h < 65536 → extra < 2 →
      opts fb (· < 65536) → opts peak (· < 65536) → opts lw (· < 65536) → opts rh (· < 65536) →
      opts ar (· < 256) → opts g (· < 256) →
      let presence := bits [fb.isSome, clear, peak.isSome, lw.isSome, rh.isSome, ar.isSome, g.isSome]
      let sent := packed [(1, presence + 128 * extra), (2, h)]
        ++ opt 2 fb ++ opt 2 peak ++ opt 2 lw ++ opt 2 rh ++ opt 1 ar ++ opt 1 g
      let e := parseEdit 0x11 (sent ++ more)
      let ok := more = [] ∧ extra = 0 ∧ presence ≠ 0 ∧ 1 ≤ h ∧ h ≤ 1023 ∧ ¬ (fb.isSome ∧ clear = true)
        ∧ opts fb (fun k => 1 ≤ k ∧ k ≤ 1023 ∧ k ≠ h) ∧ opts peak (fun v => 32 ≤ v ∧ v ≤ 40000)
        ∧ opts lw (fun v => 40 ≤ v ∧ v ≤ 2000 ∧ v % 10 = 0) ∧ opts rh (fun v => v ≤ 5000 ∧ v % 100 = 0)
        ∧ opts ar (· < 2) ∧ opts g (· < 16)
      (ok → e = some (.amend ⟨h, fb, clear, peak, lw, rh, yes ar, g⟩)) ∧ (¬ ok → e = none)
        ∧ ∀ k < sent.length, parseEdit 0x11 (sent.take k) = none)
    ∧ ∀ (f extra : Nat) (st accept capacity streamId dirPid period wait : Option Nat) (more : List Byte),
      f < 256 → extra < 2 →
      opts st (· < 256) → opts accept (· < 65536) → opts capacity (· < 65536) → opts streamId (· < 65536) →
      opts dirPid (· < 65536) → opts period (· < 65536) → opts wait (· < 65536) →
      let presence := bits [st.isSome, accept.isSome, capacity.isSome, streamId.isSome, dirPid.isSome,
        period.isSome, wait.isSome]
      let sent := packed [(1, presence + 128 * extra), (1, f)] ++ opt 1 st ++ opt 2 accept ++ opt 2 capacity
        ++ opt 2 streamId ++ opt 2 dirPid ++ opt 2 period ++ opt 2 wait
      let e := parseEdit 0x15 (sent ++ more)
      let ok := more = [] ∧ extra = 0 ∧ presence ≠ 0 ∧ f < 24 ∧ opts st (· < 3)
        ∧ opts capacity (fun v => 1000 ≤ v ∧ v ≤ 60000)
        ∧ opts dirPid (fun v => 0x10 ≤ v ∧ v ≤ 0x1F) ∧ opts period (fun v => 25 ≤ v ∧ v ≤ 1000)
        ∧ opts wait (fun v => 100 ≤ v ∧ v ≤ 4000)
      (ok → e = some (.setLeg ⟨f, st.map fun n => if n = 0 then .idle else if n = 1 then .onAir else .muted,
          accept.map (BitVec.ofNat 16), capacity, streamId, dirPid, period, wait⟩)) ∧ (¬ ok → e = none)
        ∧ ∀ k < sent.length, parseEdit 0x15 (sent.take k) = none

/-- OPEN BATCH, APPLY and SET INPUT give their fields in their order and ranges. An IMMEDIATE OPEN BATCH without a
trigger gives its claim set, and a DEFERRED one its trigger and its return option too, where R103 admits them; an
IMMEDIATE one with a trigger or a return option, a DEFERRED one without a trigger or with one that R103 does not admit,
and another mode give none, and controls out of range give no level. More or fewer bytes than the fields have give
nothing. An APPLY of one to four BIND SLOT and UNBIND SLOT edits in range gives them in order; another count gives
none. A SET INPUT gives the settings it carries, each in its range (R27, R102, R103, R113, R173, R182; the place of the
presence bits, and that one beyond the parts is out of range, are the model's reading, log entry 11; that 1 says yes,
and that the four id bytes of a matcher for ANY may be any, are its choices, log entries 41 and 43). -/
def Obligations.RequestsAreReadInTheirOrder : Prop :=
  let opt := fun (n : Nat) (v : Option Nat) => (v.map (bytesOf n)).getD []
  let opts := fun (v : Option Nat) (ok : Nat → Prop) => ∀ x, v = some x → ok x
  let bits := fun l : List Bool => l.foldr (fun b n => 2 * n + b.toNat) 0
  (∀ (claims : FeedSet) (mode legEdits retire tolerance extra unused : Nat)
      (trigger : Option (Nat × Option Matcher × Option Matcher × Nat)) (ret : Option (Bool × Option Nat))
      (more : List Byte), mode < 256 → legEdits < 256 → retire < 256 → tolerance < 256 → extra < 64 →
      unused < 2 ^ 32 →
      (∀ m a b n, trigger = some (m, a, b, n) → m < 256 ∧ n < 256 ∧ ∀ x, a = some x ∨ b = some x → match x with
        | .cue input _ _ => input < 256
        | .time _ => True
        | .timeAfter _ => False) →
      (∀ r, ret = some r → opts r.2 (· < 2 ^ 32)) →
      let isTime := fun m : Matcher => ∃ x, m = .time x
      let pack := fun (m : Option Matcher) => match m with
        | some (.cue input id kind) =>
          packed [(1, 0), (1, input), (1, id.isNone.toNat), (4, (id.map (·.toNat)).getD unused), (1, kind.num)]
        | some (.time x) => packed [(1, 1), (5, x.toNat)]
        | some (.timeAfter _) | none => packed [(1, 0xFF)]
      let sent := packed [(1, bits [trigger.isSome, ret.isSome] + 4 * extra), (3, claims.toNat), (1, mode),
          (1, legEdits), (1, retire), (1, tolerance)]
        ++ (trigger.map fun t => packed [(1, t.1)] ++ pack t.2.1 ++ pack t.2.2.1 ++ packed [(1, t.2.2.2)]).getD []
        ++ (ret.map fun r => packed [(1, bits [r.1, r.2.isSome])] ++ opt 4 r.2).getD []
      let level := if legEdits < 2 ∧ retire < 2 ∧ tolerance ≤ 2 then
        some (Level.mk (legEdits == 1) (retire == 1) tolerance) else none
      let returns := ret.bind fun r =>
        if r.1 = true ∨ r.2.isSome then some (ReturnOption.mk r.1 r.2) else none
      let immediate := mode = 0 ∧ trigger = none ∧ returns = none
      let deferred := fun t : Trigger => mode = 1 ∧ trigger = some (t.mode.num, some t.a, t.b, t.count)
        ∧ 1 ≤ t.count
        ∧ (∀ input id kind, t.a = .cue input id kind ∨ t.b = some (.cue input id kind) → input < 8)
        ∧ (t.mode = .sole → t.b = none)
        ∧ (t.mode = .either ∨ t.mode = .after ∨ t.mode = .countThen → t.b ≠ none)
        ∧ (t.mode = .orDeadline → ∃ m, t.b = some m ∧ isTime m)
        ∧ ∀ r, ret = some r → opts r.2 (fun d => 1 ≤ d ∧ d ≤ 47721) ∧ ¬ (r.1 = true ∧ isTime t.a)
      (extra = 0 → immediate → parseOpen sent = some ⟨level, some ⟨claims, .immediate, none, none⟩⟩)
        ∧ (∀ t, extra = 0 → deferred t → parseOpen sent = some ⟨level, some ⟨claims, .deferred, some t, returns⟩⟩)
        ∧ (extra ≠ 0 ∨ (¬ immediate ∧ ∀ t, ¬ deferred t) → parseOpen sent = some ⟨level, none⟩)
        ∧ (more ≠ [] → parseOpen (sent ++ more) = none) ∧ ∀ k < sent.length, parseOpen (sent.take k) = none)
    ∧ (∀ (n : Nat) (xs : List SlotEdit), n < 256 → (∀ x ∈ xs, x.feed < 24 ∧ x.slot < 16
        ∧ ∀ b, x.binding = some b → 1 ≤ b.handle ∧ b.handle ≤ 1023 ∧ 1 ≤ b.programme
          ∧ b.programme ≤ 65535 ∧ 0x20 ≤ b.base ∧ b.base ≤ 0x1FF7) →
      parseApply (bytesOf 1 n ++ xs.flatMap fun x => match x.binding with
        | some b => packed [(1, 0x13), (1, x.feed), (1, x.slot), (2, b.handle), (2, b.programme), (2, b.base)]
        | none => packed [(1, 0x14), (1, x.feed), (1, x.slot)])
        = if n = xs.length ∧ 1 ≤ n ∧ n ≤ 4 then some (xs.map fun x => ⟨some x.feed, some (.slot x)⟩)
          else none)
    ∧ ∀ (i : Nat) (enabled cue command bearing : Option Nat), i < 256 → opts enabled (· < 256) →
      opts cue (· < 65536) → opts command (· < 65536) → opts bearing (· < 256) →
      let c := parseSetInput (packed [(1, bits [enabled.isSome, cue.isSome, command.isSome, bearing.isSome]),
        (1, i)] ++ opt 1 enabled ++ opt 2 cue ++ opt 2 command ++ opt 1 bearing)
      let ok := i < 8 ∧ opts enabled (· < 2)
        ∧ opts cue (fun q => q = 0xFFFF ∨ (0x20 ≤ q ∧ q ≤ 0x1FFE))
        ∧ opts command (fun q => 0x20 ≤ q ∧ q ≤ 0x1FFE) ∧ opts bearing (· < 2)
        ∧ (bearing = some 1 → i ≤ 1)
      (ok → c = some ⟨i, enabled.map (· == 1), cue.map fun q => if q = 0xFFFF then none else some q,
          command, bearing.map (· == 1)⟩) ∧ (¬ ok → c = none)

/-- CLOSE BATCH leaves the innermost level; at depth 1 it stops the idle timer and puts the commit in
flight; at depth 0 it is refused with NO_BATCH. Parameters where there should be none are refused with
BAD_FIELD (R105, R123; the last is the model's choice, log entry 12). ABANDON BATCH with a code of
32..255 ends the whole batch with result ABANDONED and the code; a lower code is refused with BAD_FIELD
and the batch stays open; at depth 0 it is refused with NO_BATCH (R116). So it is, at each depth, with parameters
that are not one byte (the model's choice, log entry 12). A requester's open batch whose idle timer
has reached the idle limit is aborted with BATCH_EXPIRED, and no reply is given; a timer that is stopped or has not
reached it changes nothing (R117; that seconds count ticks and that an event not due has no effect are the model's,
log entries 5 and 3). An expiry that a SET BATCH LIMIT made due comes before a later one, of either requester
(R118; that it waits to be taken is log entry 6's form). -/
def Obligations.BatchesAreClosedAbandonedAndExpire : Prop :=
  (∀ (p : List Byte) (s : State), s.ready → p.length ≤ 507 →
    let w := (s.accepted p.length).siteWs
    let run := exec (.closeBatch (requestFrame 0x02#8 p)) s
    (w.depth = 0 → run = .next ((s.accepted p.length).replied 0x02#8 (.refused .noBatch)))
      ∧ (1 ≤ w.depth → p ≠ [] →
        run = .next ((s.accepted p.length).replied 0x02#8 (.refused .badField)))
      ∧ (w.depth = 1 → p = [] →
        run = .next { s.accepted p.length with
          siteWs := { w with idle := none, flight := some ⟨0x02#8, []⟩ }
          port := { (s.accepted p.length).port with flight := some .commit } })
      ∧ (2 ≤ w.depth → p = [] →
        run = .next (({ s.accepted p.length with
          siteWs := { w with depth := w.depth - 1, levels := w.levels.dropLast } } : State).replied
            0x02#8 (.taken []))))
    ∧ (∀ (r : Requester) (s : State), s.phase ≠ .asserted → s.ctabDue = [] →
    let run := exec (.batchIdleExpired r)
    let reached := fun q => ∃ t, (s.ws q).idle = some t ∧ 90 * (1000 * s.idleLimit) ≤ s.uptime - t
    (s.idleDue = [] → reached r → ∃ u, run s = .next u ∧ s.batchAborted u r .batchExpired none .none)
      ∧ (s.idleDue = [] → ¬ reached r → run s = .next s)
      ∧ ∀ q rest, s.idleDue = q :: rest → let t := { s with idleDue := rest }
        (reached q → ∃ u, t.batchAborted u q .batchExpired none .none ∧ run s = run u)
          ∧ (¬ reached q → run s = run t))
    ∧ (∀ (c : Nat) (s : State), s.ready → c < 256 →
    let run := exec (.abandonBatch (requestFrame 0x03#8 (packed [(1, c)]))) s
    (s.siteWs.depth = 0 → run = .next ((s.accepted 1).replied 0x03#8 (.refused .noBatch)))
      ∧ (1 ≤ s.siteWs.depth → c < 32 →
        run = .next ((s.accepted 1).replied 0x03#8 (.refused .badField)))
      ∧ (1 ≤ s.siteWs.depth → 32 ≤ c → ∃ u,
        (s.accepted 1).batchEnded u .site
            ⟨.abandoned, c, none, .none, s.siteWs.depth, 0, 0, s.siteWs.mode, none, none⟩
          ∧ run = .next (u.replied 0x03#8 (.ended [] (u.outcome .site)))))
    ∧ ∀ (p : List Byte) (s : State), s.ready → p.length ≤ 507 → p.length ≠ 1 →
      exec (.abandonBatch (requestFrame 0x03#8 p)) s = .next ((s.accepted p.length).replied 0x03#8
        (.refused (if s.siteWs.depth = 0 then .noBatch else .badField)))

/-- An edit sent with no batch open is refused with NO_BATCH. With one open, the first check it fails aborts
the batch, with the edit's position: BAD_FIELD for fields out of range, NOT_DEFERRABLE for an edit of records
or legs in a DEFERRED batch, NOT_CLAIMED for a feed outside the claim set, LEG_EDIT_NOT_ALLOWED or
RETIRE_NOT_ALLOWED where a level's control forbids it, UNKNOWN_HANDLE for a handle SITE cannot name,
NOT_BINDABLE for one that is RETIRING, NOT_OWNER for an amended or retired record of NETWORK, SLOT_RESERVED for
a slot a splice entry reserves, WORKSPACE_FULL, with no position, for a full workspace, and for a CREATE RECORD
KEY_EXISTS, TABLE_FULL, PID_TAKEN and MAP_FULL (R2, R4, R37, R106 to R111, R115, R121; that a full workspace gives
position 65, and that an AMEND RECORD whose own handle and fallback fail the same check names its own handle, are the
model's choices, log entry 15). -/
def Obligations.EditsAreCheckedAtArrival : Prop :=
  ∀ row ∈ editRows, ∀ (p : List Byte) (s : State), s.ready → s.canonical → p.length ≤ 507 →
    let w := s.siteWs
    let run := exec (row.2 (requestFrame row.1 p)) s
    (w.depth = 0 → run = .next ((s.accepted p.length).replied row.1 (.refused .noBatch)))
      ∧ (1 ≤ w.depth → parseEdit row.1.toNat p = none →
        s.answersAbort run row.1 p.length [] .badField (w.failsAt .badField) .none)
      ∧ (1 ≤ w.depth → ∀ e c x, parseEdit row.1.toNat p = some e → s.failsArrival .site false e c x →
        s.answersAbort run row.1 p.length [] c (w.failsAt c) x)

/-- An AMEND RECORD, RETIRE RECORD, BIND SLOT, UNBIND SLOT or SET LEG that passes its checks joins the
workspace's edits with the largest tolerance of any open level as its stamp, and changes nothing else
(R100, R106, R112). -/
def Obligations.EditsJoinTheWorkspace : Prop :=
  ∀ row ∈ editRows, row.1 ≠ 0x10#8 → ∀ (p : List Byte) (e : Edit) (s : State), s.ready →
    p.length ≤ 507 → 1 ≤ s.siteWs.depth → parseEdit row.1.toNat p = some e → s.mayArrive .site false e →
    ∃ stamp, s.siteWs.stampIs stamp
      ∧ exec (row.2 (requestFrame row.1 p)) s
        = .next (({ s.accepted p.length with
            siteWs := { (s.accepted p.length).siteWs with edits := s.siteWs.edits ++ [(e, stamp)] } }
              : State).replied row.1 (.taken []))

/-- A CREATE RECORD that passes its checks reserves the lowest FREE handle, in a record with the fields it carries
and the defaults of the others, and a RESERVED stream map entry for each component, whose keys join the
workspace's reserved map entries; the edit joins the workspace with the largest tolerance of any open level as its
stamp, the reply gives the handle, and nothing else changes (R2, R3, R36, R37, R100, R106, R111, R112). -/
def Obligations.ACreateReservesItsRecord : Prop :=
  ∀ (p : List Byte) (n : Nat) (c : CreateFields) (s : State), s.ready → s.canonical → p.length ≤ 507 →
    1 ≤ s.siteWs.depth → parseEdit 0x10 p = some (.create n c) → s.mayArrive .site false (.create n c) →
    s.keyFree c.key → s.pidsFree c → s.smap.length + c.components.length ≤ 4096 →
    ∀ h, s.lowestIs h → ∃ u, (s.accepted p.length).reserves u .site c h
      ∧ exec (.createRecord (requestFrame 0x10#8 p)) s = .next (u.replied 0x10#8 (.taken (bytesOf 2 h)))

/-- An APPLY of SITE, whatever edits it carries. At depth 0 a count outside 1..4, bytes that spell no edits, or a
feed out of range is refused with BAD_FIELD, a feed of a NETWORK leg with ZONE_REFUSED and a claimed one with
CLAIMED, naming the lowest, with nothing changed; otherwise it claims the legs it names and takes the workspace as a
one-level batch of tolerance 0. Its edits arrive in their order: a RETIRE RECORD fails with RETIRE_NOT_ALLOWED, and
the first edit that fails aborts the batch with its code and position, the reply giving the handles reserved so far;
when all pass the commit is in flight. Inside a batch they join it, with its stamp, against its claims and controls,
and the APPLY is TAKEN with its handles; the first that fails, or a bad form, aborts the whole batch (R62, R106,
R112 to R115, R121; that a bad form inside a batch gives no position, and that a refusal with BAD_FIELD has an empty
body and another the feed alone, are the model's choices, log entries 12 and 14; so are, with 64 edits held, the
failing index 65, outside the range 1..64, and the subject of an AMEND RECORD whose two handles fail one check, log
entry 15). -/
def Obligations.AnApplyRunsItsEdits : Prop :=
  ∀ (p : List Byte) (s : State), s.ready → s.canonical → p.length ≤ 507 →
    let run := exec (.apply (requestFrame 0x04#8 p)) s
    (s.accepted p.length).applies .site p (fun u a => run = .next (u.replied 0x04#8 a))
      fun u => run = .next { u with port := { u.port with flight := some .commit } }

/-! ### The commit act (R121 to R137) -/

/-- A commit act ends its requester's batch, whether it passes or fails: the workspace takes its starting
values, no leg stays claimed for it, the outcome record is written with the batch's depth and mode, and
SITE's waiting reply is ENDED with that record (R123, R132, R136, R137). Without a commit in flight nothing
happens (the model's choice, log entry 3). -/
def Obligations.ACommitEndsItsBatch : Prop :=
  ∀ (r : Requester) (s : State), s.phase ≠ .asserted → s.idleDue = [] →
    ((s.ws r).flight = none → exec (.commitAct r) s = .next s)
      ∧ ∀ fl, (s.ws r).flight = some fl → ∃ t, exec (.commitAct r) s = .next t
        ∧ t.ws r = Workspace.start
        ∧ (∀ f < 24, (t.leg f).claim ≠ some r)
        ∧ (t.outcome r).depth = (s.ws r).depth ∧ (t.outcome r).mode = (s.ws r).mode
        ∧ ((t.outcome r).result = .committed ∨ (t.outcome r).result = .deferred
          ∨ (t.outcome r).result = .aborted)
        ∧ (r = .site → t.port.flight = none ∧ ∃ first,
          t.port.reply = some ⟨fl.kind, .ended, (t.outcome .site).code, 0,
            first ++ encOutcome (t.outcome .site)⟩
          ∧ (fl.kind ≠ 0x04#8 → first = []) ∧ (fl.kind = 0x04#8 → first.length = 8))

/-- A commit that fails changes none of the tables: nothing is changed but by the end of the batch, which
frees the records it had reserved with their stream map entries, releases its claims, empties its workspace and
writes its outcome record ABORTED, and by the answer to its requester (R115, R121, R137). -/
def Obligations.AFailedCommitChangesNoTable : Prop :=
  ∀ (r : Requester) (s t : State) (fl : CommitFlight), s.quiet → s.phase ≠ .asserted →
    (s.ws r).flight = some fl → exec (.commitAct r) s = .next t → (t.outcome r).result = .aborted →
    ∃ c index subject, s.failsCommit (exec (.commitAct r) s) r fl c index subject

/-- An edit is judged on the picture its batch's earlier edits have built. It fails with UNKNOWN_HANDLE on a
handle that is FREE or RESERVED there, NOT_BINDABLE on one that is RETIRING or retired earlier in the batch, and
SLOT_RESERVED on a reserved slot. It is REDUNDANT when it changes nothing, and SOURCE_LOST when it binds a LOST
or RESTORING record without a LIVE fallback or sets a LOST fallback; a stamp of 1, or of 2, skips it and counts
it, a lower one fails it. Otherwise it is applied to the picture (R120, R125 to R127; that a record RESERVED by
the batch whose CREATE RECORD was skipped is unknown, and that REDUNDANT is judged first, are the model's
readings, log entries 17 and 16; that one RESERVED by a later CREATE RECORD of the batch is unknown to an edit before
it, and that an AMEND RECORD whose own handle and fallback fail one check names its own, are its choices, log entries
17 and 15). -/
def Obligations.EditsAreJudgedOnThePicture : Prop :=
  ∀ (p : Picture) (n stamp : Nat) (e : Edit),
    let t := p.tables
    let known := fun h => ∃ x, t.record? h = some x ∧ x.state ≠ .reserved
    let leaving := fun h => (∃ m, (h, m) ∈ p.retired) ∨ ∃ x, t.record? h = some x ∧ x.state = .retiring
    let redundant := (∃ x, e = .slot x ∧ (t.slot x.feed x.slot).planned = x.binding)
      ∨ (∃ h, e = .retire h ∧ leaving h)
      ∨ ∃ a x, e = .amend a ∧ t.record? a.handle = some x ∧ a.apply x = x
    let lost := fun h => ∃ y, t.record? h = some y ∧ y.state = .lost
    let sourceLost := (∃ x b y, e = .slot x ∧ x.binding = some b ∧ t.record? b.handle = some y
        ∧ (y.state = .lost ∨ y.state = .restoring)
        ∧ ∀ fb z, y.fallback = some fb → t.record? fb = some z → z.state ≠ .live)
      ∨ (∃ h c fb, e = .create h c ∧ c.fallback = some fb ∧ lost fb)
      ∨ ∃ a fb, e = .amend a ∧ a.setFallback = some fb ∧ lost fb
    let subject : Subject := match e with
      | .create h _ | .retire h => ⟨some h, none, none, none⟩
      | .amend a => ⟨some a.handle, none, none, none⟩
      | .slot x => ⟨none, some x.feed, some x.slot, none⟩
      | .setLeg l => ⟨none, some l.feed, none, none⟩
    ((∀ l h m, e.named = l ++ h :: m → (∀ g ∈ l, known g) → ¬ known h →
        p.recheck n e = some ⟨.unknownHandle, some n, ⟨some h, none, none, none⟩⟩)
      ∧ ((∀ h ∈ e.named, known h) →
        (∀ l h m, e.bound = l ++ h :: m → (∀ g ∈ l, ¬ leaving g) → leaving h →
            p.recheck n e = some ⟨.notBindable, some n, ⟨some h, none, none, none⟩⟩)
          ∧ ((∀ h ∈ e.bound, ¬ leaving h) →
            (∀ x m, e = .slot x → (t.slot x.feed x.slot).reserved = some m →
                p.recheck n e = some ⟨.slotReserved, some n, ⟨none, some x.feed, some x.slot, some m⟩⟩)
              ∧ ((∀ x, e = .slot x → (t.slot x.feed x.slot).reserved = none) → p.recheck n e = none))))
      ∧ (redundant → p.judge n e stamp
        = if 1 ≤ stamp then .ok { p with skipped := p.skipped + 1 }
          else .error ⟨.redundant, some n, subject⟩)
      ∧ (¬ redundant → sourceLost → p.judge n e stamp
        = if 2 ≤ stamp then .ok { p with skipped := p.skipped + 1 }
          else .error ⟨.sourceLost, some n, subject⟩)
      ∧ (¬ redundant → ¬ sourceLost → ∃ q, p.judge n e stamp = .ok q
        ∧ q.applied = p.applied ++ [e] ∧ q.skipped = p.skipped
        ∧ q.retired = (match e with
          | .retire h => p.retired ++ [(h, n)]
          | _ => p.retired)
        ∧ (∀ h, q.tables.record? h = match e with
          | .create g _ => (t.record? h).map fun x => if h = g then { x with state := .live } else x
          | .amend a => (t.record? h).map fun x => if h = a.handle then a.apply x else x
          | _ => t.record? h)
        ∧ (∀ k, q.tables.slotAt k = match e with
          | .slot x => if k = slotKey x.feed x.slot then { t.slotAt k with planned := x.binding }
            else t.slotAt k
          | _ => t.slotAt k)
        ∧ ∀ f, q.tables.leg f = match e with
          | .setLeg l => if f = l.feed then l.apply (t.leg f) else t.leg f
          | _ => t.leg f)

/-- A commit act fails at the first stage that fails: with the code of the first edit that fails on the picture
of those before it; with REGION_REFUSED for the lowest planned slot whose record's group, or its fallback's, its
leg does not accept; with CAPACITY_EXCEEDED for the lowest overloaded leg; with OUTPUT_COLLISION for the higher
slot of the lowest pair that share a programme number or a PID; for an IMMEDIATE batch with FALLBACK_INVALID for
the lowest record whose fallback is not a staying record, is itself or has a higher rate, and with IN_USE for the
first retired record that is planned, referenced by a splice or a staying record's fallback; for a DEFERRED one
with SPLICE_TABLE_FULL or SPLICE_STORE_FULL (R125, R128 to R130, R133, R134, R137; that only records staying
after the batch are judged is the model's reading, log entry 18). -/
def Obligations.CommitsFailAtTheirStages : Prop :=
  ∀ (r : Requester) (s : State) (fl : CommitFlight) (mode : Mode), s.commitWaits r fl mode →
    let w := s.ws r
    let fails := s.failsCommit (exec (.commitAct r) s) r fl
    (∀ l e stamp rest p, w.edits = l ++ (e, stamp) :: rest → (Picture.start s).walk 1 l = .ok p →
        (∀ c index x, p.recheck (l.length + 1) e = some ⟨c, index, x⟩ → fails c index x)
          ∧ (p.recheck (l.length + 1) e = none → ∀ c index x,
            p.judge (l.length + 1) e stamp = .error ⟨c, index, x⟩ → fails c index x))
      ∧ ∀ p, (Picture.start s).walk 1 w.edits = .ok p → (mode = .immediate ∨ p.applied ≠ []) →
        let t := p.tables
        let stored := p.applied.filterMap Edit.slotEdit?
        let free := (List.range 64).filter fun e => (s.entry e).state = .free
        let returns := w.returnOpt.isSome
        let needed := stored.length
          + if returns then (stored.map fun d => slotKey d.feed d.slot).dedup.length else 0
        (∀ k < 384, ¬ t.regionAccepted k → (∀ j < k, t.regionAccepted j) → fails .regionRefused none
            ⟨(t.slotAt k).planned.map (·.handle), some (k / 16), some (k % 16), none⟩)
          ∧ ((∀ k, t.regionAccepted k) → ∀ f < 24, ¬ t.loadFits f → (∀ g < f, t.loadFits g) →
            fails .capacityExceeded none ⟨none, some f, none, none⟩)
          ∧ ((∀ k, t.regionAccepted k) → (∀ f < 24, t.loadFits f) → ∀ j k, k < 384 → t.outputsClash j k →
            (∀ i m, t.outputsClash i m → j < i ∨ (j = i ∧ k ≤ m)) →
            fails .outputCollision none ⟨none, some (k / 16), some (k % 16), none⟩)
          ∧ (mode = .immediate → t.legsLawful → ∀ h, p.fallbackWrong h → (∀ g < h, ¬ p.fallbackWrong g) →
            fails .fallbackInvalid none ⟨some h, none, none, none⟩)
          ∧ (mode = .immediate → t.legsLawful → (∀ h, ¬ p.fallbackWrong h) → ∀ l h n rest,
            p.retired = l ++ (h, n) :: rest → (∀ c ∈ l, ¬ p.stillUsed c.1) → p.stillUsed h →
            fails .inUse (some n) ⟨some h, none, none, none⟩)
          ∧ (mode = .deferred → t.legsLawful → stored ≠ [] → w.trigger ≠ none →
            (free.length < (if returns then 2 else 1) → fails .spliceTableFull none .none)
              ∧ ((if returns then 2 else 1) ≤ free.length → s.freePlaces < needed →
                fails .spliceStoreFull none .none))

/-- An IMMEDIATE batch of one BIND SLOT of a LIVE record to an EMPTY slot, where the leg laws and the
fallbacks hold with the binding written, commits: the slot is PENDING toward the record with nothing on
air and its switch deadline running, the record's planned count rises by one, no other slot and no
other record changes, and the outcome is COMMITTED with one edit applied (R13, R71, R125, R131, R132). -/
def Obligations.ACommittedBindingStartsASwitch : Prop :=
  ∀ (r : Requester) (s : State) (fl : CommitFlight) (f i : Nat) (b : Binding) (x : Record) (stamp : Nat),
    s.phase ≠ .asserted → s.quiet → s.canonical → f < 24 → i < 16 → (s.ws r).flight = some fl →
    (s.ws r).mode = .immediate → (s.ws r).handles = [] →
    (s.ws r).edits = [(.slot ⟨f, i, some b⟩, stamp)] →
    s.slot f i = ⟨none, .empty, none, none, none, none⟩ →
    s.record? b.handle = some x → x.state = .live →
    legLaws (s.paint (.slot ⟨f, i, some b⟩)) = none →
    (Picture.start (s.paint (.slot ⟨f, i, some b⟩))).fallbackFailure = none →
    ∃ t, exec (.commitAct r) s = .next t
      ∧ t.slot f i = ⟨some b, .pending, none, none, some ⟨s.uptime, (s.leg f).switchWait⟩, none⟩
      ∧ (∀ k, k ≠ slotKey f i → t.slotAt k = s.slotAt k)
      ∧ t.record? b.handle = some { x with planned := x.planned + 1 }
      ∧ (∀ h, h ≠ b.handle → t.record? h = s.record? h)
      ∧ t.outcome r = ⟨.committed, 0, none, .none, (s.ws r).depth, 1, 0, .immediate, none, none⟩
      ∧ t.outs = s.outs ∧ t.counts = s.counts ∧ t.marks = s.marks ∧ t.entries = s.entries
      ∧ t.pairs = s.pairs ∧ t.clock = s.clock ∧ t.cues = s.cues ∧ t.inputs = s.inputs

/-- What a commit of one applied record edit writes. A CREATE RECORD makes its record LIVE with its silence timer
started, its map entries ACTIVE with no last count, and its fallback counted. An AMEND RECORD writes its changes
and moves the fallback reference counts; where the fallback changed, a slot SUBSTITUTED on the old one goes to
PENDING when its planned record is usable, else to the new one, else SLATED, and a SLATED one to the new one; the
moves make marks due, are counted as leg events and move the on-air counts, and a window that a running silence
timer has reached, and a hold that a hold timer has, falls due. A RETIRE RECORD clears the fallback and frees the
record, or leaves it RETIRING while it is on air. Nothing else changes but the end of the batch (R10, R12, R16,
R46, R47, R54, R74, R79, R86, R131, R132; that a window and a hold of milliseconds are measured in uptime ticks, 90 to
each, is the model's, log entry 5; how a due act waits, and the expiry before the hold's end, are log entry
6's, and that an amendment of either value makes due what the other's timer had already reached is its choice; that a
slot SUBSTITUTED on another source than the old fallback does not move is the model's choice, log entry 21). -/
def Obligations.RecordEditsAreWritten : Prop :=
  ∀ (r : Requester) (s : State) (fl : CommitFlight) (stamp : Nat), s.commitWaits r fl .immediate →
    let run := exec (.commitAct r) s
    let passes := fun (u : State) (e : Edit) => (s.ws r).edits = [(e, stamp)] ∧ legLaws u = none
      ∧ (Picture.start u).fallbackFailure = none
    let sound := fun fb : Option Nat => ∀ h, fb = some h → ∃ y, s.record? h = some y
      ∧ (y.state = .live ∨ y.state = .restoring)
    (∀ h c x, passes (s.paint (.create h c)) (.create h c) → s.record? h = some x →
        x.state = .reserved → x.fallback = c.fallback → sound c.fallback →
        ∃ u : State, u.endsCommit run r fl (s.committedWith r 1 0)
          ∧ u = { s with records := u.records, smap := u.smap }
          ∧ (∀ g, u.record? g = (s.record? g).map fun y =>
            if g = h then { y with
              state := .live, silence := some s.uptime, hold := none, silentFlag := false }
            else if c.fallback = some g then { y with fallbackRefs := y.fallbackRefs + 1 } else y)
          ∧ ∀ k, Table.find? u.smap k = (Table.find? s.smap k).map fun m =>
            if m.handle = h then { m with active := true, lastCount := none } else m)
      ∧ (∀ a x, passes (s.paint (.amend a)) (.amend a) → s.record? a.handle = some x →
        (x.state = .live ∨ x.state = .lost ∨ x.state = .restoring) → a.apply x ≠ x → sound a.setFallback →
        let now := if a.clearFallback then none else if a.setFallback.isSome then a.setFallback
          else x.fallback
        let z := { x with
          fallback := now, peak := a.peak.getD x.peak, lossWindow := a.lossWindow.getD x.lossWindow
          restoreHold := a.restoreHold.getD x.restoreHold, autoReturn := a.autoReturn.getD x.autoReturn
          region := a.region.getD x.region }
        let live := fun h => ∃ y, s.record? h = some y ∧ y.state = .live
        let timed := a.lossWindow ≠ none ∨ a.restoreHold ≠ none
        let expired := timed ∧ ∃ n, x.silence = some n ∧ 90 * z.lossWindow ≤ s.uptime - n
        let held := timed ∧ x.state = .restoring ∧ ∃ n, x.hold = some n ∧ 90 * z.restoreHold ≤ s.uptime - n
        ∃ u : State, u.endsCommit run r fl (s.committedWith r 1 0)
          ∧ u = { s with
              records := u.records, smap := u.smap, slots := u.slots, marks := u.marks, pairs := u.pairs
              ctabDue := u.ctabDue }
          ∧ (∃ l m, u.ctabDue = l ++ m ∧ (expired → l = [.expiry a.handle]) ∧ (¬ expired → l = [])
            ∧ (held → m = [.holdEnd a.handle]) ∧ (¬ held → m = []))
          ∧ s.countsFollow u ∧ s.marksMoved u ∧ s.eventsCounted u (moveEvent .switchedForced)
          ∧ (∀ g v, u.record? g = some v → ∃ y, s.record? g = some y ∧ v =
            { (if g = a.handle then z else y) with
              onAir := v.onAir
              fallbackRefs := if x.fallback = now then y.fallbackRefs
                else y.fallbackRefs + (if now = some g then 1 else 0)
                  - (if x.fallback = some g then 1 else 0) })
          ∧ ∀ k, let y := s.slotAt k
            let falls := { y with
              onAir := .substituted, source := now, outgoing := none, deadline := none }
            ((y.planned.map (·.handle) ≠ some a.handle ∨ x.fallback = now) → u.slotAt k = y)
              ∧ (y.planned.map (·.handle) = some a.handle → x.fallback ≠ now →
                (y.onAir = .substituted → y.source = x.fallback →
                    (live a.handle → u.slotAt k = if y.source.all s.onAirFit then { y with
                        onAir := .pending, outgoing := y.source
                        deadline := some ⟨s.uptime, (s.leg (k / 16)).switchWait⟩ }
                      else { y with
                        onAir := .steady, source := some a.handle, outgoing := none, deadline := none })
                      ∧ (¬ live a.handle → (∃ h, now = some h ∧ live h) → u.slotAt k = falls)
                      ∧ (¬ live a.handle → (¬ ∃ h, now = some h ∧ live h) → u.slotAt k = { y with
                        onAir := .slated, source := none, outgoing := none, deadline := none }))
                  ∧ (y.onAir = .slated → ¬ live a.handle → (∃ h, now = some h ∧ live h) →
                    u.slotAt k = falls)
                  ∧ (y.onAir = .slated → (live a.handle ∨ ¬ ∃ h, now = some h ∧ live h) → u.slotAt k = y)
                  ∧ (y.onAir = .substituted → y.source ≠ x.fallback → u.slotAt k = y)
                  ∧ (y.onAir ≠ .substituted → y.onAir ≠ .slated → u.slotAt k = y)))
      ∧ ∀ h x, (s.ws r).edits = [(.retire h, stamp)] → legLaws s = none →
        let p := (Picture.start s).applyEdit 1 (.retire h)
        p.fallbackFailure = none → p.retireFailure = none → s.record? h = some x →
        (x.state = .live ∨ x.state = .lost ∨ x.state = .restoring) → x.fallback ≠ some h →
        ∃ u : State, u.endsCommit run r fl (s.committedWith r 1 0)
          ∧ u = { s with records := u.records, smap := u.smap }
          ∧ (∀ g, g ≠ h → u.record? g = (s.record? g).map fun y =>
            if x.fallback = some g then { y with fallbackRefs := y.fallbackRefs - 1 } else y)
          ∧ (x.onAir = 0 → u.record? h = none ∧ ∀ c, c ∈ u.smap ↔ c ∈ s.smap ∧ c.2.handle ≠ h)
          ∧ (x.onAir ≠ 0 → u.smap = s.smap ∧ u.record? h = some { x with
            state := .retiring, hold := none, fallback := none, silentFlag := decide (x.state = .lost) })

/-- What a commit of one applied UNBIND SLOT or SET LEG writes. An UNBIND SLOT empties its slot, which takes one
from the planned count of its record and from the on-air count of its source, frees a RETIRING source it leaves at
0, makes the range's marks due when a source leaves (the range of the binding it removes, by the model's reading, log
entry 20), and reports a tracked slot that leaves PENDING (taken within the row, log entry 28). A SET LEG writes the
fields it carries, and its change of leg state acts at the output: a directory is built and the period timer
started out of IDLE, the marks of the planned slots' ranges become due into ON_AIR, the buffer is discarded out of
ON_AIR, and into IDLE the due list too, with the timer stopped. Nothing else changes but the end of the batch
(R13, R14, R60, R71, R80, R86, R92, R131, R132; that bits 7 to 5 of the version byte of that directory are 0, and that
1 says that a slot is on air, are the model's choices, log entries 38 and 41). -/
def Obligations.SlotAndLegEditsAreWritten : Prop :=
  ∀ (r : Requester) (s : State) (fl : CommitFlight) (stamp : Nat), s.commitWaits r fl .immediate →
    let run := exec (.commitAct r) s
    let passes := fun e => (s.ws r).edits = [(e, stamp)] ∧ legLaws (s.paint e) = none
      ∧ (Picture.start (s.paint e)).fallbackFailure = none
    (∀ (f i : Nat) (b : Binding), f < 24 → i < 16 → passes (.slot ⟨f, i, none⟩) →
        let x := s.slot f i
        x.planned = some b → x.reserved = none → b.base ≤ 0x1FF7 →
        let freed := fun h => x.source = some h ∧ ∃ y, s.record? h = some y ∧ y.state = .retiring
          ∧ y.onAir ≤ 1
        ∃ u : State, u.endsCommit run r fl (s.committedWith r 1 0)
          ∧ u = { s with
              records := u.records, smap := u.smap, slots := u.slots, marks := u.marks
              reports := if x.onAir = .pending ∧ s.trackers f i ≠ [] then [⟨f, i, s.trackers f i⟩] else [] }
          ∧ (∀ k, u.slotAt k = if k = slotKey f i then ⟨none, .empty, none, none, none, none⟩
            else s.slotAt k)
          ∧ (∀ h, freed h → u.record? h = none)
          ∧ (∀ h, ¬ freed h → u.record? h = (s.record? h).map fun y => { y with
              planned := y.planned - (if b.handle = h then 1 else 0)
              onAir := y.onAir - (if x.source = some h then 1 else 0) })
          ∧ (∀ c, c ∈ u.smap ↔ c ∈ s.smap ∧ ¬ freed c.2.handle)
          ∧ ∀ g q, q < 8192 → (u.mark g q = true ↔ s.mark g q = true
            ∨ (g = f ∧ x.source ≠ none ∧ b.base ≤ q ∧ q < b.base + 8)))
      ∧ ∀ l : LegFields, l.feed < 24 → passes (.setLeg l) →
        (∀ i < 16, ∀ b, (s.slot l.feed i).planned = some b → b.base ≤ 0x1FF7) →
        let f := l.feed
        let old := s.leg f
        let new := { old with
          state := l.state.getD old.state, accept := l.accept.getD old.accept
          capacity := l.capacity.getD old.capacity, streamId := l.streamId.getD old.streamId
          dirPid := l.dirPid.getD old.dirPid, dirPeriod := l.dirPeriod.getD old.dirPeriod
          switchWait := l.switchWait.getD old.switchWait }
        ∃ u : State, u.endsCommit run r fl (s.committedWith r 1 0)
          ∧ u = { s with legs := u.legs, outs := u.outs, counts := u.counts, marks := u.marks }
          ∧ (∀ g, u.leg g = if g = f then new else s.leg g)
          ∧ (old.state = new.state → u.outs = s.outs)
          ∧ (old.state = .onAir → new.state = .muted →
            u.outs = (s.setOut f { s.out f with buffer := [] }).outs)
          ∧ (old.state = .muted → new.state = .onAir → u.outs = s.outs)
          ∧ (old.state ≠ .idle → new.state = .idle →
            u.outs = (s.setOut f { s.out f with buffer := [], due := [], timer := none }).outs)
          ∧ (old.state = .idle → new.state ≠ .idle → { s with legs := u.legs }.directoryBuilt u f)
          ∧ (old.state ≠ .idle ∨ new.state = .idle → u.counts = s.counts)
          ∧ (new.state = .onAir → old.state ≠ .onAir → s.marksDue u f)
          ∧ (new.state ≠ .onAir ∨ old.state = .onAir → u.marks = s.marks)

/-- A DEFERRED commit whose every edit was skipped ends as a commit with nothing applied. With stored edits it
allocates the lowest FREE entry as their original, ARMED with the batch's trigger, its count, and the outermost
tolerance, and, when a return was asked for, the next FREE entry as its return, HELD with the inverse edits of the
slots named, ascending, and the trigger of the return option. The slots are reserved by the original, each BIND
SLOT of either entry is counted on its record, and the outcome is DEFERRED with both entries; no binding, slot
state or source changes, nor anything else but the end of the batch (R15, R70, R133 to R136, R152; that a HELD
return's TIME matcher waits for its time is the model's form, log entry 24). -/
def Obligations.DeferredCommitsArmTheirEntries : Prop :=
  ∀ (r : Requester) (s : State) (fl : CommitFlight) (t : Trigger) (p : Picture) (stored : List SlotEdit),
    s.commitWaits r fl .deferred → (s.ws r).trigger = some t →
    (Picture.start s).walk 1 (s.ws r).edits = .ok p → p.applied = stored.map Edit.slot →
    let w := s.ws r
    let run := exec (.commitAct r) s
    let tolerance := ((w.levels.head?).map (·.tolerance)).getD 0
    let original := fun ret : Option Nat => ({ Entry.start with
      state := .armed, owner := some r, role := some .original, partner := ret, trigger := some t,
      remaining := some t.count, tolerance := some tolerance, edits := stored } : Entry)
    let outcome := fun (o : Nat) (ret : Option Nat) => (⟨.deferred, 0, none, ⟨none, none, none, some o⟩,
      w.depth, stored.length, p.skipped, .deferred, some o, ret⟩ : OutcomeRecord)
    let armed := fun (u : State) (o : Nat) (counted : List SlotEdit) =>
      u = { s with records := u.records, slots := u.slots, entries := u.entries }
        ∧ (∀ k, u.slotAt k = { s.slotAt k with
          reserved := if ∃ d ∈ stored, slotKey d.feed d.slot = k then some o
            else (s.slotAt k).reserved })
        ∧ ∀ h, u.record? h = (s.record? h).map fun x => { x with
          spliceRefs := x.spliceRefs + bindsOf counted h }
    (stored = [] → s.endsCommit run r fl (s.committedWith r 0 p.skipped))
      ∧ (stored ≠ [] → legLaws p.tables = none → ∀ o < 64, (s.entry o).state = .free →
        (∀ d < o, (s.entry d).state ≠ .free) →
        (w.returnOpt = none → stored.length ≤ s.freePlaces →
            ∃ u, u.endsCommit run r fl (outcome o none) ∧ armed u o stored
              ∧ ∀ d, u.entry d = if d = o then original none else s.entry d)
          ∧ ∀ ro n, w.returnOpt = some ro → o < n → n < 64 → (s.entry n).state = .free →
            (∀ d, o < d → d < n → (s.entry d).state ≠ .free) →
            ∀ keys : List Nat, keys.Pairwise (· < ·) →
            (∀ k, k ∈ keys ↔ ∃ d ∈ stored, slotKey d.feed d.slot = k) →
            let inverse := keys.map fun k => (⟨k / 16, k % 16, (s.slotAt k).planned⟩ : SlotEdit)
            stored.length + inverse.length ≤ s.freePlaces →
            let cue := match t.a with
              | .cue input id _ => Matcher.cue input id .inn
              | m => m
            let back : Trigger := match ro.inCue, ro.duration with
              | true, some d => ⟨.orDeadline, cue, some (.timeAfter d), 1⟩
              | false, some d => ⟨.sole, .timeAfter d, none, 1⟩
              | _, none => ⟨.sole, cue, none, 1⟩
            ∃ u, u.endsCommit run r fl (outcome o (some n)) ∧ armed u o (stored ++ inverse)
              ∧ ∀ d, u.entry d = if d = o then original (some n)
                else if d = n then { Entry.start with
                  state := .held, owner := some r, role := some .ret, partner := some o
                  trigger := some back, remaining := some 1, tolerance := some tolerance, edits := inverse }
                else s.entry d)

/-! ### Splice entries, cues and the clock (R34, R35, R138 to R156) -/

/-- CANCEL SPLICE of an entry out of range is refused with BAD_FIELD, of one SITE does not own with
NOT_OWNER, and of one that is FREE or SWITCHING with STATE_REFUSED, and nothing changes. Otherwise the
entry goes to FREE with CANCELLED; so does its HELD partner when it is an original, and its original
loses its partner field when it is a HELD return; the splice reference counts fall by the edits that
end, the slots it reserved are free, and nothing else changes (R15, R70, R156; that an entry never
allocated has no owner is the model's reading, log entry 23). -/
def Obligations.SplicesAreCancelled : Prop :=
  ∀ (e : Nat) (s : State), s.ready → e < 256 →
    let x := s.entry e
    let run := exec (.cancelSplice (requestFrame 0x20#8 (packed [(1, e)]))) s
    let freed := fun y : Entry => { Entry.start with
      owner := y.owner, role := y.role, executedAt := y.executedAt, applied := y.applied,
      skipped := y.skipped, result := .cancelled }
    let dropped := fun (edits : List SlotEdit) (u : State) => ∀ h,
      let n := edits.countP fun d => d.binding.map (·.handle) == some h
      u.record? h = (s.record? h).map fun r => { r with spliceRefs := r.spliceRefs - n }
    let released := fun u : State => ∀ f < 24, ∀ i < 16, u.slot f i
      = if (s.slot f i).reserved = some e then { s.slot f i with reserved := none } else s.slot f i
    let frame := fun u : State => u
      = { s.accepted 1 with records := u.records, slots := u.slots, entries := u.entries }
    (64 ≤ e → run = .next ((s.accepted 1).replied 0x20#8 (.refused .badField)))
      ∧ (e < 64 → x.owner ≠ some .site →
        run = .next ((s.accepted 1).replied 0x20#8 (.refused .notOwner)))
      ∧ (e < 64 → x.owner = some .site → x.state = .free ∨ x.state = .switching →
        run = .next ((s.accepted 1).replied 0x20#8 (.refused .stateRefused)))
      ∧ (e < 64 → x.owner = some .site → x.state = .armed ∨ x.state = .primed →
        (∀ n, x.role = some .original → x.partner = some n → (s.entry n).state ≠ .held) →
        ∃ u, run = .next (u.replied 0x20#8 (.taken [])) ∧ frame u ∧ dropped x.edits u ∧ released u
          ∧ ∀ d, u.entry d = if d = e then freed x else s.entry d)
      ∧ (e < 64 → x.owner = some .site → x.state = .armed ∨ x.state = .primed →
        ∀ n, x.role = some .original → x.partner = some n → (s.entry n).state = .held →
        ∃ u, run = .next (u.replied 0x20#8 (.taken [])) ∧ frame u
          ∧ dropped ((s.entry n).edits ++ x.edits) u ∧ released u
          ∧ ∀ d, u.entry d = if d = e then freed x else if d = n then freed (s.entry n) else s.entry d)
      ∧ (e < 64 → x.owner = some .site → x.state = .held →
        ∃ u, run = .next (u.replied 0x20#8 (.taken [])) ∧ frame u ∧ dropped x.edits u ∧ released u
          ∧ ∀ d, u.entry d = if d = e then freed x
            else if x.partner = some d then { s.entry d with partner := none } else s.entry d)

/-- An occurrence of a matcher that does not complete its entry's trigger counts as the trigger's mode gives:
it lowers the remaining count, and the gate of AFTER and of COUNT_THEN primes the entry. Nothing else changes,
but that a TIME matcher that was due is marked as having occurred, and that a cue that has been reached leaves the
list; a cue that matches both matchers of EITHER counts twice. A TIME matcher that is not due changes nothing
(R144 to R148; the last is the model's choice, log entry 3). -/
def Obligations.OccurrencesAreCounted : Prop :=
  ∀ (e : Nat) (s : State), e < 64 → s.phase ≠ .asserted →
    let x := s.entry e
    (∀ m, let marked := match m with
        | .a => { x with occurredA := true }
        | .b => { x with occurredB := true }
      (s.timeDue e m = false → exec (.timeMatcherOccurs e m) s = .next s)
        ∧ (s.timeDue e m = true → s.reports = [] → ∀ y, marked.counts m y →
          exec (.timeMatcherOccurs e m) s = .next (s.setEntry e y)))
      ∧ (s.spsIdle → ∀ (l r : List Cue) (c : Cue), s.cues = l ++ c :: r →
        (∀ d ∈ l, s.clockReached d.maturity = false) → s.clockReached c.maturity = true →
        (∀ d < 64, d ≠ e → ∀ m, (s.entry d).hearsCue c m = false) →
        (∀ m y, x.hearsCue c m = true → (∀ n, n ≠ m → x.hearsCue c n = false) → x.counts m y →
            exec .cueMatured s = .next ({ s with cues := l ++ r }.setEntry e y))
          ∧ ∀ t n, x.hearsCue c .a = true → x.hearsCue c .b = true → x.trigger = some t →
            t.mode = .either → x.remaining = some (n + 3) →
            exec .cueMatured s
              = .next ({ s with cues := l ++ r }.setEntry e { x with remaining := some (n + 1) }))

/-- An occurrence of a TIME matcher that is due is counted, or completes its entry's trigger and executes the entry
in the same act; a cue that has been reached is offered to the entries that were ARMED or PRIMED as its offer
began, in ascending order, each of which counts it or executes, and a return armed meanwhile is not offered it. An
execution's edits are judged on the picture, with its tolerance, and the leg laws on what they leave; where the
judgement fails the execution fails with its code, and where it passes it writes the applied edits' bindings and
arms the return (R144 to R153; which slots it tracks, and the range marked for a binding that it removes, are the
model's readings, log entries 35 and 20; the ascending order of the slots it reports, and that the TIME matcher of a
return holds its duration until this act, are its choices, log entries 36 and 24). The reports of slots
that left PENDING are then taken, unless a TIME matcher is due, which comes first (R80, R155; that they are taken
within the row is log entry 28's form). -/
def Obligations.CompletedTriggersExecute : Prop :=
  (∀ (e : Nat) (m : MatcherName) (s : State), e < 64 → s.phase ≠ .asserted → s.settled →
      s.timeDue e m = true → ∃ u, (s.setEntry e ((s.entry e).markOccurred m)).occurs u e m
        ∧ exec (.timeMatcherOccurs e m) s = .next u.takeReports)
    ∧ (∀ (c : Cue) (s : State), s.settled → s.cueOffered (s.offerCue c) c)
    ∧ (∀ (l r : List Cue) (c : Cue) (s : State), s.phase ≠ .asserted → s.spsIdle → s.cues = l ++ c :: r →
      (∀ d ∈ l, s.clockReached d.maturity = false) → s.clockReached c.maturity = true →
      exec .cueMatured s = .next (({ s with cues := l ++ r } : State).offerCue c).takeReports)
    ∧ ∀ s : State, s.canonical →
      ((∃ e < 64, ∃ m, s.timeDue e m = true) → s.takeReports = s)
        ∧ ((∀ e m, s.timeDue e m = false) → s.reportsTaken s.takeReports)

/-- A tick moves the station clock on by one, wrapping at 2^33, and a SET STATION TIME writes it; on the clock as
it then stands every cue that has been reached leaves the list and is offered, in list order, and then the TIME
matchers that are due occur, entries ascending and A before B, and the reports that slots left PENDING are taken
(R35, R80, R141, R142, R145). With no cue and no TIME matcher reached nothing else changes. The row of a cue takes
the first of the list that has been reached and does nothing when there is none (that every millisecond timer moves
on with the same tick, that a matcher A which such a cue's gate opens is tested in the same act, that reports are taken
within the row, and that an event not due has no effect, are the model's, log entries 5, 6, 28 and 3; an execution is
as CompletedTriggersExecute states it, with log entries 20, 24, 35 and 36). -/
def Obligations.TicksMoveTheClockAndCuesMature : Prop :=
  (∀ s : State, s.phase ≠ .asserted → s.spsIdle →
    let t := { s with clock := s.clock + 1, uptime := s.uptime + 1 }
    (s.settled → ∃ u, t.clockTested u ∧ exec .stationClockTick s = .next u.takeReports)
      ∧ ((∀ e m, t.timeDue e m = false) → (∀ c ∈ s.cues, t.clockReached c.maturity = false) →
        exec .stationClockTick s = .next t)
      ∧ ((∀ c ∈ s.cues, s.clockReached c.maturity = false) → exec .cueMatured s = .next s)
      ∧ ∀ (l r : List Cue) (c : Cue), s.cues = l ++ c :: r →
        (∀ d ∈ l, s.clockReached d.maturity = false) → s.clockReached c.maturity = true →
        (∀ e < 64, ∀ m, (s.entry e).hearsCue c m = false) →
        exec .cueMatured s = .next { s with cues := l ++ r })
    ∧ ∀ (n : Nat) (s : State), s.ready → s.settled → n < 2 ^ 33 →
      ∃ u, ({ s.accepted 5 with clock := BitVec.ofNat 33 n } : State).clockTested u
        ∧ exec (.setStationTime (requestFrame 0x32#8 (packed [(5, n)]))) s
          = .next (u.takeReports.replied 0x32#8 (.taken []))

/-- A cue that reaches the splice scheduler with a pre-roll takes its place in the list by its remaining
time, behind equal ones, or is dropped and counted by a full list; one without a pre-roll is offered at
once and never listed (R34; the place in a list that SET STATION TIME has put out of order, and that reports are taken
within the row, are the model's readings, log entries 22 and 28). -/
def Obligations.ArrivingCuesAreListed : Prop :=
  ∀ (c : Cue) (s : State), s.spsIdle →
    (c.preRoll = 0 → s.takeCue c = (s.offerCue c).takeReports)
      ∧ (c.preRoll ≠ 0 → 32 ≤ s.cues.length → s.takeCue c = s.setInput c.input
        { s.input c.input with counters := { (s.input c.input).counters with
          cuesDropped := min ((s.input c.input).counters.cuesDropped + 1) (2 ^ 32 - 1) } })
      ∧ (c.preRoll ≠ 0 → s.cues.length < 32 → ∃ l r, s.cues = l ++ r
        ∧ s.takeCue c = { s with cues := l ++ c :: r }
        ∧ (∀ d ∈ l, (d.maturity - s.clock).toNat ≤ (c.maturity - s.clock).toNat)
        ∧ ∀ d, r.head? = some d → (c.maturity - s.clock).toNat < (d.maturity - s.clock).toNat)

/-! ### Attention and counters (R57, R160 to R162, R166, R167) -/

/-- A flag that is clear is set with its detail and ATTN is driven anew; a flag that is set keeps its
first detail. A report adds to every pair of its leg whose mask has the event, in the counter of its
class, by 1 or, for a packet event of a pair that counts bytes, by its payload, up to 2^32-1, and
changes no other pair and nothing else (R160, R162, R166, R167). -/
def Obligations.FlagsAndPairsTakeReports : Prop :=
  (∀ (k : AttKind) (d : Nat) (s : State),
      (∀ c, Table.find? s.attention k.bit = some c → s.raise k d = s)
        ∧ (Table.find? s.attention k.bit = none → ∃ flags,
          s.raise k d = { s with attention := flags, attn := attentionWanted flags s.attMask }
            ∧ Table.find? flags k.bit = some d
            ∧ ∀ b, b ≠ k.bit → Table.find? flags b = Table.find? s.attention b))
    ∧ ∀ (f : Nat) (ev : LegEvent) (c : ProgClass) (bytes : Nat) (s : State), ∃ pairs,
      s.report f ev c bytes = { s with pairs := pairs }
        ∧ ∀ k, let p := s.pair k
          let amount := match p.unit, ev with
            | .bytes, .forwarded | .bytes, .droppedFull | .bytes, .droppedMuted => bytes
            | _, _ => 1
          Table.look (Pair.start k) pairs k
            = if k / 8 = f ∧ p.mask.getLsbD ev.bit = true then
                match c with
                | .network => { p with network := min (p.network + amount) (2 ^ 32 - 1) }
                | .regional => { p with regional := min (p.regional + amount) (2 ^ 32 - 1) }
              else p

/-! ### The source monitor and the on-air counts (R14, R18, R20, R22, R41 to R47) -/

/-- When its silence timer reaches its loss window a LIVE or RESTORING record goes to LOST with both
timers stopped, and a RETIRING record that is not yet silent takes its silent flag; SOURCE_LOST is
raised and the loss handed on (R43). When its hold timer reaches its restore hold a RESTORING record goes
to LIVE, the hold timer stops, SOURCE_RESTORED is raised and the restoration handed on, with the silence
timer running on; with a restore hold of 0 a LOST record goes to LIVE at the first counting packet
(R44). A packet of the principal component restarts the silence timer of a LIVE or RESTORING record,
starts the hold of a LOST one, and clears the silent flag of a RETIRING one (R42). An expiry or a hold's end that a
commit made due comes before any other act of these rows (R46). That timers count
ticks, that an event not due has no effect, and that a silent RETIRING record's timer stops are the
model's readings (log entries 5, 3, 33). -/
def Obligations.TheMonitorFollowsItsSource : Prop :=
  (∀ (h : Nat) (s : State), 1 ≤ h → h ≤ 1023 → s.phase ≠ .asserted →
    let handOn := fun u : State =>
      { u.raise .sourceLost h with notices := u.notices ++ [.loss h] }
    s.ctabDue = [] →
    ((∀ x t, s.record? h = some x → x.silence = some t → s.uptime - t < 90 * x.lossWindow) →
        exec (.lossWindowExpired h) s = .next s)
      ∧ ∀ x t, s.record? h = some x → x.silence = some t → 90 * x.lossWindow ≤ s.uptime - t →
        (x.state = .live ∨ x.state = .restoring →
            exec (.lossWindowExpired h) s
              = .next (handOn (s.setRecord h { x with state := .lost, silence := none, hold := none })))
          ∧ (x.state = .retiring → x.silentFlag = false →
            exec (.lossWindowExpired h) s = .next (handOn (s.setRecord h { x with silentFlag := true })))
          ∧ (x.state = .retiring → x.silentFlag = true →
            exec (.lossWindowExpired h) s = .next (s.setRecord h { x with silence := none }))
          ∧ (x.state = .reserved ∨ x.state = .lost → exec (.lossWindowExpired h) s = .next s))
    ∧ (∀ (c : Instr) (d : DueAct) (rest : List DueAct) (s : State), s.phase ≠ .asserted →
      s.ctabDue = d :: rest →
      (∃ h, 1 ≤ h ∧ h ≤ 1023 ∧ (c = .lossWindowExpired h ∨ c = .restoreHoldEnded h)) ∨ c = .onAirUpdate →
      ∀ g, 1 ≤ g → g ≤ 1023 → let first := match d with
          | .expiry _ => Instr.lossWindowExpired g
          | .holdEnd _ => Instr.restoreHoldEnded g
        d = .expiry g ∨ d = .holdEnd g →
        ∃ t, exec first { s with ctabDue := [] } = .next t ∧ exec c s = exec c { t with ctabDue := rest })
    ∧ (∀ (h : Nat) (s : State), 1 ≤ h → h ≤ 1023 → s.phase ≠ .asserted →
    let handOn := fun u : State =>
      { u.raise .sourceRestored h with notices := u.notices ++ [.restoration h] }
    s.ctabDue = [] →
    (∀ x t, s.record? h = some x → x.state = .restoring → x.hold = some t →
        (90 * x.restoreHold ≤ s.uptime - t →
            exec (.restoreHoldEnded h) s
              = .next (handOn (s.setRecord h { x with state := .live, hold := none })))
          ∧ (s.uptime - t < 90 * x.restoreHold → exec (.restoreHoldEnded h) s = .next s))
      ∧ ∀ x, s.record? h = some x → x.state = .lost → x.restoreHold = 0 →
        s.countPacket h = handOn (s.setRecord h { x with state := .live, silence := some s.uptime }))
    ∧ (∀ (h : Nat) (x : Record) (s : State), s.record? h = some x →
    (x.state = .live ∨ x.state = .restoring →
        s.countPacket h = s.setRecord h { x with silence := some s.uptime })
      ∧ (x.state = .lost → x.restoreHold ≠ 0 →
        s.countPacket h = s.setRecord h
          { x with state := .restoring, silence := some s.uptime, hold := some s.uptime })
      ∧ (x.state = .retiring →
        s.countPacket h = s.setRecord h { x with silence := some s.uptime, silentFlag := false }))

/-- The next on-air update adds one to the new record's on-air count and takes one from the old
record's; a RETIRING old record it leaves at 0 is FREE, with its stream map entries gone. Nothing else
changes (R14, R18, R19; that the row takes the update handed on first, and has no effect without one, are the
model's readings, log entries 29 and 3). -/
def Obligations.OnAirUpdatesMoveTheCounts : Prop :=
  ∀ (u : OnAirUpdate) (rest : List OnAirUpdate) (s : State), s.phase ≠ .asserted → s.ctabDue = [] →
    (s.updates = [] → exec .onAirUpdate s = .next s)
      ∧ (s.updates = u :: rest → ∃ t, exec .onAirUpdate s = .next t
        ∧ t = { s with updates := rest, records := t.records, smap := t.smap }
        ∧ let now := fun (h : Nat) (x : Record) =>
            x.onAir + (if u.new = some h then 1 else 0) - (if u.old = some h then 1 else 0)
          let freed := fun h => u.old = some h ∧ ∃ x, s.record? h = some x ∧ x.state = .retiring
            ∧ now h x = 0
          (∀ h, (freed h → t.record? h = none)
            ∧ (¬ freed h → t.record? h = (s.record? h).map fun x => { x with onAir := now h x }))
          ∧ ∀ c, c ∈ t.smap ↔ c ∈ s.smap ∧ ¬ freed c.2.handle)

/-! ### Slots on air (R44 to R55, R71 to R80) -/

/-- A loss notice moves nothing while its record is on-air fit. Otherwise each slot whose planned record it is goes
from STEADY or PENDING to its usable fallback, else to SLATED; a slot that has it on air as outgoing source or as
fallback is switched at once to its planned record when that is usable, else a PENDING one takes its fallback or
goes SLATED and a SUBSTITUTED one goes SLATED; no other slot moves (R48 to R51). A restoration notice moves nothing
unless its record is usable. Then each slot whose planned record it is goes from SLATED, or with automatic return
from SUBSTITUTED, to PENDING toward it, or at once to STEADY when its source is no longer on-air fit; a SLATED slot
whose planned record is not usable and has it as fallback goes to SUBSTITUTED; no other slot moves (R48, R52, R53,
R74). The moves hand on their on-air updates, make marks due, are counted as leg events, a switch as
SWITCHED_FORCED, and report each tracked slot that leaves PENDING, and nothing else changes (R56, R78 to R80, R86;
the order of the slots is the model's choice, log entry 36, and that the reports are taken within the row is log entry
28's form). That a row takes the notice handed on first, and that
it has no effect when that is none of its kind, are the model's readings (log entries 29 and 3). -/
def Obligations.NoticesMoveTheSlots : Prop :=
  (∀ (X : Nat) (rest : List Notice) (s : State), s.phase ≠ .asserted → s.canonical →
    let off := fun x : Slot =>
      { x with onAir := .slated, source := none, outgoing := none, deadline := none }
    let fallBack := fun (p : Nat) (x : Slot) => match s.usableFallback p with
      | some fb => { x with
          onAir := .substituted, source := some fb, outgoing := none, deadline := none }
      | none => off x
    ((∀ Y more, s.notices ≠ .loss Y :: more) → exec .lossNotice s = .next s)
      ∧ (s.notices = .loss X :: rest → s.onAirFit X = true →
        exec .lossNotice s = .next { s with notices := rest })
      ∧ (s.notices = .loss X :: rest → s.onAirFit X = false → ∃ t, exec .lossNotice s = .next t.takeReports
        ∧ ({ s with notices := rest } : State).slotsMoved t (moveEvent .switchedForced)
        ∧ ∀ k, let x := s.slotAt k
          t.slotAt k = match x.planned with
            | none => x
            | some b =>
              if b.handle = X then
                if x.onAir = .steady ∨ x.onAir = .pending then fallBack X x else x
              else if x.source = some X ∧ (x.onAir = .pending ∨ x.onAir = .substituted) then
                if s.usable b.handle then { x with
                  onAir := .steady, source := some b.handle, outgoing := none, deadline := none }
                else if x.onAir = .pending then fallBack b.handle x
                else off x
              else x))
    ∧ ∀ (X : Nat) (rest : List Notice) (s : State), s.phase ≠ .asserted → s.canonical →
    ((∀ Y more, s.notices ≠ .restoration Y :: more) → exec .restorationNotice s = .next s)
      ∧ (s.notices = .restoration X :: rest → s.usable X = false →
        exec .restorationNotice s = .next { s with notices := rest })
      ∧ (s.notices = .restoration X :: rest → s.usable X = true →
        ∃ t, exec .restorationNotice s = .next t.takeReports
        ∧ ({ s with notices := rest } : State).slotsMoved t (moveEvent .switchedForced)
        ∧ ∀ k, let x := s.slotAt k
          t.slotAt k = match x.planned with
            | none => x
            | some b =>
              if b.handle = X then
                if x.onAir = .slated ∨ (x.onAir = .substituted
                    ∧ ∃ r, s.record? X = some r ∧ r.autoReturn = true) then
                  if x.source.all s.onAirFit then { x with
                    onAir := .pending, outgoing := x.source,
                    deadline := some ⟨s.uptime, (s.leg (k / 16)).switchWait⟩ }
                  else { x with
                    onAir := .steady, source := some X, outgoing := none, deadline := none }
                else x
              else if x.onAir = .slated ∧ s.usable b.handle = false
                  ∧ s.fallbackOf b.handle = some X then { x with
                onAir := .substituted, source := some X, outgoing := none, deadline := none }
              else x)

/-- The switch deadline of a PENDING slot forces the switch to its planned record when that is usable,
else the slot takes its usable fallback or goes SLATED. A deadline that has not been reached, and one of
a slot that is not PENDING, changes nothing (R76; that milliseconds count ticks and that an event not due has no
effect are the model's, log entries 5 and 3). RESUME
SLOT takes a SUBSTITUTED slot whose planned record is LIVE to PENDING, or at once to STEADY when its
source is no longer on-air fit; any other slot is refused with STATE_REFUSED and a feed or slot out of
range with BAD_FIELD (R55, R74). No other slot moves; the move hands on its on-air update, makes its marks due, is
counted as a leg event, a switch as SWITCHED_FORCED, and reports a tracked slot that leaves PENDING, and nothing
else changes (R56, R78 to R80, R86; that the report is taken within the row is log entry 28's form). -/
def Obligations.DeadlinesAndResumesSwitch : Prop :=
  (∀ (f i : Nat) (s : State), f < 24 → i < 16 → s.phase ≠ .asserted →
      let x := s.slot f i
      ((∀ b t, x.onAir = .pending → x.planned = some b → x.deadline = some t →
          s.uptime - t.start < 90 * t.length) → exec (.switchDeadlineExpired f i) s = .next s)
        ∧ ∀ b t, x.onAir = .pending → x.planned = some b → x.deadline = some t →
          90 * t.length ≤ s.uptime - t.start → ∃ u, exec (.switchDeadlineExpired f i) s = .next u.takeReports
            ∧ s.slotsMoved u (moveEvent .switchedForced) ∧ (∀ k, k ≠ slotKey f i → u.slotAt k = s.slotAt k)
            ∧ u.slot f i = { x with
                outgoing := none
                deadline := none
                onAir := if s.usable b.handle then .steady
                  else if (s.usableFallback b.handle).isSome then .substituted else .slated
                source := if s.usable b.handle then some b.handle
                  else s.usableFallback b.handle })
    ∧ ∀ (f i : Nat) (s : State), s.ready → f < 256 → i < 256 →
      let x := s.slot f i
      let run := exec (.resumeSlot (requestFrame 0x21#8 (packed [(1, f), (1, i)]))) s
      let may := x.onAir = .substituted ∧ ∃ b, x.planned = some b ∧ s.usable b.handle = true
      (24 ≤ f ∨ 16 ≤ i → run = .next ((s.accepted 2).replied 0x21#8 (.refused .badField)))
        ∧ (f < 24 → i < 16 → ¬ may →
          run = .next ((s.accepted 2).replied 0x21#8 (.refused .stateRefused)))
        ∧ (f < 24 → i < 16 → may → ∃ u : State, run = .next (u.takeReports.replied 0x21#8 (.taken []))
          ∧ (s.accepted 2).slotsMoved u (moveEvent .switchedForced)
          ∧ (∀ k, k ≠ slotKey f i → u.slotAt k = s.slotAt k)
          ∧ u.slot f i
            = if x.source.all s.onAirFit then { x with
                onAir := .pending, outgoing := x.source,
                deadline := some ⟨s.uptime, (s.leg f).switchWait⟩ }
              else { x with
                onAir := .steady, source := x.planned.map (·.handle), outgoing := none,
                deadline := none })

/-- A switch point of a usable record takes every slot PENDING toward it to STEADY, and moves no other
(R75). Its moves are counted as SWITCHED_CLEAN, hand on their on-air updates, make marks due, and report tracked
slots, which are taken, and nothing else changes (R56, R78 to R80, R86; that the updates and reports come in ascending
order of leg and slot is the model's choice, log entry 36, and that the reports are taken within the row log entry 28's
form). A changed planned binding moves its slot
once: to EMPTY without one; not at all when it still
names the record; to STEADY when the record is usable and on air there; to PENDING when it is usable and
the source is on-air fit or absent, and at once to STEADY when it is not; and to its usable fallback or
SLATED when the record is not usable. A slot reservation stays, the planned counts follow, a changed range of the
same record makes its marks due, and the move hands on what any move does (R13, R71 to R74, R79, R86; that a removed
binding's range is the one marked is the model's reading, log entry 20). -/
def Obligations.SwitchPointsAndBindingsMoveSlots : Prop :=
  (∀ (R : Nat) (s : State),
      (s.sight R false = s) ∧ (s.usable R = false → s.sight R true = s)
        ∧ (s.canonical → s.usable R = true → ∃ u, s.sight R true = u.takeReports
          ∧ s.slotsMoved u (moveEvent .switchedClean) ∧ ∀ k, u.slotAt k
          = let x := s.slotAt k
            if x.onAir = .pending ∧ x.planned.map (·.handle) = some R then { x with
              onAir := .steady, source := some R, outgoing := none, deadline := none }
            else x))
    ∧ ∀ (f i : Nat) (new : Option Binding) (s : State), i < 16 →
      let x := s.slot f i
      (∃ v : State, v = { s with records := v.records } ∧ v.slotsMoved (s.rebind f i new) bindingEvent
          ∧ ∀ h, v.record? h = (s.record? h).map fun r => { r with
            planned := r.planned + (if new.map (·.handle) = some h then 1 else 0)
              - (if x.planned.map (·.handle) = some h then 1 else 0) })
        ∧ (∀ k, k ≠ slotKey f i → (s.rebind f i new).slotAt k = s.slotAt k)
        ∧ (x.planned = new → s.rebind f i new = s)
        ∧ (x.planned ≠ new → (s.rebind f i new).slot f i
          = match new with
            | none => ⟨none, .empty, none, none, none, x.reserved⟩
            | some b =>
              let y := { x with planned := some b }
              if x.planned.map (·.handle) = some b.handle then y
              else if s.usable b.handle then
                if x.source = some b.handle ∨ x.source.all s.onAirFit = false then { y with
                  onAir := .steady, source := some b.handle, outgoing := none, deadline := none }
                else { y with
                  onAir := .pending, outgoing := x.source,
                  deadline := some ⟨s.uptime, (s.leg f).switchWait⟩ }
              else match s.usableFallback b.handle with
                | some fb => { y with
                  onAir := .substituted, source := some fb, outgoing := none, deadline := none }
                | none => { y with
                  onAir := .slated, source := none, outgoing := none, deadline := none })

/-! ### The feed output (R84 to R97) -/

/-- R91: the null packet, and what an opportunity that sends it changes. -/
def Obligations.ANullPacketCountsNothing : Prop :=
  (pktPid nullPacket = 0x1FFF ∧ pktPayload nullPacket = List.replicate 184 0xFF#8
      ∧ pktHasField nullPacket = false ∧ pktHasPayload nullPacket = true
      ∧ pktContinuity nullPacket = 0)
    ∧ ∀ (f : Nat) (s : State), f < 24 → s.phase ≠ .asserted → (s.leg f).state ≠ .idle →
      (s.out f).due = [] → (s.out f).buffer = [] →
      exec (.outputOpportunity f) s
        = .next (s.setOut f { s.out f with line := some nullPacket })

/-- At an output opportunity a leg sends its first due directory packet, or else the head of its buffer,
which leaves it; a copy sent is reported as FORWARDED with its class and payload bytes, a preface is
not. An IDLE leg makes no opportunity (R89, R90; that the event then has no effect is the model's choice,
log entry 25). -/
def Obligations.AnOpportunitySendsOnePacket : Prop :=
  ∀ (f : Nat) (s : State), f < 24 → s.phase ≠ .asserted →
    let o := s.out f
    ((s.leg f).state = .idle → exec (.outputOpportunity f) s = .next s)
      ∧ ((s.leg f).state ≠ .idle →
        (∀ p rest, o.due = p :: rest → exec (.outputOpportunity f) s
            = .next (s.setOut f { o with due := rest, line := some p }))
          ∧ ∀ b rest, o.due = [] → o.buffer = b :: rest →
            let t := s.setOut f { o with buffer := rest, line := some b.bytes }
            (b.preface = true → exec (.outputOpportunity f) s = .next t)
              ∧ (b.preface = false →
                exec (.outputOpportunity f) s = .next (t.report f .forwarded b.cls b.payload)))

/-- When a leg's directory period has run out its directory is built and the timer starts again with the
period as it stands: the content becomes the last built content, the version advances by 1 modulo 32
when the content has changed, the directory's packets, of 188 bytes each on the directory PID with
continuity counts that go on from the PID's next count, join the due list, and nothing else changes. Their
payloads are a pointer byte 0 and the directory with its CRC-32, filled up with 0xFF (R93, R96, R97). The
directory holds the stream id and one entry for each planned slot, in slot order: the output programme number,
whether the slot is on air, and the components of the record it lists, each on the slot's PID base plus its
index (R94, R95). Before the period has run out nothing happens (that milliseconds count ticks, and the last, are
the model's, log entries 5 and 3; that 1 says that a slot is on air and that bits 7 to 5 of the version byte are 0
are its choices, log entries 41 and 38). -/
def Obligations.ADirectoryIsBuiltEachPeriod : Prop :=
  (∀ (f : Nat) (s : State), f < 24 → s.phase ≠ .asserted →
      let o := s.out f
      ((∀ t, o.timer = some t → s.uptime - t.start < 90 * t.length) →
          exec (.directoryPeriodExpired f) s = .next s)
        ∧ ∀ t, o.timer = some t → 90 * t.length ≤ s.uptime - t.start →
          ∃ u, exec (.directoryPeriodExpired f) s = .next u ∧ s.directoryBuilt u f
            ∧ u = { s with outs := u.outs, counts := u.counts })
    ∧ ∀ (f : Nat) (s : State),
      let shown := (s.leg f).state = .onAir
      let listed := fun (x : Slot) (b : Binding) => match x.source with
        | some h => if shown ∧ (x.onAir = .pending ∨ x.onAir = .substituted) then h else b.handle
        | none => b.handle
      (s.directoryOf f).streamId = (s.leg f).streamId
        ∧ ∃ keys : List Nat, keys.Pairwise (· < ·)
          ∧ (∀ i, i ∈ keys ↔ i < 16 ∧ (s.slot f i).planned ≠ none)
          ∧ (s.directoryOf f).entries.length = keys.length
          ∧ ∀ (n i : Nat) (b : Binding), keys[n]? = some i → (s.slot f i).planned = some b →
            ∃ d, (s.directoryOf f).entries[n]? = some d ∧ d.programme = b.programme
              ∧ (d.on = true ↔ shown ∧ (s.slot f i).onAir ≠ .slated)
              ∧ ∀ k, d.components[k]? = ((s.record? (listed (s.slot f i) b)).bind fun x =>
                x.components[k]?).map fun c => (⟨b.base + k, c.kind⟩ : Component)

/-- A packet of a record is copied for every slot that has the record on air under a planned binding, legs in
order and slots in order, each on its PID base plus the component's index. On an ON_AIR leg the copy is offered
to its buffer, on a MUTED leg DROPPED_MUTED is reported with the record's class and the packet's payload bytes,
and on an IDLE leg nothing happens (R83). The payload bytes are 184 less the adaptation field with its length
byte, 0 without a payload, and never more than 184 (R84, R162; what a field longer than the packet leaves is a
free value, log entry 34). -/
def Obligations.EverySlotOnAirGetsItsCopy : Prop :=
  (∀ (R k : Nat) (c : ProgClass) (p : List Byte) (s : State), s.canonical → ∀ keys : List Nat,
      keys.Pairwise (· < ·) →
      (∀ n, n ∈ keys ↔ (s.slotAt n).source = some R ∧ (s.slotAt n).planned ≠ none) →
      s.makeCopies R k c p = keys.foldl (fun t n =>
        t.copyTo (n / 16) (((s.slotAt n).planned.map (·.base)).getD 0 + k) c p) s)
    ∧ (∀ (f q : Nat) (c : ProgClass) (p : List Byte) (s : State),
      ((s.leg f).state = .onAir → s.copyTo f q c p = s.offer f q c p)
        ∧ ((s.leg f).state = .muted → s.copyTo f q c p = s.report f .droppedMuted c (pktPayloadBytes p))
        ∧ ((s.leg f).state = .idle → s.copyTo f q c p = s))
    ∧ ∀ p : List Byte, pktPayloadBytes p ≤ 184
      ∧ (pktHasPayload p = false → pktPayloadBytes p = 0)
      ∧ (pktHasPayload p = true → pktHasField p = false → pktPayloadBytes p = 184)
      ∧ (pktHasPayload p = true → pktHasField p = true → (byteAt p 4).toNat ≤ 183 →
        pktPayloadBytes p = 184 - (1 + (byteAt p 4).toNat))

/-- A copy offered to a leg's buffer enters at its end when there is room for it, and for its preface
when its mark is due and it has no room for the flag; the mark is then not due, and a payload takes the
next count. A full buffer drops it, reports DROPPED_FULL, and takes no count. The copy has the output
PID, the regenerated continuity count and the discontinuity flag where it was marked, and is the source
packet in every other bit (R84, R85, R87, R88). A preface packet has the output PID, its count, an adaptation field
of length 183 with the discontinuity flag alone, then 0xFF, no payload and no other flag (R87, R185; that bit 5 of
byte 1 and bits 7 and 6 of byte 3 are 0 is the model's choice, log entry 38). -/
def Obligations.CopiesEnterTheBuffer : Prop :=
  (∀ (f q : Nat) (c : ProgClass) (p : List Byte) (s : State),
      let o := s.out f
      let inPlace := s.mark f q && decide (1 ≤ pktFieldLength p)
      let preface : List Buffered :=
        if s.mark f q = true ∧ pktFieldLength p = 0 then
          [⟨prefacePacket q ((s.count f q + 15) % 16), true, c, 0⟩] else []
      let copy : Buffered := ⟨copyOf p q (s.count f q) inPlace, false, c, pktPayloadBytes p⟩
      (o.buffer.length + preface.length + 1 ≤ 128 →
          let t := s.setOut f { o with buffer := o.buffer ++ preface ++ [copy] }
          s.offer f q c p
            = (if pktHasPayload p then t.setCount f q ((s.count f q + 1) % 16) else t).setMark f q false)
        ∧ (128 < o.buffer.length + preface.length + 1 →
          s.offer f q c p = s.report f .droppedFull c (pktPayloadBytes p)))
    ∧ (∀ q n : Nat, q < 8192 → n < 16 → let y := prefacePacket q n
      y = [0x47#8] ++ bytesOf 2 q ++ [BitVec.ofNat 8 (0x20 + n), 183#8, 0x80#8] ++ List.replicate 182 0xFF#8
        ∧ y.length = 188 ∧ pktPid y = q ∧ pktContinuity y = n ∧ pktHasField y = true ∧ pktHasPayload y = false
        ∧ pktFieldLength y = 183 ∧ pktDiscontinuity y = true ∧ pktRandomAccess y = false
        ∧ pktError y = false ∧ pktPayloadStart y = false)
    ∧ ∀ (p : List Byte) (q n : Nat) (flag : Bool), p.length = 188 → q < 8192 → n < 16 →
      (flag = true → 1 ≤ pktFieldLength p) →
      let y := copyOf p q n flag
      y.length = 188 ∧ pktPid y = q
        ∧ pktContinuity y = (if pktHasPayload p then n else (n + 15) % 16)
        ∧ pktDiscontinuity y = (flag || pktDiscontinuity p)
        ∧ pktError y = pktError p ∧ pktPayloadStart y = pktPayloadStart p
        ∧ (byteAt y 1).getLsbD 5 = (byteAt p 1).getLsbD 5
        ∧ byteAt y 3 >>> 4 = byteAt p 3 >>> 4
        ∧ (∀ b < 7, (byteAt y 5).getLsbD b = (byteAt p 5).getLsbD b)
        ∧ (flag = false → byteAt y 5 = byteAt p 5)
        ∧ ∀ k, k ≠ 1 → k ≠ 2 → k ≠ 3 → k ≠ 5 → byteAt y k = byteAt p k

/-! ### The inputs (R25, R29 to R33, R39) -/

/-- A LOCKED input notes the first missing sync byte and discards its 188 bytes; the second in a row sends it to
SEARCH, counts a sync loss, and the search starts from the byte after the missing position. An enabled input in
SEARCH goes to LOCKED with the third sync byte at 188-byte spacing, the first that the bytes give, and the stream map
then forgets the input's continuity counts when a sync loss came before. While no three such bytes have come it rests
on the oldest candidate that no byte has given up: a candidate whose second or third expected position holds another
byte is given up, and the search goes on from the byte after it. A disabled input examines nothing, and a LOCKED one
no bytes of a search (R29, R30; that the rows carry the bytes, that both rows examine them, and that what follows the
locking byte is left to the next row, are the model's form, log entries 9 and 10). The law of an input, which every
step keeps, says where the search may stand. -/
def Obligations.InputsFindAndLoseSync : Prop :=
  ∀ (i : Nat) (s : State), i < 8 → s.phase ≠ .asserted →
    let x := s.input i
    (∀ bytes : List Byte, bytes.length = 188 → bytes.head? ≠ some 0x47#8 →
        (x.enabled = false ∨ x.sync = .search → exec (.missingSyncByte ⟨i, bytes⟩) s = .next s)
          ∧ (x.enabled = true → x.sync = .locked → x.miss = false →
            exec (.missingSyncByte ⟨i, bytes⟩) s = .next (s.setInput i { x with miss := true }))
          ∧ (x.enabled = true → x.sync = .locked → x.miss = true → ∃ w, restsOn w bytes.tail ∧
            exec (.missingSyncByte ⟨i, bytes⟩) s = .next (s.setInput i { x with
              sync := .search, miss := false, lost := true, window := w,
              counters := { x.counters with
                syncLosses := min (x.counters.syncLosses + 1) (2 ^ 32 - 1) } })))
      ∧ (∀ bytes, x.enabled = false ∨ x.sync = .locked →
        exec (.syncAcquired i bytes) s = .next s
          ∧ exec (.syncCandidateGivenUp i bytes) s = .next s)
      ∧ ∀ bytes : List Byte, x.enabled = true → x.sync = .search → x.law →
        let seen := x.window ++ bytes
        let both := fun t : State => exec (.syncAcquired i bytes) s = .next t
          ∧ exec (.syncCandidateGivenUp i bytes) s = .next t
        let third := ∃ k, seen[k]? = some 0x47#8 ∧ seen[k + 188]? = some 0x47#8 ∧ seen[k + 376]? = some 0x47#8
        (third → ∃ smap,
            both { s.setInput i { x with sync := .locked, lost := false, window := [] } with smap := smap }
              ∧ (x.lost = false → smap = s.smap)
              ∧ (x.lost = true → smap = s.smap.map fun c =>
                if c.1 / 8192 = i then (c.1, { c.2 with lastCount := none }) else c))
          ∧ (¬ third → ∃ w, restsOn w seen ∧ both (s.setInput i { x with window := w }))

/-- A packet of a LOCKED input is counted as received and sorted: an errored one is dropped and counted,
whatever its PID; the null PID is discarded; and one that is on neither the cue PID nor the command PID
and has no ACTIVE stream map entry is dropped and counted as unmapped. A miss is cleared. A disabled
input and one in SEARCH deliver nothing (R30, R31, R39). -/
def Obligations.PacketsAreSorted : Prop :=
  ∀ (i : Nat) (q : List Byte) (s : State), i < 8 → s.phase ≠ .asserted → q.length = 187 →
    let p := 0x47#8 :: q
    let run := exec (.packetReceived i 0x47#8 q) s
    let x := s.input i
    let c := x.counters
    let up := fun n => min (n + 1) (2 ^ 32 - 1)
    (x.enabled = false ∨ x.sync = .search → run = .next s)
      ∧ (x.enabled = true → x.sync = .locked →
        (pktError p = true → run = .next (s.setInput i { x with
            miss := false, counters := { c with received := up c.received, errored := up c.errored } }))
          ∧ (pktError p = false → pktPid p = 0x1FFF → run = .next (s.setInput i { x with
              miss := false, counters := { c with received := up c.received } }))
          ∧ (pktError p = false → pktPid p ≠ 0x1FFF → x.cuePid ≠ some (pktPid p) →
            (x.bearing = false ∨ x.commandPid ≠ pktPid p) →
            (∀ m, Table.find? s.smap (pidKey i (pktPid p)) = some m → m.active = false) →
            run = .next (s.setInput i { x with
              miss := false
              counters := { c with received := up c.received, unmapped := up c.unmapped } })))

/-- A packet matched to a record goes through the tables in one step. A continuity error is counted on its input
and the count kept as the entry's last. The carriage table sets the record's hit marker, completes its armed probe
with the station clock as the packet's arrival time, the component, the continuity count and the flags, raising
PROBE_DONE, and takes a packet of component 0 through the monitor (`countPacket`, stated with the monitor). The feed
leg table then sights it, as a switch point when it is on component 0 and shows random access, or a payload start
where that component is not video; and its copies are made (R5, R20, R22, R25, R39, R42, R44, R75, R83, R141; that
the step is the whole packet is the model's form, log entry 8). -/
def Obligations.MatchedPacketsReachTheSlots : Prop :=
  ∀ (i : Nat) (q : List Byte) (m : MapEntry) (r : Record) (s : State), i < 8 →
    s.phase ≠ .asserted → s.ctabDue = [] → q.length = 187 →
    let p := 0x47#8 :: q
    let x := s.input i
    let c := x.counters
    x.enabled = true → x.sync = .locked → pktError p = false → pktPid p ≠ 0x1FFF →
    x.cuePid ≠ some (pktPid p) → (x.bearing = false ∨ x.commandPid ≠ pktPid p) →
    Table.find? s.smap (pidKey i (pktPid p)) = some m → m.active = true →
    s.record? m.handle = some r →
    let up := fun n => min (n + 1) (2 ^ 32 - 1)
    let broken := pktHasPayload p = true ∧ pktDiscontinuity p = false
      ∧ ∃ n, m.lastCount = some n ∧ pktContinuity p ≠ n ∧ pktContinuity p ≠ (n + 1) % 16
    let noted := { r with
      hit := true, armed := false
      probe := if r.armed then some ⟨s.clock, m.index, pktContinuity p, pktRandomAccess p,
        pktPayloadStart p⟩ else r.probe }
    ∃ (v : State) (n : Nat) (point : Bool),
      v = { s with inputs := v.inputs, smap := v.smap }
        ∧ (∀ j, v.input j = if j = i then { x with
            miss := false, counters := { c with received := up c.received, continuity := n } }
          else s.input j)
        ∧ (broken → n = up c.continuity) ∧ (¬ broken → n = c.continuity)
        ∧ (∀ k, Table.find? v.smap k = if k = pidKey i (pktPid p) ∧ pktHasPayload p = true then
            some { m with lastCount := some (pktContinuity p) } else Table.find? s.smap k)
        ∧ (point = true ↔ m.index = 0 ∧ ∃ c rest, r.components = c :: rest
          ∧ (if c.kind = .video then pktRandomAccess p else pktPayloadStart p) = true)
        ∧ let w := v.setRecord m.handle noted
          let w := if r.armed then w.raise .probeDone m.handle else w
          let w := if m.index = 0 then w.countPacket m.handle else w
          exec (.packetReceived i 0x47#8 q) s
            = .next ((w.sight m.handle point).makeCopies m.handle m.index r.cls p)

/-! ### Cue packets, the network command queue and the relay mailbox (R32 to R34, R174 to R176, R184) -/

/-- A packet with a payload on the cue PID that spells a cue message is counted and its cue, arrived at the
station clock as it stands at the step of the whole packet (the model's reading, log entry 8), reaches the splice
scheduler; one that spells none is dropped and counted. One on
the command PID of a command-bearing input enters the queue at its tail and is counted; a full queue drops it
and raises NETWORK_QUEUE_FULL with the input; one that spells no command is dropped and counted. Neither
counts a packet without a payload. A payload-start packet whose payload is 0xC1, a kind, an id, a pre-roll and
a programme number, then their CRC-16, spells that cue, maturing at its arrival plus the pre-roll; one of
0xC6, a sequence number, a length of 1..177, that many bytes and the CRC-16 from the sequence number on spells
that command; another kind, length or check spells none, and so do a packet without a payload start, another tag and
a payload too short for the message (R25, R32, R33, R141, R174, R184). -/
def Obligations.CueAndCommandPacketsAreTaken : Prop :=
  (∀ (i : Nat) (q : List Byte) (s : State), i < 8 → s.phase ≠ .asserted → q.length = 187 →
    let p := 0x47#8 :: q
    let run := exec (.packetReceived i 0x47#8 q) s
    let x := s.input i
    let k := x.counters
    let up := fun n => min (n + 1) (2 ^ 32 - 1)
    x.enabled = true → x.sync = .locked → pktError p = false → pktPid p ≠ 0x1FFF →
    let got := { x with miss := false, counters := { k with received := up k.received } }
    (x.cuePid = some (pktPid p) ∨ (x.bearing = true ∧ x.commandPid = pktPid p) →
        pktHasPayload p = false → run = .next (s.setInput i got))
      ∧ (x.cuePid = some (pktPid p) → pktHasPayload p = true →
        (cueOf i s.clock p = none → run = .next (s.setInput i { got with
            counters := { got.counters with cuesDropped := up k.cuesDropped } }))
          ∧ ∀ c, cueOf i s.clock p = some c → run = .next ((s.setInput i { got with
            counters := { got.counters with cuesReceived := up k.cuesReceived } }).takeCue c))
      ∧ (x.cuePid ≠ some (pktPid p) → x.bearing = true → x.commandPid = pktPid p →
        pktHasPayload p = true →
        let taken := s.setInput i { got with
          counters := { got.counters with commandsTaken := up k.commandsTaken } }
        let dropped := s.setInput i { got with
          counters := { got.counters with commandsDropped := up k.commandsDropped } }
        (commandOf i p = none → run = .next dropped)
          ∧ ∀ c, commandOf i p = some c →
            (s.netQueue.length < 8 → run = .next { taken with netQueue := s.netQueue ++ [c] })
              ∧ (8 ≤ s.netQueue.length → run = .next (dropped.raise .networkQueueFull i))))
    ∧ (∀ (i kind id preRoll programme crc : Nat) (t : StationTime) (p fill : List Byte), kind < 256 →
      id < 2 ^ 32 → preRoll < 2 ^ 32 → programme < 65536 → crc < 65536 → pktPayloadStart p = true →
      let message := packed [(1, 0xC1), (1, kind), (4, id), (4, preRoll), (2, programme)]
      pktPayload p = message ++ bytesOf 2 crc ++ fill →
      cueOf i t p = if kind < 2 ∧ crc = (crc16 message).toNat then
          some ⟨i, BitVec.ofNat 32 id, if kind = 0 then .out else .inn, preRoll, t,
            t + BitVec.ofNat 33 preRoll⟩
        else none)
    ∧ (∀ (i : Nat) (t : StationTime) (p : List Byte),
      (pktPayloadStart p = false ∨ (pktPayload p).head? ≠ some 0xC1#8 ∨ (pktPayload p).length < 14 →
          cueOf i t p = none)
        ∧ (pktPayloadStart p = false ∨ (pktPayload p).head? ≠ some 0xC6#8 ∨ (pktPayload p).length < 8 →
          commandOf i p = none))
    ∧ (∀ (i seq len : Nat) (p rest : List Byte), seq < 65536 → len < 65536 →
      pktPayload p = [0xC6#8] ++ packed [(2, seq), (2, len)] ++ rest →
      len = 0 ∨ 177 < len ∨ rest.length < len + 2 → commandOf i p = none)
    ∧ ∀ (i seq crc : Nat) (body p fill : List Byte), seq < 65536 → crc < 65536 → 1 ≤ body.length →
      body.length ≤ 177 → pktPayloadStart p = true →
      let checked := packed [(2, seq), (2, body.length)] ++ body
      pktPayload p = [0xC6#8] ++ checked ++ bytesOf 2 crc ++ fill →
      commandOf i p = if crc = (crc16 checked).toNat then some ⟨seq, i, body⟩ else none

/-- The head of the queue waits while NETWORK has a request in flight and, with the relay enabled, while a posting is
unread (R175); while it waits, and with an empty queue, nothing happens (the model's choice, log entry 3). Taken,
it leaves the queue: a kind the part does not know is answered UNKNOWN REQUEST, a kind that only SITE may send is
refused with NOT_PERMITTED, and a QUERY CARRIAGE is answered TAKEN with the code that the slots give, or refused
with BAD_FIELD for a handle outside 1..1023 and for parameters of another length (R173, R175, R179). The answer is
posted, unread, with the command's sequence number and input and RELAY_WAITING raised, while the relay is enabled,
and otherwise discarded (R176). -/
def Obligations.TheQueueHeadIsAnswered : Prop :=
  (∀ s : State, s.phase ≠ .asserted →
      s.netQueue = [] ∨ s.netFlight ≠ none ∨ (s.relayOn = true ∧ s.mailbox.unread = true) →
      exec .queueHeadTaken s = .next s)
    ∧ ∀ (s : State) (c : Command) (rest : List Command) (kind : Byte) (p : List Byte),
      s.networkReady c rest kind p →
      let run := exec .queueHeadTaken s
      (kind.toNat ∉ catalogue →
          run = .next (({ s with netQueue := rest } : State).posted c.seq c.input kind
            ⟨.unknownRequest, 0, []⟩))
        ∧ ((kind.toNat = 0x22 ∨ (0x30 ≤ kind.toNat ∧ kind.toNat ≤ 0x37)
            ∨ (0x40 ≤ kind.toNat ∧ kind.toNat ≤ 0x48) ∨ kind.toNat = 0x4A ∨ kind.toNat = 0x4B
            ∨ kind.toNat = 0x7F) →
          run = .next ((s.begun c rest kind).networkReplied c kind (.refused .notPermitted)))
        ∧ (kind = 0x49#8 → p.length ≠ 5 ∨ (∃ (h : Nat) (feeds : FeedSet), h < 65536 ∧ (h = 0 ∨ 1024 ≤ h)
            ∧ p = packed [(2, h), (3, feeds.toNat)]) →
          run = .next ((s.begun c rest kind).networkReplied c kind (.refused .badField)))
        ∧ ∀ (h : Nat) (feeds : FeedSet), 1 ≤ h → h ≤ 1023 → kind = 0x49#8 →
          p = packed [(2, h), (3, feeds.toNat)] → ∃ code, s.carriageCode h feeds code
            ∧ run = .next ((s.begun c rest kind).networkReplied c kind (.taken (packed [(1, code)])))

/-- NETWORK's batch runs as SITE's does, on its own workspace, and its answers are posted. OPEN BATCH claims legs
of its zones, or is refused, with BAD_FIELD when its fields are out of range; at depth 1 to 3 it adds a level, or
aborts the batch with BAD_FIELD, and at depth 4 it aborts it with DEPTH_EXCEEDED; CLOSE BATCH at depth 1 leaves its
request in flight with the commit; ABANDON BATCH ends the batch, and so does an edit, with the code of the first check
that it fails; an edit that passes its checks joins it with its stamp, and a CREATE RECORD reserves a record of NETWORK
with its stream map entries; an APPLY comes to what SITE's does, on NETWORK's workspace and zones (R62, R102, R104,
R105, R106, R111 to R116, R175). That bytes which spell no OPEN BATCH count as out of range, and that a CLOSE BATCH
with parameters and an ABANDON BATCH with other than one byte are refused with BAD_FIELD, are the model's choices (log
entry 12), and so are the body of a refused APPLY (log entry 14) and, with 64 edits held, the failing index 65 of an
edit, outside the range 1..64, and the subject of an AMEND RECORD whose two handles fail one check (log entry 15). -/
def Obligations.NetworkBatchesRunAsSites : Prop :=
  ∀ (s : State) (c : Command) (rest : List Command) (kind : Byte) (p : List Byte),
    s.networkReady c rest kind p → s.ctabDue = [] → s.canonical →
    let t := s.begun c rest kind
    let w := t.netWs
    let run := exec .queueHeadTaken s
    let answers := fun (u : State) (a : Answer) => run = .next (u.networkReplied c kind a)
    let aborts := fun code index subject => ∃ u, t.batchAborted u .network code index subject
      ∧ answers u (.ended [] (u.outcome .network))
    (kind = 0x01#8 → w.depth = 0 → ∀ l b, parseOpen p = some ⟨some l, some b⟩ →
        let barred := fun f => b.claims.getLsbD f = true ∧ (s.leg f).zone = .site
        let held := fun f => b.claims.getLsbD f = true ∧ (s.leg f).claim ≠ none
        ((∀ f < 24, ¬ barred f ∧ ¬ held f) → ∃ legs, answers { t with
              netWs := ⟨1, [l], b.mode, b.trigger, b.returnOpt, b.claims, [], [], [], 0, some s.uptime,
                none⟩
              legs := legs } (.taken [])
            ∧ ∀ f, Table.look (Leg.start f) legs f
              = if b.claims.getLsbD f then { s.leg f with claim := some .network } else s.leg f)
          ∧ (∀ f < 24, barred f → (∀ g < f, ¬ barred g) → answers t (.refusedAt .zoneRefused f))
          ∧ ((∀ f < 24, ¬ barred f) → ∀ f < 24, held f → (∀ g < f, ¬ held g) →
            answers t (.refusedAt .claimed f)))
      ∧ (kind = 0x01#8 → w.depth = 0 → (∀ l b, parseOpen p ≠ some ⟨some l, some b⟩) →
        answers t (.refused .badField))
      ∧ (kind = 0x01#8 → 1 ≤ w.depth →
        (w.depth < 4 → ∀ l b, parseOpen p = some ⟨some l, b⟩ → answers { t with
            netWs := { w with depth := w.depth + 1, levels := w.levels ++ [l] } } (.taken []))
          ∧ (w.depth < 4 → (∀ l b, parseOpen p ≠ some ⟨some l, b⟩) → aborts .badField none .none)
          ∧ (4 ≤ w.depth → aborts .depthExceeded none .none))
      ∧ (kind = 0x02#8 → (w.depth = 0 → answers t (.refused .noBatch))
        ∧ (1 ≤ w.depth → p ≠ [] → answers t (.refused .badField))
        ∧ (w.depth = 1 → p = [] → run
          = .next { t with netWs := { w with idle := none, flight := some ⟨0x02#8, []⟩ } })
        ∧ (2 ≤ w.depth → p = [] → answers { t with
            netWs := { w with depth := w.depth - 1, levels := w.levels.dropLast } } (.taken [])))
      ∧ (kind = 0x03#8 → (w.depth = 0 → answers t (.refused .noBatch))
        ∧ (1 ≤ w.depth → p.length ≠ 1 → answers t (.refused .badField))
        ∧ (1 ≤ w.depth → ∀ n < 32, p = packed [(1, n)] → answers t (.refused .badField))
        ∧ (1 ≤ w.depth → ∀ n < 256, p = packed [(1, n)] → 32 ≤ n → ∃ u, t.batchEnded u .network
            ⟨.abandoned, n, none, .none, w.depth, 0, 0, w.mode, none, none⟩
          ∧ answers u (.ended [] (u.outcome .network))))
      ∧ (∀ row ∈ editRows, kind = row.1 → (w.depth = 0 → answers t (.refused .noBatch))
        ∧ (1 ≤ w.depth → parseEdit kind.toNat p = none → aborts .badField (w.failsAt .badField) .none)
        ∧ (1 ≤ w.depth → ∀ e, parseEdit kind.toNat p = some e →
          (∀ code x, t.failsArrival .network false e code x → aborts code (w.failsAt code) x)
            ∧ ∀ h u, t.joins u .network false e h →
              ∃ v, t.joins v .network false e h
                ∧ answers v (.taken (if kind = 0x10#8 then bytesOf 2 h else []))))
      ∧ (kind = 0x04#8 → t.applies .network p answers fun u => run = .next u)

/-- NETWORK may cancel its own splice entries only: another's is refused with NOT_OWNER, and one that is FREE or
SWITCHING with STATE_REFUSED. Otherwise the entry goes to FREE with CANCELLED; so does its HELD partner when it is
an original, and its original loses its partner field when it is a HELD return; the references of the edits that
end are given up and the slots it reserved are free (R15, R70, R156; that an entry never allocated has no owner is
the model's reading, log entry 23). It may resume the slots of legs outside the SITE zone only, with NOT_PERMITTED
on the others; there a SUBSTITUTED slot whose planned record is LIVE goes to PENDING, or at once to STEADY, with
all that the move hands on (R55, R56, R74, R78 to R80, R86; its report is taken within the row, log entry 28), and
any other slot is refused with STATE_REFUSED. An entry, feed or slot out of range, and parameters of another
length, are refused with BAD_FIELD. The answers are posted (R175, R176). -/
def Obligations.NetworkCancelsAndResumesItsOwn : Prop :=
  ∀ (s : State) (c : Command) (rest : List Command) (kind : Byte) (p : List Byte),
    s.networkReady c rest kind p → s.spsIdle → s.ctabDue = [] →
    let t := s.begun c rest kind
    let answers := fun (u : State) (a : Answer) =>
      exec .queueHeadTaken s = .next (u.networkReplied c kind a)
    (kind = 0x20#8 → (p.length ≠ 1 ∨ (∃ e < 256, 64 ≤ e ∧ p = packed [(1, e)]) →
        answers t (.refused .badField))
      ∧ ∀ e < 64, p = packed [(1, e)] →
        let x := s.entry e
        let cancels := fun (edits : List SlotEdit) (left : Nat → Entry) => ∃ u : State, answers u (.taken [])
          ∧ u = { t with records := u.records, slots := u.slots, entries := u.entries }
          ∧ (∀ d, u.entry d = left d)
          ∧ (∀ h, u.record? h = (s.record? h).map fun r => { r with
            spliceRefs := r.spliceRefs - bindsOf edits h })
          ∧ ∀ f < 24, ∀ i < 16, u.slot f i
            = if (s.slot f i).reserved = some e then { s.slot f i with reserved := none } else s.slot f i
        (x.owner ≠ some .network → answers t (.refused .notOwner))
          ∧ (x.owner = some .network → x.state = .free ∨ x.state = .switching →
            answers t (.refused .stateRefused))
          ∧ (x.owner = some .network → x.state = .armed ∨ x.state = .primed →
            (∀ n, x.role = some .original → x.partner = some n → (s.entry n).state ≠ .held) →
            cancels x.edits fun d => if d = e then x.ended .cancelled none else s.entry d)
          ∧ (x.owner = some .network → x.state = .armed ∨ x.state = .primed →
            ∀ n, x.role = some .original → x.partner = some n → (s.entry n).state = .held →
            cancels ((s.entry n).edits ++ x.edits) fun d => if d = e then x.ended .cancelled none
              else if d = n then (s.entry n).ended .cancelled none else s.entry d)
          ∧ (x.owner = some .network → x.state = .held →
            cancels x.edits fun d => if d = e then x.ended .cancelled none
              else if x.partner = some d then { s.entry d with partner := none } else s.entry d))
      ∧ (kind = 0x21#8 → p.length ≠ 2 ∨ (∃ f < 256, ∃ i < 256, (24 ≤ f ∨ 16 ≤ i) ∧ p = packed [(1, f), (1, i)]) →
        answers t (.refused .badField))
      ∧ (kind = 0x21#8 → ∀ f < 24, ∀ i < 16, p = packed [(1, f), (1, i)] →
        let x := s.slot f i
        let may := x.onAir = .substituted ∧ ∃ b, x.planned = some b ∧ s.usable b.handle = true
        ((s.leg f).zone = .site → answers t (.refused .notPermitted))
          ∧ ((s.leg f).zone ≠ .site → ¬ may → answers t (.refused .stateRefused))
          ∧ ((s.leg f).zone ≠ .site → may → ∃ u : State, answers u.takeReports (.taken [])
            ∧ t.slotsMoved u (moveEvent .switchedForced)
            ∧ (∀ k, k ≠ slotKey f i → u.slotAt k = s.slotAt k)
            ∧ u.slot f i
              = if x.source.all s.onAirFit then { x with
                  onAir := .pending, outgoing := x.source,
                  deadline := some ⟨s.uptime, (s.leg f).switchWait⟩ }
                else { x with
                  onAir := .steady, source := x.planned.map (·.handle), outgoing := none,
                  deadline := none }))

/-! ### What every step keeps -/

/-- Every step keeps the law of ATTN: it is asserted exactly while a flag of a kind in the mask is set
(R167). -/
def Obligations.EveryStepKeepsTheAttentionLaw : Prop :=
  ∀ s t : State, s.attnLaw → step s = .next t → t.attnLaw

/-- Every step keeps, for every slot, what its on-air state says of its planned binding, its source, its
outgoing source and its switch deadline, and, where the counts are true and no batch that commits both binds a
slot to a record and changes that record's fallback, that a SUBSTITUTED slot has its planned record's fallback on
air (R68; what such a batch may leave is the model's reading, log entry 21). -/
def Obligations.EveryStepKeepsTheSlotLaw : Prop :=
  (∀ s t : State, s.slotLaw → step s = .next t → t.slotLaw)
    ∧ ∀ s t : State, s.canonical → s.countLaw → s.slotLaw → s.fallbackLaw → s.bindsApart →
      step s = .next t → t.fallbackLaw

/-- Every step keeps the stores within their places, the stream map and the splice edit store among them, no two
records with one key, the stream map on exactly the components of the records that are not FREE, and every table
in its canonical form (R4, R34, R36, R37, R38, R88, R99, R139, R174; the canonical form is the model's). It keeps the
law of every input: a disabled input is in SEARCH, only a LOCKED one has a missing sync byte noted, and a search stands
on a candidate that no byte has given up (R28, R29, R30; that a search is held as the bytes from its candidate on is
the model's form, log entry 9). -/
def Obligations.EveryStepKeepsTheTables : Prop :=
  (∀ s t : State, s.canonical → s.bounded → step s = .next t → t.bounded)
    ∧ (∀ s t : State, s.keysDistinct → step s = .next t → t.keysDistinct)
    ∧ (∀ s t : State, s.canonical → s.mapLaw → step s = .next t → t.mapLaw)
    ∧ (∀ s t : State, s.inputLaw → step s = .next t → t.inputLaw)
    ∧ ∀ s t : State, s.canonical → step s = .next t → t.canonical

/-- Every step keeps the planned and splice reference counts of the records: the planned count is the number of
planned bindings that name the record, the splice reference count the number of BIND SLOT edits of waiting splice
entries that do, and what is bound or waits to be is LIVE, LOST or RESTORING (R13, R15, R130, R138, R152). -/
def Obligations.EveryStepKeepsThePlannedCounts : Prop :=
  ∀ s t : State, s.canonical → s.countLaw → step s = .next t → t.countLaw

/-- Every step keeps the on-air and fallback reference counts of the records: the on-air count, with the on-air
updates still to be taken, is the number of slots that have the record on air, and what is on air is neither FREE nor
RESERVED; the fallback reference count is the number of records, RESERVED ones apart, whose fallback it is, and such
a fallback is LIVE, LOST or RESTORING (R13, R14, R16, R18, R49, R129, R130). -/
def Obligations.EveryStepKeepsTheUseCounts : Prop :=
  (∀ s t : State, s.canonical → s.onAirLaw → step s = .next t → t.onAirLaw)
    ∧ ∀ s t : State, s.canonical → s.countLaw → s.fallbackCountLaw → step s = .next t → t.fallbackCountLaw

/-- Every step keeps the slot edits that wait, in a workspace or in a splice entry, and the planned bindings within
their ranges (R60, R67, R107, R139). -/
def Obligations.EveryStepKeepsTheRanges : Prop :=
  ∀ s t : State, s.rangeLaw → step s = .next t → t.rangeLaw

/-- The laws that every step keeps hold right after reset. -/
def Obligations.ResetKeepsEveryLaw : Prop :=
  State.reset.attnLaw ∧ State.reset.slotLaw ∧ State.reset.fallbackLaw ∧ State.reset.bounded
    ∧ State.reset.keysDistinct ∧ State.reset.mapLaw ∧ State.reset.countLaw ∧ State.reset.onAirLaw
    ∧ State.reset.fallbackCountLaw ∧ State.reset.rangeLaw ∧ State.reset.inputLaw ∧ State.reset.canonical
end

