-- ==== Sys2Proof/Laws/Table.lean ====
section
/-! SUPPORT. What the table operations do: reading after writing, and the canonical form. -/

namespace Sys2Proof.Machine

variable {α : Type}

/-! ### Reading after writing -/

theorem Table.find?_put (t : Table α) (k j : Nat) (v : α) :
    Table.find? (Table.put t k v) j = if k = j then some v else Table.find? t j := by
  induction t with
  | nil => simp [Table.put, Table.find?]
  | cons c t ih =>
    obtain ⟨k', v'⟩ := c
    unfold Table.put
    split
    · simp [Table.find?]
    · split
      · subst_vars
        simp only [Table.find?]
        split <;> rfl
      · simp only [Table.find?, ih]
        by_cases h1 : k' = j <;> by_cases h2 : k = j <;> simp_all

theorem Table.find?_erase (t : Table α) (k j : Nat) :
    Table.find? (Table.erase t k) j = if k = j then none else Table.find? t j := by
  induction t with
  | nil => simp [Table.erase, Table.find?]
  | cons c t ih =>
    obtain ⟨k', v'⟩ := c
    simp only [Table.erase, List.filter_cons] at ih ⊢
    by_cases h1 : k' = k
    · subst h1
      by_cases h2 : k' = j <;> simp_all [Table.find?]
    · by_cases h2 : k' = j
      · subst h2
        have : ¬ k = k' := fun h => h1 h.symm
        simp_all [Table.find?]
      · by_cases h3 : k = j <;> simp_all [Table.find?]

theorem Table.look_store [DecidableEq α] (d : α) (t : Table α) (k : Nat) (v : α) :
    Table.look d (Table.store d t k v) k = v := by
  unfold Table.look Table.store
  split
  · subst_vars
    simp [Table.find?_erase]
  · simp [Table.find?_put]

theorem Table.look_store_ne [DecidableEq α] (d e : α) (t : Table α) (k j : Nat) (v : α) (h : k ≠ j) :
    Table.look e (Table.store d t k v) j = Table.look e t j := by
  unfold Table.look Table.store
  split
  · simp [Table.find?_erase, h]
  · simp [Table.find?_put, h]

theorem Table.find?_mem (t : Table α) (k : Nat) (v : α) (h : Table.find? t k = some v) :
    (k, v) ∈ t := by
  induction t with
  | nil => simp [Table.find?] at h
  | cons c t ih =>
    obtain ⟨k', v'⟩ := c
    simp only [Table.find?] at h
    split at h
    · simp_all
    · exact List.mem_cons_of_mem _ (ih h)

/-! ### The canonical form -/

theorem Table.rising_iff (t : Table α) :
    Table.rising t = true ↔ t.Pairwise fun a b => a.1 < b.1 := by
  induction t with
  | nil => simp [Table.rising]
  | cons a t ih =>
    cases t with
    | nil => simp [Table.rising]
    | cons b t =>
      simp only [Table.rising, Bool.and_eq_true, decide_eq_true_eq, ih]
      constructor
      · rintro ⟨h1, h2⟩
        refine List.pairwise_cons.2 ⟨?_, h2⟩
        intro c hc
        rcases List.mem_cons.1 hc with rfl | hc
        · exact h1
        · exact lt_trans h1 ((List.pairwise_cons.1 h2).1 c hc)
      · intro h
        exact ⟨(List.pairwise_cons.1 h).1 b (by simp), (List.pairwise_cons.1 h).2⟩

theorem Table.mem_put (t : Table α) (k : Nat) (v : α) (c : Nat × α) (h : c ∈ Table.put t k v) :
    c = (k, v) ∨ c ∈ t := by
  induction t with
  | nil => simp_all [Table.put]
  | cons d t ih =>
    obtain ⟨k', v'⟩ := d
    unfold Table.put at h
    split at h
    · simpa using h
    · split at h
      · rcases List.mem_cons.1 h with h | h
        · exact Or.inl h
        · exact Or.inr (List.mem_cons_of_mem _ h)
      · rcases List.mem_cons.1 h with h | h
        · exact Or.inr (by simp [h])
        · exact (ih h).imp id (List.mem_cons_of_mem _)

theorem Table.rising_put (t : Table α) (k : Nat) (v : α) (h : Table.rising t) :
    Table.rising (Table.put t k v) := by
  rw [Table.rising_iff] at h ⊢
  induction t with
  | nil => simp [Table.put]
  | cons c t ih =>
    obtain ⟨k', v'⟩ := c
    have ht := List.pairwise_cons.1 h
    unfold Table.put
    split
    · rename_i hk
      refine List.pairwise_cons.2 ⟨?_, h⟩
      intro d hd
      rcases List.mem_cons.1 hd with rfl | hd
      · exact hk
      · exact lt_trans hk (ht.1 d hd)
    · split
      · subst_vars
        exact List.pairwise_cons.2 ht
      · rename_i h1 h2
        refine List.pairwise_cons.2 ⟨?_, ih ht.2⟩
        intro d hd
        rcases Table.mem_put t k v d hd with rfl | hd
        · show k' < k
          omega
        · exact ht.1 d hd

theorem Table.rising_filter (t : Table α) (p : Nat × α → Bool) (h : Table.rising t) :
    Table.rising (t.filter p : Table α) := by
  rw [Table.rising_iff] at h ⊢
  exact h.filter _

theorem Table.rising_map (t : Table α) (g : Nat × α → Nat × α) (hg : ∀ c, (g c).1 = c.1)
    (h : Table.rising t) : Table.rising (t.map g : Table α) := by
  rw [Table.rising_iff] at h ⊢
  rw [List.pairwise_map]
  simpa [hg] using h

theorem Table.canonical_store [DecidableEq α] (start : Nat → α) (t : Table α) (k : Nat) (v : α)
    (h : Table.canonical start t) : Table.canonical start (Table.store (start k) t k v) := by
  unfold Table.store
  split
  · refine ⟨Table.rising_filter _ _ h.1, ?_⟩
    intro c hc
    exact h.2 c (List.mem_of_mem_filter hc)
  · rename_i hv
    refine ⟨Table.rising_put _ _ _ h.1, ?_⟩
    intro c hc
    rcases Table.mem_put t k v c hc with rfl | hc
    · exact hv
    · exact h.2 c hc

/-- In a table of rising keys every listed pair is what its key reads as. -/
theorem Table.find?_of_mem (t : Table α) (h : Table.rising t) (c : Nat × α) (hc : c ∈ t) :
    Table.find? t c.1 = some c.2 := by
  rw [Table.rising_iff] at h
  induction t with
  | nil => simp at hc
  | cons d t ih =>
    have ht := List.pairwise_cons.1 h
    rcases List.mem_cons.1 hc with rfl | hc
    · simp [Table.find?]
    · have : d.1 ≠ c.1 := (ht.1 c hc).ne
      simp [Table.find?, this, ih ht.2 hc]

end Sys2Proof.Machine
end

