-- ==== Sys2Proof/Laws/State.lean ====
section
/-! SUPPORT. One lemma per field per update: what each of the table updates leaves alone, and what reading
gives after writing. -/

namespace Sys2Proof.Machine

variable (s : State)

/-! ### setInput -/

@[simp] theorem setInput_pending (i : Nat) (x : Input) : (s.setInput i x).pending = s.pending := rfl
@[simp] theorem setInput_phase (i : Nat) (x : Input) : (s.setInput i x).phase = s.phase := rfl
@[simp] theorem setInput_uptime (i : Nat) (x : Input) : (s.setInput i x).uptime = s.uptime := rfl
@[simp] theorem setInput_clock (i : Nat) (x : Input) : (s.setInput i x).clock = s.clock := rfl
@[simp] theorem setInput_smap (i : Nat) (x : Input) : (s.setInput i x).smap = s.smap := rfl
@[simp] theorem setInput_records (i : Nat) (x : Input) : (s.setInput i x).records = s.records := rfl
@[simp] theorem setInput_notices (i : Nat) (x : Input) : (s.setInput i x).notices = s.notices := rfl
@[simp] theorem setInput_ctabDue (i : Nat) (x : Input) : (s.setInput i x).ctabDue = s.ctabDue := rfl
@[simp] theorem setInput_legs (i : Nat) (x : Input) : (s.setInput i x).legs = s.legs := rfl
@[simp] theorem setInput_slots (i : Nat) (x : Input) : (s.setInput i x).slots = s.slots := rfl
@[simp] theorem setInput_updates (i : Nat) (x : Input) : (s.setInput i x).updates = s.updates := rfl
@[simp] theorem setInput_reports (i : Nat) (x : Input) : (s.setInput i x).reports = s.reports := rfl
@[simp] theorem setInput_outs (i : Nat) (x : Input) : (s.setInput i x).outs = s.outs := rfl
@[simp] theorem setInput_counts (i : Nat) (x : Input) : (s.setInput i x).counts = s.counts := rfl
@[simp] theorem setInput_marks (i : Nat) (x : Input) : (s.setInput i x).marks = s.marks := rfl
@[simp] theorem setInput_siteWs (i : Nat) (x : Input) : (s.setInput i x).siteWs = s.siteWs := rfl
@[simp] theorem setInput_netWs (i : Nat) (x : Input) : (s.setInput i x).netWs = s.netWs := rfl
@[simp] theorem setInput_siteOutcome (i : Nat) (x : Input) : (s.setInput i x).siteOutcome = s.siteOutcome := rfl
@[simp] theorem setInput_netOutcome (i : Nat) (x : Input) : (s.setInput i x).netOutcome = s.netOutcome := rfl
@[simp] theorem setInput_idleLimit (i : Nat) (x : Input) : (s.setInput i x).idleLimit = s.idleLimit := rfl
@[simp] theorem setInput_idleDue (i : Nat) (x : Input) : (s.setInput i x).idleDue = s.idleDue := rfl
@[simp] theorem setInput_entries (i : Nat) (x : Input) : (s.setInput i x).entries = s.entries := rfl
@[simp] theorem setInput_cues (i : Nat) (x : Input) : (s.setInput i x).cues = s.cues := rfl
@[simp] theorem setInput_pairs (i : Nat) (x : Input) : (s.setInput i x).pairs = s.pairs := rfl
@[simp] theorem setInput_attention (i : Nat) (x : Input) : (s.setInput i x).attention = s.attention := rfl
@[simp] theorem setInput_attMask (i : Nat) (x : Input) : (s.setInput i x).attMask = s.attMask := rfl
@[simp] theorem setInput_attn (i : Nat) (x : Input) : (s.setInput i x).attn = s.attn := rfl
@[simp] theorem setInput_port (i : Nat) (x : Input) : (s.setInput i x).port = s.port := rfl
@[simp] theorem setInput_miso (i : Nat) (x : Input) : (s.setInput i x).miso = s.miso := rfl
@[simp] theorem setInput_netQueue (i : Nat) (x : Input) : (s.setInput i x).netQueue = s.netQueue := rfl
@[simp] theorem setInput_netFlight (i : Nat) (x : Input) : (s.setInput i x).netFlight = s.netFlight := rfl
@[simp] theorem setInput_mailbox (i : Nat) (x : Input) : (s.setInput i x).mailbox = s.mailbox := rfl
@[simp] theorem setInput_relayOn (i : Nat) (x : Input) : (s.setInput i x).relayOn = s.relayOn := rfl

/-! ### setRecord -/

@[simp] theorem setRecord_pending (h : Nat) (x : Record) : (s.setRecord h x).pending = s.pending := rfl
@[simp] theorem setRecord_phase (h : Nat) (x : Record) : (s.setRecord h x).phase = s.phase := rfl
@[simp] theorem setRecord_uptime (h : Nat) (x : Record) : (s.setRecord h x).uptime = s.uptime := rfl
@[simp] theorem setRecord_clock (h : Nat) (x : Record) : (s.setRecord h x).clock = s.clock := rfl
@[simp] theorem setRecord_inputs (h : Nat) (x : Record) : (s.setRecord h x).inputs = s.inputs := rfl
@[simp] theorem setRecord_smap (h : Nat) (x : Record) : (s.setRecord h x).smap = s.smap := rfl
@[simp] theorem setRecord_notices (h : Nat) (x : Record) : (s.setRecord h x).notices = s.notices := rfl
@[simp] theorem setRecord_ctabDue (h : Nat) (x : Record) : (s.setRecord h x).ctabDue = s.ctabDue := rfl
@[simp] theorem setRecord_legs (h : Nat) (x : Record) : (s.setRecord h x).legs = s.legs := rfl
@[simp] theorem setRecord_slots (h : Nat) (x : Record) : (s.setRecord h x).slots = s.slots := rfl
@[simp] theorem setRecord_updates (h : Nat) (x : Record) : (s.setRecord h x).updates = s.updates := rfl
@[simp] theorem setRecord_reports (h : Nat) (x : Record) : (s.setRecord h x).reports = s.reports := rfl
@[simp] theorem setRecord_outs (h : Nat) (x : Record) : (s.setRecord h x).outs = s.outs := rfl
@[simp] theorem setRecord_counts (h : Nat) (x : Record) : (s.setRecord h x).counts = s.counts := rfl
@[simp] theorem setRecord_marks (h : Nat) (x : Record) : (s.setRecord h x).marks = s.marks := rfl
@[simp] theorem setRecord_siteWs (h : Nat) (x : Record) : (s.setRecord h x).siteWs = s.siteWs := rfl
@[simp] theorem setRecord_netWs (h : Nat) (x : Record) : (s.setRecord h x).netWs = s.netWs := rfl
@[simp] theorem setRecord_siteOutcome (h : Nat) (x : Record) : (s.setRecord h x).siteOutcome = s.siteOutcome := rfl
@[simp] theorem setRecord_netOutcome (h : Nat) (x : Record) : (s.setRecord h x).netOutcome = s.netOutcome := rfl
@[simp] theorem setRecord_idleLimit (h : Nat) (x : Record) : (s.setRecord h x).idleLimit = s.idleLimit := rfl
@[simp] theorem setRecord_idleDue (h : Nat) (x : Record) : (s.setRecord h x).idleDue = s.idleDue := rfl
@[simp] theorem setRecord_entries (h : Nat) (x : Record) : (s.setRecord h x).entries = s.entries := rfl
@[simp] theorem setRecord_cues (h : Nat) (x : Record) : (s.setRecord h x).cues = s.cues := rfl
@[simp] theorem setRecord_pairs (h : Nat) (x : Record) : (s.setRecord h x).pairs = s.pairs := rfl
@[simp] theorem setRecord_attention (h : Nat) (x : Record) : (s.setRecord h x).attention = s.attention := rfl
@[simp] theorem setRecord_attMask (h : Nat) (x : Record) : (s.setRecord h x).attMask = s.attMask := rfl
@[simp] theorem setRecord_attn (h : Nat) (x : Record) : (s.setRecord h x).attn = s.attn := rfl
@[simp] theorem setRecord_port (h : Nat) (x : Record) : (s.setRecord h x).port = s.port := rfl
@[simp] theorem setRecord_miso (h : Nat) (x : Record) : (s.setRecord h x).miso = s.miso := rfl
@[simp] theorem setRecord_netQueue (h : Nat) (x : Record) : (s.setRecord h x).netQueue = s.netQueue := rfl
@[simp] theorem setRecord_netFlight (h : Nat) (x : Record) : (s.setRecord h x).netFlight = s.netFlight := rfl
@[simp] theorem setRecord_mailbox (h : Nat) (x : Record) : (s.setRecord h x).mailbox = s.mailbox := rfl
@[simp] theorem setRecord_relayOn (h : Nat) (x : Record) : (s.setRecord h x).relayOn = s.relayOn := rfl

/-! ### setLeg -/

@[simp] theorem setLeg_pending (f : Nat) (x : Leg) : (s.setLeg f x).pending = s.pending := rfl
@[simp] theorem setLeg_phase (f : Nat) (x : Leg) : (s.setLeg f x).phase = s.phase := rfl
@[simp] theorem setLeg_uptime (f : Nat) (x : Leg) : (s.setLeg f x).uptime = s.uptime := rfl
@[simp] theorem setLeg_clock (f : Nat) (x : Leg) : (s.setLeg f x).clock = s.clock := rfl
@[simp] theorem setLeg_inputs (f : Nat) (x : Leg) : (s.setLeg f x).inputs = s.inputs := rfl
@[simp] theorem setLeg_smap (f : Nat) (x : Leg) : (s.setLeg f x).smap = s.smap := rfl
@[simp] theorem setLeg_records (f : Nat) (x : Leg) : (s.setLeg f x).records = s.records := rfl
@[simp] theorem setLeg_notices (f : Nat) (x : Leg) : (s.setLeg f x).notices = s.notices := rfl
@[simp] theorem setLeg_ctabDue (f : Nat) (x : Leg) : (s.setLeg f x).ctabDue = s.ctabDue := rfl
@[simp] theorem setLeg_slots (f : Nat) (x : Leg) : (s.setLeg f x).slots = s.slots := rfl
@[simp] theorem setLeg_updates (f : Nat) (x : Leg) : (s.setLeg f x).updates = s.updates := rfl
@[simp] theorem setLeg_reports (f : Nat) (x : Leg) : (s.setLeg f x).reports = s.reports := rfl
@[simp] theorem setLeg_outs (f : Nat) (x : Leg) : (s.setLeg f x).outs = s.outs := rfl
@[simp] theorem setLeg_counts (f : Nat) (x : Leg) : (s.setLeg f x).counts = s.counts := rfl
@[simp] theorem setLeg_marks (f : Nat) (x : Leg) : (s.setLeg f x).marks = s.marks := rfl
@[simp] theorem setLeg_siteWs (f : Nat) (x : Leg) : (s.setLeg f x).siteWs = s.siteWs := rfl
@[simp] theorem setLeg_netWs (f : Nat) (x : Leg) : (s.setLeg f x).netWs = s.netWs := rfl
@[simp] theorem setLeg_siteOutcome (f : Nat) (x : Leg) : (s.setLeg f x).siteOutcome = s.siteOutcome := rfl
@[simp] theorem setLeg_netOutcome (f : Nat) (x : Leg) : (s.setLeg f x).netOutcome = s.netOutcome := rfl
@[simp] theorem setLeg_idleLimit (f : Nat) (x : Leg) : (s.setLeg f x).idleLimit = s.idleLimit := rfl
@[simp] theorem setLeg_idleDue (f : Nat) (x : Leg) : (s.setLeg f x).idleDue = s.idleDue := rfl
@[simp] theorem setLeg_entries (f : Nat) (x : Leg) : (s.setLeg f x).entries = s.entries := rfl
@[simp] theorem setLeg_cues (f : Nat) (x : Leg) : (s.setLeg f x).cues = s.cues := rfl
@[simp] theorem setLeg_pairs (f : Nat) (x : Leg) : (s.setLeg f x).pairs = s.pairs := rfl
@[simp] theorem setLeg_attention (f : Nat) (x : Leg) : (s.setLeg f x).attention = s.attention := rfl
@[simp] theorem setLeg_attMask (f : Nat) (x : Leg) : (s.setLeg f x).attMask = s.attMask := rfl
@[simp] theorem setLeg_attn (f : Nat) (x : Leg) : (s.setLeg f x).attn = s.attn := rfl
@[simp] theorem setLeg_port (f : Nat) (x : Leg) : (s.setLeg f x).port = s.port := rfl
@[simp] theorem setLeg_miso (f : Nat) (x : Leg) : (s.setLeg f x).miso = s.miso := rfl
@[simp] theorem setLeg_netQueue (f : Nat) (x : Leg) : (s.setLeg f x).netQueue = s.netQueue := rfl
@[simp] theorem setLeg_netFlight (f : Nat) (x : Leg) : (s.setLeg f x).netFlight = s.netFlight := rfl
@[simp] theorem setLeg_mailbox (f : Nat) (x : Leg) : (s.setLeg f x).mailbox = s.mailbox := rfl
@[simp] theorem setLeg_relayOn (f : Nat) (x : Leg) : (s.setLeg f x).relayOn = s.relayOn := rfl

/-! ### setSlotAt -/

@[simp] theorem setSlotAt_pending (k : Nat) (x : Slot) : (s.setSlotAt k x).pending = s.pending := rfl
@[simp] theorem setSlotAt_phase (k : Nat) (x : Slot) : (s.setSlotAt k x).phase = s.phase := rfl
@[simp] theorem setSlotAt_uptime (k : Nat) (x : Slot) : (s.setSlotAt k x).uptime = s.uptime := rfl
@[simp] theorem setSlotAt_clock (k : Nat) (x : Slot) : (s.setSlotAt k x).clock = s.clock := rfl
@[simp] theorem setSlotAt_inputs (k : Nat) (x : Slot) : (s.setSlotAt k x).inputs = s.inputs := rfl
@[simp] theorem setSlotAt_smap (k : Nat) (x : Slot) : (s.setSlotAt k x).smap = s.smap := rfl
@[simp] theorem setSlotAt_records (k : Nat) (x : Slot) : (s.setSlotAt k x).records = s.records := rfl
@[simp] theorem setSlotAt_notices (k : Nat) (x : Slot) : (s.setSlotAt k x).notices = s.notices := rfl
@[simp] theorem setSlotAt_ctabDue (k : Nat) (x : Slot) : (s.setSlotAt k x).ctabDue = s.ctabDue := rfl
@[simp] theorem setSlotAt_legs (k : Nat) (x : Slot) : (s.setSlotAt k x).legs = s.legs := rfl
@[simp] theorem setSlotAt_updates (k : Nat) (x : Slot) : (s.setSlotAt k x).updates = s.updates := rfl
@[simp] theorem setSlotAt_reports (k : Nat) (x : Slot) : (s.setSlotAt k x).reports = s.reports := rfl
@[simp] theorem setSlotAt_outs (k : Nat) (x : Slot) : (s.setSlotAt k x).outs = s.outs := rfl
@[simp] theorem setSlotAt_counts (k : Nat) (x : Slot) : (s.setSlotAt k x).counts = s.counts := rfl
@[simp] theorem setSlotAt_marks (k : Nat) (x : Slot) : (s.setSlotAt k x).marks = s.marks := rfl
@[simp] theorem setSlotAt_siteWs (k : Nat) (x : Slot) : (s.setSlotAt k x).siteWs = s.siteWs := rfl
@[simp] theorem setSlotAt_netWs (k : Nat) (x : Slot) : (s.setSlotAt k x).netWs = s.netWs := rfl
@[simp] theorem setSlotAt_siteOutcome (k : Nat) (x : Slot) : (s.setSlotAt k x).siteOutcome = s.siteOutcome := rfl
@[simp] theorem setSlotAt_netOutcome (k : Nat) (x : Slot) : (s.setSlotAt k x).netOutcome = s.netOutcome := rfl
@[simp] theorem setSlotAt_idleLimit (k : Nat) (x : Slot) : (s.setSlotAt k x).idleLimit = s.idleLimit := rfl
@[simp] theorem setSlotAt_idleDue (k : Nat) (x : Slot) : (s.setSlotAt k x).idleDue = s.idleDue := rfl
@[simp] theorem setSlotAt_entries (k : Nat) (x : Slot) : (s.setSlotAt k x).entries = s.entries := rfl
@[simp] theorem setSlotAt_cues (k : Nat) (x : Slot) : (s.setSlotAt k x).cues = s.cues := rfl
@[simp] theorem setSlotAt_pairs (k : Nat) (x : Slot) : (s.setSlotAt k x).pairs = s.pairs := rfl
@[simp] theorem setSlotAt_attention (k : Nat) (x : Slot) : (s.setSlotAt k x).attention = s.attention := rfl
@[simp] theorem setSlotAt_attMask (k : Nat) (x : Slot) : (s.setSlotAt k x).attMask = s.attMask := rfl
@[simp] theorem setSlotAt_attn (k : Nat) (x : Slot) : (s.setSlotAt k x).attn = s.attn := rfl
@[simp] theorem setSlotAt_port (k : Nat) (x : Slot) : (s.setSlotAt k x).port = s.port := rfl
@[simp] theorem setSlotAt_miso (k : Nat) (x : Slot) : (s.setSlotAt k x).miso = s.miso := rfl
@[simp] theorem setSlotAt_netQueue (k : Nat) (x : Slot) : (s.setSlotAt k x).netQueue = s.netQueue := rfl
@[simp] theorem setSlotAt_netFlight (k : Nat) (x : Slot) : (s.setSlotAt k x).netFlight = s.netFlight := rfl
@[simp] theorem setSlotAt_mailbox (k : Nat) (x : Slot) : (s.setSlotAt k x).mailbox = s.mailbox := rfl
@[simp] theorem setSlotAt_relayOn (k : Nat) (x : Slot) : (s.setSlotAt k x).relayOn = s.relayOn := rfl

/-! ### setOut -/

@[simp] theorem setOut_pending (f : Nat) (x : LegOut) : (s.setOut f x).pending = s.pending := rfl
@[simp] theorem setOut_phase (f : Nat) (x : LegOut) : (s.setOut f x).phase = s.phase := rfl
@[simp] theorem setOut_uptime (f : Nat) (x : LegOut) : (s.setOut f x).uptime = s.uptime := rfl
@[simp] theorem setOut_clock (f : Nat) (x : LegOut) : (s.setOut f x).clock = s.clock := rfl
@[simp] theorem setOut_inputs (f : Nat) (x : LegOut) : (s.setOut f x).inputs = s.inputs := rfl
@[simp] theorem setOut_smap (f : Nat) (x : LegOut) : (s.setOut f x).smap = s.smap := rfl
@[simp] theorem setOut_records (f : Nat) (x : LegOut) : (s.setOut f x).records = s.records := rfl
@[simp] theorem setOut_notices (f : Nat) (x : LegOut) : (s.setOut f x).notices = s.notices := rfl
@[simp] theorem setOut_ctabDue (f : Nat) (x : LegOut) : (s.setOut f x).ctabDue = s.ctabDue := rfl
@[simp] theorem setOut_legs (f : Nat) (x : LegOut) : (s.setOut f x).legs = s.legs := rfl
@[simp] theorem setOut_slots (f : Nat) (x : LegOut) : (s.setOut f x).slots = s.slots := rfl
@[simp] theorem setOut_updates (f : Nat) (x : LegOut) : (s.setOut f x).updates = s.updates := rfl
@[simp] theorem setOut_reports (f : Nat) (x : LegOut) : (s.setOut f x).reports = s.reports := rfl
@[simp] theorem setOut_counts (f : Nat) (x : LegOut) : (s.setOut f x).counts = s.counts := rfl
@[simp] theorem setOut_marks (f : Nat) (x : LegOut) : (s.setOut f x).marks = s.marks := rfl
@[simp] theorem setOut_siteWs (f : Nat) (x : LegOut) : (s.setOut f x).siteWs = s.siteWs := rfl
@[simp] theorem setOut_netWs (f : Nat) (x : LegOut) : (s.setOut f x).netWs = s.netWs := rfl
@[simp] theorem setOut_siteOutcome (f : Nat) (x : LegOut) : (s.setOut f x).siteOutcome = s.siteOutcome := rfl
@[simp] theorem setOut_netOutcome (f : Nat) (x : LegOut) : (s.setOut f x).netOutcome = s.netOutcome := rfl
@[simp] theorem setOut_idleLimit (f : Nat) (x : LegOut) : (s.setOut f x).idleLimit = s.idleLimit := rfl
@[simp] theorem setOut_idleDue (f : Nat) (x : LegOut) : (s.setOut f x).idleDue = s.idleDue := rfl
@[simp] theorem setOut_entries (f : Nat) (x : LegOut) : (s.setOut f x).entries = s.entries := rfl
@[simp] theorem setOut_cues (f : Nat) (x : LegOut) : (s.setOut f x).cues = s.cues := rfl
@[simp] theorem setOut_pairs (f : Nat) (x : LegOut) : (s.setOut f x).pairs = s.pairs := rfl
@[simp] theorem setOut_attention (f : Nat) (x : LegOut) : (s.setOut f x).attention = s.attention := rfl
@[simp] theorem setOut_attMask (f : Nat) (x : LegOut) : (s.setOut f x).attMask = s.attMask := rfl
@[simp] theorem setOut_attn (f : Nat) (x : LegOut) : (s.setOut f x).attn = s.attn := rfl
@[simp] theorem setOut_port (f : Nat) (x : LegOut) : (s.setOut f x).port = s.port := rfl
@[simp] theorem setOut_miso (f : Nat) (x : LegOut) : (s.setOut f x).miso = s.miso := rfl
@[simp] theorem setOut_netQueue (f : Nat) (x : LegOut) : (s.setOut f x).netQueue = s.netQueue := rfl
@[simp] theorem setOut_netFlight (f : Nat) (x : LegOut) : (s.setOut f x).netFlight = s.netFlight := rfl
@[simp] theorem setOut_mailbox (f : Nat) (x : LegOut) : (s.setOut f x).mailbox = s.mailbox := rfl
@[simp] theorem setOut_relayOn (f : Nat) (x : LegOut) : (s.setOut f x).relayOn = s.relayOn := rfl

/-! ### setCount -/

@[simp] theorem setCount_pending (f p : Nat) (n : Nat) : (s.setCount f p n).pending = s.pending := rfl
@[simp] theorem setCount_phase (f p : Nat) (n : Nat) : (s.setCount f p n).phase = s.phase := rfl
@[simp] theorem setCount_uptime (f p : Nat) (n : Nat) : (s.setCount f p n).uptime = s.uptime := rfl
@[simp] theorem setCount_clock (f p : Nat) (n : Nat) : (s.setCount f p n).clock = s.clock := rfl
@[simp] theorem setCount_inputs (f p : Nat) (n : Nat) : (s.setCount f p n).inputs = s.inputs := rfl
@[simp] theorem setCount_smap (f p : Nat) (n : Nat) : (s.setCount f p n).smap = s.smap := rfl
@[simp] theorem setCount_records (f p : Nat) (n : Nat) : (s.setCount f p n).records = s.records := rfl
@[simp] theorem setCount_notices (f p : Nat) (n : Nat) : (s.setCount f p n).notices = s.notices := rfl
@[simp] theorem setCount_ctabDue (f p : Nat) (n : Nat) : (s.setCount f p n).ctabDue = s.ctabDue := rfl
@[simp] theorem setCount_legs (f p : Nat) (n : Nat) : (s.setCount f p n).legs = s.legs := rfl
@[simp] theorem setCount_slots (f p : Nat) (n : Nat) : (s.setCount f p n).slots = s.slots := rfl
@[simp] theorem setCount_updates (f p : Nat) (n : Nat) : (s.setCount f p n).updates = s.updates := rfl
@[simp] theorem setCount_reports (f p : Nat) (n : Nat) : (s.setCount f p n).reports = s.reports := rfl
@[simp] theorem setCount_outs (f p : Nat) (n : Nat) : (s.setCount f p n).outs = s.outs := rfl
@[simp] theorem setCount_marks (f p : Nat) (n : Nat) : (s.setCount f p n).marks = s.marks := rfl
@[simp] theorem setCount_siteWs (f p : Nat) (n : Nat) : (s.setCount f p n).siteWs = s.siteWs := rfl
@[simp] theorem setCount_netWs (f p : Nat) (n : Nat) : (s.setCount f p n).netWs = s.netWs := rfl
@[simp] theorem setCount_siteOutcome (f p : Nat) (n : Nat) : (s.setCount f p n).siteOutcome = s.siteOutcome := rfl
@[simp] theorem setCount_netOutcome (f p : Nat) (n : Nat) : (s.setCount f p n).netOutcome = s.netOutcome := rfl
@[simp] theorem setCount_idleLimit (f p : Nat) (n : Nat) : (s.setCount f p n).idleLimit = s.idleLimit := rfl
@[simp] theorem setCount_idleDue (f p : Nat) (n : Nat) : (s.setCount f p n).idleDue = s.idleDue := rfl
@[simp] theorem setCount_entries (f p : Nat) (n : Nat) : (s.setCount f p n).entries = s.entries := rfl
@[simp] theorem setCount_cues (f p : Nat) (n : Nat) : (s.setCount f p n).cues = s.cues := rfl
@[simp] theorem setCount_pairs (f p : Nat) (n : Nat) : (s.setCount f p n).pairs = s.pairs := rfl
@[simp] theorem setCount_attention (f p : Nat) (n : Nat) : (s.setCount f p n).attention = s.attention := rfl
@[simp] theorem setCount_attMask (f p : Nat) (n : Nat) : (s.setCount f p n).attMask = s.attMask := rfl
@[simp] theorem setCount_attn (f p : Nat) (n : Nat) : (s.setCount f p n).attn = s.attn := rfl
@[simp] theorem setCount_port (f p : Nat) (n : Nat) : (s.setCount f p n).port = s.port := rfl
@[simp] theorem setCount_miso (f p : Nat) (n : Nat) : (s.setCount f p n).miso = s.miso := rfl
@[simp] theorem setCount_netQueue (f p : Nat) (n : Nat) : (s.setCount f p n).netQueue = s.netQueue := rfl
@[simp] theorem setCount_netFlight (f p : Nat) (n : Nat) : (s.setCount f p n).netFlight = s.netFlight := rfl
@[simp] theorem setCount_mailbox (f p : Nat) (n : Nat) : (s.setCount f p n).mailbox = s.mailbox := rfl
@[simp] theorem setCount_relayOn (f p : Nat) (n : Nat) : (s.setCount f p n).relayOn = s.relayOn := rfl

/-! ### setMark -/

@[simp] theorem setMark_pending (f p : Nat) (b : Bool) : (s.setMark f p b).pending = s.pending := rfl
@[simp] theorem setMark_phase (f p : Nat) (b : Bool) : (s.setMark f p b).phase = s.phase := rfl
@[simp] theorem setMark_uptime (f p : Nat) (b : Bool) : (s.setMark f p b).uptime = s.uptime := rfl
@[simp] theorem setMark_clock (f p : Nat) (b : Bool) : (s.setMark f p b).clock = s.clock := rfl
@[simp] theorem setMark_inputs (f p : Nat) (b : Bool) : (s.setMark f p b).inputs = s.inputs := rfl
@[simp] theorem setMark_smap (f p : Nat) (b : Bool) : (s.setMark f p b).smap = s.smap := rfl
@[simp] theorem setMark_records (f p : Nat) (b : Bool) : (s.setMark f p b).records = s.records := rfl
@[simp] theorem setMark_notices (f p : Nat) (b : Bool) : (s.setMark f p b).notices = s.notices := rfl
@[simp] theorem setMark_ctabDue (f p : Nat) (b : Bool) : (s.setMark f p b).ctabDue = s.ctabDue := rfl
@[simp] theorem setMark_legs (f p : Nat) (b : Bool) : (s.setMark f p b).legs = s.legs := rfl
@[simp] theorem setMark_slots (f p : Nat) (b : Bool) : (s.setMark f p b).slots = s.slots := rfl
@[simp] theorem setMark_updates (f p : Nat) (b : Bool) : (s.setMark f p b).updates = s.updates := rfl
@[simp] theorem setMark_reports (f p : Nat) (b : Bool) : (s.setMark f p b).reports = s.reports := rfl
@[simp] theorem setMark_outs (f p : Nat) (b : Bool) : (s.setMark f p b).outs = s.outs := rfl
@[simp] theorem setMark_counts (f p : Nat) (b : Bool) : (s.setMark f p b).counts = s.counts := rfl
@[simp] theorem setMark_siteWs (f p : Nat) (b : Bool) : (s.setMark f p b).siteWs = s.siteWs := rfl
@[simp] theorem setMark_netWs (f p : Nat) (b : Bool) : (s.setMark f p b).netWs = s.netWs := rfl
@[simp] theorem setMark_siteOutcome (f p : Nat) (b : Bool) : (s.setMark f p b).siteOutcome = s.siteOutcome := rfl
@[simp] theorem setMark_netOutcome (f p : Nat) (b : Bool) : (s.setMark f p b).netOutcome = s.netOutcome := rfl
@[simp] theorem setMark_idleLimit (f p : Nat) (b : Bool) : (s.setMark f p b).idleLimit = s.idleLimit := rfl
@[simp] theorem setMark_idleDue (f p : Nat) (b : Bool) : (s.setMark f p b).idleDue = s.idleDue := rfl
@[simp] theorem setMark_entries (f p : Nat) (b : Bool) : (s.setMark f p b).entries = s.entries := rfl
@[simp] theorem setMark_cues (f p : Nat) (b : Bool) : (s.setMark f p b).cues = s.cues := rfl
@[simp] theorem setMark_pairs (f p : Nat) (b : Bool) : (s.setMark f p b).pairs = s.pairs := rfl
@[simp] theorem setMark_attention (f p : Nat) (b : Bool) : (s.setMark f p b).attention = s.attention := rfl
@[simp] theorem setMark_attMask (f p : Nat) (b : Bool) : (s.setMark f p b).attMask = s.attMask := rfl
@[simp] theorem setMark_attn (f p : Nat) (b : Bool) : (s.setMark f p b).attn = s.attn := rfl
@[simp] theorem setMark_port (f p : Nat) (b : Bool) : (s.setMark f p b).port = s.port := rfl
@[simp] theorem setMark_miso (f p : Nat) (b : Bool) : (s.setMark f p b).miso = s.miso := rfl
@[simp] theorem setMark_netQueue (f p : Nat) (b : Bool) : (s.setMark f p b).netQueue = s.netQueue := rfl
@[simp] theorem setMark_netFlight (f p : Nat) (b : Bool) : (s.setMark f p b).netFlight = s.netFlight := rfl
@[simp] theorem setMark_mailbox (f p : Nat) (b : Bool) : (s.setMark f p b).mailbox = s.mailbox := rfl
@[simp] theorem setMark_relayOn (f p : Nat) (b : Bool) : (s.setMark f p b).relayOn = s.relayOn := rfl

/-! ### setEntry -/

@[simp] theorem setEntry_pending (e : Nat) (x : Entry) : (s.setEntry e x).pending = s.pending := rfl
@[simp] theorem setEntry_phase (e : Nat) (x : Entry) : (s.setEntry e x).phase = s.phase := rfl
@[simp] theorem setEntry_uptime (e : Nat) (x : Entry) : (s.setEntry e x).uptime = s.uptime := rfl
@[simp] theorem setEntry_clock (e : Nat) (x : Entry) : (s.setEntry e x).clock = s.clock := rfl
@[simp] theorem setEntry_inputs (e : Nat) (x : Entry) : (s.setEntry e x).inputs = s.inputs := rfl
@[simp] theorem setEntry_smap (e : Nat) (x : Entry) : (s.setEntry e x).smap = s.smap := rfl
@[simp] theorem setEntry_records (e : Nat) (x : Entry) : (s.setEntry e x).records = s.records := rfl
@[simp] theorem setEntry_notices (e : Nat) (x : Entry) : (s.setEntry e x).notices = s.notices := rfl
@[simp] theorem setEntry_ctabDue (e : Nat) (x : Entry) : (s.setEntry e x).ctabDue = s.ctabDue := rfl
@[simp] theorem setEntry_legs (e : Nat) (x : Entry) : (s.setEntry e x).legs = s.legs := rfl
@[simp] theorem setEntry_slots (e : Nat) (x : Entry) : (s.setEntry e x).slots = s.slots := rfl
@[simp] theorem setEntry_updates (e : Nat) (x : Entry) : (s.setEntry e x).updates = s.updates := rfl
@[simp] theorem setEntry_reports (e : Nat) (x : Entry) : (s.setEntry e x).reports = s.reports := rfl
@[simp] theorem setEntry_outs (e : Nat) (x : Entry) : (s.setEntry e x).outs = s.outs := rfl
@[simp] theorem setEntry_counts (e : Nat) (x : Entry) : (s.setEntry e x).counts = s.counts := rfl
@[simp] theorem setEntry_marks (e : Nat) (x : Entry) : (s.setEntry e x).marks = s.marks := rfl
@[simp] theorem setEntry_siteWs (e : Nat) (x : Entry) : (s.setEntry e x).siteWs = s.siteWs := rfl
@[simp] theorem setEntry_netWs (e : Nat) (x : Entry) : (s.setEntry e x).netWs = s.netWs := rfl
@[simp] theorem setEntry_siteOutcome (e : Nat) (x : Entry) : (s.setEntry e x).siteOutcome = s.siteOutcome := rfl
@[simp] theorem setEntry_netOutcome (e : Nat) (x : Entry) : (s.setEntry e x).netOutcome = s.netOutcome := rfl
@[simp] theorem setEntry_idleLimit (e : Nat) (x : Entry) : (s.setEntry e x).idleLimit = s.idleLimit := rfl
@[simp] theorem setEntry_idleDue (e : Nat) (x : Entry) : (s.setEntry e x).idleDue = s.idleDue := rfl
@[simp] theorem setEntry_cues (e : Nat) (x : Entry) : (s.setEntry e x).cues = s.cues := rfl
@[simp] theorem setEntry_pairs (e : Nat) (x : Entry) : (s.setEntry e x).pairs = s.pairs := rfl
@[simp] theorem setEntry_attention (e : Nat) (x : Entry) : (s.setEntry e x).attention = s.attention := rfl
@[simp] theorem setEntry_attMask (e : Nat) (x : Entry) : (s.setEntry e x).attMask = s.attMask := rfl
@[simp] theorem setEntry_attn (e : Nat) (x : Entry) : (s.setEntry e x).attn = s.attn := rfl
@[simp] theorem setEntry_port (e : Nat) (x : Entry) : (s.setEntry e x).port = s.port := rfl
@[simp] theorem setEntry_miso (e : Nat) (x : Entry) : (s.setEntry e x).miso = s.miso := rfl
@[simp] theorem setEntry_netQueue (e : Nat) (x : Entry) : (s.setEntry e x).netQueue = s.netQueue := rfl
@[simp] theorem setEntry_netFlight (e : Nat) (x : Entry) : (s.setEntry e x).netFlight = s.netFlight := rfl
@[simp] theorem setEntry_mailbox (e : Nat) (x : Entry) : (s.setEntry e x).mailbox = s.mailbox := rfl
@[simp] theorem setEntry_relayOn (e : Nat) (x : Entry) : (s.setEntry e x).relayOn = s.relayOn := rfl

/-! ### setPair -/

@[simp] theorem setPair_pending (k : Nat) (x : Pair) : (s.setPair k x).pending = s.pending := rfl
@[simp] theorem setPair_phase (k : Nat) (x : Pair) : (s.setPair k x).phase = s.phase := rfl
@[simp] theorem setPair_uptime (k : Nat) (x : Pair) : (s.setPair k x).uptime = s.uptime := rfl
@[simp] theorem setPair_clock (k : Nat) (x : Pair) : (s.setPair k x).clock = s.clock := rfl
@[simp] theorem setPair_inputs (k : Nat) (x : Pair) : (s.setPair k x).inputs = s.inputs := rfl
@[simp] theorem setPair_smap (k : Nat) (x : Pair) : (s.setPair k x).smap = s.smap := rfl
@[simp] theorem setPair_records (k : Nat) (x : Pair) : (s.setPair k x).records = s.records := rfl
@[simp] theorem setPair_notices (k : Nat) (x : Pair) : (s.setPair k x).notices = s.notices := rfl
@[simp] theorem setPair_ctabDue (k : Nat) (x : Pair) : (s.setPair k x).ctabDue = s.ctabDue := rfl
@[simp] theorem setPair_legs (k : Nat) (x : Pair) : (s.setPair k x).legs = s.legs := rfl
@[simp] theorem setPair_slots (k : Nat) (x : Pair) : (s.setPair k x).slots = s.slots := rfl
@[simp] theorem setPair_updates (k : Nat) (x : Pair) : (s.setPair k x).updates = s.updates := rfl
@[simp] theorem setPair_reports (k : Nat) (x : Pair) : (s.setPair k x).reports = s.reports := rfl
@[simp] theorem setPair_outs (k : Nat) (x : Pair) : (s.setPair k x).outs = s.outs := rfl
@[simp] theorem setPair_counts (k : Nat) (x : Pair) : (s.setPair k x).counts = s.counts := rfl
@[simp] theorem setPair_marks (k : Nat) (x : Pair) : (s.setPair k x).marks = s.marks := rfl
@[simp] theorem setPair_siteWs (k : Nat) (x : Pair) : (s.setPair k x).siteWs = s.siteWs := rfl
@[simp] theorem setPair_netWs (k : Nat) (x : Pair) : (s.setPair k x).netWs = s.netWs := rfl
@[simp] theorem setPair_siteOutcome (k : Nat) (x : Pair) : (s.setPair k x).siteOutcome = s.siteOutcome := rfl
@[simp] theorem setPair_netOutcome (k : Nat) (x : Pair) : (s.setPair k x).netOutcome = s.netOutcome := rfl
@[simp] theorem setPair_idleLimit (k : Nat) (x : Pair) : (s.setPair k x).idleLimit = s.idleLimit := rfl
@[simp] theorem setPair_idleDue (k : Nat) (x : Pair) : (s.setPair k x).idleDue = s.idleDue := rfl
@[simp] theorem setPair_entries (k : Nat) (x : Pair) : (s.setPair k x).entries = s.entries := rfl
@[simp] theorem setPair_cues (k : Nat) (x : Pair) : (s.setPair k x).cues = s.cues := rfl
@[simp] theorem setPair_attention (k : Nat) (x : Pair) : (s.setPair k x).attention = s.attention := rfl
@[simp] theorem setPair_attMask (k : Nat) (x : Pair) : (s.setPair k x).attMask = s.attMask := rfl
@[simp] theorem setPair_attn (k : Nat) (x : Pair) : (s.setPair k x).attn = s.attn := rfl
@[simp] theorem setPair_port (k : Nat) (x : Pair) : (s.setPair k x).port = s.port := rfl
@[simp] theorem setPair_miso (k : Nat) (x : Pair) : (s.setPair k x).miso = s.miso := rfl
@[simp] theorem setPair_netQueue (k : Nat) (x : Pair) : (s.setPair k x).netQueue = s.netQueue := rfl
@[simp] theorem setPair_netFlight (k : Nat) (x : Pair) : (s.setPair k x).netFlight = s.netFlight := rfl
@[simp] theorem setPair_mailbox (k : Nat) (x : Pair) : (s.setPair k x).mailbox = s.mailbox := rfl
@[simp] theorem setPair_relayOn (k : Nat) (x : Pair) : (s.setPair k x).relayOn = s.relayOn := rfl

/-! ### driveAttn -/

@[simp] theorem driveAttn_pending : (s.driveAttn).pending = s.pending := rfl
@[simp] theorem driveAttn_phase : (s.driveAttn).phase = s.phase := rfl
@[simp] theorem driveAttn_uptime : (s.driveAttn).uptime = s.uptime := rfl
@[simp] theorem driveAttn_clock : (s.driveAttn).clock = s.clock := rfl
@[simp] theorem driveAttn_inputs : (s.driveAttn).inputs = s.inputs := rfl
@[simp] theorem driveAttn_smap : (s.driveAttn).smap = s.smap := rfl
@[simp] theorem driveAttn_records : (s.driveAttn).records = s.records := rfl
@[simp] theorem driveAttn_notices : (s.driveAttn).notices = s.notices := rfl
@[simp] theorem driveAttn_ctabDue : (s.driveAttn).ctabDue = s.ctabDue := rfl
@[simp] theorem driveAttn_legs : (s.driveAttn).legs = s.legs := rfl
@[simp] theorem driveAttn_slots : (s.driveAttn).slots = s.slots := rfl
@[simp] theorem driveAttn_updates : (s.driveAttn).updates = s.updates := rfl
@[simp] theorem driveAttn_reports : (s.driveAttn).reports = s.reports := rfl
@[simp] theorem driveAttn_outs : (s.driveAttn).outs = s.outs := rfl
@[simp] theorem driveAttn_counts : (s.driveAttn).counts = s.counts := rfl
@[simp] theorem driveAttn_marks : (s.driveAttn).marks = s.marks := rfl
@[simp] theorem driveAttn_siteWs : (s.driveAttn).siteWs = s.siteWs := rfl
@[simp] theorem driveAttn_netWs : (s.driveAttn).netWs = s.netWs := rfl
@[simp] theorem driveAttn_siteOutcome : (s.driveAttn).siteOutcome = s.siteOutcome := rfl
@[simp] theorem driveAttn_netOutcome : (s.driveAttn).netOutcome = s.netOutcome := rfl
@[simp] theorem driveAttn_idleLimit : (s.driveAttn).idleLimit = s.idleLimit := rfl
@[simp] theorem driveAttn_idleDue : (s.driveAttn).idleDue = s.idleDue := rfl
@[simp] theorem driveAttn_entries : (s.driveAttn).entries = s.entries := rfl
@[simp] theorem driveAttn_cues : (s.driveAttn).cues = s.cues := rfl
@[simp] theorem driveAttn_pairs : (s.driveAttn).pairs = s.pairs := rfl
@[simp] theorem driveAttn_attention : (s.driveAttn).attention = s.attention := rfl
@[simp] theorem driveAttn_attMask : (s.driveAttn).attMask = s.attMask := rfl
@[simp] theorem driveAttn_port : (s.driveAttn).port = s.port := rfl
@[simp] theorem driveAttn_miso : (s.driveAttn).miso = s.miso := rfl
@[simp] theorem driveAttn_netQueue : (s.driveAttn).netQueue = s.netQueue := rfl
@[simp] theorem driveAttn_netFlight : (s.driveAttn).netFlight = s.netFlight := rfl
@[simp] theorem driveAttn_mailbox : (s.driveAttn).mailbox = s.mailbox := rfl
@[simp] theorem driveAttn_relayOn : (s.driveAttn).relayOn = s.relayOn := rfl

/-! ### setWs -/

@[simp] theorem setWs_pending (r : Requester) (w : Workspace) : (s.setWs r w).pending = s.pending := by cases r <;> rfl
@[simp] theorem setWs_phase (r : Requester) (w : Workspace) : (s.setWs r w).phase = s.phase := by cases r <;> rfl
@[simp] theorem setWs_uptime (r : Requester) (w : Workspace) : (s.setWs r w).uptime = s.uptime := by cases r <;> rfl
@[simp] theorem setWs_clock (r : Requester) (w : Workspace) : (s.setWs r w).clock = s.clock := by cases r <;> rfl
@[simp] theorem setWs_inputs (r : Requester) (w : Workspace) : (s.setWs r w).inputs = s.inputs := by cases r <;> rfl
@[simp] theorem setWs_smap (r : Requester) (w : Workspace) : (s.setWs r w).smap = s.smap := by cases r <;> rfl
@[simp] theorem setWs_records (r : Requester) (w : Workspace) : (s.setWs r w).records = s.records := by cases r <;> rfl
@[simp] theorem setWs_notices (r : Requester) (w : Workspace) : (s.setWs r w).notices = s.notices := by cases r <;> rfl
@[simp] theorem setWs_ctabDue (r : Requester) (w : Workspace) : (s.setWs r w).ctabDue = s.ctabDue := by cases r <;> rfl
@[simp] theorem setWs_legs (r : Requester) (w : Workspace) : (s.setWs r w).legs = s.legs := by cases r <;> rfl
@[simp] theorem setWs_slots (r : Requester) (w : Workspace) : (s.setWs r w).slots = s.slots := by cases r <;> rfl
@[simp] theorem setWs_updates (r : Requester) (w : Workspace) : (s.setWs r w).updates = s.updates := by cases r <;> rfl
@[simp] theorem setWs_reports (r : Requester) (w : Workspace) : (s.setWs r w).reports = s.reports := by cases r <;> rfl
@[simp] theorem setWs_outs (r : Requester) (w : Workspace) : (s.setWs r w).outs = s.outs := by cases r <;> rfl
@[simp] theorem setWs_counts (r : Requester) (w : Workspace) : (s.setWs r w).counts = s.counts := by cases r <;> rfl
@[simp] theorem setWs_marks (r : Requester) (w : Workspace) : (s.setWs r w).marks = s.marks := by cases r <;> rfl
@[simp] theorem setWs_siteOutcome (r : Requester) (w : Workspace) : (s.setWs r w).siteOutcome = s.siteOutcome := by cases r <;> rfl
@[simp] theorem setWs_netOutcome (r : Requester) (w : Workspace) : (s.setWs r w).netOutcome = s.netOutcome := by cases r <;> rfl
@[simp] theorem setWs_idleLimit (r : Requester) (w : Workspace) : (s.setWs r w).idleLimit = s.idleLimit := by cases r <;> rfl
@[simp] theorem setWs_idleDue (r : Requester) (w : Workspace) : (s.setWs r w).idleDue = s.idleDue := by cases r <;> rfl
@[simp] theorem setWs_entries (r : Requester) (w : Workspace) : (s.setWs r w).entries = s.entries := by cases r <;> rfl
@[simp] theorem setWs_cues (r : Requester) (w : Workspace) : (s.setWs r w).cues = s.cues := by cases r <;> rfl
@[simp] theorem setWs_pairs (r : Requester) (w : Workspace) : (s.setWs r w).pairs = s.pairs := by cases r <;> rfl
@[simp] theorem setWs_attention (r : Requester) (w : Workspace) : (s.setWs r w).attention = s.attention := by cases r <;> rfl
@[simp] theorem setWs_attMask (r : Requester) (w : Workspace) : (s.setWs r w).attMask = s.attMask := by cases r <;> rfl
@[simp] theorem setWs_attn (r : Requester) (w : Workspace) : (s.setWs r w).attn = s.attn := by cases r <;> rfl
@[simp] theorem setWs_port (r : Requester) (w : Workspace) : (s.setWs r w).port = s.port := by cases r <;> rfl
@[simp] theorem setWs_miso (r : Requester) (w : Workspace) : (s.setWs r w).miso = s.miso := by cases r <;> rfl
@[simp] theorem setWs_netQueue (r : Requester) (w : Workspace) : (s.setWs r w).netQueue = s.netQueue := by cases r <;> rfl
@[simp] theorem setWs_netFlight (r : Requester) (w : Workspace) : (s.setWs r w).netFlight = s.netFlight := by cases r <;> rfl
@[simp] theorem setWs_mailbox (r : Requester) (w : Workspace) : (s.setWs r w).mailbox = s.mailbox := by cases r <;> rfl
@[simp] theorem setWs_relayOn (r : Requester) (w : Workspace) : (s.setWs r w).relayOn = s.relayOn := by cases r <;> rfl

/-! ### setOutcome -/

@[simp] theorem setOutcome_pending (r : Requester) (o : OutcomeRecord) : (s.setOutcome r o).pending = s.pending := by cases r <;> rfl
@[simp] theorem setOutcome_phase (r : Requester) (o : OutcomeRecord) : (s.setOutcome r o).phase = s.phase := by cases r <;> rfl
@[simp] theorem setOutcome_uptime (r : Requester) (o : OutcomeRecord) : (s.setOutcome r o).uptime = s.uptime := by cases r <;> rfl
@[simp] theorem setOutcome_clock (r : Requester) (o : OutcomeRecord) : (s.setOutcome r o).clock = s.clock := by cases r <;> rfl
@[simp] theorem setOutcome_inputs (r : Requester) (o : OutcomeRecord) : (s.setOutcome r o).inputs = s.inputs := by cases r <;> rfl
@[simp] theorem setOutcome_smap (r : Requester) (o : OutcomeRecord) : (s.setOutcome r o).smap = s.smap := by cases r <;> rfl
@[simp] theorem setOutcome_records (r : Requester) (o : OutcomeRecord) : (s.setOutcome r o).records = s.records := by cases r <;> rfl
@[simp] theorem setOutcome_notices (r : Requester) (o : OutcomeRecord) : (s.setOutcome r o).notices = s.notices := by cases r <;> rfl
@[simp] theorem setOutcome_ctabDue (r : Requester) (o : OutcomeRecord) : (s.setOutcome r o).ctabDue = s.ctabDue := by cases r <;> rfl
@[simp] theorem setOutcome_legs (r : Requester) (o : OutcomeRecord) : (s.setOutcome r o).legs = s.legs := by cases r <;> rfl
@[simp] theorem setOutcome_slots (r : Requester) (o : OutcomeRecord) : (s.setOutcome r o).slots = s.slots := by cases r <;> rfl
@[simp] theorem setOutcome_updates (r : Requester) (o : OutcomeRecord) : (s.setOutcome r o).updates = s.updates := by cases r <;> rfl
@[simp] theorem setOutcome_reports (r : Requester) (o : OutcomeRecord) : (s.setOutcome r o).reports = s.reports := by cases r <;> rfl
@[simp] theorem setOutcome_outs (r : Requester) (o : OutcomeRecord) : (s.setOutcome r o).outs = s.outs := by cases r <;> rfl
@[simp] theorem setOutcome_counts (r : Requester) (o : OutcomeRecord) : (s.setOutcome r o).counts = s.counts := by cases r <;> rfl
@[simp] theorem setOutcome_marks (r : Requester) (o : OutcomeRecord) : (s.setOutcome r o).marks = s.marks := by cases r <;> rfl
@[simp] theorem setOutcome_siteWs (r : Requester) (o : OutcomeRecord) : (s.setOutcome r o).siteWs = s.siteWs := by cases r <;> rfl
@[simp] theorem setOutcome_netWs (r : Requester) (o : OutcomeRecord) : (s.setOutcome r o).netWs = s.netWs := by cases r <;> rfl
@[simp] theorem setOutcome_idleLimit (r : Requester) (o : OutcomeRecord) : (s.setOutcome r o).idleLimit = s.idleLimit := by cases r <;> rfl
@[simp] theorem setOutcome_idleDue (r : Requester) (o : OutcomeRecord) : (s.setOutcome r o).idleDue = s.idleDue := by cases r <;> rfl
@[simp] theorem setOutcome_entries (r : Requester) (o : OutcomeRecord) : (s.setOutcome r o).entries = s.entries := by cases r <;> rfl
@[simp] theorem setOutcome_cues (r : Requester) (o : OutcomeRecord) : (s.setOutcome r o).cues = s.cues := by cases r <;> rfl
@[simp] theorem setOutcome_pairs (r : Requester) (o : OutcomeRecord) : (s.setOutcome r o).pairs = s.pairs := by cases r <;> rfl
@[simp] theorem setOutcome_attention (r : Requester) (o : OutcomeRecord) : (s.setOutcome r o).attention = s.attention := by cases r <;> rfl
@[simp] theorem setOutcome_attMask (r : Requester) (o : OutcomeRecord) : (s.setOutcome r o).attMask = s.attMask := by cases r <;> rfl
@[simp] theorem setOutcome_attn (r : Requester) (o : OutcomeRecord) : (s.setOutcome r o).attn = s.attn := by cases r <;> rfl
@[simp] theorem setOutcome_port (r : Requester) (o : OutcomeRecord) : (s.setOutcome r o).port = s.port := by cases r <;> rfl
@[simp] theorem setOutcome_miso (r : Requester) (o : OutcomeRecord) : (s.setOutcome r o).miso = s.miso := by cases r <;> rfl
@[simp] theorem setOutcome_netQueue (r : Requester) (o : OutcomeRecord) : (s.setOutcome r o).netQueue = s.netQueue := by cases r <;> rfl
@[simp] theorem setOutcome_netFlight (r : Requester) (o : OutcomeRecord) : (s.setOutcome r o).netFlight = s.netFlight := by cases r <;> rfl
@[simp] theorem setOutcome_mailbox (r : Requester) (o : OutcomeRecord) : (s.setOutcome r o).mailbox = s.mailbox := by cases r <;> rfl
@[simp] theorem setOutcome_relayOn (r : Requester) (o : OutcomeRecord) : (s.setOutcome r o).relayOn = s.relayOn := by cases r <;> rfl

/-! ### Reading after writing -/

@[simp] theorem input_setInput (i j : Nat) (x : Input) :
    (s.setInput i x).input j = if i = j then x else s.input j := by
  by_cases h : i = j
  · subst h; simp [State.input, State.setInput, Table.look_store]
  · simp [State.input, State.setInput, Table.look_store_ne _ _ _ _ _ _ h, h]

@[simp] theorem record?_setRecord (h j : Nat) (x : Record) :
    (s.setRecord h x).record? j = if h = j then some x else s.record? j := by
  simp [State.record?, State.setRecord, Table.find?_put]

@[simp] theorem leg_setLeg (f g : Nat) (x : Leg) :
    (s.setLeg f x).leg g = if f = g then x else s.leg g := by
  by_cases h : f = g
  · subst h; simp [State.leg, State.setLeg, Table.look_store]
  · simp [State.leg, State.setLeg, Table.look_store_ne _ _ _ _ _ _ h, h]

@[simp] theorem slotAt_setSlotAt (k j : Nat) (x : Slot) :
    (s.setSlotAt k x).slotAt j = if k = j then x else s.slotAt j := by
  by_cases h : k = j
  · subst h; simp [State.slotAt, State.setSlotAt, Table.look_store]
  · simp [State.slotAt, State.setSlotAt, Table.look_store_ne _ _ _ _ _ _ h, h]

@[simp] theorem out_setOut (f g : Nat) (x : LegOut) :
    (s.setOut f x).out g = if f = g then x else s.out g := by
  by_cases h : f = g
  · subst h; simp [State.out, State.setOut, Table.look_store]
  · simp [State.out, State.setOut, Table.look_store_ne _ _ _ _ _ _ h, h]

@[simp] theorem entry_setEntry (e j : Nat) (x : Entry) :
    (s.setEntry e x).entry j = if e = j then x else s.entry j := by
  by_cases h : e = j
  · subst h; simp [State.entry, State.setEntry, Table.look_store]
  · simp [State.entry, State.setEntry, Table.look_store_ne _ _ _ _ _ _ h, h]

@[simp] theorem pair_setPair (k j : Nat) (x : Pair) :
    (s.setPair k x).pair j = if k = j then x else s.pair j := by
  by_cases h : k = j
  · subst h; simp [State.pair, State.setPair, Table.look_store]
  · simp [State.pair, State.setPair, Table.look_store_ne _ _ _ _ _ _ h, h]

@[simp] theorem mark_setMark (f p g q : Nat) (b : Bool) :
    (s.setMark f p b).mark g q = if pidKey f p = pidKey g q then b else s.mark g q := by
  by_cases h : pidKey f p = pidKey g q
  · simp [State.mark, State.setMark, h, Table.look_store]
  · simp [State.mark, State.setMark, Table.look_store_ne _ _ _ _ _ _ h, h]

@[simp] theorem count_setCount (f p g q n : Nat) :
    (s.setCount f p n).count g q = if pidKey f p = pidKey g q then n else s.count g q := by
  by_cases h : pidKey f p = pidKey g q
  · simp [State.count, State.setCount, h, Table.look_store]
  · simp [State.count, State.setCount, Table.look_store_ne _ _ _ _ _ _ h, h]

@[simp] theorem ws_setWs (r q : Requester) (w : Workspace) :
    (s.setWs r w).ws q = if r = q then w else s.ws q := by
  cases r <;> cases q <;> rfl

@[simp] theorem outcome_setOutcome (r q : Requester) (o : OutcomeRecord) :
    (s.setOutcome r o).outcome q = if r = q then o else s.outcome q := by
  cases r <;> cases q <;> rfl

@[simp] theorem ws_setOutcome (r q : Requester) (o : OutcomeRecord) :
    (s.setOutcome r o).ws q = s.ws q := by
  cases r <;> cases q <;> rfl

@[simp] theorem outcome_setWs (r q : Requester) (w : Workspace) :
    (s.setWs r w).outcome q = s.outcome q := by
  cases r <;> cases q <;> rfl

end Sys2Proof.Machine
end

