-- ==== Sys2Proof/Laws/Ends.lean ====
section
/-! SUPPORT. What the end of a batch does, said once: freed records, released claims, and the whole of
`State.endBatch` as `State.batchEnded` (R115). -/

namespace Sys2Proof.Machine

variable (s : State)

/-- What no step of a fold changes, the fold does not change. -/
theorem foldl_same {α β : Type} (g : State → β) (f : State → α → State)
    (h : ∀ s a, g (f s a) = g s) (l : List α) (s : State) : g (l.foldl f s) = g s := by
  induction l generalizing s with
  | nil => rfl
  | cons a l ih => exact (ih _).trans (h s a)

/-! ### Claims -/

/-- A fold that writes the legs of a list, each from what it held, writes each leg once. -/
theorem leg_foldl_setLeg (up : Leg → Leg) (hu : ∀ x, up (up x) = up x) (l : List Nat) (s : State)
    (f : Nat) :
    (l.foldl (fun s f => s.setLeg f (up (s.leg f))) s).leg f
      = if f ∈ l then up (s.leg f) else s.leg f := by
  induction l generalizing s with
  | nil => simp
  | cons a l ih =>
    rw [List.foldl_cons, ih, leg_setLeg]
    by_cases h1 : a = f
    · subst h1
      rw [if_pos rfl]
      split <;> simp [hu]
    · have h2 : ¬ f = a := fun h => h1 h.symm
      simp [h1, h2]

/-- A fold that writes legs writes nothing else. -/
theorem foldl_setLeg_eq {f : State → Nat → State} (h : ∀ s a, ∃ v, f s a = { s with legs := v })
    (l : List Nat) (s : State) : ∃ v, l.foldl f s = { s with legs := v } := by
  induction l generalizing s with
  | nil => exact ⟨s.legs, rfl⟩
  | cons a l ih =>
    obtain ⟨v, hv⟩ := h s a
    obtain ⟨w, hw⟩ := ih (f s a)
    exact ⟨w, by rw [List.foldl_cons, hw, hv]⟩

theorem releaseClaims_eq (r : Requester) : ∃ v, s.releaseClaims r = { s with legs := v } := by
  unfold State.releaseClaims
  refine foldl_setLeg_eq (fun s a => ?_) _ _
  split
  · exact ⟨_, rfl⟩
  · exact ⟨s.legs, rfl⟩

theorem leg_releaseClaims (r : Requester) (f : Nat) :
    (s.releaseClaims r).leg f
      = if f < 24 ∧ (s.leg f).claim = some r then { s.leg f with claim := none } else s.leg f := by
  unfold State.releaseClaims
  suffices ∀ l : List Nat, ∀ s : State, (l.foldl (fun s f =>
      if (s.leg f).claim = some r then s.setLeg f { s.leg f with claim := none } else s) s).leg f
        = if f ∈ l ∧ (s.leg f).claim = some r then { s.leg f with claim := none } else s.leg f by
    rw [this]
    simp [Config.feeds]
  intro l
  induction l with
  | nil => intro s; simp
  | cons a l ih =>
    intro s
    rw [List.foldl_cons, ih]
    by_cases h2 : (s.leg a).claim = some r
    · rw [if_pos h2, leg_setLeg]
      by_cases h1 : a = f
      · subst h1
        simp [h2]
      · have h3 : ¬ f = a := fun h => h1 h.symm
        simp [h1, h3]
    · rw [if_neg h2]
      by_cases h1 : f = a
      · subst h1
        simp [h2]
      · simp [h1]

/-! ### Records that are still reserved -/

theorem freeReserved_eq (l : List Nat) :
    ∃ v w, s.freeReserved l = { s with records := v, smap := w } := by
  unfold State.freeReserved
  induction l generalizing s with
  | nil => exact ⟨s.records, s.smap, rfl⟩
  | cons a l ih =>
    rw [List.foldl_cons]
    split
    · obtain ⟨v, w, h⟩ := ih (s.freeRecord a)
      exact ⟨v, w, by rw [h]; rfl⟩
    · exact ih s

theorem record?_freeRecord (h g : Nat) :
    (s.freeRecord h).record? g = if h = g then none else s.record? g := Table.find?_erase _ _ _

theorem record?_freeReserved (l : List Nat) (h : Nat) :
    (s.freeReserved l).record? h
      = if h ∈ l ∧ (s.record? h).map (·.state) = some .reserved then none else s.record? h := by
  unfold State.freeReserved
  induction l generalizing s with
  | nil => simp
  | cons a l ih =>
    rw [List.foldl_cons]
    by_cases h1 : (s.record? a).map (·.state) = some .reserved
    · rw [if_pos h1, ih]
      by_cases h2 : a = h
      · subst h2
        simp [record?_freeRecord, h1]
      · have h3 : ¬ h = a := fun e => h2 e.symm
        simp [record?_freeRecord, h2, h3]
    · rw [if_neg h1, ih]
      by_cases h2 : h = a
      · subst h2
        simp [h1]
      · simp [h2]

theorem mem_smap_freeReserved (l : List Nat) (c : Nat × MapEntry) :
    c ∈ (s.freeReserved l).smap ↔ c ∈ s.smap
      ∧ ¬ (c.2.handle ∈ l ∧ (s.record? c.2.handle).map (·.state) = some .reserved) := by
  unfold State.freeReserved
  induction l generalizing s with
  | nil => simp
  | cons a l ih =>
    rw [List.foldl_cons]
    by_cases h1 : (s.record? a).map (·.state) = some .reserved
    · rw [if_pos h1, ih]
      by_cases h2 : c.2.handle = a
      · simp [State.freeRecord, h2, h1]
      · have h3 : ¬ a = c.2.handle := fun e => h2 e.symm
        simp [State.freeRecord, h2, State.record?, Table.find?_erase, h3]
    · rw [if_neg h1, ih]
      by_cases h2 : c.2.handle = a
      · simp [h2, h1]
      · simp [h2]

/-! ### The end -/

/-- The end of a batch does what R115 lists and nothing else. -/
theorem batchEnded_endBatch (r : Requester) (o : OutcomeRecord) :
    s.batchEnded (s.endBatch r o) r o := by
  obtain ⟨v, w, h1⟩ := freeReserved_eq s (s.ws r).handles
  obtain ⟨x, h2⟩ := releaseClaims_eq (s.freeReserved (s.ws r).handles) r
  have hfreed : ∀ h, (∃ x, s.record? h = some x ∧ x.state = .reserved)
      ↔ (s.record? h).map (·.state) = some .reserved := by
    intro h; cases s.record? h <;> simp
  have hrec : ∀ h, (s.endBatch r o).record? h = (s.freeReserved (s.ws r).handles).record? h := by
    intro h; unfold State.endBatch; rw [h2]; cases r <;> rfl
  have hmap : (s.endBatch r o).smap = (s.freeReserved (s.ws r).handles).smap := by
    unfold State.endBatch; rw [h2]; cases r <;> rfl
  refine ⟨?_, ?_, ?_, ?_⟩
  · unfold State.endBatch
    rw [h2, h1]
    cases r <;> rfl
  · intro h
    beta_reduce
    rw [hrec, record?_freeReserved, hfreed]
    constructor
    · intro hh; rw [if_pos hh]
    · intro hh; rw [if_neg hh]
  · intro c
    beta_reduce
    rw [hmap, mem_smap_freeReserved, hfreed]
  · intro f
    have hl : (s.endBatch r o).legs = x := by unfold State.endBatch; rw [h2]; cases r <;> rfl
    have hx : ((s.freeReserved (s.ws r).handles).releaseClaims r).legs = x := by rw [h2]
    have hf : (s.endBatch r o).leg f = ((s.freeReserved (s.ws r).handles).releaseClaims r).leg f := by
      unfold State.leg; rw [hl, hx]
    have hs : (s.freeReserved (s.ws r).handles).leg f = s.leg f := by
      unfold State.leg; rw [h1]
    rw [hf, leg_releaseClaims, hs]

/-- With nothing due at the carriage table, an early end is the end of the batch (R46, R115). -/
theorem endEarly_of_nil (h : s.ctabDue = []) (r : Requester) (o : OutcomeRecord) :
    s.endEarly r o = s.endBatch r o := by
  unfold State.endEarly State.settleCtab
  rw [h]
  cases s
  simp_all

/-- An aborted batch ends so, with the failure's code, index and subject (R115, R121). -/
theorem batchAborted_abort (h : s.ctabDue = []) (r : Requester) (f : Failure) :
    s.batchAborted (s.abort r f) r f.code f.index f.subject := by
  unfold State.abort
  rw [endEarly_of_nil s h]
  exact batchEnded_endBatch s r _

end Sys2Proof.Machine
end

