-- ==== Sys2Proof/Laws/Inputs.lean ====
section
/-! SUPPORT. The search for packet sync: where the window comes to rest, and the law of an input that each
examined byte keeps. -/

namespace Sys2Proof.Machine

theorem syncAt_iff (w : List Byte) (k : Nat) : syncAt w k = true ↔ ∀ b, w[k]? = some b → b = 0x47#8 := by
  unfold syncAt
  cases w[k]? <;> simp

theorem isCandidate_iff (b : Byte) (t : List Byte) :
    isCandidate (b :: t) = true ↔ liveCandidate (b :: t) := by
  simp [isCandidate, liveCandidate, syncAt_iff, and_assoc]

theorem not_liveCandidate_nil : ¬ liveCandidate [] := by simp [liveCandidate]

/-- The window rests on the longest end of the bytes that is a live candidate (R29). -/
theorem settleWindow_rests (w : List Byte) : restsOn (settleWindow w) w := by
  induction w with
  | nil => exact ⟨List.suffix_refl _, Or.inl rfl, fun v hv hl => by simp [List.suffix_nil.1 hv] at hl⟩
  | cons b t ih =>
    unfold settleWindow
    split
    · next h =>
      refine ⟨List.suffix_refl _, Or.inr ((isCandidate_iff b t).1 h), fun v hv hl => ?_⟩
      have := hv.length_le
      omega
    · next h =>
      refine ⟨ih.1.trans (List.suffix_cons b t), ih.2.1, fun v hv hl => ?_⟩
      rcases List.suffix_cons_iff.1 hv with rfl | hv
      · exact fun hc => h ((isCandidate_iff b t).2 hc)
      · exact ih.2.2 v hv hl

/-- A byte examined in SEARCH leaves the window on the bytes' candidate, or locks the input (R29). -/
theorem law_examine {x : Input} (b : Byte) (hx : x.law) (he : x.enabled = true) : (x.examine b).law := by
  unfold Input.examine
  obtain ⟨h1, h2, h3, h4⟩ := hx
  split
  · exact ⟨h1, h2, h3, h4⟩
  · next hs =>
    have hr := settleWindow_rests (x.window ++ [b])
    have hm : x.miss = false := by
      cases h : x.miss
      · rfl
      · exact absurd (h4 h) (by simp [hs])
    dsimp only
    split
    · exact ⟨by simp [he], fun _ => rfl, Or.inl rfl, fun _ => rfl⟩
    · next hne =>
      refine ⟨by simp [he], by simp [he, hs], ?_, by simp [hm]⟩
      refine hr.2.1.imp id fun hc => ⟨hc, ?_⟩
      have h5 := hr.1.length_le
      have h6 : x.window.length ≤ 376 := by
        rcases h3 with h | h
        · simp [h]
        · exact h.2
      simp only [List.length_append, List.length_singleton] at h5
      show (settleWindow (x.window ++ [b])).length ≤ 376
      omega

theorem enabled_examine (x : Input) (b : Byte) : (x.examine b).enabled = x.enabled := by
  unfold Input.examine
  split
  · rfl
  · dsimp only; split <;> rfl

theorem law_examines {x : Input} (l : List Byte) (hx : x.law) (he : x.enabled = true) :
    (l.foldl Input.examine x).law := by
  induction l generalizing x with
  | nil => exact hx
  | cons b l ih => exact ih (law_examine b hx he) ((enabled_examine x b).trans he)

theorem law_clearMiss {x : Input} (c : InputCounters) (hx : x.law) :
    ({ x with miss := false, counters := c } : Input).law :=
  ⟨hx.1, hx.2.1, hx.2.2.1, fun h => absurd h Bool.false_ne_true⟩

theorem law_lostSync {x : Input} (c : InputCounters) :
    ({ x with sync := .search, miss := false, lost := true, window := [], counters := c } : Input).law :=
  ⟨fun _ => rfl, fun _ => rfl, Or.inl rfl, fun h => absurd h Bool.false_ne_true⟩

/-- A change of settings keeps the law: the search starts anew when the enable setting changes (R28). -/
theorem law_switchSync {x y : Input} (hx : x.law) (hs : y.sync = x.sync) (hm : y.miss = x.miss)
    (hw : y.window = x.window) : (switchSync x y).law := by
  unfold switchSync
  obtain ⟨h1, h2, h3, h4⟩ := hx
  split
  · next he =>
    unfold Input.law
    rw [hs, hm, hw, ← he]
    exact ⟨h1, h2, h3, h4⟩
  · exact ⟨fun _ => rfl, fun _ => rfl, Or.inl rfl, nofun⟩

end Sys2Proof.Machine
end

