-- ==== Sys2Proof/Laws/Kept.lean ====
section
/-! SUPPORT. What a step can do to the stores of the part, said once: `Kept s t` says that `t` comes from
`s` by updates that keep every closed law. Each shared operation has one lemma `kept_<operation>`; a law
about the stores is then proved by showing it closed (`Closed`). -/

namespace Sys2Proof.Machine

/-- The stores the laws of Safety.lean are about, and the queue of commands. -/
def State.stores (s : State) :=
  (s.inputs, s.smap, s.records, s.legs, s.slots, s.outs, s.counts, s.marks, (s.siteWs, s.netWs),
    (s.entries, s.cues, s.pairs), (s.attention, s.attMask, s.attn), s.netQueue, s.pending)

/-- A law that every elementary update keeps. -/
structure Closed (P : State → Prop) : Prop where
  reset : ∀ s : State, P s → P { State.reset with pending := s.pending }
  aside : ∀ s t : State, s.stores = t.stores → P s → P t
  input : ∀ s i x, ((s.input i).law → x.law) → P s → P (s.setInput i x)
  smap : ∀ (s : State) m, (Table.rising s.smap → Table.rising m) → P s → P { s with smap := m }
  record : ∀ s h x y, s.record? h = some x → y.key = x.key → P s → P (s.setRecord h y)
  reserve : ∀ s h y, s.record? h = none → (∀ c ∈ s.records, c.2.key ≠ y.key) → P s →
    P (s.setRecord h y)
  free : ∀ (s : State) h, P s → P { s with records := Table.erase s.records h }
  leg : ∀ s f x, P s → P (s.setLeg f x)
  slot : ∀ s k x, ((s.slotAt k).law → x.law) → P s → P (s.setSlotAt k x)
  out : ∀ s f o, (∀ n, (s.out f).buffer.length ≤ n → Config.bufferPlaces ≤ n → o.buffer.length ≤ n) →
    P s → P (s.setOut f o)
  count : ∀ s f p n, P s → P (s.setCount f p n)
  mark : ∀ s f p b, P s → P (s.setMark f p b)
  ws : ∀ s r w, ((s.ws r).bounded → w.bounded) → P s → P (s.setWs r w)
  entry : ∀ s e x, P s → P (s.setEntry e x)
  cues : ∀ (s : State) l,
    (s.cues.length ≤ Config.cuePlaces → l.length ≤ Config.cuePlaces) → P s → P { s with cues := l }
  pair : ∀ s k x, P s → P (s.setPair k x)
  attention : ∀ (s : State) a m, (Table.rising s.attention → Table.rising a) → P s →
    P { s with attention := a, attMask := m }.driveAttn
  queue : ∀ (s : State) q,
    (s.netQueue.length ≤ Config.queuePlaces → q.length ≤ Config.queuePlaces) → P s →
    P { s with netQueue := q }

/-- `t` has every closed law that `s` has. -/
def Kept (s t : State) : Prop := ∀ P, Closed P → P s → P t

theorem Kept.refl (s : State) : Kept s s := fun _ _ h => h

theorem Kept.trans {s t u : State} (h : Kept s t) (k : Kept t u) : Kept s u :=
  fun P c p => k P c (h P c p)

theorem Kept.aside {s t : State} (h : s.stores = t.stores) : Kept s t := fun _ c p => c.aside _ _ h p

theorem kept_foldl {α : Type} (f : State → α → State) (h : ∀ s a, Kept s (f s a)) (l : List α)
    (s : State) : Kept s (l.foldl f s) := by
  induction l generalizing s with
  | nil => exact .refl s
  | cons a l ih => exact (h s a).trans (ih _)

theorem kept_ite {p : Prop} [Decidable p] {s t u : State} (ht : Kept s t) (hu : Kept s u) :
    Kept s (if p then t else u) := by
  split <;> assumption

/-! ### Elementary updates -/

variable (s : State)

theorem kept_setInput {i : Nat} {x : Input} (hx : (s.input i).law → x.law) : Kept s (s.setInput i x) :=
  fun _ c p => c.input _ _ _ hx p

theorem kept_setLeg (f : Nat) (x : Leg) : Kept s (s.setLeg f x) := fun _ c p => c.leg _ _ _ p
theorem kept_setCount (f q n : Nat) : Kept s (s.setCount f q n) := fun _ c p => c.count _ _ _ _ p
theorem kept_setMark (f q : Nat) (b : Bool) : Kept s (s.setMark f q b) := fun _ c p => c.mark _ _ _ _ p
theorem kept_setEntry (e : Nat) (x : Entry) : Kept s (s.setEntry e x) := fun _ c p => c.entry _ _ _ p
theorem kept_setPair (k : Nat) (x : Pair) : Kept s (s.setPair k x) := fun _ c p => c.pair _ _ _ p

theorem kept_setOutcome (r : Requester) (o : OutcomeRecord) : Kept s (s.setOutcome r o) :=
  .aside (by cases r <;> rfl)

theorem kept_setRecord {h : Nat} {x y : Record} (hx : s.record? h = some x) (hk : y.key = x.key) :
    Kept s (s.setRecord h y) := fun _ c p => c.record _ _ _ _ hx hk p

theorem kept_setWs {r : Requester} {w : Workspace} (hw : (s.ws r).bounded → w.bounded) :
    Kept s (s.setWs r w) := fun _ c p => c.ws _ _ _ hw p

theorem kept_setSlotAt {k : Nat} {x : Slot} (hx : (s.slotAt k).law → x.law) :
    Kept s (s.setSlotAt k x) := fun _ c p => c.slot _ _ _ hx p

/-- A change of a slot's reservation alone. -/
theorem kept_setReserved (k : Nat) (e : Option Nat) :
    Kept s (s.setSlotAt k { s.slotAt k with reserved := e }) := kept_setSlotAt _ id

theorem kept_setOut {f : Nat} {o : LegOut}
    (ho : o.buffer.length ≤ (s.out f).buffer.length ∨ o.buffer.length ≤ Config.bufferPlaces) :
    Kept s (s.setOut f o) := fun _ c p => c.out _ _ _ (by intros; omega) p

theorem kept_modRecord (h : Nat) (f : Record → Record) (hf : ∀ r, (f r).key = r.key) :
    Kept s (s.modRecord h f) := by
  unfold State.modRecord
  split
  · exact kept_setRecord _ (by assumption) (hf _)
  · exact .refl _

theorem kept_driveAttn (a : Table Nat) (m : KindSet)
    (h : Table.rising s.attention → Table.rising a) :
    Kept s { s with attention := a, attMask := m }.driveAttn := fun _ c p => c.attention _ _ _ h p

theorem kept_raise (k : AttKind) (d : Nat) : Kept s (s.raise k d) := by
  unfold State.raise
  split
  · exact .refl _
  · exact kept_driveAttn s _ s.attMask (Table.rising_put _ _ _)

/-! ### Ops and Flags -/

theorem kept_markRange (f b : Nat) : Kept s (s.markRange f b) :=
  kept_foldl _ (fun _ _ => kept_setMark _ _ _ _) _ _

theorem kept_freeRecord (h : Nat) : Kept s (s.freeRecord h) :=
  fun _ c p => c.smap { s with records := Table.erase s.records h } _ (Table.rising_filter _ _)
    (c.free _ _ p)

theorem kept_takeUpdate (u : OnAirUpdate) : Kept s (s.takeUpdate u) := by
  have lower : ∀ (s : State) (o : Nat), Kept s (
      let s := s.modRecord o fun r => { r with onAir := r.onAir - 1 }
      match s.record? o with
      | some r => if r.state = .retiring && r.onAir == 0 then s.freeRecord o else s
      | none => s) := by
    intro s o
    dsimp only
    split
    · exact .trans (kept_modRecord _ _ _ (by intro _; rfl)) (kept_ite (kept_freeRecord _ _) (.refl _))
    · exact kept_modRecord _ _ _ (by intro _; rfl)
  obtain ⟨old, new⟩ := u
  cases old <;> cases new
  · exact .refl _
  · exact kept_modRecord _ _ _ (by intro _; rfl)
  · exact lower _ _
  · exact .trans (kept_modRecord _ _ _ (by intro _; rfl)) (lower _ _)

theorem kept_takeUpdates : Kept s s.takeUpdates :=
  (Kept.aside (s := s) (t := { s with updates := [] }) rfl).trans (kept_foldl _ kept_takeUpdate _ _)

theorem kept_plan (a b : Option Nat) : Kept s (s.plan a b) := by
  unfold State.plan
  cases a <;> cases b <;> dsimp only
  · exact .refl _
  · exact kept_modRecord _ _ _ (by intro _; rfl)
  · exact kept_modRecord _ _ _ (by intro _; rfl)
  · exact (kept_modRecord _ _ _ (by intro _; rfl)).trans (kept_modRecord _ _ _ (by intro _; rfl))

theorem kept_moveFallbackRef (a b : Option Nat) : Kept s (s.moveFallbackRef a b) := by
  unfold State.moveFallbackRef
  cases a <;> cases b <;> dsimp only
  · exact .refl _
  · exact kept_modRecord _ _ _ (by intro _; rfl)
  · exact kept_modRecord _ _ _ (by intro _; rfl)
  · exact (kept_modRecord _ _ _ (by intro _; rfl)).trans (kept_modRecord _ _ _ (by intro _; rfl))

theorem kept_addSpliceRefs (l : List SlotEdit) : Kept s (s.addSpliceRefs l) := by
  refine kept_foldl _ (fun s e => ?_) _ _
  split
  · exact kept_modRecord _ _ _ (by intro _; rfl)
  · exact .refl _

theorem kept_dropSpliceRefs (l : List SlotEdit) : Kept s (s.dropSpliceRefs l) := by
  refine kept_foldl _ (fun s e => ?_) _ _
  split
  · exact kept_modRecord _ _ _ (by intro _; rfl)
  · exact .refl _

theorem kept_releaseClaims (r : Requester) : Kept s (s.releaseClaims r) :=
  kept_foldl _ (fun _ _ => kept_ite (kept_setLeg _ _ _) (.refl _)) _ _

theorem kept_passReservations (e : Nat) (n : Option Nat) : Kept s (s.passReservations e n) :=
  kept_foldl _ (fun _ _ => kept_ite (kept_setReserved _ _ _) (.refl _)) _ _

theorem kept_report (f : Nat) (e : LegEvent) (c : ProgClass) (n : Nat) : Kept s (s.report f e c n) :=
  kept_foldl _ (fun _ _ => kept_setPair _ _ _) _ _

theorem kept_reportFor (f : Nat) (e : LegEvent) (h n : Nat) : Kept s (s.reportFor f e h n) := by
  unfold State.reportFor
  split
  · exact kept_report _ _ _ _ _
  · exact .refl _

theorem kept_countInput (i : Nat) (f : InputCounters → InputCounters) : Kept s (s.countInput i f) :=
  kept_setInput _ id

/-! ### Entries -/

theorem kept_freeEntry (e : Nat) (r : LastResult) (c : Option Code) : Kept s (s.freeEntry e r c) :=
  kept_setEntry _ _ _

theorem kept_untrack (e : Nat) (t : Nat × Nat) : Kept s (s.untrack e t) := by
  unfold State.untrack
  refine kept_ite ?_ (.refl _)
  refine (kept_setEntry _ _ _).trans (kept_ite ?_ (.refl _))
  exact (kept_freeEntry _ _ _ _).trans (kept_raise _ _ _)

theorem kept_takeReport (t : SlotReport) : Kept s (s.takeReport t) :=
  kept_foldl _ (fun _ _ => kept_untrack _ _ _) _ _

theorem kept_drainReports : Kept s s.drainReports :=
  (Kept.aside (s := s) (t := { s with reports := [] }) rfl).trans (kept_foldl _ kept_takeReport _ _)

theorem kept_takeReports : Kept s s.takeReports := kept_ite (.refl _) (kept_drainReports _)

/-! ### Slots -/

theorem kept_changeSource (f : Nat) (a b : Slot) : Kept s (s.changeSource f a b) := by
  unfold State.changeSource
  refine kept_ite (.refl _) ?_
  refine (Kept.aside (s := s) (t := { s with updates := s.updates ++ [⟨a.source, b.source⟩] }) rfl).trans ?_
  split
  · exact kept_markRange _ _ _
  · exact .refl _

theorem kept_reportMove (f : Nat) (m : Move) : Kept s (s.reportMove f m) := by
  unfold State.reportMove
  split
  · exact kept_reportFor _ _ _ _ _
  · exact .refl _

/-! The moves keep the law of slots. -/

theorem law_goSteady (x : Slot) (b : Binding) (e : Option LegEvent) (hp : x.planned = some b) :
    (goSteady x b.handle e).slot.law := by
  simp [goSteady, Slot.law, hp]

theorem law_goSlated (x : Slot) (hp : x.planned.isSome) : (goSlated x).slot.law := by
  simp [goSlated, Slot.law, hp]

theorem law_goFallback (x : Slot) (p : Nat) (hp : x.planned.isSome) : (goFallback s x p).slot.law := by
  unfold goFallback
  split
  · simp [Slot.law, hp]
  · exact law_goSlated x hp

theorem law_enterPending (f : Nat) (x : Slot) (b : Binding) (hp : x.planned = some b) :
    (enterPending s f x b.handle).slot.law := by
  unfold enterPending
  split
  · simp [Slot.law, hp]
  · exact law_goSteady x b _ hp

theorem law_bindMove (f : Nat) (x : Slot) (b : Option Binding) (hx : x.law) :
    (bindMove s f x b).slot.law := by
  unfold bindMove
  split
  · simp [Slot.law]
  · dsimp only
    split
    · rename_i h
      cases hp : x.planned with
      | none => simp [hp] at h
      | some c =>
        cases ho : x.onAir <;> simp_all [Slot.law]
    · split
      · split
        · exact law_goSteady _ _ _ rfl
        · exact law_enterPending _ _ _ _ rfl
      · exact law_goFallback _ _ _ rfl

theorem law_fallbackMove {f : Nat} {x : Slot} {b : Binding} {old : Option Nat} {m : Move}
    (hp : x.planned = some b) (h : fallbackMove s f x b.handle old = some m) : m.slot.law := by
  have hs : x.planned.isSome := by simp [hp]
  unfold fallbackMove at h
  split at h
  · split at h
    · simp only [Option.some.injEq] at h
      subst h
      split
      · exact law_enterPending _ _ _ _ hp
      · exact law_goFallback _ _ _ hs
    · simp at h
  · split at h
    · simp only [Option.some.injEq] at h
      exact h ▸ law_goFallback _ _ _ hs
    · simp at h
  all_goals simp at h

theorem law_lossMove {X : Nat} {x : Slot} {m : Move} (h : lossMove s X x = some m) : m.slot.law := by
  unfold lossMove at h
  split at h
  · simp at h
  · rename_i b hp
    have hs : x.planned.isSome := by simp [hp]
    split at h
    · split at h <;> simp only [Option.some.injEq, reduceCtorEq] at h <;>
        exact h ▸ law_goFallback _ _ _ hs
    · split at h
      · split at h <;> simp only [Option.some.injEq, reduceCtorEq] at h <;> subst h <;> split
        · exact law_goSteady _ _ _ hp
        · exact law_goFallback _ _ _ hs
        · exact law_goSteady _ _ _ hp
        · exact law_goSlated _ hs
      · simp at h

theorem law_restorationMove {X f : Nat} {x : Slot} {m : Move} (h : restorationMove s X f x = some m) :
    m.slot.law := by
  unfold restorationMove at h
  split at h
  · simp at h
  · rename_i b hp
    have hs : x.planned.isSome := by simp [hp]
    split at h
    · rename_i hb
      subst hb
      split at h
      · simp only [Option.some.injEq] at h
        exact h ▸ law_enterPending _ _ _ _ hp
      · split at h
        · simp only [Option.some.injEq] at h
          exact h ▸ law_enterPending _ _ _ _ hp
        · simp at h
      all_goals simp at h
    · split at h
      · simp only [Option.some.injEq] at h
        exact h ▸ law_goFallback _ _ _ hs
      · simp at h

theorem law_sightingMove {R : Nat} {x : Slot} {m : Move} (h : sightingMove R x = some m) :
    m.slot.law := by
  unfold sightingMove at h
  split at h
  · simp at h
  · rename_i b hp
    split at h
    · rename_i hb
      simp only [Option.some.injEq] at h
      simp only [Bool.and_eq_true, decide_eq_true_eq] at hb
      rw [← hb.1] at h
      exact h ▸ law_goSteady _ _ _ hp
    · simp at h

theorem law_deadlineMove {x : Slot} {b : Binding} (hp : x.planned = some b) :
    (deadlineMove s x b.handle).slot.law := by
  unfold deadlineMove
  split
  · exact law_goSteady _ _ _ hp
  · exact law_goFallback _ _ _ (by simp [hp])

theorem kept_reportLeft (f i : Nat) : Kept s (s.reportLeft f i) := by
  unfold State.reportLeft
  exact kept_ite (.refl _) (.aside rfl)

theorem kept_applyMove {f i : Nat} {m : Move} (h : (s.slot f i).law → m.slot.law) :
    Kept s (s.applyMove f i m) := by
  unfold State.applyMove
  refine ((kept_setSlotAt _ h).trans ((kept_changeSource _ _ _ _).trans
    (kept_reportMove _ _ _))).trans (kept_ite (kept_reportLeft _ _ _) (.refl _))

theorem slotKey_div_mod (k : Nat) : slotKey (k / 16) (k % 16) = k := by
  unfold slotKey
  omega

theorem kept_moveSlots {g : Nat → Slot → Option Move}
    (hg : ∀ f x m, g f x = some m → x.law → m.slot.law) : Kept s (s.moveSlots g) := by
  refine kept_foldl _ (fun s k => ?_) _ _
  split
  · rename_i hm
    refine kept_applyMove _ fun hx => hg _ _ _ hm ?_
    rwa [State.slot, slotKey_div_mod] at hx
  · exact .refl _

theorem slotAt_setMark (f q : Nat) (b : Bool) (k : Nat) : (s.setMark f q b).slotAt k = s.slotAt k := rfl

theorem slotAt_markRange (f b k : Nat) : (s.markRange f b).slotAt k = s.slotAt k := by
  unfold State.markRange
  have h : ∀ (l : List Nat) (t : State),
      (l.foldl (fun s k => s.setMark f (b + k) true) t).slotAt k = t.slotAt k := by
    intro l
    induction l with
    | nil => intro t; rfl
    | cons a l ih => intro t; rw [List.foldl_cons, ih, slotAt_setMark]
  exact h _ _

theorem slotAt_modRecord (h : Nat) (g : Record → Record) (k : Nat) :
    (s.modRecord h g).slotAt k = s.slotAt k := by
  unfold State.modRecord
  split <;> rfl

theorem slotAt_plan (a b : Option Nat) (k : Nat) : (s.plan a b).slotAt k = s.slotAt k := by
  unfold State.plan
  cases a <;> cases b <;> simp [slotAt_modRecord]

theorem kept_rebind (f i : Nat) (b : Option Binding) : Kept s (s.rebind f i b) := by
  unfold State.rebind
  dsimp only
  split
  · exact .refl _
  · have law : ∀ t : State, t.slotAt (slotKey f i) = s.slotAt (slotKey f i) →
        ((t.slot f i).law → (bindMove s f (s.slot f i) b).slot.law) := by
      intro t ht hx
      exact law_bindMove _ _ _ _ (by rw [State.slot, ht] at hx; exact hx)
    split
    · refine .trans ?_ (kept_applyMove _ (law _ ?_))
      · exact .trans (kept_plan _ _ _) (kept_ite (kept_markRange _ _ _) (.refl _))
      · split <;> simp [slotAt_markRange, slotAt_plan]
    · exact .trans (kept_plan _ _ _) (kept_applyMove _ (law _ (slotAt_plan _ _ _ _)))

theorem kept_takeLoss (X : Nat) : Kept s (s.takeLoss X) :=
  kept_ite (.refl _) ((kept_moveSlots _ fun _ _ _ h _ => law_lossMove _ h).trans (kept_takeReports _))

theorem kept_takeRestoration (X : Nat) : Kept s (s.takeRestoration X) :=
  kept_ite ((kept_moveSlots _ fun _ _ _ h _ => law_restorationMove _ h).trans (kept_takeReports _))
    (.refl _)

theorem kept_sight (R : Nat) (b : Bool) : Kept s (s.sight R b) :=
  kept_ite ((kept_moveSlots _ fun _ _ _ h _ => law_sightingMove h).trans (kept_takeReports _)) (.refl _)

theorem kept_expireDeadline (f i : Nat) : Kept s (s.expireDeadline f i) := by
  unfold State.expireDeadline
  dsimp only
  split
  · rename_i hp _
    exact kept_ite ((kept_applyMove _ fun _ => law_deadlineMove _ hp).trans (kept_takeReports _)) (.refl _)
  · exact .refl _

/-! ### Output -/

theorem kept_offer (f pid : Nat) (c : ProgClass) (p : List Byte) : Kept s (s.offer f pid c p) := by
  unfold State.offer
  extract_lets o n due room preface copy
  split
  · rename_i h
    refine .trans ?_ (kept_setMark _ _ _ _)
    have h1 := kept_setOut s (f := f) (o := { o with buffer := o.buffer ++ preface ++ [copy] })
      (.inr (by simpa [List.length_append, Nat.add_assoc] using h))
    exact kept_ite (.trans h1 (kept_setCount _ _ _ _)) h1
  · exact kept_report _ _ _ _ _

theorem kept_copyTo (f pid : Nat) (c : ProgClass) (p : List Byte) : Kept s (s.copyTo f pid c p) := by
  unfold State.copyTo
  split
  · exact kept_offer _ _ _ _ _
  · exact kept_report _ _ _ _ _
  · exact .refl _

theorem kept_makeCopies (R k : Nat) (c : ProgClass) (p : List Byte) :
    Kept s (s.makeCopies R k c p) := by
  unfold State.makeCopies
  refine kept_foldl _ (fun t d => ?_) _ _
  split
  · exact kept_ite (kept_copyTo _ _ _ _ _) (.refl _)
  · exact .refl _

theorem kept_sendPacket (f : Nat) : Kept s (s.sendPacket f) := by
  unfold State.sendPacket
  dsimp only
  split
  · exact kept_setOut _ (.inl (le_refl _))
  · rename_i b rest _ hb
    exact (kept_setOut _ (.inl (by simp [hb]))).trans
      (kept_ite (.refl _) (kept_report _ _ _ _ _))
  · exact kept_setOut _ (.inl (le_refl _))

theorem kept_buildDirectory (f : Nat) : Kept s (s.buildDirectory f) := by
  unfold State.buildDirectory
  exact .trans (kept_setOut s (f := f) (.inl (by exact le_refl _))) (kept_setCount _ _ _ _)

theorem kept_startDirectory (f : Nat) : Kept s (s.startDirectory f) :=
  (kept_buildDirectory _ _).trans (kept_setOut _ (.inl (le_refl _)))

theorem kept_markPlanned (f : Nat) : Kept s (s.markPlanned f) := by
  refine kept_foldl _ (fun s i => ?_) _ _
  split
  · exact kept_markRange _ _ _
  · exact .refl _

theorem kept_changeOutput (f : Nat) (old : LegState) : Kept s (s.changeOutput f old) := by
  unfold State.changeOutput
  split
  · exact (kept_markPlanned _ _).trans (kept_startDirectory _ _)
  · exact kept_startDirectory _ _
  · exact kept_setOut _ (.inl (by simp))
  · exact kept_markPlanned _ _
  · exact kept_setOut _ (.inl (by simp))
  · exact kept_setOut _ (.inl (by simp))
  all_goals exact .refl _

theorem kept_expirePeriod (f : Nat) : Kept s (s.expirePeriod f) := by
  unfold State.expirePeriod
  split
  · exact kept_ite (kept_startDirectory _ _) (.refl _)
  · exact .refl _

/-! ### Monitor -/

theorem kept_reportLoss (h : Nat) : Kept s (s.reportLoss h) := (kept_raise _ _ _).trans (.aside rfl)

theorem kept_reportRestoration (h : Nat) : Kept s (s.reportRestoration h) :=
  (kept_raise _ _ _).trans (.aside rfl)

theorem kept_loseSource {h : Nat} {r : Record} (hr : s.record? h = some r) :
    Kept s (s.loseSource h r) := by
  unfold State.loseSource
  split
  · exact (kept_setRecord _ hr (by rfl)).trans (kept_reportLoss _ _)
  · exact (kept_setRecord _ hr (by rfl)).trans (kept_reportLoss _ _)
  · exact kept_ite (kept_setRecord _ hr (by rfl))
      ((kept_setRecord _ hr (by rfl)).trans (kept_reportLoss _ _))
  all_goals exact .refl _

theorem kept_expireWindow (h : Nat) : Kept s (s.expireWindow h) := by
  unfold State.expireWindow
  split
  · rename_i hr
    split
    · exact kept_ite (kept_loseSource _ hr) (.refl _)
    · exact .refl _
  · exact .refl _

theorem kept_endHold (h : Nat) : Kept s (s.endHold h) := by
  unfold State.endHold
  split
  · rename_i hr
    split
    · exact kept_ite ((kept_setRecord _ hr (by rfl)).trans (kept_reportRestoration _ _)) (.refl _)
    · exact .refl _
  · exact .refl _

theorem kept_takeDue (d : DueAct) : Kept s (s.takeDue d) := by
  cases d
  · exact kept_expireWindow _ _
  · exact kept_endHold _ _

theorem kept_settleCtab : Kept s s.settleCtab :=
  (Kept.aside (s := s) (t := { s with ctabDue := [] }) rfl).trans (kept_foldl _ kept_takeDue _ _)

theorem kept_countPacket (h : Nat) : Kept s (s.countPacket h) := by
  unfold State.countPacket
  split
  · rename_i hr
    dsimp only
    split
    · exact kept_setRecord _ hr (by rfl)
    · exact kept_setRecord _ hr (by rfl)
    · exact kept_ite ((kept_setRecord _ hr (by rfl)).trans (kept_reportRestoration _ _))
        (kept_setRecord _ hr (by rfl))
    · exact kept_setRecord _ hr (by rfl)
    · exact .refl _
  · exact .refl _

theorem kept_completeProbe (h k : Nat) (p : List Byte) : Kept s (s.completeProbe h k p) := by
  unfold State.completeProbe
  split
  · rename_i hr
    exact kept_ite ((kept_setRecord _ hr (by rfl)).trans (kept_raise _ _ _)) (.refl _)
  · exact .refl _

theorem kept_notePacket (h k : Nat) (p : List Byte) : Kept s (s.notePacket h k p) :=
  (kept_settleCtab _).trans ((kept_modRecord _ _ _ (by intro _; rfl)).trans
    ((kept_completeProbe _ _ _ _).trans (kept_ite (kept_countPacket _ _) (.refl _))))

end Sys2Proof.Machine
end

