-- ==== Sys2Proof/Laws/KeptStep.lean ====
section
/-! SUPPORT. `Kept` for commits, splices, batches, requests, the port and the inputs, and so for every
command and every step. -/

namespace Sys2Proof.Machine

variable (s : State)

/-! ### Commit -/

theorem kept_freeReserved (l : List Nat) : Kept s (s.freeReserved l) :=
  kept_foldl _ (fun _ _ => kept_ite (kept_freeRecord _ _) (.refl _)) _ _

theorem bounded_start : Workspace.start.bounded := by
  simp [Workspace.bounded, Workspace.start]

theorem kept_endBatch (r : Requester) (o : OutcomeRecord) : Kept s (s.endBatch r o) :=
  (kept_freeReserved _ _).trans ((kept_releaseClaims _ _).trans
    ((kept_setWs _ fun _ => bounded_start).trans (kept_setOutcome _ _ _)))

theorem kept_endEarly (r : Requester) (o : OutcomeRecord) : Kept s (s.endEarly r o) :=
  (kept_settleCtab _).trans (kept_endBatch _ _ _)

theorem kept_abort (r : Requester) (f : Failure) : Kept s (s.abort r f) := kept_endEarly _ _ _

theorem kept_writeBindings (l : List SlotEdit) : Kept s (s.writeBindings l) :=
  kept_foldl _ (fun _ _ => kept_rebind _ _ _ _) _ _

theorem kept_commitRecord (h : Nat) : Kept s (s.commitRecord h) := by
  unfold State.commitRecord
  dsimp only
  have step : ∀ t : State, Kept t { t with smap := t.smap.map fun c =>
      if c.2.handle = h then (c.1, { c.2 with active := true, lastCount := none }) else c } := by
    intro t P c p
    refine c.smap _ _ (Table.rising_map _ _ ?_) p
    intro d
    split <;> rfl
  refine .trans ?_ (step _)
  exact .trans (kept_modRecord _ _ _ (by intro _; rfl)) (kept_moveFallbackRef _ _ _)

theorem AmendFields.apply_key (a : AmendFields) (r : Record) : (a.apply r).key = r.key := rfl

theorem kept_amendRecord (a : AmendFields) : Kept s (s.amendRecord a) := by
  unfold State.amendRecord
  dsimp only
  split
  · exact kept_modRecord _ _ _ a.apply_key
  · exact .trans (kept_modRecord _ _ _ a.apply_key) (kept_moveFallbackRef _ _ _)

theorem kept_writeRecord (e : Edit) : Kept s (s.writeRecord e) := by
  cases e
  · exact kept_commitRecord _ _
  · exact kept_amendRecord _ _
  all_goals exact .refl _

theorem kept_writeLeg (e : Edit) : Kept s (s.writeLeg e) := by
  cases e
  case setLeg => exact kept_setLeg _ _ _
  all_goals exact .refl _

theorem kept_retireRecord (h : Nat) : Kept s (s.retireRecord h) := by
  unfold State.retireRecord
  dsimp only
  split
  · rename_i hr
    exact .trans (kept_moveFallbackRef _ _ _)
      (kept_ite (kept_freeRecord _ _) (kept_setRecord _ hr (by rfl)))
  · exact kept_moveFallbackRef _ _ _

theorem kept_writeOutputs (before : State) : Kept s (State.writeOutputs before s) :=
  kept_foldl _ (fun _ _ => kept_changeOutput _ _ _) _ _

theorem kept_fallDue (h : Nat) : Kept s (s.fallDue h) := .aside rfl

theorem law_refallback {before : State} {k : Nat} {x : Slot} {m : Move}
    (h : refallback before s k x = some m) : m.slot.law := by
  unfold refallback at h
  split at h
  · rename_i hp
    split at h
    · simp at h
    · exact law_fallbackMove _ hp h
  · simp at h

theorem kept_writePicture (p : Picture) : Kept s (s.writePicture p) := by
  unfold State.writePicture
  dsimp only
  refine .trans ?_ (kept_foldl _ kept_fallDue _ _)
  refine .trans ?_ (kept_writeOutputs _ _)
  refine .trans ?_ (kept_foldl _ (fun _ _ => kept_retireRecord _ _) _ _)
  refine .trans ?_ (kept_takeUpdates _)
  refine .trans ?_ (kept_moveSlots _ fun _ _ _ h _ => law_refallback _ h)
  refine .trans ?_ (kept_writeBindings _ _)
  exact .trans (kept_foldl _ kept_writeRecord _ _) (kept_foldl _ kept_writeLeg _ _)

theorem kept_commitImmediate (r : Requester) : Kept s (s.commitImmediate r) := by
  unfold State.commitImmediate
  dsimp only
  split
  · exact kept_abort _ _ _
  · exact .trans (kept_writePicture _ _) (kept_endBatch _ _ _)

theorem kept_reserve (l : List SlotEdit) (e : Nat) : Kept s (s.reserve l e) :=
  kept_foldl _ (fun _ _ => kept_setReserved _ _ _) _ _

theorem kept_armEntries (r : Requester) (w : Workspace) (t : Trigger) (a b : List SlotEdit)
    (o : Nat) (n : Option Nat) : Kept s (s.armEntries r w t a b o n) := by
  have h : Kept s (((s.setEntry o (originalEntry r w t a n)).reserve a o).addSpliceRefs a) :=
    .trans (kept_setEntry _ _ _) (.trans (kept_reserve _ _ _) (kept_addSpliceRefs _ _))
  unfold State.armEntries
  dsimp only
  split
  · exact .trans h (.trans (kept_setEntry _ _ _) (kept_addSpliceRefs _ _))
  · exact h

theorem kept_commitDeferred (r : Requester) : Kept s (s.commitDeferred r) := by
  unfold State.commitDeferred
  dsimp only
  split
  · exact kept_abort _ _ _
  · exact kept_endBatch _ _ _
  · split
    · exact kept_endBatch _ _ _
    · split
      · exact kept_abort _ _ _
      · exact .trans (kept_armEntries _ _ _ _ _ _ _ _) (kept_endBatch _ _ _)

theorem kept_tablesReady : Kept s s.tablesReady := (kept_settleCtab _).trans (kept_takeUpdates _)

theorem kept_commit (r : Requester) : Kept s (s.commit r) := by
  unfold State.commit
  dsimp only
  split
  · exact .trans (kept_tablesReady _) (.trans (kept_commitImmediate _ _) (kept_takeReports _))
  · exact .trans (kept_tablesReady _) (kept_commitDeferred _ _)

/-! ### Splice -/

theorem kept_armReturn (e : Nat) : Kept s (s.armReturn e) := by
  unfold State.armReturn
  split
  · exact .trans (kept_passReservations _ _ _) (kept_setEntry _ _ _)
  · exact kept_passReservations _ _ _

theorem kept_finishEntry (e a k : Nat) : Kept s (s.finishEntry e a k) := by
  unfold State.finishEntry
  dsimp only
  split
  · exact .trans (kept_setEntry _ _ _) (.trans (kept_freeEntry _ _ _ _) (kept_raise _ _ _))
  · exact kept_setEntry _ _ _

theorem kept_passEntry (e : Nat) (p : Picture) : Kept s (s.passEntry e p) :=
  .trans (kept_writeBindings _ _) (.trans (kept_dropSpliceRefs _ _)
    (.trans (kept_takeUpdates _) (.trans (kept_armReturn _ _) (kept_finishEntry _ _ _ _))))

theorem kept_endHeldPartner (e : Nat) (r : LastResult) (c : Option Code) :
    Kept s (s.endHeldPartner e r c) := by
  unfold State.endHeldPartner
  split
  · exact kept_ite (.trans (kept_dropSpliceRefs _ _) (kept_freeEntry _ _ _ _)) (.refl _)
  · exact .refl _

theorem kept_failEntry (e : Nat) (c : Code) : Kept s (s.failEntry e c) := by
  unfold State.failEntry
  extract_lets t u x
  have h : Kept s u := .trans (kept_endHeldPartner _ _ _ _)
    (.trans (kept_dropSpliceRefs _ _) (kept_passReservations _ _ _))
  exact .trans h (.trans (kept_setEntry _ _ _) (.trans (kept_freeEntry _ _ _ _) (kept_raise _ _ _)))

theorem kept_execute (e : Nat) : Kept s (s.execute e) := by
  unfold State.execute
  dsimp only
  split
  · exact .trans (kept_tablesReady _) (kept_passEntry _ _ _)
  · exact .trans (kept_tablesReady _) (kept_failEntry _ _ _)

theorem kept_occur (e : Nat) (m : MatcherName) : Kept s (s.occur e m) := by
  unfold State.occur
  exact .trans (kept_setEntry s e _) (kept_ite (kept_execute _ _) (.refl _))

theorem kept_offerTo (c : Cue) (e : Nat) : Kept s (s.offerTo c e) := by
  unfold State.offerTo
  dsimp only
  split
  · exact kept_ite (kept_occur _ _ _) (.trans (kept_occur _ _ _) (kept_occur _ _ _))
  · exact kept_occur _ _ _
  · exact kept_occur _ _ _
  · exact .refl _

theorem kept_offerCue (c : Cue) : Kept s (s.offerCue c) :=
  kept_foldl _ (fun _ _ => kept_offerTo _ _ _) _ _

theorem kept_cues {l : List Cue} (h : l.length ≤ s.cues.length ∨ l.length ≤ Config.cuePlaces) :
    Kept s { s with cues := l } := fun _ c p => c.cues _ _ (by omega) p

theorem kept_matureCues : Kept s s.matureCues :=
  .trans (kept_cues _ (.inl (List.length_filter_le _ _))) (kept_foldl _ kept_offerCue _ _)

theorem kept_timeOccurs (e : Nat) (m : MatcherName) : Kept s (s.timeOccurs e m) :=
  kept_ite (.trans (kept_setEntry _ _ _) (kept_occur _ _ _)) (.refl _)

theorem kept_testTimes : Kept s s.testTimes :=
  kept_foldl _ (fun _ _ => kept_timeOccurs _ _ _) _ _

theorem kept_spsReady : Kept s s.spsReady :=
  .trans (kept_testTimes _) (.trans (kept_testTimes _) (kept_takeReports _))

theorem kept_testClock : Kept s s.testClock := .trans (kept_matureCues _) (kept_testTimes _)

theorem length_placeCue (now : StationTime) (c : Cue) (l : List Cue) :
    (placeCue now c l).length = l.length + 1 := by
  induction l with
  | nil => rfl
  | cons d l ih =>
    unfold placeCue
    split
    · rfl
    · simp [ih]

theorem kept_takeCue (c : Cue) : Kept s (s.takeCue c) := by
  unfold State.takeCue
  dsimp only
  refine .trans (kept_spsReady _) ?_
  refine kept_ite (.trans (kept_offerCue _ _) (kept_takeReports _)) ?_
  split
  · exact kept_countInput _ _ _
  · exact kept_cues _ (.inr (by rw [length_placeCue]; omega))

theorem kept_setClock (t : StationTime) : Kept s (s.setClock t) :=
  .trans (kept_spsReady _)
    (.trans (Kept.aside (s := s.spsReady) (t := { s.spsReady with clock := t }) rfl)
      (.trans (kept_testClock _) (kept_takeReports _)))

theorem kept_clearPartner (e : Nat) : Kept s (s.clearPartner e) := by
  unfold State.clearPartner
  split
  · exact kept_setEntry _ _ _
  · exact .refl _

theorem kept_cancelEntry (e : Nat) : Kept s (s.cancelEntry e) := by
  unfold State.cancelEntry
  dsimp only
  refine .trans ?_ (kept_freeEntry _ _ _ _)
  refine .trans ?_ (kept_passReservations _ _ _)
  refine .trans ?_ (kept_dropSpliceRefs _ _)
  exact (kept_settleCtab _).trans (kept_ite (kept_clearPartner _ _) (kept_endHeldPartner _ _ _ _))

/-! ### Batch -/

/-- A workspace whose sizes are those of another is within its sizes when the other is. -/
theorem Workspace.bounded_of {w v : Workspace} (hd : v.depth = w.depth) (he : v.edits = w.edits)
    (hl : v.levels = w.levels) (h : w.bounded) : v.bounded := by
  unfold Workspace.bounded at *
  rw [hd, he, hl]
  exact h

theorem kept_restartIdle (r : Requester) : Kept s (s.restartIdle r) :=
  kept_ite (kept_setWs _ (Workspace.bounded_of rfl rfl rfl)) (.refl _)

theorem kept_expireIdle (r : Requester) : Kept s (s.expireIdle r) := by
  unfold State.expireIdle
  split
  · exact kept_ite (kept_abort _ _ _) (.refl _)
  · exact .refl _

theorem kept_settleIdle : Kept s s.settleIdle :=
  .trans (Kept.aside (s := s) (t := { s with idleDue := [] }) rfl)
    (kept_foldl _ (fun _ _ => kept_expireIdle _ _) _ _)

theorem kept_claim {r : Requester} {l : List Nat} {t : State} (h : s.claim r l = .ok t) :
    Kept s t := by
  unfold State.claim at h
  split at h
  · simp at h
  · split at h
    · simp at h
    · simp only [Except.ok.injEq] at h
      exact h ▸ kept_foldl _ (fun _ _ => kept_setLeg _ _ _) _ _

theorem kept_abortAnswered (r : Requester) (f : Failure) (b : List Byte) :
    Kept s (s.abortAnswered r f b).1 := kept_abort _ _ _

theorem kept_ownOpenBatch (r : Requester) (p : List Byte) : Kept s (ownOpenBatch s r p).1 := by
  unfold ownOpenBatch
  dsimp only
  split
  · unfold ownOpenFirst
    split
    · split
      · rename_i h
        refine .trans (kept_claim _ h) (kept_setWs _ fun _ => ?_)
        simp [Workspace.bounded, openedWorkspace, Workspace.start, Config.maxDepth]
      · exact .refl _
    · exact .refl _
  · split
    · exact kept_abortAnswered _ _ _ _
    · rename_i h0 h4
      split
      · refine kept_setWs _ fun h => ?_
        unfold Workspace.bounded at *
        simp only [List.length_append, List.length_singleton]
        omega
      · exact kept_abortAnswered _ _ _ _

theorem kept_ownCloseBatch (r : Requester) (p : List Byte) : Kept s (ownCloseBatch s r p).1 := by
  unfold ownCloseBatch
  dsimp only
  split
  · exact .refl _
  · split
    · exact .refl _
    · split
      · exact kept_setWs _ (Workspace.bounded_of rfl rfl rfl)
      · refine kept_setWs _ fun h => ?_
        unfold Workspace.bounded at *
        simp only [List.length_dropLast]
        omega

theorem kept_ownAbandonBatch (r : Requester) (p : List Byte) : Kept s (ownAbandonBatch s r p).1 := by
  unfold ownAbandonBatch
  dsimp only
  split
  · exact .refl _
  · split
    · split
      · exact kept_endEarly _ _ _
      · exact .refl _
    · exact .refl _

theorem rising_puts {α β : Type} (f : β → Nat × α) (l : List β) (t : Table α) (h : Table.rising t) :
    Table.rising (l.foldl (fun t x => Table.put t (f x).1 (f x).2) t) := by
  induction l generalizing t with
  | nil => exact h
  | cons x l ih => exact ih _ (Table.rising_put _ _ _ h)

theorem kept_reserveEntries (h : Nat) (c : CreateFields) : Kept s (s.reserveEntries h c) :=
  fun _ k p => k.smap s _
    (rising_puts (fun x : Nat × Nat => (x.1, (⟨h, x.2, false, none⟩ : MapEntry))) _ _) p

theorem record?_lowestFree {h : Nat} (hf : s.lowestFree = some h) : s.record? h = none := by
  have := List.find?_some hf
  simpa using this

theorem kept_reserveRecord {r : Requester} {c : CreateFields} {x : Nat × State}
    (h : s.reserveRecord r c = .ok x) : Kept s x.2 := by
  unfold State.reserveRecord at h
  split at h
  · simp at h
  · rename_i hk
    split at h
    · simp at h
    · rename_i hf
      dsimp only at h
      split at h
      · simp at h
      · split at h
        · simp at h
        · simp only [Except.ok.injEq] at h
          subst h
          refine .trans (fun P k p => k.reserve _ _ _ (record?_lowestFree _ hf) ?_ p)
            (kept_reserveEntries _ _ _)
          intro d hd e
          exact hk (List.any_eq_true.2 ⟨d, hd, by simpa [createdRecord] using e⟩)

/-- Holding one more edit keeps a workspace that has room within its sizes. -/
theorem Workspace.bounded_hold {w v : Workspace} {e : Edit} (hd : v.depth = w.depth)
    (he : v.edits = (w.hold e).edits) (hl : v.levels = w.levels)
    (room : ¬ Config.workspaceEdits ≤ w.edits.length) (h : w.bounded) : v.bounded := by
  unfold Workspace.bounded at *
  rw [hd, he, hl]
  simp only [Workspace.hold, List.length_append, List.length_singleton]
  omega

theorem ws_raise (k : AttKind) (d : Nat) (r : Requester) : (s.raise k d).ws r = s.ws r := by
  unfold State.raise
  split <;> cases r <;> rfl

theorem ws_setRecord (h : Nat) (x : Record) (r : Requester) : (s.setRecord h x).ws r = s.ws r := by
  cases r <;> rfl

theorem ws_reportLoss (h : Nat) (r : Requester) : (s.reportLoss h).ws r = s.ws r := by
  rw [← ws_raise s .sourceLost h r]
  cases r <;> rfl

theorem ws_reportRestoration (h : Nat) (r : Requester) : (s.reportRestoration h).ws r = s.ws r := by
  rw [← ws_raise s .sourceRestored h r]
  cases r <;> rfl

theorem ws_expireWindow (h : Nat) (r : Requester) : (s.expireWindow h).ws r = s.ws r := by
  unfold State.expireWindow State.loseSource
  split
  · split
    · split
      · split
        · rw [ws_reportLoss, ws_setRecord]
        · rw [ws_reportLoss, ws_setRecord]
        · split
          · rw [ws_setRecord]
          · rw [ws_reportLoss, ws_setRecord]
        all_goals rfl
      · rfl
    · rfl
  · rfl

theorem ws_endHold (h : Nat) (r : Requester) : (s.endHold h).ws r = s.ws r := by
  unfold State.endHold
  split
  · split
    · split
      · rw [ws_reportRestoration, ws_setRecord]
      · rfl
    · rfl
  · rfl

theorem ws_takeDue (d : DueAct) (r : Requester) : (s.takeDue d).ws r = s.ws r := by
  cases d
  · exact ws_expireWindow _ _ _
  · exact ws_endHold _ _ _

theorem ws_settleCtab (r : Requester) : s.settleCtab.ws r = s.ws r := by
  unfold State.settleCtab
  rw [foldl_same (fun s => s.ws r) _ fun s d => ws_takeDue s d r]
  cases r <;> rfl

/-- Reserving a record leaves the workspaces alone. -/
theorem ws_reserveRecord {q r : Requester} {c : CreateFields} {x : Nat × State}
    (h : s.reserveRecord r c = .ok x) : x.2.ws q = s.ws q := by
  unfold State.reserveRecord at h
  split at h
  · simp at h
  · split at h
    · simp at h
    · dsimp only at h
      split at h
      · simp at h
      · split at h
        · simp at h
        · simp only [Except.ok.injEq] at h
          subst h
          cases q <;> rfl

theorem kept_arrive {r : Requester} {a : Bool} {e : Edit} {x : Nat × State}
    (h : s.arrive r a e = .ok x) : Kept s x.2 := by
  unfold State.arrive at h
  dsimp only at h
  split at h
  · simp at h
  · split at h
    · simp at h
    · split at h
      · simp at h
      · rename_i room
        split at h
        · split at h
          · simp at h
          · rename_i hr
            simp only [Except.ok.injEq] at h
            subst h
            refine .trans (kept_settleCtab _) (.trans (kept_reserveRecord _ hr) (kept_setWs _ ?_))
            rw [ws_reserveRecord _ hr, ws_settleCtab]
            exact Workspace.bounded_hold rfl rfl rfl room
        all_goals
          simp only [Except.ok.injEq] at h
          subst h
          exact kept_setWs _ (Workspace.bounded_hold rfl rfl rfl room)

theorem kept_arriveSent {r : Requester} {a : Bool} {e : Option Edit} {x : Nat × State}
    (h : s.arriveSent r a e = .ok x) : Kept s x.2 := by
  unfold State.arriveSent at h
  split at h
  · simp at h
  · split at h
    · rename_i hx
      simp only [Except.ok.injEq] at h
      exact h ▸ kept_arrive _ hx
    · simp at h

theorem kept_ownEdit (k : Nat) (r : Requester) (p : List Byte) : Kept s (ownEdit k s r p).1 := by
  unfold ownEdit
  split
  · exact .refl _
  · split
    · exact kept_abortAnswered _ _ _ _
    · rename_i hx
      exact kept_arriveSent _ hx

theorem Kept.of_eq {α : Type} {s t : State} {x : State × α} {y : α} (h : x = (t, y))
    (k : Kept s x.1) : Kept s t := by
  rw [h] at k
  exact k

theorem kept_arriveAll (r : Requester) (l : List SentEdit) (hs : List Nat) :
    Kept s (s.arriveAll r l hs).1 := by
  induction l generalizing s hs with
  | nil => exact .refl _
  | cons e l ih =>
    unfold State.arriveAll
    split
    · exact .refl _
    · rename_i hx
      exact .trans (kept_arriveSent _ hx) (ih _ _)

theorem bounded_applyWorkspace (l : List Nat) : (applyWorkspace l).bounded := by
  simp [Workspace.bounded, applyWorkspace, Workspace.start]

theorem kept_ownApply (r : Requester) (p : List Byte) : Kept s (ownApply s r p).1 := by
  unfold ownApply
  split
  · unfold ownApplyAlone
    split
    · exact .refl _
    · split
      · exact .refl _
      · dsimp only
        split
        · exact .refl _
        · rename_i hc
          refine .trans (kept_claim _ hc) ?_
          have h : ∀ t q l, Kept t (t.setWs q (applyWorkspace l)) :=
            fun t q l => kept_setWs t fun _ => bounded_applyWorkspace l
          split
          · rename_i he
            exact .trans (h _ _ _) (.trans (.of_eq he (kept_arriveAll _ _ _ _))
              (kept_abortAnswered _ _ _ _))
          · rename_i he
            exact .trans (h _ _ _) (.trans (.of_eq he (kept_arriveAll _ _ _ _))
              (kept_setWs _ (Workspace.bounded_of rfl rfl rfl)))
  · unfold ownApplyInside
    split
    · exact kept_abortAnswered _ _ _ _
    · split
      · rename_i he
        exact .trans (.of_eq he (kept_arriveAll _ _ _ _)) (kept_abortAnswered _ _ _ _)
      · rename_i he
        exact .of_eq he (kept_arriveAll _ _ _ _)

/-! ### Direct requests -/

/-- An owner that keeps every closed law, whatever it is sent. -/
def KeepsOwner (o : Owner) : Prop := ∀ s r p, Kept s (o s r p).1

theorem keeps_cancelSplice : KeepsOwner ownCancelSplice := by
  intro s r p
  unfold ownCancelSplice
  split
  · split
    · dsimp only
      split
      · exact kept_spsReady _
      · split
        · exact kept_spsReady _
        · exact .trans (kept_spsReady _) (kept_cancelEntry _ _)
    · exact .refl _
  · exact .refl _

theorem law_resumeMove {f : Nat} {x : Slot} {m : Move} (h : resumeMove s f x = some m) :
    m.slot.law := by
  unfold resumeMove at h
  split at h
  · rename_i hp
    split at h
    · simp only [Option.some.injEq] at h
      exact h ▸ law_enterPending _ _ _ _ hp
    · simp at h
  · simp at h

theorem keeps_resumeSlot : KeepsOwner ownResumeSlot := by
  intro s r p
  unfold ownResumeSlot
  split
  · split
    · split
      · exact .refl _
      · split
        · rename_i hm
          exact .trans (kept_applyMove _ fun _ => law_resumeMove _ hm) (kept_takeReports _)
        · exact .refl _
    · exact .refl _
  · exact .refl _

theorem keeps_armProbe : KeepsOwner ownArmProbe := by
  intro s r p
  unfold ownArmProbe
  split
  · split
    · dsimp only
      split
      · rename_i hx
        split
        · exact kept_settleCtab _
        · exact .trans (kept_settleCtab _) (kept_setRecord _ hx (by rfl))
      · exact kept_settleCtab _
    · exact .refl _
  · exact .refl _

theorem keeps_setInput : KeepsOwner ownSetInput := by
  intro s r p
  unfold ownSetInput
  split
  · exact .refl _
  · dsimp only
    split
    · exact .refl _
    · split
      · exact .refl _
      · exact kept_setInput _ fun h => law_switchSync h rfl rfl rfl

theorem keeps_setLegOwner : KeepsOwner ownSetLegOwner := by
  intro s r p
  unfold ownSetLegOwner
  split
  · split
    · split
      · split
        · exact .refl _
        · exact kept_setLeg _ _ _
      · exact .refl _
    · exact .refl _
  · exact .refl _

theorem keeps_setStationTime : KeepsOwner ownSetStationTime := by
  intro s r p
  unfold ownSetStationTime
  split
  · split
    · exact kept_setClock _ _
    · exact .refl _
  · exact .refl _

theorem keeps_setBatchLimit : KeepsOwner ownSetBatchLimit := by
  intro s r p
  unfold ownSetBatchLimit
  split
  · split
    · exact .aside rfl
    · exact .refl _
  · exact .refl _

theorem keeps_setRelay : KeepsOwner ownSetRelay := by
  intro s r p
  unfold ownSetRelay
  split
  · exact .aside rfl
  · exact .refl _

theorem keeps_setCounterPair : KeepsOwner ownSetCounterPair := by
  intro s r p
  unfold ownSetCounterPair
  split
  · split
    · split
      · exact kept_setPair _ _ _
      · exact .refl _
    · exact .refl _
  · exact .refl _

theorem keeps_setAttentionMask : KeepsOwner ownSetAttentionMask := by
  intro s r p
  unfold ownSetAttentionMask
  split
  · split
    · exact kept_driveAttn s s.attention _ id
    · exact .refl _
  · exact .refl _

theorem keeps_clearAttention : KeepsOwner ownClearAttention := by
  intro s r p
  unfold ownClearAttention
  split
  · split
    · exact kept_driveAttn s _ s.attMask (Table.rising_filter _ _)
    · exact .refl _
  · exact .refl _

theorem keeps_readRecord : KeepsOwner ownReadRecord := by
  intro s r p
  unfold ownReadRecord
  split
  · dsimp only
    split
    · exact .trans (kept_settleCtab _) (kept_modRecord _ _ _ (by intro _; rfl))
    · exact kept_settleCtab _
  · exact .refl _

theorem keeps_findRecord : KeepsOwner ownFindRecord := by
  intro s r p
  unfold ownFindRecord
  split
  · split
    · exact kept_settleCtab _
    · exact .refl _
  · exact .refl _

theorem keeps_listRecords : KeepsOwner ownListRecords := by
  intro s r p
  unfold ownListRecords
  split
  · split
    · exact kept_settleCtab _
    · exact .refl _
  · exact .refl _

theorem keeps_readLeg : KeepsOwner ownReadLeg := by
  intro s r p
  unfold ownReadLeg
  split
  · split <;> exact .refl _
  · exact .refl _

theorem keeps_readSlot : KeepsOwner ownReadSlot := by
  intro s r p
  unfold ownReadSlot
  split
  · split <;> exact .refl _
  · exact .refl _

theorem keeps_readSplice : KeepsOwner ownReadSplice := by
  intro s r p
  unfold ownReadSplice
  split
  · split
    · exact kept_spsReady _
    · exact .refl _
  · exact .refl _

theorem keeps_readOutcome : KeepsOwner ownReadOutcome := by
  intro s r p
  unfold ownReadOutcome
  split <;> exact .refl _

theorem kept_clearPairs (f : Nat) : Kept s (s.clearPairs f) :=
  kept_foldl _ (fun _ _ => kept_setPair _ _ _) _ _

theorem keeps_readCounters : KeepsOwner ownReadCounters := by
  intro s r p
  unfold ownReadCounters
  split
  · dsimp only
    split
    · exact kept_clearPairs _ _
    · exact .refl _
  · dsimp only
    split
    · exact kept_countInput _ _ _
    · exact .refl _
  · exact .refl _

theorem keeps_readInput : KeepsOwner ownReadInput := by
  intro s r p
  unfold ownReadInput
  split
  · split <;> exact .refl _
  · exact .refl _

theorem keeps_queryCarriage : KeepsOwner ownQueryCarriage := by
  intro s r p
  unfold ownQueryCarriage
  split
  · split <;> exact .refl _
  · exact .refl _

theorem keeps_readAttention : KeepsOwner ownReadAttention := by
  intro s r p
  unfold ownReadAttention
  split <;> exact .refl _

theorem keeps_readRelay : KeepsOwner ownReadRelay := by
  intro s r p
  unfold ownReadRelay
  split
  · exact .aside rfl
  · exact .refl _

/-! ### The port -/

theorem kept_post (q : NetFlight) (y : Reply) : Kept s (s.post q y) := by
  unfold State.post
  dsimp only
  split
  · refine .trans ?_ (kept_raise _ _ _)
    exact .aside rfl
  · exact .aside rfl

theorem kept_answer (r : Requester) (k : Byte) (a : Answer) : Kept s (s.answer r k a) := by
  unfold State.answer
  split
  · exact .aside rfl
  · split
    · exact kept_post _ _ _
    · exact .refl _

theorem kept_takeRequest (r : Requester) : Kept s (s.takeRequest r) :=
  .trans (kept_settleIdle _) (kept_restartIdle _ _)

theorem kept_handBatch (r : Requester) (k : Byte)
    {o : State → Requester → List Byte → State × Option Answer}
    (ho : ∀ s r p, Kept s (o s r p).1) (p : List Byte) : Kept s (s.handBatch r k o p) := by
  unfold State.handBatch
  have h := Kept.trans (kept_takeRequest s r) (ho (s.takeRequest r) r p)
  split
  · rename_i he
    rw [he] at h
    exact .trans h (kept_answer _ _ _ _)
  · rename_i he
    rw [he] at h
    split
    · exact .trans h (.aside rfl)
    · exact h

theorem kept_handDirect (r : Requester) (k : Byte) {o : Owner} (ho : KeepsOwner o) (p : List Byte) :
    Kept s (s.handDirect r k o p) :=
  .trans (.trans (kept_takeRequest _ _) (ho _ _ _)) (kept_answer _ _ _ _)

theorem kept_transact (k : Byte) (f : Frame) {hand : State → List Byte → State}
    (hh : ∀ s p, Kept s (hand s p)) : Kept s (s.transact k f hand) := by
  unfold State.transact State.whenRunning
  split
  · dsimp only
    split
    · exact .aside rfl
    · exact .aside rfl
    · exact .aside rfl
    · refine .trans ?_ (hh _ _)
      exact .aside rfl
  · exact .refl _

theorem kept_siteBatch (k : Byte) {o : State → Requester → List Byte → State × Option Answer}
    (ho : ∀ s r p, Kept s (o s r p).1) (f : Frame) : Kept s (siteBatch k o f s) :=
  kept_transact _ _ _ fun _ _ => kept_handBatch _ _ _ ho _

theorem kept_siteDirect (k : Byte) {o : Owner} (ho : KeepsOwner o) (f : Frame) :
    Kept s (siteDirect k o f s) :=
  kept_transact _ _ _ fun _ _ => kept_handDirect _ _ _ ho _

theorem kept_handNetwork (k : Byte) (p : List Byte) : Kept s (s.handNetwork k p) := by
  unfold State.handNetwork
  split
  · exact kept_handBatch _ _ _ kept_ownOpenBatch _
  · exact kept_handBatch _ _ _ kept_ownCloseBatch _
  · exact kept_handBatch _ _ _ kept_ownAbandonBatch _
  · exact kept_handBatch _ _ _ kept_ownApply _
  · exact kept_handBatch _ _ _ (fun s => kept_ownEdit s _) _
  · exact kept_handBatch _ _ _ (fun s => kept_ownEdit s _) _
  · exact kept_handBatch _ _ _ (fun s => kept_ownEdit s _) _
  · exact kept_handBatch _ _ _ (fun s => kept_ownEdit s _) _
  · exact kept_handBatch _ _ _ (fun s => kept_ownEdit s _) _
  · exact kept_handBatch _ _ _ (fun s => kept_ownEdit s _) _
  · exact kept_handDirect _ _ _ keeps_cancelSplice _
  · exact kept_handDirect _ _ _ keeps_resumeSlot _
  · exact kept_handDirect _ _ _ keeps_queryCarriage _
  · exact kept_handDirect _ _ _ (fun s _ _ => .refl s) _

theorem kept_runCommand (c : Command) : Kept s (s.runCommand c) := by
  unfold State.runCommand
  dsimp only
  split
  · refine .trans ?_ (kept_handNetwork _ _ _)
    exact .aside rfl
  · refine .trans ?_ (kept_post _ _ _)
    exact .aside rfl

theorem kept_queue {q : List Command} (h : q.length ≤ s.netQueue.length ∨ q.length ≤ Config.queuePlaces) :
    Kept s { s with netQueue := q } := fun _ c p => c.queue _ _ (by omega) p

theorem kept_takeHead : Kept s s.takeHead := by
  unfold State.takeHead
  split
  · rename_i hq
    split
    · exact .trans (kept_queue _ (.inl (by simp [hq]))) (kept_runCommand _ _)
    · exact .refl _
  · exact .refl _

theorem kept_clear : Kept s s.clear := fun _ c p =>
  c.aside { State.reset with pending := s.pending } _ rfl (c.reset s p)

theorem kept_awake {act : State → State} (h : ∀ s, Kept s (act s)) : Kept s (s.awake act) :=
  kept_ite (.refl _) (h _)

theorem kept_commitAct (r : Requester) : Kept s (s.commitAct r) := by
  unfold State.commitAct
  split
  · exact kept_commit _ _
  · exact .trans (kept_spsReady _) (kept_commit _ _)

theorem kept_commitAnswered (r : Requester) : Kept s (s.commitAnswered r) := by
  unfold State.commitAnswered
  dsimp only
  split
  · exact .trans (kept_settleIdle _) (.trans (kept_commitAct _ _) (kept_answer _ _ _ _))
  · exact kept_settleIdle _

/-! ### Inputs -/

theorem kept_forgetCounts (i : Nat) : Kept s (s.forgetCounts i) := by
  intro P c p
  refine c.smap _ _ (Table.rising_map _ _ ?_) p
  intro d
  split <;> rfl

theorem kept_examineBytes (i : Nat) (l : List Byte) : Kept s (s.examineBytes i l) := by
  unfold State.examineBytes
  dsimp only
  split
  · next he =>
    simp only [Bool.and_eq_true] at he
    split
    · exact kept_setInput _ fun h => law_examines l h he.1
    · have hk : Kept s (s.setInput i { l.foldl Input.examine (s.input i) with lost := false }) :=
        kept_setInput _ fun h => law_examines l h he.1
      exact kept_ite (hk.trans (kept_forgetCounts _ _)) hk
  · exact .refl _

theorem kept_missSync (i : Nat) (l : List Byte) : Kept s (s.missSync i l) := by
  unfold State.missSync
  dsimp only
  split
  · next he =>
    simp only [Bool.and_eq_true, beq_iff_eq] at he
    split
    · exact .trans (kept_setInput _ fun _ => law_lostSync _) (kept_examineBytes _ _ _)
    · exact kept_setInput _ fun h => ⟨h.1, h.2.1, h.2.2.1, fun _ => he.2⟩
  · exact .refl _

theorem kept_cuePacket (i : Nat) (p : List Byte) : Kept s (s.cuePacket i p) := by
  unfold State.cuePacket
  split
  · split
    · exact .trans (kept_countInput _ _ _) (kept_takeCue _ _)
    · exact kept_countInput _ _ _
  · exact .refl _

theorem kept_commandPacket (i : Nat) (p : List Byte) : Kept s (s.commandPacket i p) := by
  unfold State.commandPacket
  split
  · split
    · split
      · exact .trans (kept_countInput _ _ _) (kept_raise _ _ _)
      · refine .trans (kept_countInput _ i InputCounters.incCommandsTaken) (kept_queue _ (.inr ?_))
        simp only [List.length_append, List.length_singleton]
        omega
    · exact kept_countInput _ _ _
  · exact .refl _

theorem kept_continuity (i k : Nat) (m : MapEntry) (p : List Byte) :
    Kept s (s.continuity i k m p) := by
  unfold State.continuity
  split
  · dsimp only
    have h : ∀ n, Kept s { s with smap := Table.put s.smap k { m with lastCount := n } } :=
      fun n P c q => c.smap _ _ (Table.rising_put _ _ _) q
    exact kept_ite (.trans (h _) (kept_countInput _ _ _)) (h _)
  · exact .refl _

theorem kept_matchedPacket (h k : Nat) (p : List Byte) : Kept s (s.matchedPacket h k p) := by
  unfold State.matchedPacket
  dsimp only
  split
  · exact .trans (kept_notePacket _ _ _ _) (.trans (kept_sight _ _ _) (kept_makeCopies _ _ _ _ _))
  · exact kept_notePacket _ _ _ _

theorem kept_lookup (i : Nat) (p : List Byte) : Kept s (s.lookup i p) := by
  unfold State.lookup
  dsimp only
  split
  · exact .trans (kept_continuity _ _ _ _ _) (kept_matchedPacket _ _ _ _)
  · exact kept_countInput _ _ _

theorem kept_classify (i : Nat) (p : List Byte) : Kept s (s.classify i p) := by
  unfold State.classify
  dsimp only
  refine kept_ite (kept_countInput _ _ _) (kept_ite (.refl _) (kept_ite (kept_cuePacket _ _ _) ?_))
  exact kept_ite (kept_commandPacket _ _ _) (kept_lookup _ _ _)

theorem kept_deliver (i : Nat) (p : List Byte) : Kept s (s.deliver i p) :=
  kept_ite (.trans (kept_setInput _ (law_clearMiss _)) (kept_classify _ _ _)) (.refl _)

/-! ### Every command, every step -/

theorem kept_reset_of {t : State}
    (h : State.stores { State.reset with pending := s.pending } = t.stores) : Kept s t :=
  fun _ c p => c.aside _ _ h (c.reset s p)

theorem kept_notices (l : List Notice) : Kept s { s with notices := l } := .aside rfl

theorem kept_updates (l : List OnAirUpdate) : Kept s { s with updates := l } := .aside rfl

theorem kept_act_lossNotice : Kept s (match s.notices with
    | .loss X :: rest => { s with notices := rest }.takeLoss X
    | .restoration _ :: _ | [] => s) := by
  split
  · exact .trans (kept_notices _ _) (kept_takeLoss _ _)
  all_goals exact .refl _

theorem kept_act_restorationNotice : Kept s (match s.notices with
    | .restoration X :: rest => { s with notices := rest }.takeRestoration X
    | .loss _ :: _ | [] => s) := by
  split
  · exact .trans (kept_notices _ _) (kept_takeRestoration _ _)
  all_goals exact .refl _

theorem kept_tick : Kept s
    (State.testClock
      { s.spsReady with clock := s.spsReady.clock + 1, uptime := s.spsReady.uptime + 1 }).takeReports := by
  refine .trans (kept_spsReady _) (.trans ?_ (.trans (kept_testClock _) (kept_takeReports _)))
  exact .aside rfl

/-- Every command that gives a next state keeps every closed law. -/
theorem kept_exec {c : Instr} {t : State} (h : exec c s = .next t) : Kept s t := by
  have ok : ∀ {a b : State}, (.next a : Host.Outcome State Fault Refusal) = .next b → Kept s a → Kept s b :=
    fun e k => by injection e with e; exact e ▸ k
  cases c <;> simp only [exec] at h
  case openBatch => exact ok h (kept_siteBatch _ _ kept_ownOpenBatch _)
  case closeBatch => exact ok h (kept_siteBatch _ _ kept_ownCloseBatch _)
  case abandonBatch => exact ok h (kept_siteBatch _ _ kept_ownAbandonBatch _)
  case apply => exact ok h (kept_siteBatch _ _ kept_ownApply _)
  case createRecord => exact ok h (kept_siteBatch _ _ (fun s => kept_ownEdit s _) _)
  case amendRecord => exact ok h (kept_siteBatch _ _ (fun s => kept_ownEdit s _) _)
  case retireRecord => exact ok h (kept_siteBatch _ _ (fun s => kept_ownEdit s _) _)
  case bindSlot => exact ok h (kept_siteBatch _ _ (fun s => kept_ownEdit s _) _)
  case unbindSlot => exact ok h (kept_siteBatch _ _ (fun s => kept_ownEdit s _) _)
  case setLeg => exact ok h (kept_siteBatch _ _ (fun s => kept_ownEdit s _) _)
  case batchIdleExpired => exact ok h (kept_awake _ fun s => (kept_settleIdle s).trans (kept_expireIdle _ _))
  case commitAct => exact ok h (kept_awake _ fun s => kept_commitAnswered s _)
  case cancelSplice => exact ok h (kept_siteDirect _ _ keeps_cancelSplice _)
  case resumeSlot => exact ok h (kept_siteDirect _ _ keeps_resumeSlot _)
  case armProbe => exact ok h (kept_siteDirect _ _ keeps_armProbe _)
  case setInput => exact ok h (kept_siteDirect _ _ keeps_setInput _)
  case setLegOwner => exact ok h (kept_siteDirect _ _ keeps_setLegOwner _)
  case setStationTime => exact ok h (kept_siteDirect _ _ keeps_setStationTime _)
  case setBatchLimit => exact ok h (kept_siteDirect _ _ keeps_setBatchLimit _)
  case setRelay => exact ok h (kept_siteDirect _ _ keeps_setRelay _)
  case setCounterPair => exact ok h (kept_siteDirect _ _ keeps_setCounterPair _)
  case setAttentionMask => exact ok h (kept_siteDirect _ _ keeps_setAttentionMask _)
  case clearAttention => exact ok h (kept_siteDirect _ _ keeps_clearAttention _)
  case readRecord => exact ok h (kept_siteDirect _ _ keeps_readRecord _)
  case findRecord => exact ok h (kept_siteDirect _ _ keeps_findRecord _)
  case listRecords => exact ok h (kept_siteDirect _ _ keeps_listRecords _)
  case readLeg => exact ok h (kept_siteDirect _ _ keeps_readLeg _)
  case readSlot => exact ok h (kept_siteDirect _ _ keeps_readSlot _)
  case readSplice => exact ok h (kept_siteDirect _ _ keeps_readSplice _)
  case readOutcome => exact ok h (kept_siteDirect _ _ keeps_readOutcome _)
  case readCounters => exact ok h (kept_siteDirect _ _ keeps_readCounters _)
  case readInput => exact ok h (kept_siteDirect _ _ keeps_readInput _)
  case queryCarriage => exact ok h (kept_siteDirect _ _ keeps_queryCarriage _)
  case readAttention => exact ok h (kept_siteDirect _ _ keeps_readAttention _)
  case readRelay => exact ok h (kept_siteDirect _ _ keeps_readRelay _)
  case clearAll =>
    refine ok h (kept_transact _ _ _ fun s p => ?_)
    dsimp only
    split
    · exact .trans (kept_takeRequest _ _) (.aside rfl)
    · exact .trans (kept_takeRequest _ _) (kept_answer _ _ _ _)
  case clearingAct => exact ok h (kept_awake _ fun s => kept_ite (kept_clear _) (.refl _))
  case unknownRequest =>
    unfold execUnknownRequest at h
    split at h
    · simp at h
    · exact ok h (kept_transact _ _ _ fun s p => .aside rfl)
  case statusPoll =>
    unfold execStatusPoll at h
    split at h
    · exact ok h (kept_ite (.aside rfl) (.refl _))
    · simp at h
  case replyRead => exact ok h (kept_ite (.aside rfl) (.refl _))
  case resetnAsserted => exact ok h (kept_reset_of _ rfl)
  case resetnReleased => exact ok h (kept_ite (kept_reset_of _ rfl) (.refl _))
  case queueHeadTaken => exact ok h (kept_awake _ kept_takeHead)
  case syncAcquired =>
    unfold execSyncAcquired at h
    split at h
    · exact ok h (kept_awake _ fun s => kept_examineBytes s _ _)
    · simp at h
  case syncCandidateGivenUp =>
    unfold execSyncCandidateGivenUp at h
    split at h
    · exact ok h (kept_awake _ fun s => kept_examineBytes s _ _)
    · simp at h
  case missingSyncByte =>
    unfold execMissingSyncByte at h
    split at h
    · split at h
      · exact ok h (kept_awake _ fun s => kept_missSync s _ _)
      · simp at h
    · simp at h
  case packetReceived =>
    unfold execPacketReceived at h
    split at h
    · split at h
      · exact ok h (kept_awake _ fun s => kept_deliver s _ _)
      · simp at h
    · simp at h
  case lossWindowExpired =>
    unfold execLossWindowExpired at h
    split at h
    · exact ok h (kept_awake _ fun s => .trans (kept_settleCtab s) (kept_expireWindow _ _))
    · simp at h
  case restoreHoldEnded =>
    unfold execRestoreHoldEnded at h
    split at h
    · exact ok h (kept_awake _ fun s => .trans (kept_settleCtab s) (kept_endHold _ _))
    · simp at h
  case lossNotice => exact ok h (kept_awake _ kept_act_lossNotice)
  case restorationNotice => exact ok h (kept_awake _ kept_act_restorationNotice)
  case onAirUpdate =>
    refine ok h (kept_awake _ fun s => ?_)
    dsimp only
    split
    · exact .trans (kept_settleCtab _) (.trans (kept_updates _ _) (kept_takeUpdate _ _))
    · exact kept_settleCtab _
  case switchDeadlineExpired =>
    unfold execSwitchDeadlineExpired at h
    split at h
    · exact ok h (kept_awake _ fun s => kept_expireDeadline s _ _)
    · simp at h
  case outputOpportunity =>
    unfold execOutputOpportunity at h
    split at h
    · exact ok h (kept_awake _ fun s => kept_ite (.refl _) (kept_sendPacket _ _))
    · simp at h
  case directoryPeriodExpired =>
    unfold execDirectoryPeriodExpired at h
    split at h
    · exact ok h (kept_awake _ fun s => kept_expirePeriod s _)
    · simp at h
  case stationClockTick => exact ok h (kept_awake _ kept_tick)
  case cueMatured =>
    refine ok h (kept_awake _ fun s => ?_)
    dsimp only
    split
    · exact .trans (kept_spsReady _) (.trans (kept_cues _ (.inl (List.length_erase_le ..)))
        (.trans (kept_offerCue _ _) (kept_takeReports _)))
    · exact kept_spsReady _
  case timeMatcherOccurs =>
    unfold execTimeMatcherOccurs at h
    split at h
    · exact ok h (kept_awake _ fun s =>
        kept_ite (.trans (kept_timeOccurs s _ _) (kept_takeReports _)) (.refl _))
    · simp at h
  case resetReleaseTimeElapsed => exact ok h (kept_ite (.aside rfl) (.refl _))

/-- Every step that gives a next state keeps a closed law that says nothing of the queue. -/
theorem kept_step {P : State → Prop} (c : Closed P)
    (hq : ∀ (s : State) (q : List Instr), P s → P { s with pending := q }) {t : State} (hs : P s)
    (h : step s = .next t) : P t := by
  unfold step at h
  split at h
  · injection h with h
    exact h ▸ hs
  · exact kept_exec _ h P c (hq _ _ hs)

end Sys2Proof.Machine
end

