-- ==== Sys2Proof/Laws/Closed.lean ====
section
/-! SUPPORT. Laws of Safety.lean that are closed, so that every step keeps them (`kept_step`). -/

namespace Sys2Proof.Machine

/-! ### ATTN -/

theorem closed_attnLaw : Closed State.attnLaw where
  reset := fun _ _ => rfl
  aside := by
    intro s t h p
    simp only [State.stores, Prod.mk.injEq] at h
    unfold State.attnLaw at *
    obtain ⟨-, -, -, -, -, -, -, -, -, -, ⟨h1, h2, h3⟩, -⟩ := h
    rw [← h1, ← h2, ← h3]
    exact p
  input := fun _ _ _ _ p => p
  smap := fun _ _ _ p => p
  record := fun _ _ _ _ _ _ p => p
  reserve := fun _ _ _ _ _ p => p
  free := fun _ _ p => p
  leg := fun _ _ _ p => p
  slot := fun _ _ _ _ p => p
  out := fun _ _ _ _ p => p
  count := fun _ _ _ _ p => p
  mark := fun _ _ _ _ p => p
  ws := fun _ r _ _ p => by cases r <;> exact p
  entry := fun _ _ _ p => p
  cues := fun _ _ _ p => p
  pair := fun _ _ _ p => p
  attention := fun _ _ _ _ _ => rfl
  queue := fun _ _ _ p => p

/-! ### Slots -/

theorem Slot.law_start : Slot.start.law := by simp [Slot.law, Slot.start]

theorem closed_slotLaw : Closed State.slotLaw where
  reset := fun _ _ _ => Slot.law_start
  aside := by
    intro s t h p k
    simp only [State.stores, Prod.mk.injEq] at h
    have hs : s.slots = t.slots := h.2.2.2.2.1
    have := p k
    unfold State.slotAt at *
    rwa [← hs]
  input := fun _ _ _ _ p => p
  smap := fun _ _ _ p => p
  record := fun _ _ _ _ _ _ p => p
  reserve := fun _ _ _ _ _ p => p
  free := fun _ _ p => p
  leg := fun _ _ _ p => p
  slot := by
    intro s k x hx p j
    by_cases hj : k = j
    · subst hj
      simpa [State.slotAt, State.setSlotAt, Table.look_store] using hx (p k)
    · have := p j
      unfold State.slotAt State.setSlotAt at *
      rwa [Table.look_store_ne _ _ _ _ _ _ hj]
  out := fun _ _ _ _ p => p
  count := fun _ _ _ _ p => p
  mark := fun _ _ _ _ p => p
  ws := fun _ r _ _ p => by cases r <;> exact p
  entry := fun _ _ _ p => p
  cues := fun _ _ _ p => p
  pair := fun _ _ _ p => p
  attention := fun _ _ _ _ p => p
  queue := fun _ _ _ p => p

/-! ### Sizes -/

/-- The part of `State.bounded` that each write keeps by itself: the workspaces, the cue list, the network
command queue and the output buffers. The stream map and the splice edit store are bounded across two writes of
one act. -/
def State.queuesBounded (s : State) : Prop :=
  s.siteWs.bounded ∧ s.netWs.bounded ∧ s.cues.length ≤ Config.cuePlaces
    ∧ s.netQueue.length ≤ Config.queuePlaces ∧ ∀ f, (s.out f).buffer.length ≤ Config.bufferPlaces

theorem queuesBounded_of_bounded {s : State} (h : s.bounded) : s.queuesBounded :=
  ⟨h.1, h.2.1, h.2.2.1, h.2.2.2.1, h.2.2.2.2.1⟩

theorem closed_queuesBounded : Closed State.queuesBounded where
  reset := fun _ _ => by
    refine ⟨bounded_start, bounded_start, Nat.zero_le _, Nat.zero_le _, fun _ => Nat.zero_le _⟩
  aside := by
    intro s t h p
    simp only [State.stores, Prod.mk.injEq] at h
    obtain ⟨-, -, -, -, -, ho, -, -, ⟨hw, hn⟩, ⟨-, hc, -⟩, -, hq, -⟩ := h
    unfold State.queuesBounded State.out at *
    rw [← hw, ← hn, ← hc, ← hq, ← ho]
    exact p
  input := fun _ _ _ _ p => p
  smap := fun _ _ _ p => p
  record := fun _ _ _ _ _ _ p => p
  reserve := fun _ _ _ _ _ p => p
  free := fun _ _ p => p
  leg := fun _ _ _ p => p
  slot := fun _ _ _ _ p => p
  out := by
    rintro s f o ho ⟨p1, p2, p3, p4, p5⟩
    refine ⟨p1, p2, p3, p4, fun g => ?_⟩
    by_cases hg : f = g
    · subst hg
      simpa [State.out, State.setOut, Table.look_store] using ho _ (p5 f) (Nat.le_refl _)
    · have := p5 g
      unfold State.out State.setOut at *
      rwa [Table.look_store_ne _ _ _ _ _ _ hg]
  count := fun _ _ _ _ p => p
  mark := fun _ _ _ _ p => p
  ws := by
    rintro s r w hw ⟨p1, p2, p3, p4, p5⟩
    cases r
    · exact ⟨hw p1, p2, p3, p4, p5⟩
    · exact ⟨p1, hw p2, p3, p4, p5⟩
  entry := fun _ _ _ p => p
  cues := fun _ _ hl p => ⟨p.1, p.2.1, hl p.2.2.1, p.2.2.2.1, p.2.2.2.2⟩
  pair := fun _ _ _ p => p
  attention := fun _ _ _ _ p => p
  queue := fun _ _ hq p => ⟨p.1, p.2.1, p.2.2.1, hq p.2.2.2.1, p.2.2.2.2⟩

/-! ### Keys -/

theorem closed_keysDistinct : Closed State.keysDistinct where
  reset := by
    intro s _ g h x y hx
    simp [State.record?, State.reset, Table.find?] at hx
  aside := by
    intro s t h p
    simp only [State.stores, Prod.mk.injEq] at h
    have hr : s.records = t.records := h.2.2.1
    unfold State.keysDistinct State.record? at *
    rw [← hr]
    exact p
  input := fun _ _ _ _ p => p
  smap := fun _ _ _ p => p
  record := by
    intro s h x y hx hk p a b u v hu hv e
    simp only [State.record?, State.setRecord, Table.find?_put] at hu hv
    split at hu <;> split at hv
    · rename_i ha hb
      exact ha ▸ hb
    · rename_i ha _
      injection hu with hu
      exact ha ▸ p h b x v hx hv (by rw [← e, ← hu, hk])
    · rename_i _ hb
      injection hv with hv
      exact hb ▸ p a h u x hu hx (by rw [e, ← hv, hk])
    · exact p a b u v hu hv e
  reserve := by
    intro s h y hn hy p a b u v hu hv e
    simp only [State.record?, State.setRecord, Table.find?_put] at hu hv
    split at hu <;> split at hv
    · simp_all
    · have := hy _ (Table.find?_mem _ _ _ hv)
      simp_all
    · have := hy _ (Table.find?_mem _ _ _ hu)
      simp_all
    · exact p a b u v hu hv e
  free := by
    intro s h p a b u v hu hv e
    simp only [State.record?, Table.find?_erase] at hu hv
    split at hu
    · simp at hu
    · split at hv
      · simp at hv
      · exact p a b u v hu hv e
  leg := fun _ _ _ p => p
  slot := fun _ _ _ _ p => p
  out := fun _ _ _ _ p => p
  count := fun _ _ _ _ p => p
  mark := fun _ _ _ _ p => p
  ws := fun _ r _ _ p => by cases r <;> exact p
  entry := fun _ _ _ p => p
  cues := fun _ _ _ p => p
  pair := fun _ _ _ p => p
  attention := fun _ _ _ _ p => p
  queue := fun _ _ _ p => p

/-! ### Canonical tables -/

theorem Table.canonical_nil {α : Type} (start : Nat → α) : Table.canonical start [] :=
  ⟨rfl, by simp⟩

theorem closed_canonical : Closed State.canonical where
  reset := fun _ _ => ⟨Table.canonical_nil _, rfl, rfl, Table.canonical_nil _, Table.canonical_nil _,
    Table.canonical_nil _, Table.canonical_nil _, Table.canonical_nil _, Table.canonical_nil _,
    Table.canonical_nil _, rfl⟩
  aside := by
    intro s t h p
    simp only [State.stores, Prod.mk.injEq] at h
    obtain ⟨h1, h2, h3, h4, h5, h6, h7, h8, -, ⟨h9, -, h10⟩, ⟨h11, -⟩, -⟩ := h
    unfold State.canonical at *
    rw [← h1, ← h2, ← h3, ← h4, ← h5, ← h6, ← h7, ← h8, ← h9, ← h10, ← h11]
    exact p
  input := fun _ _ _ _ ⟨a, p⟩ => ⟨Table.canonical_store _ _ _ _ a, p⟩
  smap := fun _ _ h ⟨a, b, p⟩ => ⟨a, h b, p⟩
  record := fun _ _ _ _ _ _ ⟨a, b, c, p⟩ => ⟨a, b, Table.rising_put _ _ _ c, p⟩
  reserve := fun _ _ _ _ _ ⟨a, b, c, p⟩ => ⟨a, b, Table.rising_put _ _ _ c, p⟩
  free := fun _ _ ⟨a, b, c, p⟩ => ⟨a, b, Table.rising_filter _ _ c, p⟩
  leg := fun _ _ _ ⟨a, b, c, d, p⟩ => ⟨a, b, c, Table.canonical_store _ _ _ _ d, p⟩
  slot := fun _ k _ _ ⟨a, b, c, d, e, p⟩ =>
    ⟨a, b, c, d, Table.canonical_store (fun _ => Slot.start) _ k _ e, p⟩
  out := fun _ k _ _ ⟨a, b, c, d, e, f, p⟩ =>
    ⟨a, b, c, d, e, Table.canonical_store (fun _ => LegOut.start) _ k _ f, p⟩
  count := fun _ g q _ ⟨a, b, c, d, e, f, h, p⟩ =>
    ⟨a, b, c, d, e, f, Table.canonical_store (fun _ => 0) _ (pidKey g q) _ h, p⟩
  mark := fun _ g q _ ⟨a, b, c, d, e, f, h, i, p⟩ =>
    ⟨a, b, c, d, e, f, h, Table.canonical_store (fun _ => false) _ (pidKey g q) _ i, p⟩
  ws := fun _ r _ _ p => by cases r <;> exact p
  entry := fun _ k _ ⟨a, b, c, d, e, f, h, i, j, p⟩ =>
    ⟨a, b, c, d, e, f, h, i, Table.canonical_store (fun _ => Entry.start) _ k _ j, p⟩
  cues := fun _ _ _ p => p
  pair := fun _ _ _ ⟨a, b, c, d, e, f, h, i, j, k, p⟩ =>
    ⟨a, b, c, d, e, f, h, i, j, Table.canonical_store _ _ _ _ k, p⟩
  attention := fun _ _ _ h ⟨a, b, c, d, e, f, g, i, j, k, p⟩ => ⟨a, b, c, d, e, f, g, i, j, k, h p⟩
  queue := fun _ _ _ p => p

/-! ### Inputs -/

theorem Input.law_start (i : Nat) : (Input.start i).law := by simp [Input.law, Input.start]

theorem closed_inputLaw : Closed State.inputLaw where
  reset := fun _ _ i => Input.law_start i
  aside := by
    intro s t h p i
    simp only [State.stores, Prod.mk.injEq] at h
    have := p i
    unfold State.input at *
    rwa [← h.1]
  input := by
    intro s i x hx p j
    rw [input_setInput]
    split
    · next e => exact hx (p i)
    · exact p j
  smap := fun _ _ _ p => p
  record := fun _ _ _ _ _ _ p => p
  reserve := fun _ _ _ _ _ p => p
  free := fun _ _ p => p
  leg := fun _ _ _ p => p
  slot := fun _ _ _ _ p => p
  out := fun _ _ _ _ p => p
  count := fun _ _ _ _ p => p
  mark := fun _ _ _ _ p => p
  ws := fun _ r _ _ p => by cases r <;> exact p
  entry := fun _ _ _ p => p
  cues := fun _ _ _ p => p
  pair := fun _ _ _ p => p
  attention := fun _ _ _ _ p => p
  queue := fun _ _ _ p => p

/-! ### The queue -/

theorem closed_pending (q : List Instr) : Closed fun s => s.pending = q where
  reset := fun _ p => p
  aside := by
    intro s t h p
    simp only [State.stores, Prod.mk.injEq] at h
    rw [← h.2.2.2.2.2.2.2.2.2.2.2.2]
    exact p
  input := fun _ _ _ _ p => p
  smap := fun _ _ _ p => p
  record := fun _ _ _ _ _ _ p => p
  reserve := fun _ _ _ _ _ p => p
  free := fun _ _ p => p
  leg := fun _ _ _ p => p
  slot := fun _ _ _ _ p => p
  out := fun _ _ _ _ p => p
  count := fun _ _ _ _ p => p
  mark := fun _ _ _ _ p => p
  ws := fun _ r _ _ p => by cases r <;> exact p
  entry := fun _ _ _ p => p
  cues := fun _ _ _ p => p
  pair := fun _ _ _ p => p
  attention := fun _ _ _ _ p => p
  queue := fun _ _ _ p => p

end Sys2Proof.Machine
end

