-- ==== Sys2Proof/Laws/Moves.lean ====
section
/-! SUPPORT. What a move of slots does, said once: the slots it writes, and what it leaves alone. -/

namespace Sys2Proof.Machine

variable (s : State)

/-! ### Timers and requests for a slot -/

/-- A timer has reached a number of milliseconds, 90 ticks to each (log entry 5). -/
theorem reached_iff (t n : Nat) : s.reached t n = true ↔ 90 * n ≤ s.uptime - t := by
  unfold State.reached Config.ticksPerMs
  exact decide_eq_true_iff

theorem reached_eq_false (t n : Nat) : s.reached t n = false ↔ s.uptime - t < 90 * n := by
  unfold State.reached Config.ticksPerMs
  rw [decide_eq_false_iff_not, Nat.not_le]

theorem feedOk_iff (f : Nat) : feedOk f = true ↔ f < 24 := decide_eq_true_iff

theorem slotOk_iff (i : Nat) : slotOk i = true ↔ i < 16 := decide_eq_true_iff

theorem handleOk_iff (h : Nat) : handleOk h = true ↔ 1 ≤ h ∧ h ≤ 1023 := by
  unfold handleOk Config.maxHandle
  simp

/-! ### Attention, counters and reports -/

theorem raise_eq (k : AttKind) (d : Nat) :
    ∃ a b, s.raise k d = { s with attention := a, attn := b } := by
  unfold State.raise
  split
  · exact ⟨s.attention, s.attn, rfl⟩
  · exact ⟨_, _, rfl⟩

theorem foldl_pairs_eq {f : State → Nat → State} (h : ∀ s a, ∃ v, f s a = { s with pairs := v })
    (l : List Nat) (s : State) : ∃ v, l.foldl f s = { s with pairs := v } := by
  induction l generalizing s with
  | nil => exact ⟨s.pairs, rfl⟩
  | cons a l ih =>
    obtain ⟨v, hv⟩ := h s a
    obtain ⟨w, hw⟩ := ih (f s a)
    exact ⟨w, by rw [List.foldl_cons, hw, hv]⟩

/-- A report changes counters and nothing else. -/
theorem report_eq (f : Nat) (e : LegEvent) (c : ProgClass) (n : Nat) :
    ∃ v, s.report f e c n = { s with pairs := v } :=
  foldl_pairs_eq (fun _ _ => ⟨_, rfl⟩) _ _

theorem reportFor_eq (f : Nat) (e : LegEvent) (h n : Nat) :
    ∃ v, s.reportFor f e h n = { s with pairs := v } := by
  unfold State.reportFor
  split
  · exact report_eq _ _ _ _ _
  · exact ⟨s.pairs, rfl⟩

theorem reportMove_eq (f : Nat) (m : Move) : ∃ v, s.reportMove f m = { s with pairs := v } := by
  unfold State.reportMove
  split
  · exact reportFor_eq _ _ _ _ _
  · exact ⟨s.pairs, rfl⟩

/-- A report of an event reaches the pairs of its leg and no others (R162). -/
theorem pair_report (f : Nat) (e : LegEvent) (c : ProgClass) (n k : Nat) :
    (s.report f e c n).pair k = if k / 8 = f then (s.pair k).take e c n else s.pair k := by
  unfold State.report
  suffices ∀ (l : List Nat) (s : State), l.Nodup →
      (l.foldl (fun s j => s.setPair (8 * f + j) ((s.pair (8 * f + j)).take e c n)) s).pair k
        = if ∃ j ∈ l, k = 8 * f + j then (s.pair k).take e c n else s.pair k by
    rw [this _ _ List.nodup_range]
    have hk : (∃ j ∈ List.range 8, k = 8 * f + j) ↔ k / 8 = f := by
      constructor
      · rintro ⟨j, hj, rfl⟩
        have := List.mem_range.1 hj
        omega
      · intro h
        exact ⟨k % 8, List.mem_range.2 (Nat.mod_lt _ (by omega)), by omega⟩
    by_cases h : k / 8 = f
    · rw [if_pos (hk.2 h), if_pos h]
    · rw [if_neg (fun x => h (hk.1 x)), if_neg h]
  intro l
  induction l with
  | nil => intro s _; simp
  | cons a l ih =>
    intro s hn
    rw [List.nodup_cons] at hn
    rw [List.foldl_cons, ih _ hn.2, pair_setPair]
    by_cases h : k = 8 * f + a
    · have h1 : ¬ ∃ j ∈ l, k = 8 * f + j := by
        rintro ⟨j, hj, hk⟩
        exact hn.1 (by rwa [show a = j by omega])
      rw [if_neg h1, if_pos h.symm, if_pos ⟨a, by simp, h⟩, h]
    · have h1 : ¬ 8 * f + a = k := fun x => h x.symm
      rw [if_neg h1]
      have : (∃ j ∈ a :: l, k = 8 * f + j) ↔ ∃ j ∈ l, k = 8 * f + j := by simp [h]
      by_cases h2 : ∃ j ∈ l, k = 8 * f + j
      · rw [if_pos h2, if_pos (this.2 h2)]
      · rw [if_neg h2, if_neg (fun x => h2 (this.1 x))]

theorem foldl_marks_eq {α : Type} {f : State → α → State}
    (h : ∀ s a, ∃ v, f s a = { s with marks := v }) (l : List α) (s : State) :
    ∃ v, l.foldl f s = { s with marks := v } := by
  induction l generalizing s with
  | nil => exact ⟨s.marks, rfl⟩
  | cons a l ih =>
    obtain ⟨v, hv⟩ := h s a
    obtain ⟨w, hw⟩ := ih (f s a)
    exact ⟨w, by rw [List.foldl_cons, hw, hv]⟩

theorem markRange_eq (f b : Nat) : ∃ v, s.markRange f b = { s with marks := v } :=
  foldl_marks_eq (fun _ _ => ⟨_, rfl⟩) _ _

theorem changeSource_eq (f : Nat) (a b : Slot) :
    ∃ u v, s.changeSource f a b = { s with updates := u, marks := v } := by
  unfold State.changeSource
  split
  · exact ⟨s.updates, s.marks, rfl⟩
  · dsimp only
    split
    · obtain ⟨v, hv⟩ := markRange_eq
        { s with updates := s.updates ++ [(⟨a.source, b.source⟩ : OnAirUpdate)] } f (by assumption)
      exact ⟨_, v, hv⟩
    · exact ⟨_, s.marks, rfl⟩

/-! ### Splice entries that hear of slots -/

theorem untrack_eq (e : Nat) (t : Nat × Nat) :
    ∃ v a b, s.untrack e t = { s with entries := v, attention := a, attn := b } := by
  unfold State.untrack
  dsimp only
  split
  · split
    · obtain ⟨a, b, h⟩ := raise_eq ((s.setEntry e { s.entry e with
        tracked := (s.entry e).tracked.filter (· != t) }).freeEntry e .done none) .spliceDone e
      exact ⟨_, a, b, h⟩
    · exact ⟨_, s.attention, s.attn, rfl⟩
  · exact ⟨s.entries, s.attention, s.attn, rfl⟩

theorem foldl_entries_eq {α : Type} {f : State → α → State}
    (h : ∀ s a, ∃ v x y, f s a = { s with entries := v, attention := x, attn := y }) (l : List α)
    (s : State) : ∃ v x y, l.foldl f s = { s with entries := v, attention := x, attn := y } := by
  induction l generalizing s with
  | nil => exact ⟨s.entries, s.attention, s.attn, rfl⟩
  | cons a l ih =>
    obtain ⟨v, x, y, hv⟩ := h s a
    obtain ⟨v', x', y', hw⟩ := ih (f s a)
    exact ⟨v', x', y', by rw [List.foldl_cons, hw, hv]⟩

/-- The reports the scheduler takes change entries and attention, and leave no report. -/
theorem drainReports_eq :
    ∃ v a b, s.drainReports = { s with reports := [], entries := v, attention := a, attn := b } :=
  foldl_entries_eq (fun s (t : SlotReport) => foldl_entries_eq (fun s e => untrack_eq s e (t.feed, t.slot)) t.entries s) _ _

/-- The reports are taken, or wait for a TIME matcher's occurrence. -/
theorem takeReports_eq : ∃ u v a b,
    s.takeReports = { s with reports := u, entries := v, attention := a, attn := b } := by
  unfold State.takeReports
  split
  · exact ⟨s.reports, s.entries, s.attention, s.attn, rfl⟩
  · obtain ⟨v, a, b, h⟩ := drainReports_eq s
    exact ⟨[], v, a, b, h⟩

/-! ### Moves -/

/-- A slot that has left PENDING gives at most one report, of the entries that tracked it. -/
theorem reportLeft_eq (f i : Nat) : s.reportLeft f i
    = { s with reports := s.reports
      ++ if s.trackers f i = [] then [] else [⟨f, i, s.trackers f i⟩] } := by
  unfold State.reportLeft
  by_cases h : s.trackers f i = []
  · simp [h]
  · simp [h]

/-- A move writes one slot, and hands on an update, marks, counts and a report. -/
theorem applyMove_eq (f i : Nat) (m : Move) : ∃ u v w x, s.applyMove f i m
    = { s.setSlotAt (slotKey f i) m.slot with updates := u, marks := v, pairs := w, reports := x } := by
  obtain ⟨u, v, h1⟩ := changeSource_eq (s.setSlotAt (slotKey f i) m.slot) f (s.slot f i) m.slot
  obtain ⟨w, h2⟩ := reportMove_eq ((s.setSlotAt (slotKey f i) m.slot).changeSource f (s.slot f i) m.slot)
    f m
  unfold State.applyMove
  dsimp only
  rw [h2, h1]
  rw [reportLeft_eq]
  split
  · exact ⟨u, v, w, _, rfl⟩
  · exact ⟨u, v, w, s.reports, rfl⟩

theorem slotAt_applyMove (f i k : Nat) (m : Move) :
    (s.applyMove f i m).slotAt k = if slotKey f i = k then m.slot else s.slotAt k := by
  obtain ⟨u, v, w, x, h⟩ := applyMove_eq s f i m
  rw [h]
  exact slotAt_setSlotAt _ _ _ _

/-- Moves of many slots change the slots and what a move hands on. -/
theorem moveSlots_eq (g : Nat → Slot → Option Move) : ∃ a u v w x, s.moveSlots g
    = { s with slots := a, updates := u, marks := v, pairs := w, reports := x } := by
  unfold State.moveSlots
  generalize s.slots.map (·.1) = l
  induction l generalizing s with
  | nil => exact ⟨s.slots, s.updates, s.marks, s.pairs, s.reports, rfl⟩
  | cons k l ih =>
    rw [List.foldl_cons]
    split
    · rename_i m _
      obtain ⟨u, v, w, x, h⟩ := applyMove_eq s (k / 16) (k % 16) m
      obtain ⟨a', u', v', w', x', h'⟩ := ih (s.applyMove (k / 16) (k % 16) m)
      exact ⟨a', u', v', w', x', by rw [h', h]; rfl⟩
    · exact ih s

theorem find?_isSome_iff {α : Type} (t : Table α) (k : Nat) :
    (Table.find? t k).isSome ↔ k ∈ t.map (·.1) := by
  induction t with
  | nil => simp [Table.find?]
  | cons c t ih =>
    obtain ⟨j, v⟩ := c
    simp only [Table.find?, List.map_cons, List.mem_cons]
    by_cases h : j = k
    · simp [h]
    · rw [if_neg h, ih]
      have : ¬ k = j := fun e => h e.symm
      simp [this]

theorem nodup_keys {α : Type} {t : Table α} (h : Table.rising t = true) : (t.map (·.1)).Nodup := by
  rw [Table.rising_iff] at h
  rw [List.Nodup, List.pairwise_map]
  exact h.imp fun hab => Nat.ne_of_lt hab

/-- Each slot makes its own move, judged on the slot as it was (R48, R50 to R54, R75). -/
theorem slotAt_moveSlots {g : Nat → Slot → Option Move} (hs : Table.rising s.slots = true)
    (hg : ∀ j, g j Slot.start = none) (k : Nat) :
    (s.moveSlots g).slotAt k = match g k (s.slotAt k) with
      | some m => m.slot
      | none => s.slotAt k := by
  unfold State.moveSlots
  suffices ∀ (l : List Nat) (s : State), l.Nodup → (l.foldl (fun s k =>
      match g k (s.slotAt k) with
      | some m => s.applyMove (k / 16) (k % 16) m
      | none => s) s).slotAt k
        = if k ∈ l then (match g k (s.slotAt k) with
            | some m => m.slot
            | none => s.slotAt k) else s.slotAt k by
    refine (this _ s (nodup_keys hs)).trans ?_
    by_cases hk : k ∈ s.slots.map (·.1)
    · rw [if_pos hk]
    · rw [if_neg hk]
      have : s.slotAt k = Slot.start := by
        unfold State.slotAt Table.look
        rw [← find?_isSome_iff] at hk
        rw [Option.not_isSome_iff_eq_none.1 hk]
        rfl
      rw [this, hg]
  intro l
  induction l with
  | nil => intro s _; simp
  | cons a l ih =>
    intro s hn
    rw [List.nodup_cons] at hn
    rw [List.foldl_cons, ih _ hn.2]
    by_cases h : k = a
    · subst h
      rw [if_neg hn.1, if_pos (by simp)]
      cases g k (s.slotAt k) with
      | none => rfl
      | some m => simp only [slotAt_applyMove, slotKey_div_mod, if_true]
    · have hm : (k ∈ a :: l) ↔ k ∈ l := by simp [h]
      simp only [hm]
      have : (match g a (s.slotAt a) with
          | some m => s.applyMove (a / 16) (a % 16) m
          | none => s).slotAt k = s.slotAt k := by
        split
        · rw [slotAt_applyMove, slotKey_div_mod, if_neg (fun e => h e.symm)]
        · rfl
      rw [this]

end Sys2Proof.Machine
end

