-- ==== Sys2Proof/Laws/Port.lean ====
section
/-! SUPPORT. Numbers and their bytes, the frame check, and what a request transaction does: with a ready
port it is the owner's act on the accepted state and its reply; otherwise it ends as R170 gives. -/

namespace Sys2Proof.Machine

/-! ### Numbers and bytes -/

theorem length_bytesOf (n v : Nat) : (bytesOf n v).length = n := by
  induction n with
  | zero => rfl
  | succ n ih => simp [bytesOf, ih]

theorem foldl_natOf (bs : List Byte) (a : Nat) :
    bs.foldl (fun a b => 256 * a + b.toNat) a = 256 ^ bs.length * a + natOf bs := by
  induction bs generalizing a with
  | nil => simp [natOf]
  | cons b bs ih =>
    have h : natOf (b :: bs) = 256 ^ bs.length * (256 * 0 + b.toNat) + natOf bs := by
      rw [natOf, List.foldl_cons, ih]
    rw [List.foldl_cons, ih, h, List.length_cons, pow_succ]
    ring

theorem natOf_cons (b : Byte) (bs : List Byte) :
    natOf (b :: bs) = 256 ^ bs.length * b.toNat + natOf bs := by
  rw [natOf, List.foldl_cons, foldl_natOf]
  simp

/-- Bytes spell the number they were made from, when it fits (R182). -/
theorem natOf_bytesOf (n v : Nat) : natOf (bytesOf n v) = v % 256 ^ n := by
  induction n with
  | zero => simp [bytesOf, natOf, Nat.mod_one]
  | succ n ih =>
    have h : v % 256 ^ (n + 1) = v % 256 ^ n + 256 ^ n * (v / 256 ^ n % 256) := by
      rw [pow_succ, Nat.mod_mul]
    rw [bytesOf, natOf_cons, ih, length_bytesOf, BitVec.toNat_ofNat, h, Nat.add_comm]

theorem natOf_bytesOf_lt {n v : Nat} (h : v < 256 ^ n) : natOf (bytesOf n v) = v := by
  rw [natOf_bytesOf, Nat.mod_eq_of_lt h]

/-- Reading back a number in front of further bytes (R182). -/
theorem getNat_bytesOf {n v : Nat} (h : v < 256 ^ n) (q : List Byte) :
    getNat n (bytesOf n v ++ q) = some (v, q) := by
  have hl := length_bytesOf n v
  unfold getNat
  rw [if_neg (by simp [hl]), List.take_left' hl, List.drop_left' hl, natOf_bytesOf_lt h]

theorem fieldsOf_nil : fieldsOf [] [] = some [] := rfl

/-- Reading back fixed fields one by one (R182). -/
theorem fieldsOf_cons {n v : Nat} (h : v < 256 ^ n) (ns : List Nat) (q : List Byte) :
    fieldsOf (n :: ns) (bytesOf n v ++ q) = (fieldsOf ns q).map (v :: ·) := by
  rw [fieldsOf, getNat_bytesOf h]

theorem fieldsOf_one {n v : Nat} (h : v < 256 ^ n) : fieldsOf [n] (bytesOf n v) = some [v] := by
  have := fieldsOf_cons h [] []
  simpa [fieldsOf_nil] using this

/-- Fields laid out in a row are read back (R182). -/
theorem fieldsOf_packed {l : List (Nat × Nat)} (h : ∀ x ∈ l, x.2 < 256 ^ x.1) :
    fieldsOf (l.map (·.1)) (packed l) = some (l.map (·.2)) := by
  induction l with
  | nil => rfl
  | cons x l ih =>
    rw [List.map_cons, packed, List.flatMap_cons, fieldsOf_cons (h x (by simp))]
    rw [← packed, ih fun y hy => h y (List.mem_cons_of_mem _ hy)]
    rfl

theorem length_packed (l : List (Nat × Nat)) : (packed l).length = (l.map (·.1)).sum := by
  induction l with
  | nil => rfl
  | cons x l ih =>
    rw [packed, List.flatMap_cons, List.length_append, length_bytesOf, ← packed, ih]
    rfl

/-- Parameters of another length than their fields call for are not read (R173). -/
theorem fieldsOf_of_length_ne {ns : List Nat} {p : List Byte} (h : p.length ≠ ns.sum) :
    fieldsOf ns p = none := by
  induction ns generalizing p with
  | nil =>
    cases p with
    | nil => simp at h
    | cons => rfl
  | cons n ns ih =>
    unfold fieldsOf getNat
    split
    · rename_i hq
      split at hq
      · simp at hq
      · simp only [Option.some.injEq, Prod.mk.injEq] at hq
        obtain ⟨-, rfl⟩ := hq
        rw [ih (by simp at h ⊢; omega)]
        rfl
    · rfl

theorem getNat_length {n v : Nat} {p q : List Byte} (h : getNat n p = some (v, q)) :
    p.length = n + q.length := by
  unfold getNat at h
  split at h
  · simp at h
  · simp only [Option.some.injEq, Prod.mk.injEq] at h
    obtain ⟨-, rfl⟩ := h
    simp
    omega

theorem getIf_length {b : Bool} {n : Nat} {v : Option Nat} {p q : List Byte}
    (h : getIf b n p = some (v, q)) : p.length ≤ n + q.length := by
  unfold getIf at h
  split at h
  · cases hg : getNat n p with
    | none => simp [hg] at h
    | some x =>
      simp only [hg, Option.map_some, Option.some.injEq, Prod.mk.injEq] at h
      obtain ⟨-, rfl⟩ := h
      rw [getNat_length (p := p) (q := x.2) hg]
  · simp only [Option.some.injEq, Prod.mk.injEq] at h
    obtain ⟨-, rfl⟩ := h
    omega

/-- A SET INPUT has at most 8 bytes of parameters (R27, R182). -/
theorem parseSetInput_long {p : List Byte} (h : 9 ≤ p.length) : parseSetInput p = none := by
  rw [Option.eq_none_iff_forall_ne_some]
  intro c hc
  unfold parseSetInput at hc
  simp only [Option.bind_eq_bind, Option.bind_eq_some_iff, Prod.exists] at hc
  obtain ⟨_, _, h1, _, _, h2, _, _, h3, _, _, h4, _, _, h5, _, q, h6, _, -, _, -, hif⟩ := hc
  have := getNat_length h1
  have := getNat_length h2
  have := getIf_length h3
  have := getIf_length h4
  have := getIf_length h5
  have := getIf_length h6
  split at hif
  · rename_i ht
    simp only [Bool.and_eq_true, List.isEmpty_iff] at ht
    have : q.length = 0 := by rw [ht.1.1.1.1.1, List.length_nil]
    omega
  · simp at hif

/-! ### The frame check (R170, R183) -/

theorem length_requestFrame (k : Byte) (p : List Byte) :
    (requestFrame k p).rest.length = p.length + 2 := by
  simp [requestFrame, length_bytesOf]

/-- A request frame of up to 508 counted bytes passes the check and gives its parameters. -/
theorem checkFrame_requestFrame (k : Byte) {p : List Byte} (h : p.length ≤ 507) :
    checkFrame k (requestFrame k p) = .good p := by
  have hL : (BitVec.ofNat 16 (p.length + 1)).toNat = p.length + 1 := by
    rw [BitVec.toNat_ofNat, Nat.mod_eq_of_lt (by omega)]
  have hc : (crc16 (bytesOf 2 (p.length + 1) ++ k :: p)).toNat < 256 ^ 2 := by
    have := (crc16 (bytesOf 2 (p.length + 1) ++ k :: p)).isLt
    omega
  have hb := length_bytesOf 2 (crc16 (bytesOf 2 (p.length + 1) ++ k :: p)).toNat
  unfold checkFrame requestFrame
  simp only [hL]
  rw [if_neg (by simp [hb])]
  have ht : (k :: (p ++ bytesOf 2 (crc16 (bytesOf 2 (p.length + 1) ++ k :: p)).toNat)).take
      (p.length + 1) = k :: p := by
    rw [List.take_succ_cons, List.take_left' rfl]
  have hd : (k :: (p ++ bytesOf 2 (crc16 (bytesOf 2 (p.length + 1) ++ k :: p)).toNat)).drop
      (p.length + 1) = bytesOf 2 (crc16 (bytesOf 2 (p.length + 1) ++ k :: p)).toNat := by
    rw [List.drop_succ_cons, List.drop_left' rfl]
  rw [ht, hd, List.take_of_length_le (by omega), natOf_bytesOf_lt hc, if_pos]
  · rfl
  · simp [within]
    omega

/-! ### Transactions -/

variable (s : State)

theorem settleIdle_of_nil (h : s.idleDue = []) : s.settleIdle = s := by
  unfold State.settleIdle
  rw [h]
  cases s
  simp_all

/-- What a ready port's request leaves to its owner. -/
theorem accepted_eq (hs : s.idleDue = []) (n : Nat) :
    (((s.shift (List.replicate (3 + (n + 2)) 0x00#8)).acceptFrame).takeRequest .site) = s.accepted n := by
  unfold State.takeRequest
  rw [settleIdle_of_nil _ (by exact hs)]
  unfold State.restartIdle State.accepted State.shift State.acceptFrame State.ws State.setWs
  rw [show 3 + (n + 2) = 5 + n by omega]
  dsimp only
  split <;> rfl

theorem transact_good {k : Byte} {p : List Byte} (hp : p.length ≤ 507) (hr : s.phase = .running)
    (hf : s.port.flight = none) (hand : State → List Byte → State) :
    s.transact k (requestFrame k p) hand
      = hand (s.shift (List.replicate (3 + (p.length + 2)) 0x00#8)).acceptFrame p := by
  unfold State.transact State.whenRunning
  rw [if_pos hr, length_requestFrame, checkFrame_requestFrame k hp]
  have : (s.shift (List.replicate (3 + (p.length + 2)) 0x00#8)).port.flight = none := hf
  simp only [this]

/-- A direct request at a ready port: the owner's act, and its answer in the reply store. -/
theorem siteDirect_ready {k : Byte} {owner : Owner} {p : List Byte} (hs : s.ready) (hp : p.length ≤ 507) :
    siteDirect k owner (requestFrame k p) s
      = (owner (s.accepted p.length) .site p).1.replied k (owner (s.accepted p.length) .site p).2 := by
  obtain ⟨hr, hf, hi, -, -⟩ := hs
  unfold siteDirect
  rw [transact_good s hp hr hf]
  unfold State.handDirect
  rw [accepted_eq s hi]
  rfl

/-- A batch request or an edit at a ready port. -/
theorem siteBatch_ready {k : Byte} {owner : State → Requester → List Byte → State × Option Answer}
    {p : List Byte} (hs : s.ready) (hp : p.length ≤ 507) :
    siteBatch k owner (requestFrame k p) s
      = match owner (s.accepted p.length) .site p with
        | (t, some a) => t.replied k a
        | (t, none) => { t with port := { t.port with flight := some .commit } } := by
  obtain ⟨hr, hf, hi, -, -⟩ := hs
  unfold siteBatch
  rw [transact_good s hp hr hf]
  unfold State.handBatch
  rw [accepted_eq s hi]
  rfl

/-! ### A ready port stays ready for the owner -/

theorem settleCtab_of_nil (h : s.ctabDue = []) : s.settleCtab = s := by
  unfold State.settleCtab
  rw [h]
  cases s
  simp_all

theorem takeReports_of_nil (h : s.reports = []) : s.takeReports = s := by
  unfold State.takeReports State.drainReports
  rw [h]
  cases s
  simp_all

theorem testTimes_of_none (h : ∀ e m, s.timeDue e m = false) : s.testTimes = s := by
  unfold State.testTimes
  simp [h]

theorem spsReady_of_idle (h : s.spsIdle) : s.spsReady = s := by
  unfold State.spsReady
  rw [testTimes_of_none s h.2, testTimes_of_none s h.2, takeReports_of_nil s h.1]

theorem settleCtab_accepted (hs : s.ready) (n : Nat) : (s.accepted n).settleCtab = s.accepted n :=
  settleCtab_of_nil _ hs.2.2.2.1

theorem spsReady_accepted (hs : s.ready) (n : Nat) : (s.accepted n).spsReady = s.accepted n :=
  spsReady_of_idle _ hs.2.2.2.2

end Sys2Proof.Machine
end

