-- ==== Sys2Proof/Tests/Slice0.lean ====
section
/-! SUPPORT. Tests: the checks of WellFormed, one step of each kind of command on small states, and for
every statement a state and operands that meet its hypotheses, clause by clause. -/

namespace Sys2Proof.Tests

open Sys2Proof Sys2Proof.Machine

-- One theorem at a time: the kernel's evaluations wait on one another, each in a thread of its own.
set_option Elab.async false

/-! ### WellFormed refuses each ill-formed term -/

theorem test_refuses_known_kind : Instr.wellFormed (.unknownRequest 0x40#8 ⟨1, []⟩) = false := by decide +kernel
theorem test_refuses_request_byte : Instr.wellFormed (.statusPoll 0x57#8 3) = false := by decide +kernel
theorem test_takes_cut_request : Instr.wellFormed (.statusPoll 0x57#8 2) = true := by decide +kernel
theorem test_refuses_reply_byte : Instr.wellFormed (.statusPoll 0x52#8 0) = false := by decide +kernel
theorem test_refuses_input_8 :
    Instr.wellFormed (.missingSyncByte ⟨8, List.replicate 188 0⟩) = false := by decide +kernel
theorem test_refuses_synced_miss : Instr.wellFormed (.missingSyncByte ⟨0, nullPacket⟩) = false := by decide +kernel
theorem test_refuses_short_miss : Instr.wellFormed (.missingSyncByte ⟨0, [0]⟩) = false := by decide +kernel
theorem test_refuses_sync_input_8 : Instr.wellFormed (.syncAcquired 8 []) = false := by decide +kernel
theorem test_refuses_candidate_input_8 : Instr.wellFormed (.syncCandidateGivenUp 8 []) = false := by decide +kernel
theorem test_refuses_packet_input_8 :
    Instr.wellFormed (.packetReceived 8 0x47#8 nullPacket.tail) = false := by decide +kernel
theorem test_refuses_short_packet : Instr.wellFormed (.packetReceived 0 0x47#8 [0]) = false := by decide +kernel
theorem test_refuses_unsynced_packet :
    Instr.wellFormed (.packetReceived 0 0 nullPacket.tail) = false := by decide +kernel
theorem test_refuses_handle_0 : Instr.wellFormed (.lossWindowExpired 0) = false := by decide +kernel
theorem test_refuses_handle_1024 : Instr.wellFormed (.restoreHoldEnded 1024) = false := by decide +kernel
theorem test_refuses_feed_24 : Instr.wellFormed (.outputOpportunity 24) = false := by decide +kernel
theorem test_refuses_directory_feed_24 : Instr.wellFormed (.directoryPeriodExpired 24) = false := by decide +kernel
theorem test_refuses_slot_16 : Instr.wellFormed (.switchDeadlineExpired 0 16) = false := by decide +kernel
theorem test_refuses_deadline_feed_24 : Instr.wellFormed (.switchDeadlineExpired 24 0) = false := by decide +kernel
theorem test_refuses_entry_64 : Instr.wellFormed (.timeMatcherOccurs 64 .a) = false := by decide +kernel
theorem test_takes_packet :
    Instr.wellFormed (.packetReceived 7 0x47#8 nullPacket.tail) = true := by decide +kernel

/-! ### Small states -/

/-- A part that takes transactions. -/
def base : State := { State.reset with phase := .running }

def asserted : State := { State.reset with phase := .asserted }

/-- A record in a state, of input 0 and programme 1. -/
def rec (st : RecState) : Record :=
  { state := st, owner := .site, key := ⟨0, 1⟩, cls := .network, region := 0,
    components := [⟨0x100, .video⟩], peak := 8000, fallback := none, lossWindow := 200,
    restoreHold := 1000, autoReturn := true, planned := 0, onAir := 0, spliceRefs := 0,
    fallbackRefs := 0, hit := false, armed := false, probe := none, silence := none, hold := none,
    silentFlag := false }

def withRec (st : RecState) : State := { base with records := [(1, rec st)] }

/-- SITE's workspace in an open batch that holds F0. -/
def openWs : Workspace :=
  { Workspace.start with depth := 1, levels := [⟨true, true, 0⟩], claims := 1, idle := some 0 }

def opened (st : RecState) : State := { withRec st with siteWs := openWs }

def slotOf (oa : OnAir) (source outgoing : Option Nat) (deadline : Option Timer) : Slot :=
  ⟨some ⟨1, 1, 0x100⟩, oa, source, outgoing, deadline, none⟩

def slotted (st : RecState) (x : Slot) : State := { withRec st with slots := [(0, x)] }

/-- Input 0 enabled and LOCKED. -/
def locked : State :=
  { base with inputs := [(0, { Input.start 0 with enabled := true, sync := .locked })] }

/-- A packet on a PID, with continuity count `n` and a payload. -/
def packet (pid n : Nat) (payload : List Byte) : List Byte := directoryPacket true pid n payload

/-- The state after a command, when it answers one. -/
def after (c : Instr) (s : State) : State :=
  match exec c s with
  | .next t => t
  | .fault _ | .refused _ => s

/-- No report waits and no listed entry has a TIME matcher that is due. -/
theorem idle_of {s : State} (h : s.reports = [])
    (he : (s.entries.all fun c => !s.timeDue c.1 .a && !s.timeDue c.1 .b) = true) : s.spsIdle := by
  refine ⟨h, fun e m => ?_⟩
  cases hx : Table.find? s.entries e with
  | none =>
    have ht : (s.entry e).trigger = none := by unfold State.entry Table.look; rw [hx]; rfl
    unfold State.timeDue Entry.listens
    dsimp only
    rw [ht]
    rfl
  | some x =>
    have := List.all_eq_true.1 he (e, x) (Table.find?_mem _ _ _ hx)
    simp only [Bool.and_eq_true, Bool.not_eq_true'] at this
    cases m
    · exact this.1
    · exact this.2

theorem ready_of {s : State} (h : s.phase = .running ∧ s.port.flight = none ∧ s.idleDue = [] ∧ s.ctabDue = [])
    (hr : s.reports = []) (he : (s.entries.all fun c => !s.timeDue c.1 .a && !s.timeDue c.1 .b) = true) :
    s.ready := ⟨h.1, h.2.1, h.2.2.1, h.2.2.2, idle_of hr he⟩

theorem ready_base : base.ready := ready_of ⟨rfl, rfl, rfl, rfl⟩ rfl rfl

theorem ready_withRec (st : RecState) : (withRec st).ready := ready_of ⟨rfl, rfl, rfl, rfl⟩ rfl rfl

theorem ready_opened (st : RecState) : (opened st).ready := ready_of ⟨rfl, rfl, rfl, rfl⟩ rfl rfl

theorem canonical_withRec (st : RecState) : (withRec st).canonical := by
  simp [State.canonical, withRec, base, State.reset, Table.canonical, Table.rising]

/-- The canonical form, as a test that decides. -/
def canonicalTest (s : State) : Bool :=
  Table.rising s.smap && Table.rising s.records && Table.rising s.slots && Table.rising s.entries
    && Table.rising s.legs
    && s.slots.all (fun c => decide (c.2 ≠ Slot.start)) && s.entries.all (fun c => decide (c.2 ≠ Entry.start))
    && s.legs.all (fun c => decide (c.2 ≠ Leg.start c.1))

theorem canonical_of {s : State} (h : canonicalTest s = true)
    (h' : s.inputs = [] ∧ s.outs = [] ∧ s.counts = [] ∧ s.marks = [] ∧ s.pairs = [] ∧ s.attention = []) :
    s.canonical := by
  simp only [canonicalTest, Bool.and_eq_true, List.all_eq_true, decide_eq_true_eq] at h
  obtain ⟨⟨⟨⟨⟨⟨⟨h1, h2⟩, h3⟩, h4⟩, h5⟩, h6⟩, h7⟩, h8⟩ := h
  obtain ⟨i1, i2, i3, i4, i5, i6⟩ := h'
  simp only [State.canonical, Table.canonical, i1, i2, i3, i4, i5, i6, Table.rising, List.not_mem_nil,
    false_implies, implies_true, and_self, true_and, and_true]
  exact ⟨h1, h2, ⟨h5, h8⟩, ⟨h3, h6⟩, h4, h7⟩

/-! ### One step of each kind -/

theorem test_crc16_of_check_string :
    crc16 ("123456789".toList.map fun c => BitVec.ofNat 8 c.toNat) = 0x29B1#16 := by decide +kernel
theorem test_crc32_of_check_string :
    crc32 ("123456789".toList.map fun c => BitVec.ofNat 8 c.toNat) = 0x0376E6E7#32 := by decide +kernel

theorem test_open_batch :
    (after (.openBatch (requestFrame 0x01#8 (packed [(1, 0), (3, 1), (1, 0), (1, 1), (1, 0), (1, 2)])))
      base).siteWs.levels = [⟨true, false, 2⟩] := by decide +kernel
theorem test_open_batch_claims :
    ((after (.openBatch (requestFrame 0x01#8 (packed [(1, 0), (3, 1), (1, 0), (1, 1), (1, 0), (1, 2)])))
      base).leg 0).claim = some .site := by decide +kernel
theorem test_close_batch :
    (after (.closeBatch (requestFrame 0x02#8 [])) (opened .live)).port.flight = some .commit := by decide +kernel
theorem test_abandon_batch :
    (after (.abandonBatch (requestFrame 0x03#8 [40#8])) (opened .live)).siteOutcome.code = 40 := by decide +kernel
theorem test_apply :
    (after (.apply (requestFrame 0x04#8 (packed [(1, 1), (1, 0x14), (1, 5), (1, 3)]))) base).siteWs.edits
      = [(.slot ⟨5, 3, none⟩, 0)] := by decide +kernel
theorem test_create_record :
    (after (.createRecord (requestFrame 0x10#8 (packed [(1, 0), (1, 2), (2, 7), (1, 1), (1, 3), (1, 1),
      (2, 0x200), (1, 0), (2, 500)]))) (opened .live)).siteWs.handles = [2] := by decide +kernel
theorem test_amend_record :
    (after (.amendRecord (requestFrame 0x11#8 (packed [(1, 4), (2, 1), (2, 900)]))) (opened .live)).siteWs.edits.length
      = 1 := by decide +kernel
theorem test_retire_record :
    (after (.retireRecord (requestFrame 0x12#8 (packed [(2, 1)]))) (opened .live)).siteWs.edits
      = [(.retire 1, 0)] := by decide +kernel
theorem test_bind_slot :
    (after (.bindSlot (requestFrame 0x13#8 (packed [(1, 0), (1, 0), (2, 1), (2, 1), (2, 0x100)])))
      (opened .live)).siteWs.edits = [(.slot ⟨0, 0, some ⟨1, 1, 0x100⟩⟩, 0)] := by decide +kernel
theorem test_unbind_slot_not_claimed :
    (after (.unbindSlot (requestFrame 0x14#8 (packed [(1, 1), (1, 0)]))) (opened .live)).siteOutcome.code
      = Code.notClaimed.num := by decide +kernel
theorem test_set_leg :
    (after (.setLeg (requestFrame 0x15#8 (packed [(1, 1), (1, 0), (1, 1)]))) (opened .live)).siteWs.edits.length
      = 1 := by decide +kernel
theorem test_status_poll : (after (.statusPoll 0x00#8 1) base).miso = .shifted [0xA1#8, 0xFF#8] := by decide +kernel
theorem test_unknown_request :
    (after (.unknownRequest 0x99#8 (requestFrame 0x99#8 [])) base).port.reply
      = some ⟨0x99#8, .unknownRequest, 0, 0, []⟩ := by decide +kernel
theorem test_frame_error :
    (after (.readAttention ⟨1, [0#8, 0#8]⟩) base).port.reply = some ⟨0#8, .frameError, 0, 0, []⟩ := by decide +kernel
theorem test_null_packet_sent :
    ((after (.outputOpportunity 0) { base with legs := [(0, { Leg.start 0 with state := .onAir })] }).out 0).line
      = some nullPacket := by decide +kernel
theorem test_loss : ((after (.lossWindowExpired 1)
    { base with uptime := 18000, records := [(1, { rec .live with silence := some 0 })] }).record? 1).map
      (·.state) = some .lost := by decide +kernel
theorem test_no_loss_before : ((after (.lossWindowExpired 1)
    { base with uptime := 17999, records := [(1, { rec .live with silence := some 0 })] }).record? 1).map
      (·.state) = some .live := by decide +kernel
theorem test_packet_counted :
    ((after (.packetReceived 0 0x47#8 (packet 0x33 1 []).tail) locked).input 0).counters.unmapped = 1 := by
  decide +kernel
theorem test_second_miss_searches :
    (after (.missingSyncByte ⟨0, 0#8 :: 0#8 :: 0x47#8 :: List.replicate 185 0⟩)
      { base with inputs := [(0, { locked.input 0 with miss := true })] }).input 0
      = { locked.input 0 with
        sync := .search, lost := true, window := 0x47#8 :: List.replicate 185 0,
        counters := { InputCounters.zero with syncLosses := 1 } } := by decide +kernel
theorem test_cut_request_frame : (after (.statusPoll 0x57#8 2) base).miso
    = .shifted [0xA1#8, 0x00#8, 0x00#8] := by decide +kernel
/-- A packet is stamped with the clock as it stands. -/
theorem test_probe_stamp :
    (((after (.packetReceived 0 0x47#8 (packet 0x100 0 []).tail)
      { locked with
        clock := 77, records := [(1, { rec .live with armed := true })]
        smap := [(0x100, ⟨1, 0, true, none⟩)] }).record? 1).bind (·.probe)).map (·.arrival) = some 77 := by
  decide +kernel
theorem test_tick_wraps :
    (after .stationClockTick { base with clock := BitVec.allOnes 33 }).clock = 0 := by decide +kernel
theorem test_reset_asserted_releases_miso : (after .resetnAsserted base).miso = .released := by decide +kernel
theorem test_first_step_idles : step State.reset = .next State.reset := rfl
theorem test_withFetchWord_spells_none : (State.reset.withFetchWord 8 1) = State.reset := by decide +kernel

/-! ### Witnesses: the hypotheses of each statement are met, clause by clause -/

def frame0 : Frame := ⟨1, [0#8, 0#8]⟩

theorem witness_StepTakesTheFrontCommand :
    base.pending = [] ∧ ∃ t, exec .clearingAct base = .next t := ⟨rfl, _, rfl⟩


theorem witness_AbsentThingsStopTheRun :
    8 ≤ 8 ∧ (7 < 8 ∧ (0x46#8 ≠ 0x47#8 ∨ nullPacket.tail.length ≠ 187))
      ∧ (0x47#8 ≠ 0x47#8 ∨ ([] : List Byte).length ≠ 187)
      ∧ (nullPacket.head? = some 0x47#8 ∨ nullPacket.length ≠ 188)
      ∧ (([] : List Byte).head? = some 0x47#8 ∨ ([] : List Byte).length ≠ 188)
      ∧ (0 = 0 ∨ 1024 ≤ 0) ∧ (1024 = 0 ∨ 1024 ≤ 1024) ∧ (24 ≤ 23 ∨ 16 ≤ 16) ∧ (24 ≤ 24 ∨ 16 ≤ 15) ∧ 24 ≤ 24
      ∧ 64 ≤ 64 ∧ (0x7F#8).toNat ∈ catalogue ∧ ((0x57#8 = 0x57#8 ∧ 3 ≤ 3) ∨ 0x57#8 = 0x52#8)
      ∧ ((0x52#8 = 0x57#8 ∧ 3 ≤ 0) ∨ 0x52#8 = 0x52#8) := by decide +kernel

theorem witness_FramesAreTakenOrDiscarded :
    State.reset.phase ≠ .running ∧ (0x57#8 ≠ 0x52#8 ∧ (0x57#8 = 0x57#8 → 2 ≤ 2)) ∧ 2 ≤ 2
      ∧ IsRequestRow (0x01#8, .openBatch) ∧ IsRequestRow (0x99#8, .unknownRequest 0x99#8)
      ∧ base.phase = .running ∧ ¬ frameComplete ⟨1, [0#8]⟩ ∧ frameComplete frame0
      ∧ ({ base with port := ⟨some .commit, none, false, []⟩ } : State).port.flight.isSome = true := by
  refine ⟨by decide, by decide, by decide, Or.inl (by simp [siteRows]), Or.inr ⟨by decide, rfl⟩, rfl, ?_, ?_, rfl⟩
    <;> unfold frameComplete <;> decide

theorem witness_FramesAreTakenOrDiscarded_answered :
    base.phase = .running ∧ base.port.flight = none
      ∧ frameComplete ⟨0, [0#8, 0#8]⟩ ∧ ¬ (1 ≤ (0 : BitVec 16).toNat) ∧ frameComplete frame0
      ∧ ¬ frameCrcOk 0x40#8 frame0 ∧ (0x99#8).toNat ∉ catalogue
      ∧ frameComplete (requestFrame 0x99#8 []) ∧ 1 ≤ (requestFrame 0x99#8 []).len.toNat
      ∧ (requestFrame 0x99#8 []).len.toNat ≤ 508 ∧ frameCrcOk 0x99#8 (requestFrame 0x99#8 []) := by
  unfold frameComplete frameCrcOk; decide +kernel

theorem witness_TheStatusAndTheReplyAreShiftedOut :
    base.phase = .running ∧ base.port.reply = none
      ∧ ∃ r : Reply, (replyFrame r).length ≤ 8 ∧ 7 < (replyFrame r).length :=
  ⟨rfl, rfl, ⟨0x40#8, .taken, 0, 0, []⟩, by decide +kernel⟩

theorem witness_BadParametersAreRefused :
    base.ready ∧ (0x40#8, Instr.readRecord) ∈ directRows
      ∧ ((0x40#8, 2) ∉ directLengths ∧ (0x40#8, 4) ∉ directLengths ∧ (0x30#8, 1) ∉ directLengths
        ∧ (0x30#8, 9) ∉ directLengths ∧ (0x4B#8, 507) ∉ directLengths)
      ∧ (List.replicate 507 (0 : Byte)).length ≤ 507 ∧ [0#8] ≠ []
      ∧ (2 < 256 ∧ 2 ≤ 2 ∧ 1024 < 65536 ∧ 1024 ≤ 1024) ∧ (7 < 256 ∧ 8 < 256 ∧ 8 ≤ 8 ∧ 0 = 0)
      ∧ (24 ≤ 24 ∧ 24 < 256) ∧ (23 < 256 ∧ 16 < 256 ∧ 16 ≤ 16) ∧ (64 ≤ 64 ∧ 64 < 256)
      ∧ (∀ n ∈ [24, 255], 0 = 0 ∧ 24 ≤ n) ∧ (1 = 1 ∧ 8 ≤ 8) :=
  ⟨ready_base, by simp [directRows], by decide, by rw [List.length_replicate], by decide⟩

theorem witness_ResetTakesThePowerOnValues :
    asserted.phase = .asserted ∧ Instr.stationClockTick ≠ .resetnAsserted
      ∧ Instr.stationClockTick ≠ .resetnReleased ∧ (∃ t, exec .stationClockTick asserted = .next t)
      ∧ base.phase ≠ .asserted ∧ State.reset.phase = .settling ∧ base.phase ≠ .settling :=
  ⟨rfl, by decide, by decide, ⟨_, rfl⟩, by decide, rfl, by decide⟩

def clearing : State := { base with port := ⟨some .clearAll, none, true, []⟩ }

theorem witness_StartingEventsFreeEverySplice :
    asserted.phase = .asserted ∧ clearing.phase ≠ .asserted ∧ clearing.port.flight = some .clearAll := by
  decide

theorem witness_StartingEventsEmptyEverySlot :
    asserted.phase = .asserted ∧ clearing.phase ≠ .asserted ∧ clearing.port.flight = some .clearAll := by
  decide

theorem witness_ClearAllWaitsForItsAct :
    base.ready ∧ clearing.phase ≠ .asserted ∧ clearing.port.flight = some .clearAll
      ∧ base.port.flight ≠ some .clearAll := ⟨ready_base, by decide, rfl, by decide⟩

theorem keysDistinct_withRec (st : RecState) : (withRec st).keysDistinct := by
  intro g h x y hg hh _
  simp only [State.record?, withRec, Table.find?] at hg hh
  split at hg <;> split at hh <;> simp_all

theorem witness_ReadsGiveWhatStands :
    (withRec .live).ready ∧ (withRec .live).canonical ∧ (withRec .live).keysDistinct
      ∧ (withRec .live).record? 1 = some (rec .live) ∧ (rec .live).key = ⟨0, 1⟩
      ∧ (∀ h x, (withRec .live).record? h = some x → x.key ≠ ⟨7, 65535⟩) := by
  refine ⟨ready_withRec _, canonical_withRec _, keysDistinct_withRec _, rfl, rfl, ?_⟩
  intro h x hx
  simp only [State.record?, withRec, Table.find?] at hx
  split at hx
  · cases hx; decide
  · cases hx

theorem witness_ReadsGiveWhatStands_each :
    base.ready ∧ 23 < 24 ∧ 15 < 16 ∧ 63 < 64 ∧ 7 < 8 ∧ (1 ≤ 1023 ∧ 1023 ≤ 1023) :=
  ⟨ready_base, by decide⟩

theorem witness_ReadsThatClear :
    (withRec .live).ready ∧ (withRec .live).record? 1 = some (rec .live) ∧ (withRec .live).record? 1023 = none
      ∧ 23 < 24 ∧ 7 < 8 := ⟨ready_withRec _, rfl, rfl, by decide⟩

theorem witness_CountersAndAttentionAreSet :
    base.ready ∧ (23 < 24 ∧ 7 < 8 ∧ 127 < 128 ∧ 1 = CountUnit.bytes.num)
      ∧ (24 ≤ 24 ∨ 8 ≤ 0 ∨ 128 ≤ 0 ∨ 2 ≤ 0) ∧ (24 ≤ 0 ∨ 8 ≤ 0 ∨ 128 ≤ 0 ∨ 2 ≤ 2) ∧ 127 < 128 ∧ 128 ≤ 128
      ∧ 128 < 256 := ⟨ready_base, by decide⟩

theorem witness_SettingsAreWritten :
    base.ready ∧ (1 ≤ 600 ∧ 600 ≤ 600) ∧ 600 < 601 ∧ (23 < 24 ∧ (base.leg 23).claim = none)
      ∧ (24 < 256 ∧ 24 ≤ 24) := ⟨ready_base, by decide +kernel⟩

theorem witness_SettingsAreWritten_clock :
    base.ready ∧ 2 ^ 33 - 1 < 2 ^ 33 ∧ (∀ c ∈ base.cues, base.clockReached c.maturity = false)
      ∧ (∀ e m, ({ base with clock := BitVec.ofNat 33 (2 ^ 33 - 1) } : State).timeDue e m = false)
      ∧ 2 ^ 33 < 2 ^ 40 :=
  ⟨ready_base, by decide, by simp [base, State.reset], fun _ _ => rfl, by decide⟩

/-- The stream map holds PID 0x100 of input 0. -/
def mappedState : State := { base with smap := [(0x100, ⟨1, 0, true, none⟩)] }

theorem witness_InputsAreSet :
    base.ready ∧ parseSetInput [0#8] = none ∧ parseSetInput (packed [(1, 0), (1, 8)]) = none
      ∧ parseSetInput (packed [(1, 2), (1, 0), (2, 0x1FF0)]) = some ⟨0, none, some (some 0x1FF0), none, none⟩
      ∧ ((⟨0, none, some (some 0x1FF0), none, none⟩ : InputSettings).apply (base.input 0)).cuePid
        = some ((⟨0, none, some (some 0x1FF0), none, none⟩ : InputSettings).apply (base.input 0)).commandPid
      ∧ ((⟨0, none, some (some 0x100), none, none⟩ : InputSettings).apply (mappedState.input 0)).cuePid
        = some 0x100
      ∧ 0x100 ∉ (mappedState.input 0).reservedPids ∧ mappedState.mapped 0 0x100 = true
      ∧ base.mapped 0 0x100 = false := ⟨ready_base, by decide +kernel⟩

theorem witness_SettingsAreWritten_probe :
    (withRec .live).ready ∧ (withRec .live).record? 1 = some (rec .live) ∧ (rec .live).state ≠ .reserved
      ∧ (∀ x, (withRec .reserved).record? 1 = some x → x.state = .reserved) ∧ 1024 ≤ 1024 ∧ 1024 < 65536 := by
  refine ⟨ready_withRec _, rfl, by decide, fun x hx => ?_, by decide, by decide⟩
  cases hx; rfl

def immediateOpen : List Byte := packed [(1, 0), (3, 1), (1, 0), (1, 1), (1, 1), (1, 0)]

theorem parse_immediateOpen :
    parseOpen immediateOpen = some ⟨some ⟨true, true, 0⟩, some ⟨1, .immediate, none, none⟩⟩ := by
  decide +kernel

theorem witness_BatchesAreOpened :
    base.ready ∧ immediateOpen.length ≤ 507 ∧ base.siteWs.depth = 0
      ∧ parseOpen immediateOpen = some ⟨some ⟨true, true, 0⟩, some ⟨1, .immediate, none, none⟩⟩
      ∧ ((base.leg 0).zone ≠ .network ∧ (base.leg 0).claim = none)
      ∧ (({ base with legs := [(0, { Leg.start 0 with zone := .network })] } : State).leg 0).zone = .network
      ∧ (({ base with legs := [(0, { Leg.start 0 with claim := some .network })] } : State).leg 0).claim ≠ none
      ∧ parseOpen [] = none :=
  ⟨ready_base, by decide, rfl, parse_immediateOpen, by decide +kernel⟩

/-- One edit of each kind at its bounds, and one just outside. -/
theorem witness_EditsAreReadInTheirOrder :
    parseEdit 0x13 (packed [(1, 23), (1, 15), (2, 1023), (2, 65535), (2, 0x1FF7)])
        = some (.slot ⟨23, 15, some ⟨1023, 65535, 0x1FF7⟩⟩)
      ∧ parseEdit 0x13 (packed [(1, 23), (1, 15), (2, 1023), (2, 65535), (2, 0x1FF8)]) = none
      ∧ (List.replicate 7 (0 : Byte)).length ≠ 8 ∧ (List.replicate 3 (0 : Byte)).length ≠ 2
      ∧ parseEdit 0x14 (packed [(1, 24), (1, 15)]) = none ∧ parseEdit 0x12 (packed [(2, 1024)]) = none
      ∧ parseEdit 0x10 (packed [(1, 15), (1, 7), (2, 65535), (1, 1), (1, 15), (1, 1), (2, 0x1FFE), (1, 3),
          (2, 40000), (2, 1023), (2, 2000), (2, 5000), (1, 0)])
        = some (.create 0 ⟨⟨7, 65535⟩, .regional, 15, [⟨0x1FFE, .data⟩], 40000, some 1023, some 2000,
          some 5000, some false⟩)
      ∧ parseEdit 0x10 (packed [(1, 0), (1, 7), (2, 65535), (1, 1), (1, 15), (1, 0), (2, 40000)]) = none
      ∧ 15 < 16 ∧ 1 < 2 ∧ (∀ x ∈ [(0, 3), (16, 3), (0, 4)],
        (parseEdit 0x10 (packed [(1, x.1), (1, 7), (2, 65535), (1, 1), (1, 15), (1, 1), (2, 0x1FFE), (1, x.2),
          (2, 40000)])).isSome = decide (x = (0, 3)))
      ∧ parseEdit 0x11 (packed [(1, 130), (2, 1023)]) = none ∧ parseEdit 0x11 (packed [(1, 2), (2, 1023), (1, 0)]) = none
      ∧ parseEdit 0x15 (packed [(1, 1), (1, 23)]) = none ∧ parseEdit 0x15 (packed [(1, 129), (1, 23), (1, 2)]) = none
      ∧ parseEdit 0x11 (packed [(1, 2), (2, 1023)])
        = some (.amend ⟨1023, none, true, none, none, none, none, none⟩)
      ∧ parseEdit 0x11 (packed [(1, 3), (2, 1023), (2, 1)]) = none
      ∧ parseEdit 0x15 (packed [(1, 1), (1, 23), (1, 2)])
        = some (.setLeg ⟨23, some .muted, none, none, none, none, none, none⟩)
      ∧ parseEdit 0x15 (packed [(1, 0), (1, 23)]) = none := by decide +kernel

/-- Requests at the bounds of their fields, and just outside. -/
theorem witness_RequestsAreReadInTheirOrder :
    2 < 256 ∧ 3 < 256 ∧ 63 < 64
      ∧ parseOpen (packed [(1, 0), (3, 1), (1, 0), (1, 1), (1, 1), (1, 2)])
        = some ⟨some ⟨true, true, 2⟩, some ⟨1, .immediate, none, none⟩⟩
      ∧ (∀ p ∈ [packed [(1, 1), (3, 1), (1, 0), (1, 1), (1, 1), (1, 2), (1, 0), (1, 1), (5, 9), (1, 0xFF), (1, 1)],
          packed [(1, 2), (3, 1), (1, 0), (1, 1), (1, 1), (1, 2), (1, 1)],
          packed [(1, 0), (3, 1), (1, 1), (1, 1), (1, 1), (1, 2)], packed [(1, 0), (3, 1), (1, 2), (1, 1), (1, 1), (1, 2)],
          packed [(1, 4), (3, 1), (1, 0), (1, 1), (1, 1), (1, 2)]],
        parseOpen p = some ⟨some ⟨true, true, 2⟩, none⟩)
      ∧ parseOpen (packed [(1, 0), (3, 1), (1, 0), (1, 2), (1, 1), (1, 2)])
        = some ⟨none, some ⟨1, .immediate, none, none⟩⟩
      ∧ parseOpen (packed [(1, 0), (3, 1), (1, 0), (1, 1), (1, 1), (1, 2), (1, 0)]) = none
      ∧ parseOpen (packed [(1, 3), (3, 1), (1, 1), (1, 0), (1, 0), (1, 1), (1, 0), (1, 0), (1, 7), (1, 0),
          (4, 9), (1, 0), (1, 0xFF), (1, 255), (1, 3), (4, 47721)])
        = some ⟨some ⟨false, false, 1⟩, some ⟨1, .deferred,
          some ⟨.sole, .cue 7 (some 9) .out, none, 255⟩, some ⟨true, some 47721⟩⟩⟩
      ∧ parseOpen (packed [(1, 1), (3, 1), (1, 1), (1, 0), (1, 0), (1, 1), (1, 0), (1, 0), (1, 7), (1, 0),
          (4, 9), (1, 0), (1, 0xFF), (1, 0)]) = some ⟨some ⟨false, false, 1⟩, none⟩
      ∧ parseOpen (packed [(1, 1), (3, 1), (1, 1), (1, 0), (1, 0), (1, 1), (1, 0), (1, 0), (1, 7), (1, 1),
          (4, 9), (1, 0), (1, 0xFF), (1, 1)])
        = some ⟨some ⟨false, false, 1⟩, some ⟨1, .deferred, some ⟨.sole, .cue 7 none .out, none, 1⟩, none⟩⟩
      ∧ parseApply (packed [(1, 1), (1, 0x14), (1, 23), (1, 15)])
        = some [⟨some 23, some (.slot ⟨23, 15, none⟩)⟩]
      ∧ parseApply (packed [(1, 5), (1, 0x14), (1, 23), (1, 15)]) = none
      ∧ parseSetInput (packed [(1, 8), (1, 1), (1, 1)]) = some ⟨1, none, none, none, some true⟩
      ∧ parseSetInput (packed [(1, 8), (1, 2), (1, 1)]) = none := by decide +kernel

theorem witness_BatchesAreOpened_nested :
    (opened .live).ready ∧ 1 ≤ (opened .live).siteWs.depth ∧ (opened .live).siteWs.depth < 4
      ∧ parseOpen immediateOpen = some ⟨some ⟨true, true, 0⟩, some ⟨1, .immediate, none, none⟩⟩
      ∧ parseOpen [] = none
      ∧ ({ base with siteWs := { openWs with depth := 4 } } : State).ready
      ∧ 4 ≤ ({ openWs with depth := 4 } : Workspace).depth :=
  ⟨ready_opened _, by decide, by decide, parse_immediateOpen, by decide,
    ready_of ⟨rfl, rfl, rfl, rfl⟩ rfl rfl, by decide⟩

theorem witness_BatchesAreClosedAbandonedAndExpire :
    base.ready ∧ base.siteWs.depth = 0 ∧ (opened .live).ready ∧ (opened .live).siteWs.depth = 1
      ∧ ({ base with siteWs := { openWs with depth := 2 } } : State).ready
      ∧ (31 < 32 ∧ 32 ≤ 32 ∧ 255 < 256) ∧ ([] : List Byte).length ≠ 1 ∧ [32#8, 0#8].length ≠ 1 :=
  ⟨ready_base, rfl, ready_opened _, rfl, ready_of ⟨rfl, rfl, rfl, rfl⟩ rfl rfl,
    by decide⟩

/-- SITE's idle timer has reached the idle limit, or is one tick short of it; an expiry of NETWORK, which has none,
may wait before it. -/
def idling (now : Nat) (due : List Requester) : State := { opened .live with uptime := now, idleDue := due }

theorem witness_BatchesAreClosedAbandonedAndExpire_idle :
    (idling 2700000 []).phase ≠ .asserted ∧ (idling 2700000 []).ctabDue = []
      ∧ ((idling 2700000 []).ws .site).idle = some 0 ∧ ((idling 2700000 []).ws .network).idle = none
      ∧ 90 * (1000 * (idling 2700000 []).idleLimit) ≤ (idling 2700000 []).uptime - 0
      ∧ (idling 2699999 []).uptime - 0 < 90 * (1000 * (idling 2699999 []).idleLimit)
      ∧ (idling 2700000 [.site]).idleDue = .site :: [] ∧ (idling 2700000 [.network, .site]).idleDue = .network :: [.site]
      ∧ (after (.batchIdleExpired .network) (idling 2700000 [.site])).siteOutcome.code = Code.batchExpired.num := by
  decide +kernel

def withWs (w : Workspace) : State := { withRec .live with siteWs := w }

theorem ready_withWs (w : Workspace) : (withWs w).ready :=
  ready_of ⟨rfl, rfl, rfl, rfl⟩ rfl rfl

/-! The checks of an arrival, as tests that decide -/

def allowsTest (s : State) (r : Requester) (a : Bool) (e : Edit) : Bool :=
  (decide ((s.ws r).mode = .immediate) || match e with | .slot _ => true | _ => false)
    && e.feed?.all (fun f => (s.ws r).claims.getLsbD f)
    && match e with
      | .setLeg _ => (s.ws r).levels.all (·.legEdits)
      | .retire _ => !a && (s.ws r).levels.all (·.retire)
      | _ => true

theorem allows_of {s : State} {r : Requester} {a : Bool} {e : Edit} (h : allowsTest s r a e = true) :
    s.allows r a e := by
  simp only [allowsTest, Bool.and_eq_true] at h
  obtain ⟨⟨h1, h2⟩, h3⟩ := h
  refine ⟨?_, ?_, ?_, ?_⟩
  · cases e <;> simp_all
  · intro f hf; rw [hf] at h2; exact h2
  · intro l hl; subst hl; exact List.all_eq_true.1 h3
  · intro l hl
    subst hl
    simp only [Bool.and_eq_true, Bool.not_eq_true'] at h3
    exact ⟨h3.1, List.all_eq_true.1 h3.2⟩

def namesTest (s : State) (r : Requester) (h : Nat) : Bool :=
  match s.record? h with
  | some x => x.state != .reserved || (s.ws r).handles.contains h
  | none => false

theorem names_of {s : State} {r : Requester} {h : Nat} (hh : namesTest s r h = true) : s.names r h := by
  unfold namesTest at hh
  split at hh
  · next x hx => exact ⟨x, hx, fun hs => by simpa [hs] using hh⟩
  · cases hh

def bindableTest (s : State) (h : Nat) : Bool := (s.record? h).all fun x => x.state != .retiring

theorem bindable_of {s : State} {h : Nat} (hh : bindableTest s h = true) : s.bindable h := by
  intro x hx
  rw [bindableTest, hx] at hh
  simpa using hh

def admitsTest (s : State) (r : Requester) (e : Edit) : Bool :=
  e.named.all (namesTest s r) && e.bound.all (bindableTest s)
    && e.owned.all (fun h => (s.record? h).all fun x => x.owner == r)
    && match e with | .slot x => (s.slot x.feed x.slot).reserved == none | _ => true

theorem admits_of {s : State} {r : Requester} {e : Edit} (h : admitsTest s r e = true) : s.admits r e := by
  simp only [admitsTest, Bool.and_eq_true] at h
  obtain ⟨⟨⟨h1, h2⟩, h3⟩, h4⟩ := h
  refine ⟨fun g hg => names_of (List.all_eq_true.1 h1 g hg), fun g hg => bindable_of (List.all_eq_true.1 h2 g hg),
    ?_, ?_⟩
  · intro g hg x hx
    rw [hg] at h3
    simp only [Option.all_some] at h3
    rw [hx] at h3
    simpa using h3
  · intro x hx; subst hx; simpa using h4

theorem mayArrive_of {s : State} {r : Requester} {a : Bool} {e : Edit} (h : allowsTest s r a e = true)
    (h' : admitsTest s r e = true) (h'' : (s.ws r).edits.length < 64) : s.mayArrive r a e :=
  ⟨allows_of h, admits_of h', h''⟩

theorem witness_EditsAreCheckedAtArrival :
    (0x14#8, Instr.unbindSlot) ∈ editRows ∧ base.ready ∧ base.canonical ∧ base.siteWs.depth = 0
      ∧ (withWs openWs).ready ∧ (withWs openWs).canonical ∧ 1 ≤ openWs.depth ∧ parseEdit 0x14 [] = none
      ∧ parseEdit 0x14 [1#8, 0#8] = some (.slot ⟨1, 0, none⟩) ∧ parseEdit 0x12 [0#8, 1#8] = some (.retire 1)
      ∧ parseEdit 0x15 [1#8, 0#8, 1#8] = some (.setLeg ⟨0, some .onAir, none, none, none, none, none, none⟩) :=
  ⟨by simp [editRows], ready_base, canonical_of rfl ⟨rfl, rfl, rfl, rfl, rfl, rfl⟩, rfl, ready_withWs _,
    canonical_withRec .live, by decide, by decide +kernel⟩

/-- Checks 2 to 5 each turn an edit away. -/
theorem witness_EditsAreCheckedAtArrival_controls :
    (withWs { openWs with mode := .deferred }).failsArrival .site false (.retire 1) .notDeferrable .none
      ∧ (withWs openWs).failsArrival .site false (.slot ⟨1, 0, none⟩) .notClaimed ⟨none, some 1, none, none⟩
      ∧ (withWs { openWs with levels := [⟨false, false, 0⟩] }).failsArrival .site false
        (.setLeg ⟨0, some .onAir, none, none, none, none, none, none⟩) .legEditNotAllowed ⟨none, some 0, none, none⟩
      ∧ (withWs { openWs with levels := [⟨false, false, 0⟩] }).failsArrival .site false (.retire 1)
        .retireNotAllowed ⟨some 1, none, none, none⟩
      ∧ (withWs openWs).failsArrival .site true (.retire 1) .retireNotAllowed ⟨some 1, none, none, none⟩ :=
  ⟨Or.inl ⟨rfl, nofun, rfl, rfl⟩,
    Or.inr (Or.inl ⟨Or.inl rfl, Or.inl ⟨1, rfl, by decide, rfl, rfl⟩⟩),
    Or.inr (Or.inl ⟨Or.inl rfl, Or.inr (Or.inl ⟨_, rfl, by decide, ⟨_, List.mem_singleton.2 rfl, rfl⟩, rfl, rfl⟩)⟩),
    Or.inr (Or.inl ⟨Or.inl rfl, Or.inr (Or.inr ⟨1, rfl, Or.inr ⟨_, List.mem_singleton.2 rfl, rfl⟩, rfl, rfl⟩)⟩),
    Or.inr (Or.inl ⟨Or.inl rfl, Or.inr (Or.inr ⟨1, rfl, Or.inl rfl, rfl, rfl⟩)⟩)⟩

def bindEdit : Edit := .slot ⟨0, 0, some ⟨1, 1, 0x100⟩⟩

/-- The record of SITE's open batch in another state, or of NETWORK. -/
def openOn (x : Record) : State := { withWs openWs with records := [(1, x)] }

/-- Slot 0 of F0 is reserved by splice entry 5. -/
def reservedSlot : State := { withWs openWs with slots := [(0, { Slot.start with reserved := some 5 })] }

def fullWs : Workspace := { openWs with edits := List.replicate 64 (.retire 1, 0) }

/-- Checks 6 to 10 each turn an edit away. -/
theorem witness_EditsAreCheckedAtArrival_tables :
    (withWs openWs).failsArrival .site false (.retire 2) .unknownHandle ⟨some 2, none, none, none⟩
      ∧ ((openOn (rec .retiring)).ready ∧ (openOn (rec .retiring)).canonical
        ∧ (openOn (rec .retiring)).failsArrival .site false bindEdit .notBindable ⟨some 1, none, none, none⟩)
      ∧ ((openOn { rec .live with owner := .network }).ready
        ∧ (openOn { rec .live with owner := .network }).failsArrival .site false (.retire 1) .notOwner
          ⟨some 1, none, none, none⟩)
      ∧ (reservedSlot.ready ∧ reservedSlot.canonical
        ∧ reservedSlot.failsArrival .site false bindEdit .slotReserved ⟨none, some 0, some 0, some 5⟩)
      ∧ (withWs fullWs).ready ∧ (withWs fullWs).failsArrival .site false (.retire 1) .workspaceFull .none := by
  refine ⟨Or.inr (Or.inr (Or.inl ⟨allows_of rfl, Or.inl ⟨[], 2, [], rfl, nofun, ?_, rfl, rfl⟩⟩)),
    ⟨ready_of ⟨rfl, rfl, rfl, rfl⟩ rfl rfl, canonical_of rfl ⟨rfl, rfl, rfl, rfl, rfl, rfl⟩,
      Or.inr (Or.inr (Or.inl ⟨allows_of rfl, Or.inr (Or.inl ⟨?_, Or.inl ⟨[], 1, [], rfl, nofun, ?_, rfl, rfl⟩⟩)⟩))⟩,
    ⟨ready_of ⟨rfl, rfl, rfl, rfl⟩ rfl rfl,
      Or.inr (Or.inr (Or.inl ⟨allows_of rfl, Or.inr (Or.inl ⟨?_, Or.inr ⟨nofun,
        Or.inl ⟨1, _, rfl, rfl, nofun, rfl, rfl⟩⟩⟩)⟩))⟩,
    ⟨ready_of ⟨rfl, rfl, rfl, rfl⟩ rfl rfl, canonical_of rfl ⟨rfl, rfl, rfl, rfl, rfl, rfl⟩,
      Or.inr (Or.inr (Or.inl ⟨allows_of rfl, Or.inr (Or.inl ⟨?_, Or.inr ⟨?_,
        Or.inr ⟨_, 5, rfl, rfl, rfl, rfl⟩⟩⟩)⟩))⟩,
    ready_withWs _,
    Or.inr (Or.inr (Or.inl ⟨allows_of rfl, Or.inr (Or.inr ⟨admits_of rfl, by decide, rfl, rfl⟩)⟩))⟩
  · rintro ⟨x, hx, _⟩; cases hx
  · intro g hg; cases List.mem_singleton.1 hg; exact names_of rfl
  · intro h; exact h _ rfl rfl
  · intro g hg; cases List.mem_singleton.1 hg; exact names_of rfl
  · intro g hg; cases List.mem_singleton.1 hg; exact names_of rfl
  · intro g hg; cases List.mem_singleton.1 hg; exact bindable_of rfl

theorem stampIs_open : openWs.stampIs 0 := ⟨by decide, Or.inl rfl⟩

theorem witness_EditsJoinTheWorkspace :
    (withWs openWs).ready ∧ 1 ≤ openWs.depth ∧ openWs.stampIs 0
      ∧ parseEdit 0x13 (packed [(1, 0), (1, 0), (2, 1), (2, 1), (2, 0x100)]) = some bindEdit
      ∧ (withWs openWs).mayArrive .site false bindEdit
      ∧ (withWs openWs).mayArrive .site false (.retire 1)
      ∧ (withWs openWs).mayArrive .site false (.setLeg ⟨0, some .onAir, none, none, none, none, none, none⟩)
      ∧ parseEdit 0x11 (packed [(1, 4), (2, 1), (2, 900)])
        = some (.amend ⟨1, none, false, some 900, none, none, none, none⟩)
      ∧ (withWs openWs).mayArrive .site false (.amend ⟨1, none, false, some 900, none, none, none, none⟩) :=
  ⟨ready_withWs _, by decide, stampIs_open, by decide +kernel, mayArrive_of rfl rfl (by decide),
    mayArrive_of rfl rfl (by decide), mayArrive_of rfl rfl (by decide), by decide +kernel,
    mayArrive_of rfl rfl (by decide)⟩

def newRecord (n : Nat) : CreateFields :=
  ⟨⟨0, n⟩, .network, 0, [⟨0x200, .video⟩], 500, none, none, none, none⟩

theorem mayArrive_create (n : Nat) : (withWs openWs).mayArrive .site false (.create 0 (newRecord n)) :=
  mayArrive_of rfl rfl (by decide)

theorem keyFree_new : (withWs openWs).keyFree (newRecord 2).key := by
  intro h x hx
  simp only [State.record?, withWs, withRec, Table.find?] at hx
  split at hx
  · cases hx; decide
  · cases hx

theorem lowestIs_two {s : State} (h : s.records = (withRec .live).records) : s.lowestIs 2 := by
  unfold State.lowestIs State.record?
  rw [h]
  refine ⟨by decide, by decide, by decide, fun g h1 h2 => ?_⟩
  obtain rfl : g = 1 := by omega
  nofun

/-- Every handle has a record. -/
def crowded : State := { withWs openWs with records := (List.range 1024).map fun h => (h, rec .live) }

/-- The stream map holds PID 0x200 of input 0. -/
def taken : State := { withWs openWs with smap := [(0x200, ⟨1, 0, true, none⟩)] }

/-- The stream map is full, without PID 0x200 of input 0. -/
def fullMap : State := { withWs openWs with smap := (List.range 4096).map fun k => (k + 8192, ⟨1, 0, true, none⟩) }

theorem pidsFree_new : (withWs openWs).pidsFree (newRecord 2) := by
  intro x hx; cases List.mem_singleton.1 hx; decide +kernel

theorem witness_ACreateReservesItsRecord :
    (withWs openWs).ready ∧ (withWs openWs).canonical ∧ 1 ≤ openWs.depth
      ∧ parseEdit 0x10 (packed [(1, 0), (1, 0), (2, 2), (1, 0), (1, 0), (1, 1), (2, 0x200), (1, 0), (2, 500)])
        = some (.create 0 (newRecord 2))
      ∧ (withWs openWs).mayArrive .site false (.create 0 (newRecord 2))
      ∧ (withWs openWs).keyFree (newRecord 2).key ∧ (withWs openWs).pidsFree (newRecord 2)
      ∧ (withWs openWs).smap.length + (newRecord 2).components.length ≤ 4096 ∧ (withWs openWs).lowestIs 2 :=
  ⟨ready_withWs _, canonical_withRec .live, by decide, by decide +kernel, mayArrive_create 2, keyFree_new,
    pidsFree_new, by decide, lowestIs_two rfl⟩

theorem rising_range (n k : Nat) {α : Type} (f : Nat → α) :
    Table.rising ((List.range' k n).map fun h => (h, f h)) = true := by
  induction n generalizing k with
  | zero => rfl
  | succ n ih =>
    cases n with
    | zero => rfl
    | succ n =>
      have := ih (k + 1)
      simp only [List.range'_succ, List.map_cons] at this ⊢
      rw [Table.rising, this]
      simp

theorem find_range (n k h : Nat) {α : Type} (f : Nat → α) (hk : k ≤ h) (hn : h < k + n) :
    Table.find? ((List.range' k n).map fun h => (h, f h)) h = some (f h) := by
  induction n generalizing k with
  | zero => omega
  | succ n ih =>
    simp only [List.range'_succ, List.map_cons, Table.find?]
    by_cases e : k = h
    · simp [e]
    · rw [if_neg e]; exact ih (k + 1) (by omega) (by omega)

theorem keyFree_of {s : State} {n : Nat} (h : s.records.all (fun c => decide (c.2.key ≠ ⟨0, n⟩)) = true) :
    s.keyFree (newRecord n).key := by
  intro g x hx
  simpa [newRecord] using List.all_eq_true.1 h _ (Table.find?_mem _ _ _ hx)

/-- Checks 11 to 13 each turn a CREATE RECORD away. -/
theorem witness_EditsAreCheckedAtArrival_create :
    (withWs openWs).failsArrival .site false (.create 0 (newRecord 1)) .keyExists .none
      ∧ (crowded.ready ∧ crowded.canonical
        ∧ crowded.failsArrival .site false (.create 0 (newRecord 2)) .tableFull .none)
      ∧ (taken.ready ∧ taken.canonical
        ∧ taken.failsArrival .site false (.create 0 (newRecord 2)) .pidTaken .none)
      ∧ fullMap.ready ∧ fullMap.canonical
      ∧ fullMap.failsArrival .site false (.create 0 (newRecord 2)) .mapFull .none := by
  have create : ∀ {t : State} {c : Code} (n : Nat), t.mayArrive .site false (.create 0 (newRecord n)) → _ →
      t.failsArrival .site false (.create 0 (newRecord n)) c .none := fun _ hm hc =>
    Or.inr (Or.inr (Or.inr ⟨hm, rfl, _, _, rfl, hc⟩))
  refine ⟨create 1 (mayArrive_create 1) (Or.inl ⟨fun h => h 1 _ rfl rfl, rfl⟩),
    ⟨ready_of ⟨rfl, rfl, rfl, rfl⟩ rfl rfl, ?_,
      create 2 (mayArrive_of rfl rfl (by decide)) (Or.inr (Or.inl ⟨keyFree_of (by decide +kernel), ?_, rfl⟩))⟩,
    ⟨ready_of ⟨rfl, rfl, rfl, rfl⟩ rfl rfl, ?_, create 2 (mayArrive_of rfl rfl (by decide))
      (Or.inr (Or.inr (Or.inl ⟨keyFree_of rfl, ⟨2, lowestIs_two rfl⟩, ?_, rfl⟩)))⟩,
    ready_of ⟨rfl, rfl, rfl, rfl⟩ rfl rfl, ?_, create 2 (mayArrive_of rfl rfl (by decide))
      (Or.inr (Or.inr (Or.inr ⟨keyFree_of rfl, ⟨2, lowestIs_two rfl⟩, ?_, ?_, rfl⟩)))⟩
  · have := rising_range 1024 0 (fun _ => rec .live)
    rw [← List.range_eq_range'] at this
    simp [State.canonical, crowded, withWs, withRec, base, State.reset, Table.canonical, Table.rising, this]
  · rintro h ⟨h1, h2, h3, _⟩
    have := find_range 1024 0 h (fun _ => rec .live) (by omega) (by omega)
    rw [← List.range_eq_range'] at this
    simp only [State.record?, crowded] at h3
    rw [this] at h3
    cases h3
  · simp [State.canonical, taken, withWs, withRec, base, State.reset, Table.canonical, Table.rising]
  · intro h
    exact absurd (h ⟨0x200, .video⟩ (List.mem_singleton.2 rfl)).1 (by decide +kernel)
  · have h := rising_range 4096 8192 (fun _ => (⟨1, 0, true, none⟩ : MapEntry))
    have e : (List.range 4096).map (fun k => (k + 8192, (⟨1, 0, true, none⟩ : MapEntry)))
        = (List.range' 8192 4096).map fun k => (k, ⟨1, 0, true, none⟩) := by
      rw [List.range'_eq_map_range, List.map_map]
      apply List.map_congr_left
      intro a _
      simp [Nat.add_comm]
    simp only [State.canonical, fullMap, e, h]
    simp [withWs, withRec, base, State.reset, Table.canonical, Table.rising]
  · intro x hx; cases List.mem_singleton.1 hx; decide +kernel
  · simp [fullMap, newRecord]

/-- An APPLY that unbinds slot 3 of F0 and retires record 1. -/
def applied2 : List Byte := packed [(1, 2), (1, 0x14), (1, 0), (1, 3), (1, 0x12), (2, 1)]

theorem parse_applied2 :
    parseApply applied2 = some [⟨some 0, some (.slot ⟨0, 3, none⟩)⟩, ⟨none, some (.retire 1)⟩] := by decide +kernel

theorem canonical_base : base.canonical := canonical_of rfl ⟨rfl, rfl, rfl, rfl, rfl, rfl⟩

theorem witness_AnApplyRunsItsEdits :
    (base.ready ∧ base.canonical ∧ parseApply [] = none ∧ base.siteWs.depth = 0)
      ∧ ((withWs openWs).ready ∧ 1 ≤ openWs.depth)
      ∧ parseApply applied2 = some [⟨some 0, some (.slot ⟨0, 3, none⟩)⟩, ⟨none, some (.retire 1)⟩]
      ∧ parseApply (packed [(1, 1), (1, 0x14), (1, 24), (1, 3)]) = some [⟨some 24, none⟩]
      ∧ ((base.leg 0).zone ≠ .network ∧ (base.leg 0).claim = none)
      ∧ (({ base with legs := [(0, { Leg.start 0 with zone := .network })] } : State).leg 0).zone = .network
      ∧ (({ base with legs := [(0, { Leg.start 0 with claim := some .network })] } : State).leg 0).claim ≠ none :=
  ⟨⟨ready_base, canonical_base, by decide, rfl⟩, ⟨ready_withWs _, by decide⟩, parse_applied2, by decide +kernel,
    by decide +kernel⟩

/-- Inside a batch the APPLY's first edit joins it and its second fails. -/
theorem witness_AnApplyRunsItsEdits_fails :
    (withWs openWs).joins ((withWs openWs).setWs .site { openWs with edits := [(.slot ⟨0, 3, none⟩, 0)] }) .site true
        (.slot ⟨0, 3, none⟩) 0
      ∧ ((withWs openWs).setWs .site { openWs with edits := [(.slot ⟨0, 3, none⟩, 0)] }).failsSent .site
        ⟨none, some (.retire 1)⟩ .retireNotAllowed ⟨some 1, none, none, none⟩
      ∧ (withWs openWs).failsSent .site ⟨some 24, none⟩ .badField .none :=
  ⟨⟨mayArrive_of rfl rfl (by decide), Or.inl ⟨nofun, rfl, 0, stampIs_open, rfl⟩⟩,
    Or.inr ⟨_, rfl, Or.inr (Or.inl ⟨Or.inl rfl, Or.inr (Or.inr ⟨1, rfl, Or.inl rfl, rfl, rfl⟩)⟩)⟩,
    Or.inl ⟨rfl, rfl, rfl⟩⟩

/-! ### Commits -/

/-- SITE's batch of these edits is at its commit act. -/
def commitOf (x : Table Record) (edits : List (Edit × Nat)) : State :=
  { base with records := x, siteWs := { openWs with edits := edits, flight := some ⟨0x02#8, []⟩ } }

def committing : State := commitOf [(1, rec .live)] [(bindEdit, 0)]

theorem witness_ACommitEndsItsBatch :
    committing.phase ≠ .asserted ∧ committing.idleDue = [] ∧ (committing.ws .network).flight = none
      ∧ (committing.ws .site).flight = some ⟨0x02#8, []⟩ := by decide

/-- The bind of a record the part does not have fails at the commit. -/
def failing : State := commitOf [] [(bindEdit, 0)]

theorem quiet_of {s : State} (h : s.ctabDue = [] ∧ s.idleDue = [] ∧ s.updates = [] ∧ s.reports = [])
    (he : (s.entries.all fun c => !s.timeDue c.1 .a && !s.timeDue c.1 .b) = true) : s.quiet :=
  ⟨h.1, h.2.1, h.2.2.1, idle_of h.2.2.2 he⟩

theorem witness_AFailedCommitChangesNoTable :
    failing.quiet ∧ failing.phase ≠ .asserted ∧ (failing.ws .site).flight = some ⟨0x02#8, []⟩
      ∧ ∃ t, exec (.commitAct .site) failing = .next t ∧ (t.outcome .site).result = .aborted := by
  refine ⟨quiet_of ⟨rfl, rfl, rfl, rfl⟩ rfl, by decide, rfl, after (.commitAct .site) failing, rfl, by decide +kernel⟩

theorem waits_commitOf (x : Table Record) (edits : List (Edit × Nat)) (hx : Table.rising x = true) :
    (commitOf x edits).commitWaits .site ⟨0x02#8, []⟩ .immediate :=
  ⟨by simp [commitOf, base], quiet_of ⟨rfl, rfl, rfl, rfl⟩ rfl,
    canonical_of (by simp [canonicalTest, commitOf, base, State.reset, hx, Table.rising])
      ⟨rfl, rfl, rfl, rfl, rfl, rfl⟩, rfl, rfl⟩

theorem witness_ACommittedBindingStartsASwitch :
    committing.quiet ∧ committing.canonical ∧ (committing.ws .site).flight = some ⟨0x02#8, []⟩
      ∧ (committing.ws .site).edits = [(.slot ⟨0, 0, some ⟨1, 1, 0x100⟩⟩, 0)]
      ∧ committing.slot 0 0 = ⟨none, .empty, none, none, none, none⟩
      ∧ committing.record? 1 = some (rec .live)
      ∧ legLaws (committing.paint bindEdit) = none
      ∧ (Picture.start (committing.paint bindEdit)).fallbackFailure = none :=
  ⟨(waits_commitOf _ _ rfl).2.1, (waits_commitOf _ _ rfl).2.2.1, rfl, rfl, rfl, rfl, by decide +kernel,
    by decide +kernel⟩

/-- The picture a walk of the edits builds, when it passes. -/
def walked (s : State) (es : List (Edit × Nat)) : Picture :=
  match (Picture.start s).walk 1 es with
  | .ok p => p
  | .error _ => Picture.start s

def walks (s : State) (es : List (Edit × Nat)) : Bool :=
  match (Picture.start s).walk 1 es with
  | .ok _ => true
  | .error _ => false

theorem walk_of {s : State} {es : List (Edit × Nat)} (h : walks s es = true) :
    (Picture.start s).walk 1 es = .ok (walked s es) := by
  unfold walks at h
  unfold walked
  split at h
  · next p hp => rw [hp]
  · cases h

/-- Records 1 LIVE and 2 RETIRING, slot 0 reserved: one edit for each way an edit is judged. -/
def judged : Picture :=
  Picture.start { base with
    records := [(1, rec .live), (2, rec .retiring), (3, rec .lost)]
    slots := [(0, { Slot.start with reserved := some 5 })] }

theorem witness_EditsAreJudgedOnThePicture :
    ((Edit.retire 4).named = [] ++ 4 :: [] ∧ judged.tables.record? 4 = none)
      ∧ ((Edit.slot ⟨0, 1, some ⟨2, 1, 0x100⟩⟩).bound = [] ++ 2 :: []
        ∧ judged.tables.record? 2 = some (rec .retiring))
      ∧ (judged.tables.slot 0 0).reserved = some 5 ∧ (judged.tables.slot 0 1).planned = none
      ∧ judged.tables.record? 3 = some (rec .lost) ∧ (rec .lost).fallback = none
      ∧ judged.tables.record? 1 = some (rec .live) := by decide +kernel

/-! One commit that fails at each stage -/

/-- A bind of F0 slot 0 and of slot 1. -/
def twoBinds (a b : Binding) : List (Edit × Nat) := [(.slot ⟨0, 0, some a⟩, 0), (.slot ⟨0, 1, some b⟩, 0)]

/-- No slot key but 0 has a planned binding. -/
theorem only_slot0 {t : State} {x : Slot} (h : t.slots = [(0, x)]) {k : Nat} (hk : k ≠ 0) :
    (t.slotAt k).planned = none := by
  unfold State.slotAt Table.look
  rw [h, Table.find?, if_neg (Ne.symm hk)]
  rfl

/-- A record outside F0's region groups. -/
def regional : State := commitOf [(1, { rec .live with region := 3 })] [(bindEdit, 0)]

def barred : State := { regional with legs := [(0, { Leg.start 0 with accept := 1 })] }

theorem witness_CommitsFailAtTheirStages :
    failing.commitWaits .site ⟨0x02#8, []⟩ .immediate
      ∧ ((failing.ws .site).edits = [] ++ (bindEdit, 0) :: []
        ∧ (Picture.start failing).walk 1 [] = .ok (Picture.start failing)
        ∧ (Picture.start failing).recheck 1 bindEdit = some ⟨.unknownHandle, some 1, ⟨some 1, none, none, none⟩⟩)
      ∧ ((commitOf [(1, rec .lost)] [(bindEdit, 1)]).commitWaits .site ⟨0x02#8, []⟩ .immediate
        ∧ (Picture.start (commitOf [(1, rec .lost)] [(bindEdit, 1)])).recheck 1 bindEdit = none
        ∧ (Picture.start (commitOf [(1, rec .lost)] [(bindEdit, 1)])).sourceLost bindEdit = true)
      ∧ barred.commitWaits .site ⟨0x02#8, []⟩ .immediate
      ∧ (Picture.start barred).walk 1 (barred.ws .site).edits = .ok (walked barred (barred.ws .site).edits)
      ∧ ¬ (walked barred (barred.ws .site).edits).tables.regionAccepted 0
      ∧ ∀ j < 0, (walked barred (barred.ws .site).edits).tables.regionAccepted j := by
  refine ⟨waits_commitOf _ _ rfl, ⟨rfl, rfl, by decide +kernel⟩,
    ⟨waits_commitOf _ _ rfl, by decide +kernel, by decide +kernel⟩,
    ⟨by decide, quiet_of ⟨rfl, rfl, rfl, rfl⟩ rfl, canonical_of (by decide +kernel) ⟨rfl, rfl, rfl, rfl, rfl, rfl⟩,
      rfl, rfl⟩, walk_of (by decide +kernel), ?_, fun _ h => absurd h (Nat.not_lt_zero _)⟩
  intro h
  have := (h ⟨1, 1, 0x100⟩ { rec .live with region := 3 } (by decide +kernel) (by decide +kernel)).1
  exact absurd this (by decide +kernel)

/-- A leg that takes all groups accepts the one record, of group 0. -/
theorem region_of {t : State} {y : Record} (hl : t.legs = [])
    (hr : t.records = [(1, y)]) (hy : y.region = 0) (hf : y.fallback = none) : ∀ k, t.regionAccepted k := by
  intro k b r hb hr'
  have hlk : t.leg (k / 16) = Leg.start (k / 16) := by unfold State.leg Table.look; rw [hl]; rfl
  have he : r = y := by
    simp only [State.record?, hr, Table.find?] at hr'
    split at hr'
    · exact (Option.some.inj hr').symm
    · cases hr'
  subst he
  refine ⟨by rw [hlk, hy]; exact (by decide : (BitVec.allOnes 16).getLsbD 0 = true), fun fb z hfb => ?_⟩
  rw [hf] at hfb; cases hfb

theorem apart_of {t : State} {x : Slot} (hs : t.slots = [(0, x)]) : ∀ j k, ¬ t.outputsClash j k := by
  rintro j k ⟨hjk, _, a, b, _, hb, _⟩
  rw [only_slot0 hs (by omega)] at hb
  cases hb

/-- A record with a rate no leg carries. -/
def heavy : State := commitOf [(1, { rec .live with peak := 30000 })] [(bindEdit, 0)]

def clashing : State := commitOf [(1, rec .live)] (twoBinds ⟨1, 1, 0x100⟩ ⟨1, 2, 0x107⟩)

theorem witness_CommitsFailAtTheirStages_laws :
    (heavy.commitWaits .site ⟨0x02#8, []⟩ .immediate
        ∧ (Picture.start heavy).walk 1 (heavy.ws .site).edits = .ok (walked heavy (heavy.ws .site).edits)
        ∧ (∀ k, (walked heavy (heavy.ws .site).edits).tables.regionAccepted k)
        ∧ ¬ (walked heavy (heavy.ws .site).edits).tables.loadFits 0)
      ∧ clashing.commitWaits .site ⟨0x02#8, []⟩ .immediate
      ∧ (Picture.start clashing).walk 1 (clashing.ws .site).edits
        = .ok (walked clashing (clashing.ws .site).edits)
      ∧ (walked clashing (clashing.ws .site).edits).tables.outputsClash 0 1
      ∧ (walked clashing (clashing.ws .site).edits).tables.loadFits 0
      ∧ (walked clashing (clashing.ws .site).edits).tables.regionAccepted 1 := by
  refine ⟨⟨waits_commitOf _ _ rfl, walk_of (by decide +kernel), ?_, ?_⟩, waits_commitOf _ _ rfl,
    walk_of (by decide +kernel), ⟨by decide, by decide, ⟨1, 1, 0x100⟩, ⟨1, 2, 0x107⟩, by decide +kernel⟩, ?_, ?_⟩
  · exact region_of (y := { rec .live with peak := 30000 }) (by decide +kernel) (by decide +kernel) rfl rfl
  · unfold State.loadFits; decide +kernel
  · unfold State.loadFits; decide +kernel
  · intro b x hb hx
    have h1 : b = ⟨1, 2, 0x107⟩ := by
      have : ((walked clashing (clashing.ws .site).edits).tables.slotAt 1).planned = some ⟨1, 2, 0x107⟩ := by
        decide +kernel
      exact Option.some.inj (hb.symm.trans this)
    subst h1
    have h2 : x = rec .live := by
      have : (walked clashing (clashing.ws .site).edits).tables.record? 1 = some (rec .live) := by decide +kernel
      exact Option.some.inj (hx.symm.trans this)
    subst h2
    exact ⟨by decide +kernel, fun fb y hfb => by cases hfb⟩

/-- A LIVE record whose fallback is itself, with slot 1 planned on another. -/
def ownFallback : State := commitOf [(1, { rec .live with fallback := some 1 })] []

def planned1 : Record := { rec .live with planned := 1 }

/-- A retirement of a record that slot 0 of F0 is planned on. -/
def usedRecord : State :=
  { commitOf [(1, planned1)] [(.retire 1, 0)] with slots := [(0, slotOf .steady (some 1) none none)] }

theorem noPlans {t : State} (hs : t.slots = []) (k : Nat) : (t.slotAt k).planned = none := by
  unfold State.slotAt Table.look
  rw [hs]
  rfl

theorem legsLawful_ownFallback : ownFallback.legsLawful := by
  have hp := noPlans (t := ownFallback) rfl
  refine ⟨fun k b x hb => ?_, fun f hf => ?_, ?_⟩
  · rw [hp k] at hb; cases hb
  · have hl : ownFallback.leg f = Leg.start f := rfl
    unfold State.loadFits State.slot
    simp only [hp, hl, Option.bind_none, Option.map_none, Option.getD_none]
    simp [Leg.start]
  · rintro j k ⟨_, _, a, b, ha, _⟩; rw [hp j] at ha; cases ha

theorem witness_CommitsFailAtTheirStages_records :
    (ownFallback.commitWaits .site ⟨0x02#8, []⟩ .immediate
        ∧ (Picture.start ownFallback).walk 1 (ownFallback.ws .site).edits = .ok (Picture.start ownFallback)
        ∧ (Picture.start ownFallback).tables.legsLawful
        ∧ (Picture.start ownFallback).fallbackWrong 1 ∧ ¬ (Picture.start ownFallback).fallbackWrong 0)
      ∧ usedRecord.commitWaits .site ⟨0x02#8, []⟩ .immediate
      ∧ (Picture.start usedRecord).walk 1 (usedRecord.ws .site).edits
        = .ok ((Picture.start usedRecord).applyEdit 1 (.retire 1))
      ∧ ((Picture.start usedRecord).applyEdit 1 (.retire 1)).retired = [] ++ (1, 1) :: []
      ∧ ((Picture.start usedRecord).applyEdit 1 (.retire 1)).stillUsed 1
      ∧ usedRecord.loadFits 0 ∧ (∀ k, usedRecord.regionAccepted k) ∧ (∀ j k, ¬ usedRecord.outputsClash j k)
      ∧ ∀ h, ¬ ((Picture.start usedRecord).applyEdit 1 (.retire 1)).fallbackWrong h := by
  refine ⟨⟨waits_commitOf _ _ rfl, rfl, legsLawful_ownFallback, ?_, ?_⟩, ?_, ?_, rfl, ?_, ?_, ?_, ?_, ?_⟩
  · exact ⟨⟨⟨_, rfl, Or.inl rfl⟩, fun n h => by cases h⟩, _, 1, rfl, rfl, Or.inr (Or.inl rfl)⟩
  · rintro ⟨⟨⟨x, hx, _⟩, _⟩, _⟩; cases hx
  · exact ⟨by decide, quiet_of ⟨rfl, rfl, rfl, rfl⟩ rfl,
      canonical_of (by decide +kernel) ⟨rfl, rfl, rfl, rfl, rfl, rfl⟩, rfl, rfl⟩
  · have := walk_of (s := usedRecord) (es := (usedRecord.ws .site).edits) (by decide +kernel)
    rw [this]; rfl
  · exact Or.inl ⟨0, ⟨1, 1, 0x100⟩, rfl, rfl⟩
  · unfold State.loadFits; decide +kernel
  · exact region_of (y := planned1) rfl rfl rfl rfl
  · exact apart_of rfl
  · rintro h ⟨_, x, fb, hx, hfb, _⟩
    simp only [Picture.applyEdit, State.paint, Picture.start, State.record?, usedRecord, commitOf, Table.find?] at hx
    split at hx
    · cases hx; cases hfb
    · cases hx

/-- Every entry but the last is taken: one FREE entry, and no room in the store. -/
def crowdedEntries : Table Entry :=
  (List.range 64).map fun e => (e, { Entry.start with state := .switching })

/-- SITE's DEFERRED batch of one bind is at its commit act. -/
def deferring (entries : Table Entry) (slots : Table Slot) (ro : Option ReturnOption) : State :=
  { base with
    records := [(1, rec .live)]
    entries := entries
    slots := slots
    siteWs := { openWs with
      mode := .deferred, trigger := some ⟨.sole, .cue 0 none .out, none, 1⟩, returnOpt := ro
      edits := [(.slot ⟨0, 0, some ⟨1, 1, 0x100⟩⟩, 0)], flight := some ⟨0x02#8, []⟩ } }

theorem waits_deferring (es : Table Entry) (ro : Option ReturnOption)
    (hs : (es.all fun c => c.2.state == .switching || c.2.state == .free) = true)
    (hc : canonicalTest (deferring es [] ro) = true) :
    (deferring es [] ro).commitWaits .site ⟨0x02#8, []⟩ .deferred := by
  refine ⟨by simp [deferring, base], quiet_of ⟨rfl, rfl, rfl, rfl⟩ ?_,
    canonical_of hc ⟨rfl, rfl, rfl, rfl, rfl, rfl⟩, rfl, rfl⟩
  refine List.all_eq_true.2 fun c hm => ?_
  have hst := List.all_eq_true.1 hs c hm
  have hn : ∀ m, (deferring es [] ro).timeDue c.1 m = false := by
    intro m
    have hx : ((deferring es [] ro).entry c.1).state = .switching
        ∨ ((deferring es [] ro).entry c.1).state = .free := by
      unfold State.entry Table.look
      cases hf : Table.find? (deferring es [] ro).entries c.1 with
      | none => exact Or.inr rfl
      | some x =>
        have := List.all_eq_true.1 hs _ (Table.find?_mem _ _ _ hf)
        simpa using this
    unfold State.timeDue Entry.listens
    dsimp only
    cases ht : ((deferring es [] ro).entry c.1).trigger with
    | none => rfl
    | some t => rcases hx with hx | hx <;> rw [hx] <;> rfl
  simp [hn]

theorem legsLawful_deferring (es : Table Entry) (ro : Option ReturnOption) :
    (walked (deferring es [] ro) ((deferring es [] ro).ws .site).edits).tables.legsLawful := by
  have hs : (walked (deferring es [] ro) ((deferring es [] ro).ws .site).edits).tables.slots
      = [(0, ⟨some ⟨1, 1, 0x100⟩, .empty, none, none, none, none⟩)] := rfl
  have hr : (walked (deferring es [] ro) ((deferring es [] ro).ws .site).edits).tables.records
      = [(1, rec .live)] := rfl
  have hl : (walked (deferring es [] ro) ((deferring es [] ro).ws .site).edits).tables.legs = [] := rfl
  generalize (walked (deferring es [] ro) ((deferring es [] ro).ws .site).edits).tables = t at hs hr hl
  refine ⟨region_of hl hr rfl rfl, fun f _ => ?_, apart_of hs⟩
  have hf : t.leg f = Leg.start f := by unfold State.leg Table.look; rw [hl]; rfl
  have hb : ∀ i < 16, i ≠ 0 ∨ f ≠ 0 → (t.slot f i).planned = none := fun i _ h =>
    only_slot0 hs (by unfold slotKey; omega)
  have h0 : (t.slot 0 0).planned = some ⟨1, 1, 0x100⟩ := by
    unfold State.slot State.slotAt Table.look; rw [hs]; rfl
  unfold State.loadFits
  rw [hf]
  have hk : ∀ i < 16, ((((t.slot f i).planned.bind fun b => t.record? b.handle).map (·.peak)).getD 0)
      = if i = 0 ∧ f = 0 then 8000 else 0 := by
    intro i hi
    by_cases h : i = 0 ∧ f = 0
    · obtain ⟨rfl, rfl⟩ := h
      rw [h0]
      simp [State.record?, hr, Table.find?, rec]
    · rw [hb i hi (by omega)]
      simp [h]
  rw [List.map_congr_left fun i hi => hk i (List.mem_range.1 hi)]
  by_cases h : f = 0
  · subst h; decide
  · simp [h, Leg.start]

theorem waits_crowded (n : Nat) (ro : Option ReturnOption) (h : n = 64 ∨ n = 63) :
    (deferring (crowdedEntries.take n) [] ro).commitWaits .site ⟨0x02#8, []⟩ .deferred := by
  rcases h with rfl | rfl
  · exact waits_deferring _ _ (by decide +kernel)
      (by have : crowdedEntries.take 64 = crowdedEntries := rfl
          simp only [canonicalTest, deferring, base, State.reset, this]
          decide +kernel)
  · exact waits_deferring _ _ (by decide +kernel)
      (by simp only [canonicalTest, deferring, base, State.reset]; decide +kernel)

/-- One entry holds the whole splice edit store. -/
def fullStore : Table Entry :=
  [(9, { Entry.start with state := .switching, edits := List.replicate 1024 ⟨1, 1, none⟩ })]

theorem witness_CommitsFailAtTheirStages_splices :
    ((deferring (crowdedEntries.take 63) [] (some ⟨true, none⟩)).commitWaits .site ⟨0x02#8, []⟩ .deferred
        ∧ ((List.range 64).filter fun e =>
          ((deferring (crowdedEntries.take 63) [] (some ⟨true, none⟩)).entry e).state = .free).length < 2
        ∧ (walked (deferring (crowdedEntries.take 63) [] (some ⟨true, none⟩))
          ((deferring (crowdedEntries.take 63) [] (some ⟨true, none⟩)).ws .site).edits).tables.legsLawful)
      ∧ ((deferring (crowdedEntries.take 64) [] none).commitWaits .site ⟨0x02#8, []⟩ .deferred
        ∧ ((List.range 64).filter fun e =>
          ((deferring (crowdedEntries.take 64) [] none).entry e).state = .free).length < 1)
      ∧ ((deferring fullStore [] none).commitWaits .site ⟨0x02#8, []⟩ .deferred
        ∧ (deferring fullStore [] none).freePlaces < 1
        ∧ ((deferring fullStore [] none).ws .site).trigger ≠ none) :=
  ⟨⟨waits_crowded 63 _ (Or.inr rfl), by decide +kernel, legsLawful_deferring _ _⟩,
    ⟨waits_crowded 64 _ (Or.inl rfl), by decide +kernel⟩,
    waits_deferring _ _ (by decide +kernel) (by decide +kernel), by decide +kernel, by decide⟩

/-! One commit of each edit that is applied -/

/-- SITE's batch has reserved record 2 and creates it, with record 1 as its fallback. -/
def created : CreateFields := { newRecord 2 with fallback := some 1, peak := 9000 }

def creating : State :=
  { commitOf [(1, rec .live), (2, { rec .reserved with key := ⟨0, 2⟩, fallback := some 1, peak := 9000 })]
      [(.create 2 created, 0)] with
    smap := [(0x200, ⟨2, 0, false, some 3⟩)] }

/-- Slot 0 of F0 is on the fallback of its lost record, slot 1 is SLATED, and the record's silence timer has
run 60 ms. -/
def amending (now : Option Nat) (edit : AmendFields) : State :=
  { commitOf [(1, { rec .lost with fallback := now, silence := some 0 }), (2, { rec .live with key := ⟨0, 2⟩ }),
      (3, { rec .live with key := ⟨0, 3⟩ })] [(.amend edit, 0)] with
    uptime := 5400
    slots := [(0, slotOf .substituted (some 2) none none),
      (1, ⟨some ⟨1, 2, 0x108⟩, .slated, none, none, none, none⟩)] }

def toThird : AmendFields := ⟨1, some 3, false, none, some 60, none, none, none⟩

/-- A RESTORING record's hold timer has run 60 ms, and an AMEND RECORD ends its hold at once. -/
def holding (edit : AmendFields) : State :=
  { commitOf [(1, { rec .restoring with hold := some 0, silence := some 5000 })] [(.amend edit, 0)] with uptime := 5400 }

def toShort : AmendFields := ⟨1, none, false, none, none, some 0, none, none⟩

/-- SITE's batch retires record 1, which is on air or is not. -/
def retiring (onAir : Nat) : State := commitOf [(1, { rec .live with onAir := onAir })] [(.retire 1, 0)]

theorem waits_of {s : State} (h : s.phase = .running ∧ s.siteWs.flight = some ⟨0x02#8, []⟩
      ∧ s.siteWs.mode = .immediate) (hq : s.ctabDue = [] ∧ s.idleDue = [] ∧ s.updates = [] ∧ s.reports = [])
    (he : s.entries = []) (hc : canonicalTest s = true)
    (h' : s.inputs = [] ∧ s.outs = [] ∧ s.counts = [] ∧ s.marks = [] ∧ s.pairs = [] ∧ s.attention = []) :
    s.commitWaits .site ⟨0x02#8, []⟩ .immediate :=
  ⟨by rw [h.1]; decide, quiet_of hq (by rw [he]; rfl), canonical_of hc h', h.2.1, h.2.2⟩

theorem witness_RecordEditsAreWritten :
    (creating.commitWaits .site ⟨0x02#8, []⟩ .immediate
        ∧ (creating.ws .site).edits = [(.create 2 created, 0)]
        ∧ legLaws (creating.paint (.create 2 created)) = none
        ∧ (Picture.start (creating.paint (.create 2 created))).fallbackFailure = none
        ∧ creating.record? 2 = some { rec .reserved with key := ⟨0, 2⟩, fallback := some 1, peak := 9000 }
        ∧ created.fallback = some 1 ∧ creating.record? 1 = some (rec .live))
      ∧ ((amending (some 2) toThird).commitWaits .site ⟨0x02#8, []⟩ .immediate
        ∧ legLaws ((amending (some 2) toThird).paint (.amend toThird)) = none
        ∧ (Picture.start ((amending (some 2) toThird).paint (.amend toThird))).fallbackFailure = none
        ∧ (amending (some 2) toThird).record? 1
          = some { rec .lost with fallback := some 2, silence := some 0 }
        ∧ toThird.apply { rec .lost with fallback := some 2, silence := some 0 }
          ≠ { rec .lost with fallback := some 2, silence := some 0 }
        ∧ toThird.setFallback = some 3 ∧ (amending (some 2) toThird).record? 3
          = some { rec .live with key := ⟨0, 3⟩ }
        ∧ 90 * 60 ≤ (amending (some 2) toThird).uptime - 0
        ∧ ((amending (some 2) toThird).slotAt 0).onAir = .substituted
        ∧ ((amending (some 2) toThird).slotAt 0).source = some 2
        ∧ ((amending (some 2) toThird).slotAt 1).onAir = .slated)
      ∧ ((holding toShort).commitWaits .site ⟨0x02#8, []⟩ .immediate
        ∧ legLaws ((holding toShort).paint (.amend toShort)) = none
        ∧ (Picture.start ((holding toShort).paint (.amend toShort))).fallbackFailure = none
        ∧ (holding toShort).record? 1 = some { rec .restoring with hold := some 0, silence := some 5000 }
        ∧ toShort.apply { rec .restoring with hold := some 0, silence := some 5000 }
          ≠ { rec .restoring with hold := some 0, silence := some 5000 }
        ∧ toShort.setFallback = none ∧ 90 * 0 ≤ (holding toShort).uptime - 0
        ∧ (holding toShort).uptime - 5000 < 90 * 200
        ∧ (after (.commitAct .site) (holding toShort)).ctabDue = [.holdEnd 1]
        ∧ (after (.commitAct .site) (amending (some 2) toThird)).ctabDue = [.expiry 1])
      ∧ ∀ n ∈ [0, 1], (retiring n).commitWaits .site ⟨0x02#8, []⟩ .immediate
        ∧ legLaws (retiring n) = none
        ∧ ((Picture.start (retiring n)).applyEdit 1 (.retire 1)).fallbackFailure = none
        ∧ ((Picture.start (retiring n)).applyEdit 1 (.retire 1)).retireFailure = none
        ∧ (retiring n).record? 1 = some { rec .live with onAir := n } := by
  refine ⟨⟨waits_of ⟨rfl, rfl, rfl⟩ ⟨rfl, rfl, rfl, rfl⟩ rfl (by decide +kernel) ⟨rfl, rfl, rfl, rfl, rfl, rfl⟩, rfl,
      by decide +kernel⟩,
    ⟨waits_of ⟨rfl, rfl, rfl⟩ ⟨rfl, rfl, rfl, rfl⟩ rfl (by decide +kernel) ⟨rfl, rfl, rfl, rfl, rfl, rfl⟩,
      by decide +kernel⟩,
    ⟨waits_of ⟨rfl, rfl, rfl⟩ ⟨rfl, rfl, rfl, rfl⟩ rfl (by decide +kernel) ⟨rfl, rfl, rfl, rfl, rfl, rfl⟩,
      by decide +kernel⟩, fun n hn => ?_⟩
  simp only [List.mem_cons, List.not_mem_nil, or_false] at hn
  rcases hn with rfl | rfl <;> exact ⟨waits_commitOf _ _ rfl, by decide +kernel⟩

/-- SITE's batch takes slot 0 of F0 off a RETIRING record that it has on air. -/
def unbinding : State :=
  { commitOf [(1, planned1), (2, { rec .retiring with key := ⟨0, 2⟩, onAir := 1 })]
      [(.slot ⟨0, 0, none⟩, 0)] with
    slots := [(0, slotOf .pending (some 2) (some 2) (some ⟨0, 1000⟩))] }

/-- SITE's batch takes F0 from one state to another. -/
def switchLeg (old new : LegState) : State :=
  { commitOf [] [(.setLeg ⟨0, some new, none, none, none, none, none, none⟩, 0)] with
    legs := Table.store (Leg.start 0) [] 0 { Leg.start 0 with state := old } }

theorem witness_SlotAndLegEditsAreWritten :
    (unbinding.commitWaits .site ⟨0x02#8, []⟩ .immediate
        ∧ legLaws (unbinding.paint (.slot ⟨0, 0, none⟩)) = none
        ∧ (Picture.start (unbinding.paint (.slot ⟨0, 0, none⟩))).fallbackFailure = none
        ∧ (unbinding.slot 0 0).planned = some ⟨1, 1, 0x100⟩ ∧ (unbinding.slot 0 0).reserved = none
        ∧ (unbinding.slot 0 0).source = some 2 ∧ (unbinding.record? 2).map (·.state) = some .retiring)
      ∧ ∀ old new : LegState, (switchLeg old new).commitWaits .site ⟨0x02#8, []⟩ .immediate
        ∧ legLaws ((switchLeg old new).paint (.setLeg ⟨0, some new, none, none, none, none, none, none⟩)) = none
        ∧ (Picture.start ((switchLeg old new).paint
          (.setLeg ⟨0, some new, none, none, none, none, none, none⟩))).fallbackFailure = none
        ∧ ((switchLeg old new).leg 0).state = old ∧ ∀ i < 16, ((switchLeg old new).slot 0 i).planned = none := by
  refine ⟨⟨waits_of ⟨rfl, rfl, rfl⟩ ⟨rfl, rfl, rfl, rfl⟩ rfl (by decide +kernel) ⟨rfl, rfl, rfl, rfl, rfl, rfl⟩,
    by decide +kernel⟩, fun old new => ?_⟩
  cases old <;> cases new <;>
    exact ⟨waits_of ⟨rfl, rfl, rfl⟩ ⟨rfl, rfl, rfl, rfl⟩ rfl (by decide +kernel) ⟨rfl, rfl, rfl, rfl, rfl, rfl⟩,
      by decide +kernel⟩

theorem witness_DeferredCommitsArmTheirEntries :
    ∀ ro ∈ [none, some (⟨true, none⟩ : ReturnOption), some ⟨false, some 47721⟩, some ⟨true, some 1⟩],
      (deferring [] [] ro).commitWaits .site ⟨0x02#8, []⟩ .deferred
      ∧ ((deferring [] [] ro).ws .site).trigger = some ⟨.sole, .cue 0 none .out, none, 1⟩
      ∧ ∃ p, (Picture.start (deferring [] [] ro)).walk 1 ((deferring [] [] ro).ws .site).edits = .ok p
        ∧ p.applied = [(⟨0, 0, some ⟨1, 1, 0x100⟩⟩ : SlotEdit)].map Edit.slot
        ∧ p.tables.legsLawful ∧ legLaws p.tables = none
        ∧ ((deferring [] [] ro).entry 0).state = .free ∧ ((deferring [] [] ro).entry 1).state = .free
        ∧ [0].Pairwise (· < ·)
        ∧ (∀ k, k ∈ [0] ↔ ∃ d ∈ [(⟨0, 0, some ⟨1, 1, 0x100⟩⟩ : SlotEdit)], slotKey d.feed d.slot = k)
        ∧ 1 + 1 ≤ (deferring [] [] ro).freePlaces := by
  intro ro hro
  refine ⟨waits_deferring _ _ rfl rfl, rfl, _, walk_of rfl, rfl, legsLawful_deferring _ _, ?_, rfl, rfl, by simp,
    by simp [slotKey, eq_comm], ?_⟩
  all_goals
    simp only [List.mem_cons, List.not_mem_nil, or_false] at hro
    rcases hro with rfl | rfl | rfl | rfl <;> decide +kernel

/-- A DEFERRED batch whose one edit is REDUNDANT and skipped. -/
theorem witness_DeferredCommitsArmTheirEntries_skipped :
    walks (deferring [] [(0, slotOf .steady (some 1) none none)] none)
        [(.slot ⟨0, 0, some ⟨1, 1, 0x100⟩⟩, 1)] = true
      ∧ (walked (deferring [] [(0, slotOf .steady (some 1) none none)] none)
        [(.slot ⟨0, 0, some ⟨1, 1, 0x100⟩⟩, 1)]).applied = [].map Edit.slot := by decide +kernel

/-! Splice entries -/

def entryIn (st : EntryState) (role : Role) (partner : Option Nat) : Entry :=
  { Entry.start with state := st, owner := some .site, role := some role, partner := partner }

def withEntries (es : Table Entry) : State := { base with entries := es }

theorem ready_armed : (withEntries [(0, entryIn .armed .original (some 1)), (1, entryIn .held .ret (some 0)),
    (2, entryIn .primed .original none), (3, entryIn .switching .original none)]).ready :=
  ready_of ⟨rfl, rfl, rfl, rfl⟩ rfl (by decide +kernel)

theorem witness_SplicesAreCancelled : ∃ s : State, s.ready ∧ 64 < 256
    ∧ (s.entry 63).owner ≠ some .site
    ∧ ((s.entry 3).owner = some .site ∧ (s.entry 3).state = .switching)
    ∧ ((s.entry 2).owner = some .site ∧ (s.entry 2).state = .primed ∧ (s.entry 2).partner = none)
    ∧ ((s.entry 0).state = .armed ∧ (s.entry 0).role = some .original ∧ (s.entry 0).partner = some 1
      ∧ (s.entry 1).state = .held)
    ∧ ((s.entry 1).owner = some .site ∧ (s.entry 1).state = .held) :=
  ⟨_, ready_armed, by decide +kernel⟩

def timed (mode : TriggerMode) (st : EntryState) (b : Option Matcher) (left : Nat) : Entry :=
  { entryIn st .original none with trigger := some ⟨mode, .time 0, b, 3⟩, remaining := some left }


/-- An entry whose trigger is all cues: A hears OUT cues of input 0, B the same. -/
def listener (mode : TriggerMode) (st : EntryState) (b : Bool) (left : Nat) : Entry :=
  { entryIn st .original none with
    trigger := some ⟨mode, .cue 0 none .out, if b then some (.cue 0 none .out) else none, 3⟩
    remaining := some left }

def cueOut : Cue := ⟨0, 5, .out, 10, 0, 0⟩

/-- The one entry hears the one cue that has been reached. -/
def cued (x : Entry) : State := { withEntries [(0, x)] with cues := [cueOut] }

theorem lone (x : Entry) (c : Cue) : ∀ d < 64, d ≠ 0 → ∀ m, ((cued x).entry d).hearsCue c m = false := by
  intro d _ hd m
  have : (cued x).entry d = Entry.start := by
    unfold State.entry Table.look
    simp only [cued, withEntries, Table.find?]
    rw [if_neg (Ne.symm hd)]
    rfl
  rw [this]
  rfl

theorem witness_OccurrencesAreCounted :
    63 < 64 ∧ base.phase ≠ .asserted ∧ base.timeDue 0 .a = false ∧ base.reports = []
      ∧ (∀ mode ∈ [TriggerMode.after, .countThen],
        (withEntries [(0, timed mode .armed (some (.time 0)) 1)]).timeDue 0 .b = true)
      ∧ (∀ mode ∈ [TriggerMode.sole, .either, .orDeadline],
        (withEntries [(0, timed mode .armed (some (.time 1)) 2)]).timeDue 0 .a = true)
      ∧ (∃ y, (timed .after .armed (some (.time 0)) 3).counts .b y)
      ∧ (∃ y, (timed .countThen .armed (some (.time 0)) 1).counts .b y)
      ∧ (∃ y, (timed .countThen .armed (some (.time 0)) 2).counts .b y)
      ∧ (∃ y, (timed .sole .armed none 2).counts .a y) ∧ (∃ y, (listener .after .primed true 2).counts .a y) := by
  refine ⟨by decide, by decide, by decide +kernel, rfl, by decide +kernel, by decide +kernel, ⟨_, _, rfl, Or.inl ⟨rfl, rfl, rfl, rfl⟩⟩,
    ⟨_, _, rfl, Or.inr (Or.inl ⟨1, rfl, rfl, rfl, rfl, rfl⟩)⟩, ⟨_, _, rfl, Or.inr (Or.inl ⟨2, rfl, rfl, rfl, rfl, rfl⟩)⟩,
    ⟨_, _, rfl, Or.inr (Or.inr ⟨0, rfl, Or.inl rfl, rfl⟩)⟩,
    ⟨_, _, rfl, Or.inr (Or.inr ⟨0, rfl, Or.inr (Or.inr (Or.inr ⟨Or.inl rfl, rfl⟩)), rfl⟩)⟩⟩

theorem witness_OccurrencesAreCounted_cues :
    ((cued (listener .sole .armed false 2)).spsIdle ∧ (cued (listener .sole .armed false 2)).cues = [] ++ cueOut :: []
        ∧ (cued (listener .sole .armed false 2)).clockReached cueOut.maturity = true
        ∧ (listener .sole .armed false 2).hearsCue cueOut .a = true
        ∧ (∀ n, n ≠ .a → (listener .sole .armed false 2).hearsCue cueOut n = false)
        ∧ ∃ y, (listener .sole .armed false 2).counts .a y)
      ∧ (cued (listener .either .armed true 3)).spsIdle
      ∧ (listener .either .armed true 3).hearsCue cueOut .a = true
      ∧ (listener .either .armed true 3).hearsCue cueOut .b = true
      ∧ (listener .either .armed true 3).remaining = some (0 + 3)
      ∧ ∀ d < 64, d ≠ 0 → ∀ m, ((cued (listener .either .armed true 3)).entry d).hearsCue cueOut m = false := by
  refine ⟨⟨idle_of rfl (by decide +kernel), rfl, by decide +kernel, by decide +kernel, ?_,
    ⟨_, _, rfl, Or.inr (Or.inr ⟨0, rfl, Or.inl rfl, rfl⟩)⟩⟩, idle_of rfl (by decide +kernel), by decide +kernel,
    by decide +kernel, rfl, lone _ _⟩
  intro n hn
  cases n
  · exact absurd rfl hn
  · rfl

/-! The laws of the tables, as tests that decide -/

theorem entry_cases (s : State) (e : Nat) : s.entry e = .start ∨ (e, s.entry e) ∈ s.entries := by
  unfold State.entry Table.look
  cases h : Table.find? s.entries e with
  | none => exact Or.inl rfl
  | some x => exact Or.inr (Table.find?_mem _ _ _ h)

theorem slot_cases (s : State) (k : Nat) : s.slotAt k = .start ∨ (k, s.slotAt k) ∈ s.slots := by
  unfold State.slotAt Table.look
  cases h : Table.find? s.slots k with
  | none => exact Or.inl rfl
  | some x => exact Or.inr (Table.find?_mem _ _ _ h)

def waitsTest (x : Entry) (n : Nat) : Bool :=
  (x.state == .armed || x.state == .primed) && x.role == some .original && x.partner == some n

theorem waitsTest_iff {x : Entry} {n : Nat} : waitsTest x n = true ↔ x.waitsWith n := by
  simp [waitsTest, Entry.waitsWith, and_assoc]

def countTest (s : State) : Bool :=
  s.records.all (fun (h, x) =>
      x.planned == s.slots.countP (fun c => c.2.planned.map (·.handle) == some h)
        && x.spliceRefs == ((s.entries.filter (·.2.holds)).map fun c => bindsOf c.2.edits h).sum)
    && s.slots.all (fun c => c.2.planned.all fun b => s.committed b.handle)
    && s.entries.all (fun c => !c.2.holds || c.2.edits.all fun d => d.binding.all fun b => s.committed b.handle)
    && s.entries.all (fun (e, x) => x.partner.all fun n =>
      !waitsTest x n || decide ((s.entry n).state = .held ∧ (s.entry n).role = some .ret
        ∧ (s.entry n).partner = some e))
    && s.entries.all (fun (n, x) => !(decide (x.state = .held)) || match x.partner with
      | some e => waitsTest (s.entry e) n
      | none => false)
    && decide (s.siteWs.mode = .immediate) && decide (s.netWs.mode = .immediate)

theorem countLaw_of {s : State} (h : countTest s = true) : s.countLaw := by
  simp only [countTest, Bool.and_eq_true, List.all_eq_true, decide_eq_true_eq] at h
  obtain ⟨⟨⟨⟨⟨⟨h1, h2⟩, h3⟩, h4⟩, h5⟩, h6⟩, h7⟩ := h
  refine ⟨fun g x hx => ?_, fun k b hb => ?_, fun e he d hd b hb => ?_, fun e n hw => ?_, fun n hn => ?_,
    fun r hr => ?_⟩
  · have := h1 _ (Table.find?_mem _ _ _ hx)
    simpa using this
  · rcases slot_cases s k with hk | hk
    · rw [hk] at hb; cases hb
    · have := h2 _ hk
      rw [hb] at this
      simpa using this
  · rcases entry_cases s e with hk | hk
    · rw [hk] at hd; cases hd
    · have := h3 _ hk
      simp only [he, Bool.not_true, Bool.false_or, List.all_eq_true] at this
      have := this d hd
      rw [hb] at this
      simpa using this
  · rcases entry_cases s e with hk | hk
    · rw [hk] at hw; exact absurd hw.2.2 (by simp [Entry.start])
    · have := h4 _ hk
      simp only [hw.2.2, Option.all_some, waitsTest_iff.2 hw, Bool.not_true, Bool.false_or,
        decide_eq_true_eq] at this
      exact this
  · rcases entry_cases s n with hk | hk
    · rw [hk] at hn; cases hn
    · have := h5 _ hk
      simp only [hn, decide_true, Bool.not_true, Bool.false_or] at this
      split at this
      · next e he => exact ⟨e, he, waitsTest_iff.1 this⟩
      · cases this
  · cases r
    · exact absurd (h6.symm.trans hr) (by decide)
    · exact absurd (h7.symm.trans hr) (by decide)

def inRangeTest (d : SlotEdit) : Bool :=
  decide (d.feed < 24 ∧ d.slot < 16) && d.binding.all fun b => decide (0x20 ≤ b.base ∧ b.base ≤ 0x1FF7)

theorem inRange_of {d : SlotEdit} (h : inRangeTest d = true) : d.inRange := by
  simp only [inRangeTest, Bool.and_eq_true, decide_eq_true_eq] at h
  refine ⟨h.1.1, h.1.2, fun b hb => ?_⟩
  have := h.2
  rw [hb] at this
  simpa using this

def rangeTest (s : State) : Bool :=
  s.siteWs.edits.all (fun c => match c.1 with | .slot d => inRangeTest d | _ => true)
    && s.netWs.edits.all (fun c => match c.1 with | .slot d => inRangeTest d | _ => true)
    && s.entries.all (fun c => c.2.edits.all inRangeTest)
    && s.slots.all (fun c => c.2.planned.all fun b => decide (0x20 ≤ b.base ∧ b.base ≤ 0x1FF7))

theorem rangeLaw_of {s : State} (h : rangeTest s = true) : s.rangeLaw := by
  simp only [rangeTest, Bool.and_eq_true, List.all_eq_true] at h
  obtain ⟨⟨⟨h1, h2⟩, h3⟩, h4⟩ := h
  refine ⟨fun r c hc d hd => ?_, fun e d hd => ?_, fun k b hb => ?_⟩
  · cases r
    · have := h1 c hc; rw [hd] at this; exact inRange_of this
    · have := h2 c hc; rw [hd] at this; exact inRange_of this
  · rcases entry_cases s e with hk | hk
    · rw [hk] at hd; cases hd
    · exact inRange_of (h3 _ hk d hd)
  · rcases slot_cases s k with hk | hk
    · rw [hk] at hb; cases hb
    · have := h4 _ hk
      rw [hb] at this
      simpa using this

theorem settled_of {s : State} (hc : s.canonical) (h : countTest s = true) (h' : rangeTest s = true)
    (hd : s.ctabDue = [] ∧ s.updates = []) : s.settled :=
  ⟨hc, countLaw_of h, rangeLaw_of h', hd.1, hd.2⟩

/-- The entry binds slot 0 of F0 to record `h`. -/
def binding (x : Entry) (h : Nat) : Entry :=
  { x with edits := [⟨0, 0, some ⟨h, 1, 0x100⟩⟩], tolerance := some 0 }

def executing (x : Entry) (st : RecState) : State :=
  { cued (binding x 1) with records := [(1, { rec st with spliceRefs := 1 })] }

theorem canonical_executing (x : Entry) (st : RecState) (h : binding x 1 ≠ Entry.start) :
    (executing x st).canonical :=
  canonical_of (by simp [canonicalTest, executing, cued, withEntries, base, State.reset, Table.rising, h])
    ⟨rfl, rfl, rfl, rfl, rfl, rfl⟩

def judgedOk (s : State) (x : Entry) : Bool :=
  match judgeEntry s x with
  | .ok _ => true
  | .error _ => false

/-- Entries 0 and 2 hear the cue; 0 arms its return 1 as it executes, which would hear the cue too. -/
def twoHear : State :=
  { executing (listener .sole .armed false 1) .live with
    records := [(1, { rec .live with spliceRefs := 1 })]
    entries := [(0, { binding (listener .sole .armed false 1) 1 with partner := some 1 }),
      (1, { listener .sole .held false 1 with role := some .ret, partner := some 0 }),
      (2, listener .either .armed true 3)] }

theorem witness_CompletedTriggersExecute :
    ((executing (timed .sole .armed none 1) .live).settled
        ∧ (executing (timed .sole .armed none 1) .live).timeDue 0 .a = true
        ∧ (timed .sole .armed none 1).completes .a
        ∧ (timed .orDeadline .armed (some (.time 0)) 3).completes .b
        ∧ judgedOk (executing (timed .sole .armed none 1) .live) (binding (timed .sole .armed none 1) 1) = true
        ∧ judgedOk (executing (timed .sole .armed none 1) .lost) (binding (timed .sole .armed none 1) 1) = false)
      ∧ ((executing (listener .sole .armed false 1) .live).spsIdle
        ∧ (executing (listener .sole .armed false 1) .live).settled
        ∧ (executing (listener .sole .armed false 1) .live).clockReached cueOut.maturity = true
        ∧ (listener .sole .armed false 1).hearsCue cueOut .a = true
        ∧ (listener .sole .armed false 1).completes .a
        ∧ judgedOk (executing (listener .sole .armed false 1) .live) (binding (listener .sole .armed false 1) 1) = true
        ∧ (listener .either .armed true 2).hearsCue cueOut .a = true
        ∧ (listener .either .armed true 2).hearsCue cueOut .b = true)
      ∧ (twoHear.settled ∧ ((List.range 64).filter fun e =>
          decide ((twoHear.entry e).state = .armed ∨ (twoHear.entry e).state = .primed)) = [0, 2]
        ∧ ((twoHear.offerCue cueOut).entry 1).state = .armed ∧ ((twoHear.offerCue cueOut).entry 2).remaining = some 1)
      ∧ ((withEntries [(63, timed .sole .armed none 1)]).timeDue 63 .a = true
        ∧ (∀ e m, base.timeDue e m = false) ∧ base.canonical) := by
  refine ⟨⟨settled_of (canonical_executing _ _ (by decide)) (by decide +kernel) (by decide +kernel) ⟨rfl, rfl⟩,
    by decide +kernel, ⟨_, rfl, Or.inr ⟨rfl, Or.inl rfl⟩⟩,
    ⟨_, rfl, Or.inl ⟨rfl, rfl⟩⟩, by decide +kernel, by decide +kernel⟩,
    ⟨idle_of rfl (by decide +kernel),
      settled_of (canonical_executing _ _ (by decide)) (by decide +kernel) (by decide +kernel) ⟨rfl, rfl⟩,
      by decide +kernel, by decide +kernel, ⟨_, rfl, Or.inr ⟨rfl, Or.inl rfl⟩⟩, by decide +kernel, by decide +kernel,
      by decide +kernel⟩,
    ⟨settled_of (canonical_of (by decide +kernel) ⟨rfl, rfl, rfl, rfl, rfl, rfl⟩) (by decide +kernel)
      (by decide +kernel) ⟨rfl, rfl⟩, by decide +kernel⟩,
    by decide +kernel, fun _ _ => rfl, canonical_base⟩

/-- The bind is applied, its slot goes to PENDING, and the entry follows it. -/
theorem test_execution_switches :
    ((after .cueMatured (executing (listener .sole .armed false 1) .live)).entry 0).tracked = [(0, 0)] := by
  decide +kernel
theorem test_execution_fails :
    ((after .cueMatured (executing (listener .sole .armed false 1) .lost)).entry 0).code = some .sourceLost := by
  decide +kernel
theorem test_report_ends_entry :
    (({ withEntries [(0, { entryIn .switching .original none with tracked := [(0, 0)] })] with
      reports := [⟨0, 0, [0]⟩] } : State).takeReports.entry 0).result = .done := by decide +kernel
/-- A report does not end an entry that began to track the slot after it. -/
theorem test_report_is_of_its_entries :
    (({ withEntries [(0, { entryIn .switching .original none with tracked := [(0, 0)] })] with
      reports := [⟨0, 0, [5]⟩] } : State).takeReports.entry 0).tracked = [(0, 0)] := by decide +kernel

/-- The clock is one short of the cue of entry 2 and of the TIME of entry 5. -/
def before : State :=
  { withEntries [(2, listener .sole .armed false 3), (5, { timed .sole .armed none 2 with
      trigger := some ⟨.sole, .time 10, none, 3⟩ })] with
    clock := 9, cues := [{ cueOut with maturity := 10 }] }

theorem witness_TicksMoveTheClockAndCuesMature_tests :
    before.phase ≠ .asserted ∧ before.spsIdle ∧ before.settled ∧ before.ready ∧ 10 < 2 ^ 33
      ∧ ((after .stationClockTick before).entry 2).remaining = some 2
      ∧ ((after .stationClockTick before).entry 5).remaining = some 1
      ∧ (after .stationClockTick before).cues = []
      ∧ ((after (.setStationTime (requestFrame 0x32#8 (packed [(5, 10)]))) before).entry 5).remaining = some 1 :=
  ⟨by decide, idle_of rfl (by decide +kernel),
    settled_of (canonical_of (by decide +kernel) ⟨rfl, rfl, rfl, rfl, rfl, rfl⟩) (by decide +kernel)
      (by decide +kernel) ⟨rfl, rfl⟩,
    ready_of ⟨rfl, rfl, rfl, rfl⟩ rfl (by decide +kernel), by decide +kernel⟩

theorem witness_TicksMoveTheClockAndCuesMature :
    base.phase ≠ .asserted ∧ base.spsIdle
      ∧ (∀ e m, ({ base with clock := base.clock + 1, uptime := base.uptime + 1 } : State).timeDue e m = false)
      ∧ (∀ c ∈ base.cues, base.clockReached c.maturity = false)
      ∧ ({ base with cues := [cueOut] } : State).cues = [] ++ cueOut :: []
      ∧ ({ base with cues := [cueOut] } : State).clockReached cueOut.maturity = true
      ∧ (∀ e < 64, ∀ m ∈ [MatcherName.a, .b], (base.entry e).hearsCue cueOut m = false) :=
  ⟨by decide, idle_of rfl rfl, fun _ _ => rfl, by simp [base, State.reset], rfl, by decide +kernel⟩

theorem witness_ArrivingCuesAreListed :
    base.spsIdle ∧ ({ cueOut with preRoll := 0 } : Cue).preRoll = 0
      ∧ cueOut.preRoll ≠ 0 ∧ base.cues.length < 32
      ∧ 32 ≤ ({ base with cues := List.replicate 32 cueOut } : State).cues.length :=
  ⟨idle_of rfl rfl, rfl, by decide, by decide, by decide⟩

theorem witness_FlagsAndPairsTakeReports :
    Table.find? base.attention AttKind.relayWaiting.bit = none
      ∧ Table.find? ({ base with attention := [(5, 1)] } : State).attention AttKind.relayWaiting.bit = some 1 := by
  decide +kernel

/-! The monitor -/

def silentAt (x : Record) (now : Nat) : State := { base with uptime := now, records := [(1, x)] }

theorem witness_TheMonitorFollowsItsSource :
    base.phase ≠ .asserted ∧ base.ctabDue = [] ∧ (silentAt { rec .live with silence := some 0 } 18000).record? 1
        = some { rec .live with silence := some 0 }
      ∧ 90 * (rec .live).lossWindow ≤ 18000 - 0 ∧ 17999 - 0 < 90 * (rec .live).lossWindow
      ∧ (silentAt { rec .retiring with silence := some 0 } 18000).record? 1
        = some { rec .retiring with silence := some 0 }
      ∧ ({ rec .retiring with silentFlag := true } : Record).silentFlag = true
      ∧ 90 * (rec .restoring).restoreHold ≤ 90000 - 0 ∧ 89999 - 0 < 90 * (rec .restoring).restoreHold
      ∧ (silentAt { rec .restoring with hold := some 0 } 90000).record? 1
        = some { rec .restoring with hold := some 0 }
      ∧ (silentAt { rec .lost with restoreHold := 0 } 0).record? 1 = some { rec .lost with restoreHold := 0 }
      ∧ (withRec .lost).record? 1 = some (rec .lost) ∧ (rec .lost).restoreHold ≠ 0 := by decide +kernel

/-- A hold's end that a commit made due comes before the expiry of another record. -/
def dueHold : State := { silentAt { rec .restoring with hold := some 0 } 90000 with ctabDue := [.holdEnd 1] }

theorem witness_TheMonitorFollowsItsSource_due :
    dueHold.phase ≠ .asserted ∧ dueHold.ctabDue = .holdEnd 1 :: [] ∧ (1 ≤ 1 ∧ 1 ≤ 1023)
      ∧ ((after (.lossWindowExpired 2) dueHold).record? 1).map (·.state) = some .live
      ∧ (after (.lossWindowExpired 2) dueHold).ctabDue = [] := by decide +kernel

theorem witness_OnAirUpdatesMoveTheCounts :
    base.phase ≠ .asserted ∧ base.ctabDue = [] ∧ base.updates = []
      ∧ ({ base with updates := [⟨some 1, none⟩], records := [(1, { rec .retiring with onAir := 1 })] } : State).record? 1
        = some { rec .retiring with onAir := 1 } := by decide +kernel

theorem canonical_slotted (st : RecState) (x : Slot) (hx : x ≠ Slot.start) : (slotted st x).canonical := by
  simp [State.canonical, slotted, withRec, base, State.reset, Table.canonical, Table.rising, hx]

def steady : Slot := slotOf .steady (some 1) none none

theorem witness_NoticesMoveTheSlots :
    (base.phase ≠ .asserted ∧ (slotted .lost steady).canonical ∧ base.notices = []
        ∧ (withRec .live).onAirFit 1 = true ∧ (slotted .lost steady).onAirFit 1 = false
        ∧ ({ slotted .lost steady with notices := [.loss 1] } : State).notices = .loss 1 :: [])
      ∧ (slotted .live (slotOf .slated none none none)).canonical
      ∧ (withRec .lost).usable 1 = false ∧ (withRec .live).usable 1 = true
      ∧ ({ base with notices := [.restoration 1] } : State).notices = .restoration 1 :: [] :=
  ⟨⟨by decide, canonical_slotted _ _ (by decide), rfl, by decide +kernel, by decide +kernel, rfl⟩,
    canonical_slotted _ _ (by decide), by decide +kernel, by decide +kernel, rfl⟩

/-- A tracked slot that leaves PENDING hands on all that a move does. -/
theorem test_tracked_slot_is_reported :
    let s : State := { slotted .lost (slotOf .pending (some 1) (some 1) (some ⟨0, 1000⟩)) with
      notices := [.loss 1]
      entries := [(5, { entryIn .switching .original none with tracked := [(0, 0), (1, 1)] })] }
    ((after .lossNotice s).entry 5).tracked = [(1, 1)]
      ∧ (after .lossNotice s).updates = [⟨some 1, none⟩] ∧ (after .lossNotice s).mark 0 0x107 = true
      ∧ moveEvent .switchedForced (s.slot 0 0) ((after .lossNotice s).slot 0 0) = some .slated := by decide +kernel

def waiting : Slot := slotOf .pending none none (some ⟨0, 1000⟩)

theorem ready_slotted (st : RecState) (x : Slot) : (slotted st x).ready :=
  ready_of ⟨rfl, rfl, rfl, rfl⟩ rfl rfl

theorem witness_DeadlinesAndResumesSwitch :
    (slotted .live waiting).slot 0 0 = waiting ∧ (slotted .live waiting).phase ≠ .asserted
      ∧ 90 * 1000 ≤ ({ slotted .live waiting with uptime := 90000 } : State).uptime - 0
      ∧ (slotted .live waiting).uptime - 0 < 90 * 1000
      ∧ (slotted .live (slotOf .substituted (some 2) none none)).ready
      ∧ (slotted .live (slotOf .substituted (some 2) none none)).usable 1 = true
      ∧ (slotted .live steady).ready ∧ ((slotted .live steady).slot 0 0).onAir ≠ .substituted
      ∧ (24 ≤ 24 ∨ 16 ≤ 15) :=
  ⟨by decide +kernel, by decide, by decide, by decide, ready_slotted _ _, by decide +kernel, ready_slotted _ _,
    by decide +kernel, by decide⟩

theorem witness_SwitchPointsAndBindingsMoveSlots :
    (withRec .lost).usable 1 = false ∧ (slotted .live waiting).canonical ∧ (slotted .live waiting).usable 1 = true
      ∧ 15 < 16 ∧ (base.slot 0 0).planned = none ∧ (base.slot 0 0).planned ≠ some ⟨1, 1, 0x100⟩ :=
  ⟨by decide +kernel, canonical_slotted _ _ (by decide), by decide +kernel, by decide, by decide +kernel,
    by decide +kernel⟩

/-! The output -/

def airing (o : LegOut) : State :=
  { base with legs := [(0, { Leg.start 0 with state := .onAir })], outs := [(0, o)] }

def buffered (preface : Bool) : Buffered := ⟨nullPacket, preface, .network, 184⟩

theorem witness_ANullPacketCountsNothing :
    0 < 24 ∧ (airing .start).phase ≠ .asserted ∧ ((airing .start).leg 0).state ≠ .idle
      ∧ ((airing .start).out 0).due = [] ∧ ((airing .start).out 0).buffer = [] := by decide +kernel

theorem witness_AnOpportunitySendsOnePacket :
    23 < 24 ∧ (base.leg 23).state = .idle ∧ ((airing .start).leg 0).state ≠ .idle
      ∧ ((airing { LegOut.start with due := [nullPacket] }).out 0).due = nullPacket :: []
      ∧ ((airing { LegOut.start with buffer := [buffered true] }).out 0).buffer = buffered true :: []
      ∧ (buffered true).preface = true ∧ (buffered false).preface = false := by decide +kernel

theorem witness_ADirectoryIsBuiltEachPeriod :
    23 < 24 ∧ ((airing { LegOut.start with timer := some ⟨0, 100⟩ }).out 0).timer = some ⟨0, 100⟩
      ∧ 90 * 100 ≤ 9000 - 0 ∧ 8999 - 0 < 90 * 100 := by decide +kernel

theorem witness_ADirectoryIsBuiltEachPeriod_content :
    (List.range 1).Pairwise (· < ·) ∧ ((slotted .live steady).slot 0 0).planned = some ⟨1, 1, 0x100⟩
      ∧ (List.range 1)[0]? = some 0 ∧ ((slotted .live steady).directoryOf 0).entries.length = 1 := by
  decide +kernel

/-- Slots 0 and 15 of F0 and slot 0 of F1 have record 1 on air. -/
def copied : State :=
  { withRec .live with
    slots := [(0, steady), (15, slotOf .pending (some 1) (some 1) (some ⟨0, 1000⟩)), (16, steady)] }

theorem witness_EverySlotOnAirGetsItsCopy :
    copied.canonical ∧ [0, 15, 16].Pairwise (· < ·)
      ∧ (∀ n, n ∈ [0, 15, 16] ↔ (copied.slotAt n).source = some 1 ∧ (copied.slotAt n).planned ≠ none)
      ∧ ((airing .start).leg 0).state = .onAir ∧ (base.leg 0).state = .idle
      ∧ (({ base with legs := [(0, { Leg.start 0 with state := .muted })] } : State).leg 0).state = .muted
      ∧ pktHasPayload (prefacePacket 0x100 0) = false
      ∧ (pktHasPayload nullPacket = true ∧ pktHasField nullPacket = false)
      ∧ (pktHasPayload (nullPacket.set 3 0x30#8) = true ∧ pktHasField (nullPacket.set 3 0x30#8) = true
        ∧ (byteAt ((nullPacket.set 3 0x30#8).set 4 183#8) 4).toNat ≤ 183) := by
  refine ⟨canonical_of (by decide +kernel) ⟨rfl, rfl, rfl, rfl, rfl, rfl⟩, by decide, fun n => ?_, by decide +kernel⟩
  by_cases h : n = 0 ∨ n = 15 ∨ n = 16
  · rcases h with rfl | rfl | rfl <;> decide +kernel
  · have hs : (copied.slotAt n).source = none := by
      unfold State.slotAt Table.look
      simp only [copied, Table.find?]
      rw [if_neg (by omega), if_neg (by omega), if_neg (by omega)]
      rfl
    rw [hs]
    simp only [List.mem_cons, List.not_mem_nil, or_false, h, false_iff]
    rintro ⟨h', _⟩
    cases h'

theorem witness_CopiesEnterTheBuffer :
    127 + 0 + 1 ≤ 128 ∧ 128 < 127 + 1 + 1 ∧ nullPacket.length = 188 ∧ 8191 < 8192 ∧ 15 < 16
      ∧ 1 ≤ pktFieldLength (prefacePacket 0x100 0)
      ∧ (prefacePacket 8191 15).take 6 = [0x47#8, 0x1F#8, 0xFF#8, 0x2F#8, 183#8, 0x80#8] := by decide +kernel

/-! The inputs -/

def searching : State := { base with inputs := [(0, { Input.start 0 with enabled := true })] }

/-- The search stands on one sync byte. -/
def standing : State := { base with inputs := [(0, { Input.start 0 with enabled := true, window := [0x47#8] })] }

theorem law_standing : (standing.input 0).law :=
  ⟨nofun, nofun, Or.inr ⟨⟨rfl, fun _ h => (by cases h), fun _ h => (by cases h)⟩, by decide⟩, nofun⟩

def threeSyncs : List Byte :=
  (0x47#8 :: List.replicate 187 0) ++ (0x47#8 :: List.replicate 187 0) ++ [0x47#8]

/-- The byte at the third position is not a sync byte, and a byte between the second and the third is. -/
def twoSyncs : List Byte := (threeSyncs.set 376 0).set 300 0x47#8

theorem witness_InputsFindAndLoseSync :
    7 < 8 ∧ (0#8 :: nullPacket.tail).length = 188 ∧ (0#8 :: nullPacket.tail).head? ≠ some 0x47#8
      ∧ (base.input 7).enabled = false ∧ (searching.input 0).enabled = true ∧ (searching.input 0).sync = .search
      ∧ ((locked.input 0).enabled = true ∧ (locked.input 0).sync = .locked ∧ (locked.input 0).miss = false)
      ∧ (({ base with inputs := [(0, { locked.input 0 with miss := true })] } : State).input 0).miss = true
      ∧ (standing.input 0).enabled = true ∧ (standing.input 0).sync = .search
      ∧ (standing.input 0).window ++ threeSyncs.tail = threeSyncs ∧ threeSyncs.length = 377
      ∧ (threeSyncs[0]? = some 0x47#8 ∧ threeSyncs[188]? = some 0x47#8 ∧ threeSyncs[376]? = some 0x47#8)
      ∧ (twoSyncs.length = 377 ∧ ∀ k < 377, twoSyncs[k + 376]? ≠ some 0x47#8) := by decide +kernel

theorem witness_InputsFindAndLoseSync_law : (searching.input 0).law ∧ (standing.input 0).law :=
  ⟨⟨nofun, fun _ => rfl, Or.inl rfl, nofun⟩, law_standing⟩

/-- The candidate is given up at its third position, and with it the one at the second, which has the same byte at
its own second position: the search rests on the one between. -/
theorem test_third_position_gives_up :
    (after (.syncCandidateGivenUp 0 twoSyncs) searching).input 0
      = { searching.input 0 with window := twoSyncs.drop 300 } := by decide +kernel

def errored (p : List Byte) : List Byte := p.set 1 0x80#8

theorem witness_PacketsAreSorted :
    nullPacket.tail.length = 187 ∧ 0x47#8 :: nullPacket.tail = nullPacket ∧ (base.input 0).enabled = false
      ∧ ((locked.input 0).enabled = true ∧ (locked.input 0).sync = .locked)
      ∧ pktError (errored (packet 0x100 0 [])) = true
      ∧ (pktError nullPacket = false ∧ pktPid nullPacket = 0x1FFF)
      ∧ (pktError (packet 0x100 0 []) = false ∧ pktPid (packet 0x100 0 []) ≠ 0x1FFF)
      ∧ (locked.input 0).cuePid ≠ some 0x100 ∧ (locked.input 0).commandPid ≠ 0x100
      ∧ Table.find? locked.smap (pidKey 0 0x100) = none := by decide +kernel

def carrying : State :=
  { locked with records := [(1, rec .live)], smap := [(0x100, ⟨1, 0, true, some 3⟩)] }

theorem witness_MatchedPacketsReachTheSlots :
    carrying.phase ≠ .asserted ∧ carrying.ctabDue = [] ∧ (packet 0x100 0 []).tail.length = 187
      ∧ 0x47#8 :: (packet 0x100 0 []).tail = packet 0x100 0 []
      ∧ (carrying.input 0).enabled = true ∧ (carrying.input 0).sync = .locked
      ∧ pktError (packet 0x100 0 []) = false ∧ pktPid (packet 0x100 0 []) = 0x100
      ∧ (carrying.input 0).cuePid ≠ some 0x100 ∧ (carrying.input 0).commandPid ≠ 0x100
      ∧ Table.find? carrying.smap (pidKey 0 0x100) = some ⟨1, 0, true, some 3⟩
      ∧ carrying.record? 1 = some (rec .live)
      ∧ ((after (.packetReceived 0 0x47#8 (packet 0x100 0 []).tail) carrying).record? 1).map (·.hit) = some true
      ∧ ((after (.packetReceived 0 0x47#8 (packet 0x100 0 []).tail) carrying).input 0).counters.continuity = 1 := by
  decide +kernel

/-- A packet of component 0 goes through the monitor and completes an armed probe. -/
theorem test_packet_completes_probe :
    let s := { carrying with records := [(1, { rec .lost with armed := true })] }
    (after (.packetReceived 0 0x47#8 (packet 0x100 7 []).tail) s).record? 1
      = some { rec .lost with
        state := .restoring, hit := true, silence := some 0, hold := some 0, probe := some ⟨0, 0, 7, false, true⟩ } := by
  decide +kernel

/-- A command packet with a body of one byte. -/
def commandPacket (body : Byte) : List Byte :=
  let core := bytesOf 2 9 ++ bytesOf 2 1 ++ [body]
  packet 0x1FF0 0 (0xC6#8 :: core ++ bytesOf 2 (crc16 core).toNat)

/-- An OUT cue with id 5 and no pre-roll. -/
def cueMessage : List Byte := packed [(1, 0xC1), (1, 0), (4, 5), (4, 0), (2, 1)]

def cuePacket5 : List Byte := packet 0x40 0 (cueMessage ++ bytesOf 2 (crc16 cueMessage).toNat)

theorem witness_CueAndCommandPacketsAreTaken :
    ((locked.input 0).bearing = true ∧ (locked.input 0).commandPid = pktPid (packet 0x1FF0 0 [])
        ∧ (locked.input 0).cuePid ≠ some 0x1FF0
        ∧ pktHasPayload (prefacePacket 0x1FF0 0) = false ∧ pktPid (prefacePacket 0x1FF0 0) = 0x1FF0
        ∧ pktHasPayload (packet 0x1FF0 0 []) = true ∧ commandOf 0 (packet 0x1FF0 0 []) = none
        ∧ commandOf 0 (commandPacket 0x49#8) = some ⟨9, 0, [0x49#8]⟩
        ∧ locked.netQueue.length < 8
        ∧ 8 ≤ ({ locked with netQueue := List.replicate 8 ⟨9, 0, [0x49#8]⟩ } : State).netQueue.length)
      ∧ (({ base with inputs := [(0, { locked.input 0 with cuePid := some 0x40 })] } : State).input 0).cuePid
        = some (pktPid cuePacket5)
      ∧ pktHasPayload cuePacket5 = true ∧ cueOf 0 7 cuePacket5 = some ⟨0, 5, .out, 0, 7, 7⟩
      ∧ cueOf 0 7 (packet 0x40 0 cueMessage) = none
      ∧ (pktPayloadStart cuePacket5 = true ∧ pktPayload cuePacket5
        = cueMessage ++ bytesOf 2 (crc16 cueMessage).toNat ++ List.replicate 170 0xFF#8)
      ∧ (pktPayloadStart (commandPacket 0x49#8) = true ∧ pktPayload (commandPacket 0x49#8)
        = [0xC6#8] ++ (packed [(2, 9), (2, 1)] ++ [0x49#8])
          ++ bytesOf 2 (crc16 (packed [(2, 9), (2, 1)] ++ [0x49#8])).toNat ++ List.replicate 176 0xFF#8)
      ∧ (∀ len ∈ [0, 178], pktPayload (packet 0x1FF0 0 ([0xC6#8] ++ packed [(2, 9), (2, len)]))
        = [0xC6#8] ++ packed [(2, 9), (2, len)] ++ List.replicate 179 0xFF#8)
      ∧ pktPayloadStart nullPacket = false ∧ (pktPayload nullPacket).head? ≠ some 0xC1#8
      ∧ (pktPayload (prefacePacket 0x40 0)).length < 8 := by
  decide +kernel

/-! The network command queue -/

/-- The command at the head of the queue is of this kind, with these parameters. -/
def headed (s : State) (kind : Byte) (p : List Byte) : State := { s with netQueue := [⟨9, 0, kind :: p⟩] }

theorem networkReady_headed {s : State} (h : s.phase = .running ∧ s.idleDue = [] ∧ s.netFlight = none
    ∧ s.mailbox.unread = false) (kind : Byte) (p : List Byte) :
    (headed s kind p).networkReady ⟨9, 0, kind :: p⟩ [] kind p :=
  ⟨by simp [headed, h.1], h.2.1, rfl, h.2.2.1, fun _ => h.2.2.2, rfl⟩

theorem witness_TheQueueHeadIsAnswered :
    (base.phase ≠ .asserted ∧ base.netQueue = []
        ∧ ({ base with netFlight := some ⟨9, 0, 0x02#8⟩ } : State).netFlight ≠ none
        ∧ (base.relayOn = true ∧ ({ base with mailbox := ⟨none, true⟩ } : State).mailbox.unread = true))
      ∧ (headed base 0x99#8 []).networkReady ⟨9, 0, [0x99#8]⟩ [] 0x99#8 [] ∧ (0x99#8).toNat ∉ catalogue
      ∧ (headed base 0x22#8 []).networkReady ⟨9, 0, [0x22#8]⟩ [] 0x22#8 []
      ∧ ((0x22#8).toNat = 0x22) ∧ ((0x37#8).toNat ≤ 0x37) ∧ ((0x48#8).toNat ≤ 0x48)
      ∧ (headed base 0x49#8 (packed [(2, 1023), (3, 1)])).networkReady
        ⟨9, 0, 0x49#8 :: packed [(2, 1023), (3, 1)]⟩ [] 0x49#8 (packed [(2, 1023), (3, 1)])
      ∧ (1 ≤ 1023 ∧ 1023 ≤ 1023)
      ∧ (headed base 0x49#8 []).networkReady ⟨9, 0, [0x49#8]⟩ [] 0x49#8 [] ∧ ([] : List Byte).length ≠ 5
      ∧ (headed base 0x49#8 (packed [(2, 1024), (3, 1)])).networkReady
        ⟨9, 0, 0x49#8 :: packed [(2, 1024), (3, 1)]⟩ [] 0x49#8 (packed [(2, 1024), (3, 1)]) :=
  ⟨by decide +kernel, networkReady_headed ⟨rfl, rfl, rfl, rfl⟩ _ _, by decide +kernel,
    networkReady_headed ⟨rfl, rfl, rfl, rfl⟩ _ _, by decide, by decide, by decide,
    networkReady_headed ⟨rfl, rfl, rfl, rfl⟩ _ _, by decide, networkReady_headed ⟨rfl, rfl, rfl, rfl⟩ _ _, by decide,
    networkReady_headed ⟨rfl, rfl, rfl, rfl⟩ _ _⟩

/-- NETWORK has a batch open that holds F0, on its own record. -/
def netOpened (depth : Nat) : State :=
  { base with
    records := [(1, { rec .live with owner := .network })]
    netWs := { openWs with depth := depth, levels := List.replicate depth ⟨true, true, 0⟩ } }

theorem netReady (depth : Nat) (kind : Byte) (p : List Byte) :
    (headed (netOpened depth) kind p).networkReady ⟨9, 0, kind :: p⟩ [] kind p :=
  networkReady_headed ⟨rfl, rfl, rfl, rfl⟩ _ _

/-- F0 is in the SHARED zone. -/
def shared : State := { base with legs := [(0, { Leg.start 0 with zone := .shared })] }

theorem witness_NetworkBatchesRunAsSites :
    ((headed shared 0x01#8 immediateOpen).networkReady ⟨9, 0, 0x01#8 :: immediateOpen⟩ [] 0x01#8 immediateOpen
        ∧ shared.ctabDue = [] ∧ (headed shared 0x01#8 immediateOpen).canonical
        ∧ ((shared.begun ⟨9, 0, []⟩ [] 0x01#8).netWs).depth = 0
        ∧ parseOpen immediateOpen = some ⟨some ⟨true, true, 0⟩, some ⟨1, .immediate, none, none⟩⟩
        ∧ ((shared.leg 0).zone ≠ .site ∧ (shared.leg 0).claim = none) ∧ (base.leg 0).zone = .site
        ∧ (({ shared with legs := [(0, { Leg.start 0 with zone := .shared, claim := some .site })] } : State).leg
          0).claim ≠ none)
      ∧ ((headed (netOpened 1) 0x02#8 []).networkReady ⟨9, 0, [0x02#8]⟩ [] 0x02#8 []
        ∧ (((netOpened 1).begun ⟨9, 0, []⟩ [] 0x02#8).netWs).depth = 1
        ∧ 2 ≤ (((netOpened 2).begun ⟨9, 0, []⟩ [] 0x02#8).netWs).depth
        ∧ (headed (netOpened 1) 0x02#8 [0]).networkReady ⟨9, 0, [0x02#8, 0]⟩ [] 0x02#8 [0]
        ∧ (headed (netOpened 1) 0x03#8 []).networkReady ⟨9, 0, [0x03#8]⟩ [] 0x03#8 [])
      ∧ ((headed (netOpened 3) 0x01#8 immediateOpen).networkReady ⟨9, 0, 0x01#8 :: immediateOpen⟩ [] 0x01#8
          immediateOpen
        ∧ (headed (netOpened 4) 0x01#8 []).networkReady ⟨9, 0, [0x01#8]⟩ [] 0x01#8 []
        ∧ (((netOpened 3).begun ⟨9, 0, []⟩ [] 0x01#8).netWs).depth = 3
        ∧ (((netOpened 4).begun ⟨9, 0, []⟩ [] 0x01#8).netWs).depth = 4 ∧ parseOpen [] = none)
      ∧ ((headed (netOpened 1) 0x03#8 [32#8]).networkReady ⟨9, 0, [0x03#8, 32#8]⟩ [] 0x03#8 [32#8]
        ∧ packed [(1, 32)] = [32#8] ∧ 31 < 32 ∧ 32 < 256)
      ∧ ((headed (netOpened 1) 0x12#8 (packed [(2, 1)])).networkReady ⟨9, 0, 0x12#8 :: packed [(2, 1)]⟩ [] 0x12#8
          (packed [(2, 1)])
        ∧ (headed (netOpened 1) 0x12#8 (packed [(2, 1)])).canonical
        ∧ parseEdit 0x12 [] = none ∧ parseEdit 0x12 (packed [(2, 1)]) = some (.retire 1))
      ∧ ((netOpened 1).joins ((netOpened 1).setWs .network { (netOpened 1).netWs with edits := [(.retire 1, 0)] })
          .network false (.retire 1) 0
        ∧ ({ netOpened 1 with records := [(1, rec .live)] } : State).failsArrival .network false (.retire 1) .notOwner
          ⟨some 1, none, none, none⟩
        ∧ (netOpened 1).mayArrive .network false (.create 0 (newRecord 2)) ∧ (netOpened 1).lowestIs 2)
      ∧ ((headed shared 0x04#8 applied2).networkReady ⟨9, 0, 0x04#8 :: applied2⟩ [] 0x04#8 applied2
        ∧ parseApply applied2 = some [⟨some 0, some (.slot ⟨0, 3, none⟩)⟩, ⟨none, some (.retire 1)⟩]) :=
  ⟨⟨networkReady_headed ⟨rfl, rfl, rfl, rfl⟩ _ _, rfl,
      canonical_of (by decide +kernel) ⟨rfl, rfl, rfl, rfl, rfl, rfl⟩, rfl, parse_immediateOpen, by decide +kernel⟩,
    ⟨netReady _ _ _, rfl, by decide, netReady _ _ _, netReady _ _ _⟩,
    ⟨netReady _ _ _, netReady _ _ _, rfl, rfl, by decide⟩, ⟨netReady _ _ _, by decide +kernel⟩,
    ⟨netReady _ _ _, canonical_of (by decide +kernel) ⟨rfl, rfl, rfl, rfl, rfl, rfl⟩, by decide, by decide +kernel⟩,
    ⟨⟨mayArrive_of rfl rfl (by decide), Or.inl ⟨nofun, rfl, 0, ⟨by decide, Or.inl rfl⟩, rfl⟩⟩,
      Or.inr (Or.inr (Or.inl ⟨allows_of rfl, Or.inr (Or.inl ⟨fun g hg => by
          cases List.mem_singleton.1 hg; exact names_of rfl,
        Or.inr ⟨nofun, Or.inl ⟨1, _, rfl, rfl, nofun, rfl, rfl⟩⟩⟩)⟩)),
      mayArrive_of rfl rfl (by decide), by decide, by decide, by decide, fun g h1 h2 => by
        obtain rfl : g = 1 := by omega
        nofun⟩,
    networkReady_headed ⟨rfl, rfl, rfl, rfl⟩ _ _, parse_applied2⟩

/-- NETWORK's entry 5 waits with its return, entry 6. -/
def paired : State :=
  withEntries [(5, { entryIn .armed .original (some 6) with owner := some .network }),
    (6, { entryIn .held .ret (some 5) with owner := some .network })]

theorem witness_NetworkCancelsAndResumesItsOwn :
    ((headed (withEntries [(63, { entryIn .armed .original none with owner := some .network }),
          (5, { entryIn .switching .original none with owner := some .network })]) 0x20#8 [63#8]).networkReady
        ⟨9, 0, [0x20#8, 63#8]⟩ [] 0x20#8 [63#8]
        ∧ (withEntries [(63, { entryIn .armed .original none with owner := some .network })]).spsIdle
        ∧ base.ctabDue = []
        ∧ packed [(1, 63)] = [63#8] ∧ (base.entry 63).owner ≠ some .network)
      ∧ ((headed paired 0x20#8 [5#8]).networkReady ⟨9, 0, [0x20#8, 5#8]⟩ [] 0x20#8 [5#8] ∧ paired.spsIdle
        ∧ paired.ctabDue = [] ∧ (paired.entry 5).owner = some .network ∧ (paired.entry 5).state = .armed
        ∧ (paired.entry 5).role = some .original ∧ (paired.entry 5).partner = some 6
        ∧ (paired.entry 6).owner = some .network ∧ (paired.entry 6).state = .held)
      ∧ (64 < 256 ∧ packed [(1, 64)] = [64#8] ∧ packed [(1, 24), (1, 0)] = [24#8, 0#8]
        ∧ packed [(1, 0), (1, 16)] = [0#8, 16#8])
      ∧ (headed (slotted .live (slotOf .substituted (some 2) none none)) 0x21#8 [0#8, 0#8]).networkReady
        ⟨9, 0, [0x21#8, 0#8, 0#8]⟩ [] 0x21#8 [0#8, 0#8]
      ∧ (base.leg 0).zone = .site ∧ (shared.leg 0).zone ≠ .site
      ∧ (slotted .live (slotOf .substituted (some 2) none none)).usable 1 = true
      ∧ ((slotted .live steady).slot 0 0).onAir ≠ .substituted :=
  ⟨⟨networkReady_headed ⟨rfl, rfl, rfl, rfl⟩ _ _, idle_of rfl (by decide +kernel), rfl, by decide +kernel⟩,
    ⟨networkReady_headed ⟨rfl, rfl, rfl, rfl⟩ _ _, idle_of rfl (by decide +kernel), rfl, by decide +kernel⟩,
    by decide, networkReady_headed ⟨rfl, rfl, rfl, rfl⟩ _ _, by decide +kernel⟩

/-! Laws -/

theorem witness_EveryStepKeepsTheAttentionLaw :
    State.reset.attnLaw ∧ ∃ t, step State.reset = .next t := ⟨rfl, _, rfl⟩

/-- Record 1 is planned in slot 0 of F0, bound by a waiting splice entry, and mapped; its fallback 2, on air in
its place, is too. -/
def whole : State :=
  { base with
    pending := [.stationClockTick]
    records := [(1, { rec .lost with fallback := some 2, planned := 1, spliceRefs := 1 }),
      (2, { rec .live with key := ⟨1, 1⟩, fallbackRefs := 1, onAir := 1 })]
    smap := [(0x100, ⟨1, 0, true, none⟩), (8192 + 0x100, ⟨2, 0, true, none⟩)]
    slots := [(0, slotOf .substituted (some 2) none none)]
    entries := [(0, { entryIn .armed .original (some 1) with edits := [⟨0, 1, some ⟨1, 2, 0x108⟩⟩] }),
      (1, { entryIn .held .ret (some 0) with edits := [⟨0, 1, none⟩] })] }

theorem whole_record {h : Nat} {x : Record} (hx : whole.record? h = some x) :
    (h = 1 ∧ x = { rec .lost with fallback := some 2, planned := 1, spliceRefs := 1 })
      ∨ (h = 2 ∧ x = { rec .live with key := ⟨1, 1⟩, fallbackRefs := 1, onAir := 1 }) := by
  simp only [State.record?, whole, Table.find?] at hx
  split at hx
  · next e => exact Or.inl ⟨e.symm, (Option.some.inj hx).symm⟩
  · split at hx
    · next e => exact Or.inr ⟨e.symm, (Option.some.inj hx).symm⟩
    · cases hx

theorem whole_countLaw : whole.countLaw := countLaw_of (by decide +kernel)

theorem whole_bounded : whole.bounded := by
  refine ⟨⟨by decide, by decide, Or.inl rfl⟩, ⟨by decide, by decide, Or.inl rfl⟩, by decide, by decide,
    fun _ => Nat.zero_le _, by decide, by decide, fun e he => ?_⟩
  rcases entry_cases whole e with h | h
  · rw [h]; rfl
  · have hs : ∀ c ∈ whole.entries, c.2.state ≠ .free := by decide +kernel
    exact absurd he (hs _ h)

theorem whole_mapLaw : whole.mapLaw := by
  refine ⟨?_, ?_⟩
  · intro k m hk
    simp only [whole, Table.find?] at hk
    split at hk
    · next e => cases hk; exact ⟨_, _, rfl, rfl, e.symm, by decide⟩
    · split at hk
      · next e => cases hk; exact ⟨_, _, rfl, rfl, e.symm, by decide⟩
      · cases hk
  · intro h x hx k c hc
    rcases whole_record hx with ⟨rfl, rfl⟩ | ⟨rfl, rfl⟩
    · cases k with
      | zero => cases hc; exact ⟨⟨1, 0, true, none⟩, by decide +kernel⟩
      | succ k => cases hc
    · cases k with
      | zero => cases hc; exact ⟨⟨2, 0, true, none⟩, by decide +kernel⟩
      | succ k => cases hc

theorem whole_canonical : whole.canonical := canonical_of (by decide +kernel) ⟨rfl, rfl, rfl, rfl, rfl, rfl⟩

theorem step_tick {s : State} {rest : List Instr} (h : s.pending = .stationClockTick :: rest) :
    ∃ t, step s = .next t := by
  unfold step
  rw [h]
  exact ⟨_, rfl⟩

theorem whole_steps : ∃ t, step whole = .next t := step_tick rfl

theorem witness_EveryStepKeepsTheSlotLaw :
    whole.canonical ∧ whole.countLaw ∧ whole.slotLaw ∧ whole.fallbackLaw ∧ whole.bindsApart
      ∧ ∃ t, step whole = .next t := by
  refine ⟨whole_canonical, whole_countLaw, fun k => ?_, fun k b h1 h2 => ?_, ?_, whole_steps⟩
  · rcases slot_cases whole k with h | h
    · rw [h]; exact Slot.law_start
    · have hs : whole.slots = [(0, slotOf .substituted (some 2) none none)] := rfl
      rw [hs] at h
      rw [(Prod.mk.inj (List.mem_singleton.1 h)).2]
      exact ⟨rfl, rfl, rfl, rfl⟩
  · rcases slot_cases whole k with h | h
    · rw [h] at h1; cases h1
    · have hs : whole.slots = [(0, slotOf .substituted (some 2) none none)] := rfl
      rw [hs] at h
      rw [(Prod.mk.inj (List.mem_singleton.1 h)).2] at h2 ⊢
      cases h2
      decide +kernel
  · intro r rest h; cases h

theorem witness_EveryStepKeepsTheTables :
    whole.canonical ∧ whole.bounded ∧ whole.mapLaw ∧ whole.inputLaw ∧ whole.keysDistinct
      ∧ ∃ t, step whole = .next t := by
  refine ⟨whole_canonical, whole_bounded, whole_mapLaw, Input.law_start, ?_, whole_steps⟩
  intro g h x y hx hy hk
  rcases whole_record hx with ⟨rfl, rfl⟩ | ⟨rfl, rfl⟩ <;> rcases whole_record hy with ⟨rfl, rfl⟩ | ⟨rfl, rfl⟩ <;>
    first | rfl | (revert hk; decide)

theorem witness_EveryStepKeepsThePlannedCounts :
    whole.canonical ∧ whole.countLaw ∧ ∃ t, step whole = .next t :=
  ⟨whole_canonical, whole_countLaw, whole_steps⟩

/-- The fallback has come on air with the update to follow, from the source that the slot had. -/
def updating : State :=
  { whole with
    records := [(1, { rec .lost with fallback := some 2, planned := 1, spliceRefs := 1, onAir := 1 }),
      (2, { rec .live with key := ⟨1, 1⟩, fallbackRefs := 1 })]
    updates := [⟨some 1, some 2⟩] }

theorem updating_record {h : Nat} {x : Record} (hx : updating.record? h = some x) :
    (h = 1 ∧ x = { rec .lost with fallback := some 2, planned := 1, spliceRefs := 1, onAir := 1 })
      ∨ (h = 2 ∧ x = { rec .live with key := ⟨1, 1⟩, fallbackRefs := 1 }) := by
  simp only [State.record?, updating, Table.find?] at hx
  split at hx
  · next e => exact Or.inl ⟨e.symm, (Option.some.inj hx).symm⟩
  · split at hx
    · next e => exact Or.inr ⟨e.symm, (Option.some.inj hx).symm⟩
    · cases hx

theorem updating_onAirLaw : updating.onAirLaw := by
  refine ⟨fun h x hx => ?_, fun h hh => ?_⟩
  · have all : ∀ n (P : List OnAirUpdate → Prop), P [] → P updating.updates → P (updating.updates.take n) := by
      intro n P h0 h1
      cases n with
      | zero => exact h0
      | succ n => rw [List.take_of_length_le (by simp [updating])]; exact h1
    rcases updating_record hx with ⟨rfl, rfl⟩ | ⟨rfl, rfl⟩ <;>
      exact ⟨by decide +kernel, fun n => all n (fun l => (l.countP fun u => u.old == some _)
        ≤ _ + l.countP fun u => u.new == some _) (by decide) (by decide +kernel), nofun⟩
  · have : h = 1 ∨ h = 2 := by
      rcases hh with ⟨k, hk⟩ | ⟨u, hu, hu'⟩
      · rcases slot_cases updating k with h' | h'
        · rw [h'] at hk; cases hk
        · have hs : updating.slots = [(0, slotOf .substituted (some 2) none none)] := rfl
          rw [hs] at h'
          rw [(Prod.mk.inj (List.mem_singleton.1 h')).2] at hk
          cases hk; exact Or.inr rfl
      · rw [show updating.updates = [⟨some 1, some 2⟩] from rfl] at hu
        obtain rfl := List.mem_singleton.1 hu
        rcases hu' with h' | h' <;> cases h'
        · exact Or.inr rfl
        · exact Or.inl rfl
    rcases this with rfl | rfl <;> exact ⟨_, rfl, nofun⟩

theorem updating_fallbackCountLaw : updating.fallbackCountLaw := by
  refine ⟨fun h x hx => ?_, fun h x fb hx _ hfb => ?_, fun r => by cases r <;> rfl, List.nodup_nil,
    fun r h hh => by cases r <;> cases hh⟩
  · rcases updating_record hx with ⟨rfl, rfl⟩ | ⟨rfl, rfl⟩ <;> decide +kernel
  · rcases updating_record hx with ⟨rfl, rfl⟩ | ⟨rfl, rfl⟩ <;> cases hfb
    exact ⟨nofun, by decide +kernel⟩

theorem witness_EveryStepKeepsTheUseCounts :
    updating.canonical ∧ updating.onAirLaw ∧ updating.countLaw ∧ updating.fallbackCountLaw
      ∧ ∃ t, step updating = .next t :=
  ⟨canonical_of (by decide +kernel) ⟨rfl, rfl, rfl, rfl, rfl, rfl⟩, updating_onAirLaw,
    countLaw_of (by decide +kernel), updating_fallbackCountLaw, step_tick rfl⟩

theorem witness_EveryStepKeepsTheRanges : whole.rangeLaw ∧ ∃ t, step whole = .next t :=
  ⟨rangeLaw_of (by decide +kernel), whole_steps⟩

end Sys2Proof.Tests
end

