-- ==== Sys2Proof/Proofs/Acts.lean ====
section
/-! What a step can do to the stores that the laws of the stream map, of the splice edit store and of the reference
counts speak of (`State.core`), cut at the grain of whole acts: `Lawful P` lists the acts, and `Runs s t` says that
`t` comes from `s` by acts alone, so that every lawful `P` of `s` is one of `t`. A law then needs one proof for each
act, and none for each command. -/

namespace Sys2Proof.Machine

/-! ### What the laws read -/

/-- The stages of a record's life that the laws tell apart: LIVE, LOST and RESTORING are one. -/
def RecState.stage : RecState → Nat
  | .reserved => 0
  | .live | .lost | .restoring => 1
  | .retiring => 2

/-- The stages of a splice entry that the laws tell apart: ARMED and PRIMED are one. -/
def EntryState.stage : EntryState → Nat
  | .free => 0
  | .armed | .primed => 1
  | .held => 2
  | .switching => 3

/-- What the laws read of a record. -/
def Record.use (x : Record) :=
  (x.state.stage, x.key, x.components, x.fallback, x.planned, x.onAir, x.spliceRefs, x.fallbackRefs)

/-- What the laws read of a splice entry. -/
def Entry.use (x : Entry) := (x.state.stage, x.edits, x.role, x.partner)

/-- What the laws read of a stream map entry. -/
def MapEntry.place (m : MapEntry) := (m.handle, m.index, m.active)

/-- What the laws read of a workspace. -/
def Workspace.core (w : Workspace) := (w.mode, w.edits, w.handles)

/-- What the laws read of the part. -/
def State.core (s : State) :=
  (s.records, s.smap, s.slots, s.updates, s.entries, s.siteWs.core, s.netWs.core)

/-- The on-air update that a slot's move hands on (R78). -/
def Slot.handsOn (x y : Slot) : List OnAirUpdate :=
  if x.source = y.source then [] else [⟨x.source, y.source⟩]

/-- A slot's move without a change of its binding, as the laws see it: the slot and the update. -/
def State.moved (s : State) (k : Nat) (x : Slot) : State :=
  { s.setSlotAt k x with updates := s.updates ++ (s.slotAt k).handsOn x }

/-- What a slot that moves may have on air: what it had, nothing, or a usable record (R49). -/
def State.maySource (s : State) (x y : Slot) : Prop :=
  y.planned = x.planned ∧ (y.source = x.source ∨ y.source = none ∨ ∃ h, y.source = some h ∧ s.usable h = true)

/-- A waiting entry is cancelled, with the carriage table settled (R156). -/
def State.dropEntry (s : State) (e : Nat) : State :=
  let s := if (s.entry e).state = .held then s.clearPartner e else s.endHeldPartner e .cancelled none
  ((s.dropSpliceRefs (s.entry e).edits).passReservations e none).freeEntry e .cancelled none

/-- A CREATE RECORD lists no source PID twice (R5). -/
def Edit.distinct : Edit → Prop
  | .create _ c => (c.components.map (·.pid)).Nodup
  | .amend _ | .retire _ | .slot _ | .setLeg _ => True

/-- The workspace with a CREATE RECORD and the handle and map entries it has reserved (R112). -/
def Workspace.holdCreate (w : Workspace) (h : Nat) (c : CreateFields) : Workspace :=
  { w.hold (.create h c) with
    handles := w.handles ++ [h], mapEntries := w.mapEntries ++ (mapKeys c).map (·.1) }

/-- A law that every act keeps, on tables in their canonical form. -/
structure Lawful (P : State → Prop) : Prop where
  reset : ∀ s : State, s.core = State.reset.core → P s
  frame : ∀ s t : State, s.core = t.core → P s → P t
  touch : ∀ (s : State) h x y, s.canonical → s.record? h = some x → y.use = x.use → P s → P (s.setRecord h y)
  smap : ∀ (s : State) (m : Table MapEntry), s.canonical →
    (∀ k, (Table.find? m k).map (·.place) = (Table.find? s.smap k).map (·.place)) →
    m.length = s.smap.length → P s → P { s with smap := m }
  update : ∀ (s : State) u rest, s.canonical → s.updates = u :: rest → P s →
    P ({ s with updates := rest }.takeUpdate u)
  move : ∀ (s : State) k x, s.canonical → s.maySource (s.slotAt k) x → P s → P (s.moved k x)
  entry : ∀ (s : State) e y, s.canonical → y.use = (s.entry e).use → P s → P (s.setEntry e y)
  freed : ∀ (s : State) e r c, s.canonical → (s.entry e).state = .switching → P s → P (s.freeEntry e r c)
  pass : ∀ (s : State) e p, s.canonical → s.updates = [] → (s.entry e).state.stage = 1 →
    judgeEntry s (s.entry e) = .ok p → P s → P (s.passEntry e p)
  fail : ∀ (s : State) e c, s.canonical → (s.entry e).state.stage = 1 → P s → P (s.failEntry e c)
  cancel : ∀ (s : State) e, s.canonical → (s.entry e).state.stage = 1 ∨ (s.entry e).state = .held → P s →
    P (s.dropEntry e)
  ended : ∀ (s : State) r o, s.canonical → P s → P (s.endBatch r o)
  immediate : ∀ (s : State) r o p, s.canonical → s.updates = [] → (s.ws r).mode = .immediate →
    judgeImmediate s (s.ws r) = .ok p → P s → P ((s.writePicture p).endBatch r o)
  deferred : ∀ (s : State) r p t oc e n, s.canonical → (s.ws r).mode = .deferred →
    judgeDeferred s (s.ws r) = .ok p →
    allocate s (p.applied.filterMap Edit.slotEdit?).length
      (inverseEdits s (p.applied.filterMap Edit.slotEdit?)).length (s.ws r).returnOpt.isSome = .ok (e, n) →
    P s → P ((s.armEntries r (s.ws r) t (p.applied.filterMap Edit.slotEdit?)
      (inverseEdits s (p.applied.filterMap Edit.slotEdit?)) e n).endBatch r oc)
  opened : ∀ (s : State) r w, w.edits = [] → w.handles = [] → P s → P (s.setWs r w)
  hold : ∀ (s : State) r e, (∀ h c, e ≠ .create h c) → ((s.ws r).mode = .deferred → ∃ d, e = .slot d) →
    P s → P (s.setWs r ((s.ws r).hold e))
  create : ∀ (s : State) r c h t, s.canonical → (s.ws r).mode = .immediate →
    (c.components.map (·.pid)).Nodup → s.reserveRecord r c = .ok (h, t) → P s →
    P (t.setWs r ((s.ws r).holdCreate h c))

/-- `t` comes from `s` by acts. -/
def Runs (s t : State) : Prop := Kept s t ∧ ∀ P, Lawful P → s.canonical → P s → P t

theorem Kept.canonical {s t : State} (k : Kept s t) (h : s.canonical) : t.canonical := k _ closed_canonical h

theorem Runs.refl (s : State) : Runs s s := ⟨.refl s, fun _ _ _ p => p⟩

theorem Runs.trans {s t u : State} (h : Runs s t) (k : Runs t u) : Runs s u :=
  ⟨h.1.trans k.1, fun P l c p => k.2 P l (h.1.canonical c) (h.2 P l c p)⟩

/-- What the laws do not read may change. -/
theorem Runs.frame {s t : State} (k : Kept s t) (h : s.core = t.core) : Runs s t :=
  ⟨k, fun _ l _ p => l.frame _ _ h p⟩

/-- A write outside of every store that is listed. -/
theorem Runs.aside {s t : State} (h : s.stores = t.stores) (hu : s.updates = t.updates) : Runs s t := by
  refine .frame (.aside h) ?_
  simp only [State.stores, Prod.mk.injEq] at h
  obtain ⟨-, hm, hr, -, hs, -, -, -, ⟨hw, hn⟩, ⟨he, -, -⟩, -⟩ := h
  unfold State.core
  rw [hr, hm, hs, hu, he, hw, hn]

theorem runs_foldl {α : Type} (f : State → α → State) (h : ∀ s a, Runs s (f s a)) (l : List α) (s : State) :
    Runs s (l.foldl f s) := by
  induction l generalizing s with
  | nil => exact .refl s
  | cons a l ih => exact (h s a).trans (ih _)

theorem runs_ite {p : Prop} [Decidable p] {s t u : State} (ht : Runs s t) (hu : Runs s u) :
    Runs s (if p then t else u) := by
  split <;> assumption

variable (s : State)

/-! ### Writes that the laws do not read -/

theorem core_raise (k : AttKind) (d : Nat) : (s.raise k d).core = s.core := by
  obtain ⟨a, b, h⟩ := raise_eq s k d
  rw [h]; rfl

theorem core_reportMove (f : Nat) (m : Move) : (s.reportMove f m).core = s.core := by
  obtain ⟨v, h⟩ := reportMove_eq s f m
  rw [h]; rfl

theorem core_report (f : Nat) (e : LegEvent) (c : ProgClass) (n : Nat) : (s.report f e c n).core = s.core := by
  obtain ⟨v, h⟩ := report_eq s f e c n
  rw [h]; rfl

theorem core_markRange (f b : Nat) : (s.markRange f b).core = s.core := by
  obtain ⟨v, h⟩ := markRange_eq s f b
  rw [h]; rfl

theorem core_releaseClaims (r : Requester) : (s.releaseClaims r).core = s.core := by
  obtain ⟨v, h⟩ := releaseClaims_eq s r
  rw [h]; rfl

theorem core_reportLeft (f i : Nat) : (s.reportLeft f i).core = s.core := by
  rw [reportLeft_eq]; rfl

theorem core_setOut (f : Nat) (o : LegOut) : (s.setOut f o).core = s.core := rfl

theorem core_setCount (f q n : Nat) : (s.setCount f q n).core = s.core := rfl

theorem core_setMark (f q : Nat) (b : Bool) : (s.setMark f q b).core = s.core := rfl

theorem core_ite {p : Prop} [Decidable p] {t u : State} (ht : t.core = s.core) (hu : u.core = s.core) :
    (if p then t else u).core = s.core := by
  split <;> assumption

theorem core_copyTo (f pid : Nat) (c : ProgClass) (p : List Byte) : (s.copyTo f pid c p).core = s.core := by
  unfold State.copyTo
  split
  · unfold State.offer
    extract_lets o n due room preface copy
    split
    · rw [core_setMark]
      exact core_ite s (by rfl) (by rfl)
    · exact core_report _ _ _ _ _
  · exact core_report _ _ _ _ _
  · rfl

theorem core_makeCopies (R k : Nat) (c : ProgClass) (p : List Byte) : (s.makeCopies R k c p).core = s.core := by
  unfold State.makeCopies
  refine foldl_same (fun t => t.core) _ (fun t d => ?_) _ _
  split
  · split
    · exact core_copyTo _ _ _ _ _
    · rfl
  · rfl

theorem core_sendPacket (f : Nat) : (s.sendPacket f).core = s.core := by
  unfold State.sendPacket
  dsimp only
  split
  · rfl
  · split
    · rfl
    · exact core_report _ _ _ _ _
  · rfl

theorem core_markPlanned (f : Nat) : (s.markPlanned f).core = s.core := by
  unfold State.markPlanned
  refine foldl_same (fun t => t.core) _ (fun t d => ?_) _ _
  split
  · exact core_markRange _ _ _
  · rfl

theorem core_startDirectory (f : Nat) : (s.startDirectory f).core = s.core := by
  unfold State.startDirectory State.buildDirectory
  dsimp only
  rw [core_setOut, core_setCount, core_setOut]

theorem core_changeOutput (f : Nat) (old : LegState) : (s.changeOutput f old).core = s.core := by
  unfold State.changeOutput
  split
  · exact (core_startDirectory _ _).trans (core_markPlanned _ _)
  · exact core_startDirectory _ _
  · exact core_setOut _ _ _
  · exact core_markPlanned _ _
  · exact core_setOut _ _ _
  · exact core_setOut _ _ _
  all_goals rfl

theorem core_writeOutputs (before : State) : (State.writeOutputs before s).core = s.core :=
  foldl_same (fun t => t.core) _ (fun t _ => core_changeOutput t _ _) _ _

theorem core_setWs {r : Requester} {w : Workspace} (h : w.core = (s.ws r).core) : (s.setWs r w).core = s.core := by
  cases r <;> simp only [State.core, State.setWs, State.ws] at h ⊢ <;> rw [h]

theorem core_setOutcome (r : Requester) (o : OutcomeRecord) : (s.setOutcome r o).core = s.core := by
  cases r <;> rfl

theorem core_claim {r : Requester} {l : List Nat} {t : State} (h : s.claim r l = .ok t) : t.core = s.core := by
  unfold State.claim at h
  split at h
  · cases h
  · split at h
    · cases h
    · cases h
      exact foldl_same (fun t => t.core) (fun s f => s.setLeg f { s.leg f with claim := some r })
        (fun _ _ => rfl) _ _

theorem runs_raise (k : AttKind) (d : Nat) : Runs s (s.raise k d) := .frame (kept_raise _ _ _) (core_raise _ _ _).symm

theorem runs_countInput (i : Nat) (f : InputCounters → InputCounters) : Runs s (s.countInput i f) :=
  .frame (kept_countInput _ _ _) rfl

theorem runs_setLeg (f : Nat) (x : Leg) : Runs s (s.setLeg f x) := .frame (kept_setLeg _ _ _) rfl

theorem runs_setPair (k : Nat) (x : Pair) : Runs s (s.setPair k x) := .frame (kept_setPair _ _ _) rfl

theorem runs_setInput {i : Nat} {x : Input} (h : (s.input i).law → x.law) : Runs s (s.setInput i x) :=
  .frame (kept_setInput _ h) rfl

/-! ### The carriage table -/

theorem runs_touch {h : Nat} {x y : Record} (hx : s.record? h = some x) (hy : y.use = x.use) :
    Runs s (s.setRecord h y) :=
  ⟨kept_setRecord _ hx (congrArg (·.2.1) hy), fun _ l c p => l.touch _ _ _ _ c hx hy p⟩

theorem runs_modTouch (h : Nat) (f : Record → Record) (hf : ∀ r, (f r).use = r.use) : Runs s (s.modRecord h f) := by
  unfold State.modRecord
  split
  · exact runs_touch _ (by assumption) (hf _)
  · exact .refl _

theorem runs_reportLoss (h : Nat) : Runs s (s.reportLoss h) := (runs_raise _ _ _).trans (.aside rfl rfl)

theorem runs_reportRestoration (h : Nat) : Runs s (s.reportRestoration h) :=
  (runs_raise _ _ _).trans (.aside rfl rfl)

theorem use_withState (x : Record) {st : RecState} (h : st.stage = x.state.stage) (a b : Option Nat) :
    Record.use { x with state := st, silence := a, hold := b } = x.use := by
  simp only [Record.use]
  rw [h]

theorem runs_loseSource {h : Nat} {x : Record} (hx : s.record? h = some x) : Runs s (s.loseSource h x) := by
  unfold State.loseSource
  split
  case h_1 hs => exact (runs_touch _ hx (use_withState x (by rw [hs]; rfl) _ _)).trans (runs_reportLoss _ _)
  case h_2 hs => exact (runs_touch _ hx (use_withState x (by rw [hs]; rfl) _ _)).trans (runs_reportLoss _ _)
  case h_3 => exact runs_ite (runs_touch _ hx (by rfl)) ((runs_touch _ hx (by rfl)).trans (runs_reportLoss _ _))
  all_goals exact .refl _

theorem runs_expireWindow (h : Nat) : Runs s (s.expireWindow h) := by
  unfold State.expireWindow
  split
  · rename_i hx
    split
    · exact runs_ite (runs_loseSource _ hx) (.refl _)
    · exact .refl _
  · exact .refl _

theorem runs_endHold (h : Nat) : Runs s (s.endHold h) := by
  unfold State.endHold
  split
  · rename_i x hx
    split
    · rename_i hs _
      exact runs_ite ((runs_touch _ hx (use_withState x (by rw [hs]; rfl) _ _)).trans (runs_reportRestoration _ _)) (.refl _)
    · exact .refl _
  · exact .refl _

theorem runs_takeDue (d : DueAct) : Runs s (s.takeDue d) := by
  cases d
  · exact runs_expireWindow _ _
  · exact runs_endHold _ _

theorem runs_settleCtab : Runs s s.settleCtab :=
  (Runs.aside (s := s) (t := { s with ctabDue := [] }) rfl rfl).trans (runs_foldl _ runs_takeDue _ _)

theorem runs_countPacket (h : Nat) : Runs s (s.countPacket h) := by
  unfold State.countPacket
  split
  · rename_i x hx
    dsimp only
    split
    · exact runs_touch _ hx rfl
    · exact runs_touch _ hx rfl
    case h_3 hs =>
      exact runs_ite
        ((runs_touch _ hx (use_withState x (by rw [hs]; rfl) _ _)).trans (runs_reportRestoration _ _))
        (runs_touch _ hx (use_withState x (by rw [hs]; rfl) _ _))
    · exact runs_touch _ hx rfl
    · exact .refl _
  · exact .refl _

theorem runs_completeProbe (h k : Nat) (p : List Byte) : Runs s (s.completeProbe h k p) := by
  unfold State.completeProbe
  split
  · rename_i hx
    exact runs_ite ((runs_touch _ hx (by rfl)).trans (runs_raise _ _ _)) (.refl _)
  · exact .refl _

theorem runs_notePacket (h k : Nat) (p : List Byte) : Runs s (s.notePacket h k p) :=
  (runs_settleCtab _).trans ((runs_modTouch _ _ _ (by intro _; rfl)).trans
    ((runs_completeProbe _ _ _ _).trans (runs_ite (runs_countPacket _ _) (.refl _))))

/-! ### On-air updates -/

theorem record?_with_updates (l : List OnAirUpdate) (h : Nat) :
    ({ s with updates := l } : State).record? h = s.record? h := rfl

theorem modRecord_with_updates (l : List OnAirUpdate) (h : Nat) (f : Record → Record) :
    ({ s with updates := l } : State).modRecord h f = { s.modRecord h f with updates := l } := by
  unfold State.modRecord
  rw [record?_with_updates]
  cases s.record? h <;> rfl

/-- Taking an update does not look at the updates that wait. -/
theorem takeUpdate_with_updates (l : List OnAirUpdate) (u : OnAirUpdate) :
    ({ s with updates := l } : State).takeUpdate u = { s.takeUpdate u with updates := l } := by
  obtain ⟨old, new⟩ := u
  have lower : ∀ (s : State) (o : Nat), ({ s with updates := l } : State).takeUpdate ⟨some o, none⟩
      = { s.takeUpdate ⟨some o, none⟩ with updates := l } := by
    intro s o
    unfold State.takeUpdate
    dsimp only
    rw [modRecord_with_updates, record?_with_updates]
    split
    · split <;> rfl
    · rfl
  cases new with
  | none =>
    cases old with
    | none => rfl
    | some o => exact lower s o
  | some n =>
    cases old with
    | none => exact modRecord_with_updates _ _ _ _
    | some o =>
      have h := lower (s.modRecord n fun r => { r with onAir := r.onAir + 1 }) o
      rw [← modRecord_with_updates] at h
      exact h

/-- Taking every update is taking the first and then the others. -/
theorem takeUpdates_cons {u : OnAirUpdate} {l : List OnAirUpdate} (h : s.updates = u :: l) :
    s.takeUpdates = ({ s with updates := l }.takeUpdate u).takeUpdates := by
  unfold State.takeUpdates
  rw [takeUpdate_with_updates, h, List.foldl_cons, takeUpdate_with_updates]

theorem takeUpdates_nil (h : s.updates = []) : s.takeUpdates = s := by
  unfold State.takeUpdates
  rw [h]
  cases s
  simp_all

theorem updates_takeUpdate (u : OnAirUpdate) : (s.takeUpdate u).updates = s.updates := by
  rw [show s.takeUpdate u = { s.takeUpdate u with updates := s.updates } from takeUpdate_with_updates s s.updates u]

theorem updates_takeUpdates : s.takeUpdates.updates = [] := by
  unfold State.takeUpdates
  exact foldl_same (fun t => t.updates) _ (fun t u => updates_takeUpdate t u) _ _

theorem runs_takeFirst {u : OnAirUpdate} {l : List OnAirUpdate} (h : s.updates = u :: l) :
    Runs s ({ s with updates := l }.takeUpdate u) :=
  ⟨.trans (kept_updates s l) (kept_takeUpdate _ u), fun _ w c p => w.update _ _ _ c h p⟩

theorem runs_takeUpdates : Runs s s.takeUpdates := by
  suffices ∀ (l : List OnAirUpdate) (s : State), s.updates = l → Runs s s.takeUpdates from this _ s rfl
  intro l
  induction l with
  | nil => intro s h; rw [takeUpdates_nil s h]; exact .refl s
  | cons u l ih =>
    intro s h
    rw [takeUpdates_cons s h]
    exact (runs_takeFirst s h).trans (ih _ (updates_takeUpdate _ _))

theorem runs_tablesReady : Runs s s.tablesReady := (runs_settleCtab _).trans (runs_takeUpdates _)

/-! ### Splice entries that hear of slots -/

theorem runs_setEntry {e : Nat} {y : Entry} (h : y.use = (s.entry e).use) : Runs s (s.setEntry e y) :=
  ⟨kept_setEntry _ _ _, fun _ l c p => l.entry _ _ _ c h p⟩

theorem runs_freeSwitching {e : Nat} (r : LastResult) (c : Option Code) (h : (s.entry e).state = .switching) :
    Runs s (s.freeEntry e r c) :=
  ⟨kept_freeEntry _ _ _ _, fun _ l ca p => l.freed _ _ _ _ ca h p⟩

theorem runs_untrack (e : Nat) (t : Nat × Nat) : Runs s (s.untrack e t) := by
  unfold State.untrack
  dsimp only
  split
  · next h =>
    simp only [Bool.and_eq_true, decide_eq_true_eq] at h
    refine (runs_setEntry s (by rfl)).trans (runs_ite ?_ (.refl _))
    exact (runs_freeSwitching _ _ _ (by simpa using h.1)).trans (runs_raise _ _ _)
  · exact .refl _

theorem runs_takeReports : Runs s s.takeReports := by
  refine runs_ite (.refl _) ((Runs.aside (s := s) (t := { s with reports := [] }) rfl rfl).trans ?_)
  exact runs_foldl _ (fun _ _ => runs_foldl _ (fun _ _ => runs_untrack _ _ _) _ _) _ _

/-! ### Slots -/

/-- What the laws see of a move: the slot and its update. -/
theorem core_applyMove (f i : Nat) (m : Move) :
    (s.applyMove f i m).core = (s.moved (slotKey f i) m.slot).core := by
  have source : ((s.setSlotAt (slotKey f i) m.slot).changeSource f (s.slot f i) m.slot).core
      = (s.moved (slotKey f i) m.slot).core := by
    unfold State.changeSource State.moved Slot.handsOn
    rw [show s.slotAt (slotKey f i) = s.slot f i from rfl]
    split
    · simp [State.core]
    · dsimp only
      split
      · rw [core_markRange]; rfl
      · rfl
  unfold State.applyMove
  dsimp only
  split
  · rw [core_reportLeft, core_reportMove, source]
  · rw [core_reportMove, source]

theorem runs_applyMove {f i : Nat} {m : Move} (hl : (s.slot f i).law → m.slot.law)
    (hm : s.maySource (s.slot f i) m.slot) : Runs s (s.applyMove f i m) :=
  ⟨kept_applyMove _ hl, fun _ l c p => l.frame _ _ (core_applyMove _ _ _ _).symm (l.move _ _ _ c hm p)⟩

theorem records_applyMove (f i : Nat) (m : Move) : (s.applyMove f i m).records = s.records :=
  congrArg (·.1) (core_applyMove s f i m)

theorem usable_congr {s t : State} (h : s.records = t.records) (k : Nat) : s.usable k = t.usable k := by
  unfold State.usable State.record?
  rw [h]

theorem maySource_congr {s t : State} (h : s.records = t.records) {x y : Slot} (m : s.maySource x y) :
    t.maySource x y := by
  obtain ⟨hp, hs⟩ := m
  refine ⟨hp, hs.imp_right (.imp_right ?_)⟩
  rintro ⟨k, hk, hu⟩
  exact ⟨k, hk, usable_congr h k ▸ hu⟩

theorem runs_moveSlots {g : Nat → Slot → Option Move} (hl : ∀ k x m, g k x = some m → m.slot.law)
    (hg : ∀ k x m, g k x = some m → s.maySource x m.slot) : Runs s (s.moveSlots g) := by
  unfold State.moveSlots
  suffices ∀ (l : List Nat) (t : State), s.records = t.records → Runs t (l.foldl (fun s k =>
      match g k (s.slotAt k) with
      | some m => s.applyMove (k / 16) (k % 16) m
      | none => s) t) from this _ s rfl
  intro l
  induction l with
  | nil => intro t _; exact .refl t
  | cons k l ih =>
    intro t ht
    rw [List.foldl_cons]
    cases hm : g k (t.slotAt k) with
    | none => exact ih t ht
    | some m =>
      refine .trans (runs_applyMove _ (fun _ => hl _ _ _ hm) ?_) (ih _ (ht.trans (records_applyMove _ _ _ _).symm))
      rw [State.slot, slotKey_div_mod]
      exact maySource_congr ht (hg _ _ _ hm)

/-! The moves that leave the binding put nothing on air but usable records. -/

theorem maySource_goSteady {x : Slot} {p : Nat} (e : Option LegEvent) (h : s.usable p = true) :
    s.maySource x (goSteady x p e).slot := ⟨rfl, .inr (.inr ⟨p, rfl, h⟩)⟩

theorem maySource_goSlated (x : Slot) : s.maySource x (goSlated x).slot := ⟨rfl, .inr (.inl rfl)⟩

/-- A usable fallback is the record's fallback and usable (R49). -/
theorem usableFallback_eq_some {p fb : Nat} (h : s.usableFallback p = some fb) :
    s.fallbackOf p = some fb ∧ s.usable fb = true := by
  unfold State.usableFallback at h
  split at h
  · split at h
    · next hf hu => cases h; exact ⟨hf, hu⟩
    · cases h
  · cases h

theorem maySource_goFallback (x : Slot) (p : Nat) : s.maySource x (goFallback s x p).slot := by
  unfold goFallback
  split
  · next h => exact ⟨rfl, .inr (.inr ⟨_, rfl, (usableFallback_eq_some s h).2⟩)⟩
  · exact maySource_goSlated s x

theorem maySource_enterPending (f : Nat) (x : Slot) {p : Nat} (h : s.usable p = true) :
    s.maySource x (enterPending s f x p).slot := by
  unfold enterPending
  split
  · exact ⟨rfl, .inl rfl⟩
  · exact maySource_goSteady s _ h

theorem maySource_lossMove {X : Nat} {x : Slot} {m : Move} (h : lossMove s X x = some m) :
    s.maySource x m.slot := by
  unfold lossMove at h
  split at h
  · cases h
  · split at h
    · split at h <;> cases h <;> exact maySource_goFallback s _ _
    · split at h
      · split at h <;> cases h <;> split
        · next hu => exact maySource_goSteady s _ hu
        · exact maySource_goFallback s _ _
        · next hu => exact maySource_goSteady s _ hu
        · exact maySource_goSlated s _
      · cases h

theorem maySource_restorationMove {X f : Nat} {x : Slot} {m : Move} (hu : s.usable X = true)
    (h : restorationMove s X f x = some m) : s.maySource x m.slot := by
  unfold restorationMove at h
  split at h
  · cases h
  · split at h
    · split at h
      · cases h; exact maySource_enterPending s _ _ hu
      · split at h
        · cases h; exact maySource_enterPending s _ _ hu
        · cases h
      all_goals cases h
    · split at h
      · cases h; exact maySource_goFallback s _ _
      · cases h

theorem maySource_sightingMove {R : Nat} {x : Slot} {m : Move} (hu : s.usable R = true)
    (h : sightingMove R x = some m) : s.maySource x m.slot := by
  unfold sightingMove at h
  split at h
  · cases h
  · split at h
    · cases h; exact maySource_goSteady s _ hu
    · cases h

theorem maySource_deadlineMove (x : Slot) (p : Nat) : s.maySource x (deadlineMove s x p).slot := by
  unfold deadlineMove
  split
  · next hu => exact maySource_goSteady s _ hu
  · exact maySource_goFallback s _ _

theorem maySource_fallbackMove {f : Nat} {x : Slot} {p : Nat} {old : Option Nat} {m : Move}
    (h : fallbackMove s f x p old = some m) : s.maySource x m.slot := by
  unfold fallbackMove at h
  split at h
  · split at h
    · cases h
      split
      · next hu => exact maySource_enterPending s _ _ hu
      · exact maySource_goFallback s _ _
    · cases h
  · split at h
    · cases h; exact maySource_goFallback s _ _
    · cases h
  all_goals cases h

theorem maySource_refallback {before : State} {k : Nat} {x : Slot} {m : Move}
    (h : refallback before s k x = some m) : s.maySource x m.slot := by
  unfold refallback at h
  split at h
  · split at h
    · cases h
    · exact maySource_fallbackMove s h
  · cases h

theorem maySource_resumeMove {f : Nat} {x : Slot} {m : Move} (h : resumeMove s f x = some m) :
    s.maySource x m.slot := by
  unfold resumeMove at h
  split at h
  · split at h
    · next hb =>
      cases h
      simp only [Bool.and_eq_true] at hb
      exact maySource_enterPending s _ _ hb.2
    · cases h
  · cases h

theorem runs_takeLoss (X : Nat) : Runs s (s.takeLoss X) :=
  runs_ite (.refl _) ((runs_moveSlots _ (fun _ _ _ h => law_lossMove _ h)
    (fun _ _ _ h => maySource_lossMove _ h)).trans (runs_takeReports _))

theorem runs_takeRestoration (X : Nat) : Runs s (s.takeRestoration X) := by
  unfold State.takeRestoration
  split
  · next hu =>
    exact (runs_moveSlots _ (fun _ _ _ h => law_restorationMove _ h)
      (fun _ _ _ h => maySource_restorationMove _ hu h)).trans (runs_takeReports _)
  · exact .refl _

theorem runs_sight (R : Nat) (b : Bool) : Runs s (s.sight R b) := by
  unfold State.sight
  split
  · next hu =>
    simp only [Bool.and_eq_true] at hu
    exact (runs_moveSlots _ (fun _ _ _ h => law_sightingMove h)
      (fun _ _ _ h => maySource_sightingMove _ hu.2 h)).trans (runs_takeReports _)
  · exact .refl _

theorem runs_expireDeadline (f i : Nat) : Runs s (s.expireDeadline f i) := by
  unfold State.expireDeadline
  dsimp only
  split
  · rename_i hp _
    exact runs_ite ((runs_applyMove _ (fun _ => law_deadlineMove _ hp) (maySource_deadlineMove _ _ _)).trans
      (runs_takeReports _)) (.refl _)
  · exact .refl _

/-! ### Commits -/

theorem runs_endBatch (r : Requester) (o : OutcomeRecord) : Runs s (s.endBatch r o) :=
  ⟨kept_endBatch _ _ _, fun _ l c p => l.ended _ _ _ c p⟩

theorem runs_endEarly (r : Requester) (o : OutcomeRecord) : Runs s (s.endEarly r o) :=
  (runs_settleCtab _).trans (runs_endBatch _ _ _)

theorem runs_abort (r : Requester) (f : Failure) : Runs s (s.abort r f) := runs_endEarly _ _ _

theorem runs_commitImmediate {r : Requester} (hm : (s.ws r).mode = .immediate) (hu : s.updates = []) :
    Runs s (s.commitImmediate r) := by
  have kept := kept_commitImmediate s r
  unfold State.commitImmediate at kept ⊢
  dsimp only at kept ⊢
  split
  · exact runs_abort _ _ _
  · next hj =>
    rw [hj] at kept
    exact ⟨kept, fun _ l c p => l.immediate _ _ _ _ c hu hm hj p⟩

theorem runs_commitDeferred {r : Requester} (hm : (s.ws r).mode = .deferred) : Runs s (s.commitDeferred r) := by
  unfold State.commitDeferred
  dsimp only
  split
  · exact runs_abort _ _ _
  · exact runs_endBatch _ _ _
  · next hj _ =>
    split
    · exact runs_endBatch _ _ _
    · split
      · exact runs_abort _ _ _
      · next ha =>
        exact ⟨.trans (kept_armEntries _ _ _ _ _ _ _ _) (kept_endBatch _ _ _),
          fun _ l c p => l.deferred _ _ _ _ _ _ _ c hm hj ha p⟩

theorem runs_commit (r : Requester) : Runs s (s.commit r) := by
  unfold State.commit
  dsimp only
  refine .trans (runs_tablesReady s) ?_
  split
  · next hm => exact .trans (runs_commitImmediate _ hm (updates_takeUpdates _)) (runs_takeReports _)
  · next hm => exact runs_commitDeferred _ hm

/-! ### Splices -/

theorem entry_congr {s t : State} (h : s.entries = t.entries) (e : Nat) : s.entry e = t.entry e := by
  unfold State.entry
  rw [h]

theorem entries_modRecord (h : Nat) (f : Record → Record) : (s.modRecord h f).entries = s.entries := by
  unfold State.modRecord
  split <;> rfl

theorem entries_raise (k : AttKind) (d : Nat) : (s.raise k d).entries = s.entries :=
  congrArg (·.2.2.2.2.1) (core_raise s k d)

theorem entries_takeDue (d : DueAct) : (s.takeDue d).entries = s.entries := by
  cases d with
  | expiry h =>
    simp only [State.takeDue, State.expireWindow]
    split
    · split
      · split
        · unfold State.loseSource
          split
          · exact entries_raise _ _ _
          · exact entries_raise _ _ _
          · split
            · rfl
            · exact entries_raise _ _ _
          all_goals rfl
        · rfl
      · rfl
    · rfl
  | holdEnd h =>
    simp only [State.takeDue, State.endHold]
    split
    · split
      · split
        · exact entries_raise _ _ _
        · rfl
      · rfl
    · rfl

theorem entries_settleCtab : s.settleCtab.entries = s.entries := by
  unfold State.settleCtab
  exact foldl_same (fun t => t.entries) _ (fun t d => entries_takeDue t d) _ _

theorem entries_takeUpdate (u : OnAirUpdate) : (s.takeUpdate u).entries = s.entries := by
  have lower : ∀ (s : State) (o : Nat), (s.takeUpdate ⟨some o, none⟩).entries = s.entries := by
    intro s o
    unfold State.takeUpdate
    dsimp only
    split
    · split
      · exact entries_modRecord _ _ _
      · exact entries_modRecord _ _ _
    · exact entries_modRecord _ _ _
  obtain ⟨old, new⟩ := u
  cases old <;> cases new
  · rfl
  · exact entries_modRecord _ _ _
  · exact lower _ _
  · exact (lower _ _).trans (entries_modRecord _ _ _)

theorem entry_tablesReady (e : Nat) : s.tablesReady.entry e = s.entry e := by
  refine entry_congr ?_ e
  unfold State.tablesReady State.takeUpdates
  rw [foldl_same (fun t => t.entries) _ (fun t u => entries_takeUpdate t u)]
  exact entries_settleCtab s

theorem runs_execute {e : Nat} (h : (s.entry e).state.stage = 1) : Runs s (s.execute e) := by
  have ready : (s.tablesReady.entry e).state.stage = 1 := by rw [entry_tablesReady]; exact h
  unfold State.execute
  dsimp only
  refine .trans (runs_tablesReady s) ?_
  split
  · next hj =>
    exact ⟨kept_passEntry _ _ _, fun _ l c p => l.pass _ _ _ c (updates_takeUpdates _) ready hj p⟩
  · exact ⟨kept_failEntry _ _ _, fun _ l c p => l.fail _ _ _ c ready p⟩

/-- An entry that listens is ARMED or PRIMED (R143). -/
theorem stage_of_listens {x : Entry} {m : MatcherName} (h : x.listens m = true) : x.state.stage = 1 := by
  unfold Entry.listens at h
  split at h
  · cases h
  · split at h
    all_goals first
      | (next hs _ => rw [hs]; rfl)
      | cases h

theorem use_withStage (x : Entry) {st : EntryState} (h : st.stage = x.state.stage) (n : Option Nat) :
    Entry.use { x with state := st, remaining := n } = x.use := by
  simp only [Entry.use]
  rw [h]

/-- An occurrence keeps an ARMED or PRIMED entry what the laws read of it (R146 to R148). -/
theorem use_hear {x : Entry} (h : x.state.stage = 1) (m : MatcherName) : (x.hear m).1.use = x.use := by
  unfold Entry.hear
  split
  · rfl
  · dsimp only
    split
    · rfl
    · exact use_withStage x (st := .primed) h.symm _
    · split
      · exact use_withStage x (st := .primed) h.symm _
      · rfl
    all_goals rfl

theorem runs_occur {e : Nat} (h : (s.entry e).state.stage = 1) (m : MatcherName) : Runs s (s.occur e m) := by
  have use := use_hear h m
  unfold State.occur
  dsimp only
  refine .trans (runs_setEntry s use) (runs_ite (runs_execute _ ?_) (.refl _))
  rw [entry_setEntry, if_pos rfl]
  exact (congrArg Prod.fst use).trans h

theorem runs_offerTo (c : Cue) (e : Nat) : Runs s (s.offerTo c e) := by
  have stage : ∀ {m}, (s.entry e).hearsCue c m = true → (s.entry e).state.stage = 1 := by
    intro m hm
    unfold Entry.hearsCue at hm
    exact stage_of_listens (Bool.and_eq_true _ _ ▸ hm).1
  unfold State.offerTo
  dsimp only
  split
  · next ha _ =>
    split
    · exact runs_occur _ (stage ha) _
    · next hn =>
      refine .trans (runs_occur _ (stage ha) _) (runs_occur _ ?_ _)
      have he : (s.occur e .a).entry e = ((s.entry e).hear .a).1 := by
        unfold State.occur
        simp [hn]
      rw [he]
      exact (congrArg (·.1) (use_hear (stage ha) .a)).trans (stage ha)
  · next ha _ => exact runs_occur _ (stage ha) _
  · next hb => exact runs_occur _ (stage hb) _
  · exact .refl _

theorem runs_offerCue (c : Cue) : Runs s (s.offerCue c) := runs_foldl _ (fun _ _ => runs_offerTo _ _ _) _ _

theorem runs_cues {l : List Cue} (h : l.length ≤ s.cues.length ∨ l.length ≤ Config.cuePlaces) :
    Runs s { s with cues := l } := .frame (kept_cues _ h) rfl

theorem runs_matureCues : Runs s s.matureCues :=
  .trans (runs_cues _ (.inl (List.length_filter_le _ _))) (runs_foldl _ runs_offerCue _ _)

theorem runs_timeOccurs (e : Nat) (m : MatcherName) : Runs s (s.timeOccurs e m) := by
  unfold State.timeOccurs
  split
  · next h =>
    have stage : (s.entry e).state.stage = 1 := by
      unfold State.timeDue at h
      simp only [Bool.and_eq_true] at h
      exact stage_of_listens h.1.1
    have use : ((s.entry e).markOccurred m).use = (s.entry e).use := by cases m <;> rfl
    refine .trans (runs_setEntry s use) (runs_occur _ ?_ _)
    rw [entry_setEntry, if_pos rfl]
    exact (congrArg Prod.fst use).trans stage
  · exact .refl _

theorem runs_testTimes : Runs s s.testTimes := runs_foldl _ (fun _ _ => runs_timeOccurs _ _ _) _ _

theorem runs_spsReady : Runs s s.spsReady :=
  .trans (runs_testTimes _) (.trans (runs_testTimes _) (runs_takeReports _))

theorem runs_testClock : Runs s s.testClock := .trans (runs_matureCues _) (runs_testTimes _)

theorem runs_takeCue (c : Cue) : Runs s (s.takeCue c) := by
  unfold State.takeCue
  dsimp only
  refine .trans (runs_spsReady _) ?_
  refine runs_ite (.trans (runs_offerCue _ _) (runs_takeReports _)) ?_
  split
  · exact runs_countInput _ _ _
  · exact runs_cues _ (.inr (by rw [length_placeCue]; omega))

theorem runs_setClock (t : StationTime) : Runs s (s.setClock t) :=
  .trans (runs_spsReady _)
    (.trans (Runs.aside (s := s.spsReady) (t := { s.spsReady with clock := t }) rfl rfl)
      (.trans (runs_testClock _) (runs_takeReports _)))

theorem runs_cancelEntry {e : Nat} (h : (s.entry e).state.stage = 1 ∨ (s.entry e).state = .held) :
    Runs s (s.cancelEntry e) := by
  refine ⟨kept_cancelEntry _ _, fun P l c p => ?_⟩
  have ready := (runs_settleCtab s).2 P l c p
  refine l.cancel s.settleCtab e ((kept_settleCtab s).canonical c) ?_ ready
  rw [entry_congr (entries_settleCtab s)]
  exact h

/-! ### Batches -/

theorem runs_setWs_core {r : Requester} {w : Workspace} (hb : (s.ws r).bounded → w.bounded)
    (hc : w.core = (s.ws r).core) : Runs s (s.setWs r w) :=
  .frame (kept_setWs _ hb) (core_setWs _ hc).symm

theorem runs_opened {r : Requester} {w : Workspace} (hb : w.bounded) (he : w.edits = []) (hh : w.handles = []) :
    Runs s (s.setWs r w) := ⟨kept_setWs _ fun _ => hb, fun _ l _ p => l.opened _ _ _ he hh p⟩

theorem runs_restartIdle (r : Requester) : Runs s (s.restartIdle r) :=
  runs_ite (runs_setWs_core _ (Workspace.bounded_of rfl rfl rfl) rfl) (.refl _)

theorem runs_expireIdle (r : Requester) : Runs s (s.expireIdle r) := by
  unfold State.expireIdle
  split
  · exact runs_ite (runs_abort _ _ _) (.refl _)
  · exact .refl _

theorem runs_settleIdle : Runs s s.settleIdle :=
  .trans (Runs.aside (s := s) (t := { s with idleDue := [] }) rfl rfl)
    (runs_foldl _ (fun _ _ => runs_expireIdle _ _) _ _)

theorem runs_claim {r : Requester} {l : List Nat} {t : State} (h : s.claim r l = .ok t) : Runs s t :=
  .frame (kept_claim _ h) (core_claim _ h).symm

theorem bounded_openedWorkspace (n : Nat) (l : Level) (b : BatchParams) : (openedWorkspace n l b).bounded := by
  simp [Workspace.bounded, openedWorkspace, Workspace.start, Config.maxDepth]

theorem runs_ownOpenBatch (r : Requester) (p : List Byte) : Runs s (ownOpenBatch s r p).1 := by
  have kept := kept_ownOpenBatch s r p
  unfold ownOpenBatch at kept ⊢
  dsimp only at kept ⊢
  split
  · unfold ownOpenFirst
    split
    · split
      · next h => exact .trans (runs_claim _ h) (runs_opened _ (bounded_openedWorkspace _ _ _) rfl rfl)
      · exact .refl _
    · exact .refl _
  · next h0 =>
    rw [if_neg h0] at kept
    split
    · exact runs_abort _ _ _
    · next h4 =>
      rw [if_neg h4] at kept
      split
      · next hl =>
        rw [hl] at kept
        exact .frame kept (core_setWs s (by rfl)).symm
      · exact runs_abort _ _ _

theorem runs_ownCloseBatch (r : Requester) (p : List Byte) : Runs s (ownCloseBatch s r p).1 := by
  refine .frame (kept_ownCloseBatch s r p) ?_
  unfold ownCloseBatch
  dsimp only
  split
  · rfl
  · split
    · rfl
    · split <;> exact (core_setWs s (by rfl)).symm

theorem runs_ownAbandonBatch (r : Requester) (p : List Byte) : Runs s (ownAbandonBatch s r p).1 := by
  unfold ownAbandonBatch
  dsimp only
  split
  · exact .refl _
  · split
    · split
      · exact runs_endEarly _ _ _
      · exact .refl _
    · exact .refl _

/-- An edit that passes the workspace's controls in a DEFERRED batch is one of a slot (R106). -/
theorem slot_of_controlFailure {w : Workspace} {a : Bool} {e : Edit} (h : controlFailure w a e = none)
    (hm : w.mode = .deferred) : ∃ d, e = .slot d := by
  cases e with
  | slot d => exact ⟨d, rfl⟩
  | create _ _ | amend _ | retire _ | setLeg _ => simp [controlFailure, hm] at h

theorem immediate_of_controlFailure {w : Workspace} {a : Bool} {n : Nat} {c : CreateFields}
    (h : controlFailure w a (.create n c) = none) : w.mode = .immediate := by
  cases hm : w.mode with
  | immediate => rfl
  | deferred =>
    obtain ⟨d, hd⟩ := slot_of_controlFailure h hm
    cases hd

theorem ws_of_ws {s t : State} (h : s.siteWs = t.siteWs ∧ s.netWs = t.netWs) (r : Requester) : s.ws r = t.ws r := by
  cases r
  · exact h.1
  · exact h.2

theorem runs_arrive {r : Requester} {a : Bool} {e : Edit} (hd : e.distinct) {x : Nat × State}
    (h : s.arrive r a e = .ok x) : Runs s x.2 := by
  have kept := kept_arrive s h
  unfold State.arrive at h
  dsimp only at h
  split at h
  · cases h
  · next hc =>
    split at h
    · cases h
    · split at h
      · cases h
      · split at h
        · split at h
          · cases h
          · next hr =>
            cases h
            refine ⟨kept, fun P l c p => ?_⟩
            have ready := (runs_settleCtab s).2 P l c p
            rw [← ws_settleCtab s r]
            refine l.create s.settleCtab r _ _ _ ((kept_settleCtab s).canonical c) ?_ hd hr ready
            rw [ws_settleCtab]
            exact immediate_of_controlFailure hc
        all_goals
          cases h
          exact ⟨kept, fun _ l _ p => l.hold _ _ _ (by simp) (slot_of_controlFailure hc) p⟩

theorem runs_arriveSent {r : Requester} {a : Bool} {e : Option Edit} (hd : ∀ d, e = some d → d.distinct)
    {x : Nat × State} (h : s.arriveSent r a e = .ok x) : Runs s x.2 := by
  unfold State.arriveSent at h
  split at h
  · cases h
  · split at h
    · next hx => cases h; exact runs_arrive _ (hd _ rfl) hx
    · cases h

/-- The field check of a CREATE RECORD passes distinct source PIDs only (R107). -/
theorem distinct_checkCreate {a i n c g k : Nat} {l : List (Nat × Nat)} {fb lw rh ar : Option Nat} {e : Edit}
    (h : checkCreate a i n c g l k fb lw rh ar = some e) : e.distinct := by
  simp only [checkCreate, Option.bind_eq_bind, Option.bind_eq_some_iff] at h
  obtain ⟨cls, -, cs, -, ret, -, h⟩ := h
  split at h
  · next hc =>
    cases h
    simp only [Bool.and_eq_true, componentsOk, decide_eq_true_eq] at hc
    exact hc.1.1.1.1.2.2
  · cases h

theorem distinct_checkSetLeg {a f : Nat} {st ac ca si dp de wa : Option Nat} {e : Edit}
    (h : checkSetLeg a f st ac ca si dp de wa = some e) : e.distinct := by
  unfold checkSetLeg at h
  cases st
  all_goals
    obtain ⟨_, -, h⟩ := Option.bind_eq_some_iff.1 h
    split at h <;> cases h
    trivial

/-- The parameters of an edit spell distinct source PIDs, or no edit (R107). -/
theorem distinct_getEdit {k : Nat} {p q : List Byte} {e : SentEdit} (h : getEdit k p = some (e, q)) :
    ∀ d, e.edit = some d → d.distinct := by
  intro d hd
  unfold getEdit at h
  split at h
  · unfold getCreate at h
    iterate 12 obtain ⟨_, -, h⟩ := Option.bind_eq_some_iff.1 h
    cases h
    exact distinct_checkCreate hd
  · simp only [getAmend, Option.bind_eq_bind, Option.bind_eq_some_iff] at h
    obtain ⟨_, -, _, -, _, -, _, -, _, -, _, -, _, -, _, -, h⟩ := h
    cases h
    simp only [checkAmend, Option.bind_eq_bind, Option.bind_eq_some_iff] at hd
    obtain ⟨_, -, hd⟩ := hd
    split at hd <;> cases hd
    trivial
  · simp only [getRetire, Option.bind_eq_bind, Option.bind_eq_some_iff] at h
    obtain ⟨_, -, h⟩ := h
    cases h
    dsimp only at hd
    split at hd <;> cases hd
    trivial
  · simp only [getBind, Option.bind_eq_bind, Option.bind_eq_some_iff] at h
    obtain ⟨_, -, _, -, _, -, _, -, _, -, h⟩ := h
    cases h
    simp only [checkBind] at hd
    split at hd <;> cases hd
    trivial
  · simp only [getUnbind, Option.bind_eq_bind, Option.bind_eq_some_iff] at h
    obtain ⟨_, -, _, -, h⟩ := h
    cases h
    simp only [checkUnbind] at hd
    split at hd <;> cases hd
    trivial
  · unfold getSetLeg at h
    iterate 9 obtain ⟨_, -, h⟩ := Option.bind_eq_some_iff.1 h
    cases h
    exact distinct_checkSetLeg hd
  · cases h

theorem distinct_parseEdit {k : Nat} {p : List Byte} {d : Edit} (h : parseEdit k p = some d) : d.distinct := by
  unfold parseEdit at h
  split at h
  · next hg => exact distinct_getEdit hg _ h
  · cases h

theorem distinct_getEdits {n : Nat} {p q : List Byte} {es : List SentEdit} (h : getEdits n p = some (es, q)) :
    ∀ e ∈ es, ∀ d, e.edit = some d → d.distinct := by
  induction n generalizing p q es with
  | zero => cases h; simp
  | succ n ih =>
    simp only [getEdits, Option.bind_eq_bind, Option.bind_eq_some_iff] at h
    obtain ⟨_, -, ⟨e, _⟩, he, ⟨l, _⟩, hl, h⟩ := h
    cases h
    rintro x (_ | ⟨_, hx⟩)
    · exact distinct_getEdit he
    · exact ih hl x hx

theorem distinct_parseApply {p : List Byte} {es : List SentEdit} (h : parseApply p = some es) :
    ∀ e ∈ es, ∀ d, e.edit = some d → d.distinct := by
  unfold parseApply at h
  split at h
  · split at h
    · split at h
      · next hg => cases h; exact distinct_getEdits hg
      · cases h
    · cases h
  · cases h

theorem runs_ownEdit (k : Nat) (r : Requester) (p : List Byte) : Runs s (ownEdit k s r p).1 := by
  unfold ownEdit
  split
  · exact .refl _
  · split
    · exact runs_abort _ _ _
    · next hx => exact runs_arriveSent _ (fun _ => distinct_parseEdit) hx

theorem Runs.of_eq {α : Type} {s t : State} {x : State × α} {y : α} (h : x = (t, y)) (k : Runs s x.1) : Runs s t := by
  rw [h] at k
  exact k

theorem runs_arriveAll (r : Requester) (l : List SentEdit) (hd : ∀ e ∈ l, ∀ d, e.edit = some d → d.distinct)
    (hs : List Nat) : Runs s (s.arriveAll r l hs).1 := by
  induction l generalizing s hs with
  | nil => exact .refl _
  | cons e l ih =>
    unfold State.arriveAll
    split
    · exact .refl _
    · next hx =>
      exact .trans (runs_arriveSent _ (hd e (by simp)) hx) (ih _ (fun e he => hd e (List.mem_cons_of_mem _ he)) _)

theorem runs_ownApply (r : Requester) (p : List Byte) : Runs s (ownApply s r p).1 := by
  unfold ownApply
  split
  · unfold ownApplyAlone
    split
    · exact .refl _
    · next es hp =>
      split
      · exact .refl _
      · dsimp only
        split
        · exact .refl _
        · next t hc =>
          have opens : Runs t (t.setWs r (applyWorkspace (feedsNamed es))) :=
            runs_opened _ (bounded_applyWorkspace _) rfl rfl
          refine .trans (runs_claim _ hc) (.trans opens ?_)
          split
          · next he =>
            exact .trans (.of_eq he (runs_arriveAll _ _ _ (distinct_parseApply hp) _)) (runs_abort _ _ _)
          · next he =>
            exact .trans (.of_eq he (runs_arriveAll _ _ _ (distinct_parseApply hp) _))
              (runs_setWs_core _ (Workspace.bounded_of rfl rfl rfl) rfl)
  · unfold ownApplyInside
    split
    · exact runs_abort _ _ _
    · next hp =>
      split
      · next he => exact .trans (.of_eq he (runs_arriveAll _ _ _ (distinct_parseApply hp) _)) (runs_abort _ _ _)
      · next he => exact .of_eq he (runs_arriveAll _ _ _ (distinct_parseApply hp) _)

/-! ### Direct requests -/

/-- An owner that does nothing but acts, whatever it is sent. -/
def RunsOwner (o : Owner) : Prop := ∀ s r p, Runs s (o s r p).1

/-- An owner that changes nothing the laws read. -/
theorem runsOwner_frame {o : Owner} (k : KeepsOwner o) (h : ∀ s r p, (o s r p).1.core = s.core) : RunsOwner o :=
  fun s r p => .frame (k s r p) (h s r p).symm

theorem runs_cancelSplice : RunsOwner ownCancelSplice := by
  intro s r p
  unfold ownCancelSplice
  split
  · split
    · dsimp only
      split
      · exact runs_spsReady _
      · split
        · exact runs_spsReady _
        · next e _ _ _ hs =>
          refine .trans (runs_spsReady _) (runs_cancelEntry _ ?_)
          generalize (s.spsReady.entry e).state = st at hs ⊢
          cases st <;> simp_all [EntryState.stage]
    · exact .refl _
  · exact .refl _

theorem runs_resumeSlot : RunsOwner ownResumeSlot := by
  intro s r p
  unfold ownResumeSlot
  split
  · split
    · split
      · exact .refl _
      · split
        · next hm =>
          exact .trans (runs_applyMove _ (fun _ => law_resumeMove _ hm) (maySource_resumeMove _ hm))
            (runs_takeReports _)
        · exact .refl _
    · exact .refl _
  · exact .refl _

theorem runs_armProbe : RunsOwner ownArmProbe := by
  intro s r p
  unfold ownArmProbe
  split
  · split
    · dsimp only
      split
      · next hx =>
        split
        · exact runs_settleCtab _
        · exact .trans (runs_settleCtab _) (runs_touch _ hx rfl)
      · exact runs_settleCtab _
    · exact .refl _
  · exact .refl _

theorem runs_setInputOwner : RunsOwner ownSetInput := by
  refine runsOwner_frame keeps_setInput fun s r p => ?_
  unfold ownSetInput
  split
  · rfl
  · dsimp only
    split
    · rfl
    · split <;> rfl

theorem runs_setLegOwner : RunsOwner ownSetLegOwner := by
  refine runsOwner_frame keeps_setLegOwner fun s r p => ?_
  unfold ownSetLegOwner
  repeat' split
  all_goals rfl

theorem runs_setStationTime : RunsOwner ownSetStationTime := by
  intro s r p
  unfold ownSetStationTime
  split
  · split
    · exact runs_setClock _ _
    · exact .refl _
  · exact .refl _

theorem runs_setBatchLimit : RunsOwner ownSetBatchLimit := by
  refine runsOwner_frame keeps_setBatchLimit fun s r p => ?_
  unfold ownSetBatchLimit
  repeat' split
  all_goals rfl

theorem runs_setRelay : RunsOwner ownSetRelay := by
  refine runsOwner_frame keeps_setRelay fun s r p => ?_
  unfold ownSetRelay
  split <;> rfl

theorem runs_setCounterPair : RunsOwner ownSetCounterPair := by
  refine runsOwner_frame keeps_setCounterPair fun s r p => ?_
  unfold ownSetCounterPair
  repeat' split
  all_goals rfl

theorem runs_setAttentionMask : RunsOwner ownSetAttentionMask := by
  refine runsOwner_frame keeps_setAttentionMask fun s r p => ?_
  unfold ownSetAttentionMask
  repeat' split
  all_goals rfl

theorem runs_clearAttention : RunsOwner ownClearAttention := by
  refine runsOwner_frame keeps_clearAttention fun s r p => ?_
  unfold ownClearAttention
  repeat' split
  all_goals rfl

theorem runs_readRecord : RunsOwner ownReadRecord := by
  intro s r p
  unfold ownReadRecord
  split
  · exact .trans (runs_settleCtab _) (runs_ite (runs_modTouch _ _ _ (by intro _; rfl)) (.refl _))
  · exact .refl _

theorem runs_findRecord : RunsOwner ownFindRecord := by
  intro s r p
  unfold ownFindRecord
  split
  · split
    · exact runs_settleCtab _
    · exact .refl _
  · exact .refl _

theorem runs_listRecords : RunsOwner ownListRecords := by
  intro s r p
  unfold ownListRecords
  split
  · split
    · exact runs_settleCtab _
    · exact .refl _
  · exact .refl _

theorem runs_readLeg : RunsOwner ownReadLeg := by
  refine runsOwner_frame keeps_readLeg fun s r p => ?_
  unfold ownReadLeg
  repeat' split
  all_goals rfl

theorem runs_readSlot : RunsOwner ownReadSlot := by
  refine runsOwner_frame keeps_readSlot fun s r p => ?_
  unfold ownReadSlot
  repeat' split
  all_goals rfl

theorem runs_readSplice : RunsOwner ownReadSplice := by
  intro s r p
  unfold ownReadSplice
  split
  · split
    · exact runs_spsReady _
    · exact .refl _
  · exact .refl _

theorem runs_readOutcome : RunsOwner ownReadOutcome := by
  refine runsOwner_frame keeps_readOutcome fun s r p => ?_
  unfold ownReadOutcome
  split <;> rfl

theorem core_clearPairs (f : Nat) : (s.clearPairs f).core = s.core :=
  foldl_same (fun t => t.core)
    (fun s n => s.setPair (8 * f + n) { s.pair (8 * f + n) with network := 0, regional := 0 })
    (fun _ _ => rfl) _ _

theorem runs_readCounters : RunsOwner ownReadCounters := by
  refine runsOwner_frame keeps_readCounters fun s r p => ?_
  unfold ownReadCounters
  split
  · dsimp only
    split
    · exact core_clearPairs _ _
    · rfl
  · dsimp only
    split <;> rfl
  · rfl

theorem runs_readInput : RunsOwner ownReadInput := by
  refine runsOwner_frame keeps_readInput fun s r p => ?_
  unfold ownReadInput
  repeat' split
  all_goals rfl

theorem runs_queryCarriage : RunsOwner ownQueryCarriage := by
  refine runsOwner_frame keeps_queryCarriage fun s r p => ?_
  unfold ownQueryCarriage
  repeat' split
  all_goals rfl

theorem runs_readAttention : RunsOwner ownReadAttention := by
  refine runsOwner_frame keeps_readAttention fun s r p => ?_
  unfold ownReadAttention
  split <;> rfl

theorem runs_readRelay : RunsOwner ownReadRelay := by
  refine runsOwner_frame keeps_readRelay fun s r p => ?_
  unfold ownReadRelay
  split <;> rfl

/-! ### The port -/

theorem runs_post (q : NetFlight) (y : Reply) : Runs s (s.post q y) := by
  unfold State.post
  dsimp only
  split
  · refine .trans ?_ (runs_raise _ _ _)
    exact .aside rfl rfl
  · exact .aside rfl rfl

theorem runs_answer (r : Requester) (k : Byte) (a : Answer) : Runs s (s.answer r k a) := by
  unfold State.answer
  split
  · exact .aside rfl rfl
  · split
    · exact runs_post _ _ _
    · exact .refl _

theorem runs_takeRequest (r : Requester) : Runs s (s.takeRequest r) :=
  .trans (runs_settleIdle _) (runs_restartIdle _ _)

theorem runs_handBatch (r : Requester) (k : Byte) {o : State → Requester → List Byte → State × Option Answer}
    (ho : ∀ s r p, Runs s (o s r p).1) (p : List Byte) : Runs s (s.handBatch r k o p) := by
  unfold State.handBatch
  have h := Runs.trans (runs_takeRequest s r) (ho (s.takeRequest r) r p)
  split
  · next he =>
    rw [he] at h
    exact .trans h (runs_answer _ _ _ _)
  · next he =>
    rw [he] at h
    split
    · exact .trans h (.aside rfl rfl)
    · exact h

theorem runs_handDirect (r : Requester) (k : Byte) {o : Owner} (ho : RunsOwner o) (p : List Byte) :
    Runs s (s.handDirect r k o p) :=
  .trans (.trans (runs_takeRequest _ _) (ho _ _ _)) (runs_answer _ _ _ _)

theorem runs_transact (k : Byte) (f : Frame) {hand : State → List Byte → State} (hh : ∀ s p, Runs s (hand s p)) :
    Runs s (s.transact k f hand) := by
  unfold State.transact State.whenRunning
  split
  · dsimp only
    split
    · exact .aside rfl rfl
    · exact .aside rfl rfl
    · exact .aside rfl rfl
    · refine .trans ?_ (hh _ _)
      exact .aside rfl rfl
  · exact .refl _

theorem runs_siteBatch (k : Byte) {o : State → Requester → List Byte → State × Option Answer}
    (ho : ∀ s r p, Runs s (o s r p).1) (f : Frame) : Runs s (siteBatch k o f s) :=
  runs_transact _ _ _ fun _ _ => runs_handBatch _ _ _ ho _

theorem runs_siteDirect (k : Byte) {o : Owner} (ho : RunsOwner o) (f : Frame) : Runs s (siteDirect k o f s) :=
  runs_transact _ _ _ fun _ _ => runs_handDirect _ _ _ ho _

theorem runs_handNetwork (k : Byte) (p : List Byte) : Runs s (s.handNetwork k p) := by
  have edit : ∀ n, Runs s (s.handBatch .network k (ownEdit n) p) := fun n =>
    runs_handBatch _ _ _ (fun s => runs_ownEdit s n) _
  unfold State.handNetwork
  split
  · exact runs_handBatch _ _ _ runs_ownOpenBatch _
  · exact runs_handBatch _ _ _ runs_ownCloseBatch _
  · exact runs_handBatch _ _ _ runs_ownAbandonBatch _
  · exact runs_handBatch _ _ _ runs_ownApply _
  · exact edit _
  · exact edit _
  · exact edit _
  · exact edit _
  · exact edit _
  · exact edit _
  · exact runs_handDirect _ _ _ runs_cancelSplice _
  · exact runs_handDirect _ _ _ runs_resumeSlot _
  · exact runs_handDirect _ _ _ runs_queryCarriage _
  · exact runs_handDirect _ _ _ (fun s _ _ => .refl s) _

theorem runs_queue {q : List Command} (h : q.length ≤ s.netQueue.length ∨ q.length ≤ Config.queuePlaces) :
    Runs s { s with netQueue := q } := .frame (kept_queue _ h) rfl

theorem runs_runCommand (c : Command) : Runs s (s.runCommand c) := by
  unfold State.runCommand
  dsimp only
  split
  · refine .trans ?_ (runs_handNetwork _ _ _)
    exact .aside rfl rfl
  · refine .trans ?_ (runs_post _ _ _)
    exact .aside rfl rfl

theorem runs_takeHead : Runs s s.takeHead := by
  unfold State.takeHead
  split
  · next hq =>
    exact runs_ite (.trans (runs_queue _ (.inl (by simp [hq]))) (runs_runCommand _ _)) (.refl _)
  · exact .refl _

theorem runs_awake {act : State → State} (h : ∀ s, Runs s (act s)) : Runs s (s.awake act) :=
  runs_ite (.refl _) (h _)

theorem runs_commitAnswered (r : Requester) : Runs s (s.commitAnswered r) := by
  have act : ∀ s : State, Runs s (s.commitAct r) := by
    intro s
    unfold State.commitAct
    split
    · exact runs_commit _ _
    · exact .trans (runs_spsReady _) (runs_commit _ _)
  unfold State.commitAnswered
  dsimp only
  split
  · exact .trans (runs_settleIdle _) (.trans (act _) (runs_answer _ _ _ _))
  · exact runs_settleIdle _

/-! ### Inputs -/

theorem runs_smap {m : Table MapEntry} (k : Kept s { s with smap := m })
    (h : ∀ k, (Table.find? m k).map (·.place) = (Table.find? s.smap k).map (·.place))
    (hl : m.length = s.smap.length) : Runs s { s with smap := m } :=
  ⟨k, fun _ l c p => l.smap _ _ c h hl p⟩

/-- Reading after a change of every listed value. -/
theorem Table.find?_map {α β : Type} (t : Table α) (g : Nat → α → β) (k : Nat) :
    Table.find? (t.map fun c => (c.1, g c.1 c.2)) k = (Table.find? t k).map (g k) := by
  induction t with
  | nil => rfl
  | cons c t ih =>
    obtain ⟨j, v⟩ := c
    simp only [List.map_cons, Table.find?]
    split
    · next h => rw [h]; rfl
    · exact ih

/-- A stream map entry of key `k` as `forgetCounts i` leaves it. -/
def MapEntry.forget (i k : Nat) (m : MapEntry) : MapEntry :=
  if k / 8192 = i then { m with lastCount := none } else m

theorem MapEntry.place_forget (i k : Nat) (m : MapEntry) : (m.forget i k).place = m.place := by
  unfold MapEntry.forget
  split <;> rfl

theorem forgetCounts_eq (i : Nat) :
    s.forgetCounts i = { s with smap := s.smap.map fun c => (c.1, c.2.forget i c.1) } := by
  unfold State.forgetCounts MapEntry.forget
  congr 2
  funext c
  split <;> rfl

theorem runs_forgetCounts (i : Nat) : Runs s (s.forgetCounts i) := by
  have kept := kept_forgetCounts s i
  rw [forgetCounts_eq] at kept ⊢
  refine runs_smap _ kept (fun k => ?_) (List.length_map ..)
  rw [Table.find?_map _ fun n m => MapEntry.forget i n m, Option.map_map]
  exact congrArg (fun g => (Table.find? s.smap k).map g) (funext fun m => MapEntry.place_forget i k m)

theorem runs_examineBytes (i : Nat) (l : List Byte) : Runs s (s.examineBytes i l) := by
  unfold State.examineBytes
  dsimp only
  split
  · next he =>
    simp only [Bool.and_eq_true] at he
    split
    · exact runs_setInput _ fun h => law_examines l h he.1
    · have first : Runs s (s.setInput i { l.foldl Input.examine (s.input i) with lost := false }) :=
        runs_setInput _ fun h => law_examines l h he.1
      exact runs_ite (first.trans (runs_forgetCounts _ _)) first
  · exact .refl _

theorem runs_missSync (i : Nat) (l : List Byte) : Runs s (s.missSync i l) := by
  unfold State.missSync
  dsimp only
  split
  · next he =>
    simp only [Bool.and_eq_true, beq_iff_eq] at he
    split
    · exact .trans (runs_setInput _ fun _ => law_lostSync _) (runs_examineBytes _ _ _)
    · exact runs_setInput _ fun h => ⟨h.1, h.2.1, h.2.2.1, fun _ => he.2⟩
  · exact .refl _

theorem runs_cuePacket (i : Nat) (p : List Byte) : Runs s (s.cuePacket i p) := by
  unfold State.cuePacket
  split
  · split
    · exact .trans (runs_countInput _ _ _) (runs_takeCue _ _)
    · exact runs_countInput _ _ _
  · exact .refl _

theorem runs_commandPacket (i : Nat) (p : List Byte) : Runs s (s.commandPacket i p) := by
  refine .frame (kept_commandPacket s i p) ?_
  unfold State.commandPacket
  split
  · split
    · split
      · exact (core_raise (s.countInput i InputCounters.incCommandsDropped) .networkQueueFull i).symm
      · rfl
    · rfl
  · rfl

theorem Table.length_put_of_find? {α : Type} {t : Table α} {k : Nat} {v : α} (hr : Table.rising t = true)
    (h : Table.find? t k = some v) (w : α) : (Table.put t k w).length = t.length := by
  induction t with
  | nil => cases h
  | cons c t ih =>
    obtain ⟨j, u⟩ := c
    rw [Table.rising_iff, List.pairwise_cons] at hr
    simp only [Table.find?] at h
    simp only [Table.put]
    split at h
    · next e => simp [e]
    · next hne =>
      have hj := hr.1 _ (Table.find?_mem t k v h)
      rw [if_neg (Nat.not_lt.2 (Nat.le_of_lt hj)), if_neg (fun e => hne e.symm)]
      simp only [List.length_cons]
      rw [ih ((Table.rising_iff t).2 hr.2) h]

theorem runs_continuity {i k : Nat} {m : MapEntry} (p : List Byte) (hm : Table.find? s.smap k = some m) :
    Runs s (s.continuity i k m p) := by
  have put : ∀ n, Runs s { s with smap := Table.put s.smap k { m with lastCount := n } } := by
    intro n
    refine ⟨fun _ c q => c.smap _ _ (Table.rising_put _ _ _) q, fun P l c q => l.smap _ _ c (fun j => ?_) ?_ q⟩
    · rw [Table.find?_put]
      split
      · next e => rw [← e, hm]; rfl
      · rfl
    · exact Table.length_put_of_find? c.2.1 hm _
  unfold State.continuity
  split
  · exact runs_ite (.trans (put _) (runs_countInput _ _ _)) (put _)
  · exact .refl _

theorem runs_matchedPacket (h k : Nat) (p : List Byte) : Runs s (s.matchedPacket h k p) := by
  unfold State.matchedPacket
  dsimp only
  refine .trans (runs_notePacket s h k p) ?_
  split
  · exact .trans (runs_sight _ _ _) (.frame (kept_makeCopies _ _ _ _ _) (core_makeCopies _ _ _ _ _).symm)
  · exact .refl _

theorem runs_lookup (i : Nat) (p : List Byte) : Runs s (s.lookup i p) := by
  unfold State.lookup
  dsimp only
  split
  · next hm => exact .trans (runs_continuity _ _ (Option.filter_eq_some_iff.1 hm).1) (runs_matchedPacket _ _ _ _)
  · exact runs_countInput _ _ _

theorem runs_classify (i : Nat) (p : List Byte) : Runs s (s.classify i p) := by
  unfold State.classify
  dsimp only
  refine runs_ite (runs_countInput _ _ _) (runs_ite (.refl _) (runs_ite (runs_cuePacket _ _ _) ?_))
  exact runs_ite (runs_commandPacket _ _ _) (runs_lookup _ _ _)

theorem runs_deliver (i : Nat) (p : List Byte) : Runs s (s.deliver i p) :=
  runs_ite (.trans (runs_setInput _ (law_clearMiss _)) (runs_classify _ _ _)) (.refl _)

/-! ### Every command, every step -/

theorem runs_reset {t : State} (h : State.stores { State.reset with pending := s.pending } = t.stores)
    (hu : t.updates = []) : Runs s t := by
  refine ⟨kept_reset_of _ h, fun _ l _ _ => l.reset _ ?_⟩
  simp only [State.stores, Prod.mk.injEq] at h
  obtain ⟨-, hm, hr, -, hs, -, -, -, ⟨hw, hn⟩, ⟨he, -, -⟩, -⟩ := h
  unfold State.core
  rw [← hr, ← hm, ← hs, hu, ← he, ← hw, ← hn]
  rfl

theorem runs_notices (l : List Notice) : Runs s { s with notices := l } := .aside rfl rfl

theorem runs_outputs {t : State} (k : Kept s t) (h : t.core = s.core) : Runs s t := .frame k h.symm

theorem runs_exec {c : Instr} {t : State} (h : exec c s = .next t) : Runs s t := by
  have ok : ∀ {a b : State}, (.next a : Host.Outcome State Fault Refusal) = .next b → Runs s a → Runs s b :=
    fun e k => by injection e with e; exact e ▸ k
  have edit : ∀ k n f, Runs s (siteBatch k (ownEdit n) f s) := fun k n f =>
    runs_siteBatch _ _ (fun s => runs_ownEdit s n) f
  cases c <;> simp only [exec] at h
  case openBatch => exact ok h (runs_siteBatch _ _ runs_ownOpenBatch _)
  case closeBatch => exact ok h (runs_siteBatch _ _ runs_ownCloseBatch _)
  case abandonBatch => exact ok h (runs_siteBatch _ _ runs_ownAbandonBatch _)
  case apply => exact ok h (runs_siteBatch _ _ runs_ownApply _)
  case createRecord => exact ok h (edit _ _ _)
  case amendRecord => exact ok h (edit _ _ _)
  case retireRecord => exact ok h (edit _ _ _)
  case bindSlot => exact ok h (edit _ _ _)
  case unbindSlot => exact ok h (edit _ _ _)
  case setLeg => exact ok h (edit _ _ _)
  case batchIdleExpired => exact ok h (runs_awake _ fun s => (runs_settleIdle s).trans (runs_expireIdle _ _))
  case commitAct => exact ok h (runs_awake _ fun s => runs_commitAnswered s _)
  case cancelSplice => exact ok h (runs_siteDirect _ _ runs_cancelSplice _)
  case resumeSlot => exact ok h (runs_siteDirect _ _ runs_resumeSlot _)
  case armProbe => exact ok h (runs_siteDirect _ _ runs_armProbe _)
  case setInput => exact ok h (runs_siteDirect _ _ runs_setInputOwner _)
  case setLegOwner => exact ok h (runs_siteDirect _ _ runs_setLegOwner _)
  case setStationTime => exact ok h (runs_siteDirect _ _ runs_setStationTime _)
  case setBatchLimit => exact ok h (runs_siteDirect _ _ runs_setBatchLimit _)
  case setRelay => exact ok h (runs_siteDirect _ _ runs_setRelay _)
  case setCounterPair => exact ok h (runs_siteDirect _ _ runs_setCounterPair _)
  case setAttentionMask => exact ok h (runs_siteDirect _ _ runs_setAttentionMask _)
  case clearAttention => exact ok h (runs_siteDirect _ _ runs_clearAttention _)
  case readRecord => exact ok h (runs_siteDirect _ _ runs_readRecord _)
  case findRecord => exact ok h (runs_siteDirect _ _ runs_findRecord _)
  case listRecords => exact ok h (runs_siteDirect _ _ runs_listRecords _)
  case readLeg => exact ok h (runs_siteDirect _ _ runs_readLeg _)
  case readSlot => exact ok h (runs_siteDirect _ _ runs_readSlot _)
  case readSplice => exact ok h (runs_siteDirect _ _ runs_readSplice _)
  case readOutcome => exact ok h (runs_siteDirect _ _ runs_readOutcome _)
  case readCounters => exact ok h (runs_siteDirect _ _ runs_readCounters _)
  case readInput => exact ok h (runs_siteDirect _ _ runs_readInput _)
  case queryCarriage => exact ok h (runs_siteDirect _ _ runs_queryCarriage _)
  case readAttention => exact ok h (runs_siteDirect _ _ runs_readAttention _)
  case readRelay => exact ok h (runs_siteDirect _ _ runs_readRelay _)
  case clearAll =>
    refine ok h (runs_transact _ _ _ fun s p => ?_)
    dsimp only
    split
    · exact .trans (runs_takeRequest _ _) (.aside rfl rfl)
    · exact .trans (runs_takeRequest _ _) (runs_answer _ _ _ _)
  case clearingAct => exact ok h (runs_awake _ fun s => runs_ite (runs_reset _ rfl rfl) (.refl _))
  case unknownRequest =>
    unfold execUnknownRequest at h
    split at h
    · cases h
    · exact ok h (runs_transact _ _ _ fun s p => .aside rfl rfl)
  case statusPoll =>
    unfold execStatusPoll at h
    split at h
    · exact ok h (runs_ite (.aside rfl rfl) (.refl _))
    · cases h
  case replyRead => exact ok h (runs_ite (.aside rfl rfl) (.refl _))
  case resetnAsserted => exact ok h (runs_reset _ rfl rfl)
  case resetnReleased => exact ok h (runs_ite (runs_reset _ rfl rfl) (.refl _))
  case queueHeadTaken => exact ok h (runs_awake _ runs_takeHead)
  case syncAcquired =>
    unfold execSyncAcquired at h
    split at h
    · exact ok h (runs_awake _ fun s => runs_examineBytes s _ _)
    · cases h
  case syncCandidateGivenUp =>
    unfold execSyncCandidateGivenUp at h
    split at h
    · exact ok h (runs_awake _ fun s => runs_examineBytes s _ _)
    · cases h
  case missingSyncByte =>
    unfold execMissingSyncByte at h
    split at h
    · split at h
      · exact ok h (runs_awake _ fun s => runs_missSync s _ _)
      · cases h
    · cases h
  case packetReceived =>
    unfold execPacketReceived at h
    split at h
    · split at h
      · exact ok h (runs_awake _ fun s => runs_deliver s _ _)
      · cases h
    · cases h
  case lossWindowExpired =>
    unfold execLossWindowExpired at h
    split at h
    · exact ok h (runs_awake _ fun s => .trans (runs_settleCtab s) (runs_expireWindow _ _))
    · cases h
  case restoreHoldEnded =>
    unfold execRestoreHoldEnded at h
    split at h
    · exact ok h (runs_awake _ fun s => .trans (runs_settleCtab s) (runs_endHold _ _))
    · cases h
  case lossNotice =>
    refine ok h (runs_awake _ fun s => ?_)
    split
    · exact .trans (runs_notices _ _) (runs_takeLoss _ _)
    all_goals exact .refl _
  case restorationNotice =>
    refine ok h (runs_awake _ fun s => ?_)
    split
    · exact .trans (runs_notices _ _) (runs_takeRestoration _ _)
    all_goals exact .refl _
  case onAirUpdate =>
    refine ok h (runs_awake _ fun s => .trans (runs_settleCtab s) ?_)
    dsimp only
    split
    · next hu => exact runs_takeFirst _ hu
    · exact .refl _
  case switchDeadlineExpired =>
    unfold execSwitchDeadlineExpired at h
    split at h
    · exact ok h (runs_awake _ fun s => runs_expireDeadline s _ _)
    · cases h
  case outputOpportunity =>
    unfold execOutputOpportunity at h
    split at h
    · exact ok h (runs_awake _ fun s =>
        runs_ite (.refl _) (runs_outputs _ (kept_sendPacket _ _) (core_sendPacket _ _)))
    · cases h
  case directoryPeriodExpired =>
    unfold execDirectoryPeriodExpired at h
    split at h
    · refine ok h (runs_awake _ fun s => runs_outputs _ (kept_expirePeriod _ _) ?_)
      unfold State.expirePeriod
      split
      · split
        · exact core_startDirectory _ _
        · rfl
      · rfl
    · cases h
  case stationClockTick =>
    refine ok h (runs_awake _ fun s => .trans (runs_spsReady s) (.trans ?_
      (.trans (runs_testClock _) (runs_takeReports _))))
    exact .aside rfl rfl
  case cueMatured =>
    refine ok h (runs_awake _ fun s => .trans (runs_spsReady s) ?_)
    dsimp only
    split
    · exact .trans (runs_cues _ (.inl (List.length_erase_le ..))) (.trans (runs_offerCue _ _) (runs_takeReports _))
    · exact .refl _
  case timeMatcherOccurs =>
    unfold execTimeMatcherOccurs at h
    split at h
    · exact ok h (runs_awake _ fun s =>
        runs_ite (.trans (runs_timeOccurs s _ _) (runs_takeReports _)) (.refl _))
    · cases h
  case resetReleaseTimeElapsed => exact ok h (runs_ite (.aside rfl rfl) (.refl _))

/-- Every step that gives a next state keeps a lawful law, on tables in their canonical form. -/
theorem runs_step {P : State → Prop} (l : Lawful P) {s t : State} (c : s.canonical) (p : P s)
    (h : step s = .next t) : P t := by
  unfold step at h
  split at h
  · injection h with h
    exact h ▸ p
  · exact (runs_exec _ h).2 P l c (l.frame s _ rfl p)

end Sys2Proof.Machine
end

