-- ==== Sys2Proof/Proofs/Effects.lean ====
section
/-! What the shared operations do to the records, the slots and the splice entries, said once: what is read after
them, and that they write nothing else; and the counts over tables, by what each key holds. -/

namespace Sys2Proof.Machine

/-! ### Tables -/

section
variable {α β : Type}

theorem Table.find?_filter {t : Table α} (hr : Table.rising t = true) (p : Nat × α → Bool) (k : Nat) :
    Table.find? (t.filter p : Table α) k = (Table.find? t k).filter fun v => p (k, v) := by
  induction t with
  | nil => rfl
  | cons c t ih =>
    obtain ⟨j, v⟩ := c
    rw [Table.rising_iff, List.pairwise_cons] at hr
    have ih := ih ((Table.rising_iff t).2 hr.2)
    by_cases hjk : j = k
    · subst hjk
      have absent : Table.find? t j = none := by
        cases h : Table.find? t j with
        | none => rfl
        | some w => exact absurd (hr.1 _ (Table.find?_mem t j w h)) (Nat.lt_irrefl _)
      by_cases hp : p (j, v) = true
      · simp [Table.find?, hp, Option.filter]
      · simp [Table.find?, hp, ih, absent, Option.filter]
    · by_cases hp : p (j, v) = true
      · simp [Table.find?, hp, hjk, ih]
      · simp [Table.find?, hp, hjk, ih]

/-- A sum over the listed values is a sum over the keys. -/
theorem Table.sum_eq {t : Table α} (hr : Table.rising t = true) (g : α → Nat) {N : Nat}
    (hN : ∀ c ∈ t, c.1 < N) :
    (t.map fun c => g c.2).sum = ∑ k ∈ Finset.range N, (Table.find? t k).elim 0 g := by
  induction t with
  | nil => simp [Table.find?]
  | cons c t ih =>
    obtain ⟨j, v⟩ := c
    rw [Table.rising_iff, List.pairwise_cons] at hr
    have absent : Table.find? t j = none := by
      cases h : Table.find? t j with
      | none => rfl
      | some w => exact absurd (hr.1 _ (Table.find?_mem t j w h)) (Nat.lt_irrefl _)
    have split : ∀ k, (Table.find? ((j, v) :: t : Table α) k).elim 0 g
        = (if k = j then g v else 0) + (Table.find? t k).elim 0 g := by
      intro k
      simp only [Table.find?]
      by_cases h : j = k
      · subst h; simp [absent]
      · have h' : ¬ k = j := fun e => h e.symm
        simp [h, h']
    rw [List.map_cons, List.sum_cons, ih ((Table.rising_iff t).2 hr.2) fun c hc => hN c (List.mem_cons_of_mem _ hc),
      Finset.sum_congr rfl fun k _ => split k, Finset.sum_add_distrib, Finset.sum_ite_eq',
      if_pos (Finset.mem_range.2 (hN _ (List.mem_cons_self ..)))]

theorem Table.keys_lt (t : Table α) : ∃ N, ∀ c ∈ t, c.1 < N := by
  induction t with
  | nil => exact ⟨0, by simp⟩
  | cons c t ih =>
    obtain ⟨N, hN⟩ := ih
    refine ⟨max N (c.1 + 1), fun d hd => ?_⟩
    rcases List.mem_cons.1 hd with rfl | hd
    · omega
    · have := hN d hd
      omega

/-- Tables that agree but under one key have sums that differ by what that key holds. -/
theorem Table.sum_update {t : Table α} {u : Table β} (ht : Table.rising t = true) (hu : Table.rising u = true)
    (g : α → Nat) (g' : β → Nat) (k : Nat)
    (h : ∀ j, j ≠ k → (Table.find? t j).elim 0 g = (Table.find? u j).elim 0 g') :
    (u.map fun c => g' c.2).sum + (Table.find? t k).elim 0 g
      = (t.map fun c => g c.2).sum + (Table.find? u k).elim 0 g' := by
  obtain ⟨N, hN⟩ := Table.keys_lt t
  obtain ⟨M, hM⟩ := Table.keys_lt u
  have hk : k ∈ Finset.range (N + M + (k + 1)) := Finset.mem_range.2 (by omega)
  rw [Table.sum_eq ht g (N := N + M + (k + 1)) (fun c hc => by have := hN c hc; omega),
    Table.sum_eq hu g' (N := N + M + (k + 1)) (fun c hc => by have := hM c hc; omega),
    ← Finset.sum_erase_add _ _ hk, ← Finset.sum_erase_add (Finset.range _) (fun j => (Table.find? t j).elim 0 g) hk,
    Finset.sum_congr rfl fun j hj => h j (Finset.ne_of_mem_erase hj)]
  omega

/-- Tables that agree under every key have the same sum. -/
theorem Table.sum_congr {t : Table α} {u : Table β} (ht : Table.rising t = true) (hu : Table.rising u = true)
    (g : α → Nat) (g' : β → Nat) (h : ∀ j, (Table.find? t j).elim 0 g = (Table.find? u j).elim 0 g') :
    (t.map fun c => g c.2).sum = (u.map fun c => g' c.2).sum := by
  have := Table.sum_update ht hu g g' 0 fun j _ => h j
  have := h 0
  omega

theorem Table.countP_eq_sum (t : Table α) (p : α → Bool) :
    t.countP (fun c => p c.2) = (t.map fun c => (p c.2).toNat).sum := by
  induction t with
  | nil => rfl
  | cons c t ih =>
    rw [List.countP_cons, ih, List.map_cons, List.sum_cons]
    cases p c.2 <;> simp [Nat.add_comm]

/-- What a key reads as, for a quantity that the starting value has none of. -/
theorem Table.elim_find? {d : α} {g : α → Nat} (hd : g d = 0) (t : Table α) (k : Nat) :
    (Table.find? t k).elim 0 g = g (Table.look d t k) := by
  unfold Table.look
  cases Table.find? t k with
  | none => exact hd.symm
  | some v => rfl

theorem Table.length_filter_le (t : Table α) (p : Nat × α → Bool) : (t.filter p : Table α).length ≤ t.length :=
  List.length_filter_le _ _

theorem Table.length_put_le (t : Table α) (k : Nat) (v : α) : (Table.put t k v).length ≤ t.length + 1 := by
  induction t with
  | nil => exact Nat.le_refl _
  | cons c t ih =>
    obtain ⟨j, w⟩ := c
    unfold Table.put
    split
    · exact Nat.le_refl _
    · split <;> simp only [List.length_cons] <;> omega
end

/-! ### One record -/

section
variable (s : State)

theorem modRecord_eq (h : Nat) (f : Record → Record) : ∃ v, s.modRecord h f = { s with records := v } := by
  unfold State.modRecord
  split
  · exact ⟨_, rfl⟩
  · exact ⟨s.records, rfl⟩

theorem record?_modRecord (h g : Nat) (f : Record → Record) :
    (s.modRecord h f).record? g = (s.record? g).map fun r => if h = g then f r else r := by
  unfold State.modRecord
  by_cases hg : h = g
  · subst hg
    cases hr : s.record? h with
    | none => simp [hr]
    | some r => simp
  · split
    · simp [hg]
    · simp [hg]

theorem record?_erase (h g : Nat) :
    ({ s with records := Table.erase s.records h } : State).record? g = if h = g then none else s.record? g :=
  Table.find?_erase _ _ _

/-! ### Reference counts -/

/-- 1 where an optional handle names the record, and 0 otherwise. -/
def names1 (o : Option Nat) (h : Nat) : Nat := if o = some h then 1 else 0

theorem names1_none (h : Nat) : names1 none h = 0 := rfl

theorem names1_some (n h : Nat) : names1 (some n) h = if n = h then 1 else 0 := by
  unfold names1
  simp only [Option.some.injEq]

theorem plan_eq (a b : Option Nat) : ∃ v, s.plan a b = { s with records := v } := by
  unfold State.plan
  cases b with
  | none =>
    cases a with
    | none => exact ⟨s.records, rfl⟩
    | some a => exact modRecord_eq s a _
  | some b =>
    obtain ⟨v, hv⟩ := modRecord_eq s b fun r => { r with planned := r.planned + 1 }
    cases a with
    | none => exact ⟨v, hv⟩
    | some a =>
      obtain ⟨w, hw⟩ := modRecord_eq { s with records := v } a fun r => { r with planned := r.planned - 1 }
      exact ⟨w, by simp only [hv]; exact hw⟩

/-- Reading after a write to the record that an optional handle names. -/
theorem record?_modOption (o : Option Nat) (f : Record → Record) (h : Nat) :
    (match o with
      | some n => s.modRecord n f
      | none => s).record? h = (s.record? h).map fun r => if o = some h then f r else r := by
  cases o with
  | none => simp
  | some n => simpa using record?_modRecord s n h f

theorem record?_plan (a b : Option Nat) (h : Nat) : (s.plan a b).record? h
    = (s.record? h).map fun r => { r with planned := r.planned + names1 b h - names1 a h } := by
  unfold State.plan names1
  refine (record?_modOption _ a _ h).trans ((congrArg (Option.map _) (record?_modOption s b _ h)).trans ?_)
  rw [Option.map_map]
  congr 1
  funext r
  by_cases ha : a = some h <;> by_cases hb : b = some h <;> simp [ha, hb]

theorem moveFallbackRef_eq (a b : Option Nat) : ∃ v, s.moveFallbackRef a b = { s with records := v } := by
  unfold State.moveFallbackRef
  cases b with
  | none =>
    cases a with
    | none => exact ⟨s.records, rfl⟩
    | some a => exact modRecord_eq s a _
  | some b =>
    obtain ⟨v, hv⟩ := modRecord_eq s b fun r => { r with fallbackRefs := r.fallbackRefs + 1 }
    cases a with
    | none => exact ⟨v, hv⟩
    | some a =>
      obtain ⟨w, hw⟩ := modRecord_eq { s with records := v } a fun r => { r with fallbackRefs := r.fallbackRefs - 1 }
      exact ⟨w, by simp only [hv]; exact hw⟩

theorem record?_moveFallbackRef (a b : Option Nat) (h : Nat) : (s.moveFallbackRef a b).record? h
    = (s.record? h).map fun r => { r with fallbackRefs := r.fallbackRefs + names1 b h - names1 a h } := by
  unfold State.moveFallbackRef names1
  refine (record?_modOption _ a _ h).trans ((congrArg (Option.map _) (record?_modOption s b _ h)).trans ?_)
  rw [Option.map_map]
  congr 1
  funext r
  by_cases ha : a = some h <;> by_cases hb : b = some h <;> simp [ha, hb]

theorem foldl_records_eq {α : Type} {f : State → α → State} (h : ∀ s a, ∃ v, f s a = { s with records := v })
    (l : List α) (s : State) : ∃ v, l.foldl f s = { s with records := v } := by
  induction l generalizing s with
  | nil => exact ⟨s.records, rfl⟩
  | cons a l ih =>
    obtain ⟨v, hv⟩ := h s a
    obtain ⟨w, hw⟩ := ih (f s a)
    exact ⟨w, by rw [List.foldl_cons, hw, hv]⟩

theorem addSpliceRefs_eq (l : List SlotEdit) : ∃ v, s.addSpliceRefs l = { s with records := v } := by
  refine foldl_records_eq (fun s e => ?_) l s
  cases e.binding with
  | none => exact ⟨s.records, rfl⟩
  | some b => exact modRecord_eq s _ _

theorem dropSpliceRefs_eq (l : List SlotEdit) : ∃ v, s.dropSpliceRefs l = { s with records := v } := by
  refine foldl_records_eq (fun s e => ?_) l s
  cases e.binding with
  | none => exact ⟨s.records, rfl⟩
  | some b => exact modRecord_eq s _ _

theorem bindsOf_nil (h : Nat) : bindsOf [] h = 0 := rfl

theorem bindsOf_cons (d : SlotEdit) (l : List SlotEdit) (h : Nat) :
    bindsOf (d :: l) h = names1 (d.binding.map (·.handle)) h + bindsOf l h := by
  unfold bindsOf names1
  rw [List.countP_cons, Nat.add_comm]
  simp only [beq_iff_eq]

theorem bindsOf_append (l m : List SlotEdit) (h : Nat) : bindsOf (l ++ m) h = bindsOf l h + bindsOf m h :=
  List.countP_append

theorem record?_addSpliceRefs (l : List SlotEdit) (h : Nat) : (s.addSpliceRefs l).record? h
    = (s.record? h).map fun r => { r with spliceRefs := r.spliceRefs + bindsOf l h } := by
  unfold State.addSpliceRefs
  induction l generalizing s with
  | nil => simp [bindsOf_nil]
  | cons d l ih =>
    rw [List.foldl_cons, ih, bindsOf_cons]
    cases d.binding with
    | none => simp [names1_none]
    | some b =>
      rw [record?_modRecord, Option.map_map]
      congr 1
      funext r
      simp only [Function.comp, Option.map_some, names1_some]
      split <;> simp [Nat.add_assoc]

theorem record?_dropSpliceRefs (l : List SlotEdit) (h : Nat) : (s.dropSpliceRefs l).record? h
    = (s.record? h).map fun r => { r with spliceRefs := r.spliceRefs - bindsOf l h } := by
  unfold State.dropSpliceRefs
  induction l generalizing s with
  | nil => simp [bindsOf_nil]
  | cons d l ih =>
    rw [List.foldl_cons, ih, bindsOf_cons]
    cases d.binding with
    | none => simp [names1_none]
    | some b =>
      rw [record?_modRecord, Option.map_map]
      congr 1
      funext r
      simp only [Function.comp, Option.map_some, names1_some]
      split <;> simp [Nat.sub_sub]

/-! ### On-air updates (R14, R18) -/

/-- A record after an on-air update, before it is seen whether it is left at 0. -/
def Record.aired (u : OnAirUpdate) (h : Nat) (r : Record) : Record :=
  { r with onAir := r.onAir + names1 u.new h - names1 u.old h }

/-- An update that frees a record: it takes from a RETIRING one and leaves it at 0. -/
def State.leaves (s : State) (u : OnAirUpdate) (o : Nat) : Prop :=
  u.old = some o ∧ ∃ r, s.record? o = some r ∧ r.state = .retiring ∧ (r.aired u o).onAir = 0

/-- The record that an update's new source names is on air once more (R14). -/
def State.airOn (s : State) (o : Option Nat) : State :=
  match o with
  | some n => s.modRecord n fun r => { r with onAir := r.onAir + 1 }
  | none => s

theorem airOn_eq (o : Option Nat) : ∃ v, s.airOn o = { s with records := v } := by
  cases o with
  | none => exact ⟨s.records, rfl⟩
  | some n => exact modRecord_eq s n _

theorem record?_airOn (o : Option Nat) (h : Nat) :
    (s.airOn o).record? h = (s.record? h).map fun r => { r with onAir := r.onAir + names1 o h } := by
  refine (record?_modOption s o (fun r => { r with onAir := r.onAir + 1 }) h).trans ?_
  congr 1
  funext r
  unfold names1
  split <;> rfl

theorem takeUpdate_none (new : Option Nat) : s.takeUpdate ⟨none, new⟩ = s.airOn new := by
  cases new <;> rfl

theorem takeUpdate_some (o : Nat) (new : Option Nat) :
    s.takeUpdate ⟨some o, new⟩ = (s.airOn new).takeUpdate ⟨some o, none⟩ := by
  cases new <;> rfl

/-- An update raises one count and lowers another, and then a record that it leaves is freed. -/
theorem takeUpdate_cases (u : OnAirUpdate) : ∃ v, (∀ h, ({ s with records := v } : State).record? h
      = (s.record? h).map (Record.aired u h))
    ∧ (((∀ o, ¬ s.leaves u o) ∧ s.takeUpdate u = { s with records := v })
      ∨ ∃ o, s.leaves u o ∧ s.takeUpdate u = ({ s with records := v } : State).freeRecord o) := by
  obtain ⟨old, new⟩ := u
  cases old with
  | none =>
    obtain ⟨v, hv⟩ := airOn_eq s new
    refine ⟨v, fun h => ?_, .inl ⟨fun o ho => (by cases ho.1), (takeUpdate_none s new).trans hv⟩⟩
    rw [← hv, record?_airOn]
    rfl
  | some o =>
    rw [takeUpdate_some]
    obtain ⟨w, hw⟩ : ∃ w, ((s.airOn new).modRecord o fun r => { r with onAir := r.onAir - 1 })
        = { s with records := w } := by
      obtain ⟨v, hv⟩ := airOn_eq s new
      rw [hv]
      exact modRecord_eq { s with records := v } o _
    have lowered : ∀ h, ({ s with records := w } : State).record? h
        = (s.record? h).map (Record.aired ⟨some o, new⟩ h) := by
      intro h
      rw [← hw, record?_modRecord, record?_airOn, Option.map_map]
      congr 1
      funext r
      simp only [Function.comp, Record.aired, names1_some]
      split <;> rfl
    have taken : (s.airOn new).takeUpdate ⟨some o, none⟩ = match ({ s with records := w } : State).record? o with
        | some r => if r.state = .retiring && r.onAir == 0
            then ({ s with records := w } : State).freeRecord o else { s with records := w }
        | none => { s with records := w } := by
      rw [← hw]
      rfl
    refine ⟨w, lowered, ?_⟩
    rw [taken, lowered o]
    cases hr : s.record? o with
    | none =>
      refine .inl ⟨?_, rfl⟩
      rintro p ⟨hp, r, hr', -⟩
      cases hp
      rw [hr] at hr'
      cases hr'
    | some r =>
      simp only [Option.map_some]
      by_cases hz : r.state = .retiring ∧ (r.aired ⟨some o, new⟩ o).onAir = 0
      · refine .inr ⟨o, ⟨rfl, r, hr, hz⟩, ?_⟩
        rw [if_pos]
        simp only [Bool.and_eq_true, decide_eq_true_eq, beq_iff_eq]
        exact hz
      · refine .inl ⟨?_, ?_⟩
        · rintro p ⟨hp, r', hr', hz'⟩
          cases hp
          rw [hr] at hr'
          cases hr'
          exact hz hz'
        · rw [if_neg]
          simp only [Bool.and_eq_true, decide_eq_true_eq, beq_iff_eq]
          exact hz

/-! ### Reservations (R70) -/

theorem foldl_slots_eq {α : Type} {f : State → α → State} (h : ∀ s a, ∃ v, f s a = { s with slots := v })
    (l : List α) (s : State) : ∃ v, l.foldl f s = { s with slots := v } := by
  induction l generalizing s with
  | nil => exact ⟨s.slots, rfl⟩
  | cons a l ih =>
    obtain ⟨v, hv⟩ := h s a
    obtain ⟨w, hw⟩ := ih (f s a)
    exact ⟨w, by rw [List.foldl_cons, hw, hv]⟩

theorem passReservations_eq (e : Nat) (n : Option Nat) : ∃ v, s.passReservations e n = { s with slots := v } := by
  refine foldl_slots_eq (fun s k => ?_) _ s
  split
  · exact ⟨_, rfl⟩
  · exact ⟨s.slots, rfl⟩

theorem reserve_eq (l : List SlotEdit) (e : Nat) : ∃ v, s.reserve l e = { s with slots := v } :=
  foldl_slots_eq (fun _ _ => ⟨_, rfl⟩) _ s

/-- The reservations of an entry pass on, and nothing else of a slot changes (R70). -/
theorem slotAt_passReservations (e : Nat) (n : Option Nat) (k : Nat) :
    (s.passReservations e n).slotAt k
      = if k < 384 ∧ (s.slotAt k).reserved = some e then { s.slotAt k with reserved := n } else s.slotAt k := by
  unfold State.passReservations
  suffices ∀ (l : List Nat) (s : State), l.Nodup → (l.foldl (fun s k =>
      if (s.slotAt k).reserved = some e then s.setSlotAt k { s.slotAt k with reserved := n } else s) s).slotAt k
        = if k ∈ l ∧ (s.slotAt k).reserved = some e then { s.slotAt k with reserved := n } else s.slotAt k by
    refine (this slotKeys s List.nodup_range).trans ?_
    simp only [slotKeys, List.mem_range, Config.feeds, Config.slotsPerLeg]
  intro l
  induction l with
  | nil => intro s _; simp
  | cons a l ih =>
    intro s hn
    rw [List.nodup_cons] at hn
    rw [List.foldl_cons, ih _ hn.2]
    by_cases ha : a = k
    · subst ha
      by_cases hr : (s.slotAt a).reserved = some e <;> simp [hn.1, hr]
    · have ha' : ¬ k = a := fun e => ha e.symm
      by_cases hr : (s.slotAt a).reserved = some e <;> simp [hr, ha, ha']

/-! ### The bindings of a list of edits -/

theorem rising_bindingsOf (l : List SlotEdit) : Table.rising (bindingsOf l) = true :=
  rising_puts (fun d : SlotEdit => (slotKey d.feed d.slot, d.binding)) l [] rfl

/-- The last edit of a list that names a slot gives its binding. -/
def lastEdit (l : List SlotEdit) (k : Nat) : Option (Option Binding) :=
  ((l.filter fun d => slotKey d.feed d.slot == k).getLast?).map (·.binding)

theorem find?_bindingsOf (l : List SlotEdit) (k : Nat) : Table.find? (bindingsOf l) k = lastEdit l k := by
  induction l using List.reverseRecOn with
  | nil => rfl
  | append_singleton l d ih =>
    have put : bindingsOf (l ++ [d]) = Table.put (bindingsOf l) (slotKey d.feed d.slot) d.binding := by
      unfold bindingsOf
      rw [List.foldl_append]
      rfl
    rw [put, Table.find?_put, ih]
    unfold lastEdit
    rw [List.filter_append]
    by_cases h : slotKey d.feed d.slot = k
    · simp [h]
    · have other : (slotKey d.feed d.slot == k) = false := by simp [h]
      simp [h, other]

/-- Every slot of the list's edits becomes reserved by the entry, and nothing else of a slot changes (R136). -/
theorem slotAt_reserve (l : List SlotEdit) (e k : Nat) : (s.reserve l e).slotAt k
    = if (lastEdit l k).isSome then { s.slotAt k with reserved := some e } else s.slotAt k := by
  rw [← find?_bindingsOf]
  have rising := rising_bindingsOf l
  unfold State.reserve
  generalize bindingsOf l = t at rising ⊢
  induction t generalizing s with
  | nil => rfl
  | cons c t ih =>
    have nodup := nodup_keys rising
    rw [List.map_cons, List.nodup_cons] at nodup
    rw [Table.rising_iff, List.pairwise_cons] at rising
    rw [List.foldl_cons, ih _ ((Table.rising_iff t).2 rising.2), slotAt_setSlotAt]
    by_cases h : c.1 = k
    · subst h
      have : (Table.find? t c.1).isSome = false := by
        rw [← Bool.not_eq_true, find?_isSome_iff]
        exact nodup.1
      obtain ⟨k, v⟩ := c
      simp [Table.find?, this]
    · obtain ⟨j, v⟩ := c
      have h : ¬ j = k := h
      simp [Table.find?, h]

end

/-! ### The counts that the laws speak of -/

section

/-- Planned bindings that name the record (R13). -/
def State.bindings (s : State) (h : Nat) : Nat := s.slots.countP fun c => c.2.planned.map (·.handle) == some h

/-- Slots that have the record on air (R14). -/
def State.airings (s : State) (h : Nat) : Nat := s.slots.countP fun c => c.2.source == some h

/-- BIND SLOT edits of waiting entries that name the record (R15). -/
def State.waitingRefs (s : State) (h : Nat) : Nat :=
  ((s.entries.filter (·.2.holds)).map fun c => bindsOf c.2.edits h).sum

/-- Records, RESERVED ones apart, whose fallback the record is (R16). -/
def State.fallbackUses (s : State) (h : Nat) : Nat :=
  s.records.countP fun c => c.2.state != .reserved && c.2.fallback == some h

/-- What an entry adds to the references of a record (R15). -/
def Entry.refs (x : Entry) (h : Nat) : Nat := if x.holds then bindsOf x.edits h else 0

/-- What a record adds to the uses of a fallback (R16). -/
def Record.uses (x : Record) (h : Nat) : Nat := if x.state = .reserved then 0 else names1 x.fallback h

theorem toNat_beq_some (o : Option Nat) (h : Nat) : (o == some h).toNat = names1 o h := by
  unfold names1
  by_cases e : o = some h <;> simp [e]

theorem bindings_eq_sum (s : State) (h : Nat) :
    s.bindings h = (s.slots.map fun c => names1 (c.2.planned.map (·.handle)) h).sum := by
  unfold State.bindings
  rw [Table.countP_eq_sum s.slots fun x => x.planned.map (·.handle) == some h]
  simp only [toNat_beq_some]

theorem airings_eq_sum (s : State) (h : Nat) : s.airings h = (s.slots.map fun c => names1 c.2.source h).sum := by
  unfold State.airings
  rw [Table.countP_eq_sum s.slots fun x => x.source == some h]
  simp only [toNat_beq_some]

theorem waitingRefs_eq_sum (s : State) (h : Nat) :
    s.waitingRefs h = (s.entries.map fun c => c.2.refs h).sum := by
  unfold State.waitingRefs Entry.refs
  induction s.entries with
  | nil => rfl
  | cons c t ih =>
    rw [List.filter_cons]
    cases hh : c.2.holds <;> simp [hh, ih]

theorem fallbackUses_eq_sum (s : State) (h : Nat) :
    s.fallbackUses h = (s.records.map fun c => c.2.uses h).sum := by
  unfold State.fallbackUses
  rw [Table.countP_eq_sum s.records fun x => x.state != .reserved && x.fallback == some h]
  refine congrArg List.sum (List.map_congr_left fun c _ => ?_)
  unfold Record.uses
  by_cases hr : c.2.state = .reserved
  · simp [hr]
  · rw [bne_iff_ne.2 hr, Bool.true_and, toNat_beq_some, if_neg hr]

theorem State.canonical.slots_rising {s : State} (c : s.canonical) : Table.rising s.slots = true :=
  c.2.2.2.2.1.1

theorem State.canonical.entries_rising {s : State} (c : s.canonical) : Table.rising s.entries = true :=
  c.2.2.2.2.2.2.2.2.1.1

theorem State.canonical.records_rising {s : State} (c : s.canonical) : Table.rising s.records = true := c.2.2.1

theorem State.canonical.smap_rising {s : State} (c : s.canonical) : Table.rising s.smap = true := c.2.1

variable {s t : State}

/-- One slot written: the bindings of a record change by what the slot is bound to. -/
theorem bindings_update (cs : s.canonical) (ct : t.canonical) (k h : Nat)
    (e : ∀ j, j ≠ k → (t.slotAt j).planned = (s.slotAt j).planned) :
    t.bindings h + names1 ((s.slotAt k).planned.map (·.handle)) h
      = s.bindings h + names1 ((t.slotAt k).planned.map (·.handle)) h := by
  have look : ∀ (u : State) j, (Table.find? u.slots j).elim 0 (fun x => names1 (x.planned.map (·.handle)) h)
      = names1 ((u.slotAt j).planned.map (·.handle)) h := fun u j =>
    Table.elim_find? (d := Slot.start) (g := fun x => names1 (x.planned.map (·.handle)) h) rfl u.slots j
  have := Table.sum_update cs.slots_rising ct.slots_rising (fun x => names1 (x.planned.map (·.handle)) h)
    (fun x => names1 (x.planned.map (·.handle)) h) k fun j hj => by rw [look, look, e j hj]
  rw [look, look] at this
  rw [bindings_eq_sum, bindings_eq_sum]
  exact this

theorem bindings_congr (cs : s.canonical) (ct : t.canonical) (h : Nat)
    (e : ∀ j, (t.slotAt j).planned = (s.slotAt j).planned) : t.bindings h = s.bindings h := by
  have := bindings_update cs ct 0 h fun j _ => e j
  rw [e 0] at this
  omega

theorem airings_update (cs : s.canonical) (ct : t.canonical) (k h : Nat)
    (e : ∀ j, j ≠ k → (t.slotAt j).source = (s.slotAt j).source) :
    t.airings h + names1 (s.slotAt k).source h = s.airings h + names1 (t.slotAt k).source h := by
  have look : ∀ (u : State) j, (Table.find? u.slots j).elim 0 (fun x => names1 x.source h)
      = names1 (u.slotAt j).source h := fun u j =>
    Table.elim_find? (d := Slot.start) (g := fun x => names1 x.source h) rfl u.slots j
  have := Table.sum_update cs.slots_rising ct.slots_rising (fun x => names1 x.source h)
    (fun x => names1 x.source h) k fun j hj => by rw [look, look, e j hj]
  rw [look, look] at this
  rw [airings_eq_sum, airings_eq_sum]
  exact this

theorem airings_congr (cs : s.canonical) (ct : t.canonical) (h : Nat)
    (e : ∀ j, (t.slotAt j).source = (s.slotAt j).source) : t.airings h = s.airings h := by
  have := airings_update cs ct 0 h fun j _ => e j
  rw [e 0] at this
  omega

theorem Entry.refs_start (h : Nat) : Entry.start.refs h = 0 := rfl

theorem waitingRefs_update (cs : s.canonical) (ct : t.canonical) (k h : Nat)
    (e : ∀ j, j ≠ k → (t.entry j).refs h = (s.entry j).refs h) :
    t.waitingRefs h + (s.entry k).refs h = s.waitingRefs h + (t.entry k).refs h := by
  have look : ∀ (u : State) j, (Table.find? u.entries j).elim 0 (fun x => x.refs h) = (u.entry j).refs h :=
    fun u j => Table.elim_find? (d := Entry.start) (g := fun x => x.refs h) rfl u.entries j
  have := Table.sum_update cs.entries_rising ct.entries_rising (fun x => x.refs h)
    (fun x => x.refs h) k fun j hj => by rw [look, look, e j hj]
  rw [look, look] at this
  rw [waitingRefs_eq_sum, waitingRefs_eq_sum]
  exact this

theorem waitingRefs_congr (cs : s.canonical) (ct : t.canonical) (h : Nat)
    (e : ∀ j, (t.entry j).refs h = (s.entry j).refs h) : t.waitingRefs h = s.waitingRefs h := by
  have := waitingRefs_update cs ct 0 h fun j _ => e j
  rw [e 0] at this
  omega

theorem fallbackUses_update (cs : s.canonical) (ct : t.canonical) (k h : Nat)
    (e : ∀ j, j ≠ k → (t.record? j).elim 0 (·.uses h) = (s.record? j).elim 0 (·.uses h)) :
    t.fallbackUses h + (s.record? k).elim 0 (·.uses h) = s.fallbackUses h + (t.record? k).elim 0 (·.uses h) := by
  rw [fallbackUses_eq_sum, fallbackUses_eq_sum]
  exact Table.sum_update cs.records_rising ct.records_rising (fun x => x.uses h)
    (fun x => x.uses h) k fun j hj => (e j hj).symm

theorem fallbackUses_congr (cs : s.canonical) (ct : t.canonical) (h : Nat)
    (e : ∀ j, (t.record? j).elim 0 (·.uses h) = (s.record? j).elim 0 (·.uses h)) :
    t.fallbackUses h = s.fallbackUses h := by
  have := fallbackUses_update cs ct 0 h fun j _ => e j
  rw [e 0] at this
  omega

/-- A quantity of a slot that counts is there. -/
theorem bindings_pos {k h : Nat} (e : (s.slotAt k).planned.map (·.handle) = some h) :
    0 < s.bindings h := by
  rw [bindings_eq_sum]
  have found : ∃ x, Table.find? s.slots k = some x ∧ x = s.slotAt k := by
    unfold State.slotAt Table.look at e ⊢
    cases hf : Table.find? s.slots k with
    | none => rw [hf] at e; cases e
    | some x => exact ⟨x, rfl, rfl⟩
  obtain ⟨x, hx, rfl⟩ := found
  refine Nat.lt_of_lt_of_le ?_ (List.le_sum_of_mem (List.mem_map.2 ⟨_, Table.find?_mem _ _ _ hx, rfl⟩))
  simp [names1, e]

theorem airings_pos {k h : Nat} (e : (s.slotAt k).source = some h) : 0 < s.airings h := by
  rw [airings_eq_sum]
  have found : ∃ x, Table.find? s.slots k = some x ∧ x = s.slotAt k := by
    unfold State.slotAt Table.look at e ⊢
    cases hf : Table.find? s.slots k with
    | none => rw [hf] at e; cases e
    | some x => exact ⟨x, rfl, rfl⟩
  obtain ⟨x, hx, rfl⟩ := found
  refine Nat.lt_of_lt_of_le ?_ (List.le_sum_of_mem (List.mem_map.2 ⟨_, Table.find?_mem _ _ _ hx, rfl⟩))
  simp [names1, e]

end

/-! ### Changed bindings -/

section
variable (s : State)

/-- The slot after a change of its binding (R71 to R73). -/
def State.rebound (s : State) (f i : Nat) (new : Option Binding) : Slot := (bindMove s f (s.slot f i) new).slot

theorem planned_goFallback (x : Slot) (p : Nat) : (goFallback s x p).slot.planned = x.planned :=
  (maySource_goFallback s x p).1

theorem planned_enterPending (f : Nat) (x : Slot) (p : Nat) : (enterPending s f x p).slot.planned = x.planned := by
  unfold enterPending
  split <;> rfl

theorem planned_rebound (f i : Nat) (new : Option Binding) : (s.rebound f i new).planned = new := by
  unfold State.rebound bindMove
  split
  · rfl
  · dsimp only
    split
    · rfl
    · split
      · split
        · rfl
        · exact planned_enterPending _ _ _ _
      · exact planned_goFallback _ _ _

/-- A changed binding puts nothing on air but what was there or is usable (R71 to R73). -/
theorem source_rebound (f i : Nat) (new : Option Binding) :
    (s.rebound f i new).source = (s.slot f i).source ∨ (s.rebound f i new).source = none
      ∨ ∃ h, (s.rebound f i new).source = some h ∧ s.usable h = true := by
  unfold State.rebound bindMove
  split
  · exact .inr (.inl rfl)
  · dsimp only
    split
    · exact .inl rfl
    · split
      · next hu =>
        split
        · exact .inr (.inr ⟨_, rfl, hu⟩)
        · exact (maySource_enterPending s f { s.slot f i with planned := some _ } hu).2
      · exact (maySource_goFallback s { s.slot f i with planned := some _ } _).2

theorem moved_core_congr {s t : State} (h : s.core = t.core) (k : Nat) (x : Slot) :
    (s.moved k x).core = (t.moved k x).core := by
  unfold State.core State.moved State.slotAt State.setSlotAt at *
  simp only [Prod.mk.injEq] at h ⊢
  obtain ⟨h1, h2, h3, h4, h5, h6, h7⟩ := h
  simp only [h1, h2, h3, h4, h5, h6, h7, and_self]

/-- What the laws see of a changed binding: the counts of the two records, the slot and its update. -/
theorem core_rebind (f i : Nat) (new : Option Binding) : (s.rebind f i new).core
    = if (s.slot f i).planned = new then s.core
      else ((s.plan ((s.slot f i).planned.map (·.handle)) (new.map (·.handle))).moved (slotKey f i)
        (s.rebound f i new)).core := by
  unfold State.rebind
  dsimp only
  split
  · rfl
  · rw [core_applyMove]
    refine moved_core_congr ?_ _ _
    split
    · split
      · exact core_markRange _ _ _
      · rfl
    · rfl

theorem slots_modRecord (h : Nat) (f : Record → Record) : (s.modRecord h f).slots = s.slots := by
  obtain ⟨v, hv⟩ := modRecord_eq s h f
  rw [hv]

theorem core_slots {s t : State} (h : s.core = t.core) (k : Nat) : s.slotAt k = t.slotAt k := by
  unfold State.slotAt
  rw [show s.slots = t.slots from congrArg (·.2.2.1) h]

theorem core_record? {s t : State} (h : s.core = t.core) (k : Nat) : s.record? k = t.record? k := by
  unfold State.record?
  rw [show s.records = t.records from congrArg (·.1) h]

theorem core_entry {s t : State} (h : s.core = t.core) (k : Nat) : s.entry k = t.entry k := by
  unfold State.entry
  rw [show s.entries = t.entries from congrArg (·.2.2.2.2.1) h]

theorem core_smap {s t : State} (h : s.core = t.core) : s.smap = t.smap := congrArg (·.2.1) h

theorem core_updates {s t : State} (h : s.core = t.core) : s.updates = t.updates := congrArg (·.2.2.2.1) h

theorem core_entries {s t : State} (h : s.core = t.core) : s.entries = t.entries := congrArg (·.2.2.2.2.1) h

theorem core_ws {s t : State} (h : s.core = t.core) (r : Requester) : (s.ws r).core = (t.ws r).core := by
  cases r
  · exact congrArg (·.2.2.2.2.2.1) h
  · exact congrArg (·.2.2.2.2.2.2) h

theorem slotAt_moved (k j : Nat) (x : Slot) : (s.moved k x).slotAt j = if k = j then x else s.slotAt j :=
  slotAt_setSlotAt s k j x

end

end Sys2Proof.Machine
end

