-- ==== Sys2Proof/Proofs/Walk.lean ====
section
/-! What a commit writes, part by part: the walk of its edits over the picture, the picture's records and bindings
against those that are written, and what each part of R131 does to the records (R125 to R131). -/

namespace Sys2Proof.Machine

/-! ### The walk -/

/-- What holds of the picture and the edits still to come is carried through the walk (R126, R127). -/
theorem walk_induct {I : Picture → List (Edit × Nat) → Prop} (skip : ∀ p c l, I p (c :: l) → I p.skip l)
    (apply : ∀ p n c l, I p (c :: l) → p.recheck n c.1 = none → p.redundant c.1 = false →
      p.sourceLost c.1 = false → I (p.applyEdit n c.1) l) {l : List (Edit × Nat)} {p q : Picture} {n : Nat}
    (hp : I p l) (h : p.walk n l = .ok q) : I q [] := by
  induction l generalizing p n with
  | nil => cases h; exact hp
  | cons c l ih =>
    obtain ⟨e, stamp⟩ := c
    unfold Picture.walk at h
    split at h
    · cases h
    · next hr =>
      unfold Picture.judge at h
      by_cases hd : p.redundant e = true
      · rw [if_pos hd] at h
        split at h
        · next hq =>
          split at hq
          · cases hq; exact ih (skip _ _ _ hp) h
          · cases hq
        · cases h
      · rw [if_neg hd] at h
        by_cases hs : p.sourceLost e = true
        · rw [if_pos hs] at h
          split at h
          · next hq =>
            split at hq
            · cases hq; exact ih (skip _ _ _ hp) h
            · cases hq
          · cases h
        · rw [if_neg hs] at h
          exact ih (apply _ _ _ _ hp hr (by simpa using hd) (by simpa using hs)) h

/-- An edit that passes the checks on the picture names known and bindable records, and no reserved slot (R126). -/
theorem recheck_eq_none {p : Picture} {n : Nat} {e : Edit} (h : p.recheck n e = none) :
    (∀ g ∈ e.named, p.known g = true) ∧ (∀ g ∈ e.bound, p.retiring g = false)
      ∧ reservedBy p.tables e = none := by
  unfold Picture.recheck handleFailure at h
  cases hk : e.named.find? (fun h => !p.known h) with
  | some g => simp [hk] at h
  | none =>
    rw [hk] at h
    cases hb : e.bound.find? p.retiring with
    | some g => simp [hb] at h
    | none =>
      rw [hb] at h
      refine ⟨fun g hg => ?_, fun g hg => ?_, by simpa using h⟩
      · simpa using List.find?_eq_none.1 hk g hg
      · simpa using List.find?_eq_none.1 hb g hg

/-- A walk applies edits of its list, and retires by them. -/
theorem walk_applied_mem {s : State} {l : List (Edit × Nat)} {n : Nat} {q : Picture}
    (h : (Picture.start s).walk n l = .ok q) : ∀ e ∈ q.applied, ∃ m, (e, m) ∈ l := by
  refine (walk_induct (I := fun p r => (∀ e ∈ p.applied, ∃ m, (e, m) ∈ l) ∧ ∀ c ∈ r, c ∈ l)
    (fun p c r hp => ⟨hp.1, fun d hd => hp.2 d (List.mem_cons_of_mem _ hd)⟩) (fun p n c r hp _ _ _ => ⟨?_, ?_⟩)
    ⟨by simp [Picture.start], fun c hc => hc⟩ h).1
  · intro e he
    rcases List.mem_append.1 he with he | he
    · exact hp.1 e he
    · rw [List.mem_singleton.1 he]
      exact ⟨c.2, hp.2 c (List.mem_cons_self ..)⟩
  · exact fun d hd => hp.2 d (List.mem_cons_of_mem _ hd)

/-- The walk of an execution applies edits of the entry. -/
theorem walkEntry_applied_mem {l : List SlotEdit} {p q : Picture} {n k : Nat} (h : p.walkEntry n l k = .ok q) :
    ∀ e ∈ q.applied, e ∈ p.applied ∨ ∃ d ∈ l, e = .slot d := by
  induction l generalizing p n with
  | nil => cases h; exact fun e he => .inl he
  | cons d l ih =>
    unfold Picture.walkEntry at h
    split at h
    · next u hq =>
      intro e he
      rcases ih h e he with hu | ⟨c, hc, rfl⟩
      · have applied : u.applied = p.applied ∨ u.applied = p.applied ++ [.slot d] := by
          unfold Picture.judge at hq
          split at hq
          · split at hq <;> cases hq
            exact .inl rfl
          · split at hq
            · split at hq <;> cases hq
              exact .inl rfl
            · cases hq
              exact .inr rfl
        rcases applied with ha | ha
        · exact .inl (ha ▸ hu)
        · rw [ha, List.mem_append, List.mem_singleton] at hu
          exact hu.imp_right fun e => ⟨d, List.mem_cons_self .., e⟩
      · exact .inr ⟨c, List.mem_cons_of_mem _ hc, rfl⟩
    · cases h

/-! ### Part 1: the records (R10, R12, R16) -/

section
variable (s : State)

/-- A record that a commit makes LIVE, before its fallback is counted (R10, R41). -/
def Record.goLive (s : State) (r : Record) : Record :=
  { r with state := .live, silence := some s.uptime, hold := none, silentFlag := false }

/-- The stream map with the entries of record `h` ACTIVE (R38). -/
def activate (h : Nat) (m : MapEntry) : MapEntry :=
  if m.handle = h then { m with active := true, lastCount := none } else m

theorem fallbackOf_modRecord (h g : Nat) {f : Record → Record} (hf : ∀ r, (f r).fallback = r.fallback) :
    (s.modRecord h f).fallbackOf g = s.fallbackOf g := by
  unfold State.fallbackOf
  rw [record?_modRecord]
  cases s.record? g with
  | none => rfl
  | some r =>
    simp only [Option.map_some]
    split
    · exact hf r
    · rfl

theorem commitRecord_eq (h : Nat) : ∃ v, s.commitRecord h
    = { s with records := v, smap := s.smap.map fun c => (c.1, activate h c.2) } := by
  obtain ⟨v, hv⟩ := modRecord_eq s h (Record.goLive s)
  obtain ⟨w, hw⟩ := moveFallbackRef_eq { s with records := v } none
    (({ s with records := v } : State).fallbackOf h)
  have smap : (fun c : Nat × MapEntry =>
      if c.2.handle = h then (c.1, { c.2 with active := true, lastCount := none }) else c)
      = fun c => (c.1, activate h c.2) := by
    funext c
    unfold activate
    split <;> rfl
  refine ⟨w, ?_⟩
  unfold State.commitRecord
  rw [show (s.modRecord h fun r => { r with
    state := .live, silence := some s.uptime, hold := none, silentFlag := false }) = { s with records := v } from hv]
  simp only [hw, smap]

/-- A committed record is LIVE and its monitor is started; its fallback is counted (R10, R16). -/
theorem record?_commitRecord (h g : Nat) : (s.commitRecord h).record? g = (s.record? g).map fun r =>
    let r := if h = g then r.goLive s else r
    { r with fallbackRefs := r.fallbackRefs + names1 (s.fallbackOf h) g } := by
  have records : (s.commitRecord h).record? g
      = ((s.modRecord h (Record.goLive s)).moveFallbackRef none
        ((s.modRecord h (Record.goLive s)).fallbackOf h)).record? g := rfl
  rw [records, fallbackOf_modRecord s h h (f := Record.goLive s) (fun _ => rfl), record?_moveFallbackRef, record?_modRecord, Option.map_map]
  rfl

theorem amendRecord_eq (a : AmendFields) : ∃ v, s.amendRecord a = { s with records := v } := by
  obtain ⟨v, hv⟩ := modRecord_eq s a.handle a.apply
  unfold State.amendRecord
  dsimp only
  rw [hv]
  split
  · exact ⟨v, rfl⟩
  · exact moveFallbackRef_eq _ _ _

theorem fallbackOf_amended (a : AmendFields) : (s.modRecord a.handle a.apply).fallbackOf a.handle
    = (s.record? a.handle).bind fun r => (a.apply r).fallback := by
  unfold State.fallbackOf
  rw [record?_modRecord]
  cases s.record? a.handle with
  | none => rfl
  | some r => simp

/-- An amended record has its changes, and the reference counts of its fallbacks move (R12, R16). -/
theorem record?_amendRecord (a : AmendFields) (g : Nat) : (s.amendRecord a).record? g
    = (s.record? g).map fun r =>
      let r := if a.handle = g then a.apply r else r
      { r with fallbackRefs := r.fallbackRefs
        + names1 ((s.record? a.handle).bind fun r => (a.apply r).fallback) g
        - names1 (s.fallbackOf a.handle) g } := by
  unfold State.amendRecord
  dsimp only
  rw [fallbackOf_amended]
  split
  · next he =>
    rw [record?_modRecord, ← he]
    congr 1
    funext r
    simp
  · rw [record?_moveFallbackRef, record?_modRecord, Option.map_map]
    rfl

theorem writeRecord_smap (e : Edit) :
    (∃ h c, e = .create h c ∧ (s.writeRecord e).smap = s.smap.map fun x => (x.1, activate h x.2))
      ∨ (s.writeRecord e).smap = s.smap := by
  cases e with
  | create h c =>
    obtain ⟨v, hv⟩ := commitRecord_eq s h
    exact .inl ⟨h, c, rfl, by rw [show s.writeRecord (.create h c) = s.commitRecord h from rfl, hv]⟩
  | amend a =>
    obtain ⟨v, hv⟩ := amendRecord_eq s a
    exact .inr (by rw [show s.writeRecord (.amend a) = s.amendRecord a from rfl, hv])
  | retire _ | slot _ | setLeg _ => exact .inr rfl

/-- Part 1 writes the records and the stream map alone. -/
theorem writeRecord_eq (e : Edit) : ∃ v w, s.writeRecord e = { s with records := v, smap := w } := by
  cases e with
  | create h c =>
    obtain ⟨v, hv⟩ := commitRecord_eq s h
    exact ⟨_, _, hv⟩
  | amend a =>
    obtain ⟨v, hv⟩ := amendRecord_eq s a
    exact ⟨v, s.smap, hv⟩
  | retire _ | slot _ | setLeg _ => exact ⟨s.records, s.smap, rfl⟩

theorem foldl_writeRecord_eq (l : List Edit) :
    ∃ v w, l.foldl State.writeRecord s = { s with records := v, smap := w } := by
  induction l generalizing s with
  | nil => exact ⟨s.records, s.smap, rfl⟩
  | cons e l ih =>
    obtain ⟨v, w, h⟩ := writeRecord_eq s e
    obtain ⟨v', w', h'⟩ := ih (s.writeRecord e)
    exact ⟨v', w', by rw [List.foldl_cons, h', h]⟩

theorem writeLeg_eq (e : Edit) : ∃ v, s.writeLeg e = { s with legs := v } := by
  cases e with
  | setLeg l => exact ⟨_, rfl⟩
  | create _ _ | amend _ | retire _ | slot _ => exact ⟨s.legs, rfl⟩

theorem core_foldl_writeLeg (l : List Edit) : (l.foldl State.writeLeg s).core = s.core := by
  refine foldl_same (fun t => t.core) _ (fun t e => ?_) l s
  obtain ⟨v, hv⟩ := writeLeg_eq t e
  rw [hv]
  rfl

/-- What the picture shows of a record. -/
def Record.shown (r : Record) :=
  (r.state, r.key, r.cls, r.components, r.region, r.peak, r.fallback, r.planned, r.onAir, r.spliceRefs)

/-- Two states show the same records. -/
def State.showsAs (s t : State) : Prop := ∀ h, (s.record? h).map Record.shown = (t.record? h).map Record.shown

/-- The picture of an edit shows the records as they are written (R125, R131). -/
theorem showsAs_paint {s t : State} (h : s.showsAs t) (e : Edit) : (s.paint e).showsAs (t.writeRecord e) := by
  intro g
  have hg := h g
  cases e with
  | create n c =>
    rw [show (s.paint (.create n c)).record? g = _ from record?_modRecord s n g _,
      show (t.writeRecord (.create n c)).record? g = _ from record?_commitRecord t n g]
    cases hs : s.record? g with
    | none =>
      rw [hs, Option.map_none, eq_comm, Option.map_eq_none_iff] at hg
      rw [hg]; rfl
    | some x =>
      cases ht : t.record? g with
      | none => rw [hs, ht] at hg; cases hg
      | some y =>
        rw [hs, ht] at hg
        simp only [Option.map_some, Option.some.injEq, Record.shown, Prod.mk.injEq] at hg ⊢
        split <;> simp only [Record.goLive, hg, and_self]
  | amend a =>
    rw [show (s.paint (.amend a)).record? g = _ from record?_modRecord s a.handle g _,
      show (t.writeRecord (.amend a)).record? g = _ from record?_amendRecord t a g]
    cases hs : s.record? g with
    | none =>
      rw [hs, Option.map_none, eq_comm, Option.map_eq_none_iff] at hg
      rw [hg]; rfl
    | some x =>
      cases ht : t.record? g with
      | none => rw [hs, ht] at hg; cases hg
      | some y =>
        rw [hs, ht] at hg
        simp only [Option.map_some, Option.some.injEq, Record.shown, Prod.mk.injEq] at hg ⊢
        split <;> simp only [AmendFields.apply, hg, and_self]
  | retire _ | slot _ | setLeg _ => exact hg

theorem showsAs_foldl (l : List Edit) {s t : State} (h : s.showsAs t) :
    (l.foldl State.paint s).showsAs (l.foldl State.writeRecord t) := by
  induction l generalizing s t with
  | nil => exact h
  | cons e l ih => exact ih (showsAs_paint h e)

/-- The picture's tables are those of the start with the applied edits painted. -/
theorem walk_tables {s : State} {l : List (Edit × Nat)} {n : Nat} {q : Picture}
    (h : (Picture.start s).walk n l = .ok q) : q.tables = q.applied.foldl State.paint s := by
  refine walk_induct (I := fun p _ => p.tables = p.applied.foldl State.paint s) (fun p _ _ hp => hp)
    (fun p n c _ hp _ _ _ => ?_) rfl h
  show p.tables.paint c.1 = (p.applied ++ [c.1]).foldl State.paint s
  rw [List.foldl_append, ← hp]
  rfl

/-! ### What no part of a commit does -/

/-- No record of `t` is RESERVED that was not so in `s`. -/
def State.reservesNo (s t : State) : Prop :=
  ∀ h y, t.record? h = some y → y.state = .reserved → ∃ x, s.record? h = some x ∧ x.state = .reserved

theorem reservesNo_refl : s.reservesNo s := fun _ y h e => ⟨y, h, e⟩

theorem reservesNo_trans {s t u : State} (h : s.reservesNo t) (k : t.reservesNo u) : s.reservesNo u := by
  intro g y hy e
  obtain ⟨x, hx, hx'⟩ := k g y hy e
  exact h g x hx hx'

/-- A change of records that leaves each its state, or makes it other than RESERVED, or removes it. -/
theorem reservesNo_of_map {s t : State} {f : Nat → Record → Record}
    (h : ∀ g, t.record? g = (s.record? g).map (f g) ∨ t.record? g = none)
    (hf : ∀ g r, (f g r).state = .reserved → r.state = .reserved) : s.reservesNo t := by
  intro g y hy e
  rcases h g with hg | hg
  · rw [hg, Option.map_eq_some_iff] at hy
    obtain ⟨x, hx, rfl⟩ := hy
    exact ⟨x, hx, hf g x e⟩
  · rw [hg] at hy
    cases hy

theorem reservesNo_of_records {s t : State} (h : t.records = s.records) : s.reservesNo t :=
  reservesNo_of_map (f := fun _ r => r)
    (fun g => .inl (by unfold State.record?; rw [h]; cases Table.find? s.records g <;> rfl)) fun _ _ e => e

theorem reservesNo_foldl {α : Type} {f : State → α → State} (h : ∀ s a, State.reservesNo s (f s a)) (l : List α)
    (s : State) : s.reservesNo (l.foldl f s) := by
  induction l generalizing s with
  | nil => exact reservesNo_refl s
  | cons a l ih => exact reservesNo_trans (h s a) (ih _)

theorem reservesNo_writeRecord (e : Edit) : s.reservesNo (s.writeRecord e) := by
  cases e with
  | create h c =>
    refine reservesNo_of_map (fun g => .inl (record?_commitRecord s h g)) fun g r hr => ?_
    dsimp only at hr
    split at hr
    · cases hr
    · exact hr
  | amend a =>
    refine reservesNo_of_map (fun g => .inl (record?_amendRecord s a g)) fun g r hr => ?_
    dsimp only at hr
    split at hr <;> exact hr
  | retire _ | slot _ | setLeg _ => exact reservesNo_refl s

theorem reservesNo_freeRecord (h : Nat) : s.reservesNo (s.freeRecord h) :=
  reservesNo_of_map (f := fun _ r => r) (fun g => by
    rw [record?_freeRecord]
    split
    · exact .inr rfl
    · exact .inl (by cases s.record? g <;> rfl)) fun _ _ e => e

theorem reservesNo_takeUpdate (u : OnAirUpdate) : s.reservesNo (s.takeUpdate u) := by
  obtain ⟨v, hv, ⟨-, h⟩ | ⟨o, -, h⟩⟩ := takeUpdate_cases s u
  · rw [h]
    exact reservesNo_of_map (fun g => .inl (hv g)) fun _ _ e => e
  · rw [h]
    exact reservesNo_trans (t := { s with records := v }) (reservesNo_of_map (fun g => .inl (hv g)) fun _ _ e => e)
      (reservesNo_freeRecord _ o)

theorem reservesNo_takeUpdates : s.reservesNo s.takeUpdates :=
  reservesNo_trans (t := { s with updates := [] }) (reservesNo_of_records rfl) (reservesNo_foldl reservesNo_takeUpdate _ _)

theorem reservesNo_rebind (f i : Nat) (new : Option Binding) : s.reservesNo (s.rebind f i new) := by
  have core := core_rebind s f i new
  split at core
  · exact reservesNo_of_records (congrArg (·.1) core)
  · exact reservesNo_trans (t := s.plan _ _) (reservesNo_of_map (fun g => .inl (record?_plan s _ _ g)) fun _ _ e => e)
      (reservesNo_of_records (congrArg (·.1) core))

theorem reservesNo_moveSlots (g : Nat → Slot → Option Move) : s.reservesNo (s.moveSlots g) := by
  obtain ⟨a, u, v, w, x, h⟩ := moveSlots_eq s g
  exact reservesNo_of_records (by rw [h])

/-! ### Part 4: retired records (R17) -/

/-- What becomes of a retired record, and of the reference counts of its fallback (R16, R17, R47). -/
theorem retireRecord_cases (h : Nat) : ∃ v, (∀ g, ({ s with records := v } : State).record? g
      = (s.record? g).map fun r => { r with fallbackRefs := r.fallbackRefs - names1 (s.fallbackOf h) g })
    ∧ ((s.record? h = none ∧ s.retireRecord h = { s with records := v })
      ∨ ∃ r, s.record? h = some r
        ∧ ((r.onAir = 0 ∧ s.retireRecord h = ({ s with records := v } : State).freeRecord h)
          ∨ (r.onAir ≠ 0 ∧ s.retireRecord h = ({ s with records := v } : State).setRecord h
            ({ r with fallbackRefs := r.fallbackRefs - names1 (s.fallbackOf h) h } : Record).retire))) := by
  obtain ⟨v, hv⟩ := moveFallbackRef_eq s (s.fallbackOf h) none
  have moved : ∀ g, ({ s with records := v } : State).record? g
      = (s.record? g).map fun r => { r with fallbackRefs := r.fallbackRefs - names1 (s.fallbackOf h) g } := by
    intro g
    rw [← hv, record?_moveFallbackRef]
    congr 1
  refine ⟨v, moved, ?_⟩
  unfold State.retireRecord
  dsimp only
  rw [hv, moved h]
  cases hr : s.record? h with
  | none => exact .inl ⟨rfl, rfl⟩
  | some r =>
    refine .inr ⟨r, rfl, ?_⟩
    simp only [Option.map_some]
    by_cases h0 : r.onAir = 0
    · exact .inl ⟨h0, if_pos h0⟩
    · exact .inr ⟨h0, if_neg h0⟩

theorem reservesNo_retireRecord (h : Nat) : s.reservesNo (s.retireRecord h) := by
  obtain ⟨v, hv, ⟨-, e⟩ | ⟨r, -, ⟨-, e⟩ | ⟨-, e⟩⟩⟩ := retireRecord_cases s h
  all_goals
    rw [e]
    refine reservesNo_trans (t := { s with records := v }) (reservesNo_of_map (fun g => .inl (hv g)) fun _ _ e => e) ?_
  · exact reservesNo_refl _
  · exact reservesNo_freeRecord _ h
  · intro g y hy he
    rw [record?_setRecord] at hy
    split at hy
    · cases hy; cases he
    · exact ⟨y, hy, he⟩

end

/-! ### What the walk knows of retired records -/

/-- A record that a batch retires is not RESERVED once the batch's records are written (R126). -/
theorem retired_not_reserved {s : State} {l : List (Edit × Nat)} {n : Nat} {q : Picture}
    (h : (Picture.start s).walk n l = .ok q) : ∀ c ∈ q.retired, ∀ r,
      (q.applied.foldl State.writeRecord s).record? c.1 = some r → r.state ≠ .reserved := by
  refine (walk_induct (I := fun p _ => p.tables.showsAs (p.applied.foldl State.writeRecord s) ∧ ∀ c ∈ p.retired, ∀ r,
      (p.applied.foldl State.writeRecord s).record? c.1 = some r → r.state ≠ .reserved)
    (fun p _ _ hp => hp) (fun p m c _ hp hr _ _ => ?_) ⟨fun _ => rfl, by simp [Picture.start]⟩ h).2
  obtain ⟨shows, retired⟩ := hp
  have written : (p.applyEdit m c.1).applied.foldl State.writeRecord s
      = (p.applied.foldl State.writeRecord s).writeRecord c.1 := List.foldl_append
  rw [written]
  refine ⟨showsAs_paint shows c.1, fun d hd r hdr e => ?_⟩
  obtain ⟨x, hx, hx'⟩ := reservesNo_writeRecord _ c.1 d.1 r hdr e
  have new : (∃ k, c.1 = .retire k ∧ d = (k, m)) ∨ d ∈ p.retired := by
    unfold Picture.applyEdit at hd
    cases hc : c.1 with
    | retire k =>
      rw [hc] at hd
      rcases List.mem_append.1 hd with hd | hd
      · exact .inr hd
      · exact .inl ⟨k, rfl, List.mem_singleton.1 hd⟩
    | create _ _ | amend _ | slot _ | setLeg _ => rw [hc] at hd; exact .inr hd
  rcases new with ⟨k, hk, rfl⟩ | hd
  · have known : p.known k = true := (recheck_eq_none hr).1 k (by rw [hk]; simp [Edit.named])
    have seen := shows k
    rw [hx] at seen
    unfold Picture.known at known
    cases ht : p.tables.record? k with
    | none => rw [ht] at known; cases known
    | some y =>
      rw [ht] at seen known
      have : y.state = x.state := congrArg Prod.fst (Option.some.inj seen)
      simp [this, hx'] at known
  · exact retired d hd x hx hx'

end Sys2Proof.Machine
end

