-- ==== Sys2Proof/Proofs/Reset.lean ====
section
/-! The laws that every step keeps hold right after reset. -/

namespace Sys2Proof.Machine

theorem slot_reset (k : Nat) : State.reset.slotAt k = Slot.start := rfl

theorem entry_reset (e : Nat) : State.reset.entry e = Entry.start := rfl

theorem record?_reset (h : Nat) : State.reset.record? h = none := rfl

theorem ws_reset (r : Requester) : State.reset.ws r = Workspace.start := by cases r <;> rfl

theorem bounded_reset : State.reset.bounded :=
  ⟨bounded_start, bounded_start, Nat.zero_le _, Nat.zero_le _, fun _ => Nat.zero_le _, Nat.zero_le _,
    Nat.zero_le _, fun _ _ => rfl⟩

theorem mapLaw_reset : State.reset.mapLaw := ⟨fun _ _ h => (by cases h), fun _ _ h => (by cases h)⟩

theorem countLaw_reset : State.reset.countLaw := by
  refine ⟨fun _ _ h => (by cases h), fun _ _ h => (by cases h), fun _ h => (by cases h), fun _ _ h => ?_,
    fun _ h => (by cases h), fun r h => ?_⟩
  · rcases h.1 with h | h <;> cases h
  · rw [ws_reset] at h
    cases h

theorem onAirLaw_reset : State.reset.onAirLaw := by
  refine ⟨fun _ _ h => (by cases h), fun _ h => ?_⟩
  rcases h with ⟨_, h⟩ | ⟨_, h, -⟩ <;> cases h

theorem fallbackCountLaw_reset : State.reset.fallbackCountLaw := by
  refine ⟨fun _ _ h => (by cases h), fun _ _ _ h => (by cases h), fun r => ?_, List.nodup_nil, fun r h hh => ?_⟩
  · rw [ws_reset]; rfl
  · rw [ws_reset] at hh
    cases hh

theorem rangeLaw_reset : State.reset.rangeLaw := by
  refine ⟨fun r c hc => ?_, fun _ _ h => (by cases h), fun _ _ h => (by cases h)⟩
  rw [ws_reset] at hc
  cases hc

theorem canonical_reset : State.reset.canonical :=
  ⟨Table.canonical_nil _, rfl, rfl, Table.canonical_nil _, Table.canonical_nil _, Table.canonical_nil _,
    Table.canonical_nil _, Table.canonical_nil _, Table.canonical_nil _, Table.canonical_nil _, rfl⟩

/-- Settles O60. -/
theorem resetKeepsEveryLaw : Obligations.ResetKeepsEveryLaw :=
  ⟨rfl, fun _ => Slot.law_start, fun _ _ h => (by cases h), bounded_reset,
    fun _ _ _ _ h => (by cases h), mapLaw_reset, countLaw_reset, onAirLaw_reset, fallbackCountLaw_reset,
    rangeLaw_reset, fun i => Input.law_start i, canonical_reset⟩

end Sys2Proof.Machine
end

