-- ==== Sys2Proof/Proofs/Tables.lean ====
section
/-! The stores stay within their places, and the stream map stays on the components of the records (R36 to R38,
R139). -/

namespace Sys2Proof.Machine

/-- What each step of a fold keeps of canonical tables, the fold keeps. -/
theorem foldl_keeps {α : Type} {P : State → Prop} {f : State → α → State} (k : ∀ s a, Kept s (f s a))
    (h : ∀ s a, s.canonical → P s → P (f s a)) (l : List α) {s : State} (c : s.canonical) (p : P s) :
    P (l.foldl f s) := by
  induction l generalizing s with
  | nil => exact p
  | cons a l ih => exact ih ((k s a).canonical c) (h s a c p)

/-! ### An IMMEDIATE commit in two halves -/

/-- A passing IMMEDIATE commit up to its retirements: parts 1 to 3, with the updates taken (R131). -/
def State.bound (s : State) (p : Picture) : State :=
  let t := (p.applied.foldl State.writeLeg (p.applied.foldl State.writeRecord s)).writeBindings
    (p.applied.filterMap Edit.slotEdit?)
  (t.moveSlots (refallback s t)).takeUpdates

theorem core_writePicture (s : State) (p : Picture) :
    (s.writePicture p).core = (p.retired.foldl (fun s c => s.retireRecord c.1) (s.bound p)).core := by
  unfold State.writePicture
  dsimp only
  rw [foldl_same (fun t => t.core) State.fallDue (fun _ _ => by rfl), core_writeOutputs]
  rfl

section
variable (s : State) (p : Picture)

theorem kept_writeRecords (l : List Edit) : Kept s (l.foldl State.writeRecord s) := kept_foldl _ kept_writeRecord _ _

theorem kept_writeLegs (l : List Edit) : Kept s (l.foldl State.writeLeg s) := kept_foldl _ kept_writeLeg _ _

theorem kept_bound : Kept s (s.bound p) := by
  refine .trans ?_ (kept_takeUpdates _)
  refine .trans ?_ (kept_moveSlots _ fun _ _ _ h _ => law_refallback _ h)
  exact .trans (.trans (kept_writeRecords _ _) (kept_writeLegs _ _)) (kept_writeBindings _ _)

/-- What each part keeps of canonical tables up to the retirements, the two halves keep together. -/
theorem bound_keeps {P : State → Prop} (frame : ∀ s t : State, s.core = t.core → P s → P t)
    (rebind : ∀ (s : State) f i b, s.canonical → P s → P (s.rebind f i b))
    (moves : ∀ (s : State) g, P s → P (s.moveSlots g)) (updates : ∀ s : State, s.canonical → P s → P s.takeUpdates)
    (c : s.canonical) (written : P (p.applied.foldl State.writeRecord s)) : P (s.bound p) := by
  have c1 := (kept_writeRecords s p.applied).canonical c
  have c2 := (kept_writeLegs _ p.applied).canonical c1
  have c3 := (kept_writeBindings _ (p.applied.filterMap Edit.slotEdit?)).canonical c2
  refine updates _ ((kept_moveSlots _ fun _ _ _ h _ => law_refallback _ h).canonical c3) (moves _ _ ?_)
  refine foldl_keeps (fun _ _ => kept_rebind _ _ _ _) (fun s b c p => rebind s _ _ _ c p) _ c2 ?_
  exact frame _ _ (core_foldl_writeLeg _ _).symm written

theorem reservesNo_bound : (p.applied.foldl State.writeRecord s).reservesNo (s.bound p) := by
  refine reservesNo_trans ?_ (reservesNo_takeUpdates _)
  refine reservesNo_trans ?_ (reservesNo_moveSlots _ _)
  refine reservesNo_trans (t := p.applied.foldl State.writeLeg (p.applied.foldl State.writeRecord s)) ?_
    (reservesNo_foldl (fun _ _ => reservesNo_rebind _ _ _ _) _ _)
  exact reservesNo_of_records (congrArg (·.1) (core_foldl_writeLeg _ _))

end

/-! ### Places (R36, R139) -/

/-- The stream map and the splice edit store hold no more than they have places for. -/
def State.storesBounded (s : State) : Prop :=
  s.smap.length ≤ Config.mapSize ∧ (s.entries.map fun c => c.2.edits.length).sum ≤ Config.storePlaces
    ∧ ∀ e, (s.entry e).state = .free → (s.entry e).edits = []

/-- The stream map has grown no longer, and each entry holds its edits or none. -/
def State.shrinks (s t : State) : Prop :=
  t.smap.length ≤ s.smap.length ∧ ∀ e, (t.entry e).edits = []
    ∨ ((t.entry e).edits = (s.entry e).edits ∧ ((t.entry e).state = .free → (s.entry e).state = .free))

section
variable {s t u : State}

theorem shrinks_of_same (hm : t.smap.length ≤ s.smap.length) (he : t.entries = s.entries) : s.shrinks t :=
  ⟨hm, fun e => .inr (by rw [entry_congr he]; exact ⟨rfl, id⟩)⟩

theorem shrinks_of_core (h : t.core = s.core) : s.shrinks t :=
  shrinks_of_same (by rw [core_smap h]) (core_entries h)

theorem State.shrinks.trans (h : s.shrinks t) (k : t.shrinks u) : s.shrinks u := by
  refine ⟨k.1.trans h.1, fun e => ?_⟩
  rcases k.2 e with k | ⟨k, k'⟩
  · exact .inl k
  · rcases h.2 e with h | ⟨h, h'⟩
    · exact .inl (k.trans h)
    · exact .inr ⟨k.trans h, fun x => h' (k' x)⟩

theorem shrinks_foldl {α : Type} {f : State → α → State} (h : ∀ s a, State.shrinks s (f s a)) (l : List α)
    (s : State) : s.shrinks (l.foldl f s) := by
  induction l generalizing s with
  | nil => exact shrinks_of_core rfl
  | cons a l ih => exact (h s a).trans (ih _)

/-- An entry's edits stay or go. -/
theorem shrinks_setEntry {e : Nat} {y : Entry} (h : y.edits = []
    ∨ (y.edits = (s.entry e).edits ∧ (y.state = .free → (s.entry e).state = .free))) :
    s.shrinks (s.setEntry e y) := by
  refine ⟨Nat.le_refl _, fun d => ?_⟩
  rw [entry_setEntry]
  split
  · next hd => exact hd ▸ h
  · exact .inr ⟨rfl, id⟩

theorem shrinks_noteExecution (e : Nat) (t : Option StationTime) (a b : Option Nat) :
    s.shrinks (s.setEntry e { s.entry e with executedAt := t, applied := a, skipped := b }) :=
  shrinks_setEntry (.inr ⟨rfl, id⟩)

theorem shrinks_freeEntry (e : Nat) (r : LastResult) (c : Option Code) : s.shrinks (s.freeEntry e r c) :=
  shrinks_setEntry (.inl rfl)

theorem shrinks_freeRecord (h : Nat) : s.shrinks (s.freeRecord h) :=
  shrinks_of_same (List.length_filter_le _ _) rfl

theorem shrinks_takeUpdate (u : OnAirUpdate) : s.shrinks (s.takeUpdate u) := by
  obtain ⟨v, -, ⟨-, h⟩ | ⟨o, -, h⟩⟩ := takeUpdate_cases s u <;> rw [h]
  · exact shrinks_of_same (Nat.le_refl _) rfl
  · exact .trans (t := { s with records := v }) (shrinks_of_same (Nat.le_refl _) rfl) (shrinks_freeRecord o)

theorem shrinks_takeUpdates : s.shrinks s.takeUpdates :=
  .trans (t := { s with updates := [] }) (shrinks_of_same (Nat.le_refl _) rfl)
    (shrinks_foldl (fun _ _ => shrinks_takeUpdate _) _ _)

theorem shrinks_rebind (f i : Nat) (b : Option Binding) : s.shrinks (s.rebind f i b) := by
  have core := core_rebind s f i b
  split at core
  · exact shrinks_of_core core
  · refine .trans ?_ (shrinks_of_core core)
    obtain ⟨v, hv⟩ := plan_eq s ((s.slot f i).planned.map (·.handle)) (b.map (·.handle))
    rw [hv]
    exact shrinks_of_same (Nat.le_refl _) rfl

theorem shrinks_writeBindings (l : List SlotEdit) : s.shrinks (s.writeBindings l) :=
  shrinks_foldl (fun _ _ => shrinks_rebind _ _ _) _ _

theorem shrinks_dropSpliceRefs (l : List SlotEdit) : s.shrinks (s.dropSpliceRefs l) := by
  obtain ⟨v, h⟩ := dropSpliceRefs_eq s l
  rw [h]
  exact shrinks_of_same (Nat.le_refl _) rfl

theorem shrinks_passReservations (e : Nat) (n : Option Nat) : s.shrinks (s.passReservations e n) := by
  obtain ⟨v, h⟩ := passReservations_eq s e n
  rw [h]
  exact shrinks_of_same (Nat.le_refl _) rfl

theorem shrinks_endHeldPartner (e : Nat) (r : LastResult) (c : Option Code) :
    s.shrinks (s.endHeldPartner e r c) := by
  unfold State.endHeldPartner
  split
  · split
    · exact .trans (shrinks_dropSpliceRefs _) (shrinks_freeEntry _ _ _)
    · exact shrinks_of_core rfl
  · exact shrinks_of_core rfl

theorem shrinks_armReturn (e : Nat) : s.shrinks (s.armReturn e) := by
  unfold State.armReturn
  split
  · refine .trans (shrinks_passReservations e _) (shrinks_setEntry (.inr ⟨?_, fun x => (by cases x)⟩))
    obtain ⟨v, h⟩ := passReservations_eq s e _
    rw [h]
    rfl
  · exact shrinks_passReservations _ _

theorem shrinks_finishEntry (e a k : Nat) : s.shrinks (s.finishEntry e a k) := by
  unfold State.finishEntry
  extract_lets x tracked
  split
  · refine .trans ?_ (shrinks_of_core (core_raise _ _ _))
    exact .trans (shrinks_noteExecution e _ _ _) (shrinks_freeEntry e _ _)
  · exact shrinks_setEntry (.inr ⟨rfl, fun x => (by cases x)⟩)

theorem shrinks_passEntry (e : Nat) (p : Picture) : s.shrinks (s.passEntry e p) := by
  unfold State.passEntry
  dsimp only
  refine .trans ?_ (shrinks_finishEntry e _ _)
  refine .trans ?_ (shrinks_armReturn e)
  refine .trans ?_ shrinks_takeUpdates
  exact .trans (shrinks_writeBindings _) (shrinks_dropSpliceRefs _)

theorem shrinks_failEntry (e : Nat) (c : Code) : s.shrinks (s.failEntry e c) := by
  unfold State.failEntry
  extract_lets u v x
  refine .trans ?_ (shrinks_of_core (core_raise _ _ _))
  refine .trans ?_ (shrinks_freeEntry e _ _)
  refine .trans (t := v) ?_ (shrinks_noteExecution e _ _ _)
  exact .trans (shrinks_endHeldPartner _ _ _) (.trans (shrinks_dropSpliceRefs _) (shrinks_passReservations _ _))

theorem shrinks_clearPartner (e : Nat) : s.shrinks (s.clearPartner e) := by
  unfold State.clearPartner
  split
  · exact shrinks_setEntry (.inr ⟨rfl, id⟩)
  · exact shrinks_of_core rfl

theorem shrinks_dropEntry (e : Nat) : s.shrinks (s.dropEntry e) := by
  unfold State.dropEntry
  dsimp only
  refine .trans ?_ (shrinks_freeEntry e _ _)
  refine .trans ?_ (shrinks_passReservations e _)
  refine .trans ?_ (shrinks_dropSpliceRefs _)
  split
  · exact shrinks_clearPartner e
  · exact shrinks_endHeldPartner e _ _

theorem shrinks_setWs (r : Requester) (w : Workspace) : s.shrinks (s.setWs r w) := by
  cases r <;> exact shrinks_of_same (Nat.le_refl _) rfl

theorem shrinks_endBatch (r : Requester) (o : OutcomeRecord) : s.shrinks (s.endBatch r o) := by
  refine .trans (.trans (t := (s.freeReserved (s.ws r).handles).releaseClaims r) ?_ (shrinks_setWs r .start))
    (shrinks_of_core (core_setOutcome _ _ _))
  refine .trans (t := s.freeReserved (s.ws r).handles) (shrinks_foldl (fun s h => ?_) _ _)
    (shrinks_of_core (core_releaseClaims _ _))
  split
  · exact shrinks_freeRecord _
  · exact shrinks_of_core rfl

theorem shrinks_writeRecord (e : Edit) : s.shrinks (s.writeRecord e) := by
  obtain ⟨v, w, h⟩ := writeRecord_eq s e
  have smap := writeRecord_smap s e
  rw [h] at smap ⊢
  refine shrinks_of_same ?_ rfl
  rcases smap with ⟨_, _, -, hw⟩ | hw
  · exact (congrArg List.length hw).trans_le (by rw [List.length_map])
  · exact (congrArg List.length hw).le

theorem shrinks_retireRecord (h : Nat) : s.shrinks (s.retireRecord h) := by
  obtain ⟨v, -, ⟨-, e⟩ | ⟨r, -, ⟨-, e⟩ | ⟨-, e⟩⟩⟩ := retireRecord_cases s h <;> rw [e]
  · exact shrinks_of_same (Nat.le_refl _) rfl
  · exact .trans (t := { s with records := v }) (shrinks_of_same (Nat.le_refl _) rfl) (shrinks_freeRecord h)
  · exact shrinks_of_same (Nat.le_refl _) rfl

theorem shrinks_moveSlots (g : Nat → Slot → Option Move) : s.shrinks (s.moveSlots g) := by
  obtain ⟨a, u, v, w, x, h⟩ := moveSlots_eq s g
  rw [h]
  exact shrinks_of_same (Nat.le_refl _) rfl

theorem shrinks_writePicture (p : Picture) : s.shrinks (s.writePicture p) := by
  refine .trans ?_ (shrinks_of_core (core_writePicture s p))
  refine .trans (t := s.bound p) ?_ (shrinks_foldl (fun _ _ => shrinks_retireRecord _) _ _)
  refine .trans ?_ shrinks_takeUpdates
  refine .trans ?_ (shrinks_moveSlots _)
  refine .trans ?_ (shrinks_writeBindings _)
  exact .trans (shrinks_foldl (fun _ _ => shrinks_writeRecord _) _ _) (shrinks_of_core (core_foldl_writeLeg _ _))

/-- The edits of the listed entries are those of the entries below any number past the last. -/
theorem storeUse_eq (c : s.canonical) {N : Nat} (h : ∀ c ∈ s.entries, c.1 < N) :
    (s.entries.map fun c => c.2.edits.length).sum = ∑ e ∈ Finset.range N, (s.entry e).edits.length := by
  rw [Table.sum_eq c.entries_rising (fun x => x.edits.length) h]
  exact Finset.sum_congr rfl fun e _ => Table.elim_find? (d := Entry.start) (g := fun x => x.edits.length) rfl s.entries e

theorem storesBounded_shrinks (cs : s.canonical) (ct : t.canonical) (h : s.shrinks t) (p : s.storesBounded) :
    t.storesBounded := by
  obtain ⟨hm, he⟩ := h
  obtain ⟨pm, pe, pf⟩ := p
  refine ⟨hm.trans pm, ?_, fun e hf => ?_⟩
  · obtain ⟨N, hN⟩ := Table.keys_lt s.entries
    obtain ⟨M, hM⟩ := Table.keys_lt t.entries
    rw [storeUse_eq cs (N := N + M) fun c hc => by have := hN c hc; omega] at pe
    rw [storeUse_eq ct (N := N + M) fun c hc => by have := hM c hc; omega]
    refine (Finset.sum_le_sum fun e _ => ?_).trans pe
    rcases he e with he | ⟨he, -⟩ <;> rw [he]
    exact Nat.zero_le _
  · rcases he e with he | ⟨he, hs⟩
    · exact he
    · rw [he, pf e (hs hf)]

end

/-! The entries of a DEFERRED commit (R134, R136). -/

section
variable {s : State}

theorem mem_freeEntries (e : Nat) : e ∈ s.freeEntries ↔ e < 64 ∧ (s.entry e).state = .free := by
  simp [State.freeEntries, Config.spliceEntries]

theorem rising_freeEntries : s.freeEntries.Pairwise (· < ·) := List.pairwise_lt_range.filter _

/-- What stage 5 gives out: FREE entries, a second one for a return, and places for the edits (R134). -/
theorem allocate_eq_ok {a b o : Nat} {ret : Bool} {n : Option Nat} (h : allocate s a b ret = .ok (o, n)) :
    (s.entry o).state = .free ∧ ((n = none ∧ ret = false ∧ a ≤ s.freePlaces)
      ∨ ∃ m, n = some m ∧ ret = true ∧ o ≠ m ∧ (s.entry m).state = .free ∧ a + b ≤ s.freePlaces) := by
  have rising := rising_freeEntries (s := s)
  have free := fun e => (mem_freeEntries (s := s) e).1
  unfold allocate at h
  split at h
  · next hf =>
    rw [hf] at rising free
    split at h <;> cases h
    refine ⟨(free o (by simp)).2, .inr ⟨_, rfl, rfl, ?_, (free _ (by simp)).2, by assumption⟩⟩
    exact Nat.ne_of_lt ((List.pairwise_cons.1 rising).1 _ (by simp))
  · next hf =>
    rw [hf] at free
    split at h <;> cases h
    exact ⟨(free o (by simp)).2, .inl ⟨rfl, rfl, by assumption⟩⟩
  · cases h

/-- An entry begins to wait: its edits are counted on their records (R15, R136). -/
def State.arm (s : State) (e : Nat) (x : Entry) : State := (s.setEntry e x).addSpliceRefs x.edits

theorem reserve_setEntry (e : Nat) (x : Entry) (l : List SlotEdit) (n : Nat) :
    (s.setEntry e x).reserve l n = (s.reserve l n).setEntry e x := by
  unfold State.reserve
  generalize bindingsOf l = t
  induction t generalizing s with
  | nil => rfl
  | cons c t ih => exact ih (s := s.setSlotAt c.1 { s.slotAt c.1 with reserved := some n })

theorem armEntries_none (r : Requester) (w : Workspace) (t : Trigger) (a b : List SlotEdit) (o : Nat) :
    s.armEntries r w t a b o none = (s.reserve a o).arm o (originalEntry r w t a none) :=
  congrArg (State.addSpliceRefs · a) (reserve_setEntry ..)

theorem armEntries_some (r : Requester) {w : Workspace} (t : Trigger) (a b : List SlotEdit) (o m : Nat)
    {ro : ReturnOption} (h : w.returnOpt = some ro) : s.armEntries r w t a b o (some m)
      = ((s.reserve a o).arm o (originalEntry r w t a (some m))).arm m (returnEntry r w t ro b o) := by
  unfold State.armEntries
  rw [h]
  dsimp only
  rw [reserve_setEntry]
  rfl

theorem arm_eq (e : Nat) (x : Entry) : ∃ v, s.arm e x = { s.setEntry e x with records := v } :=
  addSpliceRefs_eq _ _

theorem entry_arm (e d : Nat) (x : Entry) : (s.arm e x).entry d = if e = d then x else s.entry d := by
  obtain ⟨v, h⟩ := arm_eq (s := s) e x
  rw [h]
  exact entry_setEntry s e d x

theorem record?_arm (e h : Nat) (x : Entry) : (s.arm e x).record? h
    = (s.record? h).map fun r => { r with spliceRefs := r.spliceRefs + bindsOf x.edits h } :=
  record?_addSpliceRefs _ _ _

theorem kept_arm (e : Nat) (x : Entry) : Kept s (s.arm e x) := (kept_setEntry _ _ _).trans (kept_addSpliceRefs _ _)

theorem entry_reserve (l : List SlotEdit) (n e : Nat) : (s.reserve l n).entry e = s.entry e := by
  obtain ⟨v, h⟩ := reserve_eq s l n
  rw [h]
  rfl

/-- The places taken in the splice edit store (R139). -/
def State.storeUse (s : State) : Nat := (s.entries.map fun c => c.2.edits.length).sum

/-- With nothing in FREE entries, what is not used is free. -/
theorem storeUse_add_freePlaces (c : s.canonical) (p : s.storesBounded) : s.storeUse + s.freePlaces = 1024 := by
  obtain ⟨-, use, empty⟩ := p
  have same : (s.entries.map fun c => if c.2.state = .free then 0 else c.2.edits.length).sum = s.storeUse := by
    refine congrArg List.sum (List.map_congr_left fun x hx => ?_)
    have look : s.entry x.1 = x.2 := by
      unfold State.entry Table.look
      rw [Table.find?_of_mem _ c.entries_rising x hx]
      rfl
    split
    · next hf => rw [← look, empty _ (look ▸ hf)]; rfl
    · rfl
  have use : s.storeUse ≤ Config.storePlaces := use
  unfold State.freePlaces
  rw [same]
  simp only [Config.storePlaces] at use ⊢
  omega

theorem storeUse_arm (c : s.canonical) {e : Nat} (x : Entry) (h : (s.entry e).edits = []) :
    (s.arm e x).storeUse = s.storeUse + x.edits.length := by
  have ct := (kept_arm e x).canonical c
  obtain ⟨N, hN⟩ := Table.keys_lt s.entries
  obtain ⟨M, hM⟩ := Table.keys_lt (s.arm e x).entries
  have he : e ∈ Finset.range (N + M + (e + 1)) := Finset.mem_range.2 (by omega)
  unfold State.storeUse
  rw [storeUse_eq c (N := N + M + (e + 1)) fun d hd => by have := hN d hd; omega,
    storeUse_eq ct (N := N + M + (e + 1)) fun d hd => by have := hM d hd; omega,
    ← Finset.sum_erase_add _ _ he, ← Finset.sum_erase_add (Finset.range _) (fun d => (s.entry d).edits.length) he,
    entry_arm, if_pos rfl, h]
  refine congrArg (· + _) (Finset.sum_congr rfl fun d hd => ?_)
  rw [entry_arm, if_neg (Finset.ne_of_mem_erase hd).symm]

/-- An entry that begins to wait takes its places in the store (R134, R139). -/
theorem storesBounded_arm (c : s.canonical) {e : Nat} {x : Entry} (h : (s.entry e).state = .free)
    (hx : x.state ≠ .free) (room : s.storeUse + x.edits.length ≤ 1024) (p : s.storesBounded) :
    (s.arm e x).storesBounded := by
  obtain ⟨v, hv⟩ := arm_eq (s := s) e x
  refine ⟨?_, ?_, fun d hd => ?_⟩
  · rw [hv]; exact p.1
  · exact (storeUse_arm c x (p.2.2 e h)).trans_le room
  · rw [entry_arm] at hd ⊢
    split at hd
    · exact absurd hd hx
    · next hne => rw [if_neg hne]; exact p.2.2 d hd

theorem storeUse_reserve (l : List SlotEdit) (n : Nat) : (s.reserve l n).storeUse = s.storeUse := by
  obtain ⟨v, h⟩ := reserve_eq s l n
  rw [h]
  rfl

theorem shrinks_reserve (l : List SlotEdit) (n : Nat) : s.shrinks (s.reserve l n) := by
  obtain ⟨v, h⟩ := reserve_eq s l n
  rw [h]
  exact shrinks_of_same (Nat.le_refl _) rfl

theorem storesBounded_armEntries (c : s.canonical) {r : Requester} {w : Workspace} {t : Trigger} {a b : List SlotEdit}
    {o : Nat} {n : Option Nat} (h : allocate s a.length b.length w.returnOpt.isSome = .ok (o, n))
    (p : s.storesBounded) : (s.armEntries r w t a b o n).storesBounded := by
  have c1 := (kept_reserve s a o).canonical c
  have p1 := storesBounded_shrinks c c1 (shrinks_reserve a o) p
  have places := storeUse_add_freePlaces c p
  obtain ⟨free, ⟨rfl, -, room⟩ | ⟨m, rfl, ret, ne, free', room⟩⟩ := allocate_eq_ok h
  · rw [armEntries_none]
    refine storesBounded_arm c1 (by rwa [entry_reserve]) nofun ?_ p1
    rw [storeUse_reserve]
    simp only [originalEntry]
    omega
  · obtain ⟨ro, hro⟩ := Option.isSome_iff_exists.1 ret
    rw [armEntries_some _ _ _ _ _ _ hro]
    have first : ((s.reserve a o).arm o (originalEntry r w t a (some m))).storeUse = s.storeUse + a.length := by
      rw [storeUse_arm c1 _ (by rw [entry_reserve]; exact p.2.2 o free), storeUse_reserve]
      rfl
    refine storesBounded_arm ((kept_arm _ _).canonical c1) ?_ nofun ?_
      (storesBounded_arm c1 (by rwa [entry_reserve]) nofun ?_ p1)
    · rw [entry_arm, if_neg ne, entry_reserve]
      exact free'
    · rw [first]
      simp only [returnEntry]
      omega
    · rw [storeUse_reserve]
      simp only [originalEntry]
      omega

end

/-! The map entries of a CREATE RECORD (R37, R111). -/

theorem length_reserveEntries (s : State) (h : Nat) (c : CreateFields) :
    (s.reserveEntries h c).smap.length ≤ s.smap.length + c.components.length := by
  have keys : (mapKeys c).length = c.components.length := List.length_mapIdx
  unfold State.reserveEntries
  rw [← keys]
  dsimp only
  generalize mapKeys c = l
  generalize s.smap = t
  induction l generalizing t with
  | nil => exact Nat.le_refl _
  | cons x l ih =>
    have := ih (Table.put t x.1 ⟨h, x.2, false, none⟩)
    have := Table.length_put_le t x.1 (⟨h, x.2, false, none⟩ : MapEntry)
    rw [List.foldl_cons, List.length_cons]
    omega

/-- What an arrived CREATE RECORD reserves, and on which conditions (R2, R4, R37, R111). -/
theorem reserveRecord_eq_ok {s t : State} {r : Requester} {c : CreateFields} {h : Nat}
    (e : s.reserveRecord r c = .ok (h, t)) : t = (s.setRecord h (createdRecord r c)).reserveEntries h c
      ∧ (∀ x ∈ s.records, x.2.key ≠ c.key) ∧ s.lowestFree = some h
      ∧ (∀ x ∈ c.components, x.pid ∉ (s.input c.key.input).reservedPids ∧ s.mapped c.key.input x.pid = false)
      ∧ s.smap.length + c.components.length ≤ 4096 := by
  unfold State.reserveRecord at e
  split at e
  · cases e
  · next keys =>
    split at e
    · cases e
    · next low =>
      dsimp only at e
      split at e
      · cases e
      · next taken =>
        split at e
        · cases e
        · next room =>
          cases e
          refine ⟨rfl, ?_, low, ?_, ?_⟩
          · simpa using keys
          · simpa [not_or] using taken
          · simpa [Config.mapSize] using room

theorem record?_of_lowestFree {s : State} {h : Nat} (e : s.lowestFree = some h) : s.record? h = none := by
  simpa using List.find?_some e

theorem stage_eq_zero {x : EntryState} : x.stage = 0 ↔ x = .free := by cases x <;> simp [EntryState.stage]

theorem kept_dropEntry (s : State) (e : Nat) : Kept s (s.dropEntry e) := by
  unfold State.dropEntry
  dsimp only
  refine .trans ?_ (kept_freeEntry _ _ _ _)
  refine .trans ?_ (kept_passReservations _ _ _)
  refine .trans ?_ (kept_dropSpliceRefs _ _)
  exact kept_ite (kept_clearPartner _ _) (kept_endHeldPartner _ _ _ _)

theorem lawful_storesBounded : Lawful State.storesBounded where
  reset s h := by
    refine ⟨?_, ?_, fun e _ => ?_⟩
    · rw [core_smap h]; exact Nat.zero_le _
    · rw [core_entries h]; exact Nat.zero_le _
    · rw [core_entry h]; rfl
  frame s t h p := by
    unfold State.storesBounded at *
    simpa only [core_smap h, core_entries h, core_entry h] using p
  touch _ _ _ _ _ _ _ p := p
  smap s m _ _ hl p := ⟨hl.trans_le p.1, p.2⟩
  update s u rest c h p := storesBounded_shrinks (s := { s with updates := rest }) c
    ((kept_takeUpdate { s with updates := rest } u).canonical c) (shrinks_takeUpdate u) p
  move _ _ _ _ _ p := p
  entry s e y c h p := by
    have edits : y.edits = (s.entry e).edits := congrArg (·.2.1) h
    have stage : y.state.stage = (s.entry e).state.stage := congrArg (·.1) h
    refine storesBounded_shrinks c ((kept_setEntry _ _ _).canonical c) (shrinks_setEntry (.inr ⟨edits, fun hf => ?_⟩)) p
    rw [hf] at stage
    exact stage_eq_zero.1 stage.symm
  freed s e r cd c _ p := storesBounded_shrinks c ((kept_freeEntry _ _ _ _).canonical c) (shrinks_freeEntry _ _ _) p
  pass s e q c _ _ _ p := storesBounded_shrinks c ((kept_passEntry _ _ _).canonical c) (shrinks_passEntry _ _) p
  fail s e cd c _ p := storesBounded_shrinks c ((kept_failEntry _ _ _).canonical c) (shrinks_failEntry _ _) p
  cancel s e c _ p := storesBounded_shrinks c ((kept_dropEntry _ _).canonical c) (shrinks_dropEntry _) p
  ended s r o c p := storesBounded_shrinks c ((kept_endBatch _ _ _).canonical c) (shrinks_endBatch _ _) p
  immediate s r o q c _ _ _ p := storesBounded_shrinks c
    (((kept_writePicture _ _).trans (kept_endBatch _ _ _)).canonical c)
    (.trans (shrinks_writePicture q) (shrinks_endBatch r o)) p
  deferred s r q t oc e n c _ _ ha p := by
    have ca := (kept_armEntries s r (s.ws r) t (q.applied.filterMap Edit.slotEdit?)
      (inverseEdits s (q.applied.filterMap Edit.slotEdit?)) e n).canonical c
    exact storesBounded_shrinks ca ((kept_endBatch _ _ _).canonical ca) (shrinks_endBatch r oc)
      (storesBounded_armEntries c ha p)
  opened s r _ _ _ p := by cases r <;> exact p
  hold s r _ _ _ p := by cases r <;> exact p
  create s r c h t _ _ _ e p := by
    obtain ⟨rfl, -, -, -, room⟩ := reserveRecord_eq_ok e
    have smap : ((s.setRecord h (createdRecord r c)).reserveEntries h c).smap.length ≤ 4096 :=
      (length_reserveEntries _ _ _).trans room
    have p' : ((s.setRecord h (createdRecord r c)).reserveEntries h c).storesBounded := ⟨smap, p.2⟩
    cases r <;> exact p'

end Sys2Proof.Machine
end

