-- ==== Sys2Proof/Proofs/Splices.lean ====
section
/-! What the splice scheduler does to the carriage table and the slots beside changed bindings: it counts its
references and reserves its slots, and nothing else (R15, R70, R136, R151 to R156). -/

namespace Sys2Proof.Machine

/-- `t` has the records of `s` but for their splice references, its slots but for their reservations, and its stream
map, updates and workspaces. -/
structure State.splices (s t : State) : Prop where
  records : ∃ f : Nat → Nat → Nat, ∀ h, t.record? h = (s.record? h).map fun r =>
    { r with spliceRefs := f h r.spliceRefs }
  slots : ∀ k, ∃ n, t.slotAt k = { s.slotAt k with reserved := n }
  smap : t.smap = s.smap
  updates : t.updates = s.updates
  ws : ∀ r, (t.ws r).core = (s.ws r).core

section
variable {s t u : State}

theorem splices_of_same (hr : t.records = s.records) (hs : t.slots = s.slots) (hm : t.smap = s.smap)
    (hu : t.updates = s.updates) (hw : ∀ r, (t.ws r).core = (s.ws r).core) : s.splices t where
  records := ⟨fun _ n => n, fun h => by unfold State.record?; rw [hr]; exact (Option.map_id' ..).symm⟩
  slots := fun k => ⟨(s.slotAt k).reserved, by unfold State.slotAt; rw [hs]⟩
  smap := hm
  updates := hu
  ws := hw

theorem splices_refl (s : State) : s.splices s := splices_of_same rfl rfl rfl rfl fun _ => rfl

theorem splices_of_core (h : t.core = s.core) : s.splices t :=
  splices_of_same (congrArg (·.1) h) (congrArg (·.2.2.1) h) (core_smap h) (core_updates h) (core_ws h)

theorem State.splices.trans (h : s.splices t) (k : t.splices u) : s.splices u where
  records := by
    obtain ⟨f, hf⟩ := h.records
    obtain ⟨g, hg⟩ := k.records
    refine ⟨fun n m => g n (f n m), fun n => ?_⟩
    rw [hg, hf, Option.map_map]
    rfl
  slots := fun n => by
    obtain ⟨a, ha⟩ := h.slots n
    obtain ⟨b, hb⟩ := k.slots n
    exact ⟨b, by rw [hb, ha]⟩
  smap := k.smap.trans h.smap
  updates := k.updates.trans h.updates
  ws := fun r => (k.ws r).trans (h.ws r)

theorem splices_setEntry (e : Nat) (x : Entry) : s.splices (s.setEntry e x) :=
  splices_of_same rfl rfl rfl rfl fun _ => rfl

theorem splices_freeEntry (e : Nat) (r : LastResult) (c : Option Code) : s.splices (s.freeEntry e r c) :=
  splices_setEntry _ _

theorem splices_raise (k : AttKind) (d : Nat) : s.splices (s.raise k d) := splices_of_core (core_raise s k d)

theorem splices_dropSpliceRefs (l : List SlotEdit) : s.splices (s.dropSpliceRefs l) := by
  obtain ⟨v, h⟩ := dropSpliceRefs_eq s l
  have records := record?_dropSpliceRefs s l
  rw [h] at records ⊢
  exact ⟨⟨fun g n => n - bindsOf l g, records⟩, fun k => ⟨_, rfl⟩, rfl, rfl, fun _ => rfl⟩

theorem splices_addSpliceRefs (l : List SlotEdit) : s.splices (s.addSpliceRefs l) := by
  obtain ⟨v, h⟩ := addSpliceRefs_eq s l
  have records := record?_addSpliceRefs s l
  rw [h] at records ⊢
  exact ⟨⟨fun g n => n + bindsOf l g, records⟩, fun k => ⟨_, rfl⟩, rfl, rfl, fun _ => rfl⟩

theorem splices_of_slots {v : Table Slot} (h : ∀ k, ∃ n, ({ s with slots := v } : State).slotAt k
    = { s.slotAt k with reserved := n }) : s.splices { s with slots := v } where
  records := ⟨fun _ n => n, fun _ => (Option.map_id' ..).symm⟩
  slots := h
  smap := rfl
  updates := rfl
  ws := fun _ => rfl

theorem splices_passReservations (e : Nat) (n : Option Nat) : s.splices (s.passReservations e n) := by
  obtain ⟨v, h⟩ := passReservations_eq s e n
  have slots := slotAt_passReservations s e n
  rw [h] at slots ⊢
  refine splices_of_slots fun k => ?_
  rw [slots]
  split
  · exact ⟨n, rfl⟩
  · exact ⟨(s.slotAt k).reserved, rfl⟩

theorem splices_reserve (l : List SlotEdit) (e : Nat) : s.splices (s.reserve l e) := by
  obtain ⟨v, h⟩ := reserve_eq s l e
  have slots := slotAt_reserve s l e
  rw [h] at slots ⊢
  refine splices_of_slots fun k => ?_
  rw [slots]
  split
  · exact ⟨e, rfl⟩
  · exact ⟨(s.slotAt k).reserved, rfl⟩

theorem splices_clearPartner (e : Nat) : s.splices (s.clearPartner e) := by
  unfold State.clearPartner
  split
  · exact splices_setEntry _ _
  · exact splices_refl s

theorem splices_endHeldPartner (e : Nat) (r : LastResult) (c : Option Code) : s.splices (s.endHeldPartner e r c) := by
  unfold State.endHeldPartner
  split
  · split
    · exact (splices_dropSpliceRefs _).trans (splices_freeEntry _ _ _)
    · exact splices_refl s
  · exact splices_refl s

theorem splices_armReturn (e : Nat) : s.splices (s.armReturn e) := by
  unfold State.armReturn
  split
  · exact (splices_passReservations _ _).trans (splices_setEntry _ _)
  · exact splices_passReservations _ _

theorem splices_finishEntry (e a k : Nat) : s.splices (s.finishEntry e a k) := by
  unfold State.finishEntry
  dsimp only
  split
  · refine State.splices.trans ?_ (splices_raise _ _)
    refine State.splices.trans ?_ (splices_freeEntry e _ _)
    exact splices_setEntry e _
  · exact splices_setEntry _ _

theorem splices_failEntry (e : Nat) (c : Code) : s.splices (s.failEntry e c) := by
  unfold State.failEntry
  dsimp only
  refine State.splices.trans ?_ (splices_raise _ _)
  refine State.splices.trans ?_ (splices_freeEntry e _ _)
  refine State.splices.trans ?_ (splices_setEntry e _)
  refine State.splices.trans ?_ (splices_passReservations e none)
  refine State.splices.trans ?_ (splices_dropSpliceRefs _)
  exact splices_endHeldPartner e _ _

theorem splices_dropEntry (e : Nat) : s.splices (s.dropEntry e) := by
  unfold State.dropEntry
  dsimp only
  refine State.splices.trans ?_ (splices_freeEntry e _ _)
  refine State.splices.trans ?_ (splices_passReservations e none)
  refine State.splices.trans ?_ (splices_dropSpliceRefs _)
  split
  · exact splices_clearPartner e
  · exact splices_endHeldPartner e _ _

theorem splices_arm (e : Nat) (x : Entry) : s.splices (s.arm e x) :=
  (splices_setEntry e x).trans (splices_addSpliceRefs _)

theorem splices_armEntries {r : Requester} {w : Workspace} {t : Trigger} {a b : List SlotEdit} {o : Nat}
    {n : Option Nat} (h : allocate s a.length b.length w.returnOpt.isSome = .ok (o, n)) :
    s.splices (s.armEntries r w t a b o n) := by
  obtain ⟨-, ⟨rfl, -⟩ | ⟨m, rfl, ret, -⟩⟩ := allocate_eq_ok h
  · rw [armEntries_none]
    exact (splices_reserve a o).trans (splices_arm o _)
  · obtain ⟨ro, hro⟩ := Option.isSome_iff_exists.1 ret
    rw [armEntries_some _ _ _ _ _ _ hro]
    exact ((splices_reserve a o).trans (splices_arm o _)).trans (splices_arm m _)

end

end Sys2Proof.Machine
end

