-- ==== Sys2Proof/Proofs/Maps.lean ====
section
/-! The stream map stays on the components of the records that are not FREE (R36 to R38), and what every step keeps
of the tables (O56). -/

namespace Sys2Proof.Machine

/-! ### What the law of the stream map reads -/

/-- What the law of the stream map reads of a record. -/
def Record.mapping (x : Record) := (decide (x.state = .reserved), x.key, x.components)

/-- The two states have the same records and stream map, as the law of the map reads them. -/
def State.mapsAs (s t : State) : Prop :=
  (∀ h, (t.record? h).map Record.mapping = (s.record? h).map Record.mapping)
    ∧ ∀ k, (Table.find? t.smap k).map MapEntry.place = (Table.find? s.smap k).map MapEntry.place

section
variable {s t u : State}

theorem State.mapsAs.trans (h : s.mapsAs t) (k : t.mapsAs u) : s.mapsAs u :=
  ⟨fun g => (k.1 g).trans (h.1 g), fun g => (k.2 g).trans (h.2 g)⟩

theorem mapsAs_of_core (h : s.core = t.core) : s.mapsAs t :=
  ⟨fun g => by rw [core_record? h], fun k => by rw [core_smap h]⟩

/-- Changed records, each with its state, key and components. -/
theorem mapsAs_of_records {f : Nat → Record → Record} (h : ∀ g, t.record? g = (s.record? g).map (f g))
    (hf : ∀ g r, (f g r).mapping = r.mapping) (hm : t.smap = s.smap) : s.mapsAs t := by
  refine ⟨fun g => ?_, fun k => by rw [hm]⟩
  rw [h g, Option.map_map]
  congr 1
  funext r
  exact hf g r

theorem mapsAs_setRecord {h : Nat} {x y : Record} (hx : s.record? h = some x)
    (e : y.mapping = x.mapping) : s.mapsAs (s.setRecord h y) := by
  refine ⟨fun g => ?_, fun _ => rfl⟩
  rw [record?_setRecord]
  split
  · next hg => rw [← hg, hx, Option.map_some, Option.map_some, e]
  · rfl

theorem mapsAs_of_same (hr : t.records = s.records) (hm : t.smap = s.smap) : s.mapsAs t :=
  ⟨fun g => by unfold State.record?; rw [hr], fun k => by rw [hm]⟩

theorem mapLaw_congr (h : s.mapsAs t) (p : s.mapLaw) : t.mapLaw := by
  obtain ⟨hr, hm⟩ := h
  have record : ∀ g y, t.record? g = some y → ∃ x, s.record? g = some x ∧ x.mapping = y.mapping := by
    intro g y hy
    have := hr g
    rw [hy, Option.map_some] at this
    obtain ⟨x, hx, e⟩ := Option.map_eq_some_iff.1 this.symm
    exact ⟨x, hx, e⟩
  have record' : ∀ g x, s.record? g = some x → ∃ y, t.record? g = some y ∧ y.mapping = x.mapping := by
    intro g x hx
    have := hr g
    rw [hx, Option.map_some] at this
    obtain ⟨y, hy, e⟩ := Option.map_eq_some_iff.1 this
    exact ⟨y, hy, e⟩
  have entry : ∀ k n, Table.find? t.smap k = some n → ∃ m, Table.find? s.smap k = some m ∧ m.place = n.place := by
    intro k n hn
    have := hm k
    rw [hn, Option.map_some] at this
    obtain ⟨m, hm, e⟩ := Option.map_eq_some_iff.1 this.symm
    exact ⟨m, hm, e⟩
  have entry' : ∀ k m, Table.find? s.smap k = some m → ∃ n, Table.find? t.smap k = some n ∧ n.place = m.place := by
    intro k m hn
    have := hm k
    rw [hn, Option.map_some] at this
    obtain ⟨n, hm, e⟩ := Option.map_eq_some_iff.1 this
    exact ⟨n, hm, e⟩
  refine ⟨fun k n hn => ?_, fun g y hy k c hc => ?_⟩
  · obtain ⟨m, hmk, e⟩ := entry k n hn
    obtain ⟨x, c, hx, hc, hk, ha⟩ := p.1 k m hmk
    simp only [MapEntry.place, Prod.mk.injEq] at e
    obtain ⟨y, hy, ey⟩ := record' _ x (e.1 ▸ hx)
    simp only [Record.mapping, Prod.mk.injEq, decide_eq_decide] at ey
    refine ⟨y, c, hy, ?_, ?_, ?_⟩
    · rw [ey.2.2, ← e.2.1]; exact hc
    · rw [ey.2.1]; exact hk
    · rw [← e.2.2, ha, ne_eq, ne_eq, ey.1]
  · obtain ⟨x, hx, ex⟩ := record g y hy
    simp only [Record.mapping, Prod.mk.injEq] at ex
    obtain ⟨m, hmk, hh, hi⟩ := p.2 g x hx k c (by rw [ex.2.2]; exact hc)
    obtain ⟨n, hn, en⟩ := entry' _ m hmk
    simp only [MapEntry.place, Prod.mk.injEq] at en
    refine ⟨n, ?_, en.1.trans hh, en.2.1.trans hi⟩
    rw [← ex.2.1]
    exact hn

/-! ### Records that come, are committed and go -/

theorem mapLaw_freeRecord (h : Nat) (c : Table.rising s.smap = true) (p : s.mapLaw) : (s.freeRecord h).mapLaw := by
  have find : ∀ k, Table.find? (s.freeRecord h).smap k
      = (Table.find? s.smap k).filter fun m => m.handle != h := fun k =>
    Table.find?_filter c _ k
  refine ⟨fun k m hm => ?_, fun g x hx k c hc => ?_⟩
  · rw [find, Option.filter_eq_some_iff] at hm
    obtain ⟨x, d, hx, rest⟩ := p.1 k m hm.1
    have ne : m.handle ≠ h := by simpa using hm.2
    refine ⟨x, d, ?_, rest⟩
    rw [record?_freeRecord, if_neg ne.symm]
    exact hx
  · rw [record?_freeRecord] at hx
    split at hx
    · cases hx
    · next hg =>
      obtain ⟨m, hm, hh, hk⟩ := p.2 g x hx k c hc
      refine ⟨m, ?_, hh, hk⟩
      rw [find, hm, Option.filter_some, if_pos]
      rw [hh]
      simpa using fun e => hg e.symm

theorem mapLaw_commitRecord (h : Nat) (p : s.mapLaw) : (s.commitRecord h).mapLaw := by
  have find : ∀ k, Table.find? (s.commitRecord h).smap k = (Table.find? s.smap k).map (activate h) := by
    intro k
    obtain ⟨v, hv⟩ := commitRecord_eq s h
    rw [hv]
    exact Table.find?_map s.smap (fun _ => activate h) k
  have record := record?_commitRecord s h
  refine ⟨fun k n hn => ?_, fun g y hy k c hc => ?_⟩
  · rw [find, Option.map_eq_some_iff] at hn
    obtain ⟨m, hm, rfl⟩ := hn
    obtain ⟨x, c, hx, hc, hk, ha⟩ := p.1 k m hm
    have place : (activate h m).handle = m.handle ∧ (activate h m).index = m.index := by
      unfold activate; split <;> exact ⟨rfl, rfl⟩
    rw [place.1, place.2, record, hx]
    refine ⟨_, c, rfl, ?_, ?_, ?_⟩
    · dsimp only; split <;> exact hc
    · dsimp only; split <;> exact hk
    · unfold activate
      by_cases e : m.handle = h
      · simp [e, Record.goLive]
      · simp [e, Ne.symm e, ha]
  · rw [record, Option.map_eq_some_iff] at hy
    obtain ⟨x, hx, rfl⟩ := hy
    have same : (if h = g then x.goLive s else x).components = x.components
        ∧ (if h = g then x.goLive s else x).key = x.key := by
      split <;> exact ⟨rfl, rfl⟩
    dsimp only at hc
    rw [same.1] at hc
    obtain ⟨m, hm, hh, hi⟩ := p.2 g x hx k c hc
    refine ⟨activate h m, ?_, ?_, ?_⟩
    · dsimp only
      rw [same.2, find, hm]
      rfl
    · unfold activate; split <;> exact hh
    · unfold activate; split <;> exact hi

theorem mapLaw_writeRecord (e : Edit) (p : s.mapLaw) : (s.writeRecord e).mapLaw := by
  cases e with
  | create h c => exact mapLaw_commitRecord h p
  | amend a =>
    refine mapLaw_congr (mapsAs_of_records (record?_amendRecord s a) (fun g r => ?_) ?_) p
    · dsimp only
      split <;> rfl
    · obtain ⟨v, h⟩ := amendRecord_eq s a
      rw [show s.writeRecord (.amend a) = s.amendRecord a from rfl, h]
  | retire _ | slot _ | setLeg _ => exact p

theorem mapLaw_takeUpdate (u : OnAirUpdate) (c : s.canonical) (p : s.mapLaw) : (s.takeUpdate u).mapLaw := by
  obtain ⟨v, hv, cases⟩ := takeUpdate_cases s u
  have aired : ({ s with records := v } : State).mapLaw :=
    mapLaw_congr (mapsAs_of_records hv (fun _ _ => rfl) rfl) p
  rcases cases with ⟨-, h⟩ | ⟨o, -, h⟩
  · rw [h]; exact aired
  · rw [h]; exact mapLaw_freeRecord (s := { s with records := v }) o c.smap_rising aired

theorem mapLaw_takeUpdates (c : s.canonical) (p : s.mapLaw) : s.takeUpdates.mapLaw :=
  foldl_keeps (fun _ _ => kept_takeUpdate _ _) (fun _ _ => mapLaw_takeUpdate _) s.updates
    (s := { s with updates := [] }) c p

theorem mapLaw_rebind (f i : Nat) (b : Option Binding) (p : s.mapLaw) : (s.rebind f i b).mapLaw := by
  have core := core_rebind s f i b
  split at core
  · exact mapLaw_congr (mapsAs_of_core core.symm) p
  · refine mapLaw_congr (.trans ?_ (mapsAs_of_core core.symm)) p
    obtain ⟨v, hv⟩ := plan_eq s ((s.slot f i).planned.map (·.handle)) (b.map (·.handle))
    refine mapsAs_of_records (record?_plan s _ _) (fun _ _ => rfl) ?_
    show (s.plan _ _).smap = s.smap
    rw [hv]

theorem mapLaw_moveSlots (g : Nat → Slot → Option Move) (p : s.mapLaw) : (s.moveSlots g).mapLaw := by
  obtain ⟨a, u, v, w, x, h⟩ := moveSlots_eq s g
  rw [h]
  exact p

/-- A record that is not RESERVED is retired: its map entries stay ACTIVE, or go with it (R17). -/
theorem mapLaw_retireRecord (h : Nat) (c : s.canonical) (hr : ∀ r, s.record? h = some r → r.state ≠ .reserved)
    (p : s.mapLaw) : (s.retireRecord h).mapLaw := by
  obtain ⟨v, hv, cases⟩ := retireRecord_cases s h
  have moved : s.mapsAs { s with records := v } := mapsAs_of_records hv (fun _ _ => rfl) rfl
  rcases cases with ⟨-, e⟩ | ⟨r, hx, ⟨-, e⟩ | ⟨-, e⟩⟩
  · rw [e]; exact mapLaw_congr moved p
  · rw [e]; exact mapLaw_freeRecord (s := { s with records := v }) h c.smap_rising (mapLaw_congr moved p)
  · rw [e]
    refine mapLaw_congr (.trans moved ⟨fun g => ?_, fun _ => rfl⟩) p
    rw [record?_setRecord]
    split
    · next hg =>
      rw [← hg, hv h, hx]
      simp only [Option.map_some, Record.mapping, Record.retire, hr r hx, reduceCtorEq]
    · rfl

theorem mapLaw_retireRecords (l : List (Nat × Nat)) (c : s.canonical)
    (hr : ∀ x ∈ l, ∀ r, s.record? x.1 = some r → r.state ≠ .reserved) (p : s.mapLaw) :
    (l.foldl (fun s x => s.retireRecord x.1) s).mapLaw := by
  induction l generalizing s with
  | nil => exact p
  | cons x l ih =>
    refine ih ((kept_retireRecord s x.1).canonical c) (fun y hy r hx e => ?_)
      (mapLaw_retireRecord x.1 c (hr x (List.mem_cons_self ..)) p)
    obtain ⟨q, hq, hq'⟩ := reservesNo_retireRecord s x.1 y.1 r hx e
    exact hr y (List.mem_cons_of_mem _ hy) q hq hq'

theorem mapLaw_writePicture {l : List (Edit × Nat)} {n : Nat} {q : Picture}
    (walk : (Picture.start s).walk n l = .ok q) (c : s.canonical) (p : s.mapLaw) : (s.writePicture q).mapLaw := by
  have written : (q.applied.foldl State.writeRecord s).mapLaw :=
    foldl_keeps kept_writeRecord (fun _ e _ => mapLaw_writeRecord e) _ c p
  have bound : (s.bound q).mapLaw := bound_keeps s q (P := State.mapLaw)
    (fun _ _ h => mapLaw_congr (mapsAs_of_core h)) (fun _ f i b _ => mapLaw_rebind f i b)
    (fun _ g => mapLaw_moveSlots g) (fun _ => mapLaw_takeUpdates) c written
  refine mapLaw_congr (mapsAs_of_core (core_writePicture s q).symm)
    (mapLaw_retireRecords _ ((kept_bound s q).canonical c) (fun x hx r hr e => ?_) bound)
  obtain ⟨y, hy, hy'⟩ := reservesNo_bound s q x.1 r hr e
  exact retired_not_reserved walk x hx y hy hy'

theorem mapLaw_endBatch (r : Requester) (o : OutcomeRecord) (c : s.canonical) (p : s.mapLaw) :
    (s.endBatch r o).mapLaw := by
  have freed : (s.freeReserved (s.ws r).handles).mapLaw := by
    refine foldl_keeps (fun _ _ => kept_ite (kept_freeRecord _ _) (.refl _)) (fun t h ct pt => ?_) _ c p
    split
    · exact mapLaw_freeRecord h ct.smap_rising pt
    · exact pt
  unfold State.endBatch
  obtain ⟨v, released⟩ := releaseClaims_eq (s.freeReserved (s.ws r).handles) r
  rw [released]
  refine mapLaw_congr (mapsAs_of_same ?_ ?_) freed
  · rw [setOutcome_records, setWs_records]
  · rw [setOutcome_smap, setWs_smap]

/-! ### The map entries of a CREATE RECORD -/

/-- Values put under keys that differ are each found, and every other key is as before. -/
theorem find?_puts {α : Type} {l : List (Nat × α)} (hn : (l.map (·.1)).Nodup) (t : Table α) :
    (∀ x ∈ l, Table.find? (l.foldl (fun t x => Table.put t x.1 x.2) t) x.1 = some x.2)
      ∧ ∀ k, k ∉ l.map (·.1) → Table.find? (l.foldl (fun t x => Table.put t x.1 x.2) t) k = Table.find? t k := by
  induction l generalizing t with
  | nil => simp
  | cons y l ih =>
    rw [List.map_cons, List.nodup_cons] at hn
    obtain ⟨found, other⟩ := ih hn.2 (Table.put t y.1 y.2)
    refine ⟨fun x hx => ?_, fun k hk => ?_⟩
    · rcases List.mem_cons.1 hx with rfl | hx
      · rw [List.foldl_cons, other _ hn.1, Table.find?_put, if_pos rfl]
      · exact found x hx
    · rw [List.map_cons, List.mem_cons, not_or] at hk
      rw [List.foldl_cons, other k hk.2, Table.find?_put, if_neg (Ne.symm hk.1)]

theorem mem_mapKeys (c : CreateFields) (x : Nat × Nat) :
    x ∈ mapKeys c ↔ ∃ y, c.components[x.2]? = some y ∧ x.1 = pidKey c.key.input y.pid := by
  unfold mapKeys
  rw [List.mem_mapIdx]
  constructor
  · rintro ⟨i, hi, rfl⟩
    exact ⟨c.components[i], List.getElem?_eq_getElem hi, rfl⟩
  · rintro ⟨y, hy, hx⟩
    obtain ⟨hi, rfl⟩ := List.getElem?_eq_some_iff.1 hy
    exact ⟨x.2, hi, Prod.ext hx.symm rfl⟩

theorem nodup_mapKeys {c : CreateFields} (h : (c.components.map (·.pid)).Nodup) : ((mapKeys c).map (·.1)).Nodup := by
  have keys : (mapKeys c).map (·.1) = (c.components.map (·.pid)).map (pidKey c.key.input) := by
    refine List.ext_getElem? fun i => ?_
    simp only [mapKeys, List.getElem?_map, List.getElem?_mapIdx, Option.map_map]
    rfl
  rw [keys]
  exact h.map fun a b e => by unfold pidKey at e; omega

theorem find?_reserveEntries {c : CreateFields} (hn : (c.components.map (·.pid)).Nodup) (h : Nat) :
    (∀ k y, c.components[k]? = some y →
        Table.find? (s.reserveEntries h c).smap (pidKey c.key.input y.pid) = some ⟨h, k, false, none⟩)
      ∧ ∀ n, (∀ y ∈ c.components, pidKey c.key.input y.pid ≠ n) →
        Table.find? (s.reserveEntries h c).smap n = Table.find? s.smap n := by
  have smap : (s.reserveEntries h c).smap = ((mapKeys c).map fun x => (x.1, (⟨h, x.2, false, none⟩ : MapEntry))).foldl
      (fun t x => Table.put t x.1 x.2) s.smap := by
    rw [List.foldl_map]
    rfl
  have keys : ((mapKeys c).map fun x => (x.1, (⟨h, x.2, false, none⟩ : MapEntry))).map (·.1) = (mapKeys c).map (·.1) := by
    rw [List.map_map]
    rfl
  obtain ⟨found, other⟩ := find?_puts (keys ▸ nodup_mapKeys hn) s.smap
  rw [smap]
  refine ⟨fun k y hy => ?_, fun n hn => other n ?_⟩
  · exact found _ (List.mem_map.2 ⟨(pidKey c.key.input y.pid, k), (mem_mapKeys c _).2 ⟨y, hy, rfl⟩, rfl⟩)
  · rw [keys]
    intro hk
    obtain ⟨x, hx, rfl⟩ := List.mem_map.1 hk
    obtain ⟨y, hy, e⟩ := (mem_mapKeys c x).1 hx
    exact hn y (List.mem_of_getElem? hy) e.symm

theorem mapLaw_reserve {r : Requester} {c : CreateFields} {h : Nat} (hn : (c.components.map (·.pid)).Nodup)
    (free : s.record? h = none) (unmapped : ∀ x ∈ c.components, s.mapped c.key.input x.pid = false) (p : s.mapLaw) :
    ((s.setRecord h (createdRecord r c)).reserveEntries h c).mapLaw := by
  obtain ⟨found, other⟩ := find?_reserveEntries (s := s.setRecord h (createdRecord r c)) hn h
  have record : ∀ g, ((s.setRecord h (createdRecord r c)).reserveEntries h c).record? g
      = if h = g then some (createdRecord r c) else s.record? g := fun g => record?_setRecord s h g _
  refine ⟨fun k m hm => ?_, fun g x hx k y hy => ?_⟩
  · by_cases own : ∃ y ∈ c.components, pidKey c.key.input y.pid = k
    · obtain ⟨y, hy, rfl⟩ := own
      obtain ⟨i, hi⟩ := List.getElem?_of_mem hy
      rw [found i y hi] at hm
      cases hm
      exact ⟨createdRecord r c, y, by rw [record, if_pos rfl], hi, rfl, by simp [createdRecord]⟩
    · rw [other k fun y hy e => own ⟨y, hy, e⟩] at hm
      obtain ⟨x, y, hx, rest⟩ := p.1 k m hm
      refine ⟨x, y, ?_, rest⟩
      rw [record, if_neg fun e => ?_]
      · exact hx
      · rw [← e, free] at hx
        cases hx
  · rw [record] at hx
    split at hx
    · next hg =>
      cases hx
      exact ⟨_, found k y hy, hg, rfl⟩
    · obtain ⟨m, hm, rest⟩ := p.2 g x hx k y hy
      refine ⟨m, ?_, rest⟩
      rw [other]
      · exact hm
      · intro z hz e
        have := unmapped z hz
        rw [State.mapped, e, hm] at this
        cases this

end

/-! ### Every act -/

theorem mapLaw_setWs {s : State} (r : Requester) (w : Workspace) (p : s.mapLaw) : (s.setWs r w).mapLaw :=
  mapLaw_congr (mapsAs_of_same (setWs_records ..) (setWs_smap ..)) p

theorem mapLaw_splices {s t : State} (h : s.splices t) (p : s.mapLaw) : t.mapLaw := by
  obtain ⟨f, hf⟩ := h.records
  exact mapLaw_congr (mapsAs_of_records hf (fun _ _ => rfl) h.smap) p

theorem mapLaw_passEntry {s : State} (e : Nat) (q : Picture) (c : s.canonical) (p : s.mapLaw) :
    (s.passEntry e q).mapLaw := by
  have bound : (s.writeBindings (q.applied.filterMap Edit.slotEdit?)).mapLaw :=
    foldl_keeps (fun _ _ => kept_rebind _ _ _ _) (fun _ b _ => mapLaw_rebind _ _ _) _ c p
  have counted := ((kept_writeBindings s (q.applied.filterMap Edit.slotEdit?)).trans
    (kept_dropSpliceRefs _ (s.entry e).edits)).canonical c
  exact mapLaw_splices ((splices_armReturn e).trans (splices_finishEntry e _ _))
    (mapLaw_takeUpdates counted (mapLaw_splices (splices_dropSpliceRefs _) bound))

theorem reserved_of_stage {x y : RecState} (h : x.stage = y.stage) : x = .reserved ↔ y = .reserved := by
  cases x <;> cases y <;> simp [RecState.stage] at h ⊢

theorem judgeImmediate_eq_ok {s : State} {w : Workspace} {q : Picture} (h : judgeImmediate s w = .ok q) :
    (Picture.start s).walk 1 w.edits = .ok q ∧ legLaws q.tables = none ∧ q.fallbackFailure = none
      ∧ q.retireFailure = none := by
  unfold judgeImmediate at h
  split at h
  · cases h
  · next walk =>
    split at h
    · cases h
    · next legs =>
      split at h
      · cases h
      · next fallbacks =>
        split at h
        · cases h
        · next retired =>
          cases h
          exact ⟨walk, legs, fallbacks, retired⟩

theorem lawful_mapLaw : Lawful State.mapLaw where
  reset s h := mapLaw_congr (mapsAs_of_core h.symm) mapLaw_reset
  frame s t h := mapLaw_congr (mapsAs_of_core h)
  touch s h x y _ hx hy := by
    simp only [Record.use, Prod.mk.injEq] at hy
    obtain ⟨stage, key, components, -⟩ := hy
    refine mapLaw_congr (mapsAs_setRecord hx ?_)
    simp only [Record.mapping, key, components, reserved_of_stage stage]
  smap s m _ hm _ := mapLaw_congr ⟨fun _ => rfl, hm⟩
  update s u rest c _ p := mapLaw_takeUpdate (s := { s with updates := rest }) u c p
  move _ _ _ _ _ p := p
  entry _ _ _ _ _ p := p
  freed _ _ _ _ _ _ p := p
  pass s e q c _ _ _ p := mapLaw_passEntry e q c p
  fail s e cd _ _ p := mapLaw_splices (splices_failEntry e cd) p
  cancel s e _ _ p := mapLaw_splices (splices_dropEntry e) p
  ended s r o c p := mapLaw_endBatch r o c p
  immediate s r o q c _ _ h p := by
    obtain ⟨walk, -⟩ := judgeImmediate_eq_ok h
    exact mapLaw_endBatch r o ((kept_writePicture s q).canonical c) (mapLaw_writePicture walk c p)
  deferred s r q t oc e n c _ _ ha p :=
    mapLaw_endBatch r oc ((kept_armEntries _ _ _ _ _ _ _ _).canonical c) (mapLaw_splices (splices_armEntries ha) p)
  opened s r w _ _ := mapLaw_setWs r w
  hold s r e _ _ := mapLaw_setWs r _
  create s r c h t _ _ hn e p := by
    obtain ⟨rfl, -, low, free, -⟩ := reserveRecord_eq_ok e
    exact mapLaw_setWs r _ (mapLaw_reserve hn (record?_of_lowestFree low) (fun x hx => (free x hx).2) p)

/-! ### The tables -/

theorem bounded_iff (s : State) : s.bounded ↔ s.queuesBounded ∧ s.storesBounded := by
  unfold State.bounded State.queuesBounded State.storesBounded
  constructor
  · rintro ⟨h1, h2, h3, h4, h5, h6, h7, h8⟩
    exact ⟨⟨h1, h2, h3, h4, h5⟩, h6, h7, h8⟩
  · rintro ⟨⟨h1, h2, h3, h4, h5⟩, h6, h7, h8⟩
    exact ⟨h1, h2, h3, h4, h5, h6, h7, h8⟩

/-- Settles O56: the closed laws are kept by every update, and the bounds and the map law by every act. -/
theorem everyStepKeepsTheTables : Obligations.EveryStepKeepsTheTables := by
  unfold Obligations.EveryStepKeepsTheTables
  refine ⟨fun s t c p h => ?_, fun s t p h => ?_, fun s t c p h => runs_step lawful_mapLaw c p h,
    fun s t p h => ?_, fun s t c h => ?_⟩
  · obtain ⟨queues, stores⟩ := (bounded_iff s).1 p
    exact (bounded_iff t).2 ⟨kept_step s closed_queuesBounded (fun _ _ p => p) queues h,
      runs_step lawful_storesBounded c stores h⟩
  · exact kept_step s closed_keysDistinct (fun _ _ p => p) p h
  · exact kept_step s closed_inputLaw (fun _ _ p => p) p h
  · exact kept_step s closed_canonical (fun _ _ p => p) c h

end Sys2Proof.Machine
end

