-- ==== Sys2Proof/Proofs/OnAir.lean ====
section
/-! The on-air counts, with the updates that wait, are the slots that have the record on air (R14, R18, R49). -/

namespace Sys2Proof.Machine

/-! ### Laws that moves and on-air updates keep -/

/-- A law that the acts keep which do not change a binding. -/
structure Steady (P : State → Prop) : Prop where
  frame : ∀ s t : State, s.core = t.core → P s → P t
  update : ∀ (s : State) u rest, s.canonical → s.updates = u :: rest → P s →
    P ({ s with updates := rest }.takeUpdate u)
  move : ∀ (s : State) k x, s.canonical → s.maySource (s.slotAt k) x → P s → P (s.moved k x)

section
variable {P : State → Prop} {s : State}

theorem Steady.takeUpdates (l : Steady P) (c : s.canonical) (p : P s) : P s.takeUpdates := by
  suffices ∀ (u : List OnAirUpdate) (s : State), s.updates = u → s.canonical → P s → P s.takeUpdates from
    this _ s rfl c p
  intro u
  induction u with
  | nil => intro s h _ p; rwa [takeUpdates_nil s h]
  | cons u rest ih =>
    intro s h c p
    rw [takeUpdates_cons s h]
    exact ih _ (updates_takeUpdate _ _) ((runs_takeFirst s h).1.canonical c) (l.update _ _ _ c h p)

theorem Steady.moveSlots (l : Steady P) {g : Nat → Slot → Option Move} (hl : ∀ k x m, g k x = some m → m.slot.law)
    (hg : ∀ k x m, g k x = some m → s.maySource x m.slot) (c : s.canonical) (p : P s) : P (s.moveSlots g) := by
  suffices ∀ (keys : List Nat) (t : State), s.records = t.records → t.canonical → P t → P (keys.foldl (fun s k =>
      match g k (s.slotAt k) with
      | some m => s.applyMove (k / 16) (k % 16) m
      | none => s) t) from this _ s rfl c p
  intro keys
  induction keys with
  | nil => intro t _ _ p; exact p
  | cons k keys ih =>
    intro t ht c p
    rw [List.foldl_cons]
    cases hm : g k (t.slotAt k) with
    | none => exact ih t ht c p
    | some m =>
      refine ih _ (ht.trans (records_applyMove _ _ _ _).symm)
        ((kept_applyMove _ fun _ => hl _ _ _ hm).canonical c) (l.frame _ _ (core_applyMove _ _ _ _).symm ?_)
      rw [slotKey_div_mod]
      exact l.move _ _ _ c (maySource_congr ht (hg _ _ _ hm)) p

/-- Part 3 of a commit's writes, and the updates that it makes (R54, R78, R131). -/
theorem Steady.refallbacks (l : Steady P) (before : State) (c : s.canonical) (p : P s) :
    P (s.moveSlots (refallback before s)).takeUpdates :=
  l.takeUpdates ((kept_moveSlots s fun _ _ _ h _ => law_refallback s h).canonical c)
    (l.moveSlots (fun _ _ _ h => law_refallback s h) (fun _ _ _ h => maySource_refallback s h) c p)

end

theorem canonical_moved {s : State} (k : Nat) (x : Slot) (c : s.canonical) : (s.moved k x).canonical := by
  obtain ⟨a, b, d, e, f, g⟩ := c
  exact ⟨a, b, d, e, Table.canonical_store (fun _ => Slot.start) _ k _ f, g⟩

/-! ### The law, by record -/

/-- The updates that will add to a record's count. -/
def newsIn (l : List OnAirUpdate) (h : Nat) : Nat := l.countP fun u => u.new == some h

/-- The updates that will take from a record's count. -/
def oldsIn (l : List OnAirUpdate) (h : Nat) : Nat := l.countP fun u => u.old == some h

theorem newsIn_cons (u : OnAirUpdate) (l : List OnAirUpdate) (h : Nat) :
    newsIn (u :: l) h = names1 u.new h + newsIn l h := by
  rw [← toNat_beq_some, newsIn, List.countP_cons, Nat.add_comm]
  cases u.new == some h <;> rfl

theorem oldsIn_cons (u : OnAirUpdate) (l : List OnAirUpdate) (h : Nat) :
    oldsIn (u :: l) h = names1 u.old h + oldsIn l h := by
  rw [← toNat_beq_some, oldsIn, List.countP_cons, Nat.add_comm]
  cases u.old == some h <;> rfl

theorem newsIn_append (l m : List OnAirUpdate) (h : Nat) : newsIn (l ++ m) h = newsIn l h + newsIn m h :=
  List.countP_append

theorem oldsIn_append (l m : List OnAirUpdate) (h : Nat) : oldsIn (l ++ m) h = oldsIn l h + oldsIn m h :=
  List.countP_append

theorem newsIn_handsOn (x y : Slot) (h : Nat) :
    newsIn (x.handsOn y) h = if x.source = y.source then 0 else names1 y.source h := by
  unfold Slot.handsOn
  split
  · rfl
  · rw [newsIn_cons]; rfl

theorem oldsIn_handsOn (x y : Slot) (h : Nat) :
    oldsIn (x.handsOn y) h = if x.source = y.source then 0 else names1 x.source h := by
  unfold Slot.handsOn
  split
  · rfl
  · rw [oldsIn_cons]; rfl

theorem newsIn_eq_zero {l : List OnAirUpdate} {h : Nat} : newsIn l h = 0 ↔ ∀ u ∈ l, u.new ≠ some h := by
  simp [newsIn, List.countP_eq_zero]

theorem oldsIn_eq_zero {l : List OnAirUpdate} {h : Nat} : oldsIn l h = 0 ↔ ∀ u ∈ l, u.old ≠ some h := by
  simp [oldsIn, List.countP_eq_zero]

/-- A record's on-air count fits the slots that have it on air and the updates that wait (R14, R18). -/
def State.airsFit (s : State) (h : Nat) (x : Record) : Prop :=
  x.onAir + newsIn s.updates h = s.airings h + oldsIn s.updates h
    ∧ (∀ n, oldsIn (s.updates.take n) h ≤ x.onAir + newsIn (s.updates.take n) h)
    ∧ (x.state = .retiring → newsIn s.updates h = 0)

/-- The record is on air, or an update that waits names it. -/
def State.aired (s : State) (h : Nat) : Prop :=
  (∃ k, (s.slotAt k).source = some h) ∨ ∃ u ∈ s.updates, u.new = some h ∨ u.old = some h

theorem onAirLaw_iff (s : State) : s.onAirLaw ↔ (∀ h x, s.record? h = some x → s.airsFit h x)
    ∧ ∀ h, s.aired h → ∃ x, s.record? h = some x ∧ x.state ≠ .reserved := Iff.rfl

theorem airings_eq_zero {s : State} {h : Nat} (e : ∀ k, (s.slotAt k).source ≠ some h) (c : s.canonical) :
    s.airings h = 0 := by
  rw [airings_eq_sum]
  refine Table.sum_congr c.slots_rising (u := ([] : Table Slot)) rfl (fun x => names1 x.source h) (fun _ => 0) fun k => ?_
  rw [Table.elim_find? (d := Slot.start) (g := fun x => names1 x.source h) rfl]
  exact if_neg (e k)

/-- A record that nothing names fits with a count of 0. -/
theorem airsFit_of_not_aired {s : State} {h : Nat} {x : Record} (c : s.canonical) (e : ¬ s.aired h) (h0 : x.onAir = 0) :
    s.airsFit h x := by
  simp only [State.aired, not_or, not_exists, not_and] at e
  have news : newsIn s.updates h = 0 := newsIn_eq_zero.2 fun u hu => (e.2 u hu).1
  have olds : ∀ n, oldsIn (s.updates.take n) h = 0 := fun n =>
    oldsIn_eq_zero.2 fun u hu => (e.2 u (List.mem_of_mem_take hu)).2
  have olds' : oldsIn s.updates h = 0 := oldsIn_eq_zero.2 fun u hu => (e.2 u hu).2
  exact ⟨by rw [news, olds', airings_eq_zero e.1 c, h0], fun n => by rw [olds]; exact Nat.zero_le _, fun _ => news⟩

/-! ### Changes that the law does not see -/

/-- The two states have the same sources and updates, and the records that are on air: a record has its count, is
not newly RETIRING, and stays when it is not RESERVED. -/
def State.airsAs (s t : State) : Prop :=
  (∀ h y, t.record? h = some y → ∃ x, s.record? h = some x ∧ y.onAir = x.onAir
      ∧ (y.state = .retiring → x.state = .retiring))
    ∧ (∀ h x, s.record? h = some x → x.state ≠ .reserved → ∃ y, t.record? h = some y ∧ y.state ≠ .reserved)
    ∧ (∀ k, (t.slotAt k).source = (s.slotAt k).source) ∧ t.updates = s.updates

section
variable {s t : State}

theorem airsAs_of_map {f : Nat → Record → Record} (h : ∀ g, t.record? g = (s.record? g).map (f g))
    (hf : ∀ g r, (f g r).onAir = r.onAir ∧ ((f g r).state = r.state ∨ (f g r).state = .live))
    (hs : ∀ k, (t.slotAt k).source = (s.slotAt k).source) (hu : t.updates = s.updates) : s.airsAs t := by
  refine ⟨fun g y hy => ?_, fun g x hx hr => ?_, hs, hu⟩
  · rw [h, Option.map_eq_some_iff] at hy
    obtain ⟨x, hx, rfl⟩ := hy
    refine ⟨x, hx, (hf g x).1, fun e => ?_⟩
    rcases (hf g x).2 with hst | hst
    · rw [← hst]; exact e
    · rw [hst] at e; cases e
  · refine ⟨f g x, by rw [h, hx]; rfl, ?_⟩
    rcases (hf g x).2 with hst | hst
    · rw [hst]; exact hr
    · rw [hst]; nofun

theorem onAirLaw_congr (cs : s.canonical) (ct : t.canonical) (h : s.airsAs t) (p : s.onAirLaw) : t.onAirLaw := by
  obtain ⟨back, forth, source, updates⟩ := h
  refine ⟨fun g y hy => ?_, fun g e => ?_⟩
  · obtain ⟨x, hx, count, retiring⟩ := back g y hy
    obtain ⟨fit, pre, none⟩ := ((onAirLaw_iff s).1 p).1 g x hx
    have airs : t.airings g = s.airings g := airings_congr cs ct g source
    show t.airsFit g y
    unfold State.airsFit
    rw [updates, count, airs]
    exact ⟨fit, pre, fun e => none (retiring e)⟩
  · have before : s.aired g := by
      unfold State.aired
      simpa only [source, updates] using e
    obtain ⟨x, hx, hr⟩ := ((onAirLaw_iff s).1 p).2 g before
    exact forth g x hx hr

/-! ### Updates and moves -/

/-- Every record's on-air count fits. -/
def State.airsAll (s : State) : Prop := ∀ h x, s.record? h = some x → s.airsFit h x

/-- A record that an update names still fits when the update is taken. -/
theorem airsFit_aired {u : OnAirUpdate} {rest : List OnAirUpdate} (hu : s.updates = u :: rest) (v : Table Record) {h : Nat}
    {x : Record} (fit : s.airsFit h x) : ({ s with updates := rest, records := v } : State).airsFit h (x.aired u h) := by
  obtain ⟨fit, pre, none⟩ := fit
  have first := pre 1
  have more := fun n => pre (n + 1)
  rw [hu] at fit none first more
  simp only [List.take_succ_cons, newsIn_cons, oldsIn_cons, List.take_zero] at fit none first more
  have e1 : newsIn [] h = 0 := rfl
  have e2 : oldsIn [] h = 0 := rfl
  refine ⟨?_, fun n => ?_, fun hr => ?_⟩
  · show x.onAir + names1 u.new h - names1 u.old h + newsIn rest h = s.airings h + oldsIn rest h
    omega
  · have := more n
    show oldsIn (rest.take n) h ≤ x.onAir + names1 u.new h - names1 u.old h + newsIn (rest.take n) h
    omega
  · have := none hr
    show newsIn rest h = 0
    omega

theorem airsAll_update {u : OnAirUpdate} {rest : List OnAirUpdate} (hu : s.updates = u :: rest) (p : s.airsAll) :
    ({ s with updates := rest }.takeUpdate u).airsAll := by
  obtain ⟨v, hv, cases⟩ := takeUpdate_cases { s with updates := rest } u
  have law : ({ s with updates := rest, records := v } : State).airsAll := fun h y hy => by
    rw [hv h, Option.map_eq_some_iff] at hy
    obtain ⟨x, hx, rfl⟩ := hy
    exact airsFit_aired hu v (p h x hx)
  rcases cases with ⟨-, h⟩ | ⟨o, -, h⟩ <;> rw [h]
  · exact law
  · intro g y hy
    rw [record?_freeRecord] at hy
    split at hy
    · cases hy
    · exact law g y hy

theorem onAirLaw_update {u : OnAirUpdate} {rest : List OnAirUpdate} (hu : s.updates = u :: rest)
    (p : s.onAirLaw) : ({ s with updates := rest }.takeUpdate u).onAirLaw := by
  obtain ⟨fits, there⟩ := (onAirLaw_iff s).1 p
  obtain ⟨v, hv, cases⟩ := takeUpdate_cases { s with updates := rest } u
  have there' : ∀ h, ({ s with updates := rest, records := v } : State).aired h → s.aired h := by
    intro h e
    refine e.imp id fun ⟨w, hw, hn⟩ => ⟨w, ?_, hn⟩
    rw [hu]
    exact List.mem_cons_of_mem _ hw
  have stays : ∀ h, ({ s with updates := rest, records := v } : State).aired h →
      ∃ y, ({ s with updates := rest, records := v } : State).record? h = some y ∧ y.state ≠ .reserved := fun h e => by
    obtain ⟨x, hx, hr⟩ := there h (there' h e)
    exact ⟨x.aired u h, (hv h).trans (congrArg _ hx), hr⟩
  refine ⟨airsAll_update hu fits, ?_⟩
  rcases cases with ⟨-, h⟩ | ⟨o, ⟨-, x, hx, hr, h0⟩, h⟩ <;> rw [h]
  · exact stays
  · have gone : ¬ ({ s with updates := rest, records := v } : State).aired o := by
      obtain ⟨fit, -, none⟩ := airsFit_aired hu v (fits o x hx)
      have news := none hr
      rw [h0, news] at fit
      have air : ({ s with updates := rest, records := v } : State).airings o = 0 := by omega
      have olds : oldsIn rest o = 0 := by
        have : oldsIn ({ s with updates := rest, records := v } : State).updates o = 0 := by omega
        exact this
      rintro (⟨k, hk⟩ | ⟨w, hw, hn | hn⟩)
      · exact absurd air (airings_pos hk).ne'
      · exact newsIn_eq_zero.1 news w hw hn
      · exact oldsIn_eq_zero.1 olds w hw hn
    intro g e
    obtain ⟨y, hy, hs⟩ := stays g e
    refine ⟨y, ?_, hs⟩
    rw [record?_freeRecord, if_neg]
    · exact hy
    · rintro rfl
      exact gone e

/-- A source that a slot goes to is LIVE. -/
theorem live_of_moved {k h : Nat} {x : Slot} (hx : x.source = (s.slotAt k).source ∨ x.source = none
    ∨ ∃ h, x.source = some h ∧ s.usable h = true) (e : x.source = some h) (ne : x.source ≠ (s.slotAt k).source) :
    ∃ r, s.record? h = some r ∧ r.state = .live := by
  rcases hx with hx | hx | ⟨g, hg, hu⟩
  · exact absurd hx ne
  · rw [hx] at e; cases e
  · rw [hg] at e
    cases e
    unfold State.usable at hu
    cases hr : s.record? h with
    | none => rw [hr] at hu; cases hu
    | some r => rw [hr] at hu; exact ⟨r, rfl, by simpa using hu⟩

theorem source_moved (k j : Nat) (x : Slot) :
    ((s.moved k x).slotAt j).source = if k = j then x.source else (s.slotAt j).source := by
  rw [slotAt_moved]
  split <;> rfl

/-- A record still fits when a slot goes to another source, which is no RETIRING record (R49, R78). -/
theorem airsFit_moved {k h : Nat} {x : Slot} {r : Record} (c : s.canonical) (hx : x.source = (s.slotAt k).source
    ∨ x.source = none ∨ ∃ h, x.source = some h ∧ s.usable h = true) (hr : s.record? h = some r) (fit : s.airsFit h r) :
    (s.moved k x).airsFit h r := by
  obtain ⟨fit, pre, none⟩ := fit
  have airs := airings_update c (canonical_moved k x c) k h fun j hj => by rw [source_moved, if_neg hj.symm]
  rw [source_moved, if_pos rfl] at airs
  have old : names1 (s.slotAt k).source h ≤ s.airings h := by
    unfold names1
    split
    · next e => exact airings_pos e
    · exact Nat.zero_le _
  have all : oldsIn s.updates h + oldsIn ((s.slotAt k).handsOn x) h
      ≤ r.onAir + (newsIn s.updates h + newsIn ((s.slotAt k).handsOn x) h) := by
    rw [oldsIn_handsOn, newsIn_handsOn]
    split <;> omega
  unfold State.airsFit
  rw [show (s.moved k x).updates = s.updates ++ (s.slotAt k).handsOn x from rfl, newsIn_append, oldsIn_append]
  refine ⟨?_, fun n => ?_, fun hs => ?_⟩
  · rw [oldsIn_handsOn, newsIn_handsOn]
    split
    · next e => rw [e] at airs; omega
    · omega
  · rw [List.take_append, newsIn_append, oldsIn_append]
    by_cases hn : n ≤ s.updates.length
    · rw [show n - s.updates.length = 0 by omega, List.take_zero]
      exact pre n
    · rw [List.take_of_length_le (by omega), List.take_of_length_le]
      · exact all
      · unfold Slot.handsOn
        split <;> simp only [List.length_nil, List.length_cons] <;> omega
  · rw [none hs, newsIn_handsOn, Nat.zero_add]
    split
    · rfl
    · next ne =>
      refine if_neg fun e => ?_
      obtain ⟨q, hq, hl⟩ := live_of_moved hx e fun e => ne e.symm
      rw [show s.record? h = some r from hr] at hq
      cases hq
      rw [hl] at hs
      cases hs

/-- A slot goes to another source, which is no RETIRING record; its update waits (R49, R78). -/
theorem onAirLaw_moved {k : Nat} {x : Slot} (c : s.canonical) (hx : x.source = (s.slotAt k).source ∨ x.source = none
      ∨ ∃ h, x.source = some h ∧ s.usable h = true) (p : s.onAirLaw) : (s.moved k x).onAirLaw := by
  obtain ⟨fits, there⟩ := (onAirLaw_iff s).1 p
  refine ⟨fun h r hr => airsFit_moved c hx hr (fits h r hr), fun h e => ?_⟩
  by_cases before : s.aired h
  · exact there h before
  · have new : x.source = some h := by
      rcases e with ⟨j, hj⟩ | ⟨u, hu, hn⟩
      · rw [source_moved] at hj
        split at hj
        · exact hj
        · exact absurd (.inl ⟨j, hj⟩) before
      · rcases List.mem_append.1 hu with hu | hu
        · exact absurd (.inr ⟨u, hu, hn⟩) before
        · unfold Slot.handsOn at hu
          split at hu
          · cases hu
          · rw [List.mem_singleton.1 hu] at hn
            rcases hn with hn | hn
            · exact hn
            · exact absurd (.inl ⟨k, hn⟩) before
    obtain ⟨r, hr, hl⟩ := live_of_moved hx new fun e => before (.inl ⟨k, e ▸ new⟩)
    exact ⟨r, hr, by rw [hl]; nofun⟩

theorem steady_airsAll : Steady State.airsAll where
  frame s t h p := by
    have slots : s.slots = t.slots := congrArg (·.2.2.1) h
    unfold State.airsAll State.airsFit State.airings at *
    simpa only [core_record? h, core_updates h, slots] using p
  update s u rest _ hu p := airsAll_update hu p
  move s k x c hx p h r hr := airsFit_moved c hx.2 hr (p h r hr)

theorem steady_onAirLaw : Steady State.onAirLaw where
  frame s t h p := by
    unfold State.onAirLaw at *
    have slots : s.slots = t.slots := congrArg (·.2.2.1) h
    simpa only [core_record? h, core_slots h, core_updates h, slots] using p
  update s u rest _ hu p := onAirLaw_update hu p
  move s k x c hx p := onAirLaw_moved c hx.2 p

/-! ### Bindings and retirements -/

theorem canonical_records {v : Table Record} (h : Table.rising v = true) (c : s.canonical) :
    ({ s with records := v } : State).canonical := by
  obtain ⟨a, b, d, e⟩ := c
  exact ⟨a, b, h, e⟩

theorem onAirLaw_plan (a b : Option Nat) (c : s.canonical) (p : s.onAirLaw) : (s.plan a b).onAirLaw := by
  obtain ⟨v, hv⟩ := plan_eq s a b
  refine onAirLaw_congr c ((kept_plan s a b).canonical c) (airsAs_of_map (record?_plan s a b)
    (fun _ _ => ⟨rfl, .inl rfl⟩) (fun k => ?_) ?_) p
  · rw [hv]; rfl
  · rw [hv]

theorem usable_plan (a b : Option Nat) (h : Nat) : (s.plan a b).usable h = s.usable h := by
  unfold State.usable
  rw [record?_plan]
  cases s.record? h <;> rfl

theorem onAirLaw_rebind (f i : Nat) (b : Option Binding) (c : s.canonical) (p : s.onAirLaw) :
    (s.rebind f i b).onAirLaw := by
  have core := core_rebind s f i b
  split at core
  · exact steady_onAirLaw.frame _ _ core.symm p
  · refine steady_onAirLaw.frame _ _ core.symm ?_
    refine onAirLaw_moved ((kept_plan s _ _).canonical c) ?_ (onAirLaw_plan _ _ c p)
    simp only [slotAt_plan, usable_plan]
    exact source_rebound s f i b

theorem onAirLaw_writeBindings (l : List SlotEdit) (c : s.canonical) (p : s.onAirLaw) : (s.writeBindings l).onAirLaw :=
  foldl_keeps (fun _ _ => kept_rebind _ _ _ _) (fun _ _ => onAirLaw_rebind _ _ _) _ c p

theorem updates_retireRecord (h : Nat) : (s.retireRecord h).updates = s.updates := by
  obtain ⟨v, -, ⟨-, e⟩ | ⟨r, -, ⟨-, e⟩ | ⟨-, e⟩⟩⟩ := retireRecord_cases s h <;> rw [e] <;> rfl

theorem slots_retireRecord (h : Nat) : (s.retireRecord h).slots = s.slots := by
  obtain ⟨v, -, ⟨-, e⟩ | ⟨r, -, ⟨-, e⟩ | ⟨-, e⟩⟩⟩ := retireRecord_cases s h <;> rw [e] <;> rfl

theorem airings_of_slots (e : t.slots = s.slots) (h : Nat) : t.airings h = s.airings h := by
  unfold State.airings
  rw [e]

/-- A record is retired with no update waiting: it is freed when it is on air nowhere (R17). -/
theorem onAirLaw_retireRecord (h : Nat) (hu : s.updates = []) (p : s.onAirLaw) : (s.retireRecord h).onAirLaw := by
  obtain ⟨fits, there⟩ := (onAirLaw_iff s).1 p
  obtain ⟨v, hv, cases⟩ := retireRecord_cases s h
  have law : ({ s with records := v } : State).onAirLaw := by
    refine ⟨fun g y hy => ?_, fun g e => ?_⟩
    · rw [hv g, Option.map_eq_some_iff] at hy
      obtain ⟨x, hx, rfl⟩ := hy
      exact fits g x hx
    · obtain ⟨x, hx, hr⟩ := there g e
      exact ⟨_, (hv g).trans (congrArg _ hx), hr⟩
  rcases cases with ⟨-, e⟩ | ⟨r, hr, ⟨h0, e⟩ | ⟨h0, e⟩⟩
  · rw [e]; exact law
  · rw [e]
    have gone : ¬ s.aired h := by
      obtain ⟨fit, -, -⟩ := fits h r hr
      rw [hu, h0] at fit
      have : newsIn [] h = 0 := rfl
      have air : s.airings h = 0 := by omega
      rintro (⟨k, hk⟩ | ⟨w, hw, -⟩)
      · exact absurd air (airings_pos hk).ne'
      · rw [hu] at hw; cases hw
    refine ⟨fun g y hy => ?_, fun g e => ?_⟩
    · rw [record?_freeRecord] at hy
      split at hy
      · cases hy
      · exact law.1 g y hy
    · obtain ⟨y, hy, hs⟩ := law.2 g e
      refine ⟨y, ?_, hs⟩
      rw [record?_freeRecord, if_neg]
      · exact hy
      · rintro rfl
        exact gone e
  · rw [e]
    refine ⟨fun g y hy => ?_, fun g e => ?_⟩
    · rw [record?_setRecord] at hy
      split at hy
      · next hg =>
        cases hy
        obtain ⟨fit, pre, -⟩ := fits g r (hg ▸ hr)
        exact ⟨fit, pre, fun _ => by show newsIn s.updates g = 0; rw [hu]; rfl⟩
      · exact law.1 g y hy
    · obtain ⟨y, hy, hs⟩ := law.2 g e
      rw [record?_setRecord]
      split
      · exact ⟨_, rfl, nofun⟩
      · exact ⟨y, hy, hs⟩

theorem onAirLaw_retireRecords (l : List (Nat × Nat)) (hu : s.updates = []) (p : s.onAirLaw) :
    (l.foldl (fun s x => s.retireRecord x.1) s).onAirLaw := by
  induction l generalizing s with
  | nil => exact p
  | cons x l ih => exact ih ((updates_retireRecord _).trans hu) (onAirLaw_retireRecord x.1 hu p)

/-! ### Every act -/

theorem onAirLaw_writeRecord (e : Edit) (c : s.canonical) (p : s.onAirLaw) : (s.writeRecord e).onAirLaw := by
  obtain ⟨v, w, h⟩ := writeRecord_eq s e
  have ct := (kept_writeRecord s e).canonical c
  cases e with
  | create n q =>
    refine onAirLaw_congr c ct (airsAs_of_map (record?_commitRecord s n) (fun g r => ?_) (fun k => ?_) ?_) p
    · by_cases e : n = g
      · simp [e, Record.goLive]
      · simp [e]
    · rw [h]; rfl
    · rw [h]
  | amend a =>
    refine onAirLaw_congr c ct (airsAs_of_map (record?_amendRecord s a) (fun g r => ?_) (fun k => ?_) ?_) p
    · by_cases e : a.handle = g
      · simp [e, AmendFields.apply]
      · simp [e]
    · rw [h]; rfl
    · rw [h]
  | retire _ | slot _ | setLeg _ => exact p

theorem onAirLaw_writePicture (q : Picture) (c : s.canonical) (p : s.onAirLaw) : (s.writePicture q).onAirLaw := by
  have written : (q.applied.foldl State.writeRecord s).onAirLaw :=
    foldl_keeps kept_writeRecord (fun _ e => onAirLaw_writeRecord e) _ c p
  have cw := ((kept_writeRecords s q.applied).trans (kept_writeLegs _ q.applied)).canonical c
  have bound : (s.bound q).onAirLaw := by
    have legs := steady_onAirLaw.frame _ _ (core_foldl_writeLeg (q.applied.foldl State.writeRecord s) q.applied).symm written
    have cb := (kept_writeBindings _ (q.applied.filterMap Edit.slotEdit?)).canonical cw
    exact steady_onAirLaw.refallbacks s cb (onAirLaw_writeBindings _ cw legs)
  exact steady_onAirLaw.frame _ _ (core_writePicture s q).symm
    (onAirLaw_retireRecords _ (updates_takeUpdates _) bound)

theorem onAirLaw_endBatch (r : Requester) (o : OutcomeRecord) (c : s.canonical) (p : s.onAirLaw) :
    (s.endBatch r o).onAirLaw := by
  obtain ⟨same, records, -, -⟩ := batchEnded_endBatch s r o
  have slots : (s.endBatch r o).slots = s.slots := by rw [same, setOutcome_slots, setWs_slots]
  have updates : (s.endBatch r o).updates = s.updates := by rw [same, setOutcome_updates, setWs_updates]
  refine onAirLaw_congr c ((kept_endBatch s r o).canonical c) ⟨fun h y hy => ?_, fun h x hx hr => ?_, fun k => ?_, updates⟩ p
  · by_cases freed : h ∈ (s.ws r).handles ∧ ∃ x, s.record? h = some x ∧ x.state = .reserved
    · rw [(records h).1 freed] at hy
      cases hy
    · rw [(records h).2 freed] at hy
      exact ⟨y, hy, rfl, id⟩
  · refine ⟨x, ?_, hr⟩
    rw [(records h).2, hx]
    rintro ⟨-, y, hy, e⟩
    rw [hx] at hy
    cases hy
    exact hr e
  · unfold State.slotAt
    rw [slots]

theorem onAirLaw_splices (c : s.canonical) (ct : t.canonical) (h : s.splices t) (p : s.onAirLaw) : t.onAirLaw := by
  obtain ⟨f, hf⟩ := h.records
  refine onAirLaw_congr c ct (airsAs_of_map hf (fun _ _ => ⟨rfl, .inl rfl⟩) (fun k => ?_) h.updates) p
  obtain ⟨n, hn⟩ := h.slots k
  rw [hn]

theorem onAirLaw_passEntry (e : Nat) (q : Picture) (c : s.canonical) (p : s.onAirLaw) : (s.passEntry e q).onAirLaw := by
  have c1 := (kept_writeBindings s (q.applied.filterMap Edit.slotEdit?)).canonical c
  have c2 := (kept_dropSpliceRefs _ (s.entry e).edits).canonical c1
  have c3 := (kept_takeUpdates _).canonical c2
  refine onAirLaw_splices c3 (((kept_armReturn _ e).trans (kept_finishEntry _ e _ _)).canonical c3)
    ((splices_armReturn e).trans (splices_finishEntry e _ _)) ?_
  exact steady_onAirLaw.takeUpdates c2 (onAirLaw_splices c1 c2 (splices_dropSpliceRefs _) (onAirLaw_writeBindings _ c p))

theorem onAirLaw_reserve {r : Requester} {q : CreateFields} {h : Nat} (free : s.record? h = none) (c : s.canonical)
    (p : s.onAirLaw) : ((s.setRecord h (createdRecord r q)).reserveEntries h q).onAirLaw := by
  obtain ⟨fits, there⟩ := (onAirLaw_iff s).1 p
  have gone : ¬ s.aired h := fun e => by
    obtain ⟨x, hx, -⟩ := there h e
    rw [free] at hx
    cases hx
  have record : ∀ g, ((s.setRecord h (createdRecord r q)).reserveEntries h q).record? g
      = if h = g then some (createdRecord r q) else s.record? g := fun g => record?_setRecord s h g _
  refine ⟨fun g y hy => ?_, fun g e => ?_⟩
  · rw [record] at hy
    split at hy
    · next hg =>
      cases hy
      exact airsFit_of_not_aired (s := s) c (hg ▸ gone) rfl
    · exact fits g y hy
  · obtain ⟨y, hy, hs⟩ := there g e
    refine ⟨y, ?_, hs⟩
    rw [record, if_neg]
    · exact hy
    · rintro rfl
      exact gone e

theorem onAirLaw_setWs (r : Requester) (w : Workspace) (p : s.onAirLaw) : (s.setWs r w).onAirLaw := by
  cases r <;> exact p

end

/-- A change of one record that the law does not see. -/
theorem airsAs_setRecord {s : State} {h : Nat} {x y : Record} (hx : s.record? h = some x) (count : y.onAir = x.onAir)
    (stage : y.state.stage = x.state.stage) : s.airsAs (s.setRecord h y) := by
  have states : ∀ {a b : RecState}, a.stage = b.stage → (a = .reserved ↔ b = .reserved) ∧ (a = .retiring ↔ b = .retiring) := by
    intro a b e
    cases a <;> cases b <;> simp [RecState.stage] at e ⊢
  refine ⟨fun g z hz => ?_, fun g z hz hr => ?_, fun _ => rfl, rfl⟩
  · rw [record?_setRecord] at hz
    split at hz
    · next hg =>
      cases hz
      exact ⟨x, hg ▸ hx, count, (states stage).2.1⟩
    · exact ⟨z, hz, rfl, id⟩
  · rw [record?_setRecord]
    split
    · next hg =>
      rw [← hg, hx] at hz
      cases hz
      exact ⟨y, rfl, fun e => hr ((states stage).1.1 e)⟩
    · exact ⟨z, hz, hr⟩

theorem lawful_onAirLaw : Lawful State.onAirLaw where
  reset s h := steady_onAirLaw.frame _ _ h.symm onAirLaw_reset
  frame := steady_onAirLaw.frame
  touch s h x y c hx hy := by
    simp only [Record.use, Prod.mk.injEq] at hy
    obtain ⟨stage, key, -, -, -, count, -⟩ := hy
    exact onAirLaw_congr c ((kept_setRecord s hx key).canonical c) (airsAs_setRecord hx count stage)
  smap _ _ _ _ _ p := p
  update := steady_onAirLaw.update
  move := steady_onAirLaw.move
  entry _ _ _ _ _ p := p
  freed _ _ _ _ _ _ p := p
  pass s e q c _ _ _ p := onAirLaw_passEntry e q c p
  fail s e cd c _ := onAirLaw_splices c ((kept_failEntry s e cd).canonical c) (splices_failEntry e cd)
  cancel s e c _ := onAirLaw_splices c ((kept_dropEntry s e).canonical c) (splices_dropEntry e)
  ended s r o c := onAirLaw_endBatch r o c
  immediate s r o q c _ _ _ p :=
    onAirLaw_endBatch r o ((kept_writePicture s q).canonical c) (onAirLaw_writePicture q c p)
  deferred s r q t oc e n c _ _ ha p :=
    have ca := (kept_armEntries _ _ _ _ _ _ _ _).canonical c
    onAirLaw_endBatch r oc ca (onAirLaw_splices c ca (splices_armEntries ha) p)
  opened s r w _ _ := onAirLaw_setWs r w
  hold s r e _ _ := onAirLaw_setWs r _
  create s r q h t c _ _ e p := by
    obtain ⟨rfl, -, low, -, -⟩ := reserveRecord_eq_ok e
    exact onAirLaw_setWs r _ (onAirLaw_reserve (record?_of_lowestFree low) c p)

end Sys2Proof.Machine
end

