-- ==== Sys2Proof/Proofs/Counts.lean ====
section
/-! The planned and splice reference counts are the bindings and the waiting edits that name the record (R13, R15). -/

namespace Sys2Proof.Machine

/-! ### The law in parts -/

/-- The edits that an entry waits with: those of an ARMED, PRIMED or HELD one (R15). -/
def Entry.waits (x : Entry) : List SlotEdit := if x.holds then x.edits else []

/-- A planned binding or a waiting edit names the record. -/
def State.bindsTo (s : State) (h : Nat) : Prop :=
  (∃ k, (s.slotAt k).planned.map (·.handle) = some h)
    ∨ ∃ e, ∃ d ∈ (s.entry e).waits, d.binding.map (·.handle) = some h

/-- The counts of the records, and what is named is LIVE, LOST or RESTORING (R13, R15). -/
def State.refsLaw (s : State) : Prop :=
  (∀ h x, s.record? h = some x → x.planned = s.bindings h ∧ x.spliceRefs = s.waitingRefs h)
    ∧ ∀ h, s.bindsTo h → s.committed h = true

/-- A HELD return and an ARMED or PRIMED original are partners of each other (R138). -/
def State.pairsLaw (s : State) : Prop :=
  (∀ e n, (s.entry e).waitsWith n → (s.entry n).state = .held ∧ (s.entry n).role = some .ret
      ∧ (s.entry n).partner = some e)
    ∧ ∀ n, (s.entry n).state = .held → ∃ e, (s.entry n).partner = some e ∧ (s.entry e).waitsWith n

/-- A DEFERRED batch holds bindings and unbindings only (R106). -/
def State.deferredLaw (s : State) : Prop :=
  ∀ r, (s.ws r).mode = .deferred → ∀ c ∈ (s.ws r).edits, ∃ d, c.1 = .slot d

theorem refs_eq (x : Entry) (h : Nat) : x.refs h = bindsOf x.waits h := by
  unfold Entry.refs Entry.waits
  split <;> rfl

theorem waits_of_holds {x : Entry} (h : x.holds = true) : x.waits = x.edits := if_pos h

theorem waits_of_not_holds {x : Entry} (h : x.holds = false) : x.waits = [] := if_neg (by simp [h])

theorem holds_iff (x : Entry) : x.holds = true ↔ x.state.stage = 1 ∨ x.state = .held := by
  unfold Entry.holds
  cases x.state <;> simp [EntryState.stage]

theorem countLaw_iff (s : State) : s.countLaw ↔ s.refsLaw ∧ s.pairsLaw ∧ s.deferredLaw := by
  have names : (∀ h, s.bindsTo h → s.committed h = true)
      ↔ (∀ k b, (s.slotAt k).planned = some b → s.committed b.handle = true)
        ∧ ∀ e, (s.entry e).holds = true → ∀ d ∈ (s.entry e).edits, ∀ b, d.binding = some b →
          s.committed b.handle = true := by
    constructor
    · intro h
      refine ⟨fun k b hb => h _ (.inl ⟨k, by rw [hb]; rfl⟩), fun e he d hd b hb => h _ (.inr ⟨e, d, ?_, by rw [hb]; rfl⟩)⟩
      rwa [waits_of_holds he]
    · rintro ⟨h, k⟩ g (⟨n, hn⟩ | ⟨e, d, hd, hb⟩)
      · obtain ⟨b, hb, rfl⟩ := Option.map_eq_some_iff.1 hn
        exact h n b hb
      · obtain ⟨b, hd', rfl⟩ := Option.map_eq_some_iff.1 hb
        unfold Entry.waits at hd
        split at hd
        · next he => exact k e he d hd b hd'
        · cases hd
  unfold State.refsLaw State.pairsLaw State.deferredLaw
  rw [names]
  constructor
  · rintro ⟨h1, h2, h3, h4, h5, h6⟩
    exact ⟨⟨h1, h2, h3⟩, ⟨h4, h5⟩, h6⟩
  · rintro ⟨⟨h1, h2, h3⟩, ⟨h4, h5⟩, h6⟩
    exact ⟨h1, h2, h3, h4, h5, h6⟩

theorem committed_iff (s : State) (h : Nat) : s.committed h = true ↔ ∃ r, s.record? h = some r ∧ r.state.stage = 1 := by
  unfold State.committed
  cases s.record? h with
  | none => simp
  | some r => cases hr : r.state <;> simp [RecState.stage, hr]

theorem committed_congr {s t : State} {h : Nat}
    (e : (t.record? h).map (·.state.stage) = (s.record? h).map (·.state.stage)) : t.committed h = s.committed h := by
  rw [Bool.eq_iff_iff, committed_iff, committed_iff]
  have by_stage : ∀ u : State, (∃ r, u.record? h = some r ∧ r.state.stage = 1)
      ↔ (u.record? h).map (·.state.stage) = some 1 := fun u => by
    rw [Option.map_eq_some_iff]
  rw [by_stage, by_stage, e]

section
variable {s t : State}

/-- A waiting edit counts. -/
theorem waitingRefs_pos {e h : Nat} {d : SlotEdit} (hd : d ∈ (s.entry e).waits) (hb : d.binding.map (·.handle) = some h) :
    0 < s.waitingRefs h := by
  have found : ∃ x, Table.find? s.entries e = some x ∧ x = s.entry e := by
    unfold State.entry Table.look at hd ⊢
    cases hf : Table.find? s.entries e with
    | none => rw [hf] at hd; cases hd
    | some x => exact ⟨x, rfl, rfl⟩
  obtain ⟨x, hx, rfl⟩ := found
  rw [waitingRefs_eq_sum]
  refine Nat.lt_of_lt_of_le ?_ (List.le_sum_of_mem (List.mem_map.2 ⟨_, Table.find?_mem _ _ _ hx, rfl⟩))
  rw [refs_eq]
  exact List.countP_pos_iff.2 ⟨d, hd, by simp [hb]⟩

theorem waitingRefs_eq_zero {h : Nat} (c : s.canonical)
    (e : ∀ n, ∀ d ∈ (s.entry n).waits, d.binding.map (·.handle) ≠ some h) : s.waitingRefs h = 0 := by
  rw [waitingRefs_eq_sum]
  refine Table.sum_congr c.entries_rising (u := ([] : Table Entry)) rfl (fun x => x.refs h) (fun _ => 0) fun k => ?_
  rw [Table.elim_find? (d := Entry.start) (g := fun x => x.refs h) rfl]
  show (s.entry k).refs h = 0
  rw [refs_eq]
  exact List.countP_eq_zero.2 fun d hd => by simpa using e k d hd

theorem bindings_eq_zero {h : Nat} (c : s.canonical) (e : ∀ k, (s.slotAt k).planned.map (·.handle) ≠ some h) :
    s.bindings h = 0 := by
  rw [bindings_eq_sum]
  refine Table.sum_congr c.slots_rising (u := ([] : Table Slot)) rfl
    (fun x => names1 (x.planned.map (·.handle)) h) (fun _ => 0) fun k => ?_
  rw [Table.elim_find? (d := Slot.start) (g := fun x => names1 (x.planned.map (·.handle)) h) rfl]
  exact if_neg (e k)

/-! ### Changes that the references do not see -/

/-- The two states have the same bindings, waiting edits and counts, and what is named stays committed. -/
structure State.refersAs (s t : State) : Prop where
  records : ∀ g y, t.record? g = some y → ∃ x, s.record? g = some x ∧ y.planned = x.planned
    ∧ y.spliceRefs = x.spliceRefs
  committed : ∀ g, s.bindsTo g → s.committed g = true → t.committed g = true
  planned : ∀ k, (t.slotAt k).planned = (s.slotAt k).planned
  waits : ∀ e, (t.entry e).waits = (s.entry e).waits

theorem bindsTo_congr (planned : ∀ k, (t.slotAt k).planned = (s.slotAt k).planned)
    (waits : ∀ e, (t.entry e).waits = (s.entry e).waits) (h : Nat) : t.bindsTo h ↔ s.bindsTo h := by
  unfold State.bindsTo
  simp only [planned, waits]

theorem State.refersAs.trans {u : State} (h : s.refersAs t) (k : t.refersAs u) : s.refersAs u where
  records g y hy := by
    obtain ⟨x, hx, e1, e2⟩ := k.records g y hy
    obtain ⟨z, hz, e3, e4⟩ := h.records g x hx
    exact ⟨z, hz, e1.trans e3, e2.trans e4⟩
  committed g hg hc := k.committed g ((bindsTo_congr h.planned h.waits g).2 hg) (h.committed g hg hc)
  planned n := (k.planned n).trans (h.planned n)
  waits e := (k.waits e).trans (h.waits e)

theorem refsLaw_congr (cs : s.canonical) (ct : t.canonical) (h : s.refersAs t) (p : s.refsLaw) : t.refsLaw := by
  refine ⟨fun g y hy => ?_, fun g e => ?_⟩
  · obtain ⟨x, hx, planned, refs⟩ := h.records g y hy
    rw [planned, refs, bindings_congr cs ct g h.planned, waitingRefs_congr cs ct g fun e => by
      rw [refs_eq, refs_eq, h.waits]]
    exact p.1 g x hx
  · rw [bindsTo_congr h.planned h.waits] at e
    exact h.committed g e (p.2 g e)

/-- Changed records, each with its counts and its stage, or committed by the change. -/
theorem refersAs_of_map {f : Nat → Record → Record} (h : ∀ g, t.record? g = (s.record? g).map (f g))
    (hf : ∀ g r, (f g r).planned = r.planned ∧ (f g r).spliceRefs = r.spliceRefs
      ∧ ((f g r).state.stage = r.state.stage ∨ (f g r).state.stage = 1))
    (hs : ∀ k, (t.slotAt k).planned = (s.slotAt k).planned) (he : ∀ e, (t.entry e).waits = (s.entry e).waits) :
    s.refersAs t where
  records g y hy := by
    rw [h, Option.map_eq_some_iff] at hy
    obtain ⟨x, hx, rfl⟩ := hy
    exact ⟨x, hx, (hf g x).1, (hf g x).2.1⟩
  committed g _ e := by
    obtain ⟨r, hr, stage⟩ := (committed_iff s g).1 e
    refine (committed_iff t g).2 ⟨f g r, by rw [h, hr]; rfl, ?_⟩
    rcases (hf g r).2.2 with e | e
    · rw [e, stage]
    · exact e
  planned := hs
  waits := he

theorem refersAs_of_same (hr : t.records = s.records) (hs : ∀ k, (t.slotAt k).planned = (s.slotAt k).planned)
    (he : ∀ e, (t.entry e).waits = (s.entry e).waits) : s.refersAs t :=
  refersAs_of_map (f := fun _ r => r) (fun g => by unfold State.record?; rw [hr]; exact (Option.map_id' ..).symm)
    (fun _ _ => ⟨rfl, rfl, .inl rfl⟩) hs he

theorem refersAs_of_core (h : t.core = s.core) : s.refersAs t :=
  refersAs_of_same (congrArg (·.1) h) (fun k => by rw [core_slots h]) (fun e => by rw [core_entry h])

/-- A record that nothing names goes, or goes to RETIRING. -/
theorem refersAs_freeRecord {h : Nat} (e : ¬ s.bindsTo h) : s.refersAs (s.freeRecord h) where
  records g y hy := by
    rw [record?_freeRecord] at hy
    split at hy
    · cases hy
    · exact ⟨y, hy, rfl, rfl⟩
  committed g hg hc := by
    rw [committed_iff, record?_freeRecord, if_neg]
    · exact (committed_iff s g).1 hc
    · rintro rfl
      exact e hg
  planned _ := rfl
  waits _ := rfl

theorem refersAs_setRecord {h : Nat} {x y : Record} (hx : s.record? h = some x) (planned : y.planned = x.planned)
    (refs : y.spliceRefs = x.spliceRefs) (e : s.bindsTo h → y.state.stage = x.state.stage) :
    s.refersAs (s.setRecord h y) where
  records g z hz := by
    rw [record?_setRecord] at hz
    split at hz
    · next hg =>
      cases hz
      exact ⟨x, hg ▸ hx, planned, refs⟩
    · exact ⟨z, hz, rfl, rfl⟩
  committed g hg hc := by
    obtain ⟨r, hr, stage⟩ := (committed_iff s g).1 hc
    rw [committed_iff, record?_setRecord]
    split
    · next hgh =>
      subst hgh
      rw [hx] at hr
      cases hr
      exact ⟨y, rfl, (e hg).trans stage⟩
    · exact ⟨r, hr, stage⟩
  planned _ := rfl
  waits _ := rfl

theorem not_bindsTo_of_stage {h : Nat} (p : s.refsLaw) {x : Record} (hx : s.record? h = some x)
    (hs : x.state.stage ≠ 1) : ¬ s.bindsTo h := fun e => by
  obtain ⟨y, hy, stage⟩ := (committed_iff s h).1 (p.2 h e)
  rw [hx] at hy
  cases hy
  exact hs stage

theorem not_bindsTo_of_none {h : Nat} (p : s.refsLaw) (hx : s.record? h = none) : ¬ s.bindsTo h := fun e => by
  obtain ⟨y, hy, -⟩ := (committed_iff s h).1 (p.2 h e)
  rw [hx] at hy
  cases hy

/-! ### On-air updates and moves -/

theorem refsLaw_takeUpdate (u : OnAirUpdate) (c : s.canonical) (p : s.refsLaw) : (s.takeUpdate u).refsLaw := by
  have ct := (kept_takeUpdate s u).canonical c
  obtain ⟨v, hv, cases⟩ := takeUpdate_cases s u
  have same : s.refersAs { s with records := v } :=
    refersAs_of_map hv (fun _ _ => ⟨rfl, rfl, .inl rfl⟩) (fun _ => rfl) fun _ => rfl
  rcases cases with ⟨-, h⟩ | ⟨o, ⟨-, x, hx, hr, -⟩, h⟩
  · rw [h] at ct ⊢
    exact refsLaw_congr c ct same p
  · rw [h] at ct ⊢
    have gone : ¬ s.bindsTo o := not_bindsTo_of_stage p hx (by rw [hr]; decide)
    exact refsLaw_congr c ct (same.trans (refersAs_freeRecord (s := { s with records := v }) gone)) p

theorem steady_refsLaw : Steady State.refsLaw where
  frame s t h p := by
    have slots : s.slots = t.slots := congrArg (·.2.2.1) h
    unfold State.refsLaw State.bindings State.waitingRefs State.bindsTo State.committed at *
    simpa only [core_record? h, core_slots h, core_entry h, core_entries h, slots] using p
  update s u rest c _ p := refsLaw_takeUpdate (s := { s with updates := rest }) u c p
  move s k x c hx p := refsLaw_congr c (canonical_moved k x c) (refersAs_of_same rfl (fun j => by
    rw [slotAt_moved]
    split
    · next h => rw [← h, hx.1]
    · rfl) fun _ => rfl) p

/-! ### Changed bindings -/

theorem record?_moved (k h : Nat) (x : Slot) : (s.moved k x).record? h = s.record? h := rfl

theorem committed_plan (a b : Option Nat) (h : Nat) : (s.plan a b).committed h = s.committed h := by
  refine committed_congr ?_
  rw [record?_plan, Option.map_map]
  rfl

/-- A slot's binding changes to none or to a committed record, and the planned counts follow (R13). -/
theorem refsLaw_rebind (f i : Nat) {b : Option Binding} (hb : ∀ x, b = some x → s.committed x.handle = true)
    (c : s.canonical) (p : s.refsLaw) : (s.rebind f i b).refsLaw := by
  have core := core_rebind s f i b
  split at core
  · exact steady_refsLaw.frame _ _ core.symm p
  · refine steady_refsLaw.frame _ _ core.symm ?_
    have cp := (kept_plan s ((s.slot f i).planned.map (·.handle)) (b.map (·.handle))).canonical c
    have cm := canonical_moved (slotKey f i) (s.rebound f i b) cp
    obtain ⟨v, hv⟩ := plan_eq s ((s.slot f i).planned.map (·.handle)) (b.map (·.handle))
    have planned : ∀ j, (((s.plan ((s.slot f i).planned.map (·.handle)) (b.map (·.handle))).moved (slotKey f i)
        (s.rebound f i b)).slotAt j).planned = if slotKey f i = j then b else (s.slotAt j).planned := by
      intro j
      rw [slotAt_moved, slotAt_plan]
      split
      · exact planned_rebound s f i b
      · rfl
    have waits : ∀ e, (((s.plan ((s.slot f i).planned.map (·.handle)) (b.map (·.handle))).moved (slotKey f i)
        (s.rebound f i b)).entry e).waits = (s.entry e).waits := by
      intro e
      rw [hv]
      rfl
    refine ⟨fun h y hy => ?_, fun h e => ?_⟩
    · rw [record?_moved, record?_plan, Option.map_eq_some_iff] at hy
      obtain ⟨x, hx, rfl⟩ := hy
      obtain ⟨count, refs⟩ := p.1 h x hx
      have change := bindings_update c cm (slotKey f i) h fun j hj => by rw [planned, if_neg hj.symm]
      rw [planned, if_pos rfl] at change
      have old : names1 ((s.slot f i).planned.map (·.handle)) h ≤ s.bindings h := by
        unfold names1
        split
        · next e => exact bindings_pos e
        · exact Nat.zero_le _
      have same : s.slotAt (slotKey f i) = s.slot f i := rfl
      rw [same] at change
      refine ⟨?_, refs.trans (waitingRefs_congr c cm h fun e => by rw [refs_eq, refs_eq, waits]).symm⟩
      simp only
      omega
    · show (s.plan _ _).committed h = true
      rw [committed_plan]
      rcases e with ⟨k, hk⟩ | ⟨n, hn⟩
      · rw [planned] at hk
        split at hk
        · obtain ⟨x, hx, rfl⟩ := Option.map_eq_some_iff.1 hk
          exact hb x hx
        · exact p.2 h (.inl ⟨k, hk⟩)
      · rw [waits] at hn
        exact p.2 h (.inr ⟨n, hn⟩)

theorem committed_of_core {s t : State} (h : s.core = t.core) (g : Nat) : s.committed g = t.committed g := by
  unfold State.committed
  rw [core_record? h]

theorem committed_rebind (f i : Nat) (b : Option Binding) (g : Nat) : (s.rebind f i b).committed g = s.committed g := by
  have core := core_rebind s f i b
  split at core
  · exact committed_of_core core g
  · rw [committed_of_core core]
    exact committed_plan _ _ g

/-- The bindings that a list of edits leaves are those of edits of the list. -/
theorem mem_bindingsOf {l : List SlotEdit} {c : Nat × Option Binding} (h : c ∈ bindingsOf l) :
    ∃ d ∈ l, slotKey d.feed d.slot = c.1 ∧ d.binding = c.2 := by
  have found := Table.find?_of_mem _ (rising_bindingsOf l) c h
  rw [find?_bindingsOf] at found
  obtain ⟨d, hd, hb⟩ := Option.map_eq_some_iff.1 found
  have mem := List.mem_of_getLast? hd
  rw [List.mem_filter, beq_iff_eq] at mem
  exact ⟨d, mem.1, mem.2, hb⟩

theorem refsLaw_writeBindings {l : List SlotEdit}
    (hl : ∀ d ∈ l, ∀ b, d.binding = some b → s.committed b.handle = true) (c : s.canonical) (p : s.refsLaw) :
    (s.writeBindings l).refsLaw := by
  have all : ∀ x ∈ bindingsOf l, ∀ b, x.2 = some b → s.committed b.handle = true := by
    intro x hx b hb
    obtain ⟨d, hd, -, e⟩ := mem_bindingsOf hx
    exact hl d hd b (e.trans hb)
  unfold State.writeBindings
  generalize bindingsOf l = t at all
  induction t generalizing s with
  | nil => exact p
  | cons x t ih =>
    refine ih (fun d hd b hb => ?_) ((kept_rebind s _ _ _).canonical c)
      (refsLaw_rebind _ _ (all x (List.mem_cons_self ..)) c p) fun y hy b hb => ?_
    · rw [committed_rebind]; exact hl d hd b hb
    · rw [committed_rebind]; exact all y (List.mem_cons_of_mem _ hy) b hb

end

end Sys2Proof.Machine
end

