-- ==== Sys2Proof/Proofs/Waiting.lean ====
section
/-! Splice entries that begin and cease to wait: the references of their edits, and partners (R15, R138, R151 to
R156). -/

namespace Sys2Proof.Machine

section
variable {s t : State}

/-! ### References given up and taken -/

/-- An entry ceases to wait, and the references of its edits are given up (R15). -/
structure State.ceases (s t : State) (e : Nat) : Prop where
  records : t.records = (s.dropSpliceRefs (s.entry e).waits).records
  planned : ∀ k, (t.slotAt k).planned = (s.slotAt k).planned
  waits : (t.entry e).waits = []
  others : ∀ d, d ≠ e → (t.entry d).waits = (s.entry d).waits

theorem refsLaw_ceases {e : Nat} (cs : s.canonical) (ct : t.canonical) (h : s.ceases t e) (p : s.refsLaw) :
    t.refsLaw := by
  have record : ∀ g, t.record? g = (s.record? g).map fun r =>
      { r with spliceRefs := r.spliceRefs - bindsOf (s.entry e).waits g } := by
    intro g
    rw [← record?_dropSpliceRefs]
    exact congrArg (Table.find? · g) h.records
  have named : ∀ g, t.bindsTo g → s.bindsTo g := by
    rintro g (⟨k, hk⟩ | ⟨d, x, hx, hb⟩)
    · exact .inl ⟨k, by rwa [h.planned] at hk⟩
    · refine .inr ⟨d, x, ?_, hb⟩
      by_cases hd : d = e
      · rw [hd, h.waits] at hx; cases hx
      · rwa [h.others d hd] at hx
  refine ⟨fun g y hy => ?_, fun g hg => ?_⟩
  · rw [record, Option.map_eq_some_iff] at hy
    obtain ⟨x, hx, rfl⟩ := hy
    obtain ⟨planned, refs⟩ := p.1 g x hx
    have change := waitingRefs_update cs ct e g fun d hd => by rw [refs_eq, refs_eq, h.others d hd]
    rw [refs_eq, refs_eq, h.waits, bindsOf_nil] at change
    refine ⟨planned.trans (bindings_congr cs ct g h.planned).symm, ?_⟩
    simp only
    omega
  · rw [committed_congr (s := s)]
    · exact p.2 g (named g hg)
    · rw [record, Option.map_map]
      rfl

theorem refsLaw_arm {e : Nat} {x : Entry} (c : s.canonical) (free : (s.entry e).waits = []) (hx : x.holds = true)
    (hd : ∀ d ∈ x.edits, ∀ b, d.binding = some b → s.committed b.handle = true) (p : s.refsLaw) :
    (s.arm e x).refsLaw := by
  have ct := (kept_arm e x).canonical c
  obtain ⟨v, hv⟩ := arm_eq (s := s) e x
  have planned : ∀ k, ((s.arm e x).slotAt k).planned = (s.slotAt k).planned := fun k => by rw [hv]; rfl
  have committed : ∀ g, (s.arm e x).committed g = s.committed g := fun g => committed_congr (by
    rw [record?_arm, Option.map_map]
    rfl)
  refine ⟨fun g y hy => ?_, fun g hg => ?_⟩
  · rw [record?_arm, Option.map_eq_some_iff] at hy
    obtain ⟨z, hz, rfl⟩ := hy
    obtain ⟨bound, refs⟩ := p.1 g z hz
    have change := waitingRefs_update c ct e g fun d hd => by rw [entry_arm, if_neg hd.symm]
    rw [entry_arm, if_pos rfl, refs_eq, refs_eq, free, waits_of_holds hx, bindsOf_nil] at change
    refine ⟨bound.trans (bindings_congr c ct g planned).symm, ?_⟩
    simp only
    omega
  · rw [committed]
    rcases hg with ⟨k, hk⟩ | ⟨d, z, hz, hb⟩
    · exact p.2 g (.inl ⟨k, by rwa [planned] at hk⟩)
    · rw [entry_arm] at hz
      split at hz
      · rw [waits_of_holds hx] at hz
        obtain ⟨b, hb', rfl⟩ := Option.map_eq_some_iff.1 hb
        exact hd z hz b hb'
      · exact p.2 g (.inr ⟨d, z, hz, hb⟩)

/-! ### Partners -/

theorem waitsWith_iff (x : Entry) (n : Nat) :
    x.waitsWith n ↔ x.state.stage = 1 ∧ x.role = some .original ∧ x.partner = some n := by
  unfold Entry.waitsWith
  cases x.state <;> simp [EntryState.stage]

theorem held_iff (x : EntryState) : x = .held ↔ x.stage = 2 := by cases x <;> simp [EntryState.stage]

theorem heir_iff (x : Entry) (n : Nat) : x.heir = some n ↔ x.role = some .original ∧ x.partner = some n := by
  unfold Entry.heir
  split <;> simp_all

theorem pairsLaw_congr (h : ∀ e, (t.entry e).state.stage = (s.entry e).state.stage ∧ (t.entry e).role = (s.entry e).role
    ∧ (t.entry e).partner = (s.entry e).partner) (p : s.pairsLaw) : t.pairsLaw := by
  unfold State.pairsLaw at *
  simp only [waitsWith_iff, held_iff] at p ⊢
  simpa only [fun e => (h e).1, fun e => (h e).2.1, fun e => (h e).2.2] using p

theorem pairsLaw_of_entries (h : t.entries = s.entries) (p : s.pairsLaw) : t.pairsLaw :=
  pairsLaw_congr (fun e => by rw [entry_congr h]; exact ⟨rfl, rfl, rfl⟩) p

/-- An entry that neither waits nor is HELD, before and after, is nobody's partner. -/
theorem pairsLaw_aside {e : Nat} (before : (s.entry e).state.stage ≠ 1 ∧ (s.entry e).state ≠ .held)
    (after : (t.entry e).state.stage ≠ 1 ∧ (t.entry e).state ≠ .held) (others : ∀ d, d ≠ e → t.entry d = s.entry d)
    (p : s.pairsLaw) : t.pairsLaw := by
  obtain ⟨original, held⟩ := p
  refine ⟨fun d n hw => ?_, fun n hn => ?_⟩
  · have hde : d ≠ e := by
      rintro rfl
      exact after.1 ((waitsWith_iff _ _).1 hw).1
    rw [others d hde] at hw
    have h := original d n hw
    have hne : n ≠ e := by
      rintro rfl
      exact before.2 h.1
    rwa [others n hne]
  · have hne : n ≠ e := by
      rintro rfl
      exact after.2 hn
    rw [others n hne] at hn ⊢
    obtain ⟨d, hd, hw⟩ := held n hn
    have hde : d ≠ e := by
      rintro rfl
      exact before.1 ((waitsWith_iff _ _).1 hw).1
    exact ⟨d, hd, by rwa [others d hde]⟩

/-- An entry that waited ends, and its return is armed or ends with it (R151 to R153, R156). -/
theorem pairsLaw_ended {e : Nat} (stage : (s.entry e).state.stage = 1)
    (ends : (t.entry e).state.stage ≠ 1 ∧ (t.entry e).state ≠ .held)
    (heir : ∀ n, n ≠ e → (s.entry e).heir = some n → (t.entry n).state ≠ .held ∧ (t.entry n).role = (s.entry n).role)
    (others : ∀ d, d ≠ e → (s.entry e).heir ≠ some d → t.entry d = s.entry d) (p : s.pairsLaw) : t.pairsLaw := by
  obtain ⟨original, held⟩ := p
  have ret : ∀ n, (s.entry e).heir = some n → (s.entry n).state = .held ∧ (s.entry n).role = some .ret
      ∧ (s.entry n).partner = some e := fun n hn => original e n ((waitsWith_iff _ _).2 ⟨stage, (heir_iff _ _).1 hn⟩)
  have notHeld : (s.entry e).state ≠ .held := fun h => by rw [h] at stage; cases stage
  refine ⟨fun d n hw => ?_, fun n hn => ?_⟩
  · have hde : d ≠ e := by
      rintro rfl
      exact ends.1 ((waitsWith_iff _ _).1 hw).1
    have notHeir : (s.entry e).heir ≠ some d := fun h => by
      have role := ((waitsWith_iff _ _).1 hw).2.1
      rw [(heir d hde h).2, (ret d h).2.1] at role
      cases role
    rw [others d hde notHeir] at hw
    obtain ⟨h1, h2, h3⟩ := original d n hw
    have hne : n ≠ e := by
      rintro rfl
      exact notHeld h1
    rw [others n hne fun h => hde (by
      have := (ret n h).2.2
      rw [h3] at this
      exact Option.some.inj this)]
    exact ⟨h1, h2, h3⟩
  · have hne : n ≠ e := by
      rintro rfl
      exact ends.2 hn
    have notHeir : (s.entry e).heir ≠ some n := fun h => (heir n hne h).1 hn
    rw [others n hne notHeir] at hn ⊢
    obtain ⟨d, hd, hw⟩ := held n hn
    refine ⟨d, hd, ?_⟩
    have hde : d ≠ e := by
      rintro rfl
      exact notHeir ((heir_iff _ _).2 ((waitsWith_iff _ _).1 hw).2)
    rw [others d hde fun h => by
      have stage := ((waitsWith_iff _ _).1 hw).1
      rw [(ret d h).1] at stage
      cases stage]
    exact hw

/-- A HELD return ends, and its original has no partner any more (R156). -/
theorem pairsLaw_cut {e : Nat} (stage : (s.entry e).state = .held) (ends : (t.entry e).state = .free)
    (partner : ∀ o, o ≠ e → (s.entry e).partner = some o → t.entry o = { s.entry o with partner := none })
    (others : ∀ d, d ≠ e → (s.entry e).partner ≠ some d → t.entry d = s.entry d) (p : s.pairsLaw) : t.pairsLaw := by
  obtain ⟨original, held⟩ := p
  obtain ⟨o, ho, hwo⟩ := held e stage
  have hoe : o ≠ e := by
    rintro rfl
    have := ((waitsWith_iff _ _).1 hwo).1
    rw [stage] at this
    cases this
  have cut := partner o hoe ho
  have rest : ∀ d, d ≠ e → d ≠ o → t.entry d = s.entry d := fun d hd hdo => others d hd fun h => hdo (by
    rw [ho] at h
    exact (Option.some.inj h).symm)
  refine ⟨fun d n hw => ?_, fun n hn => ?_⟩
  · have hde : d ≠ e := by
      rintro rfl
      have := ((waitsWith_iff _ _).1 hw).1
      rw [ends] at this
      cases this
    have hdo : d ≠ o := by
      rintro rfl
      have := ((waitsWith_iff _ _).1 hw).2.2
      rw [cut] at this
      cases this
    rw [rest d hde hdo] at hw
    obtain ⟨h1, h2, h3⟩ := original d n hw
    have hne : n ≠ e := by
      rintro rfl
      rw [ho] at h3
      exact hdo (Option.some.inj h3).symm
    have hno : n ≠ o := by
      rintro rfl
      have := ((waitsWith_iff _ _).1 hwo).1
      rw [h1] at this
      cases this
    rw [rest n hne hno]
    exact ⟨h1, h2, h3⟩
  · have hne : n ≠ e := by
      rintro rfl
      rw [ends] at hn
      cases hn
    have hno : n ≠ o := by
      rintro rfl
      have := ((waitsWith_iff _ _).1 hwo).1
      rw [cut] at hn
      rw [show (s.entry n).state = .held from hn] at this
      cases this
    rw [rest n hne hno] at hn ⊢
    obtain ⟨d, hd, hw⟩ := held n hn
    refine ⟨d, hd, ?_⟩
    have hde : d ≠ e := by
      rintro rfl
      have := ((waitsWith_iff _ _).1 hw).1
      rw [stage] at this
      cases this
    have hdo : d ≠ o := by
      rintro rfl
      have h1 := ((waitsWith_iff _ _).1 hw).2.2
      rw [((waitsWith_iff _ _).1 hwo).2.2] at h1
      exact hne (Option.some.inj h1).symm
    rw [rest d hde hdo]
    exact hw

/-- Entries that were FREE begin to wait, and nothing had one of them as its partner (R136). -/
theorem pairsLaw_armed {o : Nat} {n : Option Nat} {x : Entry} (free : (s.entry o).state = .free)
    (orig : t.entry o = x) (stage : x.state.stage = 1) (partner : x.role = some .original ∧ x.partner = n)
    (ret : ∀ m, n = some m → m ≠ o ∧ (s.entry m).state = .free ∧ (t.entry m).state = .held
      ∧ (t.entry m).role = some .ret ∧ (t.entry m).partner = some o)
    (others : ∀ d, d ≠ o → n ≠ some d → t.entry d = s.entry d) (p : s.pairsLaw) : t.pairsLaw := by
  obtain ⟨original, held⟩ := p
  have newStage : (t.entry o).state.stage = 1 := by rw [orig]; exact stage
  refine ⟨fun d m hw => ?_, fun m hm => ?_⟩
  · by_cases hdo : d = o
    · subst hdo
      rw [orig] at hw
      have hm := ((waitsWith_iff _ _).1 hw).2.2
      rw [partner.2] at hm
      obtain ⟨-, -, h⟩ := ret m hm
      exact h
    · have notRet : n ≠ some d := fun h => by
        obtain ⟨-, -, held, -⟩ := ret d h
        have := ((waitsWith_iff _ _).1 hw).1
        rw [held] at this
        cases this
      rw [others d hdo notRet] at hw
      obtain ⟨h1, h2, h3⟩ := original d m hw
      have hmo : m ≠ o := by
        rintro rfl
        rw [free] at h1
        cases h1
      rw [others m hmo fun h => by
        obtain ⟨-, free, -⟩ := ret m h
        rw [free] at h1
        cases h1]
      exact ⟨h1, h2, h3⟩
  · have hmo : m ≠ o := by
      rintro rfl
      rw [hm] at newStage
      cases newStage
    by_cases hn : n = some m
    · obtain ⟨-, -, -, -, h⟩ := ret m hn
      refine ⟨o, h, (waitsWith_iff _ _).2 ⟨newStage, ?_⟩⟩
      rw [orig]
      exact ⟨partner.1, partner.2.trans hn⟩
    · rw [others m hmo hn] at hm ⊢
      obtain ⟨d, hd, hw⟩ := held m hm
      refine ⟨d, hd, ?_⟩
      have hs := ((waitsWith_iff _ _).1 hw).1
      rw [others d (by rintro rfl; rw [free] at hs; cases hs) fun h => by
        obtain ⟨-, free, -⟩ := ret d h
        rw [free] at hs
        cases hs]
      exact hw

/-! ### The entries after an execution or a cancellation -/

theorem waits_freed (x : Entry) (r : LastResult) (c : Option Code) : (x.freed r c).waits = [] := rfl

theorem entry_freeEntry (e d : Nat) (r : LastResult) (c : Option Code) :
    (s.freeEntry e r c).entry d = if e = d then (s.entry e).freed r c else s.entry d := entry_setEntry s e d _

theorem entry_of_entries (h : t.entries = s.entries) (e : Nat) : t.entry e = s.entry e := entry_congr h e

theorem entry_dropSpliceRefs (l : List SlotEdit) (e : Nat) : (s.dropSpliceRefs l).entry e = s.entry e := by
  obtain ⟨v, h⟩ := dropSpliceRefs_eq s l
  rw [h]
  rfl

theorem entry_passReservations (e d : Nat) (n : Option Nat) : (s.passReservations e n).entry d = s.entry d := by
  obtain ⟨v, h⟩ := passReservations_eq s e n
  rw [h]
  rfl

theorem records_passReservations (e : Nat) (n : Option Nat) : (s.passReservations e n).records = s.records := by
  obtain ⟨v, h⟩ := passReservations_eq s e n
  rw [h]

theorem planned_passReservations (e k : Nat) (n : Option Nat) :
    ((s.passReservations e n).slotAt k).planned = (s.slotAt k).planned := by
  rw [slotAt_passReservations]
  split <;> rfl

theorem records_raise (k : AttKind) (d : Nat) : (s.raise k d).records = s.records :=
  congrArg (·.1) (core_raise s k d)

theorem planned_dropSpliceRefs (l : List SlotEdit) (k : Nat) :
    ((s.dropSpliceRefs l).slotAt k).planned = (s.slotAt k).planned := by
  obtain ⟨v, h⟩ := dropSpliceRefs_eq s l
  rw [h]
  rfl

theorem entry_raise (k : AttKind) (d e : Nat) : (s.raise k d).entry e = s.entry e := entry_congr (entries_raise s k d) e

/-- The heir that an execution arms (R152). -/
def Entry.armedNow (x : Entry) (now : StationTime) : Entry :=
  { x with state := .armed, remaining := some 1, trigger := x.trigger.map (·.written now) }

theorem entry_armReturn (e d : Nat) : (s.armReturn e).entry d
    = if (s.entry e).heir = some d then (s.entry d).armedNow s.clock else s.entry d := by
  unfold State.armReturn
  split
  · next n hn =>
    rw [hn, entry_setEntry, entry_passReservations]
    simp only [Option.some.injEq]
    split
    · next h => rw [h]; rfl
    · rfl
  · next hn => rw [hn, entry_passReservations]; rfl

theorem records_armReturn (e : Nat) : (s.armReturn e).records = s.records := by
  unfold State.armReturn
  split
  · rw [setEntry_records, records_passReservations]
  · exact records_passReservations e none

theorem slotAt_setEntry (e k : Nat) (x : Entry) : (s.setEntry e x).slotAt k = s.slotAt k := rfl

theorem planned_armReturn (e k : Nat) : ((s.armReturn e).slotAt k).planned = (s.slotAt k).planned := by
  unfold State.armReturn
  split
  · rw [slotAt_setEntry, planned_passReservations]
  · exact planned_passReservations e k none

/-- An executed entry is FREE or SWITCHING, and nothing else of the tables changes (R151 part 5). -/
theorem finishEntry_facts (e a k : Nat) : (s.finishEntry e a k).records = s.records
    ∧ (s.finishEntry e a k).slots = s.slots ∧ (∀ d, d ≠ e → (s.finishEntry e a k).entry d = s.entry d)
    ∧ (((s.finishEntry e a k).entry e).state = .free ∨ ((s.finishEntry e a k).entry e).state = .switching) := by
  unfold State.finishEntry
  dsimp only
  split
  · refine ⟨records_raise _ _, ?_, fun d hd => ?_, .inl ?_⟩
    · exact congrArg (·.2.2.1) (core_raise _ _ _)
    · rw [entry_raise, entry_freeEntry, if_neg hd.symm, entry_setEntry, if_neg hd.symm]
    · rw [entry_raise, entry_freeEntry, if_pos rfl]
      rfl
  · refine ⟨rfl, rfl, fun d hd => ?_, .inr ?_⟩
    · rw [entry_setEntry, if_neg hd.symm]
    · rw [entry_setEntry, if_pos rfl]

theorem waits_of_ended {x : Entry} (h : x.state = .free ∨ x.state = .switching) : x.waits = [] :=
  waits_of_not_holds (by unfold Entry.holds; rcases h with h | h <;> rw [h] <;> rfl)

theorem waits_armedNow {x : Entry} (h : x.state = .held) (now : StationTime) : (x.armedNow now).waits = x.waits := by
  rw [waits_of_holds (x := x) ((holds_iff x).2 (.inr h))]
  rfl

end

end Sys2Proof.Machine
end

