-- ==== Sys2Proof/Proofs/Sides.lean ====
section
/-! What the operations on records, slots and updates leave alone: the splice entries and the workspaces. -/

namespace Sys2Proof.Machine

/-- The splice entries, and what the laws read of the workspaces. -/
def State.sides (s : State) := (s.entries, s.siteWs.core, s.netWs.core)

section
variable {s t : State}

theorem sides_of_core (h : t.core = s.core) : t.sides = s.sides := by
  unfold State.sides
  rw [core_entries h, show t.siteWs.core = s.siteWs.core from core_ws h .site,
    show t.netWs.core = s.netWs.core from core_ws h .network]

theorem entries_of_sides (h : t.sides = s.sides) : t.entries = s.entries := congrArg (·.1) h

theorem entry_of_sides (h : t.sides = s.sides) (e : Nat) : t.entry e = s.entry e := entry_congr (entries_of_sides h) e

theorem ws_of_sides (h : t.sides = s.sides) (r : Requester) : (t.ws r).core = (s.ws r).core := by
  cases r
  · exact congrArg (·.2.1) h
  · exact congrArg (·.2.2) h

theorem sides_freeRecord (h : Nat) : (s.freeRecord h).sides = s.sides := rfl

theorem sides_takeUpdate (u : OnAirUpdate) : (s.takeUpdate u).sides = s.sides := by
  obtain ⟨v, -, ⟨-, h⟩ | ⟨o, -, h⟩⟩ := takeUpdate_cases s u <;> rw [h] <;> rfl

theorem sides_takeUpdates : s.takeUpdates.sides = s.sides :=
  foldl_same State.sides _ (fun _ _ => sides_takeUpdate _) s.updates { s with updates := [] }

theorem slots_takeUpdate (u : OnAirUpdate) : (s.takeUpdate u).slots = s.slots := by
  obtain ⟨v, -, ⟨-, h⟩ | ⟨o, -, h⟩⟩ := takeUpdate_cases s u
  · rw [h]
  · rw [h]; rfl

theorem slots_takeUpdates : s.takeUpdates.slots = s.slots :=
  foldl_same State.slots _ (fun _ _ => slots_takeUpdate _) s.updates { s with updates := [] }

theorem sides_rebind (f i : Nat) (b : Option Binding) : (s.rebind f i b).sides = s.sides := by
  have core := core_rebind s f i b
  split at core
  · exact sides_of_core core
  · refine (sides_of_core core).trans ?_
    obtain ⟨v, h⟩ := plan_eq s ((s.slot f i).planned.map (·.handle)) (b.map (·.handle))
    rw [h]
    rfl

theorem sides_writeBindings (l : List SlotEdit) : (s.writeBindings l).sides = s.sides :=
  foldl_same State.sides _ (fun _ _ => sides_rebind _ _ _) _ _

theorem sides_moveSlots (g : Nat → Slot → Option Move) : (s.moveSlots g).sides = s.sides := by
  obtain ⟨a, u, v, w, x, h⟩ := moveSlots_eq s g
  rw [h]
  rfl

theorem sides_writeRecord (e : Edit) : (s.writeRecord e).sides = s.sides := by
  obtain ⟨v, w, h⟩ := writeRecord_eq s e
  rw [h]
  rfl

theorem sides_writeRecords (l : List Edit) : (l.foldl State.writeRecord s).sides = s.sides :=
  foldl_same State.sides _ (fun _ _ => sides_writeRecord _) _ _

theorem sides_retireRecord (h : Nat) : (s.retireRecord h).sides = s.sides := by
  obtain ⟨v, -, ⟨-, e⟩ | ⟨r, -, ⟨-, e⟩ | ⟨-, e⟩⟩⟩ := retireRecord_cases s h <;> (rw [e]; rfl)

theorem sides_retireRecords (l : List (Nat × Nat)) :
    (l.foldl (fun s c => s.retireRecord c.1) s).sides = s.sides :=
  foldl_same State.sides _ (fun _ _ => sides_retireRecord _) _ _

theorem sides_bound (p : Picture) : (s.bound p).sides = s.sides := by
  unfold State.bound
  dsimp only
  rw [sides_takeUpdates, sides_moveSlots, sides_writeBindings, sides_of_core (core_foldl_writeLeg _ _),
    sides_writeRecords]

theorem sides_writePicture (p : Picture) : (s.writePicture p).sides = s.sides := by
  rw [sides_of_core (core_writePicture s p), sides_retireRecords, sides_bound]

/-! ### What an update reads -/

theorem records_modRecord_congr (h : s.records = t.records) (n : Nat) (f : Record → Record) :
    (s.modRecord n f).records = (t.modRecord n f).records := by
  unfold State.modRecord State.record? State.setRecord
  rw [h]
  cases Table.find? t.records n with
  | none => exact h
  | some r => rfl

theorem records_airOn_congr (h : s.records = t.records) (o : Option Nat) : (s.airOn o).records = (t.airOn o).records := by
  cases o with
  | none => exact h
  | some n => exact records_modRecord_congr h n _

theorem records_lower_congr (h : s.records = t.records) (o : Nat) :
    (s.takeUpdate ⟨some o, none⟩).records = (t.takeUpdate ⟨some o, none⟩).records := by
  have lowered := records_modRecord_congr h o fun r => { r with onAir := r.onAir - 1 }
  have read := congrArg (Table.find? · o) lowered
  unfold State.takeUpdate
  dsimp only
  generalize s.modRecord o _ = u at *
  generalize t.modRecord o _ = v at *
  rw [show u.record? o = v.record? o from read]
  split
  · split
    · exact congrArg (Table.erase · o) lowered
    · exact lowered
  · exact lowered

theorem records_takeUpdate_congr (h : s.records = t.records) (u : OnAirUpdate) :
    (s.takeUpdate u).records = (t.takeUpdate u).records := by
  obtain ⟨old, new⟩ := u
  cases old with
  | none => rw [takeUpdate_none, takeUpdate_none, records_airOn_congr h]
  | some o =>
    rw [takeUpdate_some s, takeUpdate_some t]
    exact records_lower_congr (records_airOn_congr h new) o

/-- What the updates leave of the records depends on the records and the updates alone. -/
theorem records_takeUpdates_congr (h : s.records = t.records) (hu : s.updates = t.updates) :
    s.takeUpdates.records = t.takeUpdates.records := by
  unfold State.takeUpdates
  rw [hu]
  suffices ∀ (l : List OnAirUpdate) (s t : State), s.records = t.records →
      (l.foldl State.takeUpdate s).records = (l.foldl State.takeUpdate t).records from this _ _ _ h
  intro l
  induction l with
  | nil => intro s t h; exact h
  | cons u l ih => intro s t h; exact ih _ _ (records_takeUpdate_congr h u)

end

end Sys2Proof.Machine
end

