-- ==== Sys2Proof/Proofs/CountSteps.lean ====
section
/-! Every step keeps the planned and splice reference counts (R13, R15): the acts of the splice scheduler. -/

namespace Sys2Proof.Machine

section
variable {s t : State}

theorem deferredLaw_congr (h : ∀ r, (t.ws r).core = (s.ws r).core) (p : s.deferredLaw) : t.deferredLaw := by
  intro r hr c hc
  have core := h r
  simp only [Workspace.core, Prod.mk.injEq] at core
  exact p r (core.1 ▸ hr) c (core.2.1 ▸ hc)

theorem pairsLaw_of_sides (h : t.sides = s.sides) (p : s.pairsLaw) : t.pairsLaw :=
  pairsLaw_of_entries (entries_of_sides h) p

theorem deferredLaw_of_sides (h : t.sides = s.sides) (p : s.deferredLaw) : t.deferredLaw :=
  deferredLaw_congr (ws_of_sides h) p

theorem countLaw_of_sides (h : t.sides = s.sides) (refs : s.refsLaw → t.refsLaw) (p : s.countLaw) : t.countLaw := by
  obtain ⟨p1, p2, p3⟩ := (countLaw_iff s).1 p
  exact (countLaw_iff t).2 ⟨refs p1, pairsLaw_of_sides h p2, deferredLaw_of_sides h p3⟩

/-! ### Executions -/

theorem waits_of_stage {x : Entry} (h : x.state.stage = 1) : x.waits = x.edits :=
  waits_of_holds ((holds_iff x).2 (.inl h))

/-- What an entry waits with names records that are LIVE, LOST or RESTORING. -/
theorem committed_of_waits {e : Nat} (p : s.refsLaw) {d : SlotEdit} (hd : d ∈ (s.entry e).waits) {b : Binding}
    (hb : d.binding = some b) : s.committed b.handle = true := p.2 _ (.inr ⟨e, d, hd, by rw [hb]; rfl⟩)

theorem judgeEntry_eq_ok {x : Entry} {q : Picture} (h : judgeEntry s x = .ok q) :
    (Picture.start s).walkEntry 1 x.edits (x.tolerance.getD 0) = .ok q ∧ legLaws q.tables = none := by
  unfold judgeEntry at h
  split at h
  · cases h
  · next walk =>
    split at h
    · cases h
    · next legs =>
      cases h
      exact ⟨walk, legs⟩

/-- The heir of an entry that waits is HELD, and it is another entry (R138). -/
theorem held_of_heir {e n : Nat} (stage : (s.entry e).state.stage = 1) (p : s.pairsLaw)
    (h : (s.entry e).heir = some n) : (s.entry n).state = .held ∧ (s.entry n).role = some .ret ∧ n ≠ e := by
  obtain ⟨held, role, -⟩ := p.1 e n ((waitsWith_iff _ _).2 ⟨stage, (heir_iff _ _).1 h⟩)
  refine ⟨held, role, ?_⟩
  rintro rfl
  rw [held] at stage
  cases stage

/-- The tables as a passing execution leaves them before its return is armed (R151 parts 1 to 3). -/
def State.executing (s : State) (e : Nat) (q : Picture) : State :=
  ((s.writeBindings (q.applied.filterMap Edit.slotEdit?)).dropSpliceRefs (s.entry e).edits).takeUpdates

theorem passEntry_eq (e : Nat) (q : Picture) :
    s.passEntry e q = ((s.executing e q).armReturn e).finishEntry e q.applied.length q.skipped := rfl

theorem entry_executing (e d : Nat) (q : Picture) : (s.executing e q).entry d = s.entry d := by
  unfold State.executing
  rw [entry_of_sides sides_takeUpdates, entry_dropSpliceRefs, entry_of_sides (sides_writeBindings _)]

theorem ws_executing (e : Nat) (q : Picture) (r : Requester) : ((s.executing e q).ws r).core = (s.ws r).core := by
  unfold State.executing
  rw [ws_of_sides sides_takeUpdates, (splices_dropSpliceRefs (s.entry e).edits).ws r,
    ws_of_sides (sides_writeBindings _)]

/-- An executed entry is FREE or SWITCHING. -/
theorem ended_passEntry (e : Nat) (q : Picture) :
    ((s.passEntry e q).entry e).state = .free ∨ ((s.passEntry e q).entry e).state = .switching :=
  (finishEntry_facts e q.applied.length q.skipped).2.2.2

/-- Of the other entries an execution arms the heir. -/
theorem entry_passEntry {e d : Nat} (q : Picture) (hd : d ≠ e) : (s.passEntry e q).entry d
    = if (s.entry e).heir = some d then (s.entry d).armedNow (s.executing e q).clock else s.entry d := by
  obtain ⟨-, -, others, -⟩ := finishEntry_facts (s := (s.executing e q).armReturn e) e q.applied.length q.skipped
  rw [passEntry_eq, others d hd, entry_armReturn, entry_executing, entry_executing]

theorem waits_passEntry {e : Nat} (q : Picture) (stage : (s.entry e).state.stage = 1) (p : s.pairsLaw) (d : Nat) :
    ((s.passEntry e q).entry d).waits = if d = e then [] else (s.entry d).waits := by
  split
  · next h => rw [h]; exact waits_of_ended (ended_passEntry e q)
  · next h =>
    rw [entry_passEntry q h]
    split
    · next heir => exact waits_armedNow (held_of_heir stage p heir).1 _
    · rfl

/-- The bindings that an execution writes are those of its entry, which are committed. -/
theorem committed_of_execution {e : Nat} {q : Picture} (stage : (s.entry e).state.stage = 1)
    (judged : judgeEntry s (s.entry e) = .ok q) (p : s.refsLaw) :
    ∀ d ∈ q.applied.filterMap Edit.slotEdit?, ∀ b, d.binding = some b → s.committed b.handle = true := by
  intro d hd b hb
  obtain ⟨walk, -⟩ := judgeEntry_eq_ok judged
  obtain ⟨x, hx, hxd⟩ := List.mem_filterMap.1 hd
  rcases walkEntry_applied_mem walk x hx with h | ⟨y, hy, rfl⟩
  · cases h
  · cases hxd
    exact committed_of_waits p (e := e) (by rwa [waits_of_stage stage]) hb

theorem refsLaw_passEntry {e : Nat} {q : Picture} (c : s.canonical) (stage : (s.entry e).state.stage = 1)
    (judged : judgeEntry s (s.entry e) = .ok q) (refs : s.refsLaw) (pairs : s.pairsLaw) : (s.passEntry e q).refsLaw := by
  have bound := refsLaw_writeBindings (committed_of_execution stage judged refs) c refs
  obtain ⟨u, hu⟩ : ∃ u, u = s.writeBindings (q.applied.filterMap Edit.slotEdit?) := ⟨_, rfl⟩
  have entry_u : ∀ d, u.entry d = s.entry d := fun d => by rw [hu]; exact entry_of_sides (sides_writeBindings _) d
  have cu : u.canonical := hu ▸ (kept_writeBindings s _).canonical c
  rw [← hu] at bound
  obtain ⟨v, hv⟩ : ∃ v, v = u.dropSpliceRefs (s.entry e).edits := ⟨_, rfl⟩
  have cv : (v.setEntry e Entry.start).canonical :=
    hv ▸ ((kept_dropSpliceRefs u (s.entry e).edits).trans (kept_setEntry _ e Entry.start)).canonical cu
  have dropped : (v.setEntry e Entry.start).refsLaw := by
    rw [hv] at cv ⊢
    refine refsLaw_ceases cu cv (e := e) ⟨?_, fun k => ?_, ?_, fun d hd => ?_⟩ bound
    · rw [setEntry_records, entry_u, waits_of_stage stage]
    · rw [slotAt_setEntry, planned_dropSpliceRefs]
    · rw [entry_setEntry, if_pos rfl]; rfl
    · rw [entry_setEntry, if_neg hd.symm, entry_dropSpliceRefs]
  have executing : s.executing e q = v.takeUpdates := by rw [hv, hu]; rfl
  obtain ⟨records, slots, -, -⟩ := finishEntry_facts (s := (s.executing e q).armReturn e) e q.applied.length q.skipped
  refine refsLaw_congr ((kept_takeUpdates _).canonical cv) ((kept_passEntry s e q).canonical c)
    (refersAs_of_same ?_ (fun k => ?_) fun d => ?_) (steady_refsLaw.takeUpdates cv dropped)
  · rw [passEntry_eq, records, records_armReturn, executing]
    exact records_takeUpdates_congr rfl rfl
  · have same : ∀ t : State, t.takeUpdates.slotAt k = t.slotAt k := fun t => by
      unfold State.slotAt
      rw [slots_takeUpdates]
    rw [passEntry_eq, show State.slotAt (State.finishEntry _ _ _ _) k = ((s.executing e q).armReturn e).slotAt k from
      congrArg (Table.look Slot.start · k) slots, planned_armReturn, executing, same, same, slotAt_setEntry]
  · rw [waits_passEntry q stage pairs, entry_of_sides (sides_takeUpdates (s := v.setEntry e Entry.start)), entry_setEntry]
    by_cases h : e = d
    · rw [if_pos h.symm, if_pos h]; rfl
    · rw [if_neg fun x => h x.symm, if_neg h, hv, entry_dropSpliceRefs, entry_u]

theorem countLaw_passEntry {e : Nat} {q : Picture} (c : s.canonical) (stage : (s.entry e).state.stage = 1)
    (judged : judgeEntry s (s.entry e) = .ok q) (p : s.countLaw) : (s.passEntry e q).countLaw := by
  obtain ⟨refs, pairs, deferred⟩ := (countLaw_iff s).1 p
  refine (countLaw_iff _).2 ⟨refsLaw_passEntry c stage judged refs pairs,
    pairsLaw_ended stage ?_ (fun n hn h => ?_) (fun d hd h => ?_) pairs, deferredLaw_congr (fun r => ?_) deferred⟩
  · rcases ended_passEntry e q with h | h <;> (rw [h]; exact ⟨by decide, nofun⟩)
  · rw [entry_passEntry q hn, if_pos h]
    exact ⟨nofun, rfl⟩
  · rw [entry_passEntry q hd, if_neg h]
  · rw [passEntry_eq, ((splices_armReturn e).trans (splices_finishEntry e _ _)).ws r, ws_executing]

/-! ### Failed executions and cancellations -/

/-- An entry that waits ends: its references are given up, its reservations pass, and it goes to FREE. -/
theorem refsLaw_ended {e : Nat} (cs : s.canonical) (ct : t.canonical) (holds : (s.entry e).holds = true)
    (records : t.records = (s.dropSpliceRefs (s.entry e).edits).records)
    (planned : ∀ k, (t.slotAt k).planned = (s.slotAt k).planned) (free : (t.entry e).state = .free)
    (others : ∀ d, d ≠ e → t.entry d = s.entry d) (p : s.refsLaw) : t.refsLaw :=
  refsLaw_ceases cs ct ⟨by rw [records, waits_of_holds holds], planned, waits_of_ended (.inl free),
    fun d hd => by rw [others d hd]⟩ p

theorem planned_of_splices (h : s.splices t) (k : Nat) : (t.slotAt k).planned = (s.slotAt k).planned := by
  obtain ⟨n, hn⟩ := h.slots k
  rw [hn]

/-- What the end of an entry's HELD partner does to the entries (R153, R156). -/
theorem entry_endHeldPartner {e : Nat} (stage : (s.entry e).state.stage = 1) (p : s.pairsLaw) (r : LastResult)
    (c : Option Code) (d : Nat) : (s.endHeldPartner e r c).entry d
      = if (s.entry e).heir = some d then (s.entry d).freed r c else s.entry d := by
  unfold State.endHeldPartner
  split
  · next n hn =>
    rw [if_pos (held_of_heir stage p hn).1, entry_freeEntry, entry_dropSpliceRefs, entry_dropSpliceRefs, hn]
    simp only [Option.some.injEq]
    split
    · next h => rw [h]
    · rfl
  · next hn => rw [hn]; rfl

theorem refsLaw_endHeldPartner {e : Nat} (cs : s.canonical) (stage : (s.entry e).state.stage = 1) (pairs : s.pairsLaw)
    (r : LastResult) (c : Option Code) (p : s.refsLaw) : (s.endHeldPartner e r c).refsLaw := by
  have ct := (kept_endHeldPartner s e r c).canonical cs
  have entry := entry_endHeldPartner stage pairs r c
  have planned := planned_of_splices (splices_endHeldPartner (s := s) e r c)
  cases hn : (s.entry e).heir with
  | none =>
    have : s.endHeldPartner e r c = s := by unfold State.endHeldPartner; rw [hn]
    rwa [this]
  | some n =>
    have held := (held_of_heir stage pairs hn).1
    refine refsLaw_ended cs ct (e := n) ((holds_iff _).2 (.inr held)) ?_ planned ?_ (fun d hd => ?_) p
    · unfold State.endHeldPartner
      rw [hn]
      dsimp only
      rw [if_pos held]
      rfl
    · rw [entry, hn, if_pos rfl]; rfl
    · rw [entry, hn, if_neg fun h => hd (Option.some.inj h).symm]

/-- What the end of an entry comes to, by failure or cancellation, once its partner is seen to (R153, R156). -/
structure State.endsFree (u t : State) (e : Nat) : Prop where
  records : t.records = (u.dropSpliceRefs (u.entry e).edits).records
  planned : ∀ k, (t.slotAt k).planned = (u.slotAt k).planned
  free : (t.entry e).state = .free
  others : ∀ d, d ≠ e → t.entry d = u.entry d

theorem records_freeEntry (e : Nat) (r : LastResult) (c : Option Code) : (s.freeEntry e r c).records = s.records := rfl

theorem endsFree_freeEntry (u : State) (e : Nat) (r : LastResult) (c : Option Code) :
    u.endsFree (((u.dropSpliceRefs (u.entry e).edits).passReservations e none).freeEntry e r c) e where
  records := by rw [records_freeEntry, records_passReservations]
  planned := planned_of_splices (((splices_dropSpliceRefs _).trans (splices_passReservations e none)).trans
    (splices_freeEntry e r c))
  free := by rw [entry_freeEntry, if_pos rfl]; rfl
  others d hd := by rw [entry_freeEntry, if_neg hd.symm, entry_passReservations, entry_dropSpliceRefs]

theorem endsFree_failEntry (e : Nat) (c : Code) :
    (s.endHeldPartner e .failed (some c)).endsFree (s.failEntry e c) e := by
  unfold State.failEntry
  dsimp only
  generalize s.endHeldPartner e .failed (some c) = u
  refine ⟨?_, ?_, ?_, fun d hd => ?_⟩
  · rw [records_raise, records_freeEntry, setEntry_records, records_passReservations]
  · refine planned_of_splices (State.splices.trans ?_ (splices_raise _ _))
    refine State.splices.trans ?_ (splices_freeEntry e _ _)
    refine State.splices.trans ?_ (splices_setEntry e _)
    exact (splices_dropSpliceRefs _).trans (splices_passReservations e none)
  · rw [entry_raise, entry_freeEntry, if_pos rfl]; rfl
  · rw [entry_raise, entry_freeEntry, if_neg hd.symm, entry_setEntry, if_neg hd.symm, entry_passReservations,
      entry_dropSpliceRefs]

theorem countLaw_failEntry {e : Nat} (cd : Code) (c : s.canonical) (stage : (s.entry e).state.stage = 1)
    (p : s.countLaw) : (s.failEntry e cd).countLaw := by
  obtain ⟨refs, pairs, deferred⟩ := (countLaw_iff s).1 p
  have entry := entry_endHeldPartner stage pairs .failed (some cd)
  have ends := endsFree_failEntry (s := s) e cd
  have own : (s.entry e).heir ≠ some e := fun h => (held_of_heir stage pairs h).2.2 rfl
  refine (countLaw_iff _).2 ⟨?_, ?_, deferredLaw_congr (splices_failEntry e cd).ws deferred⟩
  · refine refsLaw_ended ((kept_endHeldPartner s e _ _).canonical c) ((kept_failEntry s e cd).canonical c) ?_
      ends.records ends.planned ends.free ends.others (refsLaw_endHeldPartner c stage pairs _ _ refs)
    rw [entry, if_neg own]
    exact (holds_iff _).2 (.inl stage)
  · refine pairsLaw_ended stage ?_ (fun n hn h => ?_) (fun d hd h => ?_) pairs
    · rw [ends.free]; exact ⟨by decide, nofun⟩
    · rw [ends.others n hn, entry, if_pos h]; exact ⟨nofun, rfl⟩
    · rw [ends.others d hd, entry, if_neg h]

/-- A cancelled entry whose partner has been seen to. -/
theorem endsFree_dropEntry (e : Nat) : (if (s.entry e).state = .held then s.clearPartner e
    else s.endHeldPartner e .cancelled none).endsFree (s.dropEntry e) e := endsFree_freeEntry _ e _ _

theorem entry_clearPartner (e d : Nat) : (s.clearPartner e).entry d
    = if (s.entry e).partner = some d then { s.entry d with partner := none } else s.entry d := by
  unfold State.clearPartner
  split
  · next o ho =>
    rw [ho, entry_setEntry]
    simp only [Option.some.injEq]
    split
    · next h => rw [h]
    · rfl
  · next ho => rw [ho]; rfl

theorem records_clearPartner (e : Nat) : (s.clearPartner e).records = s.records := by
  unfold State.clearPartner
  split <;> rfl

theorem countLaw_dropWaiting {e : Nat} (c : s.canonical) (stage : (s.entry e).state.stage = 1) (p : s.countLaw) :
    (s.dropEntry e).countLaw := by
  obtain ⟨refs, pairs, deferred⟩ := (countLaw_iff s).1 p
  have entry := entry_endHeldPartner stage pairs .cancelled none
  have ends := endsFree_dropEntry (s := s) e
  rw [if_neg fun h => by rw [h] at stage; cases stage] at ends
  have own : (s.entry e).heir ≠ some e := fun h => (held_of_heir stage pairs h).2.2 rfl
  refine (countLaw_iff _).2 ⟨?_, ?_, deferredLaw_congr (splices_dropEntry e).ws deferred⟩
  · refine refsLaw_ended ((kept_endHeldPartner s e _ _).canonical c) ((kept_dropEntry s e).canonical c) ?_
      ends.records ends.planned ends.free ends.others (refsLaw_endHeldPartner c stage pairs _ _ refs)
    rw [entry, if_neg own]
    exact (holds_iff _).2 (.inl stage)
  · refine pairsLaw_ended stage ?_ (fun n hn h => ?_) (fun d hd h => ?_) pairs
    · rw [ends.free]; exact ⟨by decide, nofun⟩
    · rw [ends.others n hn, entry, if_pos h]; exact ⟨nofun, rfl⟩
    · rw [ends.others d hd, entry, if_neg h]

theorem countLaw_dropHeld {e : Nat} (c : s.canonical) (held : (s.entry e).state = .held) (p : s.countLaw) :
    (s.dropEntry e).countLaw := by
  obtain ⟨refs, pairs, deferred⟩ := (countLaw_iff s).1 p
  have ends := endsFree_dropEntry (s := s) e
  rw [if_pos held] at ends
  have cu := (kept_clearPartner s e).canonical c
  have same : ∀ d, ((s.clearPartner e).entry d).state = (s.entry d).state
      ∧ ((s.clearPartner e).entry d).waits = (s.entry d).waits := fun d => by
    rw [entry_clearPartner]
    split <;> exact ⟨rfl, rfl⟩
  refine (countLaw_iff _).2 ⟨?_, pairsLaw_cut held ends.free (fun o ho h => ?_) (fun d hd h => ?_) pairs,
    deferredLaw_congr (splices_dropEntry e).ws deferred⟩
  · refine refsLaw_ended cu ((kept_dropEntry s e).canonical c) ?_ ends.records ends.planned ends.free ends.others
      (refsLaw_congr c cu (refersAs_of_same (records_clearPartner e) (planned_of_splices (splices_clearPartner e))
        fun d => (same d).2) refs)
    rw [holds_iff, (same e).1]
    exact .inr held
  · rw [ends.others o ho, entry_clearPartner, if_pos h]
  · rw [ends.others d hd, entry_clearPartner, if_neg h]

/-! ### A DEFERRED commit -/

theorem committed_of_splices (h : s.splices t) (g : Nat) : t.committed g = s.committed g := by
  obtain ⟨f, hf⟩ := h.records
  refine committed_congr ?_
  rw [hf, Option.map_map]
  rfl

theorem refersAs_reserve (l : List SlotEdit) (n : Nat) : s.refersAs (s.reserve l n) := by
  refine refersAs_of_same ?_ (planned_of_splices (splices_reserve l n)) fun e => by rw [entry_reserve]
  obtain ⟨v, h⟩ := reserve_eq s l n
  rw [h]

/-- The entries of a DEFERRED commit wait with edits that name committed records, and are partners (R134, R136). -/
theorem countLaw_armEntries {r : Requester} {w : Workspace} {t : Trigger} {a b : List SlotEdit} {o : Nat}
    {n : Option Nat} (c : s.canonical) (h : allocate s a.length b.length w.returnOpt.isSome = .ok (o, n))
    (ha : ∀ d ∈ a, ∀ x, d.binding = some x → s.committed x.handle = true)
    (hb : ∀ d ∈ b, ∀ x, d.binding = some x → s.committed x.handle = true) (p : s.countLaw) :
    (s.armEntries r w t a b o n).countLaw := by
  obtain ⟨refs, pairs, deferred⟩ := (countLaw_iff s).1 p
  have cr := (kept_reserve s a o).canonical c
  have reserved := refsLaw_congr c cr (refersAs_reserve a o) refs
  have ws := deferredLaw_congr (splices_armEntries (r := r) (t := t) h).ws deferred
  have free_waits : ∀ {u : State} {d : Nat}, (u.entry d).state = .free → (u.entry d).waits = [] :=
    fun h => waits_of_ended (.inl h)
  obtain ⟨free, ⟨rfl, -⟩ | ⟨m, rfl, ret, ne, free', -⟩⟩ := allocate_eq_ok h
  · rw [armEntries_none] at ws ⊢
    refine (countLaw_iff _).2 ⟨refsLaw_arm cr ?_ rfl (fun d hd x hx => ?_) reserved, ?_, ws⟩
    · rw [entry_reserve]; exact free_waits free
    · rw [committed_of_splices (splices_reserve a o)]; exact ha d hd x hx
    · refine pairsLaw_armed free ((entry_arm o o _).trans (if_pos rfl)) rfl ⟨rfl, rfl⟩ nofun (fun d hd _ => ?_) pairs
      rw [entry_arm, if_neg hd.symm, entry_reserve]
  · obtain ⟨ro, hro⟩ := Option.isSome_iff_exists.1 ret
    rw [armEntries_some _ _ _ _ _ _ hro] at ws ⊢
    have c1 := (kept_arm (s := s.reserve a o) o (originalEntry r w t a (some m))).canonical cr
    refine (countLaw_iff _).2 ⟨refsLaw_arm c1 ?_ rfl (fun d hd x hx => ?_)
      (refsLaw_arm cr ?_ rfl (fun d hd x hx => ?_) reserved), ?_, ws⟩
    · rw [entry_arm, if_neg ne, entry_reserve]; exact free_waits free'
    · rw [committed_of_splices ((splices_reserve a o).trans (splices_arm o _))]; exact hb d hd x hx
    · rw [entry_reserve]; exact free_waits free
    · rw [committed_of_splices (splices_reserve a o)]; exact ha d hd x hx
    · refine pairsLaw_armed free (x := originalEntry r w t a (some m)) ?_ rfl ⟨rfl, rfl⟩ (fun k hk => ?_) (fun d hd hk => ?_) pairs
      · rw [entry_arm, if_neg ne.symm, entry_arm, if_pos rfl]
      · cases hk
        rw [entry_arm, if_pos rfl]
        exact ⟨ne.symm, free', rfl, rfl, rfl⟩
      · rw [entry_arm, if_neg fun e => hk (congrArg some e), entry_arm, if_neg hd.symm, entry_reserve]

end

end Sys2Proof.Machine
end

