-- ==== Sys2Proof/Proofs/Commits.lean ====
section
/-! Every step keeps the planned and splice reference counts (R13, R15): commits, and so O57. -/

namespace Sys2Proof.Machine

section
variable {s t : State}

/-! ### What the picture knows -/

theorem committed_of_showsAs (h : s.showsAs t) (g : Nat) : t.committed g = s.committed g := by
  refine committed_congr ?_
  have shown := congrArg (Option.map fun x => x.1.stage) (h g)
  rw [Option.map_map, Option.map_map] at shown
  exact shown.symm

/-- A record that an edit may name and bind at the commit act is LIVE, LOST or RESTORING in the picture (R126). -/
theorem committed_of_known {p : Picture} {h : Nat} (known : p.known h = true) (stays : p.retiring h = false) :
    p.tables.committed h = true := by
  unfold Picture.known at known
  unfold Picture.retiring at stays
  rw [committed_iff]
  cases hr : p.tables.record? h with
  | none => rw [hr] at known; cases known
  | some r =>
    rw [hr] at known stays
    refine ⟨r, rfl, ?_⟩
    cases hs : r.state <;> simp [hs, RecState.stage] at known stays ⊢

theorem committed_writeRecord (e : Edit) {g : Nat} (h : s.committed g = true) : (s.writeRecord e).committed g = true := by
  obtain ⟨r, hr, stage⟩ := (committed_iff s g).1 h
  rw [committed_iff]
  cases e with
  | create n c =>
    refine ⟨_, (record?_commitRecord s n g).trans (congrArg _ hr), ?_⟩
    dsimp only
    split
    · rfl
    · exact stage
  | amend a =>
    refine ⟨_, (record?_amendRecord s a g).trans (congrArg _ hr), ?_⟩
    dsimp only
    split <;> exact stage
  | retire _ | slot _ | setLeg _ => exact ⟨r, hr, stage⟩

theorem written_append (s : State) (l : List Edit) (e : Edit) :
    (l ++ [e]).foldl State.writeRecord s = (l.foldl State.writeRecord s).writeRecord e := List.foldl_append

/-- The picture shows the records as they are written, and what its applied edits bind is committed once they are. -/
theorem walk_bindings {l : List (Edit × Nat)} {n : Nat} {q : Picture} (h : (Picture.start s).walk n l = .ok q) :
    q.tables.showsAs (q.applied.foldl State.writeRecord s) ∧ ∀ d, Edit.slot d ∈ q.applied → ∀ b, d.binding = some b →
      (q.applied.foldl State.writeRecord s).committed b.handle = true := by
  refine walk_induct (I := fun p _ => p.tables.showsAs (p.applied.foldl State.writeRecord s)
      ∧ ∀ d : SlotEdit, Edit.slot d ∈ p.applied → ∀ b, d.binding = some b →
        (p.applied.foldl State.writeRecord s).committed b.handle = true)
    (fun _ _ _ hp => hp) (fun p m c _ hp hr _ _ => ?_) ⟨fun _ => rfl, by simp [Picture.start]⟩ h
  obtain ⟨shows, bound⟩ := hp
  obtain ⟨known, stays, -⟩ := recheck_eq_none hr
  rw [show (p.applyEdit m c.1).applied = p.applied ++ [c.1] from rfl, written_append]
  refine ⟨showsAs_paint shows c.1, fun d hd b hb => committed_writeRecord _ ?_⟩
  rcases List.mem_append.1 hd with hd | hd
  · exact bound d hd b hb
  · rw [committed_of_showsAs shows]
    have named : b.handle ∈ c.1.named ∧ b.handle ∈ c.1.bound := by
      rw [← List.mem_singleton.1 hd]
      simp [Edit.named, Edit.bound, hb]
    exact committed_of_known (known _ named.1) (stays _ named.2)

/-! ### What the picture has planned -/

theorem lastEdit_append (l : List SlotEdit) (d : SlotEdit) (k : Nat) :
    lastEdit (l ++ [d]) k = if slotKey d.feed d.slot = k then some d.binding else lastEdit l k := by
  unfold lastEdit
  rw [List.filter_append]
  by_cases h : slotKey d.feed d.slot = k <;> simp [h]

theorem slotAt_paint (e : Edit) (k : Nat) : ((s.paint e).slotAt k).planned = match e with
    | .slot d => if slotKey d.feed d.slot = k then d.binding else (s.slotAt k).planned
    | _ => (s.slotAt k).planned := by
  cases e with
  | create h c =>
    obtain ⟨v, hv⟩ := modRecord_eq s h fun r => { r with state := .live }
    rw [show s.paint (.create h c) = s.modRecord h _ from rfl, hv]
    rfl
  | amend a =>
    obtain ⟨v, hv⟩ := modRecord_eq s a.handle a.apply
    rw [show s.paint (.amend a) = s.modRecord a.handle _ from rfl, hv]
    rfl
  | retire _ | setLeg _ => rfl
  | slot d =>
    rw [show s.paint (.slot d) = s.setSlotAt _ _ from rfl, slotAt_setSlotAt]
    dsimp only
    split <;> rfl

/-- The picture has planned in a slot what the last applied edit of it binds there. -/
theorem planned_paints (l : List Edit) (k : Nat) : ((l.foldl State.paint s).slotAt k).planned
    = (lastEdit (l.filterMap Edit.slotEdit?) k).getD (s.slotAt k).planned := by
  induction l using List.reverseRecOn with
  | nil => rfl
  | append_singleton l e ih =>
    rw [List.foldl_append, List.filterMap_append]
    refine (slotAt_paint e k).trans ?_
    cases e with
    | slot d =>
      rw [show [Edit.slot d].filterMap Edit.slotEdit? = [d] from rfl, lastEdit_append]
      dsimp only
      split
      · rfl
      · exact ih
    | create _ _ | amend _ | retire _ | setLeg _ =>
      simp only [List.filterMap_cons, Edit.slotEdit?, List.filterMap_nil, List.append_nil]
      exact ih

theorem planned_rebind (f i : Nat) (b : Option Binding) (k : Nat) :
    ((s.rebind f i b).slotAt k).planned = if slotKey f i = k then b else (s.slotAt k).planned := by
  have core := core_rebind s f i b
  split at core
  · next same =>
    rw [core_slots core]
    split
    · next h => rw [← h]; exact same
    · rfl
  · rw [core_slots core, slotAt_moved, slotAt_plan]
    split
    · exact planned_rebound s f i b
    · rfl

/-- The bindings of a list of edits are written: a slot has the binding of its last edit (R131 part 2, R151). -/
theorem planned_writeBindings (l : List SlotEdit) (k : Nat) :
    ((s.writeBindings l).slotAt k).planned = (lastEdit l k).getD (s.slotAt k).planned := by
  rw [← find?_bindingsOf]
  have rising := rising_bindingsOf l
  unfold State.writeBindings
  generalize bindingsOf l = t at rising ⊢
  induction t generalizing s with
  | nil => rfl
  | cons c t ih =>
    have nodup := nodup_keys rising
    rw [List.map_cons, List.nodup_cons] at nodup
    rw [Table.rising_iff, List.pairwise_cons] at rising
    rw [List.foldl_cons, ih ((Table.rising_iff t).2 rising.2), planned_rebind, slotKey_div_mod]
    obtain ⟨j, v⟩ := c
    by_cases h : j = k
    · subst h
      have : Table.find? t j = none := by
        rw [← Option.not_isSome_iff_eq_none, find?_isSome_iff]
        exact nodup.1
      simp [Table.find?, this]
    · simp [Table.find?, h]

theorem planned_foldl_writeLeg (l : List Edit) (k : Nat) :
    ((l.foldl State.writeLeg s).slotAt k).planned = (s.slotAt k).planned := by
  rw [core_slots (core_foldl_writeLeg s l)]

theorem planned_foldl_writeRecord (l : List Edit) (k : Nat) :
    ((l.foldl State.writeRecord s).slotAt k).planned = (s.slotAt k).planned := by
  obtain ⟨v, w, h⟩ := foldl_writeRecord_eq s l
  rw [h]
  rfl

theorem steady_planned (f : Nat → Option Binding) : Steady fun s => ∀ k, (s.slotAt k).planned = f k where
  frame s t h p k := by rw [← core_slots h, p]
  update s u rest _ _ p k := by
    unfold State.slotAt
    rw [slots_takeUpdate]
    exact p k
  move s k x _ hx p j := by
    rw [slotAt_moved]
    split
    · next h => rw [hx.1, h, p]
    · exact p j

/-- A commit leaves the bindings that its picture has planned (R125, R131). -/
theorem planned_bound {l : List (Edit × Nat)} {n : Nat} {q : Picture} (h : (Picture.start s).walk n l = .ok q)
    (c : s.canonical) (k : Nat) : ((s.bound q).slotAt k).planned = (q.tables.slotAt k).planned := by
  have cw := ((kept_writeRecords s q.applied).trans (kept_writeLegs _ q.applied)).canonical c
  have cb := (kept_writeBindings _ (q.applied.filterMap Edit.slotEdit?)).canonical cw
  rw [walk_tables h, planned_paints]
  unfold State.bound
  dsimp only
  refine (steady_planned fun k => (lastEdit (q.applied.filterMap Edit.slotEdit?) k).getD (s.slotAt k).planned).refallbacks
    s cb (fun k => ?_) k
  rw [planned_writeBindings, planned_foldl_writeLeg, planned_foldl_writeRecord]

/-! ### An IMMEDIATE commit -/

theorem refsLaw_writeRecord (e : Edit) (c : s.canonical) (p : s.refsLaw) : (s.writeRecord e).refsLaw := by
  obtain ⟨v, w, h⟩ := writeRecord_eq s e
  have ct := (kept_writeRecord s e).canonical c
  have slots : ∀ k, ((s.writeRecord e).slotAt k).planned = (s.slotAt k).planned := fun k => by rw [h]; rfl
  have waits : ∀ d, ((s.writeRecord e).entry d).waits = (s.entry d).waits := fun d => by rw [h]; rfl
  cases e with
  | create n q =>
    refine refsLaw_congr c ct (refersAs_of_map (record?_commitRecord s n) (fun g r => ?_) slots waits) p
    dsimp only
    split
    · exact ⟨rfl, rfl, .inr rfl⟩
    · exact ⟨rfl, rfl, .inl rfl⟩
  | amend a =>
    refine refsLaw_congr c ct (refersAs_of_map (record?_amendRecord s a) (fun g r => ?_) slots waits) p
    dsimp only
    split <;> exact ⟨rfl, rfl, .inl rfl⟩
  | retire _ | slot _ | setLeg _ => exact p

theorem refsLaw_bound {l : List (Edit × Nat)} {n : Nat} {q : Picture} (h : (Picture.start s).walk n l = .ok q)
    (c : s.canonical) (p : s.refsLaw) : (s.bound q).refsLaw := by
  have written : (q.applied.foldl State.writeRecord s).refsLaw :=
    foldl_keeps kept_writeRecord (fun _ e => refsLaw_writeRecord e) _ c p
  have cw := ((kept_writeRecords s q.applied).trans (kept_writeLegs _ q.applied)).canonical c
  have cb := (kept_writeBindings _ (q.applied.filterMap Edit.slotEdit?)).canonical cw
  have legs := steady_refsLaw.frame _ _ (core_foldl_writeLeg (q.applied.foldl State.writeRecord s) q.applied).symm written
  refine steady_refsLaw.refallbacks s cb (refsLaw_writeBindings (fun d hd b hb => ?_) cw legs)
  rw [committed_of_core (core_foldl_writeLeg _ _)]
  obtain ⟨e, he, hed⟩ := List.mem_filterMap.1 hd
  cases e with
  | slot x => cases hed; exact (walk_bindings h).2 d he b hb
  | create _ _ | amend _ | retire _ | setLeg _ => cases hed

/-- What a passing commit retires is bound nowhere, and no waiting edit names it (R130). -/
theorem retired_not_bound {l : List (Edit × Nat)} {n : Nat} {q : Picture} (h : (Picture.start s).walk n l = .ok q)
    (unused : q.retireFailure = none) (c : s.canonical) (p : s.refsLaw) :
    ∀ x ∈ q.retired, ¬ (s.bound q).bindsTo x.1 := by
  intro x hx
  unfold Picture.retireFailure at unused
  rw [Option.map_eq_none_iff, List.find?_eq_none] at unused
  have free := unused x hx
  simp only [Picture.inUse, Bool.or_eq_true, bne_iff_ne, ne_eq, not_or, not_not] at free
  obtain ⟨⟨planned, refs⟩, -⟩ := free
  have written : (q.applied.foldl State.writeRecord s).refsLaw :=
    foldl_keeps kept_writeRecord (fun _ e => refsLaw_writeRecord e) _ c p
  have entries : ∀ e, (s.bound q).entry e = (q.applied.foldl State.writeRecord s).entry e := fun e => by
    rw [entry_of_sides (sides_bound q), entry_of_sides (sides_writeRecords _)]
  rintro (⟨k, hk⟩ | ⟨e, d, hd, hb⟩)
  · rw [planned_bound h c] at hk
    exact absurd planned (bindings_pos hk).ne'
  · rw [entries] at hd
    have pos := waitingRefs_pos hd hb
    obtain ⟨r, hr, -⟩ := (committed_iff _ _).1 (written.2 x.1 (.inr ⟨e, d, hd, hb⟩))
    have shown := congrArg (Option.map fun x => x.2.2.2.2.2.2.2.2.2) ((walk_bindings h).1 x.1)
    rw [hr, Option.map_map, Option.map_map] at shown
    obtain ⟨y, hy, same⟩ := Option.map_eq_some_iff.1 shown
    rw [hy] at refs
    have count := (written.1 x.1 r hr).2
    have : y.spliceRefs = r.spliceRefs := same
    have : y.spliceRefs = 0 := refs
    omega

theorem bindsTo_retireRecord (h g : Nat) : (s.retireRecord h).bindsTo g ↔ s.bindsTo g :=
  bindsTo_congr (fun k => by unfold State.slotAt; rw [slots_retireRecord])
    (fun e => by rw [entry_of_sides (sides_retireRecord h)]) g

theorem refsLaw_retireRecord {h : Nat} (e : ¬ s.bindsTo h) (c : s.canonical) (p : s.refsLaw) :
    (s.retireRecord h).refsLaw := by
  have ct := (kept_retireRecord s h).canonical c
  obtain ⟨v, hv, cases⟩ := retireRecord_cases s h
  have moved : s.refersAs { s with records := v } :=
    refersAs_of_map hv (fun _ _ => ⟨rfl, rfl, .inl rfl⟩) (fun _ => rfl) fun _ => rfl
  rcases cases with ⟨-, eq⟩ | ⟨r, hr, ⟨-, eq⟩ | ⟨-, eq⟩⟩ <;> rw [eq] at ct ⊢
  · exact refsLaw_congr c ct moved p
  · exact refsLaw_congr c ct (moved.trans (refersAs_freeRecord (s := { s with records := v }) e)) p
  · refine refsLaw_congr c ct (moved.trans ?_) p
    exact refersAs_setRecord (s := { s with records := v }) ((hv h).trans (congrArg _ hr)) rfl rfl fun x => absurd x e

theorem refsLaw_retireRecords {l : List (Nat × Nat)} (e : ∀ x ∈ l, ¬ s.bindsTo x.1) (c : s.canonical)
    (p : s.refsLaw) : (l.foldl (fun s x => s.retireRecord x.1) s).refsLaw := by
  induction l generalizing s with
  | nil => exact p
  | cons x l ih =>
    refine ih (fun y hy => ?_) ((kept_retireRecord s x.1).canonical c)
      (refsLaw_retireRecord (e x (List.mem_cons_self ..)) c p)
    rw [bindsTo_retireRecord]
    exact e y (List.mem_cons_of_mem _ hy)

theorem refsLaw_writePicture {l : List (Edit × Nat)} {n : Nat} {q : Picture} (h : (Picture.start s).walk n l = .ok q)
    (unused : q.retireFailure = none) (c : s.canonical) (p : s.refsLaw) : (s.writePicture q).refsLaw :=
  steady_refsLaw.frame _ _ (core_writePicture s q).symm (refsLaw_retireRecords (retired_not_bound h unused c p)
    ((kept_bound s q).canonical c) (refsLaw_bound h c p))

theorem countLaw_writePicture {w : Workspace} {q : Picture} (h : judgeImmediate s w = .ok q) (c : s.canonical)
    (p : s.countLaw) : (s.writePicture q).countLaw := by
  obtain ⟨walk, -, -, unused⟩ := judgeImmediate_eq_ok h
  exact countLaw_of_sides (sides_writePicture q) (refsLaw_writePicture walk unused c) p

/-! ### The end of a batch -/

theorem record?_endBatch (r : Requester) (o : OutcomeRecord) (h : Nat) : (s.endBatch r o).record? h
    = if h ∈ (s.ws r).handles ∧ ∃ x, s.record? h = some x ∧ x.state = .reserved then none else s.record? h := by
  obtain ⟨-, records, -, -⟩ := batchEnded_endBatch s r o
  split
  · next e => exact (records h).1 e
  · next e => exact (records h).2 e

theorem ws_endBatch (r q : Requester) (o : OutcomeRecord) :
    (s.endBatch r o).ws q = if r = q then Workspace.start else s.ws q := by
  obtain ⟨same, -⟩ := batchEnded_endBatch s r o
  rw [same, ws_setOutcome, ws_setWs]
  split
  · rfl
  · cases q <;> rfl

theorem slots_endBatch (r : Requester) (o : OutcomeRecord) : (s.endBatch r o).slots = s.slots := by
  obtain ⟨same, -⟩ := batchEnded_endBatch s r o
  rw [same, setOutcome_slots, setWs_slots]

theorem entries_endBatch (r : Requester) (o : OutcomeRecord) : (s.endBatch r o).entries = s.entries := by
  obtain ⟨same, -⟩ := batchEnded_endBatch s r o
  rw [same, setOutcome_entries, setWs_entries]

theorem deferredLaw_setWs {r : Requester} {w : Workspace} (hw : w.mode = .deferred → ∀ c ∈ w.edits, ∃ d, c.1 = .slot d)
    (h : ∀ q, q ≠ r → (t.ws q).core = (s.ws q).core) (hr : t.ws r = w) (p : s.deferredLaw) : t.deferredLaw := by
  intro q hq c hc
  by_cases e : q = r
  · subst e
    rw [hr] at hq hc
    exact hw hq c hc
  · have core := h q e
    simp only [Workspace.core, Prod.mk.injEq] at core
    exact p q (core.1 ▸ hq) c (core.2.1 ▸ hc)

theorem countLaw_endBatch (r : Requester) (o : OutcomeRecord) (c : s.canonical) (p : s.countLaw) :
    (s.endBatch r o).countLaw := by
  obtain ⟨refs, pairs, deferred⟩ := (countLaw_iff s).1 p
  refine (countLaw_iff _).2 ⟨refsLaw_congr c ((kept_endBatch s r o).canonical c) ⟨fun g y hy => ?_, fun g hg hc => ?_,
    fun k => ?_, fun e => ?_⟩ refs, pairsLaw_of_entries (entries_endBatch r o) pairs,
    deferredLaw_setWs (r := r) (w := .start) nofun (fun q hq => ?_) ?_ deferred⟩
  · rw [record?_endBatch] at hy
    split at hy
    · cases hy
    · exact ⟨y, hy, rfl, rfl⟩
  · rw [committed_iff, record?_endBatch, if_neg]
    · exact (committed_iff s g).1 hc
    · rintro ⟨-, x, hx, hs⟩
      exact not_bindsTo_of_stage refs hx (by rw [hs]; decide) hg
  · unfold State.slotAt
    rw [slots_endBatch]
  · rw [entry_congr (entries_endBatch r o)]
  · rw [ws_endBatch, if_neg hq.symm]
  · rw [ws_endBatch, if_pos rfl]

/-! ### A DEFERRED commit -/

theorem judgeDeferred_eq_ok {w : Workspace} {q : Picture} (h : judgeDeferred s w = .ok q) :
    (Picture.start s).walk 1 w.edits = .ok q := by
  unfold judgeDeferred at h
  split at h
  · cases h
  · next walk =>
    split at h
    · cases h; exact walk
    · split at h <;> cases h
      exact walk

theorem foldl_writeRecord_slots {l : List Edit} (h : ∀ e ∈ l, ∃ d, e = .slot d) : l.foldl State.writeRecord s = s := by
  induction l with
  | nil => rfl
  | cons e l ih =>
    obtain ⟨d, rfl⟩ := h e (List.mem_cons_self ..)
    exact ih fun x hx => h x (List.mem_cons_of_mem _ hx)

/-- What a DEFERRED batch stores names committed records (R106, R126). -/
theorem committed_of_stored {r : Requester} {q : Picture} (mode : (s.ws r).mode = .deferred)
    (h : judgeDeferred s (s.ws r) = .ok q) (p : s.deferredLaw) :
    ∀ d ∈ q.applied.filterMap Edit.slotEdit?, ∀ b, d.binding = some b → s.committed b.handle = true := by
  intro d hd b hb
  have walk := judgeDeferred_eq_ok h
  obtain ⟨e, he, hed⟩ := List.mem_filterMap.1 hd
  cases e with
  | slot x =>
    cases hed
    have bound := (walk_bindings walk).2 d he b hb
    rwa [foldl_writeRecord_slots fun e he => ?_] at bound
    obtain ⟨m, hm⟩ := walk_applied_mem walk e he
    exact p r mode _ hm
  | create _ _ | amend _ | retire _ | setLeg _ => cases hed

/-- The inverse edits name what is bound now (R135). -/
theorem committed_of_inverse {l : List SlotEdit} (p : s.refsLaw) :
    ∀ d ∈ inverseEdits s l, ∀ b, d.binding = some b → s.committed b.handle = true := by
  intro d hd b hb
  obtain ⟨c, -, rfl⟩ := List.mem_map.1 hd
  exact p.2 _ (.inl ⟨c.1, by rw [show (s.slotAt c.1).planned = some b from hb]; rfl⟩)

/-! ### A CREATE RECORD -/

theorem refsLaw_reserve {r : Requester} {q : CreateFields} {h : Nat} (free : s.record? h = none) (c : s.canonical)
    (p : s.refsLaw) : ((s.setRecord h (createdRecord r q)).reserveEntries h q).refsLaw := by
  have gone := not_bindsTo_of_none p free
  have record : ∀ g, ((s.setRecord h (createdRecord r q)).reserveEntries h q).record? g
      = if h = g then some (createdRecord r q) else s.record? g := fun g => record?_setRecord s h g _
  refine ⟨fun g y hy => ?_, fun g e => ?_⟩
  · rw [record] at hy
    split at hy
    · next hg =>
      subst hg
      cases hy
      exact ⟨(bindings_eq_zero c fun k hk => gone (.inl ⟨k, hk⟩)).symm,
        (waitingRefs_eq_zero c fun n d hd hb => gone (.inr ⟨n, d, hd, hb⟩)).symm⟩
    · exact p.1 g y hy
  · obtain ⟨y, hy, stage⟩ := (committed_iff s g).1 (p.2 g e)
    refine (committed_iff _ g).2 ⟨y, ?_, stage⟩
    rw [record, if_neg]
    · exact hy
    · rintro rfl
      rw [free] at hy
      cases hy

/-! ### Every act -/

theorem countLaw_setWs {r : Requester} {w : Workspace} (hw : w.mode = .deferred → ∀ c ∈ w.edits, ∃ d, c.1 = .slot d)
    (p : s.countLaw) : (s.setWs r w).countLaw := by
  obtain ⟨refs, pairs, deferred⟩ := (countLaw_iff s).1 p
  refine (countLaw_iff _).2 ⟨by cases r <;> exact refs, pairsLaw_of_entries (setWs_entries ..) pairs,
    deferredLaw_setWs (r := r) hw (fun q hq => ?_) ?_ deferred⟩
  · rw [ws_setWs, if_neg hq.symm]
  · rw [ws_setWs, if_pos rfl]

theorem waits_congr {x y : Entry} (h : x.use = y.use) : x.waits = y.waits := by
  simp only [Entry.use, Prod.mk.injEq] at h
  obtain ⟨stage, edits, -⟩ := h
  have holds : x.holds = y.holds := by
    rw [Bool.eq_iff_iff, holds_iff, holds_iff, held_iff, held_iff, stage]
  unfold Entry.waits
  rw [holds, edits]

theorem lawful_countLaw : Lawful State.countLaw where
  reset s h := by
    obtain ⟨refs, pairs, deferred⟩ := (countLaw_iff _).1 countLaw_reset
    exact (countLaw_iff s).2 ⟨steady_refsLaw.frame _ _ h.symm refs, pairsLaw_of_sides (sides_of_core h) pairs,
      deferredLaw_of_sides (sides_of_core h) deferred⟩
  frame s t h := countLaw_of_sides (sides_of_core h.symm) (steady_refsLaw.frame s t h)
  touch s h x y c hx hy := by
    simp only [Record.use, Prod.mk.injEq] at hy
    obtain ⟨stage, key, -, -, planned, -, refs, -⟩ := hy
    exact countLaw_of_sides rfl (refsLaw_congr c ((kept_setRecord s hx key).canonical c)
      (refersAs_setRecord hx planned refs fun _ => stage))
  smap _ _ _ _ _ p := p
  update s u rest c hu := countLaw_of_sides (sides_takeUpdate u) (steady_refsLaw.update s u rest c hu)
  move s k x c hx := countLaw_of_sides rfl (steady_refsLaw.move s k x c hx)
  entry s e y c hy p := by
    obtain ⟨refs, pairs, deferred⟩ := (countLaw_iff s).1 p
    have use : ∀ d, ((s.setEntry e y).entry d).use = (s.entry d).use := fun d => by
      rw [entry_setEntry]
      split
      · next h => rw [hy, h]
      · rfl
    refine (countLaw_iff _).2 ⟨refsLaw_congr c ((kept_setEntry s e y).canonical c)
      (refersAs_of_same rfl (fun _ => rfl) fun d => waits_congr (use d)) refs, pairsLaw_congr (fun d => ?_) pairs, deferred⟩
    have := use d
    simp only [Entry.use, Prod.mk.injEq] at this
    exact ⟨this.1, this.2.2.1, this.2.2.2⟩
  freed s e r cd c hs p := by
    obtain ⟨refs, pairs, deferred⟩ := (countLaw_iff s).1 p
    have ct := (kept_freeEntry s e r cd).canonical c
    have entry := fun d => entry_freeEntry (s := s) e d r cd
    refine (countLaw_iff _).2 ⟨refsLaw_congr c ct (refersAs_of_same rfl (fun _ => rfl) fun d => ?_) refs, ?_, deferred⟩
    · rw [entry]
      split
      · next h => rw [← h, waits_of_ended (.inr hs)]; rfl
      · rfl
    · refine pairsLaw_aside (e := e) (by rw [hs]; exact ⟨by decide, nofun⟩) ?_ (fun d hd => ?_) pairs
      · rw [entry, if_pos rfl]; exact ⟨nofun, nofun⟩
      · rw [entry, if_neg hd.symm]
  pass s e q c _ hs hj p := countLaw_passEntry c hs hj p
  fail s e cd c hs p := countLaw_failEntry cd c hs p
  cancel s e c hs p := hs.elim (fun h => countLaw_dropWaiting c h p) fun h => countLaw_dropHeld c h p
  ended s r o c p := countLaw_endBatch r o c p
  immediate s r o q c _ _ h p :=
    countLaw_endBatch r o ((kept_writePicture s q).canonical c) (countLaw_writePicture h c p)
  deferred s r q t oc e n c mode h ha p := by
    obtain ⟨refs, -, deferred⟩ := (countLaw_iff s).1 p
    exact countLaw_endBatch r oc ((kept_armEntries _ _ _ _ _ _ _ _).canonical c) (countLaw_armEntries c ha
      (committed_of_stored mode h deferred) (committed_of_inverse refs) p)
  opened s r w he _ p := countLaw_setWs (fun _ c hc => by rw [he] at hc; cases hc) p
  hold s r e _ hd p := by
    obtain ⟨-, -, deferred⟩ := (countLaw_iff s).1 p
    refine countLaw_setWs (fun hm c hc => ?_) p
    rcases List.mem_append.1 hc with hc | hc
    · exact deferred r hm c hc
    · rw [List.mem_singleton.1 hc]
      exact hd hm
  create s r q h t c hm _ e p := by
    obtain ⟨rfl, -, low, -, -⟩ := reserveRecord_eq_ok e
    refine countLaw_setWs (fun hd => ?_) (countLaw_of_sides (s := s) rfl (refsLaw_reserve (record?_of_lowestFree low) c) p)
    rw [show ((s.ws r).holdCreate h q).mode = (s.ws r).mode from rfl, hm] at hd
    cases hd

end

/-- Settles O57: every act keeps the counts. -/
theorem everyStepKeepsThePlannedCounts : Obligations.EveryStepKeepsThePlannedCounts :=
  fun _ _ c p h => runs_step lawful_countLaw c p h

end Sys2Proof.Machine
end

