-- ==== Sys2Proof/Proofs/Falls.lean ====
section
/-! The fallback reference counts are the records whose fallback the record is (R16). -/

namespace Sys2Proof.Machine

/-! ### The law of the fallbacks -/

/-- The fallback counts of the records, RESERVED ones apart; a RETIRING record has no fallback, and the fallback of a
record that is not excused is LIVE, LOST or RESTORING and not to go (R16). A commit excuses the records that it still
has to retire. -/
def State.fallsLaw (excused gone : Nat → Prop) (s : State) : Prop :=
  (∀ h x, s.record? h = some x → x.fallbackRefs = s.fallbackUses h)
    ∧ ∀ h x fb, s.record? h = some x → x.state ≠ .reserved → x.fallback = some fb →
      x.state ≠ .retiring ∧ (excused h ∨ (s.committed fb = true ∧ ¬ gone fb))

/-- No record is excused. -/
def never (_ : Nat) : Prop := False

section
variable {s t : State} {E G : Nat → Prop}

theorem fallsLaw_mono {E' G' : Nat → Prop} (p : s.fallsLaw E G) (hE : ∀ h, E h → E' h) (hG : ∀ h, G' h → G h) :
    s.fallsLaw E' G' :=
  ⟨p.1, fun h x fb hx hr hf => ⟨(p.2 h x fb hx hr hf).1,
    (p.2 h x fb hx hr hf).2.imp (hE h) fun ⟨c, g⟩ => ⟨c, fun k => g (hG fb k)⟩⟩⟩

theorem retiring_of_stage {x y : RecState} (h : x.stage = y.stage) : x = .retiring ↔ y = .retiring := by
  cases x <;> cases y <;> simp [RecState.stage] at h ⊢

theorem uses_congr {x y : Record} (hs : y.state.stage = x.state.stage) (hf : y.fallback = x.fallback) (h : Nat) :
    y.uses h = x.uses h := by
  unfold Record.uses
  simp only [reserved_of_stage hs, hf]

/-- Changed records, each with its stage, fallback and count. -/
theorem fallsLaw_of_map {f : Nat → Record → Record} (cs : s.canonical) (ct : t.canonical)
    (h : ∀ g, t.record? g = (s.record? g).map (f g))
    (hf : ∀ g r, s.record? g = some r → (f g r).state.stage = r.state.stage ∧ (f g r).fallback = r.fallback
      ∧ (f g r).fallbackRefs = r.fallbackRefs) (p : s.fallsLaw E G) : t.fallsLaw E G := by
  have committed : ∀ g, t.committed g = s.committed g := fun g => committed_congr (by
    rw [h]
    cases hr : s.record? g with
    | none => rfl
    | some r => exact congrArg some (hf g r hr).1)
  refine ⟨fun g y hy => ?_, fun g y fb hy hr hfb => ?_⟩
  · rw [h, Option.map_eq_some_iff] at hy
    obtain ⟨x, hx, rfl⟩ := hy
    rw [(hf g x hx).2.2, p.1 g x hx, fallbackUses_congr cs ct]
    intro j
    rw [h]
    cases hj : s.record? j with
    | none => rfl
    | some r => exact uses_congr (hf j r hj).1 (hf j r hj).2.1 g
  · rw [h, Option.map_eq_some_iff] at hy
    obtain ⟨x, hx, rfl⟩ := hy
    obtain ⟨stage, fallback, -⟩ := hf g x hx
    rw [ne_eq, reserved_of_stage stage] at hr
    rw [fallback] at hfb
    obtain ⟨ret, safe⟩ := p.2 g x fb hx hr hfb
    refine ⟨fun e => ret ?_, ?_⟩
    · exact (retiring_of_stage stage).1 e
    · rwa [committed]

theorem fallsLaw_of_records (cs : s.canonical) (ct : t.canonical) (h : t.records = s.records) (p : s.fallsLaw E G) :
    t.fallsLaw E G :=
  fallsLaw_of_map (f := fun _ r => r) cs ct
    (fun g => by unfold State.record?; rw [h]; exact (Option.map_id' ..).symm) (fun _ _ _ => ⟨rfl, rfl, rfl⟩) p

/-- Records that are no fallback and use none are freed. -/
theorem fallsLaw_of_freed {C : Nat → Prop} [DecidablePred C] (cs : s.canonical) (ct : t.canonical)
    (h : ∀ g, t.record? g = if C g then none else s.record? g)
    (hC : ∀ g x, C g → s.record? g = some x → x.state.stage ≠ 1 ∧ ∀ n, x.uses n = 0) (p : s.fallsLaw E G) :
    t.fallsLaw E G := by
  refine ⟨fun g y hy => ?_, fun g y fb hy hr hfb => ?_⟩
  · rw [h] at hy
    split at hy
    · cases hy
    · rw [p.1 g y hy, fallbackUses_congr cs ct]
      intro j
      rw [h]
      split
      · next hj =>
        cases hx : s.record? j with
        | none => rfl
        | some x => exact ((hC j x hj hx).2 g).symm
      · rfl
  · rw [h] at hy
    split at hy
    · cases hy
    · obtain ⟨ret, safe⟩ := p.2 g y fb hy hr hfb
      refine ⟨ret, safe.imp id fun ⟨c, hg⟩ => ⟨?_, hg⟩⟩
      obtain ⟨x, hx, stage⟩ := (committed_iff s fb).1 c
      rw [committed_iff, h, if_neg fun hj => (hC fb x hj hx).1 stage]
      exact ⟨x, hx, stage⟩

theorem uses_of_reserved {x : Record} (h : x.state = .reserved) (n : Nat) : x.uses n = 0 := if_pos h

theorem uses_of_none {x : Record} (h : x.fallback = none) (n : Nat) : x.uses n = 0 := by
  unfold Record.uses
  rw [h]
  split <;> rfl

theorem fallback_of_retiring (p : s.fallsLaw E G) {h : Nat} {x : Record} (hx : s.record? h = some x)
    (hs : x.state = .retiring) : x.fallback = none := by
  cases hf : x.fallback with
  | none => rfl
  | some fb => exact absurd hs (p.2 h x fb hx (by rw [hs]; nofun) hf).1

theorem fallsLaw_takeUpdate (u : OnAirUpdate) (c : s.canonical) (p : s.fallsLaw E G) :
    (s.takeUpdate u).fallsLaw E G := by
  have ct := (kept_takeUpdate s u).canonical c
  obtain ⟨v, hv, cases⟩ := takeUpdate_cases s u
  rcases cases with ⟨-, h⟩ | ⟨o, ⟨-, x, hx, hr, -⟩, h⟩ <;> rw [h] at ct ⊢
  · exact fallsLaw_of_map c ct hv (fun _ _ _ => ⟨rfl, rfl, rfl⟩) p
  · have step : ∀ g, (({ s with records := v } : State).freeRecord o).record? g
        = if o = g then none else (s.record? g).map (Record.aired u g) := fun g => by rw [record?_freeRecord, hv]
    refine ⟨fun g y hy => ?_, fun g y fb hy hs hf => ?_⟩
    · rw [step] at hy
      split at hy
      · cases hy
      · obtain ⟨z, hz, rfl⟩ := Option.map_eq_some_iff.1 hy
        refine (p.1 g z hz).trans (fallbackUses_congr c ct g fun j => ?_).symm
        rw [step]
        split
        · next hj => rw [← hj, hx]; exact (uses_of_none (fallback_of_retiring p hx hr) g).symm
        · cases s.record? j <;> rfl
    · rw [step] at hy
      split at hy
      · cases hy
      · obtain ⟨z, hz, rfl⟩ := Option.map_eq_some_iff.1 hy
        obtain ⟨ret, safe⟩ := p.2 g z fb hz hs hf
        refine ⟨ret, safe.imp id fun ⟨hc, hg⟩ => ⟨?_, hg⟩⟩
        obtain ⟨w, hw, stage⟩ := (committed_iff s fb).1 hc
        refine (committed_iff _ fb).2 ⟨w.aired u fb, ?_, stage⟩
        rw [step, if_neg, hw]
        · rfl
        · rintro rfl
          rw [hx] at hw
          cases hw
          rw [hr] at stage
          cases stage

theorem fallsLaw_frame (h : s.core = t.core) (p : s.fallsLaw E G) : t.fallsLaw E G := by
  have records : s.records = t.records := congrArg (·.1) h
  unfold State.fallsLaw State.fallbackUses State.committed at *
  simpa only [core_record? h, records] using p

theorem steady_fallsLaw (E G : Nat → Prop) : Steady (State.fallsLaw E G) where
  frame _ _ h := fallsLaw_frame h
  update s _ rest c _ p := fallsLaw_takeUpdate (s := { s with updates := rest }) _ c p
  move _ k x c _ p := fallsLaw_of_records c (canonical_moved k x c) rfl p

theorem fallsLaw_rebind (f i : Nat) (b : Option Binding) (c : s.canonical) (p : s.fallsLaw E G) :
    (s.rebind f i b).fallsLaw E G := by
  have core := core_rebind s f i b
  split at core
  · exact fallsLaw_frame core.symm p
  · refine fallsLaw_frame core.symm ?_
    have cp := (kept_plan s ((s.slot f i).planned.map (·.handle)) (b.map (·.handle))).canonical c
    exact fallsLaw_of_map c (canonical_moved _ _ cp) (record?_plan s _ _) (fun _ _ _ => ⟨rfl, rfl, rfl⟩) p

theorem fallsLaw_splices (cs : s.canonical) (ct : t.canonical) (h : s.splices t) (p : s.fallsLaw E G) :
    t.fallsLaw E G := by
  obtain ⟨f, hf⟩ := h.records
  exact fallsLaw_of_map cs ct hf (fun _ _ _ => ⟨rfl, rfl, rfl⟩) p

/-! ### Records that are committed, amended and retired -/

theorem fallbackOf_eq {h : Nat} {x : Record} (hx : s.record? h = some x) : s.fallbackOf h = x.fallback := by
  unfold State.fallbackOf
  rw [hx]

/-- A RESERVED record is committed, and its fallback is counted (R10, R16). -/
theorem fallsLaw_commitRecord {h : Nat} {x : Record} (hx : s.record? h = some x) (hs : x.state = .reserved)
    (c : s.canonical) (p : s.fallsLaw (fun _ => True) never) : (s.commitRecord h).fallsLaw (fun _ => True) never := by
  have ct := (kept_commitRecord s h).canonical c
  have record := record?_commitRecord s h
  have fallback := fallbackOf_eq hx
  have other : ∀ g j, j ≠ h → ((s.commitRecord h).record? j).elim 0 (·.uses g) = (s.record? j).elim 0 (·.uses g) := by
    intro g j hj
    rw [record]
    cases s.record? j with
    | none => rfl
    | some r =>
      simp only [Option.map_some, if_neg hj.symm]
      rfl
  refine ⟨fun g y hy => ?_, fun g y fb hy _ hf => ⟨?_, .inl trivial⟩⟩
  · have change := fallbackUses_update c ct h g (other g)
    rw [record h, hx, Option.map_some, if_pos rfl] at change
    rw [record, Option.map_eq_some_iff] at hy
    obtain ⟨z, hz, rfl⟩ := hy
    have refs := p.1 g z hz
    have before : x.uses g = 0 := uses_of_reserved hs g
    have after : Record.uses { x.goLive s with fallbackRefs := (x.goLive s).fallbackRefs + names1 (s.fallbackOf h) h } g
        = names1 x.fallback g := if_neg nofun
    simp only [Option.elim_some, before, after] at change
    have same : (if h = g then z.goLive s else z).fallbackRefs = z.fallbackRefs := by split <;> rfl
    dsimp only
    rw [same, fallback]
    omega
  · rw [record, Option.map_eq_some_iff] at hy
    obtain ⟨z, hz, rfl⟩ := hy
    dsimp only at hf ⊢
    split
    · nofun
    · next hg =>
      rw [if_neg hg] at hf
      intro e
      rw [fallback_of_retiring p hz e] at hf
      cases hf

/-- A committed record is amended, and the counts of its fallbacks move (R12, R16). -/
theorem fallsLaw_amendRecord {a : AmendFields} {x : Record} (hx : s.record? a.handle = some x)
    (stage : x.state.stage = 1) (c : s.canonical) (p : s.fallsLaw (fun _ => True) never) :
    (s.amendRecord a).fallsLaw (fun _ => True) never := by
  have ct := (kept_amendRecord s a).canonical c
  have record := record?_amendRecord s a
  have fallback := fallbackOf_eq hx
  have live : x.state ≠ .reserved := fun e => by rw [e] at stage; cases stage
  have other : ∀ g j, j ≠ a.handle →
      ((s.amendRecord a).record? j).elim 0 (·.uses g) = (s.record? j).elim 0 (·.uses g) := by
    intro g j hj
    rw [record]
    cases s.record? j with
    | none => rfl
    | some r =>
      simp only [Option.map_some, if_neg hj.symm]
      rfl
  refine ⟨fun g y hy => ?_, fun g y fb hy _ hf => ⟨?_, .inl trivial⟩⟩
  · have change := fallbackUses_update c ct a.handle g (other g)
    rw [record a.handle, hx] at change
    simp only [Option.map_some, Option.bind_some, Option.elim_some, if_true] at change
    rw [record, Option.map_eq_some_iff] at hy
    obtain ⟨z, hz, rfl⟩ := hy
    have refs := p.1 g z hz
    have before : x.uses g = names1 x.fallback g := if_neg live
    have after : ∀ n, Record.uses { a.apply x with fallbackRefs := n } g = names1 (a.apply x).fallback g := fun n =>
      if_neg live
    rw [before, after] at change
    have same : (if a.handle = g then a.apply z else z).fallbackRefs = z.fallbackRefs := by split <;> rfl
    dsimp only
    rw [same, fallback, hx]
    simp only [Option.bind_some]
    omega
  · rw [record, Option.map_eq_some_iff] at hy
    obtain ⟨z, hz, rfl⟩ := hy
    dsimp only at hf ⊢
    split
    · next hg =>
      subst hg
      rw [hx] at hz
      cases hz
      exact fun e => by rw [show (a.apply x).state = x.state from rfl] at e; rw [e] at stage; cases stage
    · next hg =>
      rw [if_neg hg] at hf
      intro e
      rw [fallback_of_retiring p hz e] at hf
      cases hf

/-- A record after it is retired: gone, or RETIRING without a fallback (R17, R47). -/
def Record.retired (r : Record) (h : Nat) : Option Record :=
  if r.onAir = 0 then none else some ({ r with fallbackRefs := r.fallbackRefs - names1 r.fallback h } : Record).retire

theorem record?_retireRecord {h : Nat} {r : Record} (hx : s.record? h = some r) (g : Nat) :
    (s.retireRecord h).record? g = if h = g then r.retired h
      else (s.record? g).map fun x => { x with fallbackRefs := x.fallbackRefs - names1 r.fallback g } := by
  obtain ⟨v, hv, ⟨hn, -⟩ | ⟨q, hq, cases⟩⟩ := retireRecord_cases s h
  · rw [hx] at hn; cases hn
  · rw [hx] at hq
    cases hq
    rw [fallbackOf_eq hx] at hv cases
    unfold Record.retired
    rcases cases with ⟨h0, e⟩ | ⟨h0, e⟩ <;> rw [e]
    · rw [record?_freeRecord, hv, if_pos h0]
    · rw [record?_setRecord, hv, if_neg h0]

theorem record?_retireRecord_none {h : Nat} (hx : s.record? h = none) (g : Nat) :
    (s.retireRecord h).record? g = s.record? g := by
  obtain ⟨v, hv, ⟨-, e⟩ | ⟨q, hq, -⟩⟩ := retireRecord_cases s h
  · have fallback : s.fallbackOf h = none := by unfold State.fallbackOf; rw [hx]
    rw [e, hv, fallback]
    exact Option.map_id' ..
  · rw [hx] at hq; cases hq

theorem uses_retired (r : Record) (h n : Nat) : (r.retired h).elim 0 (·.uses n) = 0 := by
  unfold Record.retired
  split
  · rfl
  · exact uses_of_none rfl n

/-- A retired record's fallback is used once less (R16). -/
theorem fallbackUses_retireRecord {h : Nat} {r : Record} (hx : s.record? h = some r) (live : r.state ≠ .reserved)
    (c : s.canonical) (g : Nat) : (s.retireRecord h).fallbackUses g + names1 r.fallback g = s.fallbackUses g := by
  have change := fallbackUses_update c ((kept_retireRecord s h).canonical c) h g fun j hj => by
    rw [record?_retireRecord hx, if_neg hj.symm]
    cases s.record? j <;> rfl
  have before : r.uses g = names1 r.fallback g := if_neg live
  rw [record?_retireRecord hx, if_pos rfl, uses_retired, hx, Option.elim_some, before] at change
  omega

/-- A record that no other has as its fallback is retired (R16, R17). -/
theorem fallsLaw_retireRecord {h : Nat} {l : List Nat} (hl : G h)
    (live : ∀ x, s.record? h = some x → x.state ≠ .reserved) (c : s.canonical)
    (p : s.fallsLaw (· ∈ h :: l) G) : (s.retireRecord h).fallsLaw (· ∈ l) G := by
  cases hx : s.record? h with
  | none =>
    have record := record?_retireRecord_none hx
    have law := fallsLaw_of_map (f := fun _ r => r) c ((kept_retireRecord s h).canonical c)
      (fun g => (record g).trans (Option.map_id' ..).symm) (fun _ _ _ => ⟨rfl, rfl, rfl⟩) p
    refine ⟨law.1, fun g y fb hy hs hf => ?_⟩
    obtain ⟨ret, safe⟩ := law.2 g y fb hy hs hf
    refine ⟨ret, safe.imp (fun mem => ?_) id⟩
    rcases List.mem_cons.1 mem with rfl | mem
    · rw [record, hx] at hy; cases hy
    · exact mem
  | some r =>
    have record := record?_retireRecord hx
    have uses := fallbackUses_retireRecord hx (live r hx) c
    refine ⟨fun g y hy => ?_, fun g y fb hy hs hf => ?_⟩
    · have used := uses g
      rw [record] at hy
      split at hy
      · next hg =>
        subst hg
        have refs := p.1 h r hx
        unfold Record.retired at hy
        split at hy
        · cases hy
        · cases hy
          simp only [Record.retire]
          omega
      · obtain ⟨z, hz, rfl⟩ := Option.map_eq_some_iff.1 hy
        have refs := p.1 g z hz
        simp only
        omega
    · rw [record] at hy
      split at hy
      · unfold Record.retired at hy
        split at hy
        · cases hy
        · cases hy; cases hf
      · next hg =>
        obtain ⟨z, hz, rfl⟩ := Option.map_eq_some_iff.1 hy
        obtain ⟨ret, safe⟩ := p.2 g z fb hz hs hf
        refine ⟨ret, ?_⟩
        rcases safe with mem | ⟨hc, hn⟩
        · rcases List.mem_cons.1 mem with rfl | mem
          · exact absurd rfl hg
          · exact .inl mem
        · obtain ⟨w, hw, stage⟩ := (committed_iff s fb).1 hc
          have ne : h ≠ fb := fun e => hn (e ▸ hl)
          refine .inr ⟨(committed_iff _ fb).2 ⟨{ w with fallbackRefs := w.fallbackRefs - names1 r.fallback fb }, ?_, stage⟩, hn⟩
          rw [record, if_neg ne, hw]
          rfl

end

end Sys2Proof.Machine
end

