-- ==== Sys2Proof/Proofs/FallSteps.lean ====
section
/-! Every step keeps the use counts of the records (O58): the walk of a commit, what a batch holds, and every act. -/

namespace Sys2Proof.Machine

/-! ### What the batches hold -/

/-- The handle of a CREATE RECORD. -/
def Edit.created? : Edit → Option Nat
  | .create h _ => some h
  | .amend _ | .retire _ | .slot _ | .setLeg _ => none

/-- The handles of the CREATE RECORDs of a list of edits. -/
def creates (l : List (Edit × Nat)) : List Nat := l.filterMap fun c => c.1.created?

/-- The record is RESERVED. -/
def State.isReserved (s : State) (h : Nat) : Prop := ∃ x, s.record? h = some x ∧ x.state = .reserved

/-- The handles of the two workspaces are those of their CREATE RECORDs, no handle twice, and each is RESERVED. -/
def State.heldLaw (s : State) : Prop :=
  (∀ r, (s.ws r).handles = creates (s.ws r).edits) ∧ (s.siteWs.handles ++ s.netWs.handles).Nodup
    ∧ ∀ r, ∀ h ∈ (s.ws r).handles, s.isReserved h

theorem fallbackCountLaw_iff (s : State) : s.fallbackCountLaw ↔ s.fallsLaw never never ∧ s.heldLaw := by
  unfold State.fallbackCountLaw State.fallsLaw State.heldLaw creates State.isReserved never State.fallbackUses
  simp only [false_or, not_false_eq_true, and_true]
  constructor
  · rintro ⟨refs, falls, handles, nodup, reserved⟩
    refine ⟨⟨refs, falls⟩, fun r => (handles r).trans (List.filterMap_congr fun c _ => ?_), nodup, reserved⟩
    obtain ⟨e, n⟩ := c
    cases e <;> rfl
  · rintro ⟨⟨refs, falls⟩, handles, nodup, reserved⟩
    refine ⟨refs, falls, fun r => (handles r).trans (List.filterMap_congr fun c _ => ?_), nodup, reserved⟩
    obtain ⟨e, n⟩ := c
    cases e <;> rfl

section
variable {s t : State}

theorem isReserved_of_map {g : Nat} {f : Record → Record} (h : t.record? g = (s.record? g).map f)
    (hf : ∀ r : Record, r.state = .reserved → (f r).state = .reserved) (e : s.isReserved g) : t.isReserved g := by
  obtain ⟨x, hx, hs⟩ := e
  exact ⟨f x, by rw [h, hx]; rfl, hf x hs⟩

theorem isReserved_of_records (h : t.records = s.records) {g : Nat} (e : s.isReserved g) : t.isReserved g := by
  obtain ⟨x, hx, hs⟩ := e
  exact ⟨x, by unfold State.record?; rw [h]; exact hx, hs⟩

theorem isReserved_of_core (h : t.core = s.core) {g : Nat} (e : s.isReserved g) : t.isReserved g :=
  isReserved_of_records (congrArg (·.1) h) e

theorem isReserved_of_splices (h : s.splices t) {g : Nat} (e : s.isReserved g) : t.isReserved g := by
  obtain ⟨f, hf⟩ := h.records
  exact isReserved_of_map (hf g) (fun _ hr => hr) e

theorem isReserved_writeRecord {e : Edit} {g : Nat} (he : e.created? ≠ some g) (h : s.isReserved g) :
    (s.writeRecord e).isReserved g := by
  cases e with
  | create n c =>
    refine isReserved_of_map (record?_commitRecord s n g) (fun r hr => ?_) h
    dsimp only
    rw [if_neg fun e => he (congrArg some e)]
    exact hr
  | amend a =>
    refine isReserved_of_map (record?_amendRecord s a g) (fun r hr => ?_) h
    dsimp only
    split <;> exact hr
  | retire _ | slot _ | setLeg _ => exact h

theorem isReserved_takeUpdate (u : OnAirUpdate) {g : Nat} (h : s.isReserved g) : (s.takeUpdate u).isReserved g := by
  obtain ⟨v, hv, cases⟩ := takeUpdate_cases s u
  have aired : ({ s with records := v } : State).isReserved g := isReserved_of_map (hv g) (fun _ hr => hr) h
  rcases cases with ⟨-, e⟩ | ⟨o, ⟨-, x, hx, hr, -⟩, e⟩
  · rw [e]; exact aired
  · rw [e]
    obtain ⟨y, hy, hs⟩ := aired
    refine ⟨y, ?_, hs⟩
    rw [record?_freeRecord, if_neg]
    · exact hy
    · rintro rfl
      obtain ⟨z, hz, hzs⟩ := h
      rw [hx] at hz
      cases hz
      rw [hr] at hzs
      cases hzs

theorem isReserved_foldl {α : Type} {f : State → α → State} {g : Nat} {l : List α}
    (h : ∀ s, ∀ a ∈ l, State.isReserved s g → (f s a).isReserved g) (e : s.isReserved g) : (l.foldl f s).isReserved g := by
  induction l generalizing s with
  | nil => exact e
  | cons a l ih =>
    exact ih (fun s b hb => h s b (List.mem_cons_of_mem _ hb)) (h s a (List.mem_cons_self ..) e)

theorem isReserved_takeUpdates {g : Nat} (h : s.isReserved g) : s.takeUpdates.isReserved g :=
  isReserved_foldl (s := { s with updates := [] }) (fun _ _ _ => isReserved_takeUpdate _) h

theorem isReserved_rebind (f i : Nat) (b : Option Binding) {g : Nat} (h : s.isReserved g) :
    (s.rebind f i b).isReserved g := by
  have core := core_rebind s f i b
  split at core
  · exact isReserved_of_core core h
  · refine isReserved_of_core core ?_
    exact isReserved_of_map (t := (s.plan _ _).moved _ _) (record?_plan s _ _ g) (fun _ hr => hr) h

theorem isReserved_writeBindings (l : List SlotEdit) {g : Nat} (h : s.isReserved g) : (s.writeBindings l).isReserved g :=
  isReserved_foldl (fun _ _ _ => isReserved_rebind _ _ _) h

theorem isReserved_retireRecord {n g : Nat} (hn : n ≠ g) (h : s.isReserved g) : (s.retireRecord n).isReserved g := by
  cases hx : s.record? n with
  | none =>
    obtain ⟨x, hx', hs⟩ := h
    exact ⟨x, (record?_retireRecord_none hx g).trans hx', hs⟩
  | some r =>
    have record := record?_retireRecord hx g
    rw [if_neg hn] at record
    exact isReserved_of_map record (fun _ hr => hr) h

theorem isReserved_bound {q : Picture} {g : Nat} (hq : ∀ e ∈ q.applied, e.created? ≠ some g) (h : s.isReserved g) :
    (s.bound q).isReserved g := by
  have written : (q.applied.foldl State.writeRecord s).isReserved g :=
    isReserved_foldl (fun _ e he => isReserved_writeRecord (hq e he)) h
  have legs := isReserved_of_core (core_foldl_writeLeg _ q.applied) written
  have bound := isReserved_writeBindings (q.applied.filterMap Edit.slotEdit?) legs
  refine isReserved_takeUpdates (isReserved_of_records ?_ bound)
  obtain ⟨a, u, v, w, x, e⟩ := moveSlots_eq ((q.applied.foldl State.writeLeg (q.applied.foldl State.writeRecord s)).writeBindings
    (q.applied.filterMap Edit.slotEdit?)) (refallback s _)
  rw [e]

/-! ### The walk of a commit -/

theorem creates_cons (c : Edit × Nat) (l : List (Edit × Nat)) : creates (c :: l) = c.1.created?.toList ++ creates l := by
  unfold creates
  rw [List.filterMap_cons]
  cases c.1.created? <;> rfl

/-- An edit that passes the checks on the picture writes its record with the counts kept (R126, R131). -/
theorem fallsLaw_writeRecord {p : Picture} {m : Nat} {e : Edit} (passes : p.recheck m e = none)
    (shows : p.tables.showsAs t) (reserved : ∀ h, e.created? = some h → t.isReserved h) (c : t.canonical)
    (law : t.fallsLaw (fun _ => True) never) : (t.writeRecord e).fallsLaw (fun _ => True) never := by
  cases e with
  | create h q =>
    obtain ⟨x, hx, hs⟩ := reserved h rfl
    exact fallsLaw_commitRecord hx hs c law
  | amend a =>
    obtain ⟨known, stays, -⟩ := recheck_eq_none passes
    have named : a.handle ∈ (Edit.amend a).named := List.mem_cons_self ..
    have committed := committed_of_known (known _ named) (stays _ named)
    rw [← committed_of_showsAs shows] at committed
    obtain ⟨x, hx, stage⟩ := (committed_iff t a.handle).1 committed
    exact fallsLaw_amendRecord hx stage c law
  | retire _ | slot _ | setLeg _ => exact law

/-- While a batch is walked: the picture shows what its edits write, the fallbacks are counted, and the records that
the edits to come commit are RESERVED. -/
def Picture.fallsTo (s : State) (p : Picture) (rest : List (Edit × Nat)) : Prop :=
  p.tables.showsAs (p.applied.foldl State.writeRecord s)
    ∧ (p.applied.foldl State.writeRecord s).fallsLaw (fun _ => True) never ∧ (creates rest).Nodup
    ∧ ∀ h ∈ creates rest, (p.applied.foldl State.writeRecord s).isReserved h

/-- Once a batch's records are written their fallbacks are counted. -/
theorem walk_falls {l : List (Edit × Nat)} {n : Nat} {q : Picture} (h : (Picture.start s).walk n l = .ok q)
    (distinct : (creates l).Nodup) (reserved : ∀ h ∈ creates l, s.isReserved h) (c : s.canonical)
    (p : s.fallsLaw never never) : (q.applied.foldl State.writeRecord s).fallsLaw (fun _ => True) never := by
  have start : (Picture.start s).fallsTo s l :=
    ⟨fun _ => rfl, fallsLaw_mono p (fun _ _ => trivial) (fun _ e => e), distinct, reserved⟩
  refine (walk_induct (I := Picture.fallsTo s) (fun p d r hp => ?_) (fun p m d r hp hr _ _ => ?_) start h).2.1
  · obtain ⟨shows, law, nodup, res⟩ := hp
    rw [creates_cons] at nodup res
    exact ⟨shows, law, (List.nodup_append.1 nodup).2.1, fun h hh => res h (List.mem_append_right _ hh)⟩
  · obtain ⟨shows, law, nodup, res⟩ := hp
    rw [creates_cons] at nodup res
    obtain ⟨-, nodup, apart⟩ := List.nodup_append.1 nodup
    unfold Picture.fallsTo
    rw [show (p.applyEdit m d.1).applied = p.applied ++ [d.1] from rfl, written_append]
    refine ⟨showsAs_paint shows d.1, fallsLaw_writeRecord hr shows (fun h hh => res h ?_)
      ((kept_writeRecords s _).canonical c) law, nodup, fun h hh => isReserved_writeRecord (fun e => ?_)
        (res h (List.mem_append_right _ hh))⟩
    · exact List.mem_append_left _ (by rw [hh]; simp)
    · exact apart h (by rw [e]; simp) h hh rfl

/-- A passing commit leaves no fallback that is not committed or goes with the batch (R129). -/
theorem guarded_of_passing {l : List (Edit × Nat)} {n : Nat} {q : Picture} (h : (Picture.start s).walk n l = .ok q)
    (valid : q.fallbackFailure = none)
    (p : (q.applied.foldl State.writeRecord s).fallsLaw (fun _ => True) never) :
    (q.applied.foldl State.writeRecord s).fallsLaw (· ∈ q.retired.map (·.1)) (· ∈ q.retired.map (·.1)) := by
  obtain ⟨shows, -⟩ := walk_bindings h
  have stays_iff : ∀ g, q.stays g = true
      ↔ (q.applied.foldl State.writeRecord s).committed g = true ∧ g ∉ q.retired.map (·.1) := by
    intro g
    unfold Picture.stays
    rw [Bool.and_eq_true, committed_of_showsAs shows, Bool.not_eq_true', List.any_eq_false]
    simp only [beq_iff_eq, List.mem_map, not_exists, not_and]
  refine ⟨p.1, fun g x fb hx hs hf => ?_⟩
  obtain ⟨ret, -⟩ := p.2 g x fb hx hs hf
  refine ⟨ret, ?_⟩
  by_cases mem : g ∈ q.retired.map (·.1)
  · exact .inl mem
  · have committed : (q.applied.foldl State.writeRecord s).committed g = true := by
      refine (committed_iff _ g).2 ⟨x, hx, ?_⟩
      cases hx' : x.state <;> simp [hx', RecState.stage] at hs ret ⊢
    have stays := (stays_iff g).2 ⟨committed, mem⟩
    have shown := shows g
    rw [hx] at shown
    obtain ⟨y, hy, same⟩ := Option.map_eq_some_iff.1 shown
    have fallback : y.fallback = some fb := by
      rw [← hf]
      exact congrArg (·.2.2.2.2.2.2.1) same
    unfold Picture.fallbackFailure at valid
    rw [Option.map_eq_none_iff, List.find?_eq_none] at valid
    have fine := valid (g, y) (Table.find?_mem _ _ _ hy)
    unfold Picture.fallbackBad at fine
    simp only [fallback, stays, Bool.true_and, Bool.or_eq_true, Bool.not_eq_true', not_or, Bool.not_eq_false] at fine
    exact .inr ((stays_iff fb).1 fine.1.1)

theorem fallsLaw_retireRecords {l : List (Nat × Nat)} {G : Nat → Prop} (hl : ∀ x ∈ l, G x.1)
    (live : ∀ x ∈ l, ∀ r, s.record? x.1 = some r → r.state ≠ .reserved) (c : s.canonical)
    (p : s.fallsLaw (· ∈ l.map (·.1)) G) : (l.foldl (fun s x => s.retireRecord x.1) s).fallsLaw never G := by
  induction l generalizing s with
  | nil => exact fallsLaw_mono p (fun _ h => by cases h) fun _ h => h
  | cons x l ih =>
    refine ih (fun y hy => hl y (List.mem_cons_of_mem _ hy)) (fun y hy r hr e => ?_)
      ((kept_retireRecord s x.1).canonical c)
      (fallsLaw_retireRecord (hl x (List.mem_cons_self ..)) (live x (List.mem_cons_self ..)) c p)
    obtain ⟨z, hz, hs⟩ := reservesNo_retireRecord s x.1 y.1 r hr e
    exact live y (List.mem_cons_of_mem _ hy) z hz hs

theorem fallsLaw_writePicture {w : Workspace} {q : Picture} (h : judgeImmediate s w = .ok q)
    (distinct : (creates w.edits).Nodup) (reserved : ∀ h ∈ creates w.edits, s.isReserved h) (c : s.canonical)
    (p : s.fallsLaw never never) : (s.writePicture q).fallsLaw never never := by
  obtain ⟨walk, -, valid, -⟩ := judgeImmediate_eq_ok h
  have written := guarded_of_passing walk valid (walk_falls walk distinct reserved c p)
  have cw := ((kept_writeRecords s q.applied).trans (kept_writeLegs _ q.applied)).canonical c
  have cb := (kept_writeBindings _ (q.applied.filterMap Edit.slotEdit?)).canonical cw
  have legs := fallsLaw_frame (core_foldl_writeLeg (q.applied.foldl State.writeRecord s) q.applied).symm written
  have bound := (steady_fallsLaw _ _).refallbacks s cb
    (foldl_keeps (fun _ _ => kept_rebind _ _ _ _) (fun _ _ => fallsLaw_rebind _ _ _) (bindingsOf _) cw legs)
  refine fallsLaw_frame (core_writePicture s q).symm (fallsLaw_mono (fallsLaw_retireRecords
    (fun x hx => List.mem_map_of_mem hx) (fun x hx r hr e => ?_) ((kept_bound s q).canonical c) bound)
    (fun _ h => h) fun _ h => h.elim)
  obtain ⟨y, hy, hs⟩ := reservesNo_bound s q x.1 r hr e
  exact retired_not_reserved walk x hx y hy hs

/-! ### What a batch's end leaves held -/

theorem nodup_handles (h : (s.siteWs.handles ++ s.netWs.handles).Nodup) {r q : Requester} (hq : q ≠ r) :
    ∀ g ∈ (s.ws q).handles, g ∉ (s.ws r).handles := by
  obtain ⟨-, -, apart⟩ := List.nodup_append.1 h
  intro g hg hr
  cases q <;> cases r
  · exact hq rfl
  · exact apart g hg g hr rfl
  · exact apart g hr g hg rfl
  · exact hq rfl

/-- The end of a batch leaves what the other batch holds. -/
theorem heldLaw_endBatch {r : Requester} (o : OutcomeRecord) (handles : ∀ q, (s.ws q).handles = creates (s.ws q).edits)
    (nodup : (s.siteWs.handles ++ s.netWs.handles).Nodup)
    (reserved : ∀ q, q ≠ r → ∀ h ∈ (s.ws q).handles, s.isReserved h) : (s.endBatch r o).heldLaw := by
  refine ⟨fun q => ?_, ?_, fun q h hh => ?_⟩
  · rw [ws_endBatch]
    split
    · rfl
    · exact handles q
  · have site := ws_endBatch (s := s) r .site o
    have net := ws_endBatch (s := s) r .network o
    have parts := List.nodup_append.1 nodup
    change ((s.endBatch r o).ws .site).handles ++ ((s.endBatch r o).ws .network).handles |>.Nodup
    rw [site, net]
    cases r
    · exact parts.2.1
    · rw [if_neg nofun, if_pos rfl]
      exact List.nodup_append.2 ⟨parts.1, List.nodup_nil, fun _ _ _ h => by cases h⟩
  · rw [ws_endBatch] at hh
    split at hh
    · cases hh
    · next hq =>
      have hq' : q ≠ r := fun e => hq e.symm
      obtain ⟨x, hx, hs⟩ := reserved q hq' h hh
      refine ⟨x, ?_, hs⟩
      rw [record?_endBatch, if_neg fun e => nodup_handles nodup hq' h hh e.1]
      exact hx

theorem heldLaw_congr (ws : ∀ r, (t.ws r).core = (s.ws r).core) (reserved : ∀ h, s.isReserved h → t.isReserved h)
    (p : s.heldLaw) : t.heldLaw := by
  have same : ∀ r, (t.ws r).handles = (s.ws r).handles ∧ (t.ws r).edits = (s.ws r).edits := fun r => by
    have core := ws r
    simp only [Workspace.core, Prod.mk.injEq] at core
    exact ⟨core.2.2, core.2.1⟩
  obtain ⟨handles, nodup, res⟩ := p
  refine ⟨fun r => by rw [(same r).1, (same r).2, handles], ?_, fun r h hh => reserved h (res r h ?_)⟩
  · have site := (same .site).1
    have net := (same .network).1
    change t.siteWs.handles = s.siteWs.handles at site
    change t.netWs.handles = s.netWs.handles at net
    rwa [site, net]
  · rwa [(same r).1] at hh

theorem heldLaw_ended {r : Requester} (o : OutcomeRecord) (p : s.heldLaw) : (s.endBatch r o).heldLaw :=
  heldLaw_endBatch o p.1 p.2.1 fun q _ => p.2.2 q

/-- A passing commit leaves what the other batch holds. -/
theorem heldLaw_committed {r : Requester} {q : Picture} (o : OutcomeRecord) (h : judgeImmediate s (s.ws r) = .ok q)
    (p : s.heldLaw) : ((s.writePicture q).endBatch r o).heldLaw := by
  obtain ⟨walk, -⟩ := judgeImmediate_eq_ok h
  obtain ⟨handles, nodup, reserved⟩ := p
  have same : ∀ x, ((s.writePicture q).ws x).handles = (s.ws x).handles ∧ ((s.writePicture q).ws x).edits = (s.ws x).edits :=
    fun x => by
      have core := ws_of_sides (sides_writePicture (s := s) q) x
      simp only [Workspace.core, Prod.mk.injEq] at core
      exact ⟨core.2.2, core.2.1⟩
  refine heldLaw_endBatch o (fun x => by rw [(same x).1, (same x).2, handles]) ?_ fun x hx g hg => ?_
  · have site := (same .site).1
    have net := (same .network).1
    change (s.writePicture q).siteWs.handles = s.siteWs.handles at site
    change (s.writePicture q).netWs.handles = s.netWs.handles at net
    rwa [site, net]
  · rw [(same x).1] at hg
    have other : ∀ e ∈ q.applied, e.created? ≠ some g := by
      intro e he hc
      obtain ⟨m, hm⟩ := walk_applied_mem walk e he
      refine nodup_handles nodup hx g hg ?_
      rw [handles]
      exact List.mem_filterMap.2 ⟨_, hm, hc⟩
    have bound := isReserved_bound other (reserved x g hg)
    refine isReserved_of_core (core_writePicture s q) (isReserved_foldl (fun t c hc => isReserved_retireRecord ?_) bound)
    rintro rfl
    obtain ⟨y, hy, hs⟩ := bound
    obtain ⟨z, hz, hzs⟩ := reservesNo_bound s q c.1 y hy hs
    exact retired_not_reserved walk c hc z hz hzs

end

end Sys2Proof.Machine
end

