-- ==== Sys2Proof/Proofs/UseCounts.lean ====
section
/-! Every step keeps the use counts of the records (O58): every act. -/

namespace Sys2Proof.Machine

section
variable {s t : State}

theorem fallbackCountLaw_congr (ws : ∀ r, (t.ws r).core = (s.ws r).core)
    (reserved : ∀ h, s.isReserved h → t.isReserved h) (falls : s.fallsLaw never never → t.fallsLaw never never)
    (p : s.fallbackCountLaw) : t.fallbackCountLaw := by
  obtain ⟨law, held⟩ := (fallbackCountLaw_iff s).1 p
  exact (fallbackCountLaw_iff t).2 ⟨falls law, heldLaw_congr ws reserved held⟩

theorem fallbackCountLaw_frame (h : s.core = t.core) : s.fallbackCountLaw → t.fallbackCountLaw :=
  fallbackCountLaw_congr (core_ws h.symm) (fun _ => isReserved_of_core h.symm) (fallsLaw_frame h)

theorem fallbackCountLaw_splices (c : s.canonical) (ct : t.canonical) (h : s.splices t) :
    s.fallbackCountLaw → t.fallbackCountLaw :=
  fallbackCountLaw_congr h.ws (fun _ => isReserved_of_splices h) (fallsLaw_splices c ct h)

/-- A change of one record that the law does not see. -/
theorem fallbackCountLaw_touch {h : Nat} {x y : Record} (c : s.canonical) (hx : s.record? h = some x)
    (use : y.use = x.use) : s.fallbackCountLaw → (s.setRecord h y).fallbackCountLaw := by
  simp only [Record.use, Prod.mk.injEq] at use
  obtain ⟨stage, key, -, fallback, -, -, -, refs⟩ := use
  have record : ∀ g, (s.setRecord h y).record? g = (s.record? g).map fun r => if h = g then y else r := by
    intro g
    rw [record?_setRecord]
    split
    · next hg => rw [← hg, hx]; rfl
    · exact (Option.map_id' ..).symm
  have same : ∀ g r, s.record? g = some r → (if h = g then y else r).state.stage = r.state.stage
      ∧ (if h = g then y else r).fallback = r.fallback ∧ (if h = g then y else r).fallbackRefs = r.fallbackRefs := by
    intro g r hr
    split
    · next hg =>
      rw [← hg, hx] at hr
      cases hr
      exact ⟨stage, fallback, refs⟩
    · exact ⟨rfl, rfl, rfl⟩
  refine fallbackCountLaw_congr (fun r => by rw [ws_setRecord]) (fun g ⟨r, hr, hs⟩ => ?_)
    (fallsLaw_of_map c ((kept_setRecord s hx key).canonical c) record same)
  exact ⟨_, by rw [record, hr]; rfl, (reserved_of_stage (same g r hr).1).2 hs⟩

theorem isReserved_takeFirst {u : OnAirUpdate} {rest : List OnAirUpdate} {g : Nat} (h : s.isReserved g) :
    ({ s with updates := rest }.takeUpdate u).isReserved g :=
  isReserved_takeUpdate (s := { s with updates := rest }) u h

/-! ### Executions, commits and ends -/

theorem fallbackCountLaw_passEntry {e : Nat} {q : Picture} (c : s.canonical) :
    s.fallbackCountLaw → (s.passEntry e q).fallbackCountLaw := by
  have c1 := (kept_writeBindings s (q.applied.filterMap Edit.slotEdit?)).canonical c
  have c2 := (kept_dropSpliceRefs _ (s.entry e).edits).canonical c1
  have c3 := (kept_takeUpdates _).canonical c2
  intro p
  have executed : (s.executing e q).fallbackCountLaw := by
    refine fallbackCountLaw_congr (ws_executing e q) (fun g h => ?_) (fun law => ?_) p
    · exact isReserved_takeUpdates (isReserved_of_splices (splices_dropSpliceRefs _) (isReserved_writeBindings _ h))
    · have bound : (s.writeBindings (q.applied.filterMap Edit.slotEdit?)).fallsLaw never never :=
        foldl_keeps (fun _ _ => kept_rebind _ _ _ _) (fun _ _ => fallsLaw_rebind _ _ _)
          (bindingsOf (q.applied.filterMap Edit.slotEdit?)) c law
      exact (steady_fallsLaw _ _).takeUpdates c2 (fallsLaw_splices c1 c2 (splices_dropSpliceRefs _) bound)
  exact fallbackCountLaw_splices c3 (((kept_armReturn _ e).trans (kept_finishEntry _ e _ _)).canonical c3)
    ((splices_armReturn e).trans (splices_finishEntry e _ _)) executed

theorem fallsLaw_endBatch (r : Requester) (o : OutcomeRecord) (c : s.canonical) (p : s.fallsLaw never never) :
    (s.endBatch r o).fallsLaw never never := by
  refine fallsLaw_of_freed c ((kept_endBatch s r o).canonical c) (record?_endBatch r o) ?_ p
  rintro g x ⟨-, y, hy, hs⟩ hx
  rw [hx] at hy
  cases hy
  exact ⟨by rw [hs]; decide, uses_of_reserved hs⟩

theorem fallbackCountLaw_endBatch (r : Requester) (o : OutcomeRecord) (c : s.canonical) (p : s.fallbackCountLaw) :
    (s.endBatch r o).fallbackCountLaw := by
  obtain ⟨law, held⟩ := (fallbackCountLaw_iff s).1 p
  exact (fallbackCountLaw_iff _).2 ⟨fallsLaw_endBatch r o c law, heldLaw_ended o held⟩

theorem fallbackCountLaw_commit {r : Requester} {q : Picture} (o : OutcomeRecord) (c : s.canonical)
    (h : judgeImmediate s (s.ws r) = .ok q) (p : s.fallbackCountLaw) :
    ((s.writePicture q).endBatch r o).fallbackCountLaw := by
  obtain ⟨law, held⟩ := (fallbackCountLaw_iff s).1 p
  obtain ⟨handles, nodup, reserved⟩ := held
  have distinct : (creates (s.ws r).edits).Nodup := by
    rw [← handles]
    have parts := List.nodup_append.1 nodup
    cases r
    · exact parts.1
    · exact parts.2.1
  have own : ∀ h ∈ creates (s.ws r).edits, s.isReserved h := fun g hg => reserved r g (by rw [handles]; exact hg)
  exact (fallbackCountLaw_iff _).2 ⟨fallsLaw_endBatch r o ((kept_writePicture s q).canonical c)
    (fallsLaw_writePicture h distinct own c law), heldLaw_committed o h ⟨handles, nodup, reserved⟩⟩

/-! ### Arrivals -/

theorem fallsLaw_setWs (r : Requester) (w : Workspace) (p : s.fallsLaw never never) :
    (s.setWs r w).fallsLaw never never := by
  cases r <;> exact p

theorem isReserved_setWs (r : Requester) (w : Workspace) (h : Nat) : (s.setWs r w).isReserved h ↔ s.isReserved h := by
  cases r <;> rfl

/-- A workspace that is opened, or that takes an edit that creates no record. -/
theorem fallbackCountLaw_setWs {r : Requester} {w : Workspace} (own : w.handles = creates w.edits)
    (sub : w.handles = [] ∨ w.handles = (s.ws r).handles) (p : s.fallbackCountLaw) : (s.setWs r w).fallbackCountLaw := by
  obtain ⟨law, handles, nodup, reserved⟩ := (fallbackCountLaw_iff s).1 p
  refine (fallbackCountLaw_iff _).2 ⟨fallsLaw_setWs r w law, fun q => ?_, ?_, fun q h hh => ?_⟩
  · rw [ws_setWs]
    split
    · exact own
    · exact handles q
  · have parts := List.nodup_append.1 nodup
    cases r <;> rcases sub with e | e
    · exact (congrArg (fun l => (l ++ s.netWs.handles).Nodup) e).mpr parts.2.1
    · exact (congrArg (fun l => (l ++ s.netWs.handles).Nodup) e).mpr nodup
    · exact (congrArg (fun l => (s.siteWs.handles ++ l).Nodup) e).mpr (by rw [List.append_nil]; exact parts.1)
    · exact (congrArg (fun l => (s.siteWs.handles ++ l).Nodup) e).mpr nodup
  · rw [isReserved_setWs]
    rw [ws_setWs] at hh
    split at hh
    · next hq =>
      subst hq
      rcases sub with e | e
      · rw [e] at hh; cases hh
      · exact reserved r h (e ▸ hh)
    · exact reserved q h hh

theorem creates_append (l : List (Edit × Nat)) (e : Edit) (n : Nat) :
    creates (l ++ [(e, n)]) = creates l ++ e.created?.toList := by
  unfold creates
  rw [List.filterMap_append]
  cases h : e.created? <;> simp [h]

theorem not_fallback_of_none {h : Nat} (free : s.record? h = none) (c : s.canonical) (p : s.fallsLaw never never) :
    s.fallbackUses h = 0 := by
  rw [fallbackUses_eq_sum, List.sum_eq_zero_iff]
  intro n hn
  obtain ⟨⟨g, x⟩, hg, rfl⟩ := List.mem_map.1 hn
  by_cases hs : x.state = .reserved
  · exact uses_of_reserved hs h
  · have hx : s.record? g = some x := Table.find?_of_mem _ c.records_rising _ hg
    unfold Record.uses names1
    rw [if_neg hs, if_neg]
    intro hf
    obtain ⟨-, e | ⟨e, -⟩⟩ := p.2 g x h hx hs hf
    · cases e
    · obtain ⟨y, hy, -⟩ := (committed_iff s h).1 e
      rw [free] at hy
      cases hy

theorem fallsLaw_reserve {r : Requester} {q : CreateFields} {h : Nat} (free : s.record? h = none) (c : s.canonical)
    (ct : ((s.setRecord h (createdRecord r q)).reserveEntries h q).canonical) (p : s.fallsLaw never never) :
    ((s.setRecord h (createdRecord r q)).reserveEntries h q).fallsLaw never never := by
  have record : ∀ g, ((s.setRecord h (createdRecord r q)).reserveEntries h q).record? g
      = if h = g then some (createdRecord r q) else s.record? g := fun g => record?_setRecord s h g _
  have uses : ∀ g, ((s.setRecord h (createdRecord r q)).reserveEntries h q).fallbackUses g = s.fallbackUses g := by
    refine fun g => fallbackUses_congr c ct g fun j => ?_
    rw [record]
    split
    · next hj => rw [← hj, free]; exact uses_of_reserved rfl g
    · rfl
  refine ⟨fun g y hy => ?_, fun g y fb hy hs hf => ?_⟩
  · rw [uses]
    rw [record] at hy
    split at hy
    · next hg => cases hy; rw [← hg]; exact (not_fallback_of_none free c p).symm
    · exact p.1 g y hy
  · rw [record] at hy
    split at hy
    · cases hy; exact absurd rfl hs
    · obtain ⟨ret, e | ⟨e, -⟩⟩ := p.2 g y fb hy hs hf
      · cases e
      · obtain ⟨z, hz, stage⟩ := (committed_iff s fb).1 e
        refine ⟨ret, .inr ⟨(committed_iff _ fb).2 ⟨z, ?_, stage⟩, id⟩⟩
        rw [record, if_neg]
        · exact hz
        · rintro rfl
          rw [free] at hz
          cases hz

/-- A CREATE RECORD takes a handle that no workspace holds. -/
theorem fallbackCountLaw_create {r : Requester} {q : CreateFields} {h : Nat} (free : s.record? h = none)
    (c : s.canonical) (ct : ((s.setRecord h (createdRecord r q)).reserveEntries h q).canonical)
    (p : s.fallbackCountLaw) :
    (((s.setRecord h (createdRecord r q)).reserveEntries h q).setWs r ((s.ws r).holdCreate h q)).fallbackCountLaw := by
  obtain ⟨law, handles, nodup, reserved⟩ := (fallbackCountLaw_iff s).1 p
  have fresh : ∀ x, h ∉ (s.ws x).handles := fun x hh => by
    obtain ⟨y, hy, -⟩ := reserved x h hh
    rw [free] at hy
    cases hy
  obtain ⟨u, hu⟩ : ∃ u, u = (s.setRecord h (createdRecord r q)).reserveEntries h q := ⟨_, rfl⟩
  have falls : u.fallsLaw never never := hu ▸ fallsLaw_reserve free c ct law
  have record : ∀ g, u.record? g = if h = g then some (createdRecord r q) else s.record? g := fun g => by
    rw [hu]; exact record?_setRecord s h g _
  have ws : ∀ x, u.ws x = s.ws x := fun x => by rw [hu]; cases x <;> rfl
  have own : ((s.ws r).holdCreate h q).handles = (s.ws r).handles ++ [h] := rfl
  rw [← hu]
  refine (fallbackCountLaw_iff _).2 ⟨fallsLaw_setWs r _ falls, fun x => ?_, ?_, fun x g hg => ?_⟩
  · rw [ws_setWs]
    split
    · next hx =>
      rw [own, show ((s.ws r).holdCreate h q).edits = (s.ws r).edits ++ [(Edit.create h q, (s.ws r).tolerance)] from rfl,
        creates_append, handles]
      rfl
    · rw [ws, handles]
  · have parts := List.nodup_append.1 nodup
    have site : h ∉ s.siteWs.handles := fresh .site
    have net : h ∉ s.netWs.handles := fresh .network
    have wsite : u.siteWs = s.siteWs := ws .site
    have wnet : u.netWs = s.netWs := ws .network
    cases r
    · change ((s.siteWs.handles ++ [h]) ++ u.netWs.handles).Nodup
      rw [wnet]
      grind
    · change (u.siteWs.handles ++ (s.netWs.handles ++ [h])).Nodup
      rw [wsite]
      grind
  · rw [isReserved_setWs]
    have old : ∀ x, g ∈ (s.ws x).handles → u.isReserved g := fun x hx => by
      obtain ⟨y, hy, hs⟩ := reserved x g hx
      refine ⟨y, ?_, hs⟩
      rw [record, if_neg]
      · exact hy
      · rintro rfl
        exact fresh x hx
    rw [ws_setWs] at hg
    split at hg
    · rcases List.mem_append.1 hg with hg | hg
      · exact old r hg
      · rw [List.mem_singleton.1 hg]
        exact ⟨_, by rw [record, if_pos rfl], rfl⟩
    · rw [ws] at hg
      exact old x hg

/-! ### Every act -/

theorem lawful_fallbackCountLaw : Lawful State.fallbackCountLaw where
  reset s h := fallbackCountLaw_frame h.symm fallbackCountLaw_reset
  frame s t h := fallbackCountLaw_frame h
  touch s h x y c hx hy := fallbackCountLaw_touch c hx hy
  smap _ _ _ _ _ p := p
  update s u rest c hu := fallbackCountLaw_congr (ws_of_sides (sides_takeUpdate u))
    (fun _ => isReserved_takeFirst) ((steady_fallsLaw _ _).update s u rest c hu)
  move s k x c hx := fallbackCountLaw_congr (fun r => by cases r <;> rfl) (fun _ => isReserved_of_records rfl)
    ((steady_fallsLaw _ _).move s k x c hx)
  entry _ _ _ _ _ p := p
  freed _ _ _ _ _ _ p := p
  pass s e q c _ _ _ p := fallbackCountLaw_passEntry c p
  fail s e cd c _ := fallbackCountLaw_splices c ((kept_failEntry s e cd).canonical c) (splices_failEntry e cd)
  cancel s e c _ := fallbackCountLaw_splices c ((kept_dropEntry s e).canonical c) (splices_dropEntry e)
  ended s r o c p := fallbackCountLaw_endBatch r o c p
  immediate s r o q c _ _ h p := fallbackCountLaw_commit o c h p
  deferred s r q t oc e n c _ _ ha p :=
    have ca := (kept_armEntries _ _ _ _ _ _ _ _).canonical c
    fallbackCountLaw_endBatch r oc ca (fallbackCountLaw_splices c ca (splices_armEntries ha) p)
  opened s r w he hh p := fallbackCountLaw_setWs (by rw [he, hh]; rfl) (.inl hh) p
  hold s r e hc _ p := by
    obtain ⟨-, handles, -⟩ := (fallbackCountLaw_iff s).1 p
    refine fallbackCountLaw_setWs ?_ (.inr rfl) p
    have none : e.created? = none := by
      cases e with
      | create h c => exact absurd rfl (hc h c)
      | amend _ | retire _ | slot _ | setLeg _ => rfl
    rw [show ((s.ws r).hold e).edits = (s.ws r).edits ++ [(e, (s.ws r).tolerance)] from rfl, creates_append, none,
      Option.toList_none, List.append_nil]
    exact handles r
  create s r q h t c _ _ e p := by
    have ct := (kept_reserveRecord s e).canonical c
    obtain ⟨rfl, -, low, -, -⟩ := reserveRecord_eq_ok e
    exact fallbackCountLaw_create (record?_of_lowestFree low) c ct p

end

/-- Settles O58: the on-air counts and the use counts are kept by every act. -/
theorem everyStepKeepsTheUseCounts : Obligations.EveryStepKeepsTheUseCounts :=
  ⟨fun _ _ c p h => runs_step lawful_onAirLaw c p h, fun _ _ c _ p h => runs_step lawful_fallbackCountLaw c p h⟩

end Sys2Proof.Machine
end

