-- ==== Sys2Proof/Proofs/Resets.lean ====
section
/-! RESETN and the events while it is asserted (O6). -/

namespace Sys2Proof.Machine

section
variable {s t : State}

theorem awake_of_asserted (h : s.phase = .asserted) (act : State → State) : s.awake act = s := if_pos h

theorem awake_of_not_asserted (h : s.phase ≠ .asserted) (act : State → State) : s.awake act = act s := if_neg h

theorem whenRunning_of_asserted (h : s.phase = .asserted) (act : State → State) : s.whenRunning act = s :=
  if_neg (by rw [h]; nofun)

/-- A row that is guarded by its operands and does not fault. -/
theorem next_of_guarded {p : Prop} [Decidable p] {x : Host.Outcome State Fault Refusal} {f : Fault}
    (h : (if p then x else .fault f) = .next t) : x = .next t := by
  split at h
  · exact h
  · cases h

/-- While RESETN is asserted only its release, and its assertion again, change the part (R181; log entry 7). -/
theorem still_of_asserted {c : Instr} (h : s.phase = .asserted) (h1 : c ≠ .resetnAsserted) (h2 : c ≠ .resetnReleased)
    (e : exec c s = .next t) : t = s := by
  have awake : ∀ {act : State → State},
      (Host.Outcome.next (s.awake act) : Host.Outcome State Fault Refusal) = .next t → t = s := fun e => by
    rw [awake_of_asserted h] at e
    cases e
    rfl
  have waits : ∀ {act : State → State},
      (Host.Outcome.next (s.whenRunning act) : Host.Outcome State Fault Refusal) = .next t → t = s := fun e => by
    rw [whenRunning_of_asserted h] at e
    cases e
    rfl
  have transacts : ∀ {k f hand}, (Host.Outcome.next (s.transact k f hand) : Host.Outcome State Fault Refusal) = .next t →
      t = s := waits
  have batch : ∀ {k owner f}, (Host.Outcome.next (siteBatch k owner f s) : Host.Outcome State Fault Refusal) = .next t →
      t = s := transacts
  have direct : ∀ {k owner f}, (Host.Outcome.next (siteDirect k owner f s) : Host.Outcome State Fault Refusal) = .next t →
      t = s := transacts
  cases c with
  | openBatch _ | closeBatch _ | abandonBatch _ | apply _ | createRecord _ | amendRecord _ | retireRecord _
  | bindSlot _ | unbindSlot _ | setLeg _ => exact batch e
  | cancelSplice _ | resumeSlot _ | armProbe _ | setInput _ | setLegOwner _
  | setStationTime _ | setBatchLimit _ | setRelay _ | setCounterPair _ | setAttentionMask _ | clearAttention _
  | readRecord _ | findRecord _ | listRecords _ | readLeg _ | readSlot _ | readSplice _ | readOutcome _
  | readCounters _ | readInput _ | queryCarriage _ | readAttention _ | readRelay _ => exact direct e
  | clearAll _ => exact transacts e
  | replyRead _ => exact waits e
  | unknownRequest k f =>
    change (if catalogue.contains k.toNat then Host.Outcome.fault Fault.otherRow else _) = Host.Outcome.next t at e
    split at e
    · cases e
    · exact transacts e
  | statusPoll _ _ => exact waits (next_of_guarded e)
  | clearingAct | batchIdleExpired _ | commitAct _ | queueHeadTaken | lossNotice | restorationNotice | onAirUpdate
  | stationClockTick | cueMatured => exact awake e
  | syncAcquired _ _ | syncCandidateGivenUp _ _ | lossWindowExpired _ | restoreHoldEnded _
  | switchDeadlineExpired _ _ | outputOpportunity _ | directoryPeriodExpired _ | timeMatcherOccurs _ _ =>
    exact awake (next_of_guarded e)
  | missingSyncByte _ | packetReceived _ _ _ => exact awake (next_of_guarded (next_of_guarded e))
  | resetnAsserted => exact absurd rfl h1
  | resetnReleased => exact absurd rfl h2
  | resetReleaseTimeElapsed =>
    change Host.Outcome.next (if s.phase = .settling then _ else s) = _ at e
    rw [if_neg (by rw [h]; nofun)] at e
    cases e
    rfl

theorem otherStart_reset : State.reset.otherStart :=
  ⟨fun _ => rfl, fun _ => rfl, rfl, fun _ => ⟨rfl, rfl, rfl, rfl, rfl⟩, fun _ _ => rfl, fun _ _ => rfl,
    fun r => by cases r <;> rfl, fun r => by cases r <;> rfl, rfl, fun _ => ⟨rfl, rfl⟩, rfl, rfl, rfl, rfl, rfl, rfl, rfl⟩

theorem slotStart_reset : State.reset.slotStart := ⟨fun _ _ => rfl, fun _ => rfl, rfl, rfl, fun _ => ⟨rfl, rfl⟩⟩

theorem spliceStart_reset : State.reset.spliceStart :=
  ⟨fun _ => ⟨rfl, rfl, rfl, rfl, rfl, rfl⟩, rfl, fun _ _ => rfl, fun _ => rfl, rfl, rfl⟩

theorem exec_resetnReleased (s : State) : exec .resetnReleased s
    = .next (if s.phase = .asserted then { State.reset with pending := s.pending } else s) := rfl

theorem exec_resetReleaseTimeElapsed (s : State) : exec .resetReleaseTimeElapsed s
    = .next (if s.phase = .settling then { s with phase := .running } else s) := rfl

end

/-- Settles O6. -/
theorem resetTakesThePowerOnValues : Obligations.ResetTakesThePowerOnValues := by
  refine ⟨fun s => ⟨_, rfl, rfl, rfl, rfl⟩, fun _ _ _ h h1 h2 e => still_of_asserted h h1 h2 e, fun s h => ?_,
    fun s h => ?_, fun s h => ?_, fun s h => ?_, otherStart_reset, slotStart_reset, spliceStart_reset, rfl, rfl⟩
  · rw [exec_resetnReleased, if_pos h]
    exact ⟨_, rfl, otherStart_reset, slotStart_reset, spliceStart_reset, rfl, rfl, rfl⟩
  · rw [exec_resetnReleased, if_neg h]
  · rw [exec_resetReleaseTimeElapsed, if_pos h]
  · rw [exec_resetReleaseTimeElapsed, if_neg h]

end Sys2Proof.Machine
end

