-- ==== Sys2Proof/Proofs/Direct.lean ====
section
/-! The direct requests (O5, O10, O14): a ready port hands the request to its owner, whose answer stands in the reply. -/

namespace Sys2Proof.Machine

/-! ### Fixed fields (R182) -/

theorem fields_one {n v : Nat} (h : v < 256 ^ n) : fieldsOf [n] (packed [(n, v)]) = some [v] :=
  fieldsOf_packed (l := [(n, v)]) fun x hx => by
    rw [List.mem_singleton.1 hx]
    exact h

theorem fields_two {n v m u : Nat} (h : v < 256 ^ n) (h' : u < 256 ^ m) :
    fieldsOf [n, m] (packed [(n, v), (m, u)]) = some [v, u] :=
  fieldsOf_packed (l := [(n, v), (m, u)]) (by simp [h, h'])

theorem fields_three {n v m u k w : Nat} (h : v < 256 ^ n) (h' : u < 256 ^ m) (h'' : w < 256 ^ k) :
    fieldsOf [n, m, k] (packed [(n, v), (m, u), (k, w)]) = some [v, u, w] :=
  fieldsOf_packed (l := [(n, v), (m, u), (k, w)]) (by simp [h, h', h''])

theorem parseReadRecord_packed {c h : Nat} (hc : c < 256) (hh : h < 65536) : parseReadRecord (packed [(1, c), (2, h)])
    = if c < 2 ∧ 1 ≤ h ∧ h ≤ 1023 then some (c.testBit 0, h) else none := by
  unfold parseReadRecord
  rw [fields_two (by omega) (by omega)]
  simp only [presenceOk, Bool.and_eq_true, decide_eq_true_eq, handleOk_iff, pow_one]

theorem parseReadCounters_packed {c k n : Nat} (hc : c < 256) (hk : k < 256) (hn : n < 256) :
    parseReadCounters (packed [(1, c), (1, k), (1, n)])
      = if c < 2 then
          if k = 0 ∧ n < 24 then some (c.testBit 0, .feed n)
          else if k = 1 ∧ n < 8 then some (c.testBit 0, .input n) else none
        else none := by
  unfold parseReadCounters
  rw [fields_three (by omega) (by omega) (by omega)]
  simp only [presenceOk, decide_eq_true_eq, pow_one]
  rfl

/-! ### Answers -/

section
variable {s : State} {k : Byte} {owner : Owner}

/-- A request of SITE at a ready port (R171). -/
theorem exec_direct {p : List Byte} {t : State} {a : Answer} (hs : s.ready) (hp : p.length ≤ 507)
    (h : owner (s.accepted p.length) .site p = (t, a)) :
    (Host.Outcome.next (siteDirect k owner (requestFrame k p) s) : Host.Outcome State Fault Refusal)
      = .next (t.replied k a) := by
  rw [siteDirect_ready s hs hp, h]

/-- A request whose parameters are laid out in `n` bytes. -/
theorem exec_packed {l : List (Nat × Nat)} {n : Nat} {t : State} {a : Answer} (hs : s.ready)
    (len : (l.map (·.1)).sum = n) (hn : n ≤ 507) (h : owner (s.accepted n) .site (packed l) = (t, a)) :
    (Host.Outcome.next (siteDirect k owner (requestFrame k (packed l)) s) : Host.Outcome State Fault Refusal)
      = .next (t.replied k a) := by
  rw [← len, ← length_packed] at hn h
  exact exec_direct hs hn h

/-- The owner refuses the parameters with BAD_FIELD and changes nothing (R173). -/
def refuses (owner : Owner) (p : List Byte) : Prop := ∀ s r, owner s r p = (s, .refused .badField)

theorem exec_refused {p : List Byte} (hs : s.ready) (hp : p.length ≤ 507) (h : refuses owner p) :
    (Host.Outcome.next (siteDirect k owner (requestFrame k p) s) : Host.Outcome State Fault Refusal)
      = .next ((s.accepted p.length).replied k (.refused .badField)) :=
  exec_direct hs hp (h _ _)

theorem exec_refused_packed {l : List (Nat × Nat)} (hs : s.ready) (hl : (l.map (·.1)).sum ≤ 507)
    (h : refuses owner (packed l)) :
    (Host.Outcome.next (siteDirect k owner (requestFrame k (packed l)) s) : Host.Outcome State Fault Refusal)
      = .next ((s.accepted (packed l).length).replied k (.refused .badField)) :=
  exec_refused hs (by rw [length_packed]; exact hl) h

end

/-! ### Bad parameters (R173) -/

theorem parseSetInput_short {p : List Byte} (h : p.length < 2) : parseSetInput p = none := by
  rw [Option.eq_none_iff_forall_ne_some]
  intro c hc
  unfold parseSetInput at hc
  simp only [Option.bind_eq_bind, Option.bind_eq_some_iff, Prod.exists] at hc
  obtain ⟨_, _, h1, _, _, h2, -⟩ := hc
  have := getNat_length h1
  have := getNat_length h2
  omega

/-- Parameters of a length that the request cannot have (R182). -/
theorem refused_of_length {s : State} (hs : s.ready) {row : Byte × (Frame → Instr)} (hrow : row ∈ directRows)
    {p : List Byte} (hp : p.length ≤ 507) (h : (row.1, p.length) ∉ directLengths) :
    exec (row.2 (requestFrame row.1 p)) s = .next ((s.accepted p.length).replied row.1 (.refused .badField)) := by
  have fields : ∀ {ns : List Nat}, (row.1, ns.sum) ∈ directLengths → fieldsOf ns p = none := fun mem =>
    fieldsOf_of_length_ne fun e => h (e ▸ mem)
  have refused : ∀ {k : Byte} {owner : Owner}, refuses owner p →
      (Host.Outcome.next (siteDirect k owner (requestFrame k p) s) : Host.Outcome State Fault Refusal)
        = .next ((s.accepted p.length).replied k (.refused .badField)) := exec_refused hs hp
  simp only [directRows, List.mem_cons, List.not_mem_nil, or_false] at hrow
  rcases hrow with rfl | rfl | rfl | rfl | rfl | rfl | rfl | rfl | rfl | rfl | rfl | rfl | rfl | rfl | rfl | rfl | rfl
    | rfl | rfl | rfl | rfl | rfl | rfl
  · exact refused fun s r => by unfold ownCancelSplice; rw [fields (ns := [1]) (by decide)]
  · exact refused fun s r => by unfold ownResumeSlot; rw [fields (ns := [1, 1]) (by decide)]
  · exact refused fun s r => by unfold ownArmProbe; rw [fields (ns := [2]) (by decide)]
  · refine refused fun s r => ?_
    have none : parseSetInput p = none := by
      by_cases short : p.length < 2
      · exact parseSetInput_short short
      · refine parseSetInput_long ?_
        by_contra long
        refine h (List.mem_append_right _ (List.mem_map.2 ⟨p.length, List.mem_range'_1.2 ⟨?_, ?_⟩, rfl⟩)) <;> omega
    unfold ownSetInput
    rw [none]
  · exact refused fun s r => by unfold ownSetLegOwner; rw [fields (ns := [1, 1]) (by decide)]
  · exact refused fun s r => by unfold ownSetStationTime; rw [fields (ns := [5]) (by decide)]
  · exact refused fun s r => by unfold ownSetBatchLimit; rw [fields (ns := [4]) (by decide)]
  · exact refused fun s r => by unfold ownSetRelay; rw [fields (ns := [1]) (by decide)]; rfl
  · exact refused fun s r => by unfold ownSetCounterPair; rw [fields (ns := [1, 1, 1, 1]) (by decide)]
  · exact refused fun s r => by unfold ownSetAttentionMask; rw [fields (ns := [1]) (by decide)]
  · exact refused fun s r => by unfold ownClearAttention; rw [fields (ns := [1]) (by decide)]
  · exact refused fun s r => by unfold ownReadRecord parseReadRecord; rw [fields (ns := [1, 2]) (by decide)]
  · exact refused fun s r => by unfold ownFindRecord; rw [fields (ns := [1, 2]) (by decide)]
  · exact refused fun s r => by unfold ownListRecords; rw [fields (ns := [2]) (by decide)]
  · exact refused fun s r => by unfold ownReadLeg; rw [fields (ns := [1]) (by decide)]
  · exact refused fun s r => by unfold ownReadSlot; rw [fields (ns := [1, 1]) (by decide)]
  · exact refused fun s r => by unfold ownReadSplice; rw [fields (ns := [1]) (by decide)]
  · exact refused fun s r => by unfold ownReadOutcome; rw [fields (ns := [1]) (by decide)]; rfl
  · exact refused fun s r => by unfold ownReadCounters parseReadCounters; rw [fields (ns := [1, 1, 1]) (by decide)]
  · exact refused fun s r => by unfold ownReadInput; rw [fields (ns := [1]) (by decide)]
  · exact refused fun s r => by unfold ownQueryCarriage; rw [fields (ns := [2, 3]) (by decide)]
  · refine refused fun s r => if_neg ?_
    rintro rfl
    exact h (by decide)
  · refine refused fun s r => if_neg ?_
    rintro rfl
    exact h (by decide)

/-- A CLEAR ALL with parameters (R180). -/
theorem clearAll_refused {s : State} (hs : s.ready) {p : List Byte} (hp : p.length ≤ 507) (hn : p ≠ []) :
    exec (.clearAll (requestFrame 0x7F#8 p)) s
      = .next ((s.accepted p.length).replied 0x7F#8 (.refused .badField)) := by
  obtain ⟨running, flight, idle, -⟩ := hs
  change Host.Outcome.next (s.transact 0x7F#8 (requestFrame 0x7F#8 p) _) = _
  rw [transact_good s hp running flight]
  dsimp only
  rw [accepted_eq s idle, if_neg hn]
  rfl

theorem handleOk_of_bad {h : Nat} (bad : h = 0 ∨ 1024 ≤ h) : ¬ handleOk h = true := by
  rw [handleOk_iff]
  omega

/-- Settles O5. -/
theorem badParametersAreRefused : Obligations.BadParametersAreRefused := by
  intro s hs refused
  have one : ∀ {v : Nat}, v < 256 → fieldsOf [1] (packed [(1, v)]) = some [v] := fun h => fields_one (by omega)
  refine ⟨fun row hrow p hp h => refused_of_length hs hrow hp h, fun p hp hn => clearAll_refused hs hp hn,
    fun c h hc hh bad => ?_, fun i n hi hn bad => ?_, fun h hh bad => ?_, fun f bad hf => ?_, fun f i hf hi bad => ?_,
    fun e bad he => ?_, fun r bad hr => ?_, fun c k n hc hk hn bad => ?_, fun i bad hi => ?_,
    fun h feeds hh bad => ?_, fun b bad hb => ?_⟩
  · refine exec_refused_packed (owner := ownReadRecord) hs (by decide : (1 + (2 + 0)) ≤ 507) fun s r => ?_
    unfold ownReadRecord
    rw [parseReadRecord_packed hc hh, if_neg (by omega)]
  · refine exec_refused_packed (owner := ownFindRecord) hs (by decide : (1 + (2 + 0)) ≤ 507) fun s r => ?_
    unfold ownFindRecord
    rw [fields_two (by omega) (by omega)]
    refine if_neg ?_
    unfold within
    simp only [Bool.and_eq_true, decide_eq_true_eq]
    omega
  · refine exec_refused_packed (owner := ownListRecords) hs (by decide : (2 + 0) ≤ 507) fun s r => ?_
    unfold ownListRecords
    rw [fields_one (by omega)]
    exact if_neg (handleOk_of_bad bad)
  · refine exec_refused_packed (owner := ownReadLeg) hs (by decide : (1 + 0) ≤ 507) fun s r => ?_
    unfold ownReadLeg
    rw [one hf]
    exact if_neg (by rw [feedOk_iff]; omega)
  · refine exec_refused_packed (owner := ownReadSlot) hs (by decide : (1 + (1 + 0)) ≤ 507) fun s r => ?_
    unfold ownReadSlot
    rw [fields_two (by omega) (by omega)]
    exact if_neg (by rw [Bool.and_eq_true, feedOk_iff, slotOk_iff]; omega)
  · refine exec_refused_packed (owner := ownReadSplice) hs (by decide : (1 + 0) ≤ 507) fun s r => ?_
    unfold ownReadSplice
    rw [one he]
    exact if_neg (by unfold Config.spliceEntries; omega)
  · refine exec_refused_packed (owner := ownReadOutcome) hs (by decide : (1 + 0) ≤ 507) fun s q => ?_
    obtain ⟨n, rfl⟩ := Nat.exists_eq_add_of_le' bad
    unfold ownReadOutcome
    rw [one hr]
    rfl
  · refine exec_refused_packed (owner := ownReadCounters) hs (by decide : (1 + (1 + (1 + 0))) ≤ 507) fun s r => ?_
    unfold ownReadCounters
    have none : parseReadCounters (packed [(1, c), (1, k), (1, n)]) = none := by
      rw [parseReadCounters_packed hc hk hn]
      split
      · rw [if_neg (by omega), if_neg (by omega)]
      · rfl
    rw [none]
  · refine exec_refused_packed (owner := ownReadInput) hs (by decide : (1 + 0) ≤ 507) fun s r => ?_
    unfold ownReadInput
    rw [one hi]
    exact if_neg (by omega)
  · refine exec_refused_packed (owner := ownQueryCarriage) hs (by decide : (2 + (3 + 0)) ≤ 507) fun s r => ?_
    unfold ownQueryCarriage
    rw [fields_two (by omega) feeds.isLt]
    exact if_neg (handleOk_of_bad bad)
  · refine exec_refused_packed (owner := ownSetRelay) hs (by decide : (1 + 0) ≤ 507) fun s r => ?_
    obtain ⟨n, rfl⟩ := Nat.exists_eq_add_of_le' bad
    unfold ownSetRelay
    rw [one hb]
    rfl

end Sys2Proof.Machine
end

