-- ==== Sys2Proof/Proofs/Writes.lean ====
section
/-! Reads with the clear option, and settings (O10, O14). -/

namespace Sys2Proof.Machine

section
variable {s : State}

/-! ### Counter pairs (R164) -/

theorem pair_foldl_setPair {up : Pair → Pair} (idem : ∀ x, up (up x) = up x) (l : List Nat) (k : Nat) :
    (l.foldl (fun s k => s.setPair k (up (s.pair k))) s).pair k = if k ∈ l then up (s.pair k) else s.pair k := by
  induction l generalizing s with
  | nil => rfl
  | cons a l ih =>
    rw [List.foldl_cons, ih, pair_setPair]
    by_cases h : a = k
    · subst h
      simp [idem]
    · have h' : ¬ k = a := fun e => h e.symm
      simp [h, h']

theorem foldl_setPair_eq (up : Pair → Pair) (l : List Nat) :
    ∃ v, l.foldl (fun s k => s.setPair k (up (s.pair k))) s = { s with pairs := v } := by
  induction l generalizing s with
  | nil => exact ⟨s.pairs, rfl⟩
  | cons a l ih =>
    obtain ⟨v, hv⟩ := ih (s := s.setPair a (up (s.pair a)))
    exact ⟨v, hv⟩

/-- A counter pair with its counters at 0. -/
def Pair.cleared (x : Pair) : Pair := { x with network := 0, regional := 0 }

theorem clearPairs_eq (s : State) (f : Nat) : s.clearPairs f
    = ((List.range 8).map (8 * f + ·)).foldl (fun s k => s.setPair k (s.pair k).cleared) s := by
  rw [List.foldl_map]
  rfl

theorem mem_pairs_of_leg (f k : Nat) : k ∈ (List.range 8).map (8 * f + ·) ↔ k / 8 = f := by
  simp only [List.mem_map, List.mem_range]
  exact ⟨fun ⟨n, hn, e⟩ => by omega, fun e => ⟨k % 8, by omega, by omega⟩⟩

theorem exists_clearPairs (s : State) (f : Nat) : ∃ v, s.clearPairs f = { s with pairs := v }
    ∧ ∀ k, Table.look (Pair.start k) v k = if k / 8 = f then (s.pair k).cleared else s.pair k := by
  obtain ⟨v, hv⟩ := foldl_setPair_eq (s := s) Pair.cleared ((List.range 8).map (8 * f + ·))
  refine ⟨v, (clearPairs_eq s f).trans hv, fun k => ?_⟩
  have pair := pair_foldl_setPair (s := s) (up := Pair.cleared) (fun _ => rfl) ((List.range 8).map (8 * f + ·)) k
  rw [hv] at pair
  simp only [mem_pairs_of_leg] at pair
  exact pair

theorem ownReadRecord_eq {s : State} (settled : s.settleCtab = s) {c h : Nat} (hc : c < 2) (h1 : 1 ≤ h) (h2 : h ≤ 1023) :
    ownReadRecord s .site (packed [(1, c), (2, h)])
      = (if c.testBit 0 then s.modRecord h fun x => { x with hit := false } else s, .taken (encRecord h (s.record? h))) := by
  unfold ownReadRecord
  rw [parseReadRecord_packed (by omega) (by omega), if_pos ⟨hc, h1, h2⟩]
  dsimp only
  rw [settled]

theorem ownReadCounters_feed (s : State) {c f : Nat} (hc : c < 2) (hf : f < 24) :
    ownReadCounters s .site (packed [(1, c), (1, 0), (1, f)])
      = (if c.testBit 0 then s.clearPairs f else s,
        .taken ((List.range 8).flatMap fun n => encPair (s.pair (8 * f + n)))) := by
  unfold ownReadCounters
  rw [parseReadCounters_packed (by omega) (by omega) (by omega), if_pos hc, if_pos ⟨rfl, hf⟩]

theorem ownReadCounters_input (s : State) {c i : Nat} (hc : c < 2) (hi : i < 8) :
    ownReadCounters s .site (packed [(1, c), (1, 1), (1, i)])
      = (if c.testBit 0 then s.countInput i fun _ => .zero else s, .taken (encCounters (s.input i).counters)) := by
  unfold ownReadCounters
  rw [parseReadCounters_packed (by omega) (by omega) (by omega), if_pos hc, if_neg nofun, if_pos ⟨rfl, hi⟩]

end

/-- Settles O10. -/
theorem readsThatClear : Obligations.ReadsThatClear := by
  refine ⟨fun h s hs h1 h2 => ?_, fun s hs => ⟨fun f hf => ?_, fun f hf => ?_, fun i hi => ?_, fun i hi => ?_, ?_⟩⟩
  · have settled := settleCtab_accepted s hs 3
    refine ⟨?_, fun free => ?_, fun x hx => ?_⟩
    · exact exec_packed (n := 3) hs rfl (by decide) (ownReadRecord_eq settled (by decide) h1 h2)
    · refine exec_packed (n := 3) hs rfl (by decide) ((ownReadRecord_eq settled (by decide) h1 h2).trans ?_)
      have free' : (s.accepted 3).record? h = none := free
      unfold State.modRecord
      rw [free']
      rfl
    · refine exec_packed (n := 3) hs rfl (by decide) ((ownReadRecord_eq settled (by decide) h1 h2).trans ?_)
      have hx' : (s.accepted 3).record? h = some x := hx
      unfold State.modRecord
      rw [hx']
      rfl
  · exact exec_packed (n := 3) hs rfl (by decide) (ownReadCounters_feed _ (by decide) hf)
  · obtain ⟨v, hv, pair⟩ := exists_clearPairs (s.accepted 3) f
    refine ⟨v, ?_, pair⟩
    rw [← hv]
    exact exec_packed (n := 3) hs rfl (by decide) (ownReadCounters_feed _ (by decide) hf)
  · exact exec_packed (n := 3) hs rfl (by decide) (ownReadCounters_input _ (by decide) hi)
  · exact exec_packed (n := 3) hs rfl (by decide) (ownReadCounters_input _ (by decide) hi)
  · exact exec_direct (owner := ownReadRelay) hs (by decide) rfl

/-! ### Settings (R21, R61, R118, R142, R177) -/

section
variable {s : State}

theorem mem_idleReached (r : Requester) : r ∈ s.idleReached
    ↔ ∃ t, (s.ws r).idle = some t ∧ 90 * (1000 * s.idleLimit) ≤ s.uptime - t := by
  have any : ∀ o : Option Nat, (o.any fun t => s.reached t (1000 * s.idleLimit)) = true
      ↔ ∃ t, o = some t ∧ 90 * (1000 * s.idleLimit) ≤ s.uptime - t := fun o => by
    cases o <;> simp [reached_iff]
  unfold State.idleReached
  rw [List.mem_filter, any]
  cases r <;> simp

theorem Zone.ofNat?_num (z : Zone) : Zone.ofNat? z.num = some z := by cases z <;> rfl

theorem Zone.num_lt (z : Zone) : z.num < 3 := by cases z <;> decide

theorem matureCues_of_none (h : ∀ c ∈ s.cues, s.clockReached c.maturity = false) : s.matureCues = s := by
  unfold State.matureCues
  have none : s.cues.filter (fun c => s.clockReached c.maturity) = [] :=
    List.filter_eq_nil_iff.2 fun c hc => by rw [h c hc]; nofun
  have all : s.cues.filter (fun c => !s.clockReached c.maturity) = s.cues :=
    List.filter_eq_self.2 fun c hc => by rw [h c hc]; rfl
  rw [none, all]
  rfl

/-- A station time that brings no cue and no TIME matcher is only written (R142). -/
theorem setClock_of_idle {t : StationTime} (ready : s.spsReady = s) (reports : s.reports = [])
    (cues : ∀ c ∈ s.cues, ({ s with clock := t } : State).clockReached c.maturity = false)
    (times : ∀ e m, ({ s with clock := t } : State).timeDue e m = false) : s.setClock t = { s with clock := t } := by
  unfold State.setClock State.testClock
  rw [ready, matureCues_of_none (s := { s with clock := t }) cues, testTimes_of_none _ times]
  exact takeReports_of_nil { s with clock := t } reports

end

/-- Settles O14. -/
theorem settingsAreWritten : Obligations.SettingsAreWritten := by
  refine ⟨fun s hs => ⟨fun b => ?_, fun n h1 h2 => ?_, fun n bad hn => ?_, fun f hf z => ?_, fun f z hf hz bad => ?_⟩,
    fun n s hs => ⟨fun hn cues times => ?_, fun bad hn => ?_⟩, fun h s hs hh => ⟨fun x h1 h2 hx live => ?_,
      fun h1 h2 reserved => ?_, fun bad => ?_⟩⟩
  · refine exec_packed (n := 1) (owner := ownSetRelay) hs rfl (by decide) ?_
    unfold ownSetRelay
    rw [fields_one (by cases b <;> decide)]
    cases b <;> rfl
  · refine ⟨({ s.accepted 4 with idleLimit := n } : State).idleReached,
      exec_packed (n := 4) (owner := ownSetBatchLimit) hs rfl (by decide) ?_, fun r => ?_⟩
    · unfold ownSetBatchLimit
      rw [fields_one (by omega)]
      exact if_pos (by unfold within; simp only [Bool.and_eq_true, decide_eq_true_eq]; omega)
    · exact mem_idleReached (s := { s.accepted 4 with idleLimit := n }) r
  · refine exec_packed (n := 4) (owner := ownSetBatchLimit) hs rfl (by decide) ?_
    unfold ownSetBatchLimit
    rw [fields_one (by omega)]
    exact if_neg (by unfold within; simp only [Bool.and_eq_true, decide_eq_true_eq]; omega)
  · have fields : fieldsOf [1, 1] (packed [(1, f), (1, z.num)]) = some [f, z.num] :=
      fields_two (by omega) (by have := z.num_lt; omega)
    split
    · next free =>
      refine exec_packed (n := 2) (owner := ownSetLegOwner) hs rfl (by decide) ?_
      unfold ownSetLegOwner
      rw [fields]
      dsimp only
      rw [Zone.ofNat?_num]
      dsimp only
      rw [if_pos ((feedOk_iff f).2 hf)]
      exact if_neg (by rw [show ((s.accepted 2).leg f).claim = none from free]; nofun)
    · next held =>
      refine exec_packed (n := 2) (owner := ownSetLegOwner) hs rfl (by decide) ?_
      unfold ownSetLegOwner
      rw [fields]
      dsimp only
      rw [Zone.ofNat?_num]
      dsimp only
      rw [if_pos ((feedOk_iff f).2 hf)]
      exact if_pos (Option.isSome_iff_ne_none.2 held)
  · refine exec_packed (n := 2) (owner := ownSetLegOwner) hs rfl (by decide) ?_
    unfold ownSetLegOwner
    rw [fields_two (by omega) (by omega)]
    dsimp only
    split
    · next y hy =>
      refine if_neg fun ok => ?_
      rw [feedOk_iff] at ok
      obtain ⟨m, rfl⟩ := Nat.exists_eq_add_of_le' (show 3 ≤ z by omega)
      cases hy
    · rfl
  · refine exec_packed (n := 5) (owner := ownSetStationTime) hs rfl (by decide) ?_
    unfold ownSetStationTime
    rw [fields_one (by omega)]
    dsimp only
    rw [if_pos hn, setClock_of_idle (spsReady_accepted s hs 5) hs.2.2.2.2.1 cues times]
  · refine exec_packed (n := 5) (owner := ownSetStationTime) hs rfl (by decide) ?_
    unfold ownSetStationTime
    rw [fields_one (by omega)]
    exact if_neg (by omega)
  · refine exec_packed (n := 2) (owner := ownArmProbe) hs rfl (by decide) ?_
    unfold ownArmProbe
    rw [fields_one (by omega)]
    dsimp only
    rw [if_pos ((handleOk_iff h).2 ⟨h1, h2⟩), settleCtab_accepted s hs, show (s.accepted 2).record? h = some x from hx]
    exact if_neg live
  · refine exec_packed (n := 2) (owner := ownArmProbe) hs rfl (by decide) ?_
    unfold ownArmProbe
    rw [fields_one (by omega)]
    dsimp only
    rw [if_pos ((handleOk_iff h).2 ⟨h1, h2⟩), settleCtab_accepted s hs]
    split
    · next x hx => exact if_pos (reserved x hx)
    · rfl
  · refine exec_packed (n := 2) (owner := ownArmProbe) hs rfl (by decide) ?_
    unfold ownArmProbe
    rw [fields_one (by omega)]
    exact if_neg (handleOk_of_bad bad)

end Sys2Proof.Machine
end

