-- ==== Sys2Proof/Proofs/Updates.lean ====
section
/-! The ON_AIR_UPDATE row (O38). -/

namespace Sys2Proof.Machine

section
variable {s : State}

theorem exec_onAirUpdate (awake : s.phase ≠ .asserted) (settled : s.ctabDue = []) :
    (s.updates = [] → exec .onAirUpdate s = .next s)
      ∧ ∀ u rest, s.updates = u :: rest → exec .onAirUpdate s = .next ({ s with updates := rest }.takeUpdate u) := by
  change (_ → Host.Outcome.next (s.awake _) = _) ∧ ∀ u rest, _ → Host.Outcome.next (s.awake _) = _
  rw [awake_of_not_asserted awake]
  dsimp only
  rw [settleCtab_of_nil s settled]
  exact ⟨fun none => by rw [none], fun u rest next => by rw [next]⟩

/-- An update changes the counts of two records, and frees one that it leaves (R14, R18). -/
theorem takeUpdate_counts (u : OnAirUpdate) :
    s.takeUpdate u = { s with records := (s.takeUpdate u).records, smap := (s.takeUpdate u).smap }
      ∧ (∀ h, (s.leaves u h → (s.takeUpdate u).record? h = none)
        ∧ (¬ s.leaves u h → (s.takeUpdate u).record? h = (s.record? h).map (Record.aired u h)))
      ∧ ∀ c, c ∈ (s.takeUpdate u).smap ↔ c ∈ s.smap ∧ ¬ s.leaves u c.2.handle := by
  obtain ⟨v, hv, ⟨stays, e⟩ | ⟨o, leaves, e⟩⟩ := takeUpdate_cases s u <;> rw [e]
  · exact ⟨rfl, fun h => ⟨fun l => absurd l (stays h), fun _ => hv h⟩,
      fun c => ⟨fun hc => ⟨hc, stays _⟩, fun hc => hc.1⟩⟩
  · have only : ∀ h, s.leaves u h ↔ o = h := fun h =>
      ⟨fun l => Option.some.inj (leaves.1.symm.trans l.1), fun e => e ▸ leaves⟩
    refine ⟨rfl, fun h => ?_, fun c => ?_⟩
    · rw [only, record?_freeRecord]
      exact ⟨fun e => if_pos e, fun e => (if_neg e).trans (hv h)⟩
    · rw [only]
      unfold State.freeRecord
      simp only [List.mem_filter, bne_iff_ne, ne_eq, eq_comm (a := o)]

end

/-- Settles O38. -/
theorem onAirUpdatesMoveTheCounts : Obligations.OnAirUpdatesMoveTheCounts := by
  intro u rest s awake settled
  obtain ⟨idle, takes⟩ := exec_onAirUpdate awake settled
  obtain ⟨frame, records, smap⟩ := takeUpdate_counts (s := { s with updates := rest }) u
  exact ⟨idle, fun next => ⟨_, takes u rest next, frame, records, smap⟩⟩

end Sys2Proof.Machine
end

