-- ==== Sys2Proof/Proofs/Cancels.lean ====
section
/-! CANCEL SPLICE (O31): what the cancellation of a waiting entry leaves. -/

namespace Sys2Proof.Machine

section
variable {s t u : State} {e : Nat}

/-- `u` comes from `s` by the cancellation of entry `e`: with it the edits end whose references are given up, its
reservations are released, and the entries are left as `left` has them (R15, R70, R156). -/
structure State.cancelled (s u : State) (e : Nat) (edits : List SlotEdit) (left : Nat → Entry) : Prop where
  frame : u = { s with records := u.records, slots := u.slots, entries := u.entries }
  record : ∀ h, u.record? h = (s.record? h).map fun r => { r with spliceRefs := r.spliceRefs - bindsOf edits h }
  slot : ∀ f < 24, ∀ i < 16, u.slot f i
    = if (s.slot f i).reserved = some e then { s.slot f i with reserved := none } else s.slot f i
  entry : ∀ d, u.entry d = left d

/-- The entry's own end, its partner having been seen to. -/
def State.endsOwn (s : State) (e : Nat) : State :=
  ((s.dropSpliceRefs (s.entry e).edits).passReservations e none).freeEntry e .cancelled none

theorem cancelled_endsOwn (s : State) (e : Nat) : s.cancelled (s.endsOwn e) e (s.entry e).edits
    fun d => if d = e then (s.entry e).freed .cancelled none else s.entry d := by
  obtain ⟨v, hv⟩ := dropSpliceRefs_eq s (s.entry e).edits
  obtain ⟨w, hw⟩ := passReservations_eq (s.dropSpliceRefs (s.entry e).edits) e none
  refine ⟨?_, fun h => ?_, fun f hf i hi => ?_, fun d => ?_⟩
  · unfold State.endsOwn
    rw [hw, hv]
    rfl
  · refine Eq.trans ?_ (record?_dropSpliceRefs s _ h)
    unfold State.record? State.endsOwn
    rw [records_freeEntry, records_passReservations]
  · have same : (s.dropSpliceRefs (s.entry e).edits).slotAt (slotKey f i) = s.slot f i := by rw [hv]; rfl
    unfold State.slot State.endsOwn State.freeEntry at *
    rw [slotAt_setEntry, slotAt_passReservations, same]
    have key : slotKey f i < 384 := by unfold slotKey; omega
    simp only [key, true_and]
  · unfold State.endsOwn
    rw [entry_freeEntry, entry_passReservations, entry_passReservations, entry_dropSpliceRefs, entry_dropSpliceRefs]
    simp only [eq_comm]

/-- What the entry's partner has given up before comes first. -/
theorem cancelled_after {first : List SlotEdit} {left : Nat → Entry}
    (frame : t = { s with records := t.records, entries := t.entries })
    (record : ∀ h, t.record? h = (s.record? h).map fun r => { r with spliceRefs := r.spliceRefs - bindsOf first h })
    (entry : ∀ d, d ≠ e → t.entry d = left d) (own : (t.entry e).edits = (s.entry e).edits)
    (freed : (t.entry e).freed .cancelled none = left e) :
    s.cancelled (t.endsOwn e) e (first ++ (s.entry e).edits) left := by
  obtain ⟨frame', record', slot', entry'⟩ := cancelled_endsOwn t e
  have slot : ∀ f i, t.slot f i = s.slot f i := fun f i => by rw [frame]; rfl
  refine ⟨?_, fun h => ?_, fun f hf i hi => ?_, fun d => ?_⟩
  · rw [frame', frame]
  · rw [record', record, Option.map_map, own]
    congr 1
    funext r
    simp only [Function.comp, bindsOf_append, Nat.sub_sub]
  · rw [slot' f hf i hi, slot]
  · rw [entry']
    split
    · next hd => rw [hd, freed]
    · next hd => exact entry d hd

theorem dropEntry_eq (e : Nat) : s.dropEntry e
    = (if (s.entry e).state = .held then s.clearPartner e else s.endHeldPartner e .cancelled none).endsOwn e := rfl

/-- An entry that waits without a HELD return is cancelled alone. -/
theorem cancelled_alone (waits : (s.entry e).state ≠ .held)
    (none : ∀ n, (s.entry e).role = some .original → (s.entry e).partner = some n → (s.entry n).state ≠ .held) :
    s.cancelled (s.dropEntry e) e (s.entry e).edits
      fun d => if d = e then (s.entry e).freed .cancelled .none else s.entry d := by
  have same : s.endHeldPartner e .cancelled .none = s := by
    unfold State.endHeldPartner Entry.heir
    split
    · next n hn =>
      split at hn
      · next role => exact if_neg (none n role hn)
      · cases hn
    · rfl
  rw [dropEntry_eq, if_neg waits, same]
  exact cancelled_endsOwn s e

/-- An original is cancelled with its HELD return. -/
theorem cancelled_with_return {n : Nat} (waits : (s.entry e).state ≠ .held) (role : (s.entry e).role = some .original)
    (partner : (s.entry e).partner = some n) (held : (s.entry n).state = .held) :
    s.cancelled (s.dropEntry e) e ((s.entry n).edits ++ (s.entry e).edits)
      fun d => if d = e then (s.entry e).freed .cancelled none
        else if d = n then (s.entry n).freed .cancelled none else s.entry d := by
  have ne : ¬ n = e := by
    rintro rfl
    exact waits held
  have ended : s.endHeldPartner e .cancelled none
      = (s.dropSpliceRefs (s.entry n).edits).freeEntry n .cancelled none := by
    unfold State.endHeldPartner Entry.heir
    rw [if_pos role, partner]
    exact if_pos held
  have entry : ∀ d, ((s.dropSpliceRefs (s.entry n).edits).freeEntry n .cancelled none).entry d
      = if n = d then (s.entry n).freed .cancelled none else s.entry d := fun d => by
    rw [entry_freeEntry, entry_dropSpliceRefs, entry_dropSpliceRefs]
  obtain ⟨v, hv⟩ := dropSpliceRefs_eq s (s.entry n).edits
  rw [dropEntry_eq, if_neg waits, ended]
  refine cancelled_after ?_ (record?_dropSpliceRefs s _) (fun d hd => ?_) ?_ ?_
  · rw [hv]
    rfl
  · rw [entry, if_neg hd]
    simp only [eq_comm]
  · rw [entry, if_neg ne]
  · rw [entry, if_neg ne, if_pos rfl]

/-- A HELD return is cancelled, and its original loses its partner field. -/
theorem cancelled_return (held : (s.entry e).state = .held) :
    s.cancelled (s.dropEntry e) e (s.entry e).edits fun d => if d = e then (s.entry e).freed .cancelled none
      else if (s.entry e).partner = some d then { s.entry d with partner := none } else s.entry d := by
  rw [dropEntry_eq, if_pos held]
  refine cancelled_after (first := []) ?_ (fun h => ?_) (fun d hd => ?_) ?_ ?_
  · unfold State.clearPartner
    split <;> rfl
  · unfold State.record?
    rw [records_clearPartner]
    exact (Option.map_id' ..).symm
  · rw [entry_clearPartner, if_neg hd]
  · rw [entry_clearPartner]
    split <;> rfl
  · rw [entry_clearPartner, if_pos rfl]
    split <;> rfl

/-! ### The owner (R156) -/

theorem cancelEntry_eq (settled : s.ctabDue = []) (e : Nat) : s.cancelEntry e = s.dropEntry e := by
  unfold State.cancelEntry
  rw [settleCtab_of_nil s settled]
  rfl

theorem ownCancelSplice_eq (idle : s.spsIdle) (settled : s.ctabDue = []) (r : Requester) (he : e < 256) :
    ownCancelSplice s r (packed [(1, e)])
      = if 64 ≤ e then (s, .refused .badField)
        else if (s.entry e).owner ≠ some r then (s, .refused .notOwner)
        else if (s.entry e).state = .free ∨ (s.entry e).state = .switching then (s, .refused .stateRefused)
        else (s.dropEntry e, .taken []) := by
  unfold ownCancelSplice
  rw [fields_one (by omega)]
  dsimp only
  rw [spsReady_of_idle s idle, cancelEntry_eq settled]
  unfold Config.spliceEntries
  by_cases large : 64 ≤ e
  · rw [if_neg (by omega), if_pos large]
  · rw [if_pos (by omega), if_neg large]

theorem not_held_of_waits {x : Entry} (h : x.state = .armed ∨ x.state = .primed) :
    x.state ≠ .held ∧ ¬ (x.state = .free ∨ x.state = .switching) := by
  rcases h with h | h <;> rw [h] <;> decide

end

/-- Settles O31. -/
theorem splicesAreCancelled : Obligations.SplicesAreCancelled := by
  intro e s hs he x run freed dropped released frame
  have idle : (s.accepted 1).spsIdle := hs.2.2.2.2
  have settled : (s.accepted 1).ctabDue = [] := hs.2.2.2.1
  have owner := ownCancelSplice_eq idle settled .site he
  have answer : ∀ {u : State} {a : Answer}, ownCancelSplice (s.accepted 1) .site (packed [(1, e)]) = (u, a) →
      run = .next (u.replied 0x20#8 a) := fun h => exec_packed (n := 1) hs rfl (by decide) h
  have cancels : e < 64 → x.owner = some .site → ¬ (x.state = .free ∨ x.state = .switching) →
      run = .next (((s.accepted 1).dropEntry e).replied 0x20#8 (.taken [])) := fun h64 own waits => by
    refine answer (owner.trans ?_)
    rw [if_neg (by omega), if_neg (show ¬ ((s.accepted 1).entry e).owner ≠ some .site from not_not.2 own)]
    exact if_neg waits
  refine ⟨fun h64 => answer (owner.trans (if_pos h64)), fun h64 other => answer (owner.trans ?_),
    fun h64 own ended => answer (owner.trans ?_), fun h64 own waits alone => ?_, fun h64 own waits n role partner held => ?_,
    fun h64 own held => ?_⟩
  · rw [if_neg (by omega)]
    exact if_pos other
  · rw [if_neg (by omega), if_neg (show ¬ ((s.accepted 1).entry e).owner ≠ some .site from not_not.2 own)]
    exact if_pos ended
  · obtain ⟨notHeld, notOver⟩ := not_held_of_waits waits
    obtain ⟨same, record, slot, entry⟩ := cancelled_alone (s := s.accepted 1) notHeld alone
    exact ⟨_, cancels h64 own notOver, same, record, slot, entry⟩
  · obtain ⟨notHeld, notOver⟩ := not_held_of_waits waits
    obtain ⟨same, record, slot, entry⟩ := cancelled_with_return (s := s.accepted 1) notHeld role partner held
    exact ⟨_, cancels h64 own notOver, same, record, slot, entry⟩
  · obtain ⟨same, record, slot, entry⟩ := cancelled_return (s := s.accepted 1) held
    exact ⟨_, cancels h64 own (by rw [held]; decide), same, record, slot, entry⟩

end Sys2Proof.Machine
end

