-- ==== Sys2Proof/Proofs/Moved.lean ====
section
/-! What moves of slots hand on: updates, marks, leg events and reports (R78 to R80, R86). -/

namespace Sys2Proof.Machine

section
variable {s t u v : State}

/-! ### Marks (R86) -/

theorem mark_foldl_setMark {f g q : Nat} (l : List Nat) (hl : ∀ p ∈ l, p < 8192) (hq : q < 8192) :
    (l.foldl (fun s p => s.setMark f p true) s).mark g q = true ↔ s.mark g q = true ∨ (g = f ∧ q ∈ l) := by
  induction l generalizing s with
  | nil => simp
  | cons p l ih =>
    have hp : p < 8192 := hl p (List.mem_cons_self ..)
    have key : pidKey f p = pidKey g q ↔ f = g ∧ p = q := by
      unfold pidKey
      omega
    rw [List.foldl_cons, ih fun x hx => hl x (List.mem_cons_of_mem _ hx), mark_setMark, List.mem_cons]
    by_cases e : pidKey f p = pidKey g q
    · obtain ⟨hf, hp'⟩ := key.1 e
      rw [if_pos e]
      exact ⟨fun _ => .inr ⟨hf.symm, .inl hp'.symm⟩, fun _ => .inl rfl⟩
    · rw [if_neg e]
      rw [key] at e
      refine or_congr_right (and_congr_right fun hg => ⟨.inr, fun h => h.resolve_left fun hq' => e ⟨hg.symm, hq'.symm⟩⟩)

theorem mark_markRange {f b g q : Nat} (hb : b ≤ 0x1FF7) (hq : q < 8192) :
    (s.markRange f b).mark g q = true ↔ s.mark g q = true ∨ (g = f ∧ b ≤ q ∧ q < b + 8) := by
  have list : s.markRange f b = ((List.range 8).map (b + ·)).foldl (fun s p => s.setMark f p true) s := by
    rw [List.foldl_map]
    rfl
  rw [list, mark_foldl_setMark _ (fun p hp => ?_) hq]
  · refine or_congr_right (and_congr_right fun _ => ?_)
    simp only [List.mem_map, List.mem_range]
    exact ⟨fun ⟨n, hn, e⟩ => by omega, fun h => ⟨q - b, by omega, by omega⟩⟩
  · simp only [List.mem_map, List.mem_range] at hp
    obtain ⟨n, hn, e⟩ := hp
    omega

theorem mark_congr (h : t.marks = s.marks) (g q : Nat) : t.mark g q = s.mark g q := by
  unfold State.mark
  rw [h]

/-- The binding whose range a change of source makes due (R86; log entry 20). -/
def rangeBinding (x y : Slot) : Option Binding := y.planned.or x.planned

theorem rangeBase_eq (x y : Slot) : rangeBase x y = (rangeBinding x y).map (·.base) := by
  unfold rangeBase rangeBinding
  cases y.planned <;> rfl

theorem mark_changeSource {f g q : Nat} {x y : Slot} (base : ∀ b, rangeBinding x y = some b → b.base ≤ 0x1FF7)
    (hq : q < 8192) : (s.changeSource f x y).mark g q = true ↔ s.mark g q = true
      ∨ (g = f ∧ x.source ≠ y.source ∧ ∃ b, rangeBinding x y = some b ∧ b.base ≤ q ∧ q < b.base + 8) := by
  unfold State.changeSource
  split
  · next same => simp [same]
  · next other =>
    dsimp only
    rw [rangeBase_eq]
    cases hb : rangeBinding x y with
    | none => simp [State.mark]
    | some b =>
      refine (mark_markRange (s := { s with updates := s.updates ++ [⟨x.source, y.source⟩] }) (base b hb) hq).trans ?_
      simp [State.mark, other]

/-! ### One move -/

theorem updates_changeSource (f : Nat) (x y : Slot) : (s.changeSource f x y).updates
    = s.updates ++ if x.source = y.source then [] else [⟨x.source, y.source⟩] := by
  unfold State.changeSource
  split
  · simp
  · dsimp only
    split
    · next b _ =>
      obtain ⟨w, hw⟩ := markRange_eq { s with updates := s.updates ++ [⟨x.source, y.source⟩] } f b
      rw [hw]
    · rfl

theorem pairs_report_congr (h : s.pairs = t.pairs) (f : Nat) (e : LegEvent) (c : ProgClass) (n : Nat) :
    (s.report f e c n).pairs = (t.report f e c n).pairs := by
  unfold State.report
  generalize List.range 8 = l
  induction l generalizing s t with
  | nil => exact h
  | cons a l ih =>
    have pair : ∀ k, s.pair k = t.pair k := fun k => by
      unfold State.pair
      rw [h]
    refine ih (?_ : (s.setPair _ _).pairs = (t.setPair _ _).pairs)
    unfold State.setPair
    rw [pair, h]

theorem pairs_reportFor_congr (records : s.records = t.records) (h : s.pairs = t.pairs) (f : Nat) (e : LegEvent)
    (n m : Nat) : (s.reportFor f e n m).pairs = (t.reportFor f e n m).pairs := by
  unfold State.reportFor State.record?
  rw [records]
  split
  · exact pairs_report_congr h f e _ m
  · exact h

/-- A leg event of a slot, named by its planned record (R79). -/
def State.reportEvent (s : State) (f : Nat) (o : Option LegEvent) (y : Slot) : State :=
  match o, y.planned with
  | some e, some b => s.reportFor f e b.handle 0
  | _, _ => s

theorem reportMove_eq_event (f : Nat) (m : Move) : s.reportMove f m = s.reportEvent f m.event m.slot := rfl

theorem pairs_reportEvent_congr (records : s.records = t.records) (h : s.pairs = t.pairs) (f : Nat)
    (o : Option LegEvent) (y : Slot) : (s.reportEvent f o y).pairs = (t.reportEvent f o y).pairs := by
  unfold State.reportEvent
  split
  · exact pairs_reportFor_congr records h f _ _ 0
  · exact h

theorem reportEvent_eq (f : Nat) (o : Option LegEvent) (y : Slot) : ∃ v, s.reportEvent f o y = { s with pairs := v } := by
  unfold State.reportEvent
  split
  · exact reportFor_eq s f _ _ 0
  · exact ⟨s.pairs, rfl⟩

/-- The report of a slot that has left PENDING (R80). -/
def State.leftReport (s : State) (f i : Nat) (x y : Slot) : List SlotReport :=
  if x.onAir = .pending ∧ y.onAir ≠ .pending ∧ s.trackers f i ≠ [] then [⟨f, i, s.trackers f i⟩] else []

theorem leftReport_of_left {f i : Nat} {x y : Slot} (left : x.onAir = .pending ∧ y.onAir ≠ .pending) :
    s.leftReport f i x y = if s.trackers f i = [] then [] else [⟨f, i, s.trackers f i⟩] := by
  unfold State.leftReport
  by_cases none : s.trackers f i = []
  · rw [if_pos none, if_neg fun h => h.2.2 none]
  · rw [if_neg none, if_pos ⟨left.1, left.2, none⟩]

theorem leftReport_of_stays {f i : Nat} {x y : Slot} (stays : ¬ (x.onAir = .pending ∧ y.onAir ≠ .pending)) :
    s.leftReport f i x y = [] := if_neg fun h => stays ⟨h.1, h.2.1⟩

theorem trackers_congr (h : t.entries = s.entries) (f i : Nat) : t.trackers f i = s.trackers f i := by
  unfold State.trackers State.entry
  rw [h]

/-- What one move hands on. -/
structure State.moves (s u : State) (f i : Nat) (x y : Slot) (o : Option LegEvent) : Prop where
  frame : u = { s with
    slots := u.slots, updates := u.updates, marks := u.marks, pairs := u.pairs, reports := u.reports }
  slot : ∀ k, u.slotAt k = if slotKey f i = k then y else s.slotAt k
  updates : u.updates = s.updates ++ if x.source = y.source then [] else [⟨x.source, y.source⟩]
  marks : (∀ b, x.planned = some b ∨ y.planned = some b → b.base ≤ 0x1FF7) → ∀ g q, q < 8192 →
    (u.mark g q = true ↔ s.mark g q = true ∨ (g = f ∧ x.marks y q))
  pairs : u.pairs = (s.reportEvent f o y).pairs
  reports : u.reports = s.reports ++ s.leftReport f i x y

/-- The ranges that one move makes due: those of a change of source. -/
def rangesDue (f : Nat) (x y : Slot) (g q : Nat) : Prop :=
  g = f ∧ x.source ≠ y.source ∧ ∃ b, rangeBinding x y = some b ∧ b.base ≤ q ∧ q < b.base + 8

theorem applyMove_eq_moved {f i : Nat} {x : Slot} {m : Move} (hx : s.slot f i = x) : ∃ b, s.applyMove f i m
      = { s.setSlotAt (slotKey f i) m.slot with
          updates := s.updates ++ if x.source = m.slot.source then [] else [⟨x.source, m.slot.source⟩]
          marks := b, pairs := (s.reportEvent f m.event m.slot).pairs
          reports := s.reports ++ s.leftReport f i x m.slot }
    ∧ ((∀ b, x.planned = some b ∨ m.slot.planned = some b → b.base ≤ 0x1FF7) → ∀ g q, q < 8192 →
      ((s.applyMove f i m).mark g q = true ↔ s.mark g q = true ∨ rangesDue f x m.slot g q)) := by
  obtain ⟨a, b, changed⟩ := changeSource_eq (s.setSlotAt (slotKey f i) m.slot) f x m.slot
  obtain ⟨c, moved⟩ := reportEvent_eq (s := (s.setSlotAt (slotKey f i) m.slot).changeSource f x m.slot) f m.event m.slot
  have updates := updates_changeSource (s := s.setSlotAt (slotKey f i) m.slot) f x m.slot
  rw [changed] at updates
  have pairs : c = (s.reportEvent f m.event m.slot).pairs := by
    rw [changed] at moved
    refine (congrArg State.pairs moved).symm.trans (pairs_reportEvent_congr ?_ ?_ f m.event m.slot) <;> rfl
  have apply : s.applyMove f i m = { s.setSlotAt (slotKey f i) m.slot with
      updates := a, marks := b, pairs := c, reports := s.reports ++ s.leftReport f i x m.slot } := by
    unfold State.applyMove
    dsimp only
    rw [hx, reportMove_eq_event, moved, changed, reportLeft_eq]
    by_cases pending : x.onAir = .pending ∧ m.slot.onAir ≠ .pending
    · rw [if_pos (by simpa using pending), leftReport_of_left pending]
      rfl
    · rw [if_neg (by simpa using pending), leftReport_of_stays pending, List.append_nil]
      rfl
  refine ⟨b, ?_, fun base g q hq => ?_⟩
  · rw [apply, ← pairs]
    exact congrArg (fun u : List OnAirUpdate => ({ s.setSlotAt (slotKey f i) m.slot with
      updates := u, marks := b, pairs := c, reports := s.reports ++ s.leftReport f i x m.slot } : State)) updates
  · have range : ∀ z, rangeBinding x m.slot = some z → z.base ≤ 0x1FF7 := fun z hz => by
      unfold rangeBinding at hz
      rw [Option.or_eq_some_iff] at hz
      exact base z (hz.elim .inr fun h => .inl h.2)
    have due := mark_changeSource (s := s.setSlotAt (slotKey f i) m.slot) (f := f) (g := g) range hq
    rw [changed] at due
    rw [apply]
    exact due

/-- One move after marks of its own have been made due. -/
theorem moves_after_marks {mk : Table Bool} {f i : Nat} {x : Slot} {m : Move} (hx : s.slot f i = x)
    (marks : (∀ b, x.planned = some b ∨ m.slot.planned = some b → b.base ≤ 0x1FF7) → ∀ g q, q < 8192 →
      (({ s with marks := mk } : State).mark g q = true ∨ rangesDue f x m.slot g q
        ↔ s.mark g q = true ∨ (g = f ∧ x.marks m.slot q))) :
    s.moves (({ s with marks := mk } : State).applyMove f i m) f i x m.slot m.event := by
  obtain ⟨b, apply, due⟩ := applyMove_eq_moved (s := { s with marks := mk }) (m := m) hx
  refine ⟨by rw [apply]; rfl, fun k => slotAt_applyMove { s with marks := mk } f i k m, by rw [apply],
    fun base g q hq => (due base g q hq).trans (marks base g q hq), ?_, by rw [apply]; rfl⟩
  rw [apply]
  exact pairs_reportEvent_congr (s := { s with marks := mk }) (t := s) rfl rfl f m.event m.slot

theorem marks_of_same {x y : Slot} (same : y.planned = x.planned) (q : Nat) : x.marks y q
    ↔ x.source ≠ y.source ∧ ∃ b, rangeBinding x y = some b ∧ b.base ≤ q ∧ q < b.base + 8 := by
  unfold Slot.marks rangeBinding
  rw [same, Option.or_self]
  constructor
  · rintro ⟨b, hb, h1, h2, other | ⟨a, ha, -, hne⟩⟩
    · exact ⟨other, b, hb, h1, h2⟩
    · rw [hb] at ha
      cases ha
      exact absurd rfl hne
  · rintro ⟨other, b, hb, h1, h2⟩
    exact ⟨b, hb, h1, h2, .inl other⟩

theorem not_marks_self (x : Slot) (q : Nat) : ¬ x.marks x q := by
  rw [marks_of_same rfl]
  exact fun h => h.1 rfl

theorem reportEvent_congr {f : Nat} {o p : Option LegEvent} {y : Slot} (h : ∀ b, y.planned = some b → o = p) :
    s.reportEvent f o y = s.reportEvent f p y := by
  unfold State.reportEvent
  cases hy : y.planned with
  | none => cases o <;> cases p <;> rfl
  | some b => rw [h b hy]

/-- A move that keeps the binding. -/
theorem moves_applyMove {f i : Nat} {x : Slot} {m : Move} (hx : s.slot f i = x) (same : m.slot.planned = x.planned) :
    s.moves (s.applyMove f i m) f i x m.slot m.event :=
  moves_after_marks (mk := s.marks) hx fun _ _ q _ =>
    or_congr_right (and_congr_right fun _ => (marks_of_same same q).symm)

theorem moves_refl (f i : Nat) : s.moves s f i (s.slot f i) (s.slot f i) none := by
  refine ⟨rfl, fun k => ?_, by simp, fun _ g q _ => ?_, rfl, ?_⟩
  · split
    · next h => rw [← h]; rfl
    · rfl
  · simp [not_marks_self]
  · rw [leftReport_of_stays fun h => h.2 h.1, List.append_nil]

/-! ### Many moves -/

/-- What the moves of the slots of a list of keys hand on, in the order of the list. -/
structure State.movesAll (s u : State) (l : List Nat) (event : Slot → Slot → Option LegEvent) : Prop where
  frame : u = { s with
    slots := u.slots, updates := u.updates, marks := u.marks, pairs := u.pairs, reports := u.reports }
  slot : ∀ k, k ∉ l → u.slotAt k = s.slotAt k
  updates : u.updates = s.updates ++ l.flatMap fun k => (s.slotAt k).handsOn (u.slotAt k)
  marks : s.marksMoved u
  pairs : u.pairs
    = (l.foldl (fun t k => t.reportEvent (k / 16) (event (s.slotAt k) (u.slotAt k)) (u.slotAt k)) s).pairs
  reports : u.reports
    = s.reports ++ l.flatMap fun k => s.leftReport (k / 16) (k % 16) (s.slotAt k) (u.slotAt k)

variable {event : Slot → Slot → Option LegEvent}

theorem movesAll_nil (s : State) : s.movesAll s [] event := by
  refine ⟨rfl, fun _ _ => rfl, by simp, fun _ g q _ => ?_, rfl, by simp⟩
  simp [not_marks_self]

theorem foldl_reportEvent_congr {l : List Nat} {o p : Nat → Option LegEvent} {y z : Nat → Slot}
    (records : s.records = t.records) (pairs : s.pairs = t.pairs) (ho : ∀ k ∈ l, o k = p k) (hy : ∀ k ∈ l, y k = z k) :
    (l.foldl (fun t k => t.reportEvent (k / 16) (o k) (y k)) s).pairs
      = (l.foldl (fun t k => t.reportEvent (k / 16) (p k) (z k)) t).pairs := by
  induction l generalizing s t with
  | nil => exact pairs
  | cons a l ih =>
    rw [List.foldl_cons, List.foldl_cons, ho a (List.mem_cons_self ..), hy a (List.mem_cons_self ..)]
    refine ih ?_ (pairs_reportEvent_congr records pairs _ _ _) (fun k hk => ho k (List.mem_cons_of_mem _ hk))
      fun k hk => hy k (List.mem_cons_of_mem _ hk)
    obtain ⟨v, hv⟩ := reportEvent_eq (s := s) (a / 16) (p a) (z a)
    obtain ⟨w, hw⟩ := reportEvent_eq (s := t) (a / 16) (p a) (z a)
    rw [hv, hw]
    exact records

/-- One move, and then those of other slots. -/
theorem movesAll_cons {a : Nat} {l : List Nat} {y : Slot}
    (first : s.moves v (a / 16) (a % 16) (s.slotAt a) y (event (s.slotAt a) y)) (rest : v.movesAll u l event)
    (ha : a ∉ l) : s.movesAll u (a :: l) event := by
  have slot : ∀ k, v.slotAt k = if a = k then y else s.slotAt k := fun k => by
    rw [first.slot k, slotKey_div_mod]
  have other : ∀ k, a ≠ k → v.slotAt k = s.slotAt k := fun k hk => by rw [slot, if_neg hk]
  have own : u.slotAt a = y := by rw [rest.slot a ha, slot, if_pos rfl]
  have later : ∀ k ∈ l, v.slotAt k = s.slotAt k := fun k hk => other k fun e => ha (e ▸ hk)
  have entries : v.entries = s.entries := by rw [first.frame]
  have records : v.records = s.records := by rw [first.frame]
  refine ⟨?_, fun k hk => ?_, ?_, fun base g q hq => ?_, ?_, ?_⟩
  · rw [rest.frame, first.frame]
  · rw [List.mem_cons, not_or] at hk
    rw [rest.slot k hk.2, other k fun e => hk.1 e.symm]
  · rw [rest.updates, first.updates, List.flatMap_cons, own, List.append_assoc]
    congr 2
    exact List.flatMap_congr fun k hk => by rw [later k hk]
  · have base_v : ∀ k b, (v.slotAt k).planned = some b → b.base ≤ 0x1FF7 := fun k b hb => by
      rw [slot] at hb
      split at hb
      · next h => exact base a b (.inr (own ▸ hb))
      · exact base k b (.inl hb)
    have step : ∀ i, i < 16 → ((s.slot g i).marks (u.slot g i) q
        ↔ (g = a / 16 ∧ i = a % 16 ∧ (s.slotAt a).marks y q) ∨ (v.slot g i).marks (u.slot g i) q) := by
      intro i hi
      unfold State.slot
      by_cases e : slotKey g i = a
      · have hg : g = a / 16 := by unfold slotKey at e; omega
        have hm : i = a % 16 := by unfold slotKey at e; omega
        rw [e, own, slot, if_pos rfl]
        exact ⟨fun h => .inl ⟨hg, hm, h⟩, fun h => h.elim (fun h => h.2.2) fun h => absurd h (not_marks_self y q)⟩
      · rw [other _ fun h => e h.symm]
        refine ⟨.inr, fun h => h.resolve_left fun ⟨hg, hm, _⟩ => e ?_⟩
        rw [hg, hm, slotKey_div_mod]
    have marks1 := first.marks (fun b hb => hb.elim (fun h => base a b (.inl h)) fun h => base a b (.inr (own ▸ h))) g q hq
    have marks2 := rest.marks (fun k b hb => hb.elim (base_v k b) fun h => base k b (.inr h)) g q hq
    rw [marks2, marks1, or_assoc]
    refine or_congr_right ⟨?_, ?_⟩
    · rintro (⟨hg, h⟩ | ⟨i, hi, h⟩)
      · exact ⟨a % 16, Nat.mod_lt _ (by decide), (step _ (Nat.mod_lt _ (by decide))).2 (.inl ⟨hg, rfl, h⟩)⟩
      · exact ⟨i, hi, (step i hi).2 (.inr h)⟩
    · rintro ⟨i, hi, h⟩
      rcases (step i hi).1 h with ⟨hg, -, h⟩ | h
      · exact .inl ⟨hg, h⟩
      · exact .inr ⟨i, hi, h⟩
  · rw [rest.pairs, List.foldl_cons, own]
    refine foldl_reportEvent_congr ?_ first.pairs (fun k hk => by rw [later k hk]) fun _ _ => rfl
    obtain ⟨w, hw⟩ := reportEvent_eq (s := s) (a / 16) (event (s.slotAt a) y) y
    rw [hw]
    exact records
  · rw [rest.reports, first.reports, List.flatMap_cons, own, List.append_assoc]
    congr 2
    refine List.flatMap_congr fun k hk => ?_
    unfold State.leftReport
    rw [later k hk, trackers_congr entries]

theorem flatMap_ite {α β : Type} (l : List α) (p : α → Bool) (f : α → β) :
    (l.flatMap fun k => if p k then [f k] else []) = (l.filter p).map f := by
  induction l with
  | nil => rfl
  | cons a l ih =>
    rw [List.flatMap_cons, ih]
    cases h : p a <;> simp [h]

/-- Moves in the order of the keys are those of an act of the FLT. -/
theorem slotsMoved_of_movesAll {l : List Nat} (rising : l.Pairwise (· < ·)) (still : ∀ x, event x x = none)
    (h : s.movesAll u l event) : s.slotsMoved u event := by
  have mem : ∀ (p : Nat → Bool), (∀ k, k ∉ l → p k = false) → lists (l.filter p) (fun k => p k = true) := fun p hp =>
    ⟨rising.filter p, fun k => by
      rw [List.mem_filter]
      refine ⟨fun h => h.2, fun h => ⟨?_, h⟩⟩
      by_contra hk
      exact absurd h (Bool.eq_false_iff.1 (hp k hk))⟩
  refine ⟨h.frame, ?_, h.marks, ?_, ?_⟩
  · have keys := mem (fun k => decide ((s.slotAt k).source ≠ (u.slotAt k).source)) fun k hk => by
      simp [h.slot k hk]
    simp only [decide_eq_true_eq] at keys
    refine ⟨_, keys, h.updates.trans ?_⟩
    rw [← flatMap_ite]
    congr 1
    refine List.flatMap_congr fun k _ => ?_
    unfold Slot.handsOn
    by_cases e : (s.slotAt k).source = (u.slotAt k).source <;> simp [e]
  · have keys := mem (fun k => decide (event (s.slotAt k) (u.slotAt k) ≠ none)) fun k hk => by
      rw [h.slot k hk, still]; rfl
    simp only [decide_eq_true_eq] at keys
    refine ⟨_, keys, h.pairs.trans ?_⟩
    rw [List.foldl_filter]
    congr 2
    funext t k
    cases e : event (s.slotAt k) (u.slotAt k) with
    | none => rfl
    | some v => rfl
  · have keys := mem (fun k => decide ((s.slotAt k).onAir = .pending ∧ (u.slotAt k).onAir ≠ .pending
        ∧ s.trackers (k / 16) (k % 16) ≠ [])) fun k hk => by
      rw [h.slot k hk]
      exact decide_eq_false fun h => h.2.1 h.1
    simp only [decide_eq_true_eq] at keys
    refine ⟨_, keys, h.reports.trans ?_⟩
    rw [← flatMap_ite]
    congr 1
    refine List.flatMap_congr fun k _ => ?_
    unfold State.leftReport
    simp only [decide_eq_true_eq]

/-- Moves that keep the bindings, and report what `event` gives. -/
def keepsBinding (event : Slot → Slot → Option LegEvent) (g : Nat → Slot → Option Move) : Prop :=
  ∀ k x m, g k x = some m → m.slot.planned = x.planned ∧ m.event = event x m.slot

theorem slotsMoved_moveSlots {g : Nat → Slot → Option Move} (still : ∀ x, event x x = none)
    (hg : keepsBinding event g) (c : s.canonical) : s.slotsMoved (s.moveSlots g) event := by
  have rising : (s.slots.map (·.1)).Pairwise (· < ·) := by
    rw [List.pairwise_map]
    exact (Table.rising_iff _).1 c.2.2.2.2.1.1
  refine slotsMoved_of_movesAll rising still ?_
  have distinct : (s.slots.map (·.1)).Nodup := rising.imp Nat.ne_of_lt
  unfold State.moveSlots
  generalize s.slots.map (·.1) = l at distinct
  clear rising c
  induction l generalizing s with
  | nil => exact movesAll_nil s
  | cons a l ih =>
    obtain ⟨ha, hl⟩ := List.nodup_cons.1 distinct
    have slot : s.slot (a / 16) (a % 16) = s.slotAt a := by unfold State.slot; rw [slotKey_div_mod]
    refine movesAll_cons ?_ (ih hl) ha (y := ((g a (s.slotAt a)).map (·.slot)).getD (s.slotAt a))
    dsimp only
    cases hm : g a (s.slotAt a) with
    | none =>
      rw [Option.map_none, Option.getD_none, still, ← slot]
      exact moves_refl _ _
    | some m =>
      obtain ⟨same, reported⟩ := hg _ _ _ hm
      rw [Option.map_some, Option.getD_some, ← reported]
      exact moves_applyMove slot same

end

end Sys2Proof.Machine
end

