-- ==== Sys2Proof/Proofs/Rebinds.lean ====
section
/-! Switch points and changes of a binding (O41). -/

namespace Sys2Proof.Machine

section
variable {s : State}

theorem still_moveEvent (e : LegEvent) (x : Slot) : moveEvent e x x = none := if_pos rfl

theorem still_bindingEvent (x : Slot) : bindingEvent x x = none := by
  unfold bindingEvent
  rw [still_moveEvent, if_pos rfl, ite_self]

theorem canonical_slots_rising (c : s.canonical) : Table.rising s.slots = true := c.2.2.2.2.1.1

/-- One move of a slot that keeps its binding. -/
theorem slotsMoved_applyMove {event : Slot → Slot → Option LegEvent} {f i : Nat} {m : Move} (hi : i < 16)
    (still : ∀ x, event x x = none) (same : m.slot.planned = (s.slot f i).planned)
    (reported : m.event = event (s.slot f i) m.slot) : s.slotsMoved (s.applyMove f i m) event := by
  have feed : slotKey f i / 16 = f := by unfold slotKey; omega
  have slot : slotKey f i % 16 = i := by unfold slotKey; omega
  refine slotsMoved_of_movesAll (l := [slotKey f i]) (List.pairwise_singleton ..) still
    (movesAll_cons (y := m.slot) ?_ (movesAll_nil _) (List.not_mem_nil))
  rw [feed, slot]
  exact reported ▸ moves_applyMove rfl same

/-! ### Switch points (R75) -/

theorem keepsBinding_sightingMove (R : Nat) : keepsBinding (moveEvent .switchedClean) fun _ x => sightingMove R x := by
  intro k x m h
  replace h : sightingMove R x = some m := h
  unfold sightingMove at h
  split at h
  · cases h
  · split at h
    · next hb =>
      rw [Bool.and_eq_true, decide_eq_true_eq, decide_eq_true_eq] at hb
      cases h
      refine ⟨rfl, ?_⟩
      unfold moveEvent goSteady
      rw [hb.2]
      rfl
    · cases h

theorem sightingMove_start (R : Nat) : sightingMove R Slot.start = none := rfl

theorem slotAt_sightingMoves {R : Nat} (c : s.canonical) (k : Nat) :
    (s.moveSlots fun _ x => sightingMove R x).slotAt k
      = if (s.slotAt k).onAir = .pending ∧ (s.slotAt k).planned.map (·.handle) = some R then
          { s.slotAt k with onAir := .steady, source := some R, outgoing := none, deadline := none }
        else s.slotAt k := by
  rw [slotAt_moveSlots s (canonical_slots_rising c) fun _ => rfl]
  unfold sightingMove
  cases hp : (s.slotAt k).planned with
  | none => rw [if_neg (by simp)]
  | some b =>
    by_cases h : b.handle = R ∧ (s.slotAt k).onAir = .pending
    · simp [h, goSteady]
    · rw [if_neg fun e => h ⟨by simpa using e.2, e.1⟩]
      simp [h]

/-! ### Changes of a binding (R71 to R73) -/

theorem event_goSteady (x : Slot) (p : Nat) (e : Option LegEvent) : (goSteady x p e).event = e := rfl

theorem bindMove_planned (f : Nat) (x : Slot) (new : Option Binding) : (bindMove s f x new).slot.planned = new := by
  cases new with
  | none => rfl
  | some b =>
    unfold bindMove
    dsimp only
    split
    · rfl
    · split
      · split
        · rfl
        · exact planned_enterPending _ _ _ _
      · exact planned_goFallback _ _ _

theorem goSlated_event (x y : Slot) (hy : y.onAir = x.onAir) : (goSlated y).event = bindingEvent x (goSlated y).slot := by
  unfold goSlated bindingEvent moveEvent
  rw [hy]
  cases x.onAir <;> rfl

theorem goFallback_event (x y : Slot) (p : Nat) (hy : y.onAir = x.onAir) :
    (goFallback s y p).event = bindingEvent x (goFallback s y p).slot := by
  unfold goFallback
  split
  · unfold bindingEvent moveEvent
    rw [hy]
    cases x.onAir <;> rfl
  · exact goSlated_event x y hy

theorem enterPending_event (f : Nat) (x y : Slot) (p : Nat) (other : x.source ≠ some p) :
    (enterPending s f y p).event = bindingEvent x (enterPending s f y p).slot := by
  unfold enterPending
  split
  · unfold bindingEvent moveEvent
    cases x.onAir <;> rfl
  · unfold bindingEvent goSteady
    rw [if_pos rfl, if_neg other]

theorem bindMove_event (f : Nat) (x : Slot) (new : Option Binding) :
    (bindMove s f x new).event = bindingEvent x (bindMove s f x new).slot := by
  cases new with
  | none =>
    unfold bindMove bindingEvent moveEvent
    cases x.onAir <;> rfl
  | some b =>
    unfold bindMove
    dsimp only
    split
    · unfold bindingEvent moveEvent
      rw [if_pos rfl, if_pos rfl, ite_self]
    · split
      · split
        · next same =>
          unfold bindingEvent goSteady
          rw [if_pos rfl, if_pos same]
        · next other => exact enterPending_event f x _ b.handle other
      · exact goFallback_event x _ b.handle rfl

/-- The slot after a change of its binding (R71 to R74). -/
theorem bindMove_slot (f : Nat) (x : Slot) (b : Binding) : (bindMove s f x (some b)).slot
    = if x.planned.map (·.handle) = some b.handle then { x with planned := some b }
      else if s.usable b.handle = true then
        if x.source = some b.handle ∨ x.source.all s.onAirFit = false then { x with
          planned := some b, onAir := .steady, source := some b.handle, outgoing := none, deadline := none }
        else { x with
          planned := some b, onAir := .pending, outgoing := x.source
          deadline := some ⟨s.uptime, (s.leg f).switchWait⟩ }
      else match s.usableFallback b.handle with
        | some fb => { x with
          planned := some b, onAir := .substituted, source := some fb, outgoing := none, deadline := none }
        | none => { x with
          planned := some b, onAir := .slated, source := none, outgoing := none, deadline := none } := by
  unfold bindMove
  dsimp only
  split
  · rfl
  · split
    · split
      · next same => rw [if_pos (.inl same)]; rfl
      · next other =>
        have fit : s.sourceFit { x with planned := some b } = x.source.all s.onAirFit := by
          unfold State.sourceFit
          cases x.source <;> rfl
        unfold enterPending
        rw [fit]
        by_cases fits : x.source.all s.onAirFit = true
        · rw [if_pos fits, if_neg fun h => h.elim other fun h => by rw [fits] at h; cases h]
        · rw [if_neg fits, if_pos (.inr (Bool.eq_false_iff.2 fits))]
          rfl
    · unfold goFallback
      cases s.usableFallback b.handle <;> rfl

/-- The range of a binding that keeps its record and changes its base (R86). -/
def State.markRebound (s : State) (f : Nat) (old new : Option Binding) : State :=
  match old, new with
  | some a, some b => if a.handle = b.handle && a.base != b.base then s.markRange f b.base else s
  | _, _ => s

theorem rebind_eq {f i : Nat} {new : Option Binding} (changes : (s.slot f i).planned ≠ new) : s.rebind f i new
    = ((s.plan ((s.slot f i).planned.map (·.handle)) (new.map (·.handle))).markRebound f (s.slot f i).planned new).applyMove
        f i (bindMove s f (s.slot f i) new) := by
  unfold State.rebind
  dsimp only
  rw [if_neg changes]
  rfl

theorem markRebound_eq (f : Nat) (old new : Option Binding) :
    ∃ mk, s.markRebound f old new = { s with marks := mk } := by
  unfold State.markRebound
  split
  · split
    · exact markRange_eq s f _
    · exact ⟨s.marks, rfl⟩
  · exact ⟨s.marks, rfl⟩

theorem mark_markRebound {f g q : Nat} {old new : Option Binding} (base : ∀ b, new = some b → b.base ≤ 0x1FF7)
    (hq : q < 8192) : (s.markRebound f old new).mark g q = true ↔ s.mark g q = true ∨ (g = f ∧ ∃ a b, old = some a
      ∧ new = some b ∧ a.handle = b.handle ∧ a.base ≠ b.base ∧ b.base ≤ q ∧ q < b.base + 8) := by
  unfold State.markRebound
  cases old with
  | none => simp
  | some a =>
    cases new with
    | none => simp
    | some b =>
      dsimp only
      split
      · next h =>
        rw [Bool.and_eq_true, decide_eq_true_eq, bne_iff_ne] at h
        rw [mark_markRange (base b rfl) hq]
        simp [h]
      · next h =>
        rw [Bool.and_eq_true, decide_eq_true_eq, bne_iff_ne] at h
        refine ⟨.inl, fun k => k.elim id fun ⟨_, a', b', ha, hb, same, ne, _⟩ => ?_⟩
        cases ha
        cases hb
        exact absurd ⟨same, ne⟩ h

/-- A binding that keeps the record keeps what is on air. -/
theorem source_of_kept {f : Nat} {x : Slot} {b : Binding} (same : x.planned.map (·.handle) = some b.handle) :
    (bindMove s f x (some b)).slot.source = x.source := by
  rw [bindMove_slot, if_pos same]

theorem marks_of_rebound {x y : Slot} {q : Nat} : x.marks y q
    ↔ (x.source ≠ y.source ∧ ∃ b, rangeBinding x y = some b ∧ b.base ≤ q ∧ q < b.base + 8)
      ∨ ∃ a b, x.planned = some a ∧ y.planned = some b ∧ a.handle = b.handle ∧ a.base ≠ b.base ∧ b.base ≤ q
        ∧ q < b.base + 8 := by
  unfold Slot.marks rangeBinding
  constructor
  · rintro ⟨b, hb, h1, h2, other | ⟨a, ha, same, ne⟩⟩
    · exact .inl ⟨other, b, hb, h1, h2⟩
    · refine .inr ⟨a, b, ha, ?_, same, ne, h1, h2⟩
      rw [Option.or_eq_some_iff] at hb
      refine hb.resolve_right fun ⟨_, h⟩ => ?_
      rw [ha] at h
      cases h
      exact ne rfl
  · rintro (⟨other, b, hb, h1, h2⟩ | ⟨a, b, ha, hb, same, ne, h1, h2⟩)
    · exact ⟨b, hb, h1, h2, .inl other⟩
    · exact ⟨b, by rw [hb]; rfl, h1, h2, .inr ⟨a, ha, same, ne⟩⟩

theorem moves_rebind {f i : Nat} {new : Option Binding} (changes : (s.slot f i).planned ≠ new) :
    (s.plan ((s.slot f i).planned.map (·.handle)) (new.map (·.handle))).moves (s.rebind f i new) f i (s.slot f i)
      (bindMove s f (s.slot f i) new).slot (bindMove s f (s.slot f i) new).event := by
  obtain ⟨w, plan⟩ := plan_eq s ((s.slot f i).planned.map (·.handle)) (new.map (·.handle))
  obtain ⟨mk, marked⟩ := markRebound_eq (s := s.plan ((s.slot f i).planned.map (·.handle)) (new.map (·.handle))) f
    (s.slot f i).planned new
  have slot : (s.plan ((s.slot f i).planned.map (·.handle)) (new.map (·.handle))).slot f i = s.slot f i := by
    rw [plan]; rfl
  rw [rebind_eq changes, marked]
  refine moves_after_marks slot fun base g q hq => ?_
  have planned := bindMove_planned (s := s) f (s.slot f i) new
  rw [planned] at base
  rw [← marked, mark_markRebound (fun b hb => base b (.inr hb)) hq, marks_of_rebound, planned]
  unfold rangesDue
  rw [or_assoc, ← and_or_left]
  exact or_congr_right (and_congr_right fun _ => or_comm)

theorem slotsMoved_rebind {f i : Nat} {new : Option Binding} (hi : i < 16) :
    ∃ v : State, v = { s with records := v.records } ∧ v.slotsMoved (s.rebind f i new) bindingEvent
      ∧ ∀ h, v.record? h = (s.record? h).map fun r => { r with
        planned := r.planned + names1 (new.map (·.handle)) h - names1 ((s.slot f i).planned.map (·.handle)) h } := by
  by_cases same : (s.slot f i).planned = new
  · refine ⟨s, rfl, ?_, fun h => ?_⟩
    · rw [show s.rebind f i new = s from if_pos same]
      exact slotsMoved_of_movesAll List.Pairwise.nil still_bindingEvent (movesAll_nil s)
    · rw [same]
      simp only [Nat.add_sub_cancel]
      exact (Option.map_id' ..).symm
  · obtain ⟨w, plan⟩ := plan_eq s ((s.slot f i).planned.map (·.handle)) (new.map (·.handle))
    refine ⟨s.plan ((s.slot f i).planned.map (·.handle)) (new.map (·.handle)), by rw [plan], ?_, record?_plan s _ _⟩
    have feed : slotKey f i / 16 = f := by unfold slotKey; omega
    have slot : slotKey f i % 16 = i := by unfold slotKey; omega
    have moves := moves_rebind (s := s) same
    rw [bindMove_event] at moves
    refine slotsMoved_of_movesAll (l := [slotKey f i]) (List.pairwise_singleton ..) still_bindingEvent
      (movesAll_cons (y := (bindMove s f (s.slot f i) new).slot) ?_ (movesAll_nil _) (List.not_mem_nil))
    rw [feed, slot, show State.slotAt _ (slotKey f i) = s.slot f i by rw [plan]; rfl]
    exact moves

theorem slotAt_rebind {f i : Nat} {new : Option Binding} (changes : (s.slot f i).planned ≠ new) (k : Nat) :
    (s.rebind f i new).slotAt k
      = if slotKey f i = k then (bindMove s f (s.slot f i) new).slot else s.slotAt k := by
  obtain ⟨w, plan⟩ := plan_eq s ((s.slot f i).planned.map (·.handle)) (new.map (·.handle))
  rw [(moves_rebind changes).slot k, plan]
  rfl

end

/-- Settles O41. -/
theorem switchPointsAndBindingsMoveSlots : Obligations.SwitchPointsAndBindingsMoveSlots := by
  refine ⟨fun R s => ⟨rfl, fun no => ?_, fun c yes => ?_⟩, fun f i new s hi => ⟨slotsMoved_rebind hi, fun k hk => ?_,
    fun same => if_pos same, fun changes => ?_⟩⟩
  · exact if_neg (by rw [no]; nofun)
  · exact ⟨_, if_pos (by rw [yes]; rfl), slotsMoved_moveSlots (still_moveEvent _) (keepsBinding_sightingMove R) c,
      slotAt_sightingMoves c⟩
  · by_cases same : (s.slot f i).planned = new
    · rw [show s.rebind f i new = s from if_pos same]
    · rw [slotAt_rebind same, if_neg fun e => hk e.symm]
  · have slot := slotAt_rebind changes (slotKey f i)
    rw [if_pos rfl] at slot
    refine Eq.trans slot ?_
    cases new with
    | none => rfl
    | some b => exact bindMove_slot f (s.slot f i) b

end Sys2Proof.Machine
end

