-- ==== Sys2Proof/Proofs/Networks.lean ====
section
/-! The direct requests of NETWORK: CANCEL SPLICE and RESUME SLOT (O53). -/

namespace Sys2Proof.Machine

section
variable {s t : State} {c : Command} {rest : List Command} {kind : Byte} {p : List Byte}

theorem takeRequest_network (idle : s.idleDue = []) : s.takeRequest .network = { s with
    netWs := if 1 ≤ s.netWs.depth then { s.netWs with idle := some s.uptime } else s.netWs } := by
  unfold State.takeRequest
  rw [settleIdle_of_nil s idle]
  unfold State.restartIdle State.ws State.setWs
  dsimp only
  split <;> rfl

theorem runsHead (ready : s.networkReady c rest kind p) (listed : catalogue.contains kind.toNat = true) :
    exec .queueHeadTaken s = .next (State.handNetwork
      { s with netQueue := rest, netFlight := some ⟨c.seq, c.input, kind⟩ } kind p) := by
  obtain ⟨awake, -, queue, flight, unread, body⟩ := ready
  change Host.Outcome.next (s.awake _) = _
  rw [awake_of_not_asserted awake]
  have free : (s.netFlight.isNone && !(s.relayOn && s.mailbox.unread)) = true := by
    rw [flight]
    cases h : s.relayOn with
    | false => rfl
    | true => rw [unread h]; rfl
  unfold State.takeHead
  rw [queue]
  dsimp only
  rw [if_pos free]
  unfold State.runCommand
  rw [body]
  exact congrArg Host.Outcome.next (if_pos listed)

/-- NETWORK's request at the head of the queue is answered by its owner (R175, R176). -/
theorem exec_network {owner : Owner} {u : State} {a : Answer} (ready : s.networkReady c rest kind p)
    (listed : catalogue.contains kind.toNat = true)
    (direct : ∀ t : State, t.handNetwork kind p = t.handDirect .network kind owner p)
    (h : owner (s.begun c rest kind) .network p = (u, a)) (flight : u.netFlight = some ⟨c.seq, c.input, kind⟩) :
    exec .queueHeadTaken s = .next (u.networkReplied c kind a) := by
  rw [runsHead ready listed, direct]
  unfold State.handDirect
  rw [takeRequest_network (by exact ready.2.1)]
  have h' : owner { s with
      netQueue := rest, netFlight := some ⟨c.seq, c.input, kind⟩
      netWs := if 1 ≤ s.netWs.depth then { s.netWs with idle := some s.uptime } else s.netWs } .network p = (u, a) := h
  rw [h']
  unfold State.answer
  dsimp only
  rw [flight]
  rfl

/-! ### RESUME SLOT (R55) -/

theorem resumeMove_eq {f : Nat} {x : Slot} : resumeMove s f x
    = if x.onAir = .substituted ∧ ∃ b, x.planned = some b ∧ s.usable b.handle = true then
        (x.planned.map fun b => enterPending s f x b.handle)
      else none := by
  unfold resumeMove
  cases x.planned with
  | none => simp
  | some b => simp

/-- The move of a slot that is resumed: to PENDING, or at once to its planned record (R55, R74). -/
theorem enterPending_slot (f : Nat) (x : Slot) (b : Binding) (planned : x.planned = some b) :
    (enterPending s f x b.handle).slot = if x.source.all s.onAirFit then { x with
        onAir := .pending, outgoing := x.source, deadline := some ⟨s.uptime, (s.leg f).switchWait⟩ }
      else { x with
        onAir := .steady, source := x.planned.map (·.handle), outgoing := none, deadline := none } := by
  have fit : s.sourceFit x = x.source.all s.onAirFit := by
    unfold State.sourceFit
    cases x.source <;> rfl
  unfold enterPending
  rw [fit, show x.planned.map (·.handle) = some b.handle by rw [planned]; rfl]
  split <;> rfl

theorem enterPending_moveEvent (f : Nat) (x : Slot) (h : Nat) (state : x.onAir = .substituted) :
    (enterPending s f x h).event = moveEvent .switchedForced x (enterPending s f x h).slot := by
  unfold enterPending
  split
  · unfold moveEvent
    rw [state]
    rfl
  · unfold moveEvent goSteady
    rw [state]
    rfl

theorem ownResumeSlot_eq {f i : Nat} (hf : f < 256) (hi : i < 256) (r : Requester) :
    ownResumeSlot s r (packed [(1, f), (1, i)])
      = if f < 24 ∧ i < 16 then
          if r = .network ∧ (s.leg f).zone = .site then (s, .refused .notPermitted)
          else match resumeMove s f (s.slot f i) with
            | some m => ((s.applyMove f i m).takeReports, .taken [])
            | none => (s, .refused .stateRefused)
        else (s, .refused .badField) := by
  unfold ownResumeSlot
  rw [fields_two (by omega) (by omega)]
  simp only [Bool.and_eq_true, feedOk_iff, slotOk_iff] <;> rfl

theorem netFlight_takeReports (s : State) : s.takeReports.netFlight = s.netFlight := by
  obtain ⟨u, v, a, b, h⟩ := takeReports_eq s
  rw [h]

theorem netFlight_applyMove (f i : Nat) (m : Move) : (s.applyMove f i m).netFlight = s.netFlight := by
  obtain ⟨u, v, w, x, h⟩ := applyMove_eq s f i m
  rw [h]
  rfl

end

/-- Settles O53. -/
theorem networkCancelsAndResumesItsOwn : Obligations.NetworkCancelsAndResumesItsOwn := by
  intro s c rest kind p ready idle settled t answers
  have refused : ∀ {owner : Owner} {cd : Code}, catalogue.contains kind.toNat = true →
      (∀ t : State, t.handNetwork kind p = t.handDirect .network kind owner p) →
      owner t .network p = (t, .refused cd) → answers t (.refused cd) := fun listed direct h =>
    exec_network ready listed direct h rfl
  refine ⟨?_, ?_, ?_⟩
  · rintro rfl
    have cancel : ∀ t : State, t.handNetwork 0x20#8 p = t.handDirect .network 0x20#8 ownCancelSplice p := fun _ => rfl
    refine ⟨fun bad => refused (by decide) cancel ?_, ?_⟩
    · rcases bad with length | ⟨e, he, large, rfl⟩
      · unfold ownCancelSplice
        rw [fieldsOf_of_length_ne (ns := [1]) length]
      · exact (ownCancelSplice_eq (s := t) idle settled .network he).trans (if_pos large)
    · rintro e he rfl x cancels
      have owner := ownCancelSplice_eq (s := t) idle settled .network (show e < 256 by omega)
      rw [if_neg (by omega)] at owner
      have done : ∀ {edits : List SlotEdit} {left : Nat → Entry}, x.owner = some .network →
          ¬ (x.state = .free ∨ x.state = .switching) → t.cancelled (t.dropEntry e) e edits left → cancels edits left := by
        intro edits left own waits h
        refine ⟨_, exec_network ready (by decide) cancel (owner.trans ?_) (by rw [h.frame]; rfl), h.frame, h.entry,
          h.record, h.slot⟩
        rw [if_neg (show ¬ (t.entry e).owner ≠ some .network from not_not.2 own)]
        exact if_neg waits
      refine ⟨fun other => refused (by decide) cancel (owner.trans (if_pos other)),
        fun own ended => refused (by decide) cancel (owner.trans ?_), fun own waits alone => ?_,
        fun own waits n role partner held => ?_, fun own held => ?_⟩
      · rw [if_neg (show ¬ (t.entry e).owner ≠ some .network from not_not.2 own)]
        exact if_pos ended
      · obtain ⟨notHeld, notOver⟩ := not_held_of_waits waits
        exact done own notOver (cancelled_alone (s := t) notHeld alone)
      · obtain ⟨notHeld, notOver⟩ := not_held_of_waits waits
        exact done own notOver (cancelled_with_return (s := t) notHeld role partner held)
      · exact done own (by rw [held]; decide) (cancelled_return (s := t) held)
  · rintro rfl bad
    refine refused (owner := ownResumeSlot) (by decide) (fun _ => rfl) ?_
    rcases bad with length | ⟨f, hf, i, hi, large, rfl⟩
    · unfold ownResumeSlot
      rw [fieldsOf_of_length_ne (ns := [1, 1]) length]
    · rw [ownResumeSlot_eq hf hi, if_neg (by omega)]
  · rintro rfl f hf i hi rfl x may
    have resume : ∀ t : State, t.handNetwork 0x21#8 (packed [(1, f), (1, i)])
        = t.handDirect .network 0x21#8 ownResumeSlot (packed [(1, f), (1, i)]) := fun _ => rfl
    have owner := ownResumeSlot_eq (s := t) (show f < 256 by omega) (show i < 256 by omega) .network
    rw [if_pos ⟨hf, hi⟩] at owner
    have move : resumeMove t f (t.slot f i)
        = if may then (x.planned.map fun b => enterPending t f x b.handle) else none := resumeMove_eq
    refine ⟨fun zone => refused (by decide) resume (owner.trans (if_pos ⟨rfl, zone⟩)), fun zone no => ?_, fun zone yes => ?_⟩
    · refine refused (by decide) resume (owner.trans ?_)
      rw [if_neg fun h => zone h.2, move, if_neg no]
    · obtain ⟨state, b, planned, usable⟩ := yes
      have some : resumeMove t f (t.slot f i) = some (enterPending t f x b.handle) := by
        rw [move, if_pos ⟨state, b, planned, usable⟩, planned]
        rfl
      refine ⟨t.applyMove f i (enterPending t f x b.handle), ?_, ?_, fun k hk => ?_, ?_⟩
      · refine exec_network ready (by decide) resume (owner.trans ?_) ?_
        · rw [if_neg fun h => zone h.2, some]
        · rw [netFlight_takeReports, netFlight_applyMove]
          rfl
      · exact slotsMoved_applyMove hi (still_moveEvent _) (planned_enterPending ..) (enterPending_moveEvent f x _ state)
      · exact (slotAt_applyMove t f i k _).trans (if_neg fun e => hk e.symm)
      · refine (slotAt_applyMove t f i (slotKey f i) _).trans ((if_pos rfl).trans ?_)
        exact enterPending_slot f x b planned

end Sys2Proof.Machine
end

