-- ==== Sys2Proof/Proofs/CommitActs.lean ====
section
/-! The COMMIT_ACT row, and what a DEFERRED commit arms (O30). -/

namespace Sys2Proof.Machine

section
variable {s : State} {r : Requester} {fl : CommitFlight} {m : Mode}

/-! ### The act and its answer (R123, R125) -/

theorem answer_eq_commitReplied (u : State) (r : Requester) (fl : CommitFlight) :
    u.answer r fl.kind (commitAnswer fl (u.outcome r)) = u.commitReplied r fl := by
  cases r with
  | site => rfl
  | network =>
    unfold State.answer State.commitReplied
    cases u.netFlight <;> rfl

theorem tablesReady_of_quiet (quiet : s.quiet) : s.tablesReady = s := by
  unfold State.tablesReady
  rw [settleCtab_of_nil s quiet.1, takeUpdates_nil s quiet.2.2.1]

theorem exec_commitAct (waits : s.commitWaits r fl m) :
    exec (.commitAct r) s = .next ((s.commit r).commitReplied r fl) := by
  obtain ⟨awake, quiet, -, flight, mode⟩ := waits
  change Host.Outcome.next (s.awake _) = _
  rw [awake_of_not_asserted awake]
  unfold State.commitAnswered
  rw [settleIdle_of_nil s quiet.2.1]
  dsimp only
  rw [flight]
  dsimp only
  rw [answer_eq_commitReplied]
  unfold State.commitAct
  rw [spsReady_of_idle s quiet.2.2.2]
  cases (s.ws r).mode <;> rfl

/-- A passing IMMEDIATE commit (R131, R132). -/
theorem endsCommit_immediate {p : Picture} (waits : s.commitWaits r fl .immediate)
    (passes : judgeImmediate s (s.ws r) = .ok p) :
    (s.writePicture p).endsCommit (exec (.commitAct r) s) r fl (committedOutcome (s.ws r) p) := by
  refine ⟨_, batchEnded_endBatch _ r _, ?_⟩
  rw [exec_commitAct waits]
  unfold State.commit State.commitImmediate
  rw [tablesReady_of_quiet waits.2.1]
  dsimp only
  rw [waits.2.2.2.2, passes]

/-- A DEFERRED commit ends its batch on the tables that it leaves; no report is waiting (R136). -/
theorem endsCommit_deferred {u : State} {o : OutcomeRecord} (waits : s.commitWaits r fl .deferred)
    (reports : u.reports = s.reports) (passes : s.commitDeferred r = u.endBatch r o) :
    u.endsCommit (exec (.commitAct r) s) r fl o := by
  have ended := batchEnded_endBatch u r o
  refine ⟨_, ended, ?_⟩
  have none : (u.endBatch r o).reports = [] := by
    rw [ended.1, setOutcome_reports, setWs_reports]
    exact reports.trans waits.2.1.2.2.2.1
  rw [exec_commitAct waits, takeReports_of_nil _ none, ← passes]
  unfold State.commit
  rw [tablesReady_of_quiet waits.2.1]
  dsimp only
  rw [waits.2.2.2.2]

/-! ### The entries that are allocated (R134) -/

/-- A rising list begins with an element that none of the others is below. -/
theorem head_eq_of_lowest {l : List Nat} {o : Nat} (rising : l.Pairwise (· < ·)) (mem : o ∈ l)
    (lowest : ∀ d ∈ l, ¬ d < o) : ∃ t, l = o :: t := by
  cases l with
  | nil => cases mem
  | cons a t =>
    rcases List.mem_cons.1 mem with rfl | later
    · exact ⟨t, rfl⟩
    · exact absurd ((List.pairwise_cons.1 rising).1 o later) (lowest a (List.mem_cons_self ..))

theorem freeEntries_eq_cons {o : Nat} (ho : o < 64) (free : (s.entry o).state = .free)
    (lowest : ∀ d < o, (s.entry d).state ≠ .free) : ∃ t, s.freeEntries = o :: t :=
  head_eq_of_lowest rising_freeEntries ((mem_freeEntries o).2 ⟨ho, free⟩)
    fun d hd lt => lowest d lt ((mem_freeEntries d).1 hd).2

theorem freeEntries_eq_cons_cons {o n : Nat} {t : List Nat} (head : s.freeEntries = o :: t) (on : o < n) (hn : n < 64)
    (free : (s.entry n).state = .free) (next : ∀ d, o < d → d < n → (s.entry d).state ≠ .free) :
    ∃ t, s.freeEntries = o :: n :: t := by
  have rising := rising_freeEntries (s := s)
  have mem := (mem_freeEntries (s := s) n).2 ⟨hn, free⟩
  rw [head] at rising mem
  obtain ⟨above, rising⟩ := List.pairwise_cons.1 rising
  have later : n ∈ t := (List.mem_cons.1 mem).resolve_left (Nat.ne_of_gt on)
  obtain ⟨t', rfl⟩ := head_eq_of_lowest rising later fun d hd lt =>
    next d (above d hd) lt ((mem_freeEntries d).1 (by rw [head]; exact List.mem_cons_of_mem _ hd)).2
  exact ⟨t', head⟩

theorem filterMap_slot (l : List SlotEdit) : (l.map Edit.slot).filterMap Edit.slotEdit? = l := by
  rw [List.filterMap_map]
  exact List.filterMap_some

/-! ### What is armed (R136) -/

theorem lastEdit_isSome (l : List SlotEdit) (k : Nat) :
    (lastEdit l k).isSome = true ↔ ∃ d ∈ l, slotKey d.feed d.slot = k := by
  unfold lastEdit
  rw [Option.isSome_map, List.getLast?_isSome]
  simp [List.filter_eq_nil_iff]

/-- The tables after a DEFERRED commit: its slots are reserved by the original, and the edits of its entries counted. -/
structure State.armed (s u : State) (o : Nat) (stored counted : List SlotEdit) (left : Nat → Entry) : Prop where
  frame : u = { s with records := u.records, slots := u.slots, entries := u.entries }
  slot : ∀ k, u.slotAt k = { s.slotAt k with
    reserved := if ∃ d ∈ stored, slotKey d.feed d.slot = k then some o else (s.slotAt k).reserved }
  record : ∀ h, u.record? h = (s.record? h).map fun x => { x with spliceRefs := x.spliceRefs + bindsOf counted h }
  entry : ∀ d, u.entry d = left d

theorem armed_reserve (l : List SlotEdit) (o : Nat) : s.armed (s.reserve l o) o l [] s.entry := by
  obtain ⟨v, hv⟩ := reserve_eq s l o
  refine ⟨by rw [hv], fun k => ?_, fun h => ?_, fun d => entry_reserve l o d⟩
  · rw [slotAt_reserve]
    by_cases mem : ∃ d ∈ l, slotKey d.feed d.slot = k
    · rw [if_pos ((lastEdit_isSome l k).2 mem), if_pos mem]
    · rw [if_neg fun h => mem ((lastEdit_isSome l k).1 h), if_neg mem]
  · rw [hv]
    exact (Option.map_id' ..).symm

theorem armed_arm {u : State} {o e : Nat} {stored counted : List SlotEdit} {left : Nat → Entry} {x : Entry}
    (h : s.armed u o stored counted left) :
    s.armed (u.arm e x) o stored (counted ++ x.edits) fun d => if d = e then x else left d := by
  obtain ⟨v, hv⟩ := arm_eq (s := u) e x
  have slots : ∀ k, (u.arm e x).slotAt k = u.slotAt k := fun k => by rw [hv]; rfl
  refine ⟨?_, fun k => (slots k).trans (h.slot k), fun g => ?_, fun d => ?_⟩
  · rw [hv, h.frame]
    rfl
  · rw [record?_arm, h.record, Option.map_map]
    congr 1
    funext y
    simp only [Function.comp, bindsOf_append, Nat.add_assoc]
  · rw [entry_arm, h.entry]
    simp only [eq_comm]

theorem inverseEdits_eq {stored : List SlotEdit} {keys : List Nat} (rising : keys.Pairwise (· < ·))
    (mem : ∀ k, k ∈ keys ↔ ∃ d ∈ stored, slotKey d.feed d.slot = k) :
    inverseEdits s stored = keys.map fun k => ⟨k / 16, k % 16, (s.slotAt k).planned⟩ := by
  have keys_eq : (bindingsOf stored).map (·.1) = keys := by
    refine List.Pairwise.eq_of_mem_iff (r := (· < ·)) ?_ rising fun k => ?_
    · rw [List.pairwise_map]
      exact (Table.rising_iff _).1 (rising_bindingsOf stored)
    · rw [← find?_isSome_iff, find?_bindingsOf, lastEdit_isSome, mem]
  rw [← keys_eq, List.map_map]
  rfl

theorem commitDeferred_eq {p : Picture} {t : Trigger} {stored : List SlotEdit} (trigger : (s.ws r).trigger = some t)
    (walk : (Picture.start s).walk 1 (s.ws r).edits = .ok p) (applied : p.applied = stored.map Edit.slot) :
    (stored = [] → s.commitDeferred r = s.endBatch r (committedOutcome (s.ws r) p))
      ∧ (stored ≠ [] → legLaws p.tables = none → ∀ o n,
        allocate s stored.length (inverseEdits s stored).length (s.ws r).returnOpt.isSome = .ok (o, n) →
        s.commitDeferred r = (s.armEntries r (s.ws r) t stored (inverseEdits s stored) o n).endBatch r
          (deferredOutcome (s.ws r) p o n)) := by
  have list : p.applied.filterMap Edit.slotEdit? = stored := by rw [applied, filterMap_slot]
  refine ⟨fun none => ?_, fun some legs o n alloc => ?_⟩
  · have judged : judgeDeferred s (s.ws r) = .ok p := by
      unfold judgeDeferred
      rw [walk]
      dsimp only
      rw [applied, none]
      rfl
    unfold State.commitDeferred
    dsimp only
    rw [judged, trigger]
    dsimp only
    rw [list, none]
    rfl
  · have judged : judgeDeferred s (s.ws r) = .ok p := by
      unfold judgeDeferred
      rw [walk]
      dsimp only
      rw [legs, ite_self]
    unfold State.commitDeferred
    dsimp only
    rw [judged, trigger]
    dsimp only
    rw [list, if_neg (by rwa [List.isEmpty_iff]), alloc]

end

/-- Settles O30. -/
theorem deferredCommitsArmTheirEntries : Obligations.DeferredCommitsArmTheirEntries := by
  intro r s fl t p stored waits trigger walk applied w run tolerance original outcome armed
  obtain ⟨empty, alloc⟩ := commitDeferred_eq trigger walk applied
  have length : p.applied.length = stored.length := by rw [applied, List.length_map]
  have ended : ∀ o n, deferredOutcome w p o n = outcome o n := fun o n => by
    unfold deferredOutcome
    rw [length, waits.2.2.2.2]
    rfl
  refine ⟨fun none => ?_, fun some legs o ho free lowest => ⟨fun noReturn room => ?_, ?_⟩⟩
  · have outcome0 : committedOutcome w p = s.committedWith r 0 p.skipped := by
      unfold committedOutcome
      rw [length, none]
      rfl
    rw [← outcome0]
    exact endsCommit_deferred waits rfl (empty none)
  · obtain ⟨rest, head⟩ := freeEntries_eq_cons ho free lowest
    have given : allocate s stored.length (inverseEdits s stored).length w.returnOpt.isSome = .ok (o, .none) := by
      unfold allocate
      rw [head, noReturn]
      cases rest <;> exact if_pos room
    have arms := armed_arm (e := o) (x := originalEntry r w t stored .none) (armed_reserve (s := s) stored o)
    rw [← armEntries_none r w t stored (inverseEdits s stored) o] at arms
    obtain ⟨frame, slot, record, entry⟩ := arms
    refine ⟨_, ?_, ⟨frame, slot, record⟩, entry⟩
    rw [← ended]
    exact endsCommit_deferred waits (by rw [frame]) (alloc some legs o .none given)
  · intro ro n ret on hn free' next keys rising mem inverse room cue back
    obtain ⟨rest, head⟩ := freeEntries_eq_cons ho free lowest
    obtain ⟨rest', head'⟩ := freeEntries_eq_cons_cons head on hn free' next
    have inverse_eq : inverseEdits s stored = inverse := inverseEdits_eq rising mem
    have given : allocate s stored.length (inverseEdits s stored).length w.returnOpt.isSome = .ok (o, .some n) := by
      unfold allocate
      rw [head', ret, inverse_eq]
      exact if_pos room
    have arms := armed_arm (e := n) (x := returnEntry r w t ro inverse o)
      (armed_arm (e := o) (x := originalEntry r w t stored (.some n)) (armed_reserve (s := s) stored o))
    rw [← armEntries_some r t stored inverse o n ret] at arms
    obtain ⟨frame, slot, record, entry⟩ := arms
    have armed_eq := alloc some legs o (.some n) given
    rw [inverse_eq] at armed_eq
    refine ⟨_, ?_, ⟨frame, slot, record⟩, fun d => (entry d).trans ?_⟩
    · rw [← ended]
      exact endsCommit_deferred waits (by rw [frame]) armed_eq
    · have trigger_eq : returnTrigger t.a ro = back := by
        unfold returnTrigger
        obtain ⟨inCue, duration⟩ := ro
        cases inCue <;> cases duration <;> rfl
      by_cases hd : d = n
      · rw [if_pos hd, if_neg (show ¬ d = o by omega), if_pos hd]
        unfold returnEntry
        rw [trigger_eq]
        rfl
      · rw [if_neg hd, if_neg hd]
        rfl

end Sys2Proof.Machine
end

