-- ==== Sys2Proof/Proofs/Singles.lean ====
section
/-! The IMMEDIATE commit of a batch of one edit (R125 to R132), and a binding that starts a switch (O27). -/

namespace Sys2Proof.Machine

section
variable {s t : State}

/-! ### The picture of one edit -/

theorem known_start {h : Nat} {x : Record} (hx : s.record? h = some x) (named : x.state ≠ .reserved) :
    (Picture.start s).known h = true := by
  unfold Picture.known
  rw [show (Picture.start s).tables.record? h = some x from hx]
  simpa using named

theorem not_retiring_start {h : Nat} {x : Record} (hx : s.record? h = some x) (stays : x.state ≠ .retiring) :
    (Picture.start s).retiring h = false := by
  unfold Picture.retiring
  rw [show (Picture.start s).tables.record? h = some x from hx]
  simpa [Picture.start] using stays

/-- An edit that names known and bindable records, and no reserved slot, passes the checks on the picture (R126). -/
theorem recheck_of_passes {p : Picture} {n : Nat} {e : Edit} (known : ∀ h ∈ e.named, p.known h = true)
    (bindable : ∀ h ∈ e.bound, p.retiring h = false) (free : reservedBy p.tables e = none) : p.recheck n e = none := by
  have named : e.named.find? (fun h => !p.known h) = none :=
    List.find?_eq_none.2 fun h hh => by rw [known h hh]; nofun
  have bound : e.bound.find? p.retiring = none :=
    List.find?_eq_none.2 fun h hh => by rw [bindable h hh]; nofun
  unfold Picture.recheck handleFailure
  rw [named]
  dsimp only
  rw [bound, free]
  rfl

theorem judgeImmediate_single {w : Workspace} {e : Edit} {stamp : Nat} (edits : w.edits = [(e, stamp)])
    (checked : (Picture.start s).recheck 1 e = none) (changes : (Picture.start s).redundant e = false)
    (usable : (Picture.start s).sourceLost e = false) (legs : legLaws (s.paint e) = none)
    (fallbacks : ((Picture.start s).applyEdit 1 e).fallbackFailure = none)
    (unused : ((Picture.start s).applyEdit 1 e).retireFailure = none) :
    judgeImmediate s w = .ok ((Picture.start s).applyEdit 1 e) := by
  have walk : (Picture.start s).walk 1 w.edits = .ok ((Picture.start s).applyEdit 1 e) := by
    rw [edits]
    unfold Picture.walk
    rw [checked]
    unfold Picture.judge
    rw [changes, usable]
    rfl
  unfold judgeImmediate
  rw [walk]
  dsimp only
  rw [show legLaws ((Picture.start s).applyEdit 1 e).tables = none from legs]
  dsimp only
  rw [fallbacks]
  dsimp only
  rw [unused]

/-- A batch of one edit that passes is written and ends COMMITTED with one edit applied. -/
theorem endsCommit_single {r : Requester} {fl : CommitFlight} {e : Edit} {stamp : Nat}
    (waits : s.commitWaits r fl .immediate) (edits : (s.ws r).edits = [(e, stamp)])
    (checked : (Picture.start s).recheck 1 e = none) (changes : (Picture.start s).redundant e = false)
    (usable : (Picture.start s).sourceLost e = false) (legs : legLaws (s.paint e) = none)
    (fallbacks : ((Picture.start s).applyEdit 1 e).fallbackFailure = none)
    (unused : ((Picture.start s).applyEdit 1 e).retireFailure = none) :
    (s.writePicture ((Picture.start s).applyEdit 1 e)).endsCommit (exec (.commitAct r) s) r fl
      (s.committedWith r 1 0) :=
  endsCommit_immediate waits (judgeImmediate_single edits checked changes usable legs fallbacks unused)

/-! ### Parts of the writing that do nothing (R131) -/

theorem refallback_of_same (same : ∀ h, t.fallbackOf h = s.fallbackOf h) (k : Nat) (x : Slot) :
    refallback s t k x = none := by
  unfold refallback
  split
  · rw [same]
    exact if_pos (by simp)
  · rfl

theorem moveSlots_of_none {g : Nat → Slot → Option Move} (none : ∀ k x, g k x = .none) : s.moveSlots g = s := by
  refine foldl_same (fun u => u) _ (fun u k => ?_) _ s
  rw [none]

theorem changeOutput_self (f : Nat) : s.changeOutput f (s.leg f).state = s := by
  unfold State.changeOutput
  cases (s.leg f).state <;> rfl

theorem writeOutputs_of_same (same : t.legs = s.legs) : State.writeOutputs s t = t := by
  suffices ∀ (l : List Nat), l.foldl (fun t f => t.changeOutput f (s.leg f).state) t = t from this _
  intro l
  induction l with
  | nil => rfl
  | cons f l ih =>
    rw [List.foldl_cons, show s.leg f = t.leg f by unfold State.leg; rw [same], changeOutput_self]
    exact ih

/-! ### A slot edit (R131 parts 2 and 3) -/

theorem slotKey_div {f i : Nat} (hi : i < 16) : slotKey f i / 16 = f := by unfold slotKey; omega

theorem slotKey_mod {f i : Nat} (hi : i < 16) : slotKey f i % 16 = i := by unfold slotKey; omega

theorem writeBindings_single {f i : Nat} (b : Option Binding) (hi : i < 16) :
    s.writeBindings [⟨f, i, b⟩] = s.rebind f i b := by
  change s.rebind (slotKey f i / 16) (slotKey f i % 16) b = _
  rw [slotKey_div hi, slotKey_mod hi]

theorem records_rebind {f i : Nat} {b : Option Binding} (changes : (s.slot f i).planned ≠ b) : (s.rebind f i b).records
    = (s.plan ((s.slot f i).planned.map (·.handle)) (b.map (·.handle))).records := by
  rw [(moves_rebind changes).frame]

theorem record?_rebind {f i : Nat} {b : Option Binding} (changes : (s.slot f i).planned ≠ b) (h : Nat) :
    (s.rebind f i b).record? h = (s.record? h).map fun r => { r with
      planned := r.planned + names1 (b.map (·.handle)) h - names1 ((s.slot f i).planned.map (·.handle)) h } := by
  rw [← record?_plan]
  unfold State.record?
  rw [records_rebind changes]

theorem fallbackOf_rebind {f i : Nat} {b : Option Binding} (changes : (s.slot f i).planned ≠ b) (h : Nat) :
    (s.rebind f i b).fallbackOf h = s.fallbackOf h := by
  unfold State.fallbackOf
  rw [record?_rebind changes]
  cases s.record? h <;> rfl

theorem legs_rebind {f i : Nat} {b : Option Binding} (changes : (s.slot f i).planned ≠ b) :
    (s.rebind f i b).legs = s.legs := by
  obtain ⟨v, hv⟩ := plan_eq s ((s.slot f i).planned.map (·.handle)) (b.map (·.handle))
  rw [(moves_rebind changes).frame, hv]

/-- The updates taken change the records and the stream map. -/
theorem takeUpdates_eq (s : State) :
    ∃ v w, s.takeUpdates = { s with updates := [], records := v, smap := w } := by
  unfold State.takeUpdates
  generalize s.updates = l
  suffices ∀ t : State, ∃ v w, l.foldl State.takeUpdate t = { t with records := v, smap := w } from this _
  induction l with
  | nil => exact fun t => ⟨t.records, t.smap, rfl⟩
  | cons u l ih =>
    intro t
    obtain ⟨v, w, h⟩ := ih (t.takeUpdate u)
    exact ⟨v, w, by rw [List.foldl_cons, h, (takeUpdate_counts u).1]⟩

/-- Writing the picture of one slot edit is the change of the slot's binding, and its update (R131). -/
theorem writePicture_slot {f i : Nat} {b : Option Binding} (hi : i < 16) (changes : (s.slot f i).planned ≠ b) :
    s.writePicture ((Picture.start s).applyEdit 1 (.slot ⟨f, i, b⟩)) = (s.rebind f i b).takeUpdates := by
  have written : s.writePicture ((Picture.start s).applyEdit 1 (.slot ⟨f, i, b⟩))
      = State.writeOutputs s ((s.writeBindings [⟨f, i, b⟩]).moveSlots
        (refallback s (s.writeBindings [⟨f, i, b⟩]))).takeUpdates := rfl
  rw [written, writeBindings_single b hi, moveSlots_of_none (refallback_of_same (fallbackOf_rebind changes)),
    writeOutputs_of_same]
  obtain ⟨v, w, h⟩ := takeUpdates_eq (s.rebind f i b)
  rw [h]
  exact legs_rebind changes

/-! ### A binding of an empty slot (R71) -/

/-- A move that keeps what is on air, and is not reported, writes its slot alone. -/
theorem applyMove_still {f i : Nat} {m : Move} (source : (s.slot f i).source = m.slot.source) (silent : m.event = none)
    (stays : (s.slot f i).onAir ≠ .pending) : s.applyMove f i m = s.setSlotAt (slotKey f i) m.slot := by
  unfold State.applyMove
  dsimp only
  rw [show State.changeSource _ f (s.slot f i) m.slot = s.setSlotAt (slotKey f i) m.slot from if_pos source,
    show State.reportMove _ f m = s.setSlotAt (slotKey f i) m.slot by unfold State.reportMove; rw [silent],
    if_neg (by simp [stays])]

theorem rebind_empty {f i : Nat} {b : Binding} (empty : s.slot f i = .start) (usable : s.usable b.handle = true) :
    s.rebind f i (some b) = (s.plan none (some b.handle)).setSlotAt (slotKey f i)
      ⟨some b, .pending, none, none, some ⟨s.uptime, (s.leg f).switchWait⟩, none⟩ := by
  obtain ⟨v, plan⟩ := plan_eq s none (some b.handle)
  have slot : (s.plan none (some b.handle)).slot f i = .start := by rw [plan]; exact empty
  have move : bindMove s f (s.slot f i) (some b)
      = ⟨⟨some b, .pending, none, none, some ⟨s.uptime, (s.leg f).switchWait⟩, none⟩, none⟩ := by
    rw [empty]
    unfold bindMove
    dsimp only
    rw [usable]
    rfl
  rw [rebind_eq (by rw [empty]; nofun), move, empty]
  refine applyMove_still (s := s.plan none (some b.handle)) ?_ rfl ?_ <;> rw [slot]
  · rfl
  · nofun

/-! ### What an answer leaves -/

/-- The answer to a commit changes the port, the mailbox, NETWORK's request in flight, and attention. -/
theorem commitReplied_eq (r : Requester) (fl : CommitFlight) : ∃ p m q a b, s.commitReplied r fl
    = { s with port := p, mailbox := m, netFlight := q, attention := a, attn := b } := by
  unfold State.commitReplied
  dsimp only
  split
  · exact ⟨_, s.mailbox, s.netFlight, s.attention, s.attn, rfl⟩
  · unfold State.posted
    split
    · obtain ⟨a, b, h⟩ := raise_eq (s := { s with netFlight := none, mailbox := _ }) .relayWaiting _
      exact ⟨s.port, _, none, a, b, h⟩
    · exact ⟨s.port, s.mailbox, none, s.attention, s.attn, rfl⟩
  · exact ⟨s.port, s.mailbox, s.netFlight, s.attention, s.attn, rfl⟩

/-- The state after a commit whose batch had reserved no record, and whose slots left no report. -/
theorem next_of_endsCommit {u : State} {run : Host.Outcome State Fault Refusal} {r : Requester} {fl : CommitFlight}
    {o : OutcomeRecord} (ended : u.endsCommit run r fl o) (settled : u.reports = []) (created : (u.ws r).handles = []) :
    ∃ t, run = .next t ∧ t.slots = u.slots ∧ (∀ h, t.record? h = u.record? h) ∧ t.outcome r = o ∧ t.outs = u.outs
      ∧ t.counts = u.counts ∧ t.marks = u.marks ∧ t.entries = u.entries ∧ t.pairs = u.pairs ∧ t.clock = u.clock
      ∧ t.cues = u.cues ∧ t.inputs = u.inputs := by
  obtain ⟨v, ⟨frame, records, -⟩, run⟩ := ended
  have reports : v.reports = [] := by rw [frame]; simpa using settled
  have kept : ∀ h, v.record? h = u.record? h := fun h => (records h).2 fun freed => by
    rw [created] at freed
    exact List.not_mem_nil freed.1
  have outcome : v.outcome r = o := by rw [frame]; exact (outcome_setOutcome ..).trans (if_pos rfl)
  obtain ⟨p, m, q, a, c, replied⟩ := commitReplied_eq (s := v) r fl
  rw [takeReports_of_nil v reports, replied] at run
  refine ⟨_, run, ?_, kept, outcome, ?_⟩
  · change v.slots = u.slots
    rw [frame]
    simp
  · change v.outs = _ ∧ v.counts = _ ∧ v.marks = _ ∧ v.entries = _ ∧ v.pairs = _ ∧ v.clock = _ ∧ v.cues = _ ∧ v.inputs = _
    rw [frame]
    simp

end

/-- Settles O27. -/
theorem aCommittedBindingStartsASwitch : Obligations.ACommittedBindingStartsASwitch := by
  intro r s fl f i b x stamp awake quiet canonical hf hi flight mode handles edits empty record live legs fallbacks
  have waits : s.commitWaits r fl .immediate := ⟨awake, quiet, canonical, flight, mode⟩
  have changes : (s.slot f i).planned ≠ some b := by rw [empty]; nofun
  have usable : s.usable b.handle = true := by unfold State.usable; rw [record]; simp [live]
  have ended := endsCommit_single waits edits (e := .slot ⟨f, i, some b⟩)
    (recheck_of_passes (fun h hh => by cases List.mem_singleton.1 hh; exact known_start record (by rw [live]; nofun))
      (fun h hh => by cases List.mem_singleton.1 hh; exact not_retiring_start record (by rw [live]; nofun))
      (by unfold reservedBy; dsimp only; rw [show (Picture.start s).tables.slot f i = _ from empty]; rfl))
    (beq_eq_false_iff_ne.2 changes)
    (by unfold Picture.sourceLost; dsimp only; rw [show (Picture.start s).tables.record? _ = _ from record]; simp [live])
    legs fallbacks rfl
  obtain ⟨v, plan⟩ := plan_eq s none (some b.handle)
  have bound := rebind_empty empty usable
  have frame : s.rebind f i (some b) = { s with
      records := (s.rebind f i (some b)).records, slots := (s.rebind f i (some b)).slots } := by rw [bound, plan]; rfl
  have written : s.writePicture ((Picture.start s).applyEdit 1 (.slot ⟨f, i, some b⟩)) = s.rebind f i (some b) :=
    (writePicture_slot hi changes).trans (takeUpdates_nil _ (by rw [frame]; exact quiet.2.2.1))
  rw [written] at ended
  have ws : (s.rebind f i (some b)).ws r = s.ws r := by rw [frame]; cases r <;> rfl
  obtain ⟨t, run, slots, records, outcome, rest⟩ := next_of_endsCommit ended (by rw [frame]; exact quiet.2.2.2.1)
    (by rw [ws]; exact handles)
  have slotAt : ∀ k, t.slotAt k = (s.rebind f i (some b)).slotAt k := fun k => by unfold State.slotAt; rw [slots]
  have record?_t : ∀ h, t.record? h = (s.record? h).map fun q => { q with
      planned := q.planned + names1 (some b.handle) h } := fun h => by
    rw [records, record?_rebind changes, empty]
    rfl
  refine ⟨t, run, ?_, fun k hk => ?_, ?_, fun h hh => ?_, ?_, ?_⟩
  · unfold State.slot
    rw [slotAt, bound, slotAt_setSlotAt, if_pos rfl]
  · rw [slotAt, slotAt_rebind changes, if_neg fun e => hk e.symm]
  · rw [record?_t, record, names1_some, if_pos rfl]
    rfl
  · rw [record?_t, names1_some, if_neg fun e => hh e.symm]
    exact Option.map_id' ..
  · rw [outcome]
    unfold State.committedWith
    rw [mode]
  · rw [frame] at rest
    exact rest

end Sys2Proof.Machine
end

