-- ==== Sys2Proof/Proofs/Unbinds.lean ====
section
/-! An UNBIND SLOT that commits (R13, R71, R78 to R80, R86, R131). -/

namespace Sys2Proof.Machine

section
variable {s : State} {f i : Nat} {b : Binding}

/-- At most one update waits, that of a slot whose source has changed. -/
theorem takeUpdates_one {a c : Option Nat} (h : s.updates = if a = c then [] else [⟨a, c⟩]) (off : c = none) :
    s.takeUpdates = ({ s with updates := [] } : State).takeUpdate ⟨a, c⟩ := by
  subst off
  cases a with
  | none =>
    rw [takeUpdates_nil s h]
    exact congrArg (fun l => ({ s with updates := l } : State)) h
  | some o => rw [takeUpdates_cons s h, takeUpdates_nil _ (updates_takeUpdate _ _)]

/-- A RETIRING record that its last slot leaves is freed (R14, R18). -/
def State.freedBy (s : State) (x : Slot) (h : Nat) : Prop :=
  x.source = some h ∧ ∃ y, s.record? h = some y ∧ y.state = .retiring ∧ y.onAir ≤ 1

/-- The slot's change of binding hands on its update, which the records take. -/
theorem unbind_eq (hi : i < 16) (planned : (s.slot f i).planned = some b) (noUpdates : s.updates = []) :
    s.writePicture ((Picture.start s).applyEdit 1 (.slot ⟨f, i, none⟩))
      = ({ s.rebind f i none with updates := [] } : State).takeUpdate ⟨(s.slot f i).source, none⟩ := by
  have changes : (s.slot f i).planned ≠ none := by rw [planned]; nofun
  obtain ⟨v, plan⟩ := plan_eq s ((s.slot f i).planned.map (·.handle)) none
  rw [writePicture_slot hi changes]
  refine takeUpdates_one ?_ rfl
  rw [(moves_rebind changes).updates]
  exact (congrArg (· ++ _) (show State.updates _ = [] by rw [Option.map_none, plan]; exact noUpdates)).trans
    (List.nil_append _)

theorem leaves_unbound (planned : (s.slot f i).planned = some b) (h : Nat) :
    ({ s.rebind f i none with updates := [] } : State).leaves ⟨(s.slot f i).source, none⟩ h
      ↔ s.freedBy (s.slot f i) h := by
  have record : ({ s.rebind f i none with updates := [] } : State).record? h = _ :=
    record?_rebind (s := s) (f := f) (i := i) (b := none) (by rw [planned]; nofun) h
  unfold State.leaves State.freedBy
  refine and_congr_right fun source => ?_
  rw [record]
  cases s.record? h with
  | none => simp
  | some y =>
    have one : names1 (s.slot f i).source h = 1 := if_pos source
    simp only [Option.map_some, Option.some.injEq, exists_eq_left', Record.aired, names1_none, one]
    exact and_congr_right fun _ => by omega

/-- The marks of the range that the slot leaves are due (R86). -/
theorem marks_emptied {x : Slot} (planned : x.planned = some b) (q : Nat) :
    x.marks Slot.start q ↔ x.source ≠ none ∧ b.base ≤ q ∧ q < b.base + 8 := by
  unfold Slot.marks
  rw [planned, show Slot.start.planned.or (some b) = some b from rfl]
  constructor
  · rintro ⟨c, hc, lo, hi, other | ⟨a, ha, -, moved⟩⟩
    · cases hc
      exact ⟨other, lo, hi⟩
    · cases hc
      cases ha
      exact absurd rfl moved
  · rintro ⟨other, lo, hi⟩
    exact ⟨b, rfl, lo, hi, .inl other⟩

theorem unbound_slot (x : Slot) (reserved : x.reserved = none) (f : Nat) :
    bindMove s f x none = ⟨.start, none⟩ := by
  unfold bindMove
  dsimp only
  rw [reserved]
  rfl

/-- What an UNBIND SLOT that commits leaves. -/
structure State.unbound (s u : State) (f i : Nat) (b : Binding) : Prop where
  frame : u = { s with
    records := u.records, smap := u.smap, slots := u.slots, marks := u.marks
    reports := if (s.slot f i).onAir = .pending ∧ s.trackers f i ≠ [] then [⟨f, i, s.trackers f i⟩] else [] }
  slot : ∀ k, u.slotAt k = if k = slotKey f i then .start else s.slotAt k
  freed : ∀ h, s.freedBy (s.slot f i) h → u.record? h = none
  stays : ∀ h, ¬ s.freedBy (s.slot f i) h → u.record? h = (s.record? h).map fun y => { y with
    planned := y.planned - (if b.handle = h then 1 else 0)
    onAir := y.onAir - (if (s.slot f i).source = some h then 1 else 0) }
  smap : ∀ c, c ∈ u.smap ↔ c ∈ s.smap ∧ ¬ s.freedBy (s.slot f i) c.2.handle
  marks : ∀ g q, q < 8192 → (u.mark g q = true ↔ s.mark g q = true
    ∨ (g = f ∧ (s.slot f i).source ≠ none ∧ b.base ≤ q ∧ q < b.base + 8))

theorem moves_unbind (planned : (s.slot f i).planned = some b) (reserved : (s.slot f i).reserved = none) :
    (s.plan (some b.handle) none).moves (s.rebind f i none) f i (s.slot f i) .start none := by
  have moved := moves_rebind (s := s) (f := f) (i := i) (new := none) (by rw [planned]; nofun)
  rwa [unbound_slot _ reserved, planned] at moved

theorem rebind_none_eq (planned : (s.slot f i).planned = some b) (reserved : (s.slot f i).reserved = none)
    (quiet : s.quiet) : ∃ v x u m, s.rebind f i none = { s with
      records := v, slots := x, updates := u, marks := m
      reports := if (s.slot f i).onAir = .pending ∧ s.trackers f i ≠ [] then [⟨f, i, s.trackers f i⟩] else [] } := by
  obtain ⟨v, plan⟩ := plan_eq s (some b.handle) none
  have moved := moves_unbind planned reserved
  rw [plan] at moved
  have reports : (s.rebind f i none).reports = if (s.slot f i).onAir = .pending ∧ s.trackers f i ≠ []
      then [⟨f, i, s.trackers f i⟩] else [] := by
    rw [moved.reports]
    refine (congrArg (· ++ _) quiet.2.2.2.1).trans ?_
    have left : Slot.start.onAir ≠ .pending := by decide
    simp only [State.leftReport, left, List.nil_append, ne_eq, not_false_eq_true, true_and]
    rfl
  refine ⟨v, (s.rebind f i none).slots, (s.rebind f i none).updates, (s.rebind f i none).marks, moved.frame.trans ?_⟩
  rw [moved.pairs, reports]
  rfl

theorem unbound_writePicture (hi : i < 16) (planned : (s.slot f i).planned = some b)
    (reserved : (s.slot f i).reserved = none) (base : b.base ≤ 0x1FF7) (quiet : s.quiet) :
    s.unbound (s.writePicture ((Picture.start s).applyEdit 1 (.slot ⟨f, i, none⟩))) f i b := by
  have changes : (s.slot f i).planned ≠ none := by rw [planned]; nofun
  have leaves := leaves_unbound (s := s) planned
  have record := record?_rebind changes
  have slot := slotAt_rebind changes
  have marks := (moves_unbind planned reserved).marks fun c hc => by
    rw [planned] at hc
    rcases hc with hc | hc <;> cases hc
    exact base
  obtain ⟨w, plan⟩ := plan_eq s (some b.handle) none
  obtain ⟨frame, records, smap⟩ := takeUpdate_counts (s := { s.rebind f i none with updates := [] })
    ⟨(s.slot f i).source, none⟩
  rw [unbind_eq hi planned quiet.2.2.1]
  obtain ⟨v, x, u, m, bound⟩ := rebind_none_eq planned reserved quiet
  rw [bound] at leaves record slot marks frame records smap ⊢
  rw [unbound_slot _ reserved] at slot
  rw [plan] at marks
  generalize State.takeUpdate _ _ = z at *
  refine ⟨?_, fun k => ?_, fun h freed => (records h).1 ((leaves h).2 freed), fun h stays => ?_, fun c => ?_,
    fun g q hq => ?_⟩
  · have slots : z.slots = x := by rw [frame]
    have marks : z.marks = m := by rw [frame]
    rw [slots, marks]
    refine frame.trans ?_
    rw [← quiet.2.2.1]
  · have same : z.slotAt k = if slotKey f i = k then Slot.start else s.slotAt k := by rw [frame]; exact slot k
    simpa only [eq_comm] using same
  · refine ((records h).2 (mt (leaves h).1 stays)).trans ((congrArg (Option.map _) (record h)).trans ?_)
    rw [Option.map_map, planned]
    congr 1
    funext y
    simp only [Function.comp, Record.aired, Option.map_none, Option.map_some, names1_none, names1_some, Nat.add_zero]
    rfl
  · rw [smap c, leaves]
  · have same : z.marks = m := by rw [frame]
    rw [mark_congr (s := { s with marks := m }) same]
    refine (marks g q hq).trans (or_congr_right (and_congr_right fun _ => marks_emptied planned q))

end
end Sys2Proof.Machine
end

