-- ==== Sys2Proof/Proofs/Directories.lean ====
section
/-! The packets of a directory, and its build (R92 to R97, R185). -/

namespace Sys2Proof.Machine

/-! ### A packet of a directory -/

theorem toNat_low5 (start : Bool) (x : Byte) :
    (((if start then 0x40#8 else 0) ||| (x &&& 0x1F#8)) &&& 0x1F#8).toNat = x.toNat % 32 := by
  revert start x
  decide

theorem bit6_low5 (start : Bool) (x : Byte) :
    ((if start then 0x40#8 else 0) ||| (x &&& 0x1F#8)).getLsbD 6 = start := by
  revert start x
  decide

theorem toNat_low4 (x : Byte) : ((0x10#8 ||| (x &&& 0x0F#8)) &&& 0x0F#8).toNat = x.toNat % 16 := by
  revert x
  decide

theorem bit4_low4 (x : Byte) : (0x10#8 ||| (x &&& 0x0F#8)).getLsbD 4 = true := by
  revert x
  decide

theorem bit5_low4 (x : Byte) : (0x10#8 ||| (x &&& 0x0F#8)).getLsbD 5 = false := by
  revert x
  decide

section
variable (start : Bool) (pid n : Nat) (content : List Byte)

theorem length_directoryPacket (h : content.length ≤ 184) : (directoryPacket start pid n content).length = 188 := by
  unfold directoryPacket headerPid
  simp only [List.length_append, List.length_cons, List.length_nil, List.length_replicate]
  omega

theorem head?_directoryPacket : (directoryPacket start pid n content).head? = some 0x47#8 := rfl

theorem drop_directoryPacket : (directoryPacket start pid n content).drop 4
    = content ++ List.replicate (184 - content.length) 0xFF#8 := rfl

theorem pktPid_directoryPacket (h : pid < 8192) : pktPid (directoryPacket start pid n content) = pid := by
  have high := toNat_low5 start (BitVec.ofNat 8 (pid / 256))
  have low : (BitVec.ofNat 8 pid).toNat = pid % 256 := BitVec.toNat_ofNat pid 8
  rw [BitVec.toNat_ofNat] at high
  have value : pktPid (directoryPacket start pid n content)
      = 256 * (((if start then 0x40#8 else 0) ||| (BitVec.ofNat 8 (pid / 256) &&& 0x1F#8)) &&& 0x1F#8).toNat
        + (BitVec.ofNat 8 pid).toNat := rfl
  rw [value, high, low]
  omega

theorem pktContinuity_directoryPacket : pktContinuity (directoryPacket start pid n content) = n % 16 := by
  have nibble := toNat_low4 (BitVec.ofNat 8 n)
  rw [BitVec.toNat_ofNat] at nibble
  exact nibble.trans (Nat.mod_mod_of_dvd n (by decide))

theorem pktPayloadStart_directoryPacket : pktPayloadStart (directoryPacket start pid n content) = start :=
  bit6_low5 start _

theorem pktHasPayload_directoryPacket : pktHasPayload (directoryPacket start pid n content) = true := bit4_low4 _

theorem pktHasField_directoryPacket : pktHasField (directoryPacket start pid n content) = false := bit5_low4 _

end

/-! ### The packets of a directory -/

theorem directoryChunks_ne_nil (content : List Byte) : directoryChunks content ≠ [] := List.cons_ne_nil _ _

theorem length_of_mem_directoryChunks {content c : List Byte} (h : c ∈ directoryChunks content) : c.length ≤ 184 := by
  unfold directoryChunks at h
  rcases List.mem_cons.1 h with rfl | h
  · simp only [List.length_append, List.length_cons, List.length_nil, List.length_take]
    omega
  · split at h
    · cases h
    · rcases List.mem_cons.1 h with rfl | h
      · exact List.length_take_le ..
      · split at h
        · cases h
        · rw [List.mem_singleton.1 h]
          exact List.length_take_le ..

theorem getElem?_directoryPackets {pid n k : Nat} {content p : List Byte}
    (h : (directoryPackets pid n content)[k]? = some p) :
    ∃ c ∈ directoryChunks content, p = directoryPacket (k == 0) pid ((n + k) % 16) c := by
  unfold directoryPackets at h
  rw [List.getElem?_mapIdx, Option.map_eq_some_iff] at h
  obtain ⟨c, hc, rfl⟩ := h
  exact ⟨c, List.mem_of_getElem? hc, rfl⟩

theorem drop_directoryPacket_full {start : Bool} {pid n : Nat} {content : List Byte} (h : content.length = 184) :
    (directoryPacket start pid n content).drop 4 = content := by
  rw [drop_directoryPacket, h]
  exact List.append_nil _

/-- The payloads of the packets are a pointer byte, the content, and a fill that leaves the last packet begun. -/
theorem payloads_directoryPackets (pid n : Nat) {content : List Byte} (h : content.length ≤ 551) :
    ∃ fill < 184, (directoryPackets pid n content).flatMap (·.drop 4)
      = [0x00#8] ++ content ++ List.replicate fill 0xFF#8 := by
  have all := List.take_append_drop 183 content
  unfold directoryPackets directoryChunks
  by_cases one : content.length ≤ 183
  · refine ⟨183 - content.length, by omega, ?_⟩
    rw [if_pos one]
    simp [drop_directoryPacket, List.take_of_length_le one]
  · rw [if_neg one]
    have first : ([0#8] ++ content.take 183).length = 184 := by simp; omega
    by_cases two : content.length ≤ 367
    · refine ⟨367 - content.length, by omega, ?_⟩
      have rest : (content.drop 183).take 184 = content.drop 183 := List.take_of_length_le (by rw [List.length_drop]; omega)
      rw [if_pos two, rest]
      simp only [List.mapIdx_cons, List.mapIdx_nil, List.flatMap_cons, List.flatMap_nil, List.append_nil]
      rw [drop_directoryPacket_full first, drop_directoryPacket, List.length_drop, ← List.append_assoc,
        List.append_assoc [0#8], all, show 184 - (content.length - 183) = 367 - content.length by omega]
    · refine ⟨551 - content.length, by omega, ?_⟩
      have second : ((content.drop 183).take 184).length = 184 := by simp; omega
      have last : (content.drop 367).take 184 = content.drop 367 := List.take_of_length_le (by rw [List.length_drop]; omega)
      have rest := List.take_append_drop 184 (content.drop 183)
      rw [List.drop_drop] at rest
      rw [if_neg two, last]
      simp only [List.mapIdx_cons, List.mapIdx_nil, List.flatMap_cons, List.flatMap_nil, List.append_nil]
      rw [drop_directoryPacket_full first, drop_directoryPacket_full second, drop_directoryPacket, List.length_drop,
        ← List.append_assoc (List.take 184 _), rest, ← List.append_assoc, List.append_assoc [0#8], all,
        show 184 - (content.length - 367) = 551 - content.length by omega]

/-! ### The length of a directory -/

theorem length_flatMap_le {α β : Type} {f : α → List β} {m : Nat} {l : List α} (h : ∀ a ∈ l, (f a).length ≤ m) :
    (l.flatMap f).length ≤ m * l.length := by
  induction l with
  | nil => exact Nat.zero_le _
  | cons a l ih =>
    have first := h a (List.mem_cons_self ..)
    have rest := ih fun b hb => h b (List.mem_cons_of_mem _ hb)
    rw [List.flatMap_cons, List.length_append, List.length_cons, Nat.mul_add, Nat.mul_one]
    omega

theorem length_encDirectoryEntry {e : DirectoryEntry} (h : e.components.length ≤ 8) :
    (encDirectoryEntry e).length ≤ 28 := by
  have components := length_flatMap_le (f := fun c : Component => bytesOf 2 c.pid ++ bytesOf 1 c.kind.num) (m := 3)
    (l := e.components) fun c _ => by rw [List.length_append, length_bytesOf, length_bytesOf]
  unfold encDirectoryEntry encFlag
  simp only [List.length_append, length_bytesOf, List.length_cons, List.length_nil]
  omega

theorem length_encDirectory {d : Directory} (slots : d.entries.length ≤ 16)
    (components : ∀ e ∈ d.entries, e.components.length ≤ 8) (v : BitVec 5) : (encDirectory d v).length ≤ 458 := by
  have entries := length_flatMap_le (f := encDirectoryEntry) (m := 28) fun e he => length_encDirectoryEntry (components e he)
  unfold encDirectory
  simp only [List.length_append, length_bytesOf, List.length_cons, List.length_nil]
  omega

section
variable {s : State} {f : Nat}

theorem components_directoryOf (h : ∀ k x, s.record? k = some x → x.components.length ≤ 8) :
    ∀ e ∈ (s.directoryOf f).entries, e.components.length ≤ 8 := by
  intro e he
  obtain ⟨i, -, hi⟩ := List.mem_filterMap.1 he
  unfold State.directoryEntry? at hi
  rw [Option.map_eq_some_iff] at hi
  obtain ⟨b, -, rfl⟩ := hi
  dsimp only [outputComponents]
  rw [List.length_mapIdx]
  cases hr : s.record? (listedRecord (s.leg f).state (s.slot f i) b) with
  | none => exact Nat.zero_le _
  | some x => exact h _ x hr

theorem length_directoryOf : (s.directoryOf f).entries.length ≤ 16 := List.length_filterMap_le _ (List.range 16)

/-! ### A build (R92 to R97) -/

/-- The version of the next directory: it rises when the content is not the last built (R97). -/
def LegOut.nextVersion (o : LegOut) (d : Directory) : BitVec 5 :=
  if o.last = none ∨ o.last = some d then o.version else o.version + 1

/-- The packets of the next directory of a leg (R96). -/
def State.nextPackets (s : State) (f : Nat) : List (List Byte) :=
  directoryPackets (s.leg f).dirPid (s.count f (s.leg f).dirPid)
    (encDirectory (s.directoryOf f) ((s.out f).nextVersion (s.directoryOf f)))

theorem buildDirectory_eq : s.buildDirectory f = (s.setOut f { s.out f with
      due := (s.out f).due ++ s.nextPackets f, last := some (s.directoryOf f)
      version := (s.out f).nextVersion (s.directoryOf f) }).setCount f (s.leg f).dirPid
        ((s.count f (s.leg f).dirPid + (s.nextPackets f).length) % 16) := by
  unfold State.buildDirectory State.nextPackets LegOut.nextVersion
  dsimp only
  cases (s.out f).last with
  | none => simp
  | some l => by_cases e : l = s.directoryOf f <;> simp [e]

theorem out_setCount (g pid n k : Nat) : (s.setCount g pid n).out k = s.out k := rfl

theorem startDirectory_eq : ∃ a b, s.startDirectory f = { s with outs := a, counts := b } := by
  unfold State.startDirectory
  rw [buildDirectory_eq]
  exact ⟨_, _, rfl⟩

theorem out_startDirectory (g : Nat) : (s.startDirectory f).out g = if f = g then { s.out f with
    due := (s.out f).due ++ s.nextPackets f, timer := some ⟨s.uptime, (s.leg f).dirPeriod⟩
    last := some (s.directoryOf f), version := (s.out f).nextVersion (s.directoryOf f) } else s.out g := by
  unfold State.startDirectory
  rw [buildDirectory_eq]
  dsimp only
  simp only [out_setOut, out_setCount, if_true]
  split <;> rfl

theorem count_startDirectory (g q : Nat) : (s.startDirectory f).count g q
    = if pidKey f (s.leg f).dirPid = pidKey g q
      then (s.count f (s.leg f).dirPid + (s.nextPackets f).length) % 16 else s.count g q := by
  unfold State.startDirectory
  rw [buildDirectory_eq]
  exact count_setCount ..

theorem directoryBuilt_startDirectory : s.directoryBuilt (s.startDirectory f) f := by
  refine ⟨s.nextPackets f, ?_, fun g hg => ?_, ?_, fun n p hp => ?_, fun pid g q hq => ?_, fun components => ?_⟩
  · intro none
    have length := congrArg List.length none
    unfold State.nextPackets directoryPackets at length
    rw [List.length_mapIdx] at length
    exact directoryChunks_ne_nil _ (List.length_eq_zero_iff.1 length)
  · rw [out_startDirectory, if_neg fun e => hg e.symm]
  · exact (out_startDirectory f).trans (if_pos rfl)
  · obtain ⟨c, hc, rfl⟩ := getElem?_directoryPackets hp
    refine ⟨length_directoryPacket _ _ _ _ (length_of_mem_directoryChunks hc), rfl,
      fun pid => pktPid_directoryPacket _ _ _ _ pid, ?_, ?_, pktHasPayload_directoryPacket .., pktHasField_directoryPacket ..⟩
    · rw [pktContinuity_directoryPacket, Nat.mod_mod]
    · rw [pktPayloadStart_directoryPacket]
      rfl
  · rw [count_startDirectory]
    have key : pidKey f (s.leg f).dirPid = pidKey g q ↔ g = f ∧ q = (s.leg f).dirPid := by
      unfold pidKey
      omega
    by_cases own : g = f ∧ q = (s.leg f).dirPid
    · rw [if_pos (key.2 own), if_pos own, own.1, own.2]
    · rw [if_neg (mt key.1 own), if_neg own]
  · have length := length_encDirectory length_directoryOf (components_directoryOf (f := f) components)
      ((s.out f).nextVersion (s.directoryOf f))
    have payloads := payloads_directoryPackets (s.leg f).dirPid (s.count f (s.leg f).dirPid) (Nat.le_trans length (by decide))
    rw [out_startDirectory, if_pos rfl]
    exact payloads

end

end Sys2Proof.Machine
end

