-- ==== Sys2Proof/Proofs/LegEdits.lean ====
section
/-! A SET LEG that commits, and what it does at the output (R60, R86, R92); UNBIND SLOT and SET LEG written (O29). -/

namespace Sys2Proof.Machine

section
variable {s t : State} {f : Nat}

/-! ### Marks of the planned ranges (R86) -/

theorem marksDue_markPlanned (base : ∀ i < 16, ∀ b, (s.slot f i).planned = some b → b.base ≤ 0x1FF7) :
    s.marksDue (s.markPlanned f) f := by
  intro g q hq
  unfold State.markPlanned
  suffices ∀ (l : List Nat) (t : State), (∀ i ∈ l, i < 16) → t.slots = s.slots →
      ((l.foldl (fun t i => match (t.slot f i).planned with
        | some b => t.markRange f b.base
        | none => t) t).mark g q = true ↔ t.mark g q = true
          ∨ (g = f ∧ ∃ i ∈ l, ∃ b, (s.slot f i).planned = some b ∧ b.base ≤ q ∧ q < b.base + 8)) by
    refine (this (List.range 16) s (fun i => List.mem_range.1) rfl).trans ?_
    simp only [List.mem_range]
  intro l
  induction l with
  | nil => simp
  | cons i l ih =>
    intro t hl slots
    have slot : t.slot f i = s.slot f i := by unfold State.slot State.slotAt; rw [slots]
    have hi := hl i (List.mem_cons_self ..)
    have hl' := fun j hj => hl j (List.mem_cons_of_mem _ hj)
    rw [List.foldl_cons, slot]
    cases planned : (s.slot f i).planned with
    | none =>
      refine (ih t hl' slots).trans (or_congr_right (and_congr_right fun _ => ?_))
      simp [planned]
    | some b =>
      obtain ⟨m, marked⟩ := markRange_eq t f b.base
      refine (ih (t.markRange f b.base) hl' (by rw [marked]; exact slots)).trans ?_
      rw [mark_markRange (base i hi b planned) hq, or_assoc, ← and_or_left]
      refine or_congr_right (and_congr_right fun _ => ?_)
      simp [planned]

theorem markPlanned_eq (s : State) (f : Nat) : ∃ m, s.markPlanned f = { s with marks := m } :=
  foldl_marks_eq (fun t i => by
    split
    · exact markRange_eq t f _
    · exact ⟨t.marks, rfl⟩) _ s

/-! ### A change of leg state at the output (R92) -/

theorem changeOutput_muted (new : (s.leg f).state = .muted) :
    s.changeOutput f .onAir = s.setOut f { s.out f with buffer := [] } := by
  unfold State.changeOutput
  rw [new]

theorem changeOutput_idle {old : LegState} (was : old ≠ .idle) (new : (s.leg f).state = .idle) :
    s.changeOutput f old = s.setOut f { s.out f with buffer := [], due := [], timer := none } := by
  unfold State.changeOutput
  rw [new]
  cases old with
  | idle => exact absurd rfl was
  | onAir | muted => rfl

theorem changeOutput_shown (new : (s.leg f).state = .onAir) : s.changeOutput f .muted = s.markPlanned f := by
  unfold State.changeOutput
  rw [new]

/-- Out of IDLE the directory is started, after the marks when the leg goes ON_AIR. -/
theorem changeOutput_started (new : (s.leg f).state ≠ .idle) : s.changeOutput f .idle
    = (if (s.leg f).state = .onAir then s.markPlanned f else s).startDirectory f := by
  unfold State.changeOutput
  cases h : (s.leg f).state with
  | idle => exact absurd h new
  | onAir | muted => rfl

/-- A directory does not depend on the marks. -/
theorem directoryBuilt_with_marks (m : Table Bool) (u : State) :
    ({ s with marks := m } : State).directoryBuilt u f ↔ s.directoryBuilt u f := Iff.rfl

/-- What a change of leg state does at the output. -/
structure State.outputChanged (s u : State) (f : Nat) (old new : LegState) : Prop where
  frame : u = { s with outs := u.outs, counts := u.counts, marks := u.marks }
  kept : old = new → u.outs = s.outs
  muted : old = .onAir → new = .muted → u.outs = (s.setOut f { s.out f with buffer := [] }).outs
  shown : old = .muted → new = .onAir → u.outs = s.outs
  idle : old ≠ .idle → new = .idle → u.outs = (s.setOut f { s.out f with buffer := [], due := [], timer := none }).outs
  started : old = .idle → new ≠ .idle → s.directoryBuilt u f
  counts : old ≠ .idle ∨ new = .idle → u.counts = s.counts
  due : new = .onAir → old ≠ .onAir → s.marksDue u f
  marks : new ≠ .onAir ∨ old = .onAir → u.marks = s.marks

theorem outputChanged_same : s.outputChanged s f (s.leg f).state (s.leg f).state :=
  ⟨rfl, fun _ => rfl, fun h k => (nomatch h.symm.trans k), fun h k => (nomatch h.symm.trans k),
    fun h k => absurd k h, fun h k => absurd h k, fun _ => rfl, fun h k => absurd h k, fun _ => rfl⟩

theorem outputChanged_started {u : State} {new : LegState} (frame : u = { s with outs := u.outs, counts := u.counts, marks := u.marks })
    (started : s.directoryBuilt u f) (some : new ≠ .idle) (due : new = .onAir → s.marksDue u f)
    (marks : new ≠ .onAir → u.marks = s.marks) : s.outputChanged u f .idle new :=
  ⟨frame, fun h => absurd h.symm some, nofun, nofun, fun h => absurd rfl h, fun _ _ => started,
    fun h => h.elim (fun h => absurd rfl h) fun h => absurd h some, fun h _ => due h,
    fun h => h.elim marks nofun⟩

theorem outputChanged_muted : s.outputChanged (s.setOut f { s.out f with buffer := [] }) f .onAir .muted :=
  ⟨rfl, nofun, fun _ _ => rfl, nofun, nofun, nofun, fun _ => rfl, nofun, fun _ => rfl⟩

theorem outputChanged_idle {old : LegState} (was : old ≠ .idle) :
    s.outputChanged (s.setOut f { s.out f with buffer := [], due := [], timer := none }) f old .idle :=
  ⟨rfl, fun h => absurd h was, nofun, nofun, fun _ _ => rfl, fun h => absurd h was, fun _ => rfl, nofun, fun _ => rfl⟩

theorem outputChanged_shown {m : Table Bool} (due : s.marksDue { s with marks := m } f) :
    s.outputChanged { s with marks := m } f .muted .onAir :=
  ⟨rfl, nofun, nofun, fun _ _ => rfl, nofun, nofun, fun _ => rfl, fun _ _ => due,
    fun h => h.elim (fun h => absurd rfl h) nofun⟩

theorem outputChanged_changeOutput (base : ∀ i < 16, ∀ b, (s.slot f i).planned = some b → b.base ≤ 0x1FF7)
    (old : LegState) : s.outputChanged (s.changeOutput f old) f old (s.leg f).state := by
  obtain ⟨m, marked⟩ := markPlanned_eq s f
  have due := marksDue_markPlanned base
  rw [marked] at due
  by_cases same : old = (s.leg f).state
  · rw [same, changeOutput_self]
    exact outputChanged_same
  · cases old with
    | idle =>
      have new : (s.leg f).state ≠ .idle := fun h => same h.symm
      rw [changeOutput_started new, marked]
      by_cases onAir : (s.leg f).state = .onAir
      · obtain ⟨a, b, built⟩ := startDirectory_eq (s := { s with marks := m }) (f := f)
        have start := (directoryBuilt_with_marks m _).1 (directoryBuilt_startDirectory (s := { s with marks := m }) (f := f))
        rw [if_pos onAir]
        rw [built] at start ⊢
        exact outputChanged_started rfl start new (fun _ => due) fun h => absurd onAir h
      · obtain ⟨a, b, built⟩ := startDirectory_eq (s := s) (f := f)
        have start := directoryBuilt_startDirectory (s := s) (f := f)
        rw [if_neg onAir]
        rw [built] at start ⊢
        exact outputChanged_started rfl start new (fun h => absurd h onAir) fun _ => rfl
    | onAir =>
      cases new : (s.leg f).state with
      | idle =>
        rw [changeOutput_idle (old := .onAir) (by decide) new]
        exact outputChanged_idle (by decide)
      | onAir => exact absurd new.symm same
      | muted =>
        rw [changeOutput_muted new]
        exact outputChanged_muted
    | muted =>
      cases new : (s.leg f).state with
      | idle =>
        rw [changeOutput_idle (old := .muted) (by decide) new]
        exact outputChanged_idle (by decide)
      | onAir =>
        rw [changeOutput_shown new, marked]
        exact outputChanged_shown due
      | muted => exact absurd new.symm same

/-! ### The legs that have changed (R131 part 5) -/

theorem legs_changeOutput (f : Nat) (old : LegState) : (t.changeOutput f old).legs = t.legs := by
  unfold State.changeOutput
  split
  · obtain ⟨m, marked⟩ := markPlanned_eq t f
    obtain ⟨a, b, built⟩ := startDirectory_eq (s := t.markPlanned f) (f := f)
    rw [built, marked]
  · obtain ⟨a, b, built⟩ := startDirectory_eq (s := t) (f := f)
    rw [built]
  · rfl
  · obtain ⟨m, marked⟩ := markPlanned_eq t f
    rw [marked]
  all_goals rfl

theorem writeOutputs_of_one (hf : f < 24) (others : ∀ g, g ≠ f → t.leg g = s.leg g) :
    State.writeOutputs s t = t.changeOutput f (s.leg f).state := by
  suffices ∀ (l : List Nat) (t : State), l.Nodup → (∀ g, g ≠ f → t.leg g = s.leg g) →
      l.foldl (fun t g => t.changeOutput g (s.leg g).state) t
        = if f ∈ l then t.changeOutput f (s.leg f).state else t by
    exact (this _ t List.nodup_range others).trans (if_pos (List.mem_range.2 hf))
  intro l
  induction l with
  | nil => intro t _ _; rfl
  | cons a l ih =>
    intro t nodup others
    rw [List.nodup_cons] at nodup
    rw [List.foldl_cons]
    by_cases own : a = f
    · subst own
      rw [ih _ nodup.2 fun g hg => by
        unfold State.leg
        rw [legs_changeOutput]
        exact others g hg, if_neg nodup.1, if_pos (List.mem_cons_self ..)]
    · rw [← others a own, changeOutput_self, ih t nodup.2 others]
      have : f ∈ a :: l ↔ f ∈ l := by simp [Ne.symm own]
      simp only [this]

theorem writePicture_setLeg (l : LegFields) (noUpdates : s.updates = []) :
    s.writePicture ((Picture.start s).applyEdit 1 (.setLeg l))
      = State.writeOutputs s (s.setLeg l.feed (l.apply (s.leg l.feed))) := by
  have written : s.writePicture ((Picture.start s).applyEdit 1 (.setLeg l))
      = State.writeOutputs s ((s.setLeg l.feed (l.apply (s.leg l.feed))).moveSlots
        (refallback s (s.setLeg l.feed (l.apply (s.leg l.feed))))).takeUpdates := rfl
  have still := moveSlots_of_none (s := s.setLeg l.feed (l.apply (s.leg l.feed)))
    (refallback_of_same (s := s) (t := s.setLeg l.feed (l.apply (s.leg l.feed))) fun _ => rfl)
  rw [written, still, takeUpdates_nil (s.setLeg _ _) noUpdates]

end

/-- Settles O29. -/
theorem slotAndLegEditsAreWritten : Obligations.SlotAndLegEditsAreWritten := by
  intro r s fl stamp waits run passes
  refine ⟨?_, ?_⟩
  · intro f i b hf hi pass x planned reserved base freed
    obtain ⟨edits, legs, fallbacks⟩ := pass
    have changes : (s.slot f i).planned ≠ none := by rw [planned]; nofun
    have free : reservedBy s (.slot ⟨f, i, none⟩) = none := by unfold reservedBy; dsimp only; rw [reserved]; rfl
    have ended := endsCommit_single waits edits (recheck_of_passes nofun nofun free) (beq_eq_false_iff_ne.2 changes) rfl
      legs fallbacks rfl
    obtain ⟨frame, slot, gone, stays, smap, marks⟩ := unbound_writePicture hi planned reserved base waits.2.1
    exact ⟨_, ended, frame, slot, gone, stays, smap, marks⟩
  · intro l hf pass base f old new
    obtain ⟨edits, legs, fallbacks⟩ := pass
    have ended := endsCommit_single waits edits (recheck_of_passes nofun nofun rfl) rfl rfl legs fallbacks rfl
    rw [writePicture_setLeg l waits.2.1.2.2.1,
      writeOutputs_of_one hf fun g hg => (leg_setLeg ..).trans (if_neg fun e => hg e.symm)] at ended
    have changed := outputChanged_changeOutput (s := s.setLeg f new) (f := f) base old.state
    have legs_eq := legs_changeOutput (t := s.setLeg f new) f old.state
    rw [leg_setLeg, if_pos rfl] at changed
    obtain ⟨frame, kept, muted, shown, idle, started, counts, due, marks⟩ := changed
    refine ⟨(s.setLeg f new).changeOutput f old.state, ended, ?_, fun g => ?_, kept, muted, shown, idle, fun was is => ?_, counts, due, marks⟩
    · refine frame.trans ?_
      rw [legs_eq]
      rfl
    · unfold State.leg
      rw [legs_eq]
      exact (leg_setLeg s f g new).trans (if_congr eq_comm rfl rfl)
    · rw [legs_eq]
      exact started was is

end Sys2Proof.Machine
end

