-- ==== Sys2Proof/Proofs/Follows.lean ====
section
/-! The counts of the records follow the slots when the updates that a move hands on are taken (R13, R14, R18, R78). -/

namespace Sys2Proof.Machine

section
variable {s t u : State}

/-! ### Updates taken -/

/-- From `s` to `t` on-air counts have moved, and RETIRING records are FREE with their stream map entries gone. -/
structure State.followed (s t : State) : Prop where
  kept : ∀ h v, t.record? h = some v → ∃ y, s.record? h = some y ∧ v = { y with onAir := v.onAir }
  stays : ∀ h q, s.record? h = some q → q.state ≠ .retiring → (t.record? h).isSome
  smap : ∀ c, c ∈ t.smap ↔ c ∈ s.smap ∧ ((s.record? c.2.handle).isSome → (t.record? c.2.handle).isSome)

theorem followed_of_same (records : t.records = s.records) (smap : t.smap = s.smap) : s.followed t := by
  have same : ∀ h, t.record? h = s.record? h := fun h => by unfold State.record?; rw [records]
  refine ⟨fun h v hv => ⟨v, same h ▸ hv, rfl⟩, fun h q hq _ => by rw [same, hq]; rfl, fun c => ?_⟩
  rw [same, smap]
  exact ⟨fun hc => ⟨hc, id⟩, fun hc => hc.1⟩

theorem State.followed.trans (h : s.followed t) (k : t.followed u) : s.followed u := by
  have back : ∀ g, (t.record? g).isSome → (s.record? g).isSome := fun g some => by
    obtain ⟨v, hv⟩ := Option.isSome_iff_exists.1 some
    obtain ⟨y, hy, -⟩ := h.kept g v hv
    rw [hy]
    rfl
  have back' : ∀ g, (u.record? g).isSome → (t.record? g).isSome := fun g some => by
    obtain ⟨v, hv⟩ := Option.isSome_iff_exists.1 some
    obtain ⟨y, hy, -⟩ := k.kept g v hv
    rw [hy]
    rfl
  refine ⟨fun g v hv => ?_, fun g q hq live => ?_, fun c => ?_⟩
  · obtain ⟨y, hy, ev⟩ := k.kept g v hv
    obtain ⟨z, hz, ey⟩ := h.kept g y hy
    exact ⟨z, hz, by rw [ev, ey]⟩
  · obtain ⟨y, hy⟩ := Option.isSome_iff_exists.1 (h.stays g q hq live)
    obtain ⟨z, hz, ey⟩ := h.kept g y hy
    rw [hq] at hz
    cases hz
    exact k.stays g y hy (by rw [ey]; exact live)
  · rw [k.smap, h.smap]
    constructor
    · rintro ⟨⟨hc, first⟩, second⟩
      exact ⟨hc, fun some => second (first some)⟩
    · rintro ⟨hc, both⟩
      exact ⟨⟨hc, fun some => back' _ (both some)⟩, fun some => both (back _ some)⟩

theorem followed_takeUpdate (a : OnAirUpdate) : s.followed (s.takeUpdate a) := by
  obtain ⟨-, records, smap⟩ := takeUpdate_counts (s := s) a
  have there : ∀ h, (s.record? h).isSome → (((s.takeUpdate a).record? h).isSome ↔ ¬ s.leaves a h) := fun h some => by
    by_cases left : s.leaves a h
    · rw [(records h).1 left]
      simp [left]
    · rw [(records h).2 left, Option.isSome_map, some]
      simp [left]
  refine ⟨fun h v hv => ?_, fun h q hq live => ?_, fun c => ?_⟩
  · by_cases left : s.leaves a h
    · rw [(records h).1 left] at hv
      cases hv
    · rw [(records h).2 left, Option.map_eq_some_iff] at hv
      obtain ⟨y, hy, rfl⟩ := hv
      exact ⟨y, hy, rfl⟩
  · refine (there h (by rw [hq]; rfl)).2 ?_
    rintro ⟨-, r, hr, retiring, -⟩
    rw [hq] at hr
    cases hr
    exact live retiring
  · rw [smap]
    refine and_congr_right fun _ => ⟨fun stays some => (there _ some).2 stays, fun stays left => ?_⟩
    have some : (s.record? c.2.handle).isSome := by
      obtain ⟨-, r, hr, -⟩ := left
      rw [hr]
      rfl
    exact (there _ some).1 (stays some) left

theorem followed_takeUpdates : s.followed s.takeUpdates := by
  suffices ∀ (l : List OnAirUpdate) (s : State), s.updates = l → s.followed s.takeUpdates from this _ s rfl
  intro l
  induction l with
  | nil => intro s h; rw [takeUpdates_nil s h]; exact followed_of_same rfl rfl
  | cons a l ih =>
    intro s h
    rw [takeUpdates_cons s h]
    have first : s.followed ({ s with updates := l } : State) := followed_of_same rfl rfl
    exact first.trans ((followed_takeUpdate a).trans (ih _ (updates_takeUpdate _ _)))

/-- A record is freed when it is RETIRING, an update takes from its count, and no slot has it on air (R14, R18). -/
theorem freed_takeUpdates {h : Nat} {q : Record} (fits : s.airsAll) (hq : s.record? h = some q) :
    s.takeUpdates.record? h = none ↔ q.state = .retiring ∧ oldsIn s.updates h ≠ 0 ∧ s.airings h = 0 := by
  suffices ∀ (l : List OnAirUpdate) (s : State) (q : Record), s.updates = l → s.airsAll → s.record? h = some q →
      (s.takeUpdates.record? h = none ↔ q.state = .retiring ∧ oldsIn l h ≠ 0 ∧ s.airings h = 0) from
    this _ s q rfl fits hq
  intro l
  induction l with
  | nil =>
    intro s q none fits hq
    rw [takeUpdates_nil s none, hq]
    simp [oldsIn]
  | cons a l ih =>
    intro s q hl fits hq
    obtain ⟨frame, records, -⟩ := takeUpdate_counts (s := { s with updates := l }) a
    have airs : ({ s with updates := l }.takeUpdate a).airings h = s.airings h := airings_of_slots (by rw [frame]) h
    have fits' := airsAll_update hl fits
    obtain ⟨fit, -, news⟩ := airsFit_aired hl s.records (fits h q hq)
    replace fit : (q.aired a h).onAir + newsIn l h = s.airings h + oldsIn l h := fit
    replace news : q.state = .retiring → newsIn l h = 0 := news
    rw [takeUpdates_cons s hl, oldsIn_cons]
    by_cases left : ({ s with updates := l } : State).leaves a h
    · have gone : ({ s with updates := l }.takeUpdate a).takeUpdates.record? h = none := by
        rw [Option.eq_none_iff_forall_ne_some]
        intro v hv
        obtain ⟨y, hy, -⟩ := followed_takeUpdates.kept h v hv
        rw [(records h).1 left] at hy
        cases hy
      obtain ⟨old, r, hr, retiring, zero⟩ := left
      cases hq.symm.trans hr
      have none := news retiring
      have one : names1 a.old h = 1 := if_pos old
      exact iff_of_true gone ⟨retiring, by omega, by omega⟩
    · have hq' : ({ s with updates := l }.takeUpdate a).record? h = some (q.aired a h) := by
        rw [(records h).2 left]
        exact congrArg (Option.map _) hq
      rw [ih _ _ (updates_takeUpdate _ _) fits' hq', airs]
      refine and_congr_right fun retiring => ?_
      have none := news retiring
      by_cases old : a.old = some h
      · have count : (q.aired a h).onAir ≠ 0 := fun zero => left ⟨old, q, hq, retiring, zero⟩
        have one : names1 a.old h = 1 := if_pos old
        exact ⟨fun ⟨_, air⟩ => ⟨by omega, air⟩, fun ⟨_, air⟩ => ⟨by omega, air⟩⟩
      · rw [show names1 a.old h = 0 from if_neg old, Nat.zero_add]

/-! ### The counts after moves -/

theorem airsAll_of_countsTrue (noUpdates : s.updates = []) (counts : s.countsTrue) : s.airsAll := fun h x hx => by
  have count : x.onAir = s.airings h := (counts h x hx).2
  unfold State.airsFit
  rw [noUpdates]
  exact ⟨by rw [count]; rfl, fun n => by rw [List.take_nil]; exact Nat.zero_le _, fun _ => rfl⟩

/-- The slots have moved to fit sources, keeping their bindings, and the updates that this handed on are taken. -/
theorem countsFollow_moveSlots {g : Nat → Slot → Option Move} (lawful : ∀ k x m, g k x = some m → m.slot.law)
    (sources : ∀ k x m, g k x = some m → s.maySource x m.slot) (c : s.canonical) (noUpdates : s.updates = [])
    (binding : ∀ k, ((s.moveSlots g).slotAt k).planned = (s.slotAt k).planned) :
    s.countsFollow (s.moveSlots g).takeUpdates := by
  have cm := (kept_moveSlots s fun k x m h _ => lawful k x m h).canonical c
  obtain ⟨a, b, d, e, f, moved⟩ := moveSlots_eq s g
  have records : (s.moveSlots g).records = s.records := by rw [moved]
  have record : ∀ h, (s.moveSlots g).record? h = s.record? h := fun h => by unfold State.record?; rw [records]
  have follow : s.followed (s.moveSlots g).takeUpdates :=
    (followed_of_same records (by rw [moved])).trans followed_takeUpdates
  obtain ⟨v, w, taken⟩ := takeUpdates_eq (s.moveSlots g)
  have slots : (s.moveSlots g).takeUpdates.slots = (s.moveSlots g).slots := by rw [taken]
  have slotAt : ∀ k, (s.moveSlots g).takeUpdates.slotAt k = (s.moveSlots g).slotAt k := fun k => by
    unfold State.slotAt; rw [slots]
  refine ⟨follow.stays, follow.smap, fun counts => ?_⟩
  have fits := steady_airsAll.moveSlots lawful sources c (airsAll_of_countsTrue noUpdates counts)
  have fits' := steady_airsAll.takeUpdates cm fits
  refine ⟨fun h x hx => ?_, fun h q hq => ?_⟩
  · obtain ⟨y, hy, ex⟩ := follow.kept h x hx
    refine ⟨?_, ?_⟩
    · have same : (s.moveSlots g).takeUpdates.bindings h = s.bindings h :=
        bindings_congr c ((kept_takeUpdates _).canonical cm) h fun k => by rw [slotAt, binding]
      have planned : x.planned = y.planned := by rw [ex]
      exact planned.trans ((counts h y hy).1.trans same.symm)
    · obtain ⟨fit, -, -⟩ := fits' h _ hx
      rw [updates_takeUpdates] at fit
      exact fit
  · rw [freed_takeUpdates fits ((record h).trans hq)]
    refine and_congr_right fun retiring => ?_
    obtain ⟨fit, -, news⟩ := fits h q ((record h).trans hq)
    rw [news retiring] at fit
    have count : q.onAir = s.airings h := (counts h q hq).2
    constructor
    · rintro ⟨olds, air⟩
      refine ⟨?_, fun k hk => absurd air (airings_pos (slotAt k ▸ hk)).ne'⟩
      by_contra none
      exact absurd (airings_eq_zero (not_exists.1 none) c) (by omega)
    · rintro ⟨⟨k, hk⟩, off⟩
      have air := airings_eq_zero (fun k => slotAt k ▸ off k) cm
      have before := airings_pos hk
      exact ⟨by omega, air⟩

/-- A change of the records that the counts do not see. -/
theorem countsFollow_congr {f : Nat → Record → Record} (records : ∀ h, s.record? h = (t.record? h).map (f h))
    (same : ∀ h x, (f h x).state = x.state ∧ (f h x).planned = x.planned ∧ (f h x).onAir = x.onAir)
    (slots : s.slots = t.slots) (smap : s.smap = t.smap) (h : s.countsFollow u) : t.countsFollow u := by
  obtain ⟨stays, entries, follows⟩ := h
  have slotAt : ∀ k, s.slotAt k = t.slotAt k := fun k => by unfold State.slotAt; rw [slots]
  have image : ∀ g q, t.record? g = some q → s.record? g = some (f g q) := fun g q hq => by rw [records, hq]; rfl
  refine ⟨fun g q hq live => stays g _ (image g q hq) (by rw [(same g q).1]; exact live), fun c => ?_, fun counts => ?_⟩
  · rw [entries, smap, records, Option.isSome_map]
  · have true : s.countsTrue := fun g x hx => by
      rw [records, Option.map_eq_some_iff] at hx
      obtain ⟨y, hy, rfl⟩ := hx
      rw [slots, (same g y).2.1, (same g y).2.2]
      exact counts g y hy
    refine ⟨(follows true).1, fun g q hq => ?_⟩
    rw [(follows true).2 g _ (image g q hq), (same g q).1]
    simp only [slotAt]

end

end Sys2Proof.Machine
end

