-- ==== Sys2Proof/Proofs/RecordEdits.lean ====
section
/-! A CREATE RECORD, an AMEND RECORD or a RETIRE RECORD that commits (O28). -/

namespace Sys2Proof.Machine

section
variable {s : State}

/-- A record that is committed can be named, and is not RETIRING. -/
def Record.committed (x : Record) : Prop := x.state = .live ∨ x.state = .lost ∨ x.state = .restoring

theorem Record.committed.named {x : Record} (h : x.committed) : x.state ≠ .reserved := by
  rcases h with h | h | h <;> rw [h] <;> nofun

theorem Record.committed.stays {x : Record} (h : x.committed) : x.state ≠ .retiring := by
  rcases h with h | h | h <;> rw [h] <;> nofun

/-- A fallback that an edit sets is a record that is LIVE or RESTORING. -/
def State.soundFallback (s : State) (fb : Option Nat) : Prop :=
  ∀ h, fb = some h → ∃ y, s.record? h = some y ∧ (y.state = .live ∨ y.state = .restoring)

theorem State.soundFallback.passes {fb : Option Nat} (sound : s.soundFallback fb) : ∀ h ∈ fb.toList,
    (Picture.start s).known h = true ∧ (Picture.start s).retiring h = false := by
  intro h hh
  obtain ⟨y, hy, usable⟩ := sound h (by simpa using hh)
  have committed : y.committed := usable.imp id .inr
  exact ⟨known_start hy committed.named, not_retiring_start hy committed.stays⟩

theorem State.soundFallback.not_lost {fb : Option Nat} (sound : s.soundFallback fb) :
    (Picture.start s).lostFallback fb = false := by
  unfold Picture.lostFallback
  cases fb with
  | none => rfl
  | some h =>
    obtain ⟨y, hy, usable⟩ := sound h rfl
    rw [Option.any_some, show (Picture.start s).tables.record? h = some y from hy]
    rcases usable with e | e <;> simp [e]

/-! ### CREATE RECORD (R10, R16) -/

theorem fallbackOf_commitRecord (h g : Nat) : (s.commitRecord h).fallbackOf g = s.fallbackOf g := by
  unfold State.fallbackOf
  rw [record?_commitRecord]
  cases s.record? g with
  | none => rfl
  | some r =>
    dsimp only [Option.map_some]
    split <;> rfl

theorem writePicture_create (h : Nat) (c : CreateFields) (noUpdates : s.updates = []) :
    s.writePicture ((Picture.start s).applyEdit 1 (.create h c)) = s.commitRecord h := by
  obtain ⟨v, e⟩ := commitRecord_eq s h
  have written : s.writePicture ((Picture.start s).applyEdit 1 (.create h c))
      = State.writeOutputs s ((s.commitRecord h).moveSlots (refallback s (s.commitRecord h))).takeUpdates := rfl
  rw [written, moveSlots_of_none (refallback_of_same (fallbackOf_commitRecord h)),
    takeUpdates_nil _ (by rw [e]; exact noUpdates), writeOutputs_of_same (by rw [e])]

theorem created_commitRecord {h : Nat} {c : CreateFields} {x : Record} (hx : s.record? h = some x)
    (reserved : x.state = .reserved) (same : x.fallback = c.fallback) (sound : s.soundFallback c.fallback) (g : Nat) :
    (s.commitRecord h).record? g = (s.record? g).map fun y =>
      if g = h then { y with state := .live, silence := some s.uptime, hold := none, silentFlag := false }
      else if c.fallback = some g then { y with fallbackRefs := y.fallbackRefs + 1 } else y := by
  have fallback : s.fallbackOf h = c.fallback := by unfold State.fallbackOf; rw [hx]; exact same
  have other : c.fallback ≠ some h := fun e => by
    obtain ⟨y, hy, usable⟩ := sound h e
    cases hx.symm.trans hy
    rw [reserved] at usable
    exact usable.elim nofun nofun
  rw [record?_commitRecord, fallback]
  congr 1
  funext y
  by_cases own : h = g
  · subst own
    rw [if_pos rfl, if_pos rfl, show names1 c.fallback h = 0 from if_neg other]
    rfl
  · rw [if_neg own, if_neg fun e => own e.symm]
    unfold names1
    split <;> rfl

theorem find?_smap_commitRecord (h k : Nat) : Table.find? (s.commitRecord h).smap k
    = (Table.find? s.smap k).map fun m => if m.handle = h then { m with active := true, lastCount := none } else m := by
  obtain ⟨v, e⟩ := commitRecord_eq s h
  rw [e]
  exact Table.find?_map s.smap (fun _ m => activate h m) k

/-! ### RETIRE RECORD (R17) -/

theorem writePicture_retire (h : Nat) (noUpdates : s.updates = []) :
    s.writePicture ((Picture.start s).applyEdit 1 (.retire h)) = s.retireRecord h := by
  have written : s.writePicture ((Picture.start s).applyEdit 1 (.retire h))
      = State.writeOutputs s ((s.moveSlots (refallback s s)).takeUpdates.retireRecord h) := rfl
  have legs : (s.retireRecord h).legs = s.legs := by
    obtain ⟨v, -, ⟨-, e⟩ | ⟨r, -, ⟨-, e⟩ | ⟨-, e⟩⟩⟩ := retireRecord_cases s h <;> rw [e] <;> rfl
  rw [written, moveSlots_of_none (refallback_of_same fun _ => rfl), takeUpdates_nil _ noUpdates,
    writeOutputs_of_same legs]

theorem retired_retireRecord {h : Nat} {x : Record} (hx : s.record? h = some x) (other : x.fallback ≠ some h) :
    s.retireRecord h = { s with records := (s.retireRecord h).records, smap := (s.retireRecord h).smap }
      ∧ (∀ g, g ≠ h → (s.retireRecord h).record? g = (s.record? g).map fun y =>
        if x.fallback = some g then { y with fallbackRefs := y.fallbackRefs - 1 } else y)
      ∧ (x.onAir = 0 → (s.retireRecord h).record? h = none
        ∧ ∀ c, c ∈ (s.retireRecord h).smap ↔ c ∈ s.smap ∧ c.2.handle ≠ h)
      ∧ (x.onAir ≠ 0 → (s.retireRecord h).smap = s.smap ∧ (s.retireRecord h).record? h = some { x with
        state := .retiring, hold := none, fallback := none, silentFlag := decide (x.state = .lost) }) := by
  have fallback : s.fallbackOf h = x.fallback := by unfold State.fallbackOf; rw [hx]
  have counted : ∀ g y, ({ y with fallbackRefs := y.fallbackRefs - names1 (s.fallbackOf h) g } : Record)
      = if x.fallback = some g then { y with fallbackRefs := y.fallbackRefs - 1 } else y := fun g y => by
    rw [fallback]
    unfold names1
    split <;> rfl
  obtain ⟨v, hv, ⟨none, -⟩ | ⟨r, hr, ⟨zero, e⟩ | ⟨more, e⟩⟩⟩ := retireRecord_cases s h
  · rw [hx] at none
    cases none
  · cases hx.symm.trans hr
    rw [e]
    refine ⟨rfl, fun g hg => ?_, fun _ => ⟨?_, fun c => ?_⟩, fun more => absurd zero more⟩
    · rw [record?_freeRecord, if_neg fun e => hg e.symm, hv]
      simp only [counted]
    · rw [record?_freeRecord, if_pos rfl]
    · unfold State.freeRecord
      simp only [List.mem_filter, bne_iff_ne, ne_eq]
  · cases hx.symm.trans hr
    rw [e]
    refine ⟨rfl, fun g hg => ?_, fun zero => absurd zero more, fun _ => ⟨rfl, ?_⟩⟩
    · rw [record?_setRecord, if_neg fun e => hg e.symm, hv]
      simp only [counted]
    · rw [record?_setRecord, if_pos rfl, counted, if_neg other]
      unfold Record.retire
      congr 2

end

end Sys2Proof.Machine
end

