-- ==== Sys2Proof/Proofs/Amends.lean ====
section
/-! An AMEND RECORD that commits (R12, R16, R46, R54, R131), and the record edits written (O28). -/

namespace Sys2Proof.Machine

section
variable {s t : State} {a : AmendFields} {x : Record}

/-! ### The amended record (R12, R16) -/

/-- The fallback that an AMEND RECORD leaves. -/
def AmendFields.newFallback (a : AmendFields) (x : Record) : Option Nat :=
  if a.clearFallback then none else if a.setFallback.isSome then a.setFallback else x.fallback

theorem fallback_apply (a : AmendFields) (x : Record) : (a.apply x).fallback = a.newFallback x := by
  unfold AmendFields.apply AmendFields.newFallback
  cases a.setFallback <;> rfl

theorem fallbackOf_of_record {h : Nat} (hx : s.record? h = some x) : s.fallbackOf h = x.fallback := by
  unfold State.fallbackOf
  rw [hx]

theorem record?_amended (hx : s.record? a.handle = some x) (g : Nat) : (s.amendRecord a).record? g
    = (s.record? g).map fun y => { (if a.handle = g then a.apply y else y) with
      fallbackRefs := y.fallbackRefs + names1 (a.newFallback x) g - names1 x.fallback g } := by
  rw [record?_amendRecord, fallbackOf_of_record hx, hx, Option.bind_some, fallback_apply]
  congr 1
  funext y
  dsimp only
  split <;> rfl

theorem fallbackOf_amendRecord (hx : s.record? a.handle = some x) (g : Nat) :
    (s.amendRecord a).fallbackOf g = if a.handle = g then a.newFallback x else s.fallbackOf g := by
  unfold State.fallbackOf
  rw [record?_amended hx]
  by_cases own : a.handle = g
  · subst own
    rw [hx, if_pos rfl, ← fallback_apply]
    simp
  · rw [if_neg own]
    cases s.record? g with
    | none => rfl
    | some y => simp [own]

/-- An amendment keeps what decides whether a record is usable and fit. -/
theorem kept_apply (a : AmendFields) (own : Prop) [Decidable own] (n : Nat) (y : Record) :
    let z := { (if own then a.apply y else y) with fallbackRefs := n }
    z.state = y.state ∧ z.silentFlag = y.silentFlag ∧ z.planned = y.planned ∧ z.onAir = y.onAir ∧ z.cls = y.cls := by
  dsimp only
  split <;> exact ⟨rfl, rfl, rfl, rfl, rfl⟩

theorem usable_amendRecord (hx : s.record? a.handle = some x) (g : Nat) :
    (s.amendRecord a).usable g = s.usable g := by
  unfold State.usable
  rw [record?_amended hx]
  cases s.record? g with
  | none => rfl
  | some y =>
    dsimp only [Option.map_some]
    rw [(kept_apply a (a.handle = g) _ y).1]

theorem onAirFit_amendRecord (hx : s.record? a.handle = some x) (g : Nat) :
    (s.amendRecord a).onAirFit g = s.onAirFit g := by
  unfold State.onAirFit
  rw [record?_amended hx]
  cases s.record? g with
  | none => rfl
  | some y =>
    dsimp only [Option.map_some]
    obtain ⟨state, flag, -⟩ := kept_apply a (a.handle = g)
      (y.fallbackRefs + names1 (a.newFallback x) g - names1 x.fallback g) y
    rw [state, flag]

/-! ### The moves of slots whose fallback changes (R54) -/

theorem goFallback_moveEvent {y : Slot} {p : Nat} (off : y.onAir = .substituted ∨ (s.usableFallback p).isSome) :
    (goFallback s y p).event = moveEvent .switchedForced y (goFallback s y p).slot := by
  unfold goFallback
  cases fb : s.usableFallback p with
  | some g =>
    unfold moveEvent
    by_cases h : y.onAir = .substituted <;> simp [h]
  | none =>
    have state : y.onAir = .substituted := off.resolve_right (by rw [fb]; nofun)
    unfold goSlated moveEvent
    simp [state]

theorem fallbackMove_keeps {f p : Nat} {y : Slot} {old : Option Nat} {m : Move} (h : fallbackMove s f y p old = some m) :
    m.slot.planned = y.planned ∧ m.event = moveEvent .switchedForced y m.slot ∧ y.onAir ≠ .pending := by
  unfold fallbackMove at h
  split at h
  · next state =>
    have off : y.onAir ≠ .pending := by rw [state]; nofun
    split at h
    · cases h
      split
      · exact ⟨planned_enterPending _ _ _ _, enterPending_moveEvent _ _ _ state, off⟩
      · exact ⟨planned_goFallback _ _ _, goFallback_moveEvent (.inl state), off⟩
    · cases h
  · next state =>
    have off : y.onAir ≠ .pending := by rw [state]; nofun
    split at h
    · next usable =>
      cases h
      rw [Bool.and_eq_true] at usable
      exact ⟨planned_goFallback _ _ _, goFallback_moveEvent (.inr usable.2), off⟩
    · cases h
  all_goals cases h

theorem refallback_keeps {before : State} {k : Nat} {y : Slot} {m : Move} (h : refallback before s k y = some m) :
    m.slot.planned = y.planned ∧ m.event = moveEvent .switchedForced y m.slot ∧ y.onAir ≠ .pending := by
  unfold refallback at h
  split at h
  · split at h
    · cases h
    · exact fallbackMove_keeps h
  · cases h

theorem keepsBinding_refallback (before : State) : keepsBinding (moveEvent .switchedForced) (refallback before s) :=
  fun _ _ _ h => ⟨(refallback_keeps h).1, (refallback_keeps h).2.1⟩

/-- Each slot makes the move that its planned record's change of fallback gives. -/
theorem slotAt_refallbacks (before : State) (c : s.canonical) (k : Nat) :
    (s.moveSlots (refallback before s)).slotAt k
      = ((refallback before s k (s.slotAt k)).map (·.slot)).getD (s.slotAt k) := by
  rw [slotAt_moveSlots s (canonical_slots_rising c) fun _ => rfl]
  cases refallback before s k (s.slotAt k) <;> rfl

theorem refallback_other {k : Nat} {y : Slot} (hx : s.record? a.handle = some x)
    (other : y.planned.map (·.handle) ≠ some a.handle ∨ x.fallback = a.newFallback x) :
    refallback s (s.amendRecord a) k y = none := by
  unfold refallback
  cases planned : y.planned with
  | none => rfl
  | some b =>
    have same : s.fallbackOf b.handle = (s.amendRecord a).fallbackOf b.handle := by
      rw [fallbackOf_amendRecord hx]
      split
      · next own =>
        rw [← own, fallbackOf_of_record hx]
        exact other.resolve_left fun h => h (by rw [planned, own]; rfl)
      · rfl
    exact if_pos (by rw [same]; simp)

theorem refallback_own {k : Nat} {y : Slot} (hx : s.record? a.handle = some x) (slot : s.slotAt k = y)
    (own : y.planned.map (·.handle) = some a.handle) (changed : x.fallback ≠ a.newFallback x) :
    refallback s (s.amendRecord a) k y = fallbackMove (s.amendRecord a) (k / 16) y a.handle x.fallback := by
  rw [Option.map_eq_some_iff] at own
  obtain ⟨b, planned, own⟩ := own
  have was := fallbackOf_of_record hx
  have is := fallbackOf_amendRecord hx a.handle
  rw [if_pos rfl] at is
  unfold refallback
  rw [planned]
  dsimp only
  rw [own, slot, planned, was, is, if_neg (by simpa using changed)]

/-- The slot of the amended record, which goes to its new fallback or off air. -/
theorem goFallback_slot {y : Slot} {p : Nat} (fb : Option Nat) (fallback : s.fallbackOf p = fb) :
    (goFallback s y p).slot = if fb.any s.usable then { y with
        onAir := .substituted, source := fb, outgoing := none, deadline := none }
      else { y with onAir := .slated, source := none, outgoing := none, deadline := none } := by
  unfold goFallback State.usableFallback
  rw [fallback]
  cases fb with
  | none => rfl
  | some h =>
    rw [Option.any_some]
    dsimp only
    by_cases usable : s.usable h = true
    · rw [if_pos usable, if_pos usable]
    · rw [if_neg usable, if_neg usable]
      rfl

/-! ### What is written -/

/-- The slots have moved and their updates are taken. -/
def State.amended (s : State) (a : AmendFields) : State :=
  ((s.amendRecord a).moveSlots (refallback s (s.amendRecord a))).takeUpdates

theorem timedAmends_amend (a : AmendFields) :
    timedAmends [.amend a] = if a.lossWindow.isSome || a.restoreHold.isSome then [a.handle] else [] := by
  unfold timedAmends
  rw [List.filterMap_cons]
  dsimp only
  cases a.lossWindow.isSome || a.restoreHold.isSome <;> rfl

theorem writePicture_amend (s : State) (a : AmendFields) : s.writePicture ((Picture.start s).applyEdit 1 (.amend a))
    = if a.lossWindow.isSome || a.restoreHold.isSome then (s.amended a).fallDue a.handle else s.amended a := by
  have written : s.writePicture ((Picture.start s).applyEdit 1 (.amend a))
      = (timedAmends [.amend a]).foldl State.fallDue (State.writeOutputs s (s.amended a)) := rfl
  have legs : (s.amended a).legs = s.legs := by
    obtain ⟨v, w, taken⟩ := takeUpdates_eq ((s.amendRecord a).moveSlots (refallback s (s.amendRecord a)))
    obtain ⟨b, c, d, e, f, moved⟩ := moveSlots_eq (s.amendRecord a) (refallback s (s.amendRecord a))
    obtain ⟨r, amended⟩ := amendRecord_eq s a
    unfold State.amended
    rw [taken, moved, amended]
  rw [written, writeOutputs_of_same legs, timedAmends_amend]
  split <;> rfl

/-- The slots' moves, whose leg events are counted by the classes of their planned records (R79). -/
theorem pairs_reportFor_of_classes (classes : ∀ h, (s.record? h).map (·.cls) = (t.record? h).map (·.cls))
    (h : s.pairs = t.pairs) (f : Nat) (e : LegEvent) (p n : Nat) : (s.reportFor f e p n).pairs = (t.reportFor f e p n).pairs := by
  have cls := classes p
  unfold State.reportFor
  cases hs : s.record? p with
  | none =>
    rw [hs, Option.map_none] at cls
    rw [Option.map_eq_none_iff.1 cls.symm]
    exact h
  | some x =>
    rw [hs, Option.map_some] at cls
    obtain ⟨y, ht, same⟩ := Option.map_eq_some_iff.1 cls.symm
    rw [ht]
    dsimp only
    rw [same]
    exact pairs_report_congr h f e _ n

theorem pairs_reportEvent_of_classes (classes : ∀ h, (s.record? h).map (·.cls) = (t.record? h).map (·.cls))
    (h : s.pairs = t.pairs) (f : Nat) (o : Option LegEvent) (y : Slot) :
    (s.reportEvent f o y).pairs = (t.reportEvent f o y).pairs := by
  unfold State.reportEvent
  split
  · exact pairs_reportFor_of_classes classes h f _ _ 0
  · exact h

theorem pairs_foldl_reports {l : List Nat} {event : Slot → Slot → Option LegEvent} {x y : Nat → Slot}
    (classes : ∀ h, (s.record? h).map (·.cls) = (t.record? h).map (·.cls)) (h : s.pairs = t.pairs) :
    (l.foldl (fun t k => t.reportEvent (k / 16) (event (x k) (y k)) (y k)) s).pairs
      = (l.foldl (fun t k => t.reportEvent (k / 16) (event (x k) (y k)) (y k)) t).pairs := by
  induction l generalizing s t with
  | nil => exact h
  | cons k l ih =>
    obtain ⟨v, hv⟩ := reportEvent_eq (s := s) (k / 16) (event (x k) (y k)) (y k)
    obtain ⟨w, hw⟩ := reportEvent_eq (s := t) (k / 16) (event (x k) (y k)) (y k)
    refine ih (fun p => ?_) (pairs_reportEvent_of_classes classes h _ _ _)
    dsimp only
    rw [hv, hw]
    exact classes p

/-- What an AMEND RECORD leaves, before an act of its own falls due. -/
structure State.amends (s u : State) (a : AmendFields) (x : Record) : Prop where
  frame : u = { s with
    records := u.records, smap := u.smap, slots := u.slots, marks := u.marks, pairs := u.pairs }
  counts : s.countsFollow u
  marks : s.marksMoved u
  events : s.eventsCounted u (moveEvent .switchedForced)
  record : ∀ g v, u.record? g = some v → ∃ y, s.record? g = some y ∧ v = { (if a.handle = g then a.apply y else y) with
    onAir := v.onAir, fallbackRefs := y.fallbackRefs + names1 (a.newFallback x) g - names1 x.fallback g }
  slot : ∀ k, u.slotAt k = ((refallback s (s.amendRecord a) k (s.slotAt k)).map (·.slot)).getD (s.slotAt k)

/-- No slot leaves PENDING, so no report is made. -/
theorem reports_refallbacks {before : State} (c : s.canonical) (reports : s.reportsMade (s.moveSlots (refallback before s))) :
    (s.moveSlots (refallback before s)).reports = s.reports := by
  obtain ⟨keys, ⟨-, mem⟩, made⟩ := reports
  have none : keys = [] := List.eq_nil_iff_forall_not_mem.2 fun k hk => by
    obtain ⟨pending, left, -⟩ := (mem k).1 hk
    rw [slotAt_refallbacks before c] at left
    cases h : refallback before s k (s.slotAt k) with
    | none => rw [h] at left; exact left pending
    | some m => exact (refallback_keeps h).2.2 pending
  rw [made, none]
  exact List.append_nil _

theorem amends_amended (c : s.canonical) (quiet : s.quiet) (hx : s.record? a.handle = some x) :
    s.amends (s.amended a) a x := by
  have record := record?_amended hx
  have canonical := (kept_amendRecord s a).canonical c
  obtain ⟨r, amended⟩ := amendRecord_eq s a
  have noUpdates : (s.amendRecord a).updates = [] := by rw [amended]; exact quiet.2.2.1
  have moved := slotsMoved_moveSlots (still_moveEvent .switchedForced) (keepsBinding_refallback (s := s.amendRecord a) s) canonical
  have slots := slotAt_refallbacks (s := s.amendRecord a) s canonical
  have binding : ∀ k, (((s.amendRecord a).moveSlots (refallback s (s.amendRecord a))).slotAt k).planned
      = ((s.amendRecord a).slotAt k).planned := fun k => by
    rw [slots]
    cases h : refallback s (s.amendRecord a) k ((s.amendRecord a).slotAt k) with
    | none => rfl
    | some m => exact (refallback_keeps h).1
  have follow := followed_takeUpdates (s := (s.amendRecord a).moveSlots (refallback s (s.amendRecord a)))
  have counts := countsFollow_moveSlots (s := s.amendRecord a) (g := refallback s (s.amendRecord a))
    (fun _ _ _ h => law_refallback _ h) (fun _ _ _ h => maySource_refallback _ h) canonical noUpdates binding
  have reports := reports_refallbacks canonical moved.2.2.2.2
  obtain ⟨b, d, e, f, l, frame⟩ := moveSlots_eq (s.amendRecord a) (refallback s (s.amendRecord a))
  obtain ⟨v, w, taken⟩ := takeUpdates_eq ((s.amendRecord a).moveSlots (refallback s (s.amendRecord a)))
  obtain ⟨-, -, marks, ⟨keys, list, pairs⟩, -⟩ := moved
  have result : s.amended a = { s with
      records := v, smap := w, slots := b, marks := e, pairs := f } := by
    have kept : l = s.reports := by
      rw [frame] at reports
      exact reports.trans (by rw [amended])
    refine taken.trans ?_
    rw [frame, kept, ← quiet.2.2.1]
    rw [amended]
  have slot : ∀ k, (s.amendRecord a).slotAt k = s.slotAt k := fun k => by rw [amended]; rfl
  have slot' : ∀ k, ((s.amendRecord a).moveSlots (refallback s (s.amendRecord a))).slotAt k = (s.amended a).slotAt k :=
    fun k => by rw [frame, result]; rfl
  simp only [State.marksMoved, State.slot, slot, slot'] at marks list pairs slots
  refine ⟨by rw [result], ?_, fun base g q hq => ?_, ⟨keys, list, ?_⟩, fun g q hq => ?_, slots⟩
  · refine countsFollow_congr record (fun h y => ?_) ?_ ?_ counts
    · obtain ⟨state, -, planned, onAir, -⟩ := kept_apply a (a.handle = h)
        (y.fallbackRefs + names1 (a.newFallback x) h - names1 x.fallback h) y
      exact ⟨state, planned, onAir⟩
    · rw [amended]
    · rw [amended]
  · have mark : (s.amendRecord a).marks = s.marks := by rw [amended]
    have mark' : (s.amended a).marks = ((s.amendRecord a).moveSlots (refallback s (s.amendRecord a))).marks := by
      rw [frame, result]
    rw [mark_congr mark' g q, marks base g q hq, mark_congr mark g q]
    rfl
  · have same : (s.amended a).pairs = ((s.amendRecord a).moveSlots (refallback s (s.amendRecord a))).pairs := by
      rw [frame, result]
    refine (same.trans pairs).trans (pairs_foldl_reports (fun h => ?_) (by rw [amended]))
    rw [record, Option.map_map]
    congr 1
    funext y
    exact (kept_apply a (a.handle = h) _ y).2.2.2.2
  · obtain ⟨y, hy, eq⟩ := follow.kept g q hq
    rw [show State.record? _ g = (s.amendRecord a).record? g by rw [frame]; rfl, record, Option.map_eq_some_iff] at hy
    obtain ⟨z, hz, rfl⟩ := hy
    exact ⟨z, hz, eq⟩

/-! ### The slots of the amended record (R54) -/

theorem usable_iff (h : Nat) : s.usable h = true ↔ ∃ y, s.record? h = some y ∧ y.state = .live := by
  unfold State.usable
  cases s.record? h <;> simp

theorem all_onAirFit_amendRecord (hx : s.record? a.handle = some x) (o : Option Nat) :
    o.all (s.amendRecord a).onAirFit = o.all s.onAirFit := by
  cases o with
  | none => rfl
  | some h => exact onAirFit_amendRecord hx h

theorem any_usable_amendRecord (hx : s.record? a.handle = some x) (o : Option Nat) :
    o.any (s.amendRecord a).usable = true ↔ ∃ h, o = some h ∧ s.usable h = true := by
  cases o with
  | none => simp
  | some h => simp [usable_amendRecord hx]

/-- What a slot planned on the amended record does when its fallback changes. -/
theorem slot_of_amends {u : State} {k : Nat} {y : Slot} (amends : s.amends u a x) (hx : s.record? a.handle = some x)
    (slot : s.slotAt k = y) (own : y.planned.map (·.handle) = some a.handle) (changed : x.fallback ≠ a.newFallback x) :
    u.slotAt k = ((fallbackMove (s.amendRecord a) (k / 16) y a.handle x.fallback).map (·.slot)).getD y := by
  rw [amends.slot, slot, refallback_own hx slot own changed]

/-- The slot goes back to its planned record, whose fallback it had taken. -/
theorem fallbackMove_back {k : Nat} {y : Slot} (hx : s.record? a.handle = some x)
    (own : y.planned.map (·.handle) = some a.handle) (state : y.onAir = .substituted) (old : y.source = x.fallback)
    (live : s.usable a.handle = true) :
    ((fallbackMove (s.amendRecord a) (k / 16) y a.handle x.fallback).map (·.slot)).getD y
      = if y.source.all s.onAirFit then { y with
          onAir := .pending, outgoing := y.source, deadline := some ⟨s.uptime, (s.leg (k / 16)).switchWait⟩ }
        else { y with onAir := .steady, source := some a.handle, outgoing := none, deadline := none } := by
  obtain ⟨b, planned, handle⟩ := Option.map_eq_some_iff.1 own
  obtain ⟨r, amended⟩ := amendRecord_eq s a
  have pending := enterPending_slot (s := s.amendRecord a) (k / 16) y b planned
  have clock : (s.amendRecord a).uptime = s.uptime := by rw [amended]
  have leg : (s.amendRecord a).leg (k / 16) = s.leg (k / 16) := by rw [amended]; rfl
  rw [handle, own, all_onAirFit_amendRecord hx, clock, leg] at pending
  unfold fallbackMove
  rw [state]
  dsimp only
  rw [if_pos old, usable_amendRecord hx, if_pos live]
  exact pending

/-- The slot falls to the new fallback, or off air. -/
theorem fallbackMove_falls {f : Nat} {y : Slot} (hx : s.record? a.handle = some x) (state : y.onAir = .substituted)
    (old : y.source = x.fallback) (lost : ¬ s.usable a.handle = true) :
    ((fallbackMove (s.amendRecord a) f y a.handle x.fallback).map (·.slot)).getD y
      = if (a.newFallback x).any (s.amendRecord a).usable then { y with
          onAir := .substituted, source := a.newFallback x, outgoing := none, deadline := none }
        else { y with onAir := .slated, source := none, outgoing := none, deadline := none } := by
  have is := fallbackOf_amendRecord hx a.handle
  rw [if_pos rfl] at is
  unfold fallbackMove
  rw [state]
  dsimp only
  rw [if_pos old, usable_amendRecord hx, if_neg lost]
  exact goFallback_slot _ is

/-- A SLATED slot takes the new fallback when its planned record is not usable and the fallback is. -/
theorem fallbackMove_slated {f : Nat} {y : Slot} {old : Option Nat} (hx : s.record? a.handle = some x)
    (state : y.onAir = .slated) : ((fallbackMove (s.amendRecord a) f y a.handle old).map (·.slot)).getD y
      = if ¬ s.usable a.handle = true ∧ (a.newFallback x).any (s.amendRecord a).usable = true then { y with
          onAir := .substituted, source := a.newFallback x, outgoing := none, deadline := none }
        else y := by
  have is := fallbackOf_amendRecord hx a.handle
  rw [if_pos rfl] at is
  have fallback : ((s.amendRecord a).usableFallback a.handle).isSome = (a.newFallback x).any (s.amendRecord a).usable := by
    unfold State.usableFallback
    rw [is]
    cases a.newFallback x with
    | none => rfl
    | some h =>
      dsimp only
      rw [Option.any_some]
      cases (s.amendRecord a).usable h <;> rfl
  unfold fallbackMove
  rw [state]
  dsimp only
  rw [fallback, usable_amendRecord hx]
  by_cases falls : ¬ s.usable a.handle = true ∧ (a.newFallback x).any (s.amendRecord a).usable = true
  · rw [if_pos falls, if_pos (by simpa using falls)]
    exact (goFallback_slot _ is).trans (if_pos falls.2)
  · rw [if_neg falls, if_neg (by simpa using falls)]
    rfl

theorem fallbackMove_other {f p : Nat} {y : Slot} {old : Option Nat}
    (other : (y.onAir = .substituted → y.source ≠ old) ∧ y.onAir ≠ .slated) : fallbackMove s f y p old = none := by
  unfold fallbackMove
  cases state : y.onAir with
  | substituted => exact if_neg (other.1 state)
  | slated => exact absurd state other.2
  | empty | steady | pending => rfl

/-! ### Acts that fall due (R46) -/

theorem dueActs_eq {h : Nat} {v : Record} (hv : s.record? h = some v) : ∃ l m, s.dueActs h = l ++ m
    ∧ ((∃ n, v.silence = some n ∧ 90 * v.lossWindow ≤ s.uptime - n) → l = [.expiry h])
    ∧ ((¬ ∃ n, v.silence = some n ∧ 90 * v.lossWindow ≤ s.uptime - n) → l = [])
    ∧ ((v.state = .restoring ∧ ∃ n, v.hold = some n ∧ 90 * v.restoreHold ≤ s.uptime - n) → m = [.holdEnd h])
    ∧ ((¬ (v.state = .restoring ∧ ∃ n, v.hold = some n ∧ 90 * v.restoreHold ≤ s.uptime - n)) → m = []) := by
  have any : ∀ (o : Option Nat) (w : Nat), (o.any fun t => s.reached t w) = true
      ↔ ∃ n, o = some n ∧ 90 * w ≤ s.uptime - n := fun o w => by
    unfold State.reached Config.ticksPerMs
    cases o <;> simp
  unfold State.dueActs
  rw [hv]
  dsimp only
  refine ⟨_, _, rfl, fun h => if_pos ((any _ _).2 h), fun h => if_neg (mt (any _ _).1 h), fun h => if_pos ?_, fun h => if_neg ?_⟩
  · rw [Bool.and_eq_true, beq_iff_eq]
    exact ⟨h.1, (any _ _).2 h.2⟩
  · rw [Bool.and_eq_true, beq_iff_eq]
    exact fun k => h ⟨k.1, (any _ _).1 k.2⟩

end

end Sys2Proof.Machine
end

