-- ==== Sys2Proof/Proofs/AmendsWritten.lean ====
section
/-! The record edits that a commit writes (O28). -/

namespace Sys2Proof.Machine

section
variable {s : State} {a : AmendFields} {x : Record}

theorem redundant_amend (hx : s.record? a.handle = some x) (changes : a.apply x ≠ x) :
    (Picture.start s).redundant (.amend a) = false := by
  unfold Picture.redundant
  dsimp only
  rw [show (Picture.start s).tables.record? a.handle = some x from hx]
  simpa using changes

theorem apply_eq (a : AmendFields) (x : Record) : a.apply x = { x with
    fallback := a.newFallback x, peak := a.peak.getD x.peak, lossWindow := a.lossWindow.getD x.lossWindow
    restoreHold := a.restoreHold.getD x.restoreHold, autoReturn := a.autoReturn.getD x.autoReturn
    region := a.region.getD x.region } := by
  rw [← fallback_apply]
  rfl

/-- The reference count of a record when a fallback changes from `was` to `now` (R16). -/
theorem fallbackRefs_eq (was now : Option Nat) (n g : Nat) : n + names1 now g - names1 was g
    = if was = now then n else n + (if now = some g then 1 else 0) - (if was = some g then 1 else 0) := by
  split
  · next same => rw [same, Nat.add_sub_cancel]
  · rfl

/-- An AMEND RECORD that commits, with the acts that it makes due (R12, R46, R131). -/
theorem writePicture_amend_eq (amends : s.amends (s.amended a) a x) (noDue : s.ctabDue = []) {v : Record} (hv : (s.amended a).record? a.handle = some v) :
    ∃ l m, s.writePicture ((Picture.start s).applyEdit 1 (.amend a)) = { s.amended a with ctabDue := l ++ m }
      ∧ (((a.lossWindow ≠ none ∨ a.restoreHold ≠ none) ∧ ∃ n, v.silence = some n ∧ 90 * v.lossWindow ≤ s.uptime - n) →
        l = [.expiry a.handle])
      ∧ (¬ ((a.lossWindow ≠ none ∨ a.restoreHold ≠ none) ∧ ∃ n, v.silence = some n ∧ 90 * v.lossWindow ≤ s.uptime - n) →
        l = [])
      ∧ (((a.lossWindow ≠ none ∨ a.restoreHold ≠ none) ∧ v.state = .restoring ∧ ∃ n, v.hold = some n
          ∧ 90 * v.restoreHold ≤ s.uptime - n) → m = [.holdEnd a.handle])
      ∧ (¬ ((a.lossWindow ≠ none ∨ a.restoreHold ≠ none) ∧ v.state = .restoring ∧ ∃ n, v.hold = some n
          ∧ 90 * v.restoreHold ≤ s.uptime - n) → m = []) := by
  have clock : (s.amended a).uptime = s.uptime := by rw [amends.frame]
  have due : (s.amended a).ctabDue = [] := by rw [amends.frame]; exact noDue
  have timed : (a.lossWindow.isSome || a.restoreHold.isSome) = true ↔ (a.lossWindow ≠ none ∨ a.restoreHold ≠ none) := by
    simp [Option.isSome_iff_ne_none]
  rw [writePicture_amend]
  by_cases h : a.lossWindow ≠ none ∨ a.restoreHold ≠ none
  · obtain ⟨l, m, acts, h1, h2, h3, h4⟩ := dueActs_eq hv
    rw [clock] at h1 h2 h3 h4
    refine ⟨l, m, ?_, fun k => h1 k.2, fun k => h2 fun e => k ⟨h, e⟩, fun k => h3 k.2, fun k => h4 fun e => k ⟨h, e⟩⟩
    rw [if_pos (timed.2 h)]
    unfold State.fallDue
    rw [acts, due]
    rfl
  · refine ⟨[], [], ?_, fun k => absurd k.1 h, fun _ => rfl, fun k => absurd k.1 h, fun _ => rfl⟩
    rw [if_neg (mt timed.1 h)]
    exact congrArg (fun d => ({ s.amended a with ctabDue := d } : State)) due

end

/-- Settles O28. -/
theorem recordEditsAreWritten : Obligations.RecordEditsAreWritten := by
  intro r s fl stamp waits run passes sound
  have noUpdates := waits.2.1.2.2.1
  refine ⟨?_, ?_, ?_⟩
  · intro h c x pass hx reserved same fb
    obtain ⟨edits, legs, fallbacks⟩ := pass
    have named := State.soundFallback.passes fb
    have ended := endsCommit_single waits edits (recheck_of_passes (fun g hg => (named g hg).1) (fun g hg => (named g hg).2) rfl)
      rfl (State.soundFallback.not_lost fb) legs fallbacks rfl
    rw [writePicture_create h c noUpdates] at ended
    obtain ⟨v, frame⟩ := commitRecord_eq s h
    exact ⟨_, ended, by rw [frame], created_commitRecord hx reserved same fb, find?_smap_commitRecord h⟩
  · intro a x pass hx committed changes fb now z live timed expired held
    obtain ⟨edits, legs, fallbacks⟩ := pass
    have own : x.committed := committed
    have named := State.soundFallback.passes fb
    have ended := endsCommit_single waits edits (recheck_of_passes
      (fun g hg => (List.mem_cons.1 hg).elim (fun e => e ▸ known_start hx own.named) fun h => (named g h).1)
      (fun g hg => (List.mem_cons.1 hg).elim (fun e => e ▸ not_retiring_start hx own.stays) fun h => (named g h).2) rfl)
      (redundant_amend hx changes) (State.soundFallback.not_lost fb) legs fallbacks rfl
    have amends := amends_amended waits.2.2.1 waits.2.1 hx
    have written : a.apply x = z := apply_eq a x
    obtain ⟨v, hv⟩ := Option.isSome_iff_exists.1 (amends.counts.1 _ x hx own.stays)
    obtain ⟨y, hy, ev⟩ := amends.record _ v hv
    cases hx.symm.trans hy
    rw [if_pos rfl, written] at ev
    have silence : v.silence = x.silence := by rw [ev]
    have window : v.lossWindow = z.lossWindow := by rw [ev]
    have state : v.state = x.state := by rw [ev]
    have hold : v.hold = x.hold := by rw [ev]
    have restore : v.restoreHold = z.restoreHold := by rw [ev]
    obtain ⟨l, m, picture, hl, hl', hm, hm'⟩ := writePicture_amend_eq amends waits.2.1.1 hv
    rw [silence, window] at hl hl'
    rw [state, hold, restore] at hm hm'
    rw [picture] at ended
    refine ⟨_, ended, ?_, ⟨l, m, rfl, hl, hl', hm, hm'⟩, amends.counts, amends.marks, amends.events, fun g q hq => ?_,
      fun k => ?_⟩
    · exact congrArg (fun t => ({ t with ctabDue := l ++ m } : State)) amends.frame
    · obtain ⟨y, hy, eq⟩ := amends.record g q hq
      have same : (if a.handle = g then a.apply y else y) = if g = a.handle then z else y := by
        by_cases self : a.handle = g
        · subst self
          cases hx.symm.trans hy
          rw [if_pos rfl, if_pos rfl, written]
        · rw [if_neg self, if_neg fun e => self e.symm]
      rw [fallbackRefs_eq, same] at eq
      exact ⟨y, hy, eq⟩
    · have fit : (a.newFallback x).any (s.amendRecord a).usable = true ↔ ∃ h, now = some h ∧ live h :=
        (any_usable_amendRecord hx now).trans (exists_congr fun h => and_congr_right fun _ => usable_iff h)
      have slot : State.slotAt { s.amended a with ctabDue := l ++ m } k = (s.amended a).slotAt k := rfl
      refine ⟨fun other => ?_, fun planned changed => ?_⟩
      · rw [slot, amends.slot, refallback_other hx other]
        rfl
      · have moved := slot_of_amends amends hx rfl planned changed
        rw [slot, moved]
        refine ⟨fun on old => ⟨fun h => ?_, fun h usable => ?_, fun h none => ?_⟩, fun off h usable => ?_, fun off h => ?_,
          fun on other => ?_, fun h1 h2 => ?_⟩
        · exact fallbackMove_back hx planned on old ((usable_iff _).2 h)
        · rw [fallbackMove_falls hx on old (mt (usable_iff _).1 h), if_pos (fit.2 usable)]
          rfl
        · rw [fallbackMove_falls hx on old (mt (usable_iff _).1 h), if_neg (mt fit.1 none)]
        · rw [fallbackMove_slated hx off, if_pos ⟨mt (usable_iff _).1 h, fit.2 usable⟩]
          rfl
        · rw [fallbackMove_slated hx off, if_neg fun e => h.elim (fun h => e.1 ((usable_iff _).2 h)) fun h => h (fit.1 e.2)]
        · rw [fallbackMove_other ⟨fun _ => other, by rw [on]; nofun⟩]
          rfl
        · rw [fallbackMove_other ⟨fun e => absurd e h1, h2⟩]
          rfl
  · intro h x edits legs p fallbacks unused hx committed other
    have own : x.committed := committed
    have ended := endsCommit_single waits edits
      (recheck_of_passes (fun g hg => by cases List.mem_singleton.1 hg; exact known_start hx own.named) nofun rfl)
      (not_retiring_start hx own.stays) rfl legs fallbacks unused
    rw [writePicture_retire h noUpdates] at ended
    obtain ⟨frame, others, zero, more⟩ := retired_retireRecord hx other
    exact ⟨_, ended, frame, others, zero, more⟩

end Sys2Proof.Machine
end

