-- ==== Sys2Proof/Proofs/Arrivals.lean ====
section
/-! An edit that arrives: its checks, and where it joins the workspace (O19, O21; R106 to R112). -/

namespace Sys2Proof.Machine

section
variable {s : State} {r : Requester} {e : Edit}

/-! ### The checks, as propositions (R106, R108) -/

theorem nameable_iff (h : Nat) : s.nameable r h = true ↔ s.names r h := by
  unfold State.nameable State.names
  cases s.record? h with
  | none => simp
  | some x => simp [imp_iff_not_or]

theorem isRetiring_eq_false_iff (h : Nat) : s.isRetiring h = false ↔ s.bindable h := by
  unfold State.isRetiring State.bindable
  cases s.record? h <;> simp

theorem legEdits_eq_false_iff (w : Workspace) : w.legEdits = false ↔ ∃ v ∈ w.levels, v.legEdits = false := by
  simp [Workspace.legEdits]

theorem retire_eq_true_iff (w : Workspace) : w.retire = true ↔ ∀ v ∈ w.levels, v.retire = true := by
  simp [Workspace.retire]

/-- Whether a RETIRE RECORD is allowed: not in an APPLY, and by every level (R100, R113). -/
def Workspace.permits (w : Workspace) (inApply permitted : Bool) : Prop :=
  permitted = true ↔ inApply = false ∧ ∀ v ∈ w.levels, v.retire = true

theorem permits_request (w : Workspace) : w.permits false w.retire := by
  unfold Workspace.permits
  rw [retire_eq_true_iff]
  simp

theorem permits_apply (w : Workspace) : w.permits true false := by simp [Workspace.permits]

/-! ### Checks 2 to 5 (R106, R109) -/

section
variable {inApply permitted : Bool}

theorem controlFailure_of_allows (permits : (s.ws r).permits inApply permitted) (h : s.allows r inApply e) :
    controlFailure (s.ws r) permitted e = none := by
  obtain ⟨deferrable, claimed, legEdits, retire⟩ := h
  have mode : (∀ d, e ≠ .slot d) → (s.ws r).mode = .immediate := fun other =>
    deferrable.resolve_right fun ⟨d, hd⟩ => other d hd
  have feed : (e.feed?.any fun f => !(s.ws r).claims.getLsbD f) = false := by
    cases h : e.feed? with
    | none => rfl
    | some f => rw [Option.any_some, claimed f h]; rfl
  unfold controlFailure
  cases e with
  | slot d =>
    dsimp only
    rw [if_neg (by simp), if_neg (by rw [feed]; nofun)]
  | create _ _ | amend _ =>
    dsimp only
    rw [if_neg (by simp [mode nofun]), if_neg (by rw [feed]; nofun)]
  | setLeg l =>
    dsimp only
    rw [if_neg (by simp [mode nofun]), if_neg (by rw [feed]; nofun)]
    refine if_pos ?_
    by_contra h
    obtain ⟨v, hv, no⟩ := (legEdits_eq_false_iff _).1 (Bool.eq_false_iff.2 h)
    exact absurd (legEdits l rfl v hv) (by rw [no]; nofun)
  | retire h =>
    dsimp only
    rw [if_neg (by simp [mode nofun]), if_neg (by rw [feed]; nofun)]
    exact if_pos (permits.2 (retire h rfl))

theorem controlFailure_notDeferrable (mode : (s.ws r).mode = .deferred) (other : ∀ d, e ≠ .slot d) :
    controlFailure (s.ws r) permitted e = some (.notDeferrable, .none) := by
  unfold controlFailure
  cases e with
  | slot d => exact absurd rfl (other d)
  | create _ _ | amend _ | retire _ | setLeg _ => exact if_pos (by simp [mode])

theorem controlFailure_notClaimed {f : Nat} (deferrable : (s.ws r).mode = .immediate ∨ ∃ d, e = .slot d)
    (feed : e.feed? = some f) (unclaimed : (s.ws r).claims.getLsbD f = false) :
    controlFailure (s.ws r) permitted e = some (.notClaimed, ⟨none, some f, none, none⟩) := by
  unfold controlFailure
  cases e with
  | slot d =>
    dsimp only
    rw [if_neg (by simp), if_pos (by rw [feed, Option.any_some, unclaimed]; rfl), feed]
    rfl
  | setLeg l =>
    have mode : (s.ws r).mode = .immediate := deferrable.resolve_right fun ⟨_, h⟩ => nomatch h
    dsimp only
    rw [if_neg (by simp [mode]), if_pos (by rw [feed, Option.any_some, unclaimed]; rfl), feed]
    rfl
  | create _ _ | amend _ | retire _ => cases feed

theorem controlFailure_legEdit {l : LegFields} (mode : (s.ws r).mode = .immediate)
    (claimed : (s.ws r).claims.getLsbD l.feed = true) (forbids : ∃ v ∈ (s.ws r).levels, v.legEdits = false) :
    controlFailure (s.ws r) permitted (.setLeg l) = some (.legEditNotAllowed, ⟨none, some l.feed, none, none⟩) := by
  unfold controlFailure
  dsimp only
  rw [if_neg (by simp [mode]), if_neg (by simp [Edit.feed?, claimed]),
    if_neg (by rw [(legEdits_eq_false_iff _).2 forbids]; nofun)]
  rfl

theorem controlFailure_retire {h : Nat} (permits : (s.ws r).permits inApply permitted)
    (mode : (s.ws r).mode = .immediate) (forbids : inApply = true ∨ ∃ v ∈ (s.ws r).levels, v.retire = false) :
    controlFailure (s.ws r) permitted (.retire h) = some (.retireNotAllowed, ⟨some h, none, none, none⟩) := by
  have no : permitted ≠ true := fun yes => by
    obtain ⟨single, all⟩ := permits.1 yes
    rcases forbids with apply | ⟨v, hv, not⟩
    · rw [single] at apply; cases apply
    · rw [all v hv] at not; cases not
  unfold controlFailure
  dsimp only
  rw [if_neg (by simp [mode]), if_neg (by simp [Edit.feed?]), if_neg no]
  rfl

end

/-! ### Checks 6 to 9 (R106, R108, R110) -/

theorem named_passes (h : ∀ g ∈ e.named, s.names r g) : e.named.find? (fun g => !s.nameable r g) = none :=
  List.find?_eq_none.2 fun g hg => by rw [(nameable_iff g).2 (h g hg)]; nofun

theorem bound_passes (h : ∀ g ∈ e.bound, s.bindable g) : e.bound.find? s.isRetiring = none :=
  List.find?_eq_none.2 fun g hg => by rw [(isRetiring_eq_false_iff g).2 (h g hg)]; nofun

theorem owned_passes (h : ∀ g, e.owned = some g → ∀ x, s.record? g = some x → x.owner = r) (named : ∀ g ∈ e.named, s.names r g) :
    (e.owned.filter fun g => ((s.record? g).map (·.owner)) != some r) = none := by
  cases own : e.owned with
  | none => rfl
  | some g =>
    have mem : g ∈ e.named := by
      cases e with
      | amend a => cases own; exact List.mem_cons_self ..
      | retire n => cases own; exact List.mem_singleton.2 rfl
      | create _ _ | slot _ | setLeg _ => cases own
    obtain ⟨x, hx, -⟩ := named g mem
    simp [Option.filter, hx, h g own x hx]

theorem tableFailure_of_admits (h : s.admits r e) : tableFailure s r e = none := by
  obtain ⟨named, bound, owned, free⟩ := h
  unfold tableFailure handleFailure
  rw [named_passes named]
  dsimp only
  rw [bound_passes bound]
  dsimp only [Option.map_none]
  rw [owned_passes owned named]
  dsimp only
  unfold reservedBy
  cases e with
  | slot d => dsimp only; rw [free d rfl]; rfl
  | create _ _ | amend _ | retire _ | setLeg _ => rfl

theorem find?_first {l m : List Nat} {h : Nat} {p : Nat → Bool} (before : ∀ g ∈ l, p g = false) (here : p h = true) :
    (l ++ h :: m).find? p = some h :=
  List.find?_eq_some_iff_append.2 ⟨here, l, m, rfl, fun g hg => by rw [before g hg]; rfl⟩

theorem tableFailure_unknown {l m : List Nat} {h : Nat} (named : e.named = l ++ h :: m) (before : ∀ g ∈ l, s.names r g)
    (not : ¬ s.names r h) : tableFailure s r e = some (.unknownHandle, ⟨some h, none, none, none⟩) := by
  unfold tableFailure handleFailure
  rw [named, find?_first (fun g hg => by rw [(nameable_iff g).2 (before g hg)]; rfl)
    (by rw [Bool.eq_false_iff.2 (mt (nameable_iff h).1 not)]; rfl)]
  rfl

theorem tableFailure_notBindable {l m : List Nat} {h : Nat} (named : ∀ g ∈ e.named, s.names r g)
    (bound : e.bound = l ++ h :: m) (before : ∀ g ∈ l, s.bindable g) (not : ¬ s.bindable h) :
    tableFailure s r e = some (.notBindable, ⟨some h, none, none, none⟩) := by
  unfold tableFailure handleFailure
  rw [named_passes named]
  dsimp only
  rw [bound, find?_first (fun g hg => (isRetiring_eq_false_iff g).2 (before g hg))
    (by rw [← Bool.not_eq_false]; exact mt (isRetiring_eq_false_iff h).1 not)]
  rfl

theorem tableFailure_notOwner {h : Nat} {y : Record} (named : ∀ g ∈ e.named, s.names r g)
    (bound : ∀ g ∈ e.bound, s.bindable g) (owned : e.owned = some h) (hy : s.record? h = some y) (other : y.owner ≠ r) :
    tableFailure s r e = some (.notOwner, ⟨some h, none, none, none⟩) := by
  unfold tableFailure handleFailure
  rw [named_passes named]
  dsimp only
  rw [bound_passes bound]
  dsimp only [Option.map_none]
  rw [owned, show (some h).filter (fun g => ((s.record? g).map (·.owner)) != some r) = some h by
    simp [Option.filter, hy, other]]
  rfl

theorem tableFailure_slotReserved {d : SlotEdit} {n : Nat} (named : ∀ g ∈ (Edit.slot d).named, s.names r g)
    (bound : ∀ g ∈ (Edit.slot d).bound, s.bindable g) (reserved : (s.slot d.feed d.slot).reserved = some n) :
    tableFailure s r (.slot d) = some (.slotReserved, ⟨none, some d.feed, some d.slot, some n⟩) := by
  unfold tableFailure handleFailure
  rw [named_passes named]
  dsimp only
  rw [bound_passes bound]
  dsimp only [Option.map_none]
  unfold reservedBy
  dsimp only
  rw [reserved]
  rfl

/-! ### Checks 11 to 13 and the reservation (R2, R4, R37, R111) -/

theorem any_key_iff (rising : Table.rising s.records = true) (k : Key) :
    (s.records.any fun x => x.2.key == k) = false ↔ s.keyFree k := by
  rw [List.any_eq_false]
  constructor
  · intro h g x hx e
    exact h (g, x) (Table.find?_mem _ _ _ hx) (by simpa using e)
  · intro h c hc e
    exact h c.1 c.2 (Table.find?_of_mem _ rising c hc) (by simpa using e)

theorem lowestFree_iff (h : Nat) : s.lowestFree = some h ↔ s.lowestIs h := by
  unfold State.lowestFree State.lowestIs Config.maxHandle
  constructor
  · intro e
    have free : s.record? h = none := by simpa using List.find?_some e
    have mem := List.mem_range'.1 (List.mem_of_find?_eq_some e)
    obtain ⟨i, hi, rfl⟩ := mem
    refine ⟨by omega, by omega, free, fun g h1 h2 none => ?_⟩
    rw [List.find?_eq_some_iff_append] at e
    obtain ⟨-, l, m, list, before⟩ := e
    have hg : g ∈ l := by
      have all : g ∈ l ++ (1 + 1 * i) :: m := by rw [← list]; exact List.mem_range'.2 ⟨g - 1, by omega, by omega⟩
      rcases List.mem_append.1 all with hg | hg
      · exact hg
      · have rising : (l ++ (1 + 1 * i) :: m).Pairwise (· < ·) := by rw [← list]; exact List.pairwise_lt_range'
        have later := (List.pairwise_cons.1 (List.pairwise_append.1 rising).2.1).1
        rcases List.mem_cons.1 hg with rfl | hg
        · omega
        · have := later g hg; omega
    have := before g hg
    rw [none] at this
    cases this
  · rintro ⟨h1, h2, free, low⟩
    rw [List.find?_eq_some_iff_append]
    refine ⟨by rw [free]; rfl, List.range' 1 (h - 1), List.range' (h + 1) (1023 - h), ?_, fun g hg => ?_⟩
    · have split : List.range' 1 (h - 1) ++ List.range' (1 + (h - 1)) (1024 - h) = _ := List.range'_append_1
      rw [show 1 + (h - 1) = h by omega, show h - 1 + (1024 - h) = 1023 by omega,
        show 1024 - h = 1023 - h + 1 by omega, List.range'_succ] at split
      exact split.symm
    · obtain ⟨i, hi, rfl⟩ := List.mem_range'.1 hg
      have := low (1 + 1 * i) (by omega) (by omega)
      cases hr : s.record? (1 + 1 * i) with
      | none => exact absurd hr this
      | some x => rfl

theorem lowestFree_eq_none_iff : s.lowestFree = none ↔ ∀ h, ¬ s.lowestIs h := by
  rw [Option.eq_none_iff_forall_ne_some]
  exact forall_congr' fun h => not_congr (lowestFree_iff h)

theorem any_taken_iff (c : CreateFields) : (c.components.any fun x : Component =>
      (s.input c.key.input).reservedPids.contains x.pid || s.mapped c.key.input x.pid) = false ↔ s.pidsFree c := by
  rw [List.any_eq_false]
  unfold State.pidsFree
  refine forall_congr' fun x => forall_congr' fun _ => ?_
  rw [Bool.or_eq_true, not_or, Bool.not_eq_true, Bool.not_eq_true]
  refine and_comm.trans (and_congr_right fun _ => ?_)
  rw [← Bool.not_eq_true, List.contains_iff_mem]

section
variable {c : CreateFields} {h : Nat} (rising : Table.rising s.records = true)
include rising

theorem reserveRecord_keyExists (taken : ¬ s.keyFree c.key) : s.reserveRecord r c = .error .keyExists :=
  if_pos (by rw [← Bool.not_eq_false]; exact mt (any_key_iff rising _).1 taken)

theorem reserveRecord_tableFull (free : s.keyFree c.key) (full : ∀ h, ¬ s.lowestIs h) :
    s.reserveRecord r c = .error .tableFull := by
  unfold State.reserveRecord
  rw [(any_key_iff rising _).2 free, lowestFree_eq_none_iff.2 full]
  rfl

theorem reserveRecord_pidTaken (free : s.keyFree c.key) (low : s.lowestIs h) (taken : ¬ s.pidsFree c) :
    s.reserveRecord r c = .error .pidTaken := by
  unfold State.reserveRecord
  rw [(any_key_iff rising _).2 free, (lowestFree_iff h).2 low]
  dsimp only
  rw [Bool.of_not_eq_false (mt (any_taken_iff c).1 taken)]
  rfl

theorem reserveRecord_mapFull (free : s.keyFree c.key) (low : s.lowestIs h) (pids : s.pidsFree c)
    (full : 4096 < s.smap.length + c.components.length) : s.reserveRecord r c = .error .mapFull := by
  unfold State.reserveRecord
  rw [(any_key_iff rising _).2 free, (lowestFree_iff h).2 low]
  dsimp only
  rw [(any_taken_iff c).2 pids]
  exact if_pos full

theorem reserveRecord_ok (free : s.keyFree c.key) (low : s.lowestIs h) (pids : s.pidsFree c)
    (room : s.smap.length + c.components.length ≤ 4096) :
    s.reserveRecord r c = .ok (h, (s.setRecord h (createdRecord r c)).reserveEntries h c) := by
  unfold State.reserveRecord
  rw [(any_key_iff rising _).2 free, (lowestFree_iff h).2 low]
  dsimp only
  rw [(any_taken_iff c).2 pids]
  exact if_neg (Nat.not_lt.2 room)

end

/-! ### The arrival -/

/-- The largest tolerance of any open level (R100). -/
theorem stampIs_tolerance (w : Workspace) : w.stampIs w.tolerance := by
  unfold Workspace.stampIs Workspace.tolerance
  suffices ∀ (l : List Level) (n : Nat), n ≤ l.foldl (fun t v => max t v.tolerance) n
      ∧ (∀ v ∈ l, v.tolerance ≤ l.foldl (fun t v => max t v.tolerance) n)
      ∧ (l.foldl (fun t v => max t v.tolerance) n = n ∨ ∃ v ∈ l, v.tolerance = l.foldl (fun t v => max t v.tolerance) n) by
    obtain ⟨-, all, one⟩ := this w.levels 0
    exact ⟨all, one⟩
  intro l
  induction l with
  | nil => exact fun n => ⟨Nat.le_refl _, nofun, .inl rfl⟩
  | cons a l ih =>
    intro n
    obtain ⟨low, all, one⟩ := ih (max n a.tolerance)
    rw [List.foldl_cons]
    refine ⟨by omega, fun v hv => ?_, ?_⟩
    · rcases List.mem_cons.1 hv with rfl | hv
      · omega
      · exact all v hv
    · rcases one with one | ⟨v, hv, e⟩
      · by_cases m : a.tolerance ≤ n
        · exact .inl (by omega)
        · exact .inr ⟨a, List.mem_cons_self .., by omega⟩
      · exact .inr ⟨v, List.mem_cons_of_mem _ hv, e⟩

section
variable {inApply permitted : Bool} (permits : (s.ws r).permits inApply permitted)
include permits

/-- An edit other than a CREATE RECORD that has passed its checks joins the workspace (R106, R112). -/
theorem arrive_other_of_mayArrive (h : s.mayArrive r inApply e) (other : ∀ n c, e ≠ .create n c) :
    s.arrive r permitted e = .ok (0, s.setWs r ((s.ws r).hold e)) := by
  obtain ⟨allows, admits, room⟩ := h
  unfold State.arrive
  dsimp only
  rw [controlFailure_of_allows permits allows]
  dsimp only
  rw [tableFailure_of_admits admits]
  dsimp only
  rw [if_neg (show ¬ Config.workspaceEdits ≤ _ from Nat.not_le.2 room)]
  cases e with
  | create n c => exact absurd rfl (other n c)
  | amend _ | retire _ | slot _ | setLeg _ => rfl

variable (settled : s.ctabDue = [])
include settled

/-- A CREATE RECORD that has passed checks 2 to 10 (R106, R111). -/
theorem arrive_create_of_mayArrive {n : Nat} {c : CreateFields} (h : s.mayArrive r inApply (.create n c)) :
    (∀ code, s.reserveRecord r c = .error code → s.arrive r permitted (.create n c) = .error (code, .none))
      ∧ ∀ g t, s.reserveRecord r c = .ok (g, t) → s.arrive r permitted (.create n c)
        = .ok (g, t.setWs r { (s.ws r).hold (.create g c) with
          handles := (s.ws r).handles ++ [g], mapEntries := (s.ws r).mapEntries ++ (mapKeys c).map (·.1) }) := by
  obtain ⟨allows, admits, room⟩ := h
  unfold State.arrive
  dsimp only
  rw [controlFailure_of_allows permits allows]
  dsimp only
  rw [tableFailure_of_admits admits]
  dsimp only
  rw [if_neg (show ¬ Config.workspaceEdits ≤ _ from Nat.not_le.2 room), settleCtab_of_nil s settled]
  exact ⟨fun code e => by rw [e], fun g t e => by rw [e]⟩

/-- The first check that an edit does not pass (R106 to R111). -/
theorem arrive_of_failsArrival (rising : Table.rising s.records = true) {cd : Code} {x : Subject}
    (h : s.failsArrival r inApply e cd x) : s.arrive r permitted e = .error (cd, x) := by
  have control : ∀ {f : Code × Subject}, controlFailure (s.ws r) permitted e = some f → s.arrive r permitted e = .error f :=
    fun k => by unfold State.arrive; dsimp only; rw [k]
  have table : ∀ {f : Code × Subject}, s.allows r inApply e → tableFailure s r e = some f → s.arrive r permitted e = .error f :=
    fun a k => by unfold State.arrive; dsimp only; rw [controlFailure_of_allows permits a]; dsimp only; rw [k]
  rcases h with ⟨mode, other, rfl, rfl⟩ | ⟨deferrable, ⟨f, feed, unclaimed, rfl, rfl⟩ | ⟨l, rfl, claimed, forbids, rfl, rfl⟩
    | ⟨g, rfl, forbids, rfl, rfl⟩⟩ | ⟨allows, ⟨l, g, m, named, before, not, rfl, rfl⟩ | ⟨named, ⟨l, g, m, bound, before, not, rfl, rfl⟩
    | ⟨bound, ⟨g, y, owned, hy, other, rfl, rfl⟩ | ⟨d, n, rfl, reserved, rfl, rfl⟩⟩⟩ | ⟨admits, full, rfl, rfl⟩⟩
    | ⟨may, rfl, n, q, rfl, ⟨key, rfl⟩ | ⟨key, full, rfl⟩ | ⟨key, ⟨g, low⟩, pids, rfl⟩ | ⟨key, ⟨g, low⟩, pids, full, rfl⟩⟩
  · exact control (controlFailure_notDeferrable mode other)
  · exact control (controlFailure_notClaimed deferrable feed unclaimed)
  · exact control (controlFailure_legEdit (deferrable.resolve_right nofun) claimed forbids)
  · exact control (controlFailure_retire permits (deferrable.resolve_right nofun) forbids)
  · exact table allows (tableFailure_unknown named before not)
  · exact table allows (tableFailure_notBindable named bound before not)
  · exact table allows (tableFailure_notOwner named bound owned hy other)
  · exact table allows (tableFailure_slotReserved named bound reserved)
  · unfold State.arrive
    dsimp only
    rw [controlFailure_of_allows permits allows]
    dsimp only
    rw [tableFailure_of_admits admits]
    exact if_pos full
  · exact (arrive_create_of_mayArrive permits settled may).1 _ (reserveRecord_keyExists rising key)
  · exact (arrive_create_of_mayArrive permits settled may).1 _ (reserveRecord_tableFull rising key full)
  · exact (arrive_create_of_mayArrive permits settled may).1 _ (reserveRecord_pidTaken rising key low pids)
  · exact (arrive_create_of_mayArrive permits settled may).1 _ (reserveRecord_mapFull rising key low pids full)

end

end

end Sys2Proof.Machine
end

