-- ==== Sys2Proof/Proofs/ArrivalRequests.lean ====
section
/-! The six edits as requests of SITE: what is refused, what aborts the batch (O19), and what a CREATE RECORD
reserves (O21). -/

namespace Sys2Proof.Machine

section
variable {s : State}

/-! ### The state as the owner finds it -/

theorem accepted_frame (s : State) (n : Nat) : ∃ m p i, s.accepted n
    = { s with miso := m, port := p, siteWs := { s.siteWs with idle := i } } := by
  unfold State.accepted
  split
  · exact ⟨_, _, some s.uptime, rfl⟩
  · exact ⟨_, _, s.siteWs.idle, rfl⟩

theorem mayArrive_accepted (n : Nat) (a : Bool) (e : Edit) :
    (s.accepted n).mayArrive .site a e ↔ s.mayArrive .site a e := by
  obtain ⟨m, p, i, h⟩ := accepted_frame s n
  rw [h]
  exact Iff.rfl

theorem failsArrival_accepted (n : Nat) (a : Bool) (e : Edit) (c : Code) (x : Subject) :
    (s.accepted n).failsArrival .site a e c x ↔ s.failsArrival .site a e c x := by
  obtain ⟨m, p, i, h⟩ := accepted_frame s n
  rw [h]
  exact Iff.rfl

theorem depth_accepted (n : Nat) : ((s.accepted n).ws .site).depth = s.siteWs.depth := by
  obtain ⟨m, p, i, h⟩ := accepted_frame s n
  rw [h]
  rfl

theorem failsAt_accepted (n : Nat) (c : Code) : ((s.accepted n).ws .site).failsAt c = s.siteWs.failsAt c := by
  obtain ⟨m, p, i, h⟩ := accepted_frame s n
  rw [h]
  rfl

theorem records_accepted (n : Nat) : (s.accepted n).records = s.records := by
  obtain ⟨m, p, i, h⟩ := accepted_frame s n
  rw [h]

theorem ctabDue_accepted (ready : s.ready) (n : Nat) : (s.accepted n).ctabDue = [] := ready.2.2.2.1

/-! ### The owner's act and its answer -/

theorem exec_editRow {row : Byte × (Frame → Instr)} (hrow : row ∈ editRows) (f : Frame) :
    exec (row.2 f) s = .next (siteBatch row.1 (ownEdit row.1.toNat) f s) := by
  simp only [editRows, List.mem_cons, List.not_mem_nil, or_false] at hrow
  rcases hrow with rfl | rfl | rfl | rfl | rfl | rfl <;> rfl

theorem exec_edit {row : Byte × (Frame → Instr)} {p : List Byte} {t : State} {a : Answer} (hrow : row ∈ editRows)
    (ready : s.ready) (hp : p.length ≤ 507) (own : ownEdit row.1.toNat (s.accepted p.length) .site p = (t, some a)) :
    exec (row.2 (requestFrame row.1 p)) s = .next (t.replied row.1 a) := by
  rw [exec_editRow hrow, siteBatch_ready s ready hp, own]

/-- An edit that fails at its arrival aborts the batch, and the outcome is the answer (R106, R115). -/
theorem answersAbort_of_arriveSent {row : Byte × (Frame → Instr)} {p : List Byte} {f : Failure} (hrow : row ∈ editRows)
    (ready : s.ready) (hp : p.length ≤ 507) (opened : 1 ≤ s.siteWs.depth)
    (fails : (s.accepted p.length).arriveSent .site ((s.accepted p.length).ws .site).retire (parseEdit row.1.toNat p)
      = .error f) :
    s.answersAbort (exec (row.2 (requestFrame row.1 p)) s) row.1 p.length [] f.code f.index f.subject := by
  refine ⟨_, batchAborted_abort _ (ctabDue_accepted ready _) .site f, exec_edit hrow ready hp ?_⟩
  unfold ownEdit
  rw [if_neg (by rw [depth_accepted]; omega), fails]
  rfl

/-! ### What a CREATE RECORD reserves (R111) -/

theorem keys_mapKeys (c : CreateFields) : (mapKeys c).map (·.1) = c.components.map fun x => pidKey c.key.input x.pid := by
  refine List.ext_getElem? fun i => ?_
  simp only [mapKeys, List.getElem?_map, List.getElem?_mapIdx, Option.map_map]
  rfl

theorem reserves_of_reserved {r : Requester} {c : CreateFields} {h : Nat} (low : s.lowestIs h)
    (distinct : (c.components.map (·.pid)).Nodup) :
    s.reserves (((s.setRecord h (createdRecord r c)).reserveEntries h c).setWs r { (s.ws r).hold (.create h c) with
      handles := (s.ws r).handles ++ [h], mapEntries := (s.ws r).mapEntries ++ (mapKeys c).map (·.1) }) r c h := by
  obtain ⟨found, other⟩ := find?_reserveEntries (s := s.setRecord h (createdRecord r c)) distinct h
  refine ⟨low, (s.ws r).tolerance, stampIs_tolerance _, ?_, fun k x hx => ?_, fun k hk => ?_⟩
  · rw [keys_mapKeys]
    cases r <;> rfl
  · rw [setWs_smap]
    exact found k x hx
  · rw [setWs_smap, other k fun y hy e => hk (List.mem_map.2 ⟨y, hy, e⟩)]
    rfl

end

/-- Settles O19. -/
theorem editsAreCheckedAtArrival : Obligations.EditsAreCheckedAtArrival := by
  intro row hrow p s ready canonical hp w run
  refine ⟨fun none => exec_edit hrow ready hp (if_pos ((depth_accepted _).trans none)), fun opened bad => ?_,
    fun opened e c x good fails => ?_⟩
  · have failed := answersAbort_of_arriveSent hrow ready hp opened (by rw [bad]; rfl)
    unfold arrivalFailure at failed
    have index := failsAt_accepted (s := s) p.length .badField
    unfold Workspace.failsAt at index
    rw [index] at failed
    exact failed
  · have arrives := arrive_of_failsArrival (permits_request ((s.accepted p.length).ws .site)) (ctabDue_accepted ready _)
      (by rw [records_accepted]; exact canonical.records_rising) ((failsArrival_accepted _ _ _ _ _).2 fails)
    have failed := answersAbort_of_arriveSent hrow ready hp opened (f := arrivalFailure ((s.accepted p.length).ws .site) (c, x))
      (by rw [good]; unfold State.arriveSent; dsimp only; rw [arrives])
    have index := failsAt_accepted (s := s) p.length c
    rw [show w.failsAt c = _ from index.symm]
    exact failed

/-- Settles O21. -/
theorem aCreateReservesItsRecord : Obligations.ACreateReservesItsRecord := by
  intro p n c s ready canonical hp opened parsed may key pids room h low
  have distinct : (c.components.map (·.pid)).Nodup := distinct_parseEdit parsed
  obtain ⟨m, q, i, accepted⟩ := accepted_frame s p.length
  have reserved : (s.accepted p.length).reserveRecord .site c
      = .ok (h, ((s.accepted p.length).setRecord h (createdRecord .site c)).reserveEntries h c) := by
    refine reserveRecord_ok (by rw [records_accepted]; exact canonical.records_rising) ?_ ?_ ?_ ?_ <;> rw [accepted]
    · exact key
    · exact low
    · exact pids
    · exact room
  have arrives := (arrive_create_of_mayArrive (permits_request ((s.accepted p.length).ws .site)) (ctabDue_accepted ready _)
    ((mayArrive_accepted _ _ _).2 may)).2 _ _ reserved
  refine ⟨_, reserves_of_reserved (s := s.accepted p.length) (r := .site) (by rw [accepted]; exact low) distinct,
    exec_edit (row := (0x10#8, .createRecord)) (List.mem_cons_self ..) ready hp ?_⟩
  unfold ownEdit
  rw [if_neg (by rw [depth_accepted]; omega), show parseEdit (0x10#8 : Byte).toNat p = _ from parsed]
  unfold State.arriveSent
  dsimp only
  rw [arrives]
  rfl

end Sys2Proof.Machine
end

