-- ==== Sys2Proof/Proofs/MatchedPackets.lean ====
section
/-! A packet matched to a record, from its delivery to the slots that read the record (O49). -/

namespace Sys2Proof.Machine

/-- A later write of a row wins. -/
theorem Table.put_put {α : Type} (t : Table α) (k : Nat) (v w : α) :
    Table.put (Table.put t k v) k w = Table.put t k w := by
  induction t with
  | nil => simp [Table.put]
  | cons c t ih =>
    obtain ⟨k', v'⟩ := c
    rcases Nat.lt_trichotomy k k' with h | h | h
    · simp [Table.put, h]
    · subst h
      simp [Table.put]
    · have hlt : ¬ k < k' := by omega
      have hne : k ≠ k' := by omega
      simp [Table.put, hlt, hne, ih]

section
variable {s : State}

theorem setRecord_setRecord (h : Nat) (x y : Record) : (s.setRecord h x).setRecord h y = s.setRecord h y := by
  simp [State.setRecord, Table.put_put]

/-! ### Reading the packet (R31) -/

theorem deliver_eq {i : Nat} {p : List Byte} (enabled : (s.input i).enabled = true)
    (locked : (s.input i).sync = .locked) :
    s.deliver i p = (s.setInput i { s.input i with
      miss := false, counters := (s.input i).counters.incReceived }).classify i p := by
  simp [State.deliver, enabled, locked]

/-- A packet that no earlier row of R31's table takes is looked up. -/
theorem classify_eq_lookup {i : Nat} {p : List Byte} (good : pktError p = false) (notNull : pktPid p ≠ 0x1FFF)
    (notCue : (s.input i).cuePid ≠ some (pktPid p))
    (notCommand : (s.input i).bearing = false ∨ (s.input i).commandPid ≠ pktPid p) :
    s.classify i p = s.lookup i p := by
  have hcommand : ((s.input i).bearing && (s.input i).commandPid == pktPid p) = false := by
    rcases notCommand with h | h <;> simp [h]
  simp [State.classify, good, notNull, notCue, hcommand]

theorem lookup_eq {i : Nat} {p : List Byte} {m : MapEntry}
    (found : Table.find? s.smap (pidKey i (pktPid p)) = some m) (active : m.active = true) :
    s.lookup i p = (s.continuity i (pidKey i (pktPid p)) m p).matchedPacket m.handle m.index p := by
  simp [State.lookup, found, Option.filter, active]

/-! ### The continuity check (R39) -/

/-- The packet's count neither repeats nor follows the last one, and no discontinuity is signalled. -/
def MapEntry.brokenBy (m : MapEntry) (p : List Byte) : Prop :=
  pktHasPayload p = true ∧ pktDiscontinuity p = false
    ∧ ∃ n, m.lastCount = some n ∧ pktContinuity p ≠ n ∧ pktContinuity p ≠ (n + 1) % 16

theorem checkContinuity_fst (last : Option Nat) (n : Nat) (d : Bool) : (checkContinuity last n d).1 = some n := by
  cases last <;> rfl

theorem checkContinuity_snd_iff (last : Option Nat) (n : Nat) (d : Bool) :
    (checkContinuity last n d).2 = true ↔ d = false ∧ ∃ l, last = some l ∧ n ≠ l ∧ n ≠ (l + 1) % 16 := by
  cases last with
  | none => simp [checkContinuity]
  | some l => simp [checkContinuity, and_assoc]

/-- The state with the entry's last count kept. -/
def State.countNoted (s : State) (k : Nat) (m : MapEntry) (p : List Byte) : State :=
  if pktHasPayload p then
    { s with smap := Table.put s.smap k { m with lastCount := some (pktContinuity p) } }
  else s

theorem continuity_of_broken {i k : Nat} {m : MapEntry} {p : List Byte} (broken : m.brokenBy p) :
    s.continuity i k m p = (s.countNoted k m p).countInput i InputCounters.incContinuity := by
  obtain ⟨payload, noted, last⟩ := broken
  have hbad := (checkContinuity_snd_iff m.lastCount (pktContinuity p) (pktDiscontinuity p)).2 ⟨noted, last⟩
  simp [State.continuity, State.countNoted, payload, checkContinuity_fst, hbad]

theorem continuity_of_not_broken {i k : Nat} {m : MapEntry} {p : List Byte} (whole : ¬ m.brokenBy p) :
    s.continuity i k m p = s.countNoted k m p := by
  by_cases payload : pktHasPayload p = true
  · have hgood : (checkContinuity m.lastCount (pktContinuity p) (pktDiscontinuity p)).2 = false := by
      rw [← Bool.not_eq_true, checkContinuity_snd_iff]
      exact fun bad => whole ⟨payload, bad⟩
    simp [State.continuity, State.countNoted, payload, checkContinuity_fst, hgood]
  · simp [State.continuity, State.countNoted, payload]

theorem countNoted_frame (k : Nat) (m : MapEntry) (p : List Byte) :
    s.countNoted k m p = { s with smap := (s.countNoted k m p).smap } := by
  unfold State.countNoted
  split <;> rfl

theorem input_countNoted (k j : Nat) (m : MapEntry) (p : List Byte) : (s.countNoted k m p).input j = s.input j := by
  rw [countNoted_frame]
  rfl

theorem find?_countNoted (k j : Nat) (m : MapEntry) (p : List Byte) :
    Table.find? (s.countNoted k m p).smap j = if j = k ∧ pktHasPayload p = true then
      some { m with lastCount := some (pktContinuity p) } else Table.find? s.smap j := by
  unfold State.countNoted
  by_cases payload : pktHasPayload p = true
  · simp only [payload, if_true, and_true, Table.find?_put]
    exact if_congr eq_comm rfl rfl
  · simp [payload]

/-! ### The carriage table's part (R20, R22, R42) -/

/-- The record after a packet of the component: its hit marker is set and an armed probe is complete. -/
def Record.noted (x : Record) (index : Nat) (arrival : StationTime) (p : List Byte) : Record :=
  { x with hit := true, armed := false, probe := if x.armed then some (probeOf index arrival p) else x.probe }

theorem record?_raise (k : AttKind) (d h : Nat) : (s.raise k d).record? h = s.record? h := by
  unfold State.record?
  rw [records_raise]

theorem record?_reportRestoration (g h : Nat) : (s.reportRestoration g).record? h = s.record? h :=
  record?_raise _ _ _

theorem record?_setRecord_self (h : Nat) (x : Record) : (s.setRecord h x).record? h = some x := by
  rw [record?_setRecord, if_pos rfl]

/-- The monitor keeps a record's components and class. -/
theorem record?_countPacket {h : Nat} {x : Record} (found : s.record? h = some x) :
    ∃ y, (s.countPacket h).record? h = some y ∧ y.components = x.components ∧ y.cls = x.cls := by
  unfold State.countPacket
  rw [found]
  dsimp only
  cases hstate : x.state with
  | reserved => exact ⟨x, found, rfl, rfl⟩
  | lost =>
    dsimp only
    by_cases hhold : x.restoreHold = 0
    · rw [if_pos hhold]
      exact ⟨_, (record?_reportRestoration _ _).trans (record?_setRecord_self _ _), rfl, rfl⟩
    · rw [if_neg hhold]
      exact ⟨_, record?_setRecord_self _ _, rfl, rfl⟩
  | live => exact ⟨_, record?_setRecord_self _ _, rfl, rfl⟩
  | restoring => exact ⟨_, record?_setRecord_self _ _, rfl, rfl⟩
  | retiring => exact ⟨_, record?_setRecord_self _ _, rfl, rfl⟩

/-- The packet is noted, an armed probe is reported, and component 0 counts for the monitor. -/
def State.packetNoted (s : State) (h index : Nat) (x : Record) (p : List Byte) : State :=
  let t := s.setRecord h (x.noted index s.clock p)
  let t := if x.armed then t.raise .probeDone h else t
  if index = 0 then t.countPacket h else t

theorem notePacket_eq {h index : Nat} {x : Record} {p : List Byte} (settled : s.ctabDue = [])
    (found : s.record? h = some x) : s.notePacket h index p = s.packetNoted h index x p := by
  have hhit : s.modRecord h (fun r => { r with hit := true }) = s.setRecord h { x with hit := true } := by
    simp [State.modRecord, found]
  unfold State.notePacket State.packetNoted
  rw [settleCtab_of_nil s settled]
  simp only [hhit, State.completeProbe, record?_setRecord, if_true]
  cases harmed : x.armed with
  | true => simp [Record.noted, harmed, setRecord_setRecord]
  | false =>
    have hnoted : x.noted index s.clock p = { x with hit := true } := by
      simp [Record.noted, harmed]
    simp [hnoted, harmed]

theorem record?_packetNoted (h index : Nat) (x : Record) (p : List Byte) :
    ∃ y, (s.packetNoted h index x p).record? h = some y ∧ y.components = x.components ∧ y.cls = x.cls := by
  have hnoted : (if x.armed then (s.setRecord h (x.noted index s.clock p)).raise .probeDone h
      else s.setRecord h (x.noted index s.clock p)).record? h = some (x.noted index s.clock p) := by
    split
    · rw [record?_raise, record?_setRecord_self]
    · exact record?_setRecord_self _ _
  unfold State.packetNoted
  dsimp only
  by_cases hindex : index = 0
  · rw [if_pos hindex]
    obtain ⟨y, hy, components, cls⟩ := record?_countPacket hnoted
    exact ⟨y, hy, components, cls⟩
  · rw [if_neg hindex]
    exact ⟨_, hnoted, rfl, rfl⟩

/-! ### The leg table's part (R42, R75, R83) -/

theorem isSwitchPoint_congr {x y : Record} (same : y.components = x.components) (index : Nat) (p : List Byte) :
    isSwitchPoint y index p = isSwitchPoint x index p := by
  unfold isSwitchPoint
  rw [same]

theorem isSwitchPoint_iff (x : Record) (index : Nat) (p : List Byte) :
    isSwitchPoint x index p = true ↔ index = 0 ∧ ∃ c rest, x.components = c :: rest
      ∧ (if c.kind = .video then pktRandomAccess p else pktPayloadStart p) = true := by
  unfold isSwitchPoint
  cases x.components with
  | nil => simp
  | cons c rest => simp

theorem matchedPacket_eq {h index : Nat} {x : Record} {p : List Byte} (settled : s.ctabDue = [])
    (found : s.record? h = some x) :
    s.matchedPacket h index p
      = ((s.packetNoted h index x p).sight h (isSwitchPoint x index p)).makeCopies h index x.cls p := by
  obtain ⟨y, hy, components, cls⟩ := record?_packetNoted (s := s) h index x p
  unfold State.matchedPacket
  dsimp only
  rw [notePacket_eq settled found, hy]
  dsimp only
  rw [isSwitchPoint_congr components, cls]

end

section
variable {s : State} {i : Nat} {m : MapEntry} {p : List Byte}

/-- The input with the packet counted, and a miss cleared (R30). -/
def Input.received (x : Input) : Input := { x with miss := false, counters := x.counters.incReceived }

/-- A packet matched to an active entry, as far as the carriage table. -/
def State.packetRead (s : State) (i : Nat) (m : MapEntry) (p : List Byte) : State :=
  (s.setInput i (s.input i).received).continuity i (pidKey i (pktPid p)) m p

theorem packetRead_frame : s.packetRead i m p
    = { s with inputs := (s.packetRead i m p).inputs, smap := (s.packetRead i m p).smap } := by
  unfold State.packetRead
  by_cases broken : m.brokenBy p
  · rw [continuity_of_broken broken, countNoted_frame]
    rfl
  · rw [continuity_of_not_broken broken, countNoted_frame]
    rfl

theorem packetRead_smap : (s.packetRead i m p).smap = (s.countNoted (pidKey i (pktPid p)) m p).smap := by
  have hsame : ∀ x, ((s.setInput i x).countNoted (pidKey i (pktPid p)) m p).smap
      = (s.countNoted (pidKey i (pktPid p)) m p).smap := by
    intro x
    unfold State.countNoted
    split <;> rfl
  unfold State.packetRead
  by_cases broken : m.brokenBy p
  · rw [continuity_of_broken broken]
    exact hsame _
  · rw [continuity_of_not_broken broken]
    exact hsame _

theorem input_packetRead_of_broken (broken : m.brokenBy p) (j : Nat) :
    (s.packetRead i m p).input j = if j = i then { (s.input i).received with
      counters := (s.input i).received.counters.incContinuity } else s.input j := by
  unfold State.packetRead
  rw [continuity_of_broken broken]
  unfold State.countInput
  by_cases h : j = i
  · subst h
    simp [input_countNoted]
  · simp [h, Ne.symm h, input_countNoted]

theorem input_packetRead_of_not_broken (whole : ¬ m.brokenBy p) (j : Nat) :
    (s.packetRead i m p).input j = if j = i then (s.input i).received else s.input j := by
  unfold State.packetRead
  rw [continuity_of_not_broken whole, input_countNoted, input_setInput]
  exact if_congr eq_comm rfl rfl

/-- The whole packet, from its delivery to its copies. -/
theorem deliver_matched {r : Record} (settled : s.ctabDue = []) (enabled : (s.input i).enabled = true)
    (locked : (s.input i).sync = .locked) (good : pktError p = false) (notNull : pktPid p ≠ 0x1FFF)
    (notCue : (s.input i).cuePid ≠ some (pktPid p))
    (notCommand : (s.input i).bearing = false ∨ (s.input i).commandPid ≠ pktPid p)
    (found : Table.find? s.smap (pidKey i (pktPid p)) = some m) (active : m.active = true)
    (record : s.record? m.handle = some r) :
    s.deliver i p = (((s.packetRead i m p).packetNoted m.handle m.index r p).sight m.handle
      (isSwitchPoint r m.index p)).makeCopies m.handle m.index r.cls p := by
  have hread : (s.setInput i (s.input i).received).input i = (s.input i).received := by simp
  have hclassify : (s.setInput i (s.input i).received).classify i p
      = (s.setInput i (s.input i).received).lookup i p :=
    classify_eq_lookup good notNull (by rw [hread]; exact notCue) (by rw [hread]; exact notCommand)
  calc s.deliver i p = (s.setInput i (s.input i).received).classify i p := deliver_eq enabled locked
    _ = (s.setInput i (s.input i).received).lookup i p := hclassify
    _ = (s.packetRead i m p).matchedPacket m.handle m.index p := lookup_eq found active
    _ = _ := matchedPacket_eq (by rw [packetRead_frame]; exact settled) (by rw [packetRead_frame]; exact record)

theorem exec_packetReceived {q : List Byte} (hi : i < 8) (length : q.length = 187) (awake : s.phase ≠ .asserted) :
    exec (.packetReceived i 0x47#8 q) s = .next (s.deliver i (0x47#8 :: q)) := by
  have hpacket : isPacket (0x47#8 :: q) = true := by simp [isPacket, length]
  change execPacketReceived i 0x47#8 q s = _
  unfold execPacketReceived
  rw [if_pos hi, if_pos hpacket, awake_of_not_asserted awake]

end

/-- Settles O49. -/
theorem matchedPacketsReachTheSlots : Obligations.MatchedPacketsReachTheSlots := by
  unfold Obligations.MatchedPacketsReachTheSlots
  intro i q m r s hi awake settled length p x c enabled locked good notNull notCue notCommand found active record
    up broken noted
  have hclock : (s.packetRead i m p).clock = s.clock := by rw [packetRead_frame]
  have hrun : exec (.packetReceived i 0x47#8 q) s
      = .next ((((s.packetRead i m p).packetNoted m.handle m.index r p).sight m.handle
        (isSwitchPoint r m.index p)).makeCopies m.handle m.index r.cls p) := by
    rw [exec_packetReceived hi length awake]
    exact congrArg _ (deliver_matched settled enabled locked good notNull notCue notCommand found active record)
  have hnoted : r.noted m.index (s.packetRead i m p).clock p = noted := by
    rw [hclock]
    rfl
  by_cases hbroken : m.brokenBy p
  · refine ⟨s.packetRead i m p, up c.continuity, isSwitchPoint r m.index p, packetRead_frame,
      input_packetRead_of_broken hbroken, fun _ => rfl, fun whole => absurd hbroken whole, fun k => ?_,
      isSwitchPoint_iff r m.index p, ?_⟩
    · rw [packetRead_smap]
      exact find?_countNoted _ _ _ _
    · rw [hrun, State.packetNoted, hnoted]
  · refine ⟨s.packetRead i m p, c.continuity, isSwitchPoint r m.index p, packetRead_frame,
      input_packetRead_of_not_broken hbroken, fun bad => absurd bad hbroken, fun _ => rfl, fun k => ?_,
      isSwitchPoint_iff r m.index p, ?_⟩
    · rw [packetRead_smap]
      exact find?_countNoted _ _ _ _
    · rw [hrun, State.packetNoted, hnoted]

end Sys2Proof.Machine
end

