-- ==== Sys2Proof/Proofs/EditReads.lean ====
section
/-! What an edit's bytes spell: its fields are read in their order, and checked (O16). -/

namespace Sys2Proof.Machine

/-! ### Reading what was sent (R182) -/

/-- The bytes give the value and nothing more is taken; a part of them gives none. -/
structure Reads {α : Type} (f : List Byte → Option (α × List Byte)) (sent : List Byte) (a : α) : Prop where
  whole : ∀ more, f (sent ++ more) = some (a, more)
  cut : ∀ k < sent.length, f (sent.take k) = none

theorem reads_end {α : Type} (a : α) : Reads (fun p => some (a, p)) [] a :=
  ⟨fun _ => rfl, fun k hk => absurd hk (Nat.not_lt_zero k)⟩

/-- One value after another. -/
theorem Reads.bind {α β : Type} {f : List Byte → Option (α × List Byte)} {g : α × List Byte → Option (β × List Byte)}
    {p q : List Byte} {a : α} {b : β} (first : Reads f p a) (next : Reads (fun r => g (a, r)) q b) :
    Reads (fun r => f r >>= g) (p ++ q) b where
  whole more := by
    rw [List.append_assoc, first.whole]
    exact next.whole more
  cut k hk := by
    by_cases h : k < p.length
    · rw [List.take_append_of_le_length h.le, first.cut k h]
      rfl
    · have htake : (p ++ q).take k = p ++ q.take (k - p.length) := by
        rw [List.take_append, List.take_of_length_le (by omega)]
      rw [htake, first.whole]
      rw [List.length_append] at hk
      exact next.cut _ (by omega)

theorem reads_getNat {n v : Nat} (h : v < 256 ^ n) : Reads (getNat n) (bytesOf n v) v where
  whole := getNat_bytesOf h
  cut k hk := by
    rw [length_bytesOf] at hk
    unfold getNat
    rw [if_pos (by rw [List.length_take, length_bytesOf]; omega)]

/-- The bytes of a part that may be absent. -/
def optBytes (n : Nat) (v : Option Nat) : List Byte := (v.map (bytesOf n)).getD []

theorem reads_getIf {n : Nat} {v : Option Nat} {present : Bool} (hpresent : present = v.isSome)
    (h : ∀ x, v = some x → x < 256 ^ n) : Reads (getIf present n) (optBytes n v) v := by
  subst hpresent
  cases v with
  | none => exact reads_end none
  | some x =>
    have hx := reads_getNat (h x rfl)
    refine ⟨fun more => ?_, fun k hk => ?_⟩
    · exact congrArg (Option.map fun y : Nat × List Byte => (some y.1, y.2)) (hx.whole more)
    · exact congrArg (Option.map fun y : Nat × List Byte => (some y.1, y.2)) (hx.cut k hk)

/-- The bytes of a component list. -/
def itemBytes (cs : List (Nat × Nat)) : List Byte := cs.flatMap fun c => packed [(2, c.1), (1, c.2)]

theorem reads_getItems {cs : List (Nat × Nat)} (h : ∀ c ∈ cs, c.1 < 65536 ∧ c.2 < 256) :
    Reads (getItems cs.length) (itemBytes cs) cs := by
  induction cs with
  | nil => exact reads_end []
  | cons c cs ih =>
    obtain ⟨hpid, hkind⟩ := h c (List.mem_cons_self ..)
    have hsent : itemBytes (c :: cs) = bytesOf 2 c.1 ++ (bytesOf 1 c.2 ++ (itemBytes cs ++ [])) := by
      simp [itemBytes, packed]
    rw [hsent]
    exact (reads_getNat (by omega)).bind ((reads_getNat (by omega)).bind
      ((ih fun d hd => h d (List.mem_cons_of_mem _ hd)).bind (reads_end _)))

/-! ### Presence bits (R182) -/

/-- The presence byte of parts, the first in bit 0. -/
def presenceBits (l : List Bool) : Nat := l.foldr (fun b n => 2 * n + b.toNat) 0

theorem presenceBits_lt (l : List Bool) : presenceBits l < 2 ^ l.length := by
  induction l with
  | nil => exact Nat.one_pos
  | cons b l ih =>
    have := Bool.toNat_lt b
    change 2 * presenceBits l + b.toNat < 2 ^ (l.length + 1)
    omega

theorem testBit_presenceBits (l : List Bool) (extra i : Nat) (h : i < l.length) :
    (presenceBits l + 2 ^ l.length * extra).testBit i = l.getD i false := by
  induction l generalizing i with
  | nil => exact absurd h (Nat.not_lt_zero i)
  | cons b l ih =>
    have hsplit : presenceBits (b :: l) + 2 ^ (b :: l).length * extra
        = 2 * (presenceBits l + 2 ^ l.length * extra) + b.toNat := by
      change 2 * presenceBits l + b.toNat + 2 ^ (l.length + 1) * extra = _
      ring
    have hb := Bool.toNat_lt b
    rw [hsplit]
    cases i with
    | zero =>
      rw [Nat.testBit_zero]
      cases b <;> simp
    | succ i =>
      have hhalf : (2 * (presenceBits l + 2 ^ l.length * extra) + b.toNat) / 2
          = presenceBits l + 2 ^ l.length * extra := by omega
      rw [Nat.testBit_succ, hhalf]
      exact ih i (Nat.lt_of_succ_lt_succ h)

/-- The presence byte of `n` parts, with further bits, gives each part its own bit. -/
theorem testBit_presence {l : List Bool} {n : Nat} (parts : l.length = n) (extra : Nat) :
    ∀ i < n, (presenceBits l + 2 ^ n * extra).testBit i = l.getD i false := by
  subst parts
  exact testBit_presenceBits l extra

/-- A presence bit beyond the parts is out of range (log entry 11). -/
theorem presenceOk_iff (l : List Bool) (extra : Nat) :
    presenceOk l.length (presenceBits l + 2 ^ l.length * extra) = true ↔ extra = 0 := by
  have := presenceBits_lt l
  rw [presenceOk, decide_eq_true_eq]
  constructor
  · intro h
    by_contra hne
    have : 2 ^ l.length * 1 ≤ 2 ^ l.length * extra := Nat.mul_le_mul_left _ (Nat.one_le_iff_ne_zero.2 hne)
    omega
  · rintro rfl
    omega

/-- The parts of a CREATE RECORD that may be absent. -/
def createParts (fb lw rh ar : Option Nat) : List Bool := [fb.isSome, lw.isSome, rh.isSome, ar.isSome]

/-- The parts of an AMEND RECORD; the second takes no bytes (log entry 11). -/
def amendParts (fb : Option Nat) (clear : Bool) (peak lw rh ar g : Option Nat) : List Bool :=
  [fb.isSome, clear, peak.isSome, lw.isSome, rh.isSome, ar.isSome, g.isSome]

/-- The parts of a SET LEG. -/
def setLegParts (st accept capacity streamId dirPid period wait : Option Nat) : List Bool :=
  [st.isSome, accept.isSome, capacity.isSome, streamId.isSome, dirPid.isSome, period.isSome, wait.isSome]

/-! ### The edits as they are sent -/

theorem reads_getBind {f i h n q : Nat} (hf : f < 256) (hi : i < 256) (hh : h < 65536) (hn : n < 65536)
    (hq : q < 65536) : Reads getBind (packed [(1, f), (1, i), (2, h), (2, n), (2, q)])
      ⟨some f, checkBind f i h n q⟩ :=
  (reads_getNat (by omega)).bind ((reads_getNat (by omega)).bind ((reads_getNat (by omega)).bind
    ((reads_getNat (by omega)).bind ((reads_getNat (by omega)).bind (reads_end _)))))

theorem reads_getUnbind {f i : Nat} (hf : f < 256) (hi : i < 256) :
    Reads getUnbind (packed [(1, f), (1, i)]) ⟨some f, checkUnbind f i⟩ :=
  (reads_getNat (by omega)).bind ((reads_getNat (by omega)).bind (reads_end _))

theorem reads_getRetire {h : Nat} (hh : h < 65536) :
    Reads getRetire (packed [(2, h)]) ⟨none, if handleOk h then some (.retire h) else none⟩ :=
  (reads_getNat (by omega)).bind (reads_end _)

section
variable {presence : Nat}

theorem reads_getCreate {i n cl g peak : Nat} {cs : List (Nat × Nat)} {fb lw rh ar : Option Nat}
    (hpresence : presence < 256) (hi : i < 256) (hn : n < 65536) (hcl : cl < 256) (hg : g < 256) (hpeak : peak < 65536)
    (hlen : cs.length < 256) (hcs : ∀ c ∈ cs, c.1 < 65536 ∧ c.2 < 256)
    (hfb : ∀ x, fb = some x → x < 65536) (hlw : ∀ x, lw = some x → x < 65536)
    (hrh : ∀ x, rh = some x → x < 65536) (har : ∀ x, ar = some x → x < 256)
    (bits : ∀ i < 4, presence.testBit i = (createParts fb lw rh ar).getD i false) :
    Reads getCreate (packed [(1, presence), (1, i), (2, n), (1, cl), (1, g), (1, cs.length)] ++ itemBytes cs
        ++ bytesOf 2 peak ++ optBytes 2 fb ++ optBytes 2 lw ++ optBytes 2 rh ++ optBytes 1 ar)
      ⟨none, checkCreate presence i n cl g cs peak fb lw rh ar⟩ := by
  have hsent : packed [(1, presence), (1, i), (2, n), (1, cl), (1, g), (1, cs.length)] ++ itemBytes cs
        ++ bytesOf 2 peak ++ optBytes 2 fb ++ optBytes 2 lw ++ optBytes 2 rh ++ optBytes 1 ar
      = bytesOf 1 presence ++ (bytesOf 1 i ++ (bytesOf 2 n ++ (bytesOf 1 cl ++ (bytesOf 1 g ++ (bytesOf 1 cs.length
        ++ (itemBytes cs ++ (bytesOf 2 peak ++ (optBytes 2 fb ++ (optBytes 2 lw ++ (optBytes 2 rh
        ++ (optBytes 1 ar ++ []))))))))))) := by
    simp [packed]
  rw [hsent]
  exact (reads_getNat (by omega)).bind ((reads_getNat (by omega)).bind ((reads_getNat (by omega)).bind
    ((reads_getNat (by omega)).bind ((reads_getNat (by omega)).bind ((reads_getNat (by omega)).bind
    ((reads_getItems hcs).bind ((reads_getNat (by omega)).bind ((reads_getIf (bits 0 (by omega)) hfb).bind
    ((reads_getIf (bits 1 (by omega)) hlw).bind ((reads_getIf (bits 2 (by omega)) hrh).bind
    ((reads_getIf (bits 3 (by omega)) har).bind (reads_end _))))))))))))

theorem reads_getAmend {h : Nat} {fb peak lw rh ar g : Option Nat} {clear : Bool}
    (hpresence : presence < 256) (hh : h < 65536)
    (hfb : ∀ x, fb = some x → x < 65536) (hpeak : ∀ x, peak = some x → x < 65536)
    (hlw : ∀ x, lw = some x → x < 65536) (hrh : ∀ x, rh = some x → x < 65536)
    (har : ∀ x, ar = some x → x < 256) (hg : ∀ x, g = some x → x < 256)
    (bits : ∀ i < 7, presence.testBit i = (amendParts fb clear peak lw rh ar g).getD i false) :
    Reads getAmend (packed [(1, presence), (2, h)] ++ optBytes 2 fb ++ optBytes 2 peak ++ optBytes 2 lw
        ++ optBytes 2 rh ++ optBytes 1 ar ++ optBytes 1 g)
      ⟨none, checkAmend presence h fb clear peak lw rh ar g⟩ := by
  have hsent : packed [(1, presence), (2, h)] ++ optBytes 2 fb ++ optBytes 2 peak ++ optBytes 2 lw
        ++ optBytes 2 rh ++ optBytes 1 ar ++ optBytes 1 g
      = bytesOf 1 presence ++ (bytesOf 2 h ++ (optBytes 2 fb ++ (optBytes 2 peak ++ (optBytes 2 lw
        ++ (optBytes 2 rh ++ (optBytes 1 ar ++ (optBytes 1 g ++ []))))))) := by
    simp [packed]
  have hclear : presence.testBit 1 = clear := bits 1 (by omega)
  subst hclear
  rw [hsent]
  exact (reads_getNat (by omega)).bind ((reads_getNat (by omega)).bind ((reads_getIf (bits 0 (by omega)) hfb).bind
    ((reads_getIf (bits 2 (by omega)) hpeak).bind ((reads_getIf (bits 3 (by omega)) hlw).bind
    ((reads_getIf (bits 4 (by omega)) hrh).bind ((reads_getIf (bits 5 (by omega)) har).bind
    ((reads_getIf (bits 6 (by omega)) hg).bind (reads_end _))))))))

theorem reads_getSetLeg {f : Nat} {st accept capacity streamId dirPid period wait : Option Nat}
    (hpresence : presence < 256) (hf : f < 256)
    (hst : ∀ x, st = some x → x < 256) (haccept : ∀ x, accept = some x → x < 65536)
    (hcapacity : ∀ x, capacity = some x → x < 65536) (hstreamId : ∀ x, streamId = some x → x < 65536)
    (hdirPid : ∀ x, dirPid = some x → x < 65536) (hperiod : ∀ x, period = some x → x < 65536)
    (hwait : ∀ x, wait = some x → x < 65536)
    (bits : ∀ i < 7, presence.testBit i
      = (setLegParts st accept capacity streamId dirPid period wait).getD i false) :
    Reads getSetLeg (packed [(1, presence), (1, f)] ++ optBytes 1 st ++ optBytes 2 accept ++ optBytes 2 capacity
        ++ optBytes 2 streamId ++ optBytes 2 dirPid ++ optBytes 2 period ++ optBytes 2 wait)
      ⟨some f, checkSetLeg presence f st accept capacity streamId dirPid period wait⟩ := by
  have hsent : packed [(1, presence), (1, f)] ++ optBytes 1 st ++ optBytes 2 accept ++ optBytes 2 capacity
        ++ optBytes 2 streamId ++ optBytes 2 dirPid ++ optBytes 2 period ++ optBytes 2 wait
      = bytesOf 1 presence ++ (bytesOf 1 f ++ (optBytes 1 st ++ (optBytes 2 accept ++ (optBytes 2 capacity
        ++ (optBytes 2 streamId ++ (optBytes 2 dirPid ++ (optBytes 2 period ++ (optBytes 2 wait ++ [])))))))) := by
    simp [packed]
  rw [hsent]
  exact (reads_getNat (by omega)).bind ((reads_getNat (by omega)).bind ((reads_getIf (bits 0 (by omega)) hst).bind
    ((reads_getIf (bits 1 (by omega)) haccept).bind ((reads_getIf (bits 2 (by omega)) hcapacity).bind
    ((reads_getIf (bits 3 (by omega)) hstreamId).bind ((reads_getIf (bits 4 (by omega)) hdirPid).bind
    ((reads_getIf (bits 5 (by omega)) hperiod).bind ((reads_getIf (bits 6 (by omega)) hwait).bind
    (reads_end _)))))))))

end

/-! ### The whole request (R173) -/

section
variable {kind : Nat} {sent : List Byte} {e : SentEdit}

/-- Bytes after the edit's own fail the field check. -/
theorem parseEdit_of_reads (h : Reads (getEdit kind) sent e) (more : List Byte) :
    parseEdit kind (sent ++ more) = if more = [] then e.edit else none := by
  unfold parseEdit
  rw [h.whole]
  cases more <;> rfl

theorem parseEdit_take (h : Reads (getEdit kind) sent e) (k : Nat) (hk : k < sent.length) :
    parseEdit kind (sent.take k) = none := by
  unfold parseEdit
  rw [h.cut k hk]

theorem parseEdit_exact (h : Reads (getEdit kind) sent e) : parseEdit kind sent = e.edit := by
  have := parseEdit_of_reads h []
  rwa [List.append_nil, if_pos rfl] at this

end

end Sys2Proof.Machine
end

