-- ==== Sys2Proof/Proofs/EditChecks.lean ====
section
/-! The field check of an edit, and what the requests 0x10 to 0x15 spell (O16). -/

namespace Sys2Proof.Machine

/-! ### Enumerations and optional parts -/

theorem within_iff (lo hi v : Nat) : within lo hi v = true ↔ lo ≤ v ∧ v ≤ hi := by
  simp [within]

theorem progClass_ofNat? (n : Nat) :
    ProgClass.ofNat? n = if n < 2 then some (if n = 0 then .network else .regional) else none := by
  match n with
  | 0 => rfl
  | 1 => rfl
  | n + 2 => rw [if_neg (by omega)]; rfl

theorem compKind_ofNat? (n : Nat) : CompKind.ofNat? n = if n < 4 then
    some (if n = 0 then .video else if n = 1 then .audio else if n = 2 then .subtitle else .data) else none := by
  match n with
  | 0 => rfl
  | 1 => rfl
  | 2 => rfl
  | 3 => rfl
  | n + 4 => rw [if_neg (by omega)]; rfl

theorem legState_ofNat? (n : Nat) : LegState.ofNat? n = if n < 3 then
    some (if n = 0 then .idle else if n = 1 then .onAir else .muted) else none := by
  match n with
  | 0 => rfl
  | 1 => rfl
  | 2 => rfl
  | n + 3 => rw [if_neg (by omega)]; rfl

theorem flag?_eq (n : Nat) : flag? n = if n < 2 then some (n == 1) else none := by
  match n with
  | 0 => rfl
  | 1 => rfl
  | n + 2 => rw [if_neg (by omega)]; rfl

theorem optFlag?_eq (v : Option Nat) :
    optFlag? v = if v.all (fun n => decide (n < 2)) = true then some (v.map (· == 1)) else none := by
  cases v with
  | none => rfl
  | some n =>
    by_cases h : n < 2
    · simp only [optFlag?, flag?_eq, Option.all_some, decide_eq_true_eq, if_pos h, Option.map_some]
    · simp only [optFlag?, flag?_eq, Option.all_some, decide_eq_true_eq, if_neg h, Option.map_none]

theorem all_handleOk_iff (v : Option Nat) : v.all handleOk = true ↔ ∀ x, v = some x → 1 ≤ x ∧ x ≤ 1023 := by
  simp only [Option.all_eq_true, handleOk_iff]

theorem all_within_iff (lo hi : Nat) (v : Option Nat) :
    v.all (within lo hi) = true ↔ ∀ x, v = some x → lo ≤ x ∧ x ≤ hi := by
  simp only [Option.all_eq_true, within_iff]

theorem all_lossWindowOk_iff (v : Option Nat) :
    v.all lossWindowOk = true ↔ ∀ x, v = some x → 40 ≤ x ∧ x ≤ 2000 ∧ x % 10 = 0 := by
  simp only [Option.all_eq_true, lossWindowOk, Bool.and_eq_true, within_iff, beq_iff_eq, and_assoc]

theorem all_restoreHoldOk_iff (v : Option Nat) :
    v.all restoreHoldOk = true ↔ ∀ x, v = some x → x ≤ 5000 ∧ x % 100 = 0 := by
  simp only [Option.all_eq_true, restoreHoldOk, Bool.and_eq_true, within_iff, beq_iff_eq, Nat.zero_le, true_and]

theorem all_lt_iff (n : Nat) (v : Option Nat) :
    v.all (fun x => decide (x < n)) = true ↔ ∀ x, v = some x → x < n := by
  simp only [Option.all_eq_true, decide_eq_true_eq]

/-! ### A component list (R5) -/

/-- The kind of a component's kind byte (R182). -/
def kindOf (n : Nat) : CompKind :=
  if n = 0 then .video else if n = 1 then .audio else if n = 2 then .subtitle else .data

/-- An item in range. -/
def itemOk (c : Nat × Nat) : Bool := decide (c.2 < 4) && pidOk c.1

theorem component?_eq (c : Nat × Nat) :
    component? c = if itemOk c = true then some ⟨c.1, kindOf c.2⟩ else none := by
  unfold component? itemOk
  rw [compKind_ofNat?]
  by_cases h : c.2 < 4
  · simp [h, kindOf]
  · simp [h]

theorem mapM_component? (cs : List (Nat × Nat)) : cs.mapM component?
    = if cs.all itemOk = true then some (cs.map fun c => ⟨c.1, kindOf c.2⟩) else none := by
  induction cs with
  | nil => rfl
  | cons c cs ih =>
    rw [List.mapM_cons, ih, component?_eq]
    by_cases h : itemOk c = true
    · by_cases h' : cs.all itemOk = true <;> simp [h, h']
    · simp [h]

theorem all_itemOk_iff (cs : List (Nat × Nat)) :
    cs.all itemOk = true ↔ (∀ c ∈ cs, c.2 < 4) ∧ ∀ c ∈ cs, 0x20 ≤ c.1 ∧ c.1 ≤ 0x1FFE := by
  simp only [List.all_eq_true, itemOk, pidOk, Bool.and_eq_true, decide_eq_true_eq, within_iff, forall_and]

theorem componentsOk_iff (cs : List (Nat × Nat)) :
    componentsOk (cs.map fun c => ⟨c.1, kindOf c.2⟩) = true
      ↔ (1 ≤ cs.length ∧ cs.length ≤ 8) ∧ (cs.map (·.1)).Nodup := by
  simp [componentsOk, within_iff, Function.comp_def]

/-! ### The field checks (R107) -/

theorem checkBind_eq (f i h n q : Nat) : checkBind f i h n q
    = if f < 24 ∧ i < 16 ∧ 1 ≤ h ∧ h ≤ 1023 ∧ 1 ≤ n ∧ n ≤ 65535 ∧ 0x20 ≤ q ∧ q ≤ 0x1FF7 then
        some (.slot ⟨f, i, some ⟨h, n, q⟩⟩)
      else none := by
  unfold checkBind
  refine if_congr ?_ rfl rfl
  simp only [feedOk, slotOk, Bool.and_eq_true, decide_eq_true_eq, within_iff, handleOk_iff, and_assoc]
  rfl

theorem checkUnbind_eq (f i : Nat) :
    checkUnbind f i = if f < 24 ∧ i < 16 then some (.slot ⟨f, i, none⟩) else none := by
  unfold checkUnbind
  refine if_congr ?_ rfl rfl
  simp only [feedOk, slotOk, Bool.and_eq_true, decide_eq_true_eq]
  rfl

/-- The ranges of a CREATE RECORD. -/
def createOk (presence input programme cls region : Nat) (items : List (Nat × Nat)) (peak : Nat)
    (fb lw rh ar : Option Nat) : Prop :=
  cls < 2 ∧ items.all itemOk = true ∧ ar.all (fun n => decide (n < 2)) = true
    ∧ (presenceOk 4 presence && within 0 7 input && within 1 65535 programme && within 0 15 region
      && componentsOk (items.map fun c => ⟨c.1, kindOf c.2⟩) && within 32 40000 peak && fb.all handleOk
      && lw.all lossWindowOk && rh.all restoreHoldOk) = true

section
variable {presence i n cl g peak : Nat} {cs : List (Nat × Nat)} {fb lw rh ar : Option Nat}

theorem checkCreate_of_ok (ok : createOk presence i n cl g cs peak fb lw rh ar) :
    checkCreate presence i n cl g cs peak fb lw rh ar
      = some (.create 0 ⟨⟨i, n⟩, if cl = 0 then .network else .regional, g, cs.map fun c => ⟨c.1, kindOf c.2⟩,
          peak, fb, lw, rh, ar.map (· == 1)⟩) := by
  obtain ⟨cls, items, flag, rest⟩ := ok
  unfold checkCreate
  rw [progClass_ofNat?, mapM_component?, optFlag?_eq, if_pos cls, if_pos items, if_pos flag]
  exact if_pos rest

theorem checkCreate_of_not_ok (bad : ¬ createOk presence i n cl g cs peak fb lw rh ar) :
    checkCreate presence i n cl g cs peak fb lw rh ar = none := by
  unfold checkCreate
  rw [progClass_ofNat?, mapM_component?, optFlag?_eq]
  by_cases cls : cl < 2
  · by_cases items : cs.all itemOk = true
    · by_cases flag : ar.all (fun n => decide (n < 2)) = true
      · rw [if_pos cls, if_pos items, if_pos flag]
        exact if_neg fun rest => bad ⟨cls, items, flag, rest⟩
      · rw [if_pos cls, if_pos items, if_neg flag]
        rfl
    · rw [if_pos cls, if_neg items]
      rfl
  · rw [if_neg cls]
    rfl

end

/-- The ranges of an AMEND RECORD. -/
def amendOk (presence handle : Nat) (fb : Option Nat) (clear : Bool) (peak lw rh ar region : Option Nat) : Prop :=
  ar.all (fun n => decide (n < 2)) = true
    ∧ (presenceOk 7 presence && presence != 0 && handleOk handle && !(fb.isSome && clear)
      && fb.all (fun f => handleOk f && f != handle) && peak.all (within 32 40000)
      && lw.all lossWindowOk && rh.all restoreHoldOk && region.all (within 0 15)) = true

section
variable {presence h : Nat} {fb peak lw rh ar g : Option Nat} {clear : Bool}

theorem checkAmend_of_ok (ok : amendOk presence h fb clear peak lw rh ar g) :
    checkAmend presence h fb clear peak lw rh ar g
      = some (.amend ⟨h, fb, clear, peak, lw, rh, ar.map (· == 1), g⟩) := by
  obtain ⟨flag, rest⟩ := ok
  unfold checkAmend
  rw [optFlag?_eq, if_pos flag]
  exact if_pos rest

theorem checkAmend_of_not_ok (bad : ¬ amendOk presence h fb clear peak lw rh ar g) :
    checkAmend presence h fb clear peak lw rh ar g = none := by
  unfold checkAmend
  rw [optFlag?_eq]
  by_cases flag : ar.all (fun n => decide (n < 2)) = true
  · rw [if_pos flag]
    exact if_neg fun rest => bad ⟨flag, rest⟩
  · rw [if_neg flag]
    rfl

end

/-- The leg state of a state byte (R182). -/
def legStateOf (n : Nat) : LegState := if n = 0 then .idle else if n = 1 then .onAir else .muted

/-- The ranges of a SET LEG. -/
def setLegOk (presence feed : Nat) (st capacity dirPid period wait : Option Nat) : Prop :=
  st.all (fun n => decide (n < 3)) = true
    ∧ (presenceOk 7 presence && presence != 0 && feedOk feed && capacity.all (within 1000 60000)
      && dirPid.all (within 0x10 0x1F) && period.all (within 25 1000) && wait.all (within 100 4000)) = true

section
variable {presence f : Nat} {st accept capacity streamId dirPid period wait : Option Nat}

theorem checkSetLeg_of_ok (ok : setLegOk presence f st capacity dirPid period wait) :
    checkSetLeg presence f st accept capacity streamId dirPid period wait
      = some (.setLeg ⟨f, st.map legStateOf, accept.map (BitVec.ofNat 16), capacity, streamId, dirPid, period,
          wait⟩) := by
  obtain ⟨state, rest⟩ := ok
  unfold checkSetLeg
  cases st with
  | none => exact if_pos rest
  | some n =>
    have hn : n < 3 := (all_lt_iff 3 _).1 state n rfl
    dsimp only
    rw [legState_ofNat?, if_pos hn]
    exact if_pos rest

theorem checkSetLeg_of_not_ok (bad : ¬ setLegOk presence f st capacity dirPid period wait) :
    checkSetLeg presence f st accept capacity streamId dirPid period wait = none := by
  unfold checkSetLeg
  cases st with
  | none => exact if_neg fun rest => bad ⟨rfl, rest⟩
  | some n =>
    dsimp only
    rw [legState_ofNat?]
    by_cases hn : n < 3
    · rw [if_pos hn]
      exact if_neg fun rest => bad ⟨decide_eq_true hn, rest⟩
    · rw [if_neg hn]
      rfl

end

/-! ### The ranges, as the requests' rules say them (R5, R8, R12, R60) -/

/-- No bit beyond the parts, and a bit set. -/
theorem presence_some_iff (l : List Bool) (extra : Nat) :
    (presenceOk l.length (presenceBits l + 2 ^ l.length * extra) = true
      ∧ (presenceBits l + 2 ^ l.length * extra != 0) = true) ↔ extra = 0 ∧ presenceBits l ≠ 0 := by
  rw [presenceOk_iff, bne_iff_ne]
  constructor
  · rintro ⟨rfl, some⟩
    exact ⟨rfl, some⟩
  · rintro ⟨rfl, some⟩
    exact ⟨rfl, some⟩

theorem createOk_iff {l : List Bool} (parts : l.length = 4) {extra i n cl g peak : Nat} {cs : List (Nat × Nat)}
    {fb lw rh ar : Option Nat} (hn : n < 65536) :
    createOk (presenceBits l + 16 * extra) i n cl g cs peak fb lw rh ar ↔ extra = 0 ∧ (∀ c ∈ cs, c.2 < 4) ∧ i < 8
      ∧ 1 ≤ n ∧ cl < 2 ∧ g < 16 ∧ 1 ≤ cs.length ∧ cs.length ≤ 8 ∧ (cs.map (·.1)).Nodup
      ∧ (∀ c ∈ cs, 0x20 ≤ c.1 ∧ c.1 ≤ 0x1FFE) ∧ 32 ≤ peak ∧ peak ≤ 40000
      ∧ (∀ x, fb = some x → 1 ≤ x ∧ x ≤ 1023) ∧ (∀ x, lw = some x → 40 ≤ x ∧ x ≤ 2000 ∧ x % 10 = 0)
      ∧ (∀ x, rh = some x → x ≤ 5000 ∧ x % 100 = 0) ∧ ∀ x, ar = some x → x < 2 := by
  have hpresence : presenceOk 4 (presenceBits l + 16 * extra) = true ↔ extra = 0 := by
    have := presenceOk_iff l extra
    rw [parts] at this
    exact this
  simp only [createOk, Bool.and_eq_true, hpresence, within_iff, all_itemOk_iff, all_lt_iff, componentsOk_iff,
    all_handleOk_iff, all_lossWindowOk_iff, all_restoreHoldOk_iff]
  constructor
  · rintro ⟨cls, ⟨kinds, pids⟩, flag, ⟨⟨⟨⟨⟨⟨⟨bits, input⟩, programme⟩, region⟩, count, distinct⟩, peak⟩, fb⟩, lw⟩, rh⟩
    exact ⟨bits, kinds, by omega, programme.1, cls, by omega, count.1, count.2, distinct, pids, peak.1, peak.2, fb, lw,
      rh, flag⟩
  · rintro ⟨bits, kinds, input, programme, cls, region, one, few, distinct, pids, low, high, fb, lw, rh, flag⟩
    exact ⟨cls, ⟨kinds, pids⟩, flag, ⟨⟨⟨⟨⟨⟨⟨bits, by omega⟩, by omega⟩, by omega⟩, ⟨one, few⟩, distinct⟩, low, high⟩,
      fb⟩, lw⟩, rh⟩

theorem amendOk_iff {l : List Bool} (parts : l.length = 7) {extra h : Nat} {fb peak lw rh ar g : Option Nat}
    {clear : Bool} :
    amendOk (presenceBits l + 128 * extra) h fb clear peak lw rh ar g ↔ extra = 0 ∧ presenceBits l ≠ 0 ∧ 1 ≤ h
      ∧ h ≤ 1023 ∧ ¬ (fb.isSome ∧ clear = true) ∧ (∀ x, fb = some x → 1 ≤ x ∧ x ≤ 1023 ∧ x ≠ h)
      ∧ (∀ x, peak = some x → 32 ≤ x ∧ x ≤ 40000) ∧ (∀ x, lw = some x → 40 ≤ x ∧ x ≤ 2000 ∧ x % 10 = 0)
      ∧ (∀ x, rh = some x → x ≤ 5000 ∧ x % 100 = 0) ∧ (∀ x, ar = some x → x < 2) ∧ ∀ x, g = some x → x < 16 := by
  have hpresence : (presenceOk 7 (presenceBits l + 128 * extra) = true
      ∧ (presenceBits l + 128 * extra != 0) = true) ↔ extra = 0 ∧ presenceBits l ≠ 0 := by
    have := presence_some_iff l extra
    rw [parts] at this
    exact this
  have hregion : (∀ x, g = some x → 0 ≤ x ∧ x ≤ 15) ↔ ∀ x, g = some x → x < 16 :=
    forall₂_congr fun x _ => by omega
  have hfallback : fb.all (fun f => handleOk f && f != h) = true ↔ ∀ x, fb = some x → 1 ≤ x ∧ x ≤ 1023 ∧ x ≠ h := by
    simp only [Option.all_eq_true, Bool.and_eq_true, handleOk_iff, bne_iff_ne, and_assoc]
  have hclear : (!(fb.isSome && clear)) = true ↔ ¬ (fb.isSome ∧ clear = true) := by
    rw [Bool.not_eq_true', ← Bool.not_eq_true, Bool.and_eq_true]
  simp only [amendOk, Bool.and_eq_true, hpresence, all_lt_iff, hfallback, hclear, handleOk_iff, all_within_iff, hregion,
    all_lossWindowOk_iff, all_restoreHoldOk_iff]
  constructor
  · rintro ⟨flag, ⟨⟨⟨⟨⟨⟨⟨bits, any⟩, handle⟩, clear⟩, fb⟩, peak⟩, lw⟩, rh⟩, region⟩
    exact ⟨bits, any, handle.1, handle.2, clear, fb, peak, lw, rh, flag, region⟩
  · rintro ⟨bits, any, low, high, clear, fb, peak, lw, rh, flag, region⟩
    exact ⟨flag, ⟨⟨⟨⟨⟨⟨⟨bits, any⟩, low, high⟩, clear⟩, fb⟩, peak⟩, lw⟩, rh⟩, region⟩

theorem setLegOk_iff {l : List Bool} (parts : l.length = 7) {extra f : Nat}
    {st capacity dirPid period wait : Option Nat} :
    setLegOk (presenceBits l + 128 * extra) f st capacity dirPid period wait ↔ extra = 0 ∧ presenceBits l ≠ 0 ∧ f < 24
      ∧ (∀ x, st = some x → x < 3) ∧ (∀ x, capacity = some x → 1000 ≤ x ∧ x ≤ 60000)
      ∧ (∀ x, dirPid = some x → 0x10 ≤ x ∧ x ≤ 0x1F) ∧ (∀ x, period = some x → 25 ≤ x ∧ x ≤ 1000)
      ∧ ∀ x, wait = some x → 100 ≤ x ∧ x ≤ 4000 := by
  have hpresence : (presenceOk 7 (presenceBits l + 128 * extra) = true
      ∧ (presenceBits l + 128 * extra != 0) = true) ↔ extra = 0 ∧ presenceBits l ≠ 0 := by
    have := presence_some_iff l extra
    rw [parts] at this
    exact this
  have hfeed : feedOk f = true ↔ f < 24 := decide_eq_true_iff
  simp only [setLegOk, Bool.and_eq_true, hpresence, all_lt_iff, all_within_iff, hfeed]
  constructor
  · rintro ⟨state, ⟨⟨⟨⟨⟨bits, any⟩, feed⟩, capacity⟩, pid⟩, period⟩, wait⟩
    exact ⟨bits, any, feed, state, capacity, pid, period, wait⟩
  · rintro ⟨bits, any, feed, state, capacity, pid, period, wait⟩
    exact ⟨state, ⟨⟨⟨⟨⟨bits, any⟩, feed⟩, capacity⟩, pid⟩, period⟩, wait⟩

end Sys2Proof.Machine
end

