-- ==== Sys2Proof/Proofs/EditRequests.lean ====
section
/-! The edit requests 0x10 to 0x15, as their bytes spell them (O16). -/

namespace Sys2Proof.Machine

/-! ### The edits of fixed fields -/

theorem parseEdit_bind {f i h n q : Nat} (hf : f < 256) (hi : i < 256) (hh : h < 65536) (hn : n < 65536)
    (hq : q < 65536) : parseEdit 0x13 (packed [(1, f), (1, i), (2, h), (2, n), (2, q)])
      = if f < 24 ∧ i < 16 ∧ 1 ≤ h ∧ h ≤ 1023 ∧ 1 ≤ n ∧ 0x20 ≤ q ∧ q ≤ 0x1FF7 then
          some (.slot ⟨f, i, some ⟨h, n, q⟩⟩)
        else none := by
  have hread : Reads (getEdit 0x13) _ _ := reads_getBind hf hi hh hn hq
  rw [parseEdit_exact hread]
  refine (checkBind_eq f i h n q).trans (if_congr ?_ rfl rfl)
  omega

theorem parseEdit_unbind {f i : Nat} (hf : f < 256) (hi : i < 256) : parseEdit 0x14 (packed [(1, f), (1, i)])
    = if f < 24 ∧ i < 16 then some (.slot ⟨f, i, none⟩) else none := by
  have hread : Reads (getEdit 0x14) _ _ := reads_getUnbind hf hi
  rw [parseEdit_exact hread]
  exact checkUnbind_eq f i

theorem parseEdit_retire {h : Nat} (hh : h < 65536) :
    parseEdit 0x12 (packed [(2, h)]) = if 1 ≤ h ∧ h ≤ 1023 then some (.retire h) else none := by
  have hread : Reads (getEdit 0x12) _ _ := reads_getRetire hh
  rw [parseEdit_exact hread]
  exact if_congr (handleOk_iff h) rfl rfl

/-- An edit spelled by the request fills its bytes exactly (R173). -/
theorem parseEdit_eq_some {kind : Nat} {p : List Byte} {d : Edit} (h : parseEdit kind p = some d) :
    ∃ e, getEdit kind p = some (e, []) := by
  unfold parseEdit at h
  split at h
  next e found => exact ⟨e, found⟩
  next => simp at h

theorem parseEdit_of_unread {kind : Nat} {p : List Byte} (h : ∀ e, getEdit kind p ≠ some (e, [])) :
    parseEdit kind p = none := by
  rw [Option.eq_none_iff_forall_ne_some]
  intro d hd
  obtain ⟨e, found⟩ := parseEdit_eq_some hd
  exact h e found

theorem parseEdit_bind_of_length {p : List Byte} (h : p.length ≠ 8) : parseEdit 0x13 p = none := by
  refine parseEdit_of_unread fun e found => h ?_
  change getBind p = _ at found
  unfold getBind at found
  simp only [Option.bind_eq_bind, Option.bind_eq_some_iff, Prod.exists] at found
  obtain ⟨_, _, feed, _, _, slot, _, _, handle, _, _, programme, _, rest, base, last⟩ := found
  have hrest : rest = [] := by simp_all
  rw [getNat_length feed, getNat_length slot, getNat_length handle, getNat_length programme, getNat_length base, hrest]
  rfl

theorem parseEdit_unbind_of_length {p : List Byte} (h : p.length ≠ 2) : parseEdit 0x14 p = none := by
  refine parseEdit_of_unread fun e found => h ?_
  change getUnbind p = _ at found
  unfold getUnbind at found
  simp only [Option.bind_eq_bind, Option.bind_eq_some_iff, Prod.exists] at found
  obtain ⟨_, _, feed, _, rest, slot, last⟩ := found
  have hrest : rest = [] := by simp_all
  rw [getNat_length feed, getNat_length slot, hrest]
  rfl

theorem parseEdit_retire_of_length {p : List Byte} (h : p.length ≠ 2) : parseEdit 0x12 p = none := by
  refine parseEdit_of_unread fun e found => h ?_
  change getRetire p = _ at found
  unfold getRetire at found
  simp only [Option.bind_eq_bind, Option.bind_eq_some_iff, Prod.exists] at found
  obtain ⟨_, rest, handle, last⟩ := found
  have hrest : rest = [] := by simp_all
  rw [getNat_length handle, hrest]
  rfl

/-! ### The edits of optional parts -/

/-- What an edit's reader and its ranges say of a request. -/
theorem parseEdit_spells {kind : Nat} {sent : List Byte} {e : SentEdit} {ok : Prop} {d : Edit}
    (read : Reads (getEdit kind) sent e) (good : ok → e.edit = some d) (bad : ¬ ok → e.edit = none)
    (more : List Byte) :
    (more = [] ∧ ok → parseEdit kind (sent ++ more) = some d)
      ∧ (¬ (more = [] ∧ ok) → parseEdit kind (sent ++ more) = none)
      ∧ ∀ k < sent.length, parseEdit kind (sent.take k) = none := by
  rw [parseEdit_of_reads read]
  refine ⟨?_, fun fails => ?_, parseEdit_take read⟩
  · rintro ⟨all, fits⟩
    rw [if_pos all, good fits]
  · by_cases all : more = []
    · rw [if_pos all, bad fun fits => fails ⟨all, fits⟩]
    · rw [if_neg all]

section
variable {extra : Nat} {fb lw rh ar : Option Nat}

theorem presence_lt {l : List Bool} {n : Nat} (parts : l.length = n) (fits : 2 ^ n * (extra + 1) ≤ 256) :
    presenceBits l + 2 ^ n * extra < 256 := by
  subst parts
  have := presenceBits_lt l
  rw [Nat.mul_succ] at fits
  omega

theorem reads_create {i n cl g peak : Nat} {cs : List (Nat × Nat)} (hextra : extra < 16) (hi : i < 256)
    (hn : n < 65536) (hcl : cl < 256) (hg : g < 256) (hpeak : peak < 65536) (hlen : cs.length < 256)
    (hcs : ∀ c ∈ cs, c.1 < 65536 ∧ c.2 < 256) (hfb : ∀ x, fb = some x → x < 65536)
    (hlw : ∀ x, lw = some x → x < 65536) (hrh : ∀ x, rh = some x → x < 65536) (har : ∀ x, ar = some x → x < 256) :
    Reads (getEdit 0x10) (packed [(1, presenceBits (createParts fb lw rh ar) + 16 * extra), (1, i), (2, n), (1, cl),
        (1, g), (1, cs.length)] ++ itemBytes cs ++ bytesOf 2 peak ++ optBytes 2 fb ++ optBytes 2 lw ++ optBytes 2 rh
        ++ optBytes 1 ar)
      ⟨none, checkCreate (presenceBits (createParts fb lw rh ar) + 16 * extra) i n cl g cs peak fb lw rh ar⟩ :=
  reads_getCreate (presence_lt (n := 4) rfl (by omega)) hi hn hcl hg hpeak hlen hcs hfb hlw hrh har
    (testBit_presence (n := 4) (l := createParts fb lw rh ar) rfl extra)

theorem reads_amend {h : Nat} {peak g : Option Nat} {clear : Bool} (hextra : extra < 2) (hh : h < 65536)
    (hfb : ∀ x, fb = some x → x < 65536) (hpeak : ∀ x, peak = some x → x < 65536)
    (hlw : ∀ x, lw = some x → x < 65536) (hrh : ∀ x, rh = some x → x < 65536) (har : ∀ x, ar = some x → x < 256)
    (hg : ∀ x, g = some x → x < 256) :
    Reads (getEdit 0x11) (packed [(1, presenceBits (amendParts fb clear peak lw rh ar g) + 128 * extra), (2, h)]
        ++ optBytes 2 fb ++ optBytes 2 peak ++ optBytes 2 lw ++ optBytes 2 rh ++ optBytes 1 ar ++ optBytes 1 g)
      ⟨none, checkAmend (presenceBits (amendParts fb clear peak lw rh ar g) + 128 * extra) h fb clear peak lw rh ar
        g⟩ :=
  reads_getAmend (presence_lt (n := 7) rfl (by omega)) hh hfb hpeak hlw hrh har hg
    (testBit_presence (n := 7) (l := amendParts fb clear peak lw rh ar g) rfl extra)

theorem reads_setLeg {f : Nat} {st accept capacity streamId dirPid period wait : Option Nat} (hextra : extra < 2)
    (hf : f < 256) (hst : ∀ x, st = some x → x < 256) (haccept : ∀ x, accept = some x → x < 65536)
    (hcapacity : ∀ x, capacity = some x → x < 65536) (hstreamId : ∀ x, streamId = some x → x < 65536)
    (hdirPid : ∀ x, dirPid = some x → x < 65536) (hperiod : ∀ x, period = some x → x < 65536)
    (hwait : ∀ x, wait = some x → x < 65536) :
    Reads (getEdit 0x15) (packed [(1, presenceBits (setLegParts st accept capacity streamId dirPid period wait)
          + 128 * extra), (1, f)] ++ optBytes 1 st ++ optBytes 2 accept ++ optBytes 2 capacity ++ optBytes 2 streamId
        ++ optBytes 2 dirPid ++ optBytes 2 period ++ optBytes 2 wait)
      ⟨some f, checkSetLeg (presenceBits (setLegParts st accept capacity streamId dirPid period wait) + 128 * extra) f
        st accept capacity streamId dirPid period wait⟩ :=
  reads_getSetLeg (presence_lt (n := 7) rfl (by omega)) hf hst haccept hcapacity hstreamId hdirPid hperiod hwait
    (testBit_presence (n := 7) (l := setLegParts st accept capacity streamId dirPid period wait) rfl extra)

end

/-- Settles O16. -/
theorem editsAreReadInTheirOrder : Obligations.EditsAreReadInTheirOrder := by
  unfold Obligations.EditsAreReadInTheirOrder
  refine ⟨fun f i h n q hf hi hh hn hq => parseEdit_bind hf hi hh hn hq, fun f i hf hi => parseEdit_unbind hf hi,
    fun h hh => parseEdit_retire hh, fun p => ⟨parseEdit_bind_of_length, fun length =>
      ⟨parseEdit_unbind_of_length length, parseEdit_retire_of_length length⟩⟩, ?_, ?_, ?_⟩
  · intro i n cl g peak extra cs fb lw rh ar more hi hn hcl hg hpeak hextra hlen hcs hfb hlw hrh har
    have ranges := createOk_iff (l := createParts fb lw rh ar) rfl (extra := extra) (i := i) (cl := cl) (g := g)
      (peak := peak) (cs := cs) (fb := fb) (lw := lw) (rh := rh) (ar := ar) hn
    exact parseEdit_spells (reads_create hextra hi hn hcl hg hpeak hlen hcs hfb hlw hrh har)
      (fun ok => checkCreate_of_ok (ranges.2 ok)) (fun bad => checkCreate_of_not_ok fun ok => bad (ranges.1 ok)) more
  · intro h extra fb clear peak lw rh ar g more hh hextra hfb hpeak hlw hrh har hg
    have ranges := amendOk_iff (l := amendParts fb clear peak lw rh ar g) rfl (extra := extra) (h := h) (fb := fb)
      (peak := peak) (lw := lw) (rh := rh) (ar := ar) (g := g) (clear := clear)
    exact parseEdit_spells (reads_amend hextra hh hfb hpeak hlw hrh har hg)
      (fun ok => checkAmend_of_ok (ranges.2 ok)) (fun bad => checkAmend_of_not_ok fun ok => bad (ranges.1 ok)) more
  · intro f extra st accept capacity streamId dirPid period wait more hf hextra hst haccept hcapacity hstreamId hdirPid
      hperiod hwait
    have ranges := setLegOk_iff (l := setLegParts st accept capacity streamId dirPid period wait) rfl (extra := extra)
      (f := f) (st := st) (capacity := capacity) (dirPid := dirPid) (period := period) (wait := wait)
    exact parseEdit_spells
      (reads_setLeg hextra hf hst haccept hcapacity hstreamId hdirPid hperiod hwait)
      (fun ok => checkSetLeg_of_ok (ranges.2 ok)) (fun bad => checkSetLeg_of_not_ok fun ok => bad (ranges.1 ok)) more

end Sys2Proof.Machine
end

