-- ==== Sys2Proof/Proofs/InputSettings.lean ====
section
/-! SET INPUT, from its bytes to the settings (O12). -/

namespace Sys2Proof.Machine

section
variable {s : State} {p : List Byte} {c : InputSettings}

theorem ownSetInput_of_unread (r : Requester) (unread : parseSetInput p = none) :
    ownSetInput s r p = (s, .refused .badField) := by
  unfold ownSetInput
  rw [unread]

/-- The cue PID may not be the command PID (R27 step 2). -/
theorem ownSetInput_of_same (r : Requester) (read : parseSetInput p = some c)
    (same : (c.apply (s.input c.input)).cuePid = some (c.apply (s.input c.input)).commandPid) :
    ownSetInput s r p = (s, .refused .badField) := by
  unfold ownSetInput
  rw [read]
  exact if_pos same

/-- The settings would reserve a PID that they do not yet, and that the stream map holds (R27 step 3). -/
def State.pidsTaken (s : State) (c : InputSettings) : Prop :=
  ∃ q, q ∈ (c.apply (s.input c.input)).reservedPids ∧ q ∉ (s.input c.input).reservedPids ∧ s.mapped c.input q = true

theorem pidsTaken_iff : ((c.apply (s.input c.input)).reservedPids.any fun q =>
    !(s.input c.input).reservedPids.contains q && s.mapped c.input q) = true ↔ s.pidsTaken c := by
  simp [State.pidsTaken]

theorem ownSetInput_of_taken (r : Requester) (read : parseSetInput p = some c)
    (other : (c.apply (s.input c.input)).cuePid ≠ some (c.apply (s.input c.input)).commandPid)
    (taken : s.pidsTaken c) : ownSetInput s r p = (s, .refused .pidTaken) := by
  unfold ownSetInput
  rw [read]
  exact (if_neg other).trans (if_pos (pidsTaken_iff.2 taken))

theorem ownSetInput_of_free (r : Requester) (read : parseSetInput p = some c)
    (other : (c.apply (s.input c.input)).cuePid ≠ some (c.apply (s.input c.input)).commandPid)
    (free : ¬ s.pidsTaken c) : ownSetInput s r p
      = (s.setInput c.input (switchSync (s.input c.input) (c.apply (s.input c.input))), .taken []) := by
  unfold ownSetInput
  rw [read]
  exact (if_neg other).trans (if_neg fun taken => free (pidsTaken_iff.1 taken))

end

/-- Settles O12. -/
theorem inputsAreSet : Obligations.InputsAreSet := by
  unfold Obligations.InputsAreSet
  refine ⟨fun p s ready short unread => exec_direct ready short (ownSetInput_of_unread _ unread),
    fun p c s ready short read => ⟨fun same => ?_, fun other taken => ?_, fun other free => ?_⟩⟩
  · exact exec_direct ready short (ownSetInput_of_same (s := s.accepted p.length) _ read same)
  · exact exec_direct ready short (ownSetInput_of_taken (s := s.accepted p.length) _ read other taken)
  · exact exec_direct ready short (ownSetInput_of_free (s := s.accepted p.length) _ read other free)

end Sys2Proof.Machine
end

