-- ==== Sys2Proof/Proofs/SortedPackets.lean ====
section
/-! What a LOCKED input does with a packet that no record takes: it is counted, and dropped, listed or queued (O48). -/

namespace Sys2Proof.Machine

section
variable {s : State} {i : Nat} {p : List Byte}

/-! ### Counting (R30, R40) -/

theorem saturate_one (n : Nat) : saturate n 1 = min (n + 1) (2 ^ 32 - 1) := rfl

theorem saturate_one_ne_zero (n : Nat) : saturate n 1 ≠ 0 := by
  rw [saturate_one]
  omega

/-- Erasing a row undoes a write of it. -/
theorem Table.erase_put {α : Type} (t : Table α) (k : Nat) (v : α) :
    Table.erase (Table.put t k v) k = Table.erase t k := by
  induction t with
  | nil => simp [Table.put, Table.erase]
  | cons c t ih =>
    obtain ⟨k', v'⟩ := c
    unfold Table.put
    split
    · simp [Table.erase]
    · split
      · next same => simp [Table.erase, same]
      · simp only [Table.erase, List.filter_cons] at ih ⊢
        rw [ih]

/-- A second write of an input wins over a first one that is not its starting value. -/
theorem setInput_setInput {x : Input} (y : Input) (changed : x ≠ Input.start i) :
    (s.setInput i x).setInput i y = s.setInput i y := by
  unfold State.setInput Table.store
  dsimp only
  rw [if_neg changed, Table.put_put, Table.erase_put]

theorem received_ne_start : (s.input i).received ≠ Input.start i := fun same =>
  saturate_one_ne_zero _ (congrArg (fun x : Input => x.counters.received) same)

/-- A further count on an input that has counted its packet. -/
theorem countInput_received (f : InputCounters → InputCounters) :
    (s.setInput i (s.input i).received).countInput i f
      = s.setInput i { (s.input i).received with counters := f (s.input i).received.counters } := by
  unfold State.countInput
  rw [input_setInput, if_pos rfl, setInput_setInput _ received_ne_start]

/-! ### The rows of R31's table -/

theorem deliver_of_off (off : (s.input i).enabled = false ∨ (s.input i).sync = .search) : s.deliver i p = s := by
  unfold State.deliver
  rcases off with off | off <;> simp [off]

theorem deliver_eq_classify (enabled : (s.input i).enabled = true) (locked : (s.input i).sync = .locked) :
    s.deliver i p = (s.setInput i (s.input i).received).classify i p := deliver_eq enabled locked

theorem classify_of_error (bad : pktError p = true) : s.classify i p = s.countInput i InputCounters.incErrored :=
  if_pos bad

theorem classify_of_null (good : pktError p = false) (null : pktPid p = 0x1FFF) : s.classify i p = s := by
  unfold State.classify
  simp [good, null]

theorem classify_of_cue (good : pktError p = false) (notNull : pktPid p ≠ 0x1FFF)
    (cue : (s.input i).cuePid = some (pktPid p)) : s.classify i p = s.cuePacket i p := by
  unfold State.classify
  simp [good, notNull, cue]

theorem classify_of_command (good : pktError p = false) (notNull : pktPid p ≠ 0x1FFF)
    (notCue : (s.input i).cuePid ≠ some (pktPid p)) (bearing : (s.input i).bearing = true)
    (command : (s.input i).commandPid = pktPid p) : s.classify i p = s.commandPacket i p := by
  unfold State.classify
  simp [good, notNull, notCue, bearing, command]

/-- A packet without an ACTIVE entry is unmapped (R39). -/
theorem lookup_of_unmapped
    (inactive : ∀ m, Table.find? s.smap (pidKey i (pktPid p)) = some m → m.active = false) :
    s.lookup i p = s.countInput i InputCounters.incUnmapped := by
  have none : (Table.find? s.smap (pidKey i (pktPid p))).filter (·.active) = none := by
    rw [Option.filter_eq_none_iff]
    intro m found active
    rw [inactive m found] at active
    cases active
  unfold State.lookup
  dsimp only
  rw [none]

end

/-- Settles O48. -/
theorem packetsAreSorted : Obligations.PacketsAreSorted := by
  unfold Obligations.PacketsAreSorted
  intro i q s hi awake length p run x c up
  have delivered : run = .next (s.deliver i p) := exec_packetReceived hi length awake
  refine ⟨fun off => ?_, fun enabled locked => ?_⟩
  · rw [delivered, deliver_of_off off]
  · have received : run = .next ((s.setInput i x.received).classify i p) := by
      rw [delivered, deliver_eq_classify enabled locked]
    have input : (s.setInput i x.received).input i = x.received := by rw [input_setInput, if_pos rfl]
    refine ⟨fun bad => ?_, fun good null => ?_, fun good notNull notCue notCommand inactive => ?_⟩
    · rw [received, classify_of_error bad, countInput_received]
      rfl
    · rw [received, classify_of_null good null]
      rfl
    · rw [received, classify_eq_lookup good notNull (by rw [input]; exact notCue) (by rw [input]; exact notCommand),
        lookup_of_unmapped (s := s.setInput i x.received) inactive, countInput_received]
      rfl

end Sys2Proof.Machine
end

