-- ==== Sys2Proof/Proofs/CueLists.lean ====
section
/-! A cue that arrives at the splice scheduler and its place in the list (O35). -/

namespace Sys2Proof.Machine

/-- A cue stands behind every cue of the front part, none of which has more time left, and before one that has more
(R34; log entry 22). -/
theorem placeCue_eq (now : StationTime) (c : Cue) (cues : List Cue) : ∃ l r, cues = l ++ r
    ∧ placeCue now c cues = l ++ c :: r ∧ (∀ d ∈ l, d.remaining now ≤ c.remaining now)
    ∧ ∀ d, r.head? = some d → c.remaining now < d.remaining now := by
  induction cues with
  | nil => exact ⟨[], [], rfl, rfl, fun d hd => absurd hd List.not_mem_nil, nofun⟩
  | cons d t ih =>
    unfold placeCue
    by_cases sooner : c.remaining now < d.remaining now
    · refine ⟨[], d :: t, rfl, if_pos sooner, fun d hd => absurd hd List.not_mem_nil, fun e he => ?_⟩
      cases he
      exact sooner
    · obtain ⟨l, r, split, placed, front, back⟩ := ih
      refine ⟨d :: l, r, by rw [split]; rfl, by rw [if_neg sooner, placed]; rfl, fun e he => ?_, back⟩
      rcases List.mem_cons.1 he with rfl | he
      · exact Nat.le_of_not_lt sooner
      · exact front e he

section
variable {s : State} {c : Cue}

theorem takeCue_at_once (idle : s.spsIdle) (atOnce : c.preRoll = 0) : s.takeCue c = (s.offerCue c).takeReports := by
  unfold State.takeCue
  rw [spsReady_of_idle s idle]
  exact if_pos atOnce

theorem takeCue_of_full (idle : s.spsIdle) (later : c.preRoll ≠ 0) (full : 32 ≤ s.cues.length) :
    s.takeCue c = s.countInput c.input InputCounters.incCuesDropped := by
  unfold State.takeCue
  rw [spsReady_of_idle s idle]
  exact (if_neg later).trans (if_pos full)

theorem takeCue_of_room (idle : s.spsIdle) (later : c.preRoll ≠ 0) (room : s.cues.length < 32) :
    s.takeCue c = { s with cues := placeCue s.clock c s.cues } := by
  unfold State.takeCue
  rw [spsReady_of_idle s idle]
  exact (if_neg later).trans (if_neg (Nat.not_le_of_lt room))

end

/-- Settles O35. -/
theorem arrivingCuesAreListed : Obligations.ArrivingCuesAreListed := by
  unfold Obligations.ArrivingCuesAreListed
  refine fun c s idle => ⟨takeCue_at_once idle, fun later full => takeCue_of_full idle later full,
    fun later room => ?_⟩
  obtain ⟨l, r, split, placed, front, back⟩ := placeCue_eq s.clock c s.cues
  exact ⟨l, r, split, by rw [takeCue_of_room idle later room, placed], front, back⟩

end Sys2Proof.Machine
end

