-- ==== Sys2Proof/Proofs/SyncSearch.lean ====
section
/-! The search for packet sync over the bytes of a line, and the rows that carry them (O47). -/

namespace Sys2Proof.Machine

/-! ### Candidates (R29) -/

/-- A byte that shows no sync error among fewer bytes than have come. -/
theorem syncAt_of_append {w more : List Byte} {k : Nat} (h : syncAt (w ++ more) k = true) : syncAt w k = true := by
  rw [syncAt_iff] at h ⊢
  intro b hb
  exact h b (by rw [List.getElem?_append_left (List.getElem?_eq_some_iff.1 hb).1, hb])

/-- A candidate that is given up stays given up when more bytes come. -/
theorem isCandidate_of_append {w more : List Byte} (h : isCandidate (w ++ more) = true) : isCandidate w = true := by
  simp only [isCandidate, Bool.and_eq_true] at h ⊢
  obtain ⟨⟨first, second⟩, third⟩ := h
  exact ⟨⟨syncAt_of_append first, syncAt_of_append second⟩, syncAt_of_append third⟩

/-- The search may rest before more bytes come. -/
theorem settleWindow_append (w more : List Byte) :
    settleWindow (settleWindow w ++ more) = settleWindow (w ++ more) := by
  induction w with
  | nil => rfl
  | cons b t ih =>
    by_cases live : isCandidate (b :: t) = true
    · rw [settleWindow, if_pos live]
    · have given : ¬ isCandidate (b :: (t ++ more)) = true := fun h => live (isCandidate_of_append (w := b :: t) h)
      rw [settleWindow, if_neg live, ih, List.cons_append, settleWindow, if_neg given]

theorem settleWindow_settled (w : List Byte) : settleWindow (settleWindow w) = settleWindow w := by
  simpa using settleWindow_append w []

theorem settleWindow_of_live {w : List Byte} (h : w = [] ∨ liveCandidate w) : settleWindow w = w := by
  cases w with
  | nil => rfl
  | cons b t => exact if_pos ((isCandidate_iff b t).2 (h.resolve_left (List.cons_ne_nil b t)))

/-! ### The third sync byte (R29) -/

/-- Three sync bytes at 188-byte spacing stand among the bytes. -/
def hasThird (seen : List Byte) : Prop :=
  ∃ k, seen[k]? = some 0x47#8 ∧ seen[k + 188]? = some 0x47#8 ∧ seen[k + 376]? = some 0x47#8

/-- The search rests on a candidate with its third sync byte when there is one, and only then. -/
theorem hasThird_iff (seen : List Byte) : hasThird seen ↔ 377 ≤ (settleWindow seen).length := by
  obtain ⟨ends, live, longest⟩ := settleWindow_rests seen
  constructor
  · rintro ⟨k, first, second, third⟩
    have candidate : liveCandidate (seen.drop k) := by
      refine ⟨by rw [List.getElem?_drop]; exact first, fun b hb => ?_, fun b hb => ?_⟩
      · rw [List.getElem?_drop, second] at hb
        exact (Option.some.inj hb).symm
      · rw [List.getElem?_drop, third] at hb
        exact (Option.some.inj hb).symm
    have inside : k + 376 < seen.length := (List.getElem?_eq_some_iff.1 third).1
    by_contra short
    refine longest (seen.drop k) (List.drop_suffix k seen) ?_ candidate
    rw [List.length_drop]
    omega
  · intro long
    obtain ⟨front, split⟩ := ends
    obtain ⟨first, second, third⟩ : liveCandidate (settleWindow seen) :=
      live.resolve_left fun none => by rw [none] at long; cases long
    have at_ : ∀ j, seen[front.length + j]? = (settleWindow seen)[j]? := fun j => by
      conv_lhs => rw [← split]
      rw [List.getElem?_append_right (Nat.le_add_right _ _), Nat.add_sub_cancel_left]
    have there : ∀ j, j < 377 → ∃ b, (settleWindow seen)[j]? = some b := fun j hj =>
      ⟨_, List.getElem?_eq_getElem (Nat.lt_of_lt_of_le hj long)⟩
    obtain ⟨b, hb⟩ := there 188 (by decide)
    obtain ⟨c, hc⟩ := there 376 (by decide)
    refine ⟨front.length, (at_ 0).trans first, ?_, ?_⟩
    · rw [at_ 188, hb, second b hb]
    · rw [at_ 376, hc, third c hc]

theorem hasThird_settled (w more : List Byte) : hasThird (settleWindow w ++ more) ↔ hasThird (w ++ more) := by
  rw [hasThird_iff, hasThird_iff, settleWindow_append]

theorem hasThird_append {w : List Byte} (more : List Byte) (h : hasThird w) : hasThird (w ++ more) := by
  obtain ⟨k, first, second, third⟩ := h
  have grow : ∀ j, w[j]? = some 0x47#8 → (w ++ more)[j]? = some 0x47#8 := fun j hj => by
    rw [List.getElem?_append_left (List.getElem?_eq_some_iff.1 hj).1, hj]
  exact ⟨k, grow _ first, grow _ second, grow _ third⟩

/-! ### Bytes examined one by one (R29; log entry 9) -/

section
variable {x : Input}

/-- The input that the third sync byte has locked. -/
def Input.found (x : Input) : Input := { x with sync := .locked, window := [] }

theorem examine_of_search (search : x.sync = .search) (b : Byte) : x.examine b
    = if (settleWindow (x.window ++ [b])).length = 377 then x.found
      else { x with window := settleWindow (x.window ++ [b]) } := by
  unfold Input.examine
  rw [search]
  rfl

theorem examines_of_locked (locked : x.sync = .locked) (bytes : List Byte) : bytes.foldl Input.examine x = x := by
  induction bytes with
  | nil => rfl
  | cons b bytes ih =>
    have still : x.examine b = x := by
      unfold Input.examine
      rw [locked]
    rw [List.foldl_cons, still, ih]

/-- Bytes lock an input in SEARCH with the first third sync byte that they give, and otherwise move its search on. -/
theorem examines_of_search (bytes : List Byte) (search : x.sync = .search) (settled : settleWindow x.window = x.window)
    (short : x.window.length ≤ 376) :
    (hasThird (x.window ++ bytes) → bytes.foldl Input.examine x = x.found)
      ∧ (¬ hasThird (x.window ++ bytes) →
        bytes.foldl Input.examine x = { x with window := settleWindow (x.window ++ bytes) }) := by
  induction bytes generalizing x with
  | nil =>
    rw [List.append_nil, hasThird_iff, settled]
    exact ⟨fun long => absurd long (by omega), fun _ => rfl⟩
  | cons b bytes ih =>
    have length : (settleWindow (x.window ++ [b])).length ≤ x.window.length + 1 := by
      have := (settleWindow_rests (x.window ++ [b])).1.length_le
      rwa [List.length_append, List.length_singleton] at this
    have split : x.window ++ b :: bytes = (x.window ++ [b]) ++ bytes := by simp
    rw [List.foldl_cons, examine_of_search search, split]
    by_cases third : (settleWindow (x.window ++ [b])).length = 377
    · have here : hasThird (x.window ++ [b]) := (hasThird_iff _).2 (by omega)
      rw [if_pos third]
      exact ⟨fun _ => examines_of_locked rfl bytes, fun none => absurd (hasThird_append bytes here) none⟩
    · rw [if_neg third]
      have next := ih (x := { x with window := settleWindow (x.window ++ [b]) }) search (settleWindow_settled _)
        (by dsimp only; omega)
      dsimp only at next
      rw [hasThird_settled, settleWindow_append] at next
      exact next

end

section
variable {s : State} {i : Nat} {bytes : List Byte}

theorem examineBytes_of_off (off : (s.input i).enabled = false ∨ (s.input i).sync = .locked) :
    s.examineBytes i bytes = s := by
  unfold State.examineBytes
  rcases off with off | off <;> simp [off]

theorem examineBytes_of_still (enabled : (s.input i).enabled = true) (search : (s.input i).sync = .search)
    {y : Input} (examined : bytes.foldl Input.examine (s.input i) = y) (still : y.sync = .search) :
    s.examineBytes i bytes = s.setInput i y := by
  subst examined
  unfold State.examineBytes
  simp [enabled, search, still]

theorem examineBytes_of_locked (enabled : (s.input i).enabled = true) (search : (s.input i).sync = .search)
    {y : Input} (examined : bytes.foldl Input.examine (s.input i) = y) (locked : y.sync = .locked) :
    s.examineBytes i bytes = if y.lost then (s.setInput i { y with lost := false }).forgetCounts i
      else s.setInput i { y with lost := false } := by
  subst examined
  unfold State.examineBytes
  simp [enabled, search, locked]

/-- No third sync byte has come: the input searches on. -/
theorem examineBytes_of_none (enabled : (s.input i).enabled = true) (search : (s.input i).sync = .search)
    (settled : settleWindow (s.input i).window = (s.input i).window) (short : (s.input i).window.length ≤ 376)
    (none : ¬ hasThird ((s.input i).window ++ bytes)) : s.examineBytes i bytes
      = s.setInput i { s.input i with window := settleWindow ((s.input i).window ++ bytes) } :=
  examineBytes_of_still enabled search ((examines_of_search bytes search settled short).2 none) search

/-- The third sync byte has come: the input is LOCKED, and after a sync loss the map forgets its counts (R30). -/
theorem examineBytes_of_third (enabled : (s.input i).enabled = true) (search : (s.input i).sync = .search)
    (settled : settleWindow (s.input i).window = (s.input i).window) (short : (s.input i).window.length ≤ 376)
    (third : hasThird ((s.input i).window ++ bytes)) : s.examineBytes i bytes
      = if (s.input i).lost then
          (s.setInput i { s.input i with sync := .locked, lost := false, window := [] }).forgetCounts i
        else s.setInput i { s.input i with sync := .locked, lost := false, window := [] } :=
  examineBytes_of_locked enabled search ((examines_of_search bytes search settled short).1 third) rfl

/-! ### Missing sync bytes (R30) -/

theorem missSync_of_off (off : (s.input i).enabled = false ∨ (s.input i).sync = .search) :
    s.missSync i bytes = s := by
  unfold State.missSync
  rcases off with off | off <;> simp [off]

theorem missSync_of_first (enabled : (s.input i).enabled = true) (locked : (s.input i).sync = .locked)
    (first : (s.input i).miss = false) : s.missSync i bytes = s.setInput i { s.input i with miss := true } := by
  unfold State.missSync
  simp [enabled, locked, first]

/-- The input that a second missing sync byte has sent to SEARCH. -/
def Input.lostSync (x : Input) : Input :=
  { x with sync := .search, miss := false, lost := true, window := [], counters := x.counters.incSyncLosses }

theorem missSync_of_second (enabled : (s.input i).enabled = true) (locked : (s.input i).sync = .locked)
    (second : (s.input i).miss = true) (length : bytes.length = 188) : s.missSync i bytes
      = s.setInput i { (s.input i).lostSync with window := settleWindow bytes.tail } := by
  have lost : s.missSync i bytes = (s.setInput i (s.input i).lostSync).examineBytes i bytes.tail := by
    have on : ((s.input i).enabled && (s.input i).sync == .locked) = true := by simp [enabled, locked]
    exact (if_pos on).trans (if_pos second)
  have input : (s.setInput i (s.input i).lostSync).input i = (s.input i).lostSync := by rw [input_setInput, if_pos rfl]
  have changed : (s.input i).lostSync ≠ Input.start i := fun same => by
    have off : (s.input i).enabled = false := congrArg Input.enabled same
    rw [enabled] at off
    cases off
  have none : ¬ hasThird bytes.tail := by
    rintro ⟨k, -, -, third⟩
    have := (List.getElem?_eq_some_iff.1 third).1
    rw [List.length_tail] at this
    omega
  have moved := examineBytes_of_none (s := s.setInput i (s.input i).lostSync) (i := i) (bytes := bytes.tail)
    (by rw [input]; exact enabled) (by rw [input]; rfl) (by rw [input]; rfl) (by rw [input]; exact Nat.zero_le _)
    (by rw [input]; exact none)
  rw [lost, moved, input, setInput_setInput _ changed]
  rfl

/-! ### The rows -/

theorem exec_syncAcquired (hi : i < 8) (awake : s.phase ≠ .asserted) :
    exec (.syncAcquired i bytes) s = .next (s.examineBytes i bytes)
      ∧ exec (.syncCandidateGivenUp i bytes) s = .next (s.examineBytes i bytes) := by
  change execSyncAcquired i bytes s = _ ∧ execSyncCandidateGivenUp i bytes s = _
  unfold execSyncAcquired execSyncCandidateGivenUp
  rw [if_pos hi, awake_of_not_asserted awake]
  exact ⟨rfl, rfl⟩

theorem exec_missingSyncByte (hi : i < 8) (awake : s.phase ≠ .asserted) (length : bytes.length = 188)
    (missing : bytes.head? ≠ some 0x47#8) :
    exec (.missingSyncByte ⟨i, bytes⟩) s = .next (s.missSync i bytes) := by
  have miss : isMiss bytes = true := by simp [isMiss, length, missing]
  change execMissingSyncByte ⟨i, bytes⟩ s = _
  unfold execMissingSyncByte
  rw [if_pos hi, if_pos miss, awake_of_not_asserted awake]

end

/-- Settles O47. -/
theorem inputsFindAndLoseSync : Obligations.InputsFindAndLoseSync := by
  unfold Obligations.InputsFindAndLoseSync
  intro i s hi awake x
  refine ⟨fun bytes length missing => ?_, fun bytes off => ?_, fun bytes enabled search law => ?_⟩
  · rw [exec_missingSyncByte hi awake length missing]
    refine ⟨fun off => by rw [missSync_of_off off], fun enabled locked first => ?_, fun enabled locked second => ?_⟩
    · rw [missSync_of_first enabled locked first]
    · exact ⟨settleWindow bytes.tail, settleWindow_rests _,
        congrArg _ (missSync_of_second enabled locked second length)⟩
  · obtain ⟨acquired, givenUp⟩ := exec_syncAcquired (bytes := bytes) hi awake
    rw [acquired, givenUp, examineBytes_of_off off]
    exact ⟨rfl, rfl⟩
  · obtain ⟨acquired, givenUp⟩ := exec_syncAcquired (bytes := bytes) hi awake
    obtain ⟨-, -, standing, -⟩ := law
    have settled : settleWindow x.window = x.window := settleWindow_of_live (standing.imp id And.left)
    have short : x.window.length ≤ 376 := by
      rcases standing with none | ⟨-, short⟩
      · rw [none]
        exact Nat.zero_le _
      · exact short
    intro seen both third
    refine ⟨fun here => ?_, fun none => ?_⟩
    · have locked := examineBytes_of_third enabled search settled short here
      cases loss : x.lost with
      | false =>
        refine ⟨s.smap, ?_, fun _ => rfl, nofun⟩
        rw [loss] at locked
        exact ⟨acquired.trans (congrArg _ locked), givenUp.trans (congrArg _ locked)⟩
      | true =>
        refine ⟨_, ?_, nofun, fun _ => rfl⟩
        rw [loss] at locked
        exact ⟨acquired.trans (congrArg _ locked), givenUp.trans (congrArg _ locked)⟩
    · have searched := examineBytes_of_none enabled search settled short none
      exact ⟨settleWindow seen, settleWindow_rests _, acquired.trans (congrArg _ searched),
        givenUp.trans (congrArg _ searched)⟩

end Sys2Proof.Machine
end

