-- ==== Sys2Proof/Proofs/MessagePackets.lean ====
section
/-! Cue packets and command packets: what a payload spells, and where its message goes (O50). -/

namespace Sys2Proof.Machine

/-! ### Parts of a payload (R182) -/

/-- The bytes between a front of known length and the rest. -/
theorem take_drop_part {a b : List Byte} {k n : Nat} (c : List Byte) (front : a.length = k) (part : b.length = n) :
    ((a ++ (b ++ c)).drop k).take n = b := by
  rw [List.drop_left' front, List.take_left' part]

/-- The number between a front of known length and the rest. -/
theorem natOf_part {a : List Byte} {k n v : Nat} (c : List Byte) (front : a.length = k) (fits : v < 256 ^ n) :
    natOf (((a ++ (bytesOf n v ++ c)).drop k).take n) = v := by
  rw [take_drop_part c front (length_bytesOf n v), natOf_bytesOf_lt fits]

theorem cueKind_ofNat? (n : Nat) :
    CueKind.ofNat? n = if n < 2 then some (if n = 0 then .out else .inn) else none := by
  match n with
  | 0 => rfl
  | 1 => rfl
  | n + 2 => rw [if_neg (by omega)]; rfl

theorem byteAt_zero_of_head {q : List Byte} {b : Byte} (other : q.head? ≠ some b) (notZero : b ≠ 0) :
    byteAt q 0 ≠ b := by
  cases q with
  | nil => exact fun same => notZero same.symm
  | cons c q => exact fun same => other (congrArg some same)

/-! ### Cue messages (R33, R184) -/

section
variable {i : Nat} {t : StationTime} {p : List Byte}

/-- The payload has the form of a cue message, and its check is good. -/
def cueFormed (p : List Byte) : Bool :=
  pktPayloadStart p && decide (14 ≤ (pktPayload p).length) && byteAt (pktPayload p) 0 == 0xC1#8
    && natOf (((pktPayload p).drop 12).take 2) == (crc16 ((pktPayload p).take 12)).toNat

theorem cueOf_of_formed (formed : cueFormed p = true) : cueOf i t p
    = (CueKind.ofNat? (byteAt (pktPayload p) 1).toNat).map fun kind =>
        ⟨i, BitVec.ofNat 32 (natOf (((pktPayload p).drop 2).take 4)), kind, natOf (((pktPayload p).drop 6).take 4), t,
          t + BitVec.ofNat 33 (natOf (((pktPayload p).drop 6).take 4))⟩ :=
  if_pos formed

theorem cueOf_of_not_formed (bad : ¬ cueFormed p = true) : cueOf i t p = none := if_neg bad

theorem cueOf_of_malformed (bad : pktPayloadStart p = false ∨ (pktPayload p).head? ≠ some 0xC1#8
    ∨ (pktPayload p).length < 14) : cueOf i t p = none := by
  refine cueOf_of_not_formed fun formed => ?_
  simp only [cueFormed, Bool.and_eq_true, decide_eq_true_eq, beq_iff_eq] at formed
  obtain ⟨⟨⟨start, length⟩, tag⟩, -⟩ := formed
  rcases bad with noStart | otherTag | short
  · rw [start] at noStart
    cases noStart
  · exact byteAt_zero_of_head otherTag (by decide) tag
  · omega

/-- The twelve bytes of a cue message before its check (R184). -/
def cueBytes (kind id preRoll programme : Nat) : List Byte :=
  packed [(1, 0xC1), (1, kind), (4, id), (4, preRoll), (2, programme)]

theorem cueOf_message {kind id preRoll programme crc : Nat} {fill : List Byte} (hkind : kind < 256)
    (hid : id < 2 ^ 32) (hpreRoll : preRoll < 2 ^ 32) (hcrc : crc < 65536) (start : pktPayloadStart p = true)
    (payload : pktPayload p = cueBytes kind id preRoll programme ++ bytesOf 2 crc ++ fill) : cueOf i t p
      = if kind < 2 ∧ crc = (crc16 (cueBytes kind id preRoll programme)).toNat then
          some ⟨i, BitVec.ofNat 32 id, if kind = 0 then .out else .inn, preRoll, t, t + BitVec.ofNat 33 preRoll⟩
        else none := by
  have length : (cueBytes kind id preRoll programme).length = 12 := length_packed _
  rw [List.append_assoc] at payload
  have message : (pktPayload p).take 12 = cueBytes kind id preRoll programme := by
    rw [payload, List.take_left' length]
  have check : natOf (((pktPayload p).drop 12).take 2) = crc := by
    rw [payload]
    exact natOf_part fill length (by omega)
  have idRead : natOf (((pktPayload p).drop 2).take 4) = id := by
    rw [payload]
    exact natOf_part (a := bytesOf 1 0xC1 ++ bytesOf 1 kind) _ rfl (by omega)
  have preRollRead : natOf (((pktPayload p).drop 6).take 4) = preRoll := by
    rw [payload]
    exact natOf_part (a := bytesOf 1 0xC1 ++ bytesOf 1 kind ++ bytesOf 4 id) _ rfl (by omega)
  have kindRead : (byteAt (pktPayload p) 1).toNat = kind := by
    rw [payload]
    change (BitVec.ofNat 8 (kind / 256 ^ 0)).toNat = kind
    rw [BitVec.toNat_ofNat, pow_zero, Nat.div_one, Nat.mod_eq_of_lt hkind]
  have tag : byteAt (pktPayload p) 0 = 0xC1#8 := by
    rw [payload]
    rfl
  have long : 14 ≤ (pktPayload p).length := by
    rw [payload, List.length_append, List.length_append, length, length_bytesOf]
    omega
  by_cases good : crc = (crc16 (cueBytes kind id preRoll programme)).toNat
  · have formed : cueFormed p = true := by
      simp only [cueFormed, start, long, tag, check, message, good, decide_true, Bool.and_self, beq_self_eq_true]
    rw [cueOf_of_formed formed, kindRead, idRead, preRollRead, cueKind_ofNat?]
    by_cases known : kind < 2
    · have both : kind < 2 ∧ crc = (crc16 (cueBytes kind id preRoll programme)).toNat := ⟨known, good⟩
      rw [if_pos known, if_pos both]
      rfl
    · rw [if_neg known, if_neg fun both => known both.1]
      rfl
  · have bad : ¬ cueFormed p = true := fun formed => by
      simp only [cueFormed, check, message, Bool.and_eq_true, beq_iff_eq] at formed
      exact good formed.2
    rw [cueOf_of_not_formed bad, if_neg fun both => good both.2]

/-! ### Command messages (R174, R183) -/

/-- The length that a command message gives its body. -/
def commandLength (p : List Byte) : Nat := natOf (((pktPayload p).drop 3).take 2)

/-- The payload has the form of a command message, and its check is good. -/
def commandFormed (p : List Byte) : Bool :=
  pktPayloadStart p && byteAt (pktPayload p) 0 == 0xC6#8 && within 1 177 (commandLength p)
    && decide (7 + commandLength p ≤ (pktPayload p).length)
    && natOf (((pktPayload p).drop (5 + commandLength p)).take 2)
      == (crc16 (((pktPayload p).drop 1).take (4 + commandLength p))).toNat

theorem commandOf_of_formed (formed : commandFormed p = true) : commandOf i p
    = some ⟨natOf (((pktPayload p).drop 1).take 2), i, ((pktPayload p).drop 5).take (commandLength p)⟩ :=
  if_pos formed

theorem commandOf_of_not_formed (bad : ¬ commandFormed p = true) : commandOf i p = none := if_neg bad

/-- What a well-formed command message has at least. -/
theorem commandFormed_parts (formed : commandFormed p = true) : pktPayloadStart p = true
    ∧ byteAt (pktPayload p) 0 = 0xC6#8 ∧ 1 ≤ commandLength p ∧ commandLength p ≤ 177
    ∧ 7 + commandLength p ≤ (pktPayload p).length := by
  simp only [commandFormed, Bool.and_eq_true, decide_eq_true_eq, beq_iff_eq, within_iff] at formed
  obtain ⟨⟨⟨⟨start, tag⟩, nonempty, few⟩, length⟩, -⟩ := formed
  exact ⟨start, tag, nonempty, few, length⟩

theorem commandOf_of_malformed (bad : pktPayloadStart p = false ∨ (pktPayload p).head? ≠ some 0xC6#8
    ∨ (pktPayload p).length < 8) : commandOf i p = none := by
  refine commandOf_of_not_formed fun formed => ?_
  obtain ⟨start, tag, nonempty, -, length⟩ := commandFormed_parts formed
  rcases bad with noStart | otherTag | short
  · rw [start] at noStart
    cases noStart
  · exact byteAt_zero_of_head otherTag (by decide) tag
  · omega

theorem commandLength_eq {seq len : Nat} {rest : List Byte} (hlen : len < 65536)
    (payload : pktPayload p = [0xC6#8] ++ packed [(2, seq), (2, len)] ++ rest) : commandLength p = len := by
  unfold commandLength
  rw [payload]
  exact natOf_part (a := [0xC6#8] ++ bytesOf 2 seq) rest rfl (by omega)

theorem commandOf_of_length {seq len : Nat} {rest : List Byte} (hlen : len < 65536)
    (payload : pktPayload p = [0xC6#8] ++ packed [(2, seq), (2, len)] ++ rest)
    (bad : len = 0 ∨ 177 < len ∨ rest.length < len + 2) : commandOf i p = none := by
  refine commandOf_of_not_formed fun formed => ?_
  obtain ⟨-, -, nonempty, few, length⟩ := commandFormed_parts formed
  rw [commandLength_eq hlen payload] at nonempty few length
  rw [payload, List.length_append, List.length_append, length_packed] at length
  simp only [List.length_singleton, List.map_cons, List.map_nil, List.sum_cons, List.sum_nil] at length
  omega

/-- The bytes that a command message's check reads: the sequence number, the length and the body (R183). -/
def commandBytes (seq : Nat) (body : List Byte) : List Byte := packed [(2, seq), (2, body.length)] ++ body

theorem commandOf_message {seq crc : Nat} {body fill : List Byte} (hseq : seq < 65536) (hcrc : crc < 65536)
    (nonempty : 1 ≤ body.length) (few : body.length ≤ 177) (start : pktPayloadStart p = true)
    (payload : pktPayload p = [0xC6#8] ++ commandBytes seq body ++ bytesOf 2 crc ++ fill) :
    commandOf i p = if crc = (crc16 (commandBytes seq body)).toNat then some ⟨seq, i, body⟩ else none := by
  have count : (commandBytes seq body).length = 4 + body.length := by
    rw [commandBytes, List.length_append, length_packed]
    rfl
  have len : commandLength p = body.length := commandLength_eq (seq := seq) (rest := body ++ (bytesOf 2 crc ++ fill))
    (by omega) (by rw [payload, commandBytes]; simp only [List.append_assoc])
  rw [List.append_assoc, List.append_assoc] at payload
  have checked : ((pktPayload p).drop 1).take (4 + commandLength p) = commandBytes seq body := by
    rw [payload, len]
    exact take_drop_part (a := [0xC6#8]) _ rfl count
  have check : natOf (((pktPayload p).drop (5 + commandLength p)).take 2) = crc := by
    have front : ([0xC6#8] ++ commandBytes seq body).length = 5 + commandLength p := by
      rw [List.length_append, count, len, List.length_singleton]
      omega
    rw [payload, ← List.append_assoc]
    exact natOf_part fill front (by omega)
  have seqRead : natOf (((pktPayload p).drop 1).take 2) = seq := by
    rw [payload]
    exact natOf_part (a := [0xC6#8]) _ rfl (by omega)
  have bodyRead : ((pktPayload p).drop 5).take (commandLength p) = body := by
    rw [payload, len, commandBytes, List.append_assoc, ← List.append_assoc]
    exact take_drop_part (a := [0xC6#8] ++ packed [(2, seq), (2, body.length)]) _ rfl rfl
  have tag : byteAt (pktPayload p) 0 = 0xC6#8 := by
    rw [payload]
    rfl
  have long : 7 + commandLength p ≤ (pktPayload p).length := by
    rw [payload, len]
    simp only [List.length_append, count, length_bytesOf, List.length_singleton]
    omega
  by_cases good : crc = (crc16 (commandBytes seq body)).toNat
  · have range : within 1 177 (commandLength p) = true := by
      rw [len, within_iff]
      exact ⟨nonempty, few⟩
    have formed : commandFormed p = true := by
      simp only [commandFormed, start, tag, range, long, check, checked, good, decide_true, Bool.and_self,
        beq_self_eq_true]
    rw [commandOf_of_formed formed, seqRead, bodyRead, if_pos good]
  · have bad : ¬ commandFormed p = true := fun formed => by
      simp only [commandFormed, check, checked, Bool.and_eq_true, beq_iff_eq] at formed
      exact good formed.2
    rw [commandOf_of_not_formed bad, if_neg good]

end

/-! ### Where the messages go (R32 to R34, R174) -/

section
variable {s : State} {i : Nat} {p : List Byte}

theorem cuePacket_of_no_payload (none : pktHasPayload p = false) : s.cuePacket i p = s := by
  unfold State.cuePacket
  simp [none]

theorem cuePacket_of_none (payload : pktHasPayload p = true) (spelt : cueOf i s.clock p = none) :
    s.cuePacket i p = s.countInput i InputCounters.incCuesDropped := by
  unfold State.cuePacket
  rw [if_pos payload, spelt]

theorem cuePacket_of_some {c : Cue} (payload : pktHasPayload p = true) (spelt : cueOf i s.clock p = some c) :
    s.cuePacket i p = (s.countInput i InputCounters.incCuesReceived).takeCue c := by
  unfold State.cuePacket
  rw [if_pos payload, spelt]

theorem commandPacket_of_no_payload (none : pktHasPayload p = false) : s.commandPacket i p = s := by
  unfold State.commandPacket
  simp [none]

theorem commandPacket_of_none (payload : pktHasPayload p = true) (spelt : commandOf i p = none) :
    s.commandPacket i p = s.countInput i InputCounters.incCommandsDropped := by
  unfold State.commandPacket
  rw [if_pos payload, spelt]

theorem commandPacket_of_room {c : Command} (payload : pktHasPayload p = true) (spelt : commandOf i p = some c)
    (room : s.netQueue.length < 8) : s.commandPacket i p
      = { s.countInput i InputCounters.incCommandsTaken with netQueue := s.netQueue ++ [c] } := by
  unfold State.commandPacket
  rw [if_pos payload, spelt]
  exact if_neg (Nat.not_le_of_lt room)

theorem commandPacket_of_full {c : Command} (payload : pktHasPayload p = true) (spelt : commandOf i p = some c)
    (full : 8 ≤ s.netQueue.length) : s.commandPacket i p
      = (s.countInput i InputCounters.incCommandsDropped).raise .networkQueueFull i := by
  unfold State.commandPacket
  rw [if_pos payload, spelt]
  exact if_pos full

theorem deliver_cue (enabled : (s.input i).enabled = true) (locked : (s.input i).sync = .locked)
    (good : pktError p = false) (notNull : pktPid p ≠ 0x1FFF) (cue : (s.input i).cuePid = some (pktPid p)) :
    s.deliver i p = (s.setInput i (s.input i).received).cuePacket i p := by
  rw [deliver_eq_classify enabled locked, classify_of_cue good notNull]
  rw [input_setInput, if_pos rfl]
  exact cue

theorem deliver_command (enabled : (s.input i).enabled = true) (locked : (s.input i).sync = .locked)
    (good : pktError p = false) (notNull : pktPid p ≠ 0x1FFF) (notCue : (s.input i).cuePid ≠ some (pktPid p))
    (bearing : (s.input i).bearing = true) (command : (s.input i).commandPid = pktPid p) :
    s.deliver i p = (s.setInput i (s.input i).received).commandPacket i p := by
  have input : (s.setInput i (s.input i).received).input i = (s.input i).received := by rw [input_setInput, if_pos rfl]
  rw [deliver_eq_classify enabled locked, classify_of_command good notNull]
  · rw [input]
    exact notCue
  · rw [input]
    exact bearing
  · rw [input]
    exact command

end

/-- Settles O50. -/
theorem cueAndCommandPacketsAreTaken : Obligations.CueAndCommandPacketsAreTaken := by
  unfold Obligations.CueAndCommandPacketsAreTaken
  refine ⟨?_, ?_, fun i t p => ⟨cueOf_of_malformed, commandOf_of_malformed⟩, ?_, ?_⟩
  · intro i q s hi awake length p run x k up enabled locked good notNull got
    have delivered : run = .next (s.deliver i p) := exec_packetReceived hi length awake
    refine ⟨fun message noPayload => ?_, fun cue payload => ?_, fun notCue bearing command payload => ?_⟩
    · rw [delivered]
      by_cases cue : x.cuePid = some (pktPid p)
      · rw [deliver_cue enabled locked good notNull cue, cuePacket_of_no_payload noPayload]
        rfl
      · obtain ⟨bearing, command⟩ := message.resolve_left cue
        rw [deliver_command enabled locked good notNull cue bearing command, commandPacket_of_no_payload noPayload]
        rfl
    · rw [delivered, deliver_cue enabled locked good notNull cue]
      refine ⟨fun spelt => ?_, fun c spelt => ?_⟩
      · rw [cuePacket_of_none (s := s.setInput i x.received) payload spelt, countInput_received]
        rfl
      · rw [cuePacket_of_some (s := s.setInput i x.received) payload spelt, countInput_received]
        rfl
    · rw [delivered, deliver_command enabled locked good notNull notCue bearing command]
      refine ⟨fun spelt => ?_, fun c spelt => ⟨fun room => ?_, fun full => ?_⟩⟩
      · rw [commandPacket_of_none (s := s.setInput i x.received) payload spelt, countInput_received]
        rfl
      · rw [commandPacket_of_room (s := s.setInput i x.received) payload spelt room, countInput_received]
        rfl
      · rw [commandPacket_of_full (s := s.setInput i x.received) payload spelt full, countInput_received]
        rfl
  · intro i kind id preRoll programme crc t p fill hkind hid hpreRoll hprogramme hcrc start message payload
    exact cueOf_message hkind hid hpreRoll hcrc start payload
  · exact fun i seq len p rest hseq hlen payload bad => commandOf_of_length hlen payload bad
  · intro i seq crc body p fill hseq hcrc nonempty few start checked payload
    exact commandOf_message hseq hcrc nonempty few start payload

end Sys2Proof.Machine
end

