-- ==== Sys2Proof/Proofs/OpenReads.lean ====
section
/-! The bytes of an OPEN BATCH: its parts are read in their order (O17). -/

namespace Sys2Proof.Machine

/-! ### A whole request (R173) -/

/-- The bytes give the value, and neither more bytes nor a part of them give any. -/
structure Spells {α : Type} (f : List Byte → Option α) (sent : List Byte) (a : α) : Prop where
  whole : f sent = some a
  more : ∀ rest, rest ≠ [] → f (sent ++ rest) = none
  cut : ∀ k < sent.length, f (sent.take k) = none

/-- A request ends with its last field. -/
theorem spells_end {α : Type} {f : List Byte → Option α} {a : α} (nil : f [] = some a)
    (cons : ∀ b rest, f (b :: rest) = none) : Spells f [] a where
  whole := nil
  more rest some := by
    obtain ⟨b, rest, rfl⟩ := List.exists_cons_of_ne_nil some
    exact cons b rest
  cut k hk := absurd hk (Nat.not_lt_zero k)

/-- A field and what the request spells after it. -/
theorem Reads.spells {α β : Type} {f : List Byte → Option (α × List Byte)} {g : α × List Byte → Option β}
    {p q : List Byte} {a : α} {b : β} (first : Reads f p a) (next : Spells (fun r => g (a, r)) q b) :
    Spells (fun r => f r >>= g) (p ++ q) b where
  whole := by
    rw [first.whole]
    exact next.whole
  more rest some := by
    rw [List.append_assoc, first.whole]
    exact next.more rest some
  cut k hk := by
    by_cases h : k < p.length
    · rw [List.take_append_of_le_length h.le, first.cut k h]
      rfl
    · have htake : (p ++ q).take k = p ++ q.take (k - p.length) := by
        rw [List.take_append, List.take_of_length_le (by omega)]
      rw [htake, first.whole]
      rw [List.length_append] at hk
      exact next.cut _ (by omega)

/-- A part of several fields that stands only when its presence bit is set. -/
theorem reads_part {α β : Type} {f : List Byte → Option (β × List Byte)} {v : Option α} {present : Bool}
    (bytes : α → List Byte) (g : α → β) (hpresent : present = v.isSome)
    (h : ∀ a, v = some a → Reads f (bytes a) (g a)) :
    Reads (fun p => if present then (f p).map fun x => (some x.1, x.2) else some (none, p))
      ((v.map bytes).getD []) (v.map g) := by
  subst hpresent
  cases v with
  | none => exact reads_end none
  | some a =>
    have read := h a rfl
    refine ⟨fun more => ?_, fun k hk => ?_⟩
    · exact congrArg (Option.map fun x : β × List Byte => (some x.1, x.2)) (read.whole more)
    · exact congrArg (Option.map fun x : β × List Byte => (some x.1, x.2)) (read.cut k hk)

/-- Such a part, and what the request spells after it. -/
theorem spells_part {α β γ : Type} {f : List Byte → Option (β × List Byte)} {v : Option α} {present : Bool}
    {bytes : α → List Byte} {g : α → β} {k : Option β × List Byte → Option γ} {q : List Byte} {c : γ}
    (hpresent : present = v.isSome) (h : ∀ a, v = some a → Reads f (bytes a) (g a))
    (next : Spells (fun r => k (v.map g, r)) q c) :
    Spells (fun p => if present then ((f p).map fun x => (some x.1, x.2)) >>= k else some (none, p) >>= k)
      ((v.map bytes).getD [] ++ q) c := by
  have same : (fun p => if present then ((f p).map fun x => (some x.1, x.2)) >>= k else some (none, p) >>= k)
      = fun p => (if present then (f p).map fun x => (some x.1, x.2) else some (none, p)) >>= k := by
    funext p
    cases present <;> rfl
  rw [same]
  exact (reads_part bytes g hpresent h).spells next

/-! ### Matchers (R103, R182) -/

/-- A matcher that an OPEN BATCH can carry: its fields fit their bytes, and a duration is not sent (log entry 24). -/
def Matcher.sendable : Matcher → Prop
  | .cue input _ _ => input < 256
  | .time _ => True
  | .timeAfter _ => False

/-- The bytes of a matcher; the four id bytes of one for ANY may be any (log entry 43). -/
def matcherBytes (unused : Nat) (m : Option Matcher) : List Byte :=
  match m with
  | some (.cue input id kind) =>
    packed [(1, 0), (1, input), (1, id.isNone.toNat), (4, (id.map (·.toNat)).getD unused), (1, kind.num)]
  | some (.time x) => packed [(1, 1), (5, x.toNat)]
  | some (.timeAfter _) | none => packed [(1, 0xFF)]

/-- A matcher as it is sent. -/
def sentMatcher (unused : Nat) : Option Matcher → SentMatcher
  | some (.cue input id kind) => .cue input id.isNone.toNat ((id.map (·.toNat)).getD unused) kind.num
  | some (.time x) => .time x.toNat
  | some (.timeAfter _) | none => .absent

theorem reads_getMatcher {unused : Nat} {m : Option Matcher} (hunused : unused < 2 ^ 32)
    (sendable : ∀ x, m = some x → x.sendable) :
    Reads getMatcher (matcherBytes unused m) (sentMatcher unused m) := by
  have absent : Reads getMatcher (packed [(1, 0xFF)]) .absent := (reads_getNat (by decide)).bind (reads_end _)
  match m with
  | none => exact absent
  | some (.timeAfter _) => exact absent
  | some (.time x) =>
    exact (reads_getNat (by decide)).bind ((reads_getNat (by have := x.isLt; omega)).bind (reads_end _))
  | some (.cue input id kind) =>
    have hinput : input < 256 := sendable _ rfl
    have hany : id.isNone.toNat < 256 ^ 1 := (Bool.toNat_lt _).trans (by decide)
    have hid : (id.map (·.toNat)).getD unused < 256 ^ 4 := by
      cases id with
      | none => exact hunused
      | some v => exact v.isLt
    have hkind : kind.num < 256 ^ 1 := by cases kind <;> decide
    exact (reads_getNat (by decide)).bind ((reads_getNat (by omega)).bind ((reads_getNat hany).bind
      ((reads_getNat hid).bind ((reads_getNat hkind).bind (reads_end _)))))

/-! ### The trigger and the return option (R103) -/

/-- A trigger to be sent: its mode, its two matchers and its count. -/
abbrev TriggerParts := Nat × Option Matcher × Option Matcher × Nat

def triggerBytes (unused : Nat) (t : TriggerParts) : List Byte :=
  packed [(1, t.1)] ++ matcherBytes unused t.2.1 ++ matcherBytes unused t.2.2.1 ++ packed [(1, t.2.2.2)]

def sentTrigger (unused : Nat) (t : TriggerParts) : Nat × SentMatcher × SentMatcher × Nat :=
  (t.1, sentMatcher unused t.2.1, sentMatcher unused t.2.2.1, t.2.2.2)

/-- The fields of a trigger fit their bytes. -/
def sendableTrigger (t : TriggerParts) : Prop :=
  t.1 < 256 ∧ t.2.2.2 < 256 ∧ ∀ x, t.2.1 = some x ∨ t.2.2.1 = some x → x.sendable

theorem reads_getTrigger {unused : Nat} {t : TriggerParts} (hunused : unused < 2 ^ 32) (sendable : sendableTrigger t) :
    Reads getTrigger (triggerBytes unused t) (sentTrigger unused t) := by
  obtain ⟨hmode, hcount, matchers⟩ := sendable
  have hsent : triggerBytes unused t = bytesOf 1 t.1 ++ (matcherBytes unused t.2.1 ++ (matcherBytes unused t.2.2.1
      ++ (bytesOf 1 t.2.2.2 ++ []))) := by
    simp [triggerBytes, packed]
  rw [hsent]
  exact (reads_getNat (by omega)).bind ((reads_getMatcher hunused fun x hx => matchers x (.inl hx)).bind
    ((reads_getMatcher hunused fun x hx => matchers x (.inr hx)).bind ((reads_getNat (by omega)).bind (reads_end _))))

/-- The flag byte of a return option: whether it names a cue, and whether a duration follows. -/
def returnFlags (r : Bool × Option Nat) : Nat := presenceBits [r.1, r.2.isSome]

def returnBytes (r : Bool × Option Nat) : List Byte := packed [(1, returnFlags r)] ++ optBytes 4 r.2

theorem returnFlags_lt (r : Bool × Option Nat) : returnFlags r < 4 := presenceBits_lt [r.1, r.2.isSome]

theorem testBit_returnFlags (r : Bool × Option Nat) (i : Nat) (h : i < 2) :
    (returnFlags r).testBit i = [r.1, r.2.isSome].getD i false :=
  testBit_presence (l := [r.1, r.2.isSome]) (n := 2) rfl 0 i h

theorem reads_getReturn {r : Bool × Option Nat} (hduration : ∀ d, r.2 = some d → d < 2 ^ 32) :
    Reads getReturn (returnBytes r) (returnFlags r, r.2) := by
  have hsent : returnBytes r = bytesOf 1 (returnFlags r) ++ (optBytes 4 r.2 ++ []) := by
    simp [returnBytes, packed]
  have hflags := returnFlags_lt r
  rw [hsent]
  exact (reads_getNat (by omega)).bind
    ((reads_getIf (testBit_returnFlags r 1 (by decide)) hduration).bind (reads_end _))

/-! ### OPEN BATCH (R102) -/

/-- The presence byte of an OPEN BATCH, with further bits (log entry 11). -/
def openPresence (trigger : Option TriggerParts) (ret : Option (Bool × Option Nat)) (extra : Nat) : Nat :=
  presenceBits [trigger.isSome, ret.isSome] + 4 * extra

/-- The bytes of an OPEN BATCH. -/
def openBytes (claims : FeedSet) (mode legEdits retire tolerance extra unused : Nat) (trigger : Option TriggerParts)
    (ret : Option (Bool × Option Nat)) : List Byte :=
  packed [(1, openPresence trigger ret extra), (3, claims.toNat), (1, mode), (1, legEdits), (1, retire), (1, tolerance)]
    ++ (trigger.map (triggerBytes unused)).getD [] ++ (ret.map returnBytes).getD []

theorem spells_parseOpen {claims : FeedSet} {mode legEdits retire tolerance extra unused : Nat}
    {trigger : Option TriggerParts} {ret : Option (Bool × Option Nat)} (hmode : mode < 256) (hlegEdits : legEdits < 256)
    (hretire : retire < 256) (htolerance : tolerance < 256) (hextra : extra < 64) (hunused : unused < 2 ^ 32)
    (htrigger : ∀ t, trigger = some t → sendableTrigger t)
    (hret : ∀ r, ret = some r → ∀ d, r.2 = some d → d < 2 ^ 32) :
    Spells parseOpen (openBytes claims mode legEdits retire tolerance extra unused trigger ret)
      ⟨level? legEdits retire tolerance, batch? (openPresence trigger ret extra) claims.toNat mode
        (trigger.map (sentTrigger unused)) (ret.map fun r => (returnFlags r, r.2))⟩ := by
  have hsent : openBytes claims mode legEdits retire tolerance extra unused trigger ret
      = bytesOf 1 (openPresence trigger ret extra) ++ (bytesOf 3 claims.toNat ++ (bytesOf 1 mode ++ (bytesOf 1 legEdits
        ++ (bytesOf 1 retire ++ (bytesOf 1 tolerance ++ ((trigger.map (triggerBytes unused)).getD []
        ++ ((ret.map returnBytes).getD [] ++ []))))))) := by
    simp [openBytes, packed]
  have hpresence : openPresence trigger ret extra < 256 := presence_lt (n := 2) rfl (by omega)
  have hclaims := claims.isLt
  have bits := testBit_presence (n := 2) (l := [trigger.isSome, ret.isSome]) rfl extra
  rw [hsent]
  exact (reads_getNat (by omega)).spells ((reads_getNat (by omega)).spells ((reads_getNat (by omega)).spells
    ((reads_getNat (by omega)).spells ((reads_getNat (by omega)).spells ((reads_getNat (by omega)).spells
    (spells_part (bits 0 (by decide)) (fun t ht => reads_getTrigger hunused (htrigger t ht))
    (spells_part (bits 1 (by decide)) (fun r hr => reads_getReturn (hret r hr))
    (spells_end rfl fun _ _ => rfl))))))))

end Sys2Proof.Machine
end

