-- ==== Sys2Proof/Proofs/OpenChecks.lean ====
section
/-! The field check of an OPEN BATCH (O17). -/

namespace Sys2Proof.Machine

/-! ### Enumerations -/

theorem triggerMode_ofNat?_eq_some (n : Nat) (m : TriggerMode) : TriggerMode.ofNat? n = some m ↔ n = m.num := by
  constructor
  · intro h
    match n with
    | 0 | 1 | 2 | 3 | 4 => cases h; rfl
    | n + 5 => cases h
  · rintro rfl
    cases m <;> rfl

theorem mode_ofNat?_eq_some (n : Nat) (m : Mode) : Mode.ofNat? n = some m ↔ n = m.num := by
  constructor
  · intro h
    match n with
    | 0 | 1 => cases h; rfl
    | n + 2 => cases h
  · rintro rfl
    cases m <;> rfl

theorem level?_eq (legEdits retire tolerance : Nat) : level? legEdits retire tolerance
    = if legEdits < 2 ∧ retire < 2 ∧ tolerance ≤ 2 then some ⟨legEdits == 1, retire == 1, tolerance⟩ else none := by
  unfold level?
  rw [flag?_eq, flag?_eq]
  by_cases hleg : legEdits < 2
  · by_cases hretire : retire < 2
    · simp [hleg, hretire]
    · simp [hleg, hretire]
  · simp [hleg]

/-! ### Matchers and triggers (R103) -/

/-- The matcher's input is one of the part's. -/
def Matcher.inRange : Matcher → Prop
  | .cue input _ _ => input < 8
  | .time _ | .timeAfter _ => True

theorem matcher?_sent {unused : Nat} {m : Option Matcher} (sendable : ∀ x, m = some x → x.sendable)
    (y : Option Matcher) : matcher? (sentMatcher unused m) = some y ↔ m = y ∧ ∀ x, y = some x → x.inRange := by
  match m with
  | none => exact ⟨fun h => by cases h; exact ⟨rfl, nofun⟩, fun h => by rw [← h.1]; rfl⟩
  | some (.timeAfter d) => exact absurd (sendable _ rfl) id
  | some (.time x) =>
    have read : matcher? (sentMatcher unused (some (.time x))) = some (some (.time x)) := by
      change (if x.toNat < 2 ^ 33 then some (some (Matcher.time (BitVec.ofNat 33 x.toNat))) else none) = _
      rw [if_pos x.isLt, BitVec.ofNat_toNat, BitVec.setWidth_eq]
    rw [read, Option.some.injEq]
    refine ⟨fun h => ⟨h, fun z hz => ?_⟩, And.left⟩
    cases h.trans hz
    trivial
  | some (.cue input id kind) =>
    have hany : flag? id.isNone.toNat = some id.isNone := by cases id <;> rfl
    have hkind : CueKind.ofNat? kind.num = some kind := by cases kind <;> rfl
    have hid : (if id.isNone then none else some (BitVec.ofNat 32 ((id.map (·.toNat)).getD unused))) = id := by
      cases id with
      | none => rfl
      | some v => simp
    have read : matcher? (sentMatcher unused (some (.cue input id kind)))
        = if input < 8 then some (some (.cue input id kind)) else none := by
      unfold matcher? sentMatcher
      simp only [hany, hkind, Option.bind_eq_bind, Option.bind_some, hid]
    rw [read]
    by_cases known : input < 8
    · rw [if_pos known, Option.some.injEq]
      refine ⟨fun h => ⟨h, fun z hz => ?_⟩, And.left⟩
      cases h.trans hz
      exact known
    · rw [if_neg known]
      refine ⟨nofun, ?_⟩
      rintro ⟨rfl, range⟩
      exact absurd (range _ rfl) known

/-- What the trigger mode asks of matcher B (R103). -/
def TriggerMode.allows (m : TriggerMode) (b : Option Matcher) : Bool :=
  match m with
  | .sole => b.isNone
  | .either | .after | .countThen => b.isSome
  | .orDeadline => b.any Matcher.isTime

theorem trigger?_eq (mode n : Nat) (a b : SentMatcher) : trigger? mode a b n
    = (TriggerMode.ofNat? mode).bind fun mode => (matcher? a).bind fun a => a.bind fun a => (matcher? b).bind fun b =>
        if mode.allows b && within 1 255 n then some ⟨mode, a, b, n⟩ else none := by
  unfold trigger? TriggerMode.allows
  rfl

/-- A trigger that R103 admits, as it is sent. -/
def Trigger.admitted (t : Trigger) (sent : TriggerParts) : Prop :=
  sent = (t.mode.num, some t.a, t.b, t.count) ∧ 1 ≤ t.count
    ∧ (∀ x, t.a = x ∨ t.b = some x → x.inRange) ∧ t.mode.allows t.b = true

theorem trigger?_eq_some_iff {unused : Nat} {sent : TriggerParts} (sendable : sendableTrigger sent) (t : Trigger) :
    trigger? sent.1 (sentMatcher unused sent.2.1) (sentMatcher unused sent.2.2.1) sent.2.2.2 = some t
      ↔ t.admitted sent := by
  obtain ⟨mode, a, b, n⟩ := sent
  obtain ⟨-, hcount, matchers⟩ := sendable
  have readA := matcher?_sent (unused := unused) (m := a) fun x hx => matchers x (.inl hx)
  have readB := matcher?_sent (unused := unused) (m := b) fun x hx => matchers x (.inr hx)
  dsimp only at hcount
  simp only [trigger?_eq, Option.bind_eq_some_iff, triggerMode_ofNat?_eq_some, readA, readB]
  constructor
  · rintro ⟨mode, rfl, a', ⟨rfl, rangeA⟩, x, rfl, b', ⟨rfl, rangeB⟩, read⟩
    split at read
    · next ok =>
      cases read
      simp only [Bool.and_eq_true, within_iff] at ok
      refine ⟨rfl, ok.2.1, fun z hz => ?_, ok.1⟩
      rcases hz with rfl | hz
      · exact rangeA _ rfl
      · exact rangeB z hz
    · cases read
  · rintro ⟨same, one, range, allowed⟩
    cases same
    refine ⟨t.mode, rfl, some t.a, ⟨rfl, fun x hx => range x (.inl (Option.some.inj hx))⟩, t.a, rfl, t.b,
      ⟨rfl, fun x hx => range x (.inr hx)⟩, if_pos ?_⟩
    simp only [allowed, Bool.true_and, within_iff]
    exact ⟨one, by omega⟩

/-! ### The return option (R103) -/

/-- The return option that its flag byte and its duration spell; without either there is none. -/
def returnOf (r : Bool × Option Nat) : Option ReturnOption :=
  if r.1 = true ∨ r.2.isSome then some ⟨r.1, r.2⟩ else none

/-- The duration is in range, and a cue is named only by a return whose original waits on one. -/
def returnAdmitted (r : Bool × Option Nat) (a : Matcher) : Prop :=
  (∀ d, r.2 = some d → 1 ≤ d ∧ d ≤ 47721) ∧ ¬ (r.1 = true ∧ a.isTime = true)

theorem returnFlags_eq_zero_iff (r : Bool × Option Nat) : returnFlags r = 0 ↔ returnOf r = none := by
  obtain ⟨b, d⟩ := r
  cases b <;> cases d <;> simp [returnFlags, returnOf, presenceBits]

theorem returnOption?_eq_some_iff (r : Bool × Option Nat) (a : Matcher) (o : Option ReturnOption) :
    returnOption? (returnFlags r) r.2 a = some o ↔ returnAdmitted r a ∧ o = returnOf r := by
  have cue : (returnFlags r).testBit 0 = r.1 := testBit_returnFlags r 0 (by decide)
  have flags : decide (returnFlags r < 4) = true := decide_eq_true (returnFlags_lt r)
  have value : (if returnFlags r = 0 then some none else some (some (⟨r.1, r.2⟩ : ReturnOption))) = some (returnOf r) := by
    by_cases zero : returnFlags r = 0
    · rw [if_pos zero, (returnFlags_eq_zero_iff r).1 zero]
    · rw [if_neg zero]
      have given : ¬ returnOf r = none := fun h => zero ((returnFlags_eq_zero_iff r).2 h)
      unfold returnOf at given ⊢
      split at given
      · next h => rw [if_pos h]
      · exact absurd rfl given
  have ok : (decide (returnFlags r < 4) && r.2.all (within 1 47721) && !((returnFlags r).testBit 0 && a.isTime)) = true
      ↔ returnAdmitted r a := by
    rw [cue, flags, Bool.true_and, Bool.and_eq_true, all_within_iff, Bool.not_eq_true', ← Bool.not_eq_true,
      Bool.and_eq_true]
    rfl
  unfold returnOption?
  rw [cue] at ok ⊢
  rw [value]
  by_cases admitted : returnAdmitted r a
  · rw [if_pos (ok.2 admitted), Option.some.injEq]
    exact ⟨fun h => ⟨admitted, h.symm⟩, fun h => h.2.symm⟩
  · rw [if_neg fun h => admitted (ok.1 h)]
    exact ⟨nofun, fun h => absurd h.1 admitted⟩

/-! ### The batch (R102) -/

section
variable {mode extra unused : Nat} {trigger : Option TriggerParts} {ret : Option (Bool × Option Nat)}

/-- An IMMEDIATE batch carries neither a trigger nor a return option. -/
def immediateSent (mode : Nat) (trigger : Option TriggerParts) (ret : Option (Bool × Option Nat)) : Prop :=
  mode = 0 ∧ trigger = none ∧ ret.bind returnOf = none

/-- A DEFERRED batch carries a trigger, and a return option that goes with it or none. -/
def deferredSent (mode : Nat) (trigger : Option TriggerParts) (ret : Option (Bool × Option Nat)) (t : Trigger) : Prop :=
  mode = 1 ∧ (∃ sent, trigger = some sent ∧ t.admitted sent) ∧ ∀ r, ret = some r → returnAdmitted r t.a

/-- What an OPEN BATCH as it is sent gives for the batch. -/
theorem batch?_eq_some_iff (claims : FeedSet) (sendable : ∀ t, trigger = some t → sendableTrigger t) (x : BatchParams) :
    batch? (openPresence trigger ret extra) claims.toNat mode (trigger.map (sentTrigger unused))
        (ret.map fun r => (returnFlags r, r.2)) = some x
      ↔ extra = 0 ∧ ((immediateSent mode trigger ret ∧ x = ⟨claims, .immediate, none, none⟩)
        ∨ ∃ t, deferredSent mode trigger ret t ∧ x = ⟨claims, .deferred, some t, ret.bind returnOf⟩) := by
  have presence : presenceOk 2 (openPresence trigger ret extra) = true ↔ extra = 0 :=
    presenceOk_iff [trigger.isSome, ret.isSome] extra
  have claimed : BitVec.ofNat 24 claims.toNat = claims := by simp
  have noReturn : (ret.map fun r => (returnFlags r, r.2)).all (fun r => r.1 == 0) = true ↔ ret.bind returnOf = none := by
    cases ret with
    | none => simp
    | some r => simp [returnFlags_eq_zero_iff]
  unfold batch?
  simp only [Option.bind_eq_bind, Option.bind_eq_some_iff, mode_ofNat?_eq_some, claimed]
  constructor
  · rintro ⟨m, rfl, read⟩
    by_cases bits : presenceOk 2 (openPresence trigger ret extra) = true
    · rw [if_pos bits] at read
      refine ⟨presence.1 bits, ?_⟩
      cases m with
      | immediate =>
        cases trigger with
        | some sent => cases read
        | none =>
          by_cases none : ret.bind returnOf = none
          · rw [Option.map_none, if_pos (noReturn.2 none)] at read
            exact .inl ⟨⟨rfl, rfl, none⟩, (Option.some.inj read).symm⟩
          · rw [Option.map_none, if_neg fun h => none (noReturn.1 h)] at read
            cases read
      | deferred =>
        cases trigger with
        | none => cases read
        | some sent =>
          obtain ⟨t, admitted, read⟩ := Option.bind_eq_some_iff.1 read
          have fits := (trigger?_eq_some_iff (sendable sent rfl) t).1 admitted
          cases ret with
          | none => exact .inr ⟨t, ⟨rfl, ⟨sent, rfl, fits⟩, nofun⟩, (Option.some.inj read).symm⟩
          | some r =>
            obtain ⟨o, given, read⟩ := Option.bind_eq_some_iff.1 read
            obtain ⟨goes, rfl⟩ := (returnOption?_eq_some_iff r t.a o).1 given
            refine .inr ⟨t, ⟨rfl, ⟨sent, rfl, fits⟩, fun q hq => ?_⟩, (Option.some.inj read).symm⟩
            cases hq
            exact goes
    · rw [if_neg bits] at read
      cases read
  · rintro ⟨bits, ⟨⟨rfl, rfl, none⟩, rfl⟩ | ⟨t, ⟨rfl, ⟨sent, rfl, fits⟩, goes⟩, rfl⟩⟩
    · refine ⟨.immediate, rfl, ?_⟩
      rw [if_pos (presence.2 bits)]
      exact if_pos (noReturn.2 none)
    · refine ⟨.deferred, rfl, ?_⟩
      rw [if_pos (presence.2 bits)]
      have admitted := (trigger?_eq_some_iff (unused := unused) (sendable sent rfl) t).2 fits
      refine Option.bind_eq_some_iff.2 ⟨t, admitted, ?_⟩
      cases ret with
      | none => rfl
      | some r => exact Option.bind_eq_some_iff.2 ⟨_, (returnOption?_eq_some_iff r t.a _).2 ⟨goes r rfl, rfl⟩, rfl⟩

end

end Sys2Proof.Machine
end

