-- ==== Sys2Proof/Proofs/RequestReads.lean ====
section
/-! OPEN BATCH, APPLY and SET INPUT, as their bytes spell them (O17). -/

namespace Sys2Proof.Machine

/-! ### OPEN BATCH: the conditions of R103 -/

theorem isTime_iff {m : Matcher} (sendable : m.sendable) : m.isTime = true ↔ ∃ x, m = .time x := by
  cases m with
  | cue input id kind => exact ⟨nofun, fun ⟨_, h⟩ => by cases h⟩
  | time x => exact ⟨fun _ => ⟨x, rfl⟩, fun _ => rfl⟩
  | timeAfter d => exact absurd sendable id

theorem inRange_iff (m : Matcher) : m.inRange ↔ ∀ input id kind, m = .cue input id kind → input < 8 := by
  cases m with
  | cue input id kind => exact ⟨fun h _ _ _ e => by cases e; exact h, fun h => h _ _ _ rfl⟩
  | time x => exact ⟨nofun, fun _ => trivial⟩
  | timeAfter d => exact ⟨nofun, fun _ => trivial⟩

theorem allows_iff {mode : TriggerMode} {b : Option Matcher} (sendable : ∀ x, b = some x → x.sendable) :
    mode.allows b = true ↔ (mode = .sole → b = none)
      ∧ (mode = .either ∨ mode = .after ∨ mode = .countThen → b ≠ none)
      ∧ (mode = .orDeadline → ∃ m, b = some m ∧ ∃ x, m = .time x) := by
  have deadline : b.any Matcher.isTime = true ↔ ∃ m, b = some m ∧ ∃ x, m = .time x := by
    cases b with
    | none => simp
    | some m => simp [isTime_iff (sendable m rfl)]
  cases mode with
  | orDeadline => simpa [TriggerMode.allows] using deadline
  | sole => simp [TriggerMode.allows]
  | either => simp [TriggerMode.allows, Option.isSome_iff_ne_none]
  | after => simp [TriggerMode.allows, Option.isSome_iff_ne_none]
  | countThen => simp [TriggerMode.allows, Option.isSome_iff_ne_none]

/-- A DEFERRED batch as R103 says when its trigger and its return option go together. -/
theorem deferredSent_iff {mode : Nat} {trigger : Option TriggerParts} {ret : Option (Bool × Option Nat)} {t : Trigger}
    (sendable : ∀ sent, trigger = some sent → sendableTrigger sent) : deferredSent mode trigger ret t
      ↔ mode = 1 ∧ trigger = some (t.mode.num, some t.a, t.b, t.count) ∧ 1 ≤ t.count
        ∧ (∀ input id kind, t.a = .cue input id kind ∨ t.b = some (.cue input id kind) → input < 8)
        ∧ (t.mode = .sole → t.b = none)
        ∧ (t.mode = .either ∨ t.mode = .after ∨ t.mode = .countThen → t.b ≠ none)
        ∧ (t.mode = .orDeadline → ∃ m, t.b = some m ∧ ∃ x, m = .time x)
        ∧ ∀ r, ret = some r → (∀ d, r.2 = some d → 1 ≤ d ∧ d ≤ 47721) ∧ ¬ (r.1 = true ∧ ∃ x, t.a = .time x) := by
  have inputs : (∀ x, t.a = x ∨ t.b = some x → x.inRange)
      ↔ ∀ input id kind, t.a = .cue input id kind ∨ t.b = some (.cue input id kind) → input < 8 := by
    constructor
    · intro h input id kind e
      exact h (.cue input id kind) e
    · intro h x hx
      rw [inRange_iff]
      rintro input id kind rfl
      exact h input id kind hx
  constructor
  · rintro ⟨deferred, ⟨sent, rfl, rfl, one, range, allowed⟩, goes⟩
    obtain ⟨-, -, matchers⟩ := sendable _ rfl
    obtain ⟨sole, pair, deadline⟩ := (allows_iff fun x hx => matchers x (.inr hx)).1 allowed
    refine ⟨deferred, rfl, one, inputs.1 range, sole, pair, deadline, fun r hr => ?_⟩
    obtain ⟨duration, cue⟩ := goes r hr
    rw [isTime_iff (matchers t.a (.inl rfl))] at cue
    exact ⟨duration, cue⟩
  · rintro ⟨deferred, rfl, one, range, sole, pair, deadline, goes⟩
    obtain ⟨-, -, matchers⟩ := sendable _ rfl
    refine ⟨deferred, ⟨_, rfl, rfl, one, inputs.2 range,
      (allows_iff fun x hx => matchers x (.inr hx)).2 ⟨sole, pair, deadline⟩⟩, fun r hr => ?_⟩
    obtain ⟨duration, cue⟩ := goes r hr
    rw [← isTime_iff (matchers t.a (.inl rfl))] at cue
    exact ⟨duration, cue⟩

/-! ### APPLY (R113, R182) -/

/-- A BIND SLOT or an UNBIND SLOT of an APPLY. -/
def slotEditBytes (x : SlotEdit) : List Byte :=
  match x.binding with
  | some b => packed [(1, 0x13), (1, x.feed), (1, x.slot), (2, b.handle), (2, b.programme), (2, b.base)]
  | none => packed [(1, 0x14), (1, x.feed), (1, x.slot)]

/-- Every field of the edit is in range (R107). -/
def SlotEdit.fieldsOk (x : SlotEdit) : Prop :=
  x.feed < 24 ∧ x.slot < 16 ∧ ∀ b, x.binding = some b → 1 ≤ b.handle ∧ b.handle ≤ 1023 ∧ 1 ≤ b.programme
    ∧ b.programme ≤ 65535 ∧ 0x20 ≤ b.base ∧ b.base ≤ 0x1FF7

/-- The edit as it was sent. -/
def SlotEdit.sent (x : SlotEdit) : SentEdit := ⟨some x.feed, some (.slot x)⟩

/-- An edit of an APPLY: its kind byte, and its own bytes. -/
def getKindEdit (p : List Byte) : Option (SentEdit × List Byte) := getNat 1 p >>= fun x => getEdit x.1 x.2

theorem reads_getKindEdit {x : SlotEdit} (ok : x.fieldsOk) : Reads getKindEdit (slotEditBytes x) x.sent := by
  obtain ⟨feed, slot, binding⟩ := x
  obtain ⟨hfeed, hslot, hbinding⟩ := ok
  dsimp only at hfeed hslot hbinding
  cases binding with
  | none =>
    have checked : checkUnbind feed slot = some (.slot ⟨feed, slot, none⟩) := by
      rw [checkUnbind_eq, if_pos ⟨hfeed, hslot⟩]
    have edit := reads_getUnbind (f := feed) (i := slot) (by omega) (by omega)
    rw [checked] at edit
    exact (reads_getNat (v := 0x14) (by decide)).bind edit
  | some b =>
    obtain ⟨h1, h2, n1, n2, q1, q2⟩ := hbinding b rfl
    have checked : checkBind feed slot b.handle b.programme b.base = some (.slot ⟨feed, slot, some b⟩) := by
      rw [checkBind_eq, if_pos ⟨hfeed, hslot, h1, h2, n1, n2, q1, q2⟩]
    have edit := reads_getBind (f := feed) (i := slot) (h := b.handle) (n := b.programme) (q := b.base) (by omega)
      (by omega) (by omega) (by omega) (by omega)
    rw [checked] at edit
    exact (reads_getNat (v := 0x13) (by decide)).bind edit

theorem getEdits_succ (n : Nat) (p : List Byte) : getEdits (n + 1) p
    = getKindEdit p >>= fun x => getEdits n x.2 >>= fun y => some (x.1 :: y.1, y.2) := by
  rw [getKindEdit, bind_assoc]
  rfl

theorem reads_getEdits {xs : List SlotEdit} (ok : ∀ x ∈ xs, x.fieldsOk) :
    Reads (getEdits xs.length) (xs.flatMap slotEditBytes) (xs.map SlotEdit.sent) := by
  induction xs with
  | nil => exact reads_end []
  | cons x xs ih =>
    have hsent : (x :: xs).flatMap slotEditBytes = slotEditBytes x ++ (xs.flatMap slotEditBytes ++ []) := by simp
    have same : getEdits (x :: xs).length
        = fun p => getKindEdit p >>= fun x => getEdits xs.length x.2 >>= fun y => some (x.1 :: y.1, y.2) :=
      funext (getEdits_succ xs.length)
    rw [hsent, same]
    exact (reads_getKindEdit (ok x (List.mem_cons_self ..))).bind
      ((ih fun y hy => ok y (List.mem_cons_of_mem _ hy)).bind (g := fun y => some (x.sent :: y.1, y.2))
        (reads_end (x.sent :: xs.map SlotEdit.sent)))

theorem slotEditBytes_ne_nil (x : SlotEdit) : slotEditBytes x ≠ [] := by
  unfold slotEditBytes
  split <;> exact List.cons_ne_nil _ _

theorem flatMap_slotEditBytes_ne_nil {xs : List SlotEdit} (some : xs ≠ []) : xs.flatMap slotEditBytes ≠ [] := by
  obtain ⟨x, xs, rfl⟩ := List.exists_cons_of_ne_nil some
  rw [List.flatMap_cons]
  exact fun h => slotEditBytes_ne_nil x (List.append_eq_nil_iff.1 h).1

/-- A count beyond the edits sent finds no more bytes. -/
theorem getEdits_of_more {xs : List SlotEdit} (ok : ∀ x ∈ xs, x.fieldsOk) {n : Nat} (more : xs.length < n) :
    getEdits n (xs.flatMap slotEditBytes) = none := by
  induction xs generalizing n with
  | nil =>
    obtain ⟨n, rfl⟩ := Nat.exists_eq_add_of_lt more
    rfl
  | cons x xs ih =>
    obtain ⟨m, rfl⟩ : ∃ m, n = m + 1 := ⟨n - 1, by omega⟩
    have rest := ih (fun y hy => ok y (List.mem_cons_of_mem _ hy)) (n := m) (by rw [List.length_cons] at more; omega)
    rw [getEdits_succ, List.flatMap_cons, (reads_getKindEdit (ok x (List.mem_cons_self ..))).whole]
    change (getEdits m (xs.flatMap slotEditBytes) >>= _) = none
    rw [rest]
    rfl

/-- A count short of the edits sent leaves bytes over. -/
theorem getEdits_of_fewer {xs : List SlotEdit} (ok : ∀ x ∈ xs, x.fieldsOk) {n : Nat} (fewer : n < xs.length) :
    ∃ es rest, getEdits n (xs.flatMap slotEditBytes) = some (es, rest) ∧ rest ≠ [] := by
  have first := reads_getEdits (xs := xs.take n) fun x hx => ok x (List.mem_of_mem_take hx)
  rw [List.length_take, Nat.min_eq_left fewer.le] at first
  have split : xs.flatMap slotEditBytes = (xs.take n).flatMap slotEditBytes ++ (xs.drop n).flatMap slotEditBytes := by
    rw [← List.flatMap_append, List.take_append_drop]
  refine ⟨_, _, (congrArg _ split).trans (first.whole _), flatMap_slotEditBytes_ne_nil fun none => ?_⟩
  have := List.drop_eq_nil_iff.1 none
  omega

theorem parseApply_slotEdits {xs : List SlotEdit} {n : Nat} (hn : n < 256) (ok : ∀ x ∈ xs, x.fieldsOk) :
    parseApply (bytesOf 1 n ++ xs.flatMap slotEditBytes)
      = if n = xs.length ∧ 1 ≤ n ∧ n ≤ 4 then some (xs.map SlotEdit.sent) else none := by
  have count : getNat 1 (bytesOf 1 n ++ xs.flatMap slotEditBytes) = some (n, xs.flatMap slotEditBytes) :=
    getNat_bytesOf (by omega) _
  unfold parseApply
  rw [count]
  dsimp only
  by_cases range : within 1 4 n = true
  · have bounds := (within_iff 1 4 n).1 range
    rw [if_pos range]
    rcases Nat.lt_trichotomy n xs.length with fewer | all | more
    · obtain ⟨es, rest, read, left⟩ := getEdits_of_fewer ok fewer
      obtain ⟨b, rest, rfl⟩ := List.exists_cons_of_ne_nil left
      rw [read, if_neg fun h => absurd h.1 fewer.ne]
    · have read := (reads_getEdits ok).whole []
      rw [List.append_nil, ← all] at read
      rw [read, if_pos ⟨all, bounds⟩]
    · rw [getEdits_of_more ok more, if_neg fun h => absurd h.1 more.ne']
  · rw [if_neg range, if_neg fun h => range ((within_iff 1 4 n).2 h.2)]

/-! ### SET INPUT (R27) -/

/-- The parts of a SET INPUT, in the order of R26's table (log entry 11). -/
def inputParts (enabled cue command bearing : Option Nat) : List Bool :=
  [enabled.isSome, cue.isSome, command.isSome, bearing.isSome]

/-- The bytes of a SET INPUT. -/
def setInputBytes (i : Nat) (enabled cue command bearing : Option Nat) : List Byte :=
  packed [(1, presenceBits (inputParts enabled cue command bearing)), (1, i)] ++ optBytes 1 enabled ++ optBytes 2 cue
    ++ optBytes 2 command ++ optBytes 1 bearing

/-- The ranges of a SET INPUT. -/
def setInputOk (i : Nat) (enabled cue command bearing : Option Nat) : Prop :=
  i < 8 ∧ (∀ x, enabled = some x → x < 2) ∧ (∀ q, cue = some q → q = 0xFFFF ∨ (0x20 ≤ q ∧ q ≤ 0x1FFE))
    ∧ (∀ q, command = some q → 0x20 ≤ q ∧ q ≤ 0x1FFE) ∧ (∀ x, bearing = some x → x < 2) ∧ (bearing = some 1 → i ≤ 1)

section
variable {i : Nat} {enabled cue command bearing : Option Nat}

/-- The range check of a SET INPUT once its two flags are read (R27 step 1). -/
def settingsOk (i : Nat) (cue command : Option Nat) (bearing : Option Bool) : Bool :=
  decide (i < 8) && cue.all (fun c => c == 0xFFFF || pidOk c) && command.all pidOk
    && !(bearing == some true && decide (1 < i))

theorem settingsOk_iff : settingsOk i cue command (bearing.map (· == 1)) = true
    ↔ i < 8 ∧ (∀ q, cue = some q → q = 0xFFFF ∨ (0x20 ≤ q ∧ q ≤ 0x1FFE))
      ∧ (∀ q, command = some q → 0x20 ≤ q ∧ q ≤ 0x1FFE) ∧ (bearing = some 1 → i ≤ 1) := by
  have bears : (!(bearing.map (· == 1) == some true && decide (1 < i))) = true ↔ (bearing = some 1 → i ≤ 1) := by
    cases bearing with
    | none => simp
    | some n => simp [imp_iff_not_or]
  simp only [settingsOk, Bool.and_eq_true, decide_eq_true_eq, bears, Option.all_eq_true, Bool.or_eq_true, beq_iff_eq,
    pidOk, within_iff, and_assoc]

/-- The bytes of a SET INPUT are read in their order, and its settings are checked. -/
theorem parseSetInput_read (hi : i < 256) (henabled : ∀ x, enabled = some x → x < 256)
    (hcue : ∀ x, cue = some x → x < 65536) (hcommand : ∀ x, command = some x → x < 65536)
    (hbearing : ∀ x, bearing = some x → x < 256) :
    parseSetInput (setInputBytes i enabled cue command bearing)
      = (optFlag? enabled).bind fun e => (optFlag? bearing).bind fun b =>
          if settingsOk i cue command b then
            some ⟨i, e, cue.map (fun c => if c = 0xFFFF then none else some c), command, b⟩
          else none := by
  have hsent : setInputBytes i enabled cue command bearing
      = bytesOf 1 (presenceBits (inputParts enabled cue command bearing)) ++ (bytesOf 1 i ++ (optBytes 1 enabled
        ++ (optBytes 2 cue ++ (optBytes 2 command ++ (optBytes 1 bearing ++ []))))) := by
    simp [setInputBytes, packed]
  have hpresence : presenceBits (inputParts enabled cue command bearing) < 2 ^ 4 := presenceBits_lt _
  have bits : ∀ j < 4, (presenceBits (inputParts enabled cue command bearing)).testBit j
      = (inputParts enabled cue command bearing).getD j false := 
    fun j hj => testBit_presence (l := inputParts enabled cue command bearing) (n := 4) rfl 0 j hj
  have ok : presenceOk 4 (presenceBits (inputParts enabled cue command bearing)) = true := decide_eq_true hpresence
  have part : ∀ {α : Type} {f : List Byte → Option (α × List Byte)} {p : List Byte} {a : α} (rest : List Byte)
      (g : α × List Byte → Option InputSettings), Reads f p a → (f (p ++ rest) >>= g) = g (a, rest) :=
    fun rest g read => by rw [read.whole]; rfl
  unfold parseSetInput
  rw [hsent]
  refine (part _ _ (reads_getNat (by omega))).trans ?_
  refine (part _ _ (reads_getNat hi)).trans ?_
  refine (part _ _ (reads_getIf (bits 0 (by decide)) henabled)).trans ?_
  refine (part _ _ (reads_getIf (bits 1 (by decide)) hcue)).trans ?_
  refine (part _ _ (reads_getIf (bits 2 (by decide)) hcommand)).trans ?_
  refine (part _ _ (reads_getIf (bits 3 (by decide)) hbearing)).trans ?_
  simp only [ok, settingsOk, List.isEmpty_nil, Bool.true_and, Option.bind_eq_bind]
  rfl

theorem parseSetInput_of_ok (hi : i < 256) (henabled : ∀ x, enabled = some x → x < 256)
    (hcue : ∀ x, cue = some x → x < 65536) (hcommand : ∀ x, command = some x → x < 65536)
    (hbearing : ∀ x, bearing = some x → x < 256) (ok : setInputOk i enabled cue command bearing) :
    parseSetInput (setInputBytes i enabled cue command bearing)
      = some ⟨i, enabled.map (· == 1), cue.map fun q => if q = 0xFFFF then none else some q, command,
          bearing.map (· == 1)⟩ := by
  obtain ⟨input, flag, cuePid, commandPid, flag', bears⟩ := ok
  rw [parseSetInput_read hi henabled hcue hcommand hbearing, optFlag?_eq, optFlag?_eq,
    if_pos ((all_lt_iff 2 _).2 flag), if_pos ((all_lt_iff 2 _).2 flag')]
  exact if_pos (settingsOk_iff.2 ⟨input, cuePid, commandPid, bears⟩)

theorem parseSetInput_of_not_ok (hi : i < 256) (henabled : ∀ x, enabled = some x → x < 256)
    (hcue : ∀ x, cue = some x → x < 65536) (hcommand : ∀ x, command = some x → x < 65536)
    (hbearing : ∀ x, bearing = some x → x < 256) (bad : ¬ setInputOk i enabled cue command bearing) :
    parseSetInput (setInputBytes i enabled cue command bearing) = none := by
  rw [parseSetInput_read hi henabled hcue hcommand hbearing, optFlag?_eq, optFlag?_eq]
  by_cases flag : enabled.all (fun n => decide (n < 2)) = true
  · by_cases flag' : bearing.all (fun n => decide (n < 2)) = true
    · rw [if_pos flag, if_pos flag']
      refine if_neg fun ok => bad ?_
      obtain ⟨input, cuePid, commandPid, bears⟩ := settingsOk_iff.1 ok
      exact ⟨input, (all_lt_iff 2 _).1 flag, cuePid, commandPid, (all_lt_iff 2 _).1 flag', bears⟩
    · rw [if_pos flag, if_neg flag']
      rfl
  · rw [if_neg flag]
    rfl

end

/-- Settles O17. -/
theorem requestsAreReadInTheirOrder : Obligations.RequestsAreReadInTheirOrder := by
  unfold Obligations.RequestsAreReadInTheirOrder
  intro opt opts bits
  refine ⟨?_, fun n xs hn ok => parseApply_slotEdits hn ok, ?_⟩
  · intro claims mode legEdits retire tolerance extra unused trigger ret more hmode hlegEdits hretire htolerance hextra
      hunused htrigger hret isTime pack sent level returns immediate deferred
    have sendable : ∀ t, trigger = some t → sendableTrigger t := fun t ht => htrigger _ _ _ _ ht
    have spells : Spells parseOpen sent _ := spells_parseOpen (claims := claims) hmode hlegEdits hretire htolerance
      hextra hunused sendable hret
    have controls : level? legEdits retire tolerance = level := level?_eq _ _ _
    have batch := batch?_eq_some_iff (mode := mode) (extra := extra) (unused := unused) (ret := ret) claims sendable
    have goes : ∀ t, deferredSent mode trigger ret t ↔ deferred t := fun t => deferredSent_iff sendable
    rw [controls] at spells
    refine ⟨fun none now => ?_, fun t none later => ?_, fun bad => ?_, fun unread => spells.more more unread, spells.cut⟩
    · rw [spells.whole, (batch _).2 ⟨none, .inl ⟨now, rfl⟩⟩]
    · rw [spells.whole, (batch _).2 ⟨none, .inr ⟨t, (goes t).2 later, rfl⟩⟩]
      rfl
    · rw [spells.whole]
      congr 2
      refine Option.eq_none_iff_forall_ne_some.2 fun x hx => ?_
      obtain ⟨none, ⟨now, -⟩ | ⟨t, later, -⟩⟩ := (batch x).1 hx
      · exact bad.elim (fun some => some none) fun h => h.1 now
      · exact bad.elim (fun some => some none) fun h => h.2 t ((goes t).1 later)
  · intro i enabled cue command bearing hi henabled hcue hcommand hbearing c ok
    exact ⟨parseSetInput_of_ok hi henabled hcue hcommand hbearing,
      parseSetInput_of_not_ok hi henabled hcue hcommand hbearing⟩

end Sys2Proof.Machine
end

