-- ==== Sys2Proof/Proofs/BindingActs.lean ====
section
/-! The bindings that a list of slot edits writes: what becomes of their slots, and what the moves hand on (R13, R71 to
R73, R78 to R80, R86, R151). -/

namespace Sys2Proof.Machine

section
variable {s t u v : State}

/-! ### What a move and its event read of the records -/

/-- What a slot's move and its leg event read of a record (R49, R160). -/
def Record.seen (r : Record) := (r.state, r.silentFlag, r.fallback, r.cls)

/-- Moves and leg events read the same records in `t` as in `s`. -/
def State.readsAs (s t : State) : Prop := ∀ h, (t.record? h).map Record.seen = (s.record? h).map Record.seen

/-- The planned counts have changed, and nothing else of the records. -/
def State.replans (s t : State) : Prop :=
  ∃ g : Nat → Nat → Nat, ∀ h, t.record? h = (s.record? h).map fun r => { r with planned := g h r.planned }

theorem replans_refl (s : State) : s.replans s := ⟨fun _ n => n, fun _ => (Option.map_id' ..).symm⟩

theorem State.replans.trans (h : s.replans t) (k : t.replans u) : s.replans u := by
  obtain ⟨g, hg⟩ := h
  obtain ⟨f, hf⟩ := k
  refine ⟨fun n => f n ∘ g n, fun n => ?_⟩
  rw [hf, hg, Option.map_map]
  rfl

theorem readsAs_of_replans (h : s.replans t) : s.readsAs t := by
  obtain ⟨g, hg⟩ := h
  intro n
  rw [hg, Option.map_map]
  rfl

theorem State.readsAs.symm (h : s.readsAs t) : t.readsAs s := fun n => (h n).symm

theorem State.readsAs.trans (h : s.readsAs t) (k : t.readsAs u) : s.readsAs u := fun n => (k n).trans (h n)

/-- A reading of a record that goes by what is seen of it. -/
theorem readsAs_read {α : Type} (read : State → Nat → α) (seen : Option (RecState × Bool × Option Nat × ProgClass) → α)
    (h : s.readsAs t) (by_seen : ∀ (x : State) n, read x n = seen ((x.record? n).map Record.seen)) (n : Nat) :
    read t n = read s n := by
  rw [by_seen, by_seen, h n]

theorem usable_readsAs (h : s.readsAs t) : t.usable = s.usable := funext fun n =>
  readsAs_read State.usable (fun o => o.any fun x => x.1 = .live) h (fun x n => by
    unfold State.usable
    cases x.record? n <;> rfl) n

theorem onAirFit_readsAs (h : s.readsAs t) : t.onAirFit = s.onAirFit := funext fun n =>
  readsAs_read State.onAirFit (fun o => o.any fun x => x.1 = .live || (x.1 = .retiring && !x.2.1)) h (fun x n => by
    unfold State.onAirFit
    cases x.record? n <;> rfl) n

theorem fallbackOf_readsAs (h : s.readsAs t) : t.fallbackOf = s.fallbackOf := funext fun n =>
  readsAs_read State.fallbackOf (fun o => o.bind fun x => x.2.2.1) h (fun x n => by
    unfold State.fallbackOf
    cases x.record? n <;> rfl) n

theorem bindMove_readsAs (h : s.readsAs t) (legs : t.legs = s.legs) (uptime : t.uptime = s.uptime) (f : Nat) (x : Slot)
    (b : Option Binding) : bindMove t f x b = bindMove s f x b := by
  unfold bindMove enterPending goFallback State.usableFallback State.sourceFit State.leg
  rw [usable_readsAs h, onAirFit_readsAs h, fallbackOf_readsAs h, legs, uptime]

theorem pairs_reportEvent_readsAs (h : s.readsAs t) (pairs : s.pairs = t.pairs) (f : Nat) (o : Option LegEvent)
    (y : Slot) : (s.reportEvent f o y).pairs = (t.reportEvent f o y).pairs := by
  unfold State.reportEvent
  split
  · next e b _ =>
    have same := h b.handle
    unfold State.reportFor
    cases hs : s.record? b.handle with
    | none =>
      rw [hs, Option.map_none, Option.map_eq_none_iff] at same
      rw [same]
      exact pairs
    | some r =>
      rw [hs, Option.map_some, Option.map_eq_some_iff] at same
      obtain ⟨q, hq, seen⟩ := same
      have cls : q.cls = r.cls := congrArg (·.2.2.2) seen
      rw [hq]
      dsimp only
      rw [cls]
      exact pairs_report_congr pairs f _ _ 0
  · exact pairs

theorem foldl_reportEvent_readsAs (h : s.readsAs t) (pairs : s.pairs = t.pairs) (l : List Nat) (o : Nat → Option LegEvent)
    (y : Nat → Slot) : (l.foldl (fun t k => t.reportEvent (k / 16) (o k) (y k)) s).pairs
      = (l.foldl (fun t k => t.reportEvent (k / 16) (o k) (y k)) t).pairs := by
  induction l generalizing s t with
  | nil => exact pairs
  | cons a l ih =>
    refine ih ?_ (pairs_reportEvent_readsAs h pairs _ _ _)
    obtain ⟨v, hv⟩ := reportEvent_eq (s := s) (a / 16) (o a) (y a)
    obtain ⟨w, hw⟩ := reportEvent_eq (s := t) (a / 16) (o a) (y a)
    dsimp only
    rw [hv, hw]
    exact h

/-! ### One binding -/

/-- What a move hands on goes by what is seen of the records. -/
theorem moves_readsAs {f i : Nat} {x y : Slot} {o : Option LegEvent} {R : Table Record}
    (h : s.readsAs { s with records := R }) (m : s.moves u f i x y o) :
    ({ s with records := R } : State).moves { u with records := R } f i x y o := by
  obtain ⟨frame, slot, updates, marks, pairs, reports⟩ := m
  refine ⟨?_, slot, updates, marks, pairs.trans (pairs_reportEvent_readsAs h rfl f o y), reports⟩
  exact congrArg (fun w : State => { w with records := R }) frame

theorem rebind_of_same {f i : Nat} {b : Option Binding} (same : (s.slot f i).planned = b) : s.rebind f i b = s :=
  if_pos same

theorem replans_rebind (f i : Nat) (b : Option Binding) : s.replans (s.rebind f i b) := by
  by_cases same : (s.slot f i).planned = b
  · rw [rebind_of_same same]
    exact replans_refl s
  · exact ⟨fun h n => n + names1 (b.map (·.handle)) h - names1 ((s.slot f i).planned.map (·.handle)) h,
      record?_rebind same⟩

/-- The slot after a change of its binding. -/
theorem slotAt_rebind_own (f i : Nat) (b : Option Binding) : (s.rebind f i b).slotAt (slotKey f i)
    = if (s.slot f i).planned = b then s.slot f i else (bindMove s f (s.slot f i) b).slot := by
  by_cases same : (s.slot f i).planned = b
  · rw [rebind_of_same same, if_pos same]
    rfl
  · rw [slotAt_rebind same, if_pos rfl, if_neg same]

theorem slotAt_rebind_other {f i k : Nat} (b : Option Binding) (other : slotKey f i ≠ k) :
    (s.rebind f i b).slotAt k = s.slotAt k := by
  by_cases same : (s.slot f i).planned = b
  · rw [rebind_of_same same]
  · rw [slotAt_rebind same, if_neg other]

/-- A change of a binding reads its own slot, its leg, and what is seen of the records. -/
theorem slotAt_rebind_readsAs (h : s.readsAs t) (legs : t.legs = s.legs) (uptime : t.uptime = s.uptime) {f i : Nat}
    (own : t.slot f i = s.slot f i) (b : Option Binding) :
    (t.rebind f i b).slotAt (slotKey f i) = (s.rebind f i b).slotAt (slotKey f i) := by
  rw [slotAt_rebind_own, slotAt_rebind_own, own, bindMove_readsAs h legs uptime]

theorem legs_uptime_rebind (f i : Nat) (b : Option Binding) :
    (s.rebind f i b).legs = s.legs ∧ (s.rebind f i b).uptime = s.uptime := by
  by_cases same : (s.slot f i).planned = b
  · rw [rebind_of_same same]
    exact ⟨rfl, rfl⟩
  · obtain ⟨v, plan⟩ := plan_eq s ((s.slot f i).planned.map (·.handle)) (b.map (·.handle))
    rw [(moves_rebind same).frame, plan]
    exact ⟨rfl, rfl⟩

/-- A change of a binding makes its slot's one move, with the records as they will be. -/
theorem moves_rebind_with {R : Table Record} (h : s.readsAs { s with records := R }) {f i : Nat} {b : Option Binding}
    (bound : v = s.rebind f i b) : ({ s with records := R } : State).moves { v with records := R } f i (s.slot f i)
      (v.slot f i) (bindingEvent (s.slot f i) (v.slot f i)) := by
  subst bound
  by_cases same : (s.slot f i).planned = b
  · rw [rebind_of_same same, still_bindingEvent]
    exact moves_refl (s := { s with records := R }) f i
  · have own : (s.rebind f i b).slot f i = (bindMove s f (s.slot f i) b).slot := by
      unfold State.slot
      rw [slotAt_rebind_own]
      exact if_neg same
    obtain ⟨v, plan⟩ := plan_eq s ((s.slot f i).planned.map (·.handle)) (b.map (·.handle))
    have moves := moves_rebind same
    have reads : s.readsAs (s.plan ((s.slot f i).planned.map (·.handle)) (b.map (·.handle))) := fun n => by
      rw [record?_plan, Option.map_map]
      rfl
    rw [bindMove_event, ← own, plan] at moves
    rw [plan] at reads
    exact moves_readsAs (s := { s with records := v }) (R := R) (reads.symm.trans h) moves

/-! ### Every binding of a table -/

/-- The bindings of a table are written, in the order of their slots (R151). -/
def State.bindEach (s : State) (t : Table (Option Binding)) : State :=
  t.foldl (fun s c => s.rebind (c.1 / 16) (c.1 % 16) c.2) s

/-- From `s` to `u` the bindings of a table have been written: each of its slots has made its one move, and the planned
counts have followed. -/
structure State.binds (s u : State) (t : Table (Option Binding)) : Prop where
  replans : s.replans u
  moves : ({ s with records := u.records } : State).movesAll u (t.map (·.1)) bindingEvent
  slot : ∀ k b, Table.find? t k = some b → u.slotAt k = (s.rebind (k / 16) (k % 16) b).slotAt k

theorem binds_bindEach {b : Table (Option Binding)} (rising : Table.rising b = true) : s.binds (s.bindEach b) b := by
  induction b generalizing s with
  | nil => exact ⟨replans_refl s, movesAll_nil s, nofun⟩
  | cons c b ih =>
    obtain ⟨a, x⟩ := c
    have nodup := nodup_keys rising
    rw [List.map_cons, List.nodup_cons] at nodup
    rw [Table.rising_iff, List.pairwise_cons] at rising
    obtain ⟨v, bound⟩ : ∃ v, v = s.rebind (a / 16) (a % 16) x := ⟨_, rfl⟩
    rw [show s.bindEach ((a, x) :: b) = v.bindEach b by rw [bound]; rfl]
    obtain ⟨replans, moves, slot⟩ := ih (s := v) ((Table.rising_iff b).2 rising.2)
    have key : slotKey (a / 16) (a % 16) = a := slotKey_div_mod a
    have first : s.replans v := bound ▸ replans_rebind (a / 16) (a % 16) x
    have all := first.trans replans
    have move := moves_rebind_with (readsAs_of_replans all) bound
    unfold State.slot at move
    rw [key] at move
    refine ⟨all, movesAll_cons move moves nodup.1, fun k y hy => ?_⟩
    by_cases own : k = a
    · subst own
      rw [Table.find?, if_pos rfl, Option.some.injEq] at hy
      rw [moves.slot k nodup.1, ← hy, ← bound]
      rfl
    · rw [Table.find?, if_neg fun h => own h.symm] at hy
      have later : slotKey (k / 16) (k % 16) = k := slotKey_div_mod k
      obtain ⟨legs, uptime⟩ := legs_uptime_rebind (s := s) (a / 16) (a % 16) x
      have still : v.slot (k / 16) (k % 16) = s.slot (k / 16) (k % 16) := by
        rw [bound]
        exact slotAt_rebind_other x (by rw [key, later]; exact fun h => own h.symm)
      have same := slotAt_rebind_readsAs (readsAs_of_replans first) (bound ▸ legs) (bound ▸ uptime) still y
      rw [later] at same
      rw [slot k y hy, same]

theorem binds_writeBindings (s : State) (l : List SlotEdit) : s.binds (s.writeBindings l) (bindingsOf l) :=
  binds_bindEach (rising_bindingsOf l)

/-- What the moves of an act hand on to the outputs, the counter pairs and the splice scheduler. -/
structure State.handsOn (s u : State) (event : Slot → Slot → Option LegEvent) : Prop where
  marks : s.marksMoved u
  events : s.eventsCounted u event
  reports : s.reportsMade u

theorem handsOn_writeBindings (s : State) (l : List SlotEdit) : s.handsOn (s.writeBindings l) bindingEvent := by
  obtain ⟨replans, moves, -⟩ := binds_writeBindings s l
  have rising : ((bindingsOf l).map (·.1)).Pairwise (· < ·) := by
    rw [List.pairwise_map]
    exact (Table.rising_iff _).1 (rising_bindingsOf l)
  obtain ⟨-, -, marks, ⟨keys, listed, pairs⟩, reports⟩ := slotsMoved_of_movesAll rising still_bindingEvent moves
  have reads : State.readsAs ({ s with records := (s.writeBindings l).records } : State) s :=
    (readsAs_of_replans replans).symm
  exact ⟨marks, ⟨keys, listed, pairs.trans (foldl_reportEvent_readsAs reads rfl keys
    (fun k => bindingEvent (s.slotAt k) ((s.writeBindings l).slotAt k)) _)⟩, reports⟩

/-- What is handed on does not go by the reservations. -/
theorem State.handsOn.congr (h : s.handsOn u bindingEvent) (slots : ∀ k, ∃ n, v.slotAt k = { u.slotAt k with reserved := n })
    (marks : v.marks = u.marks) (pairs : v.pairs = u.pairs) (reports : v.reports = u.reports) :
    s.handsOn v bindingEvent := by
  obtain ⟨marked, ⟨events, listed, counted⟩, ⟨left, leaving, made⟩⟩ := h
  have planned : ∀ k, (v.slotAt k).planned = (u.slotAt k).planned := fun k => by obtain ⟨n, e⟩ := slots k; rw [e]
  have source : ∀ k, (v.slotAt k).source = (u.slotAt k).source := fun k => by obtain ⟨n, e⟩ := slots k; rw [e]
  have onAir : ∀ k, (v.slotAt k).onAir = (u.slotAt k).onAir := fun k => by obtain ⟨n, e⟩ := slots k; rw [e]
  have event : ∀ k, bindingEvent (s.slotAt k) (v.slotAt k) = bindingEvent (s.slotAt k) (u.slotAt k) := fun k => by
    unfold bindingEvent moveEvent
    rw [source, onAir]
  refine ⟨fun base g q hq => ?_, ⟨events, ?_, ?_⟩, ⟨left, ?_, ?_⟩⟩
  · rw [mark_congr marks, marked (fun k b hb => base k b (by rwa [planned])) g q hq]
    unfold State.slot Slot.marks
    simp only [planned, source]
  · simpa only [event] using listed
  · rw [pairs, counted]
    simp only [event, planned]
  · simpa only [onAir] using leaving
  · rw [reports, made]

end

end Sys2Proof.Machine
end

