-- ==== Sys2Proof/Proofs/Passes.lean ====
section
/-! Executions that pass (R151, R152). -/

namespace Sys2Proof.Machine

section
variable {s t u : State}

/-! ### The counts after an act that changes bindings (R13, R14) -/

theorem airsAll_plan (a b : Option Nat) (p : s.airsAll) : (s.plan a b).airsAll := by
  obtain ⟨v, hv⟩ := plan_eq s a b
  have record := record?_plan s a b
  rw [hv] at record ⊢
  intro h x hx
  rw [record, Option.map_eq_some_iff] at hx
  obtain ⟨y, hy, rfl⟩ := hx
  exact p h y hy

theorem airsAll_rebind (f i : Nat) (b : Option Binding) (c : s.canonical) (p : s.airsAll) : (s.rebind f i b).airsAll := by
  have core := core_rebind s f i b
  split at core
  · exact steady_airsAll.frame _ _ core.symm p
  · refine steady_airsAll.frame _ _ core.symm fun h x hx =>
      airsFit_moved ((kept_plan s _ _).canonical c) ?_ hx (airsAll_plan _ _ p h x hx)
    simp only [slotAt_plan, usable_plan]
    exact source_rebound s f i b

theorem airsAll_writeBindings (l : List SlotEdit) (c : s.canonical) (p : s.airsAll) : (s.writeBindings l).airsAll :=
  foldl_keeps (fun _ _ => kept_rebind _ _ _ _) (fun _ _ => airsAll_rebind _ _ _) _ c p

theorem airsAll_splices (cs : s.canonical) (ct : t.canonical) (h : s.splices t) (p : s.airsAll) : t.airsAll := by
  obtain ⟨f, hf⟩ := h.records
  intro g x hx
  rw [hf, Option.map_eq_some_iff] at hx
  obtain ⟨y, hy, rfl⟩ := hx
  have airs : t.airings g = s.airings g := airings_congr cs ct g fun k => by
    obtain ⟨n, hn⟩ := h.slots k
    rw [hn]
  have fit := p g y hy
  unfold State.airsFit at fit ⊢
  rwa [h.updates, airs]

/-- From `s` to `t` an act has moved slots, and `u` has the records and the stream map with its updates taken. -/
theorem countsFollow_taken {f : Nat → Record → Record} (cs : s.canonical) (ct : t.canonical) (cu : u.canonical)
    (noUpdates : s.updates = []) (records : ∀ h, t.record? h = (s.record? h).map (f h))
    (same : ∀ h x, (f h x).state = x.state ∧ (f h x).onAir = x.onAir) (smap : t.smap = s.smap)
    (fits : s.airsAll → t.airsAll) (taken : u.records = t.takeUpdates.records) (mapped : u.smap = t.takeUpdates.smap)
    (source : ∀ k, (u.slotAt k).source = (t.slotAt k).source)
    (planned : ∀ h x, u.record? h = some x → x.planned = u.bindings h) : s.countsFollow u := by
  have record : ∀ h, u.record? h = t.takeUpdates.record? h := fun h => by unfold State.record?; rw [taken]
  obtain ⟨-, stays, entries⟩ := followed_takeUpdates (s := t)
  refine ⟨fun h q hq live => ?_, fun c => ?_, fun counts => ?_⟩
  · rw [record]
    exact stays h (f h q) (by rw [records, hq]; rfl) (by rw [(same h q).1]; exact live)
  · rw [mapped, entries, smap, records, Option.isSome_map, record]
  · have fits := fits (airsAll_of_countsTrue noUpdates counts)
    have airs : ∀ h, u.airings h = t.takeUpdates.airings h := fun h =>
      airings_congr ((kept_takeUpdates _).canonical ct) cu h fun k => by
        rw [source]
        unfold State.slotAt
        rw [slots_takeUpdates]
    refine ⟨fun h x hx => ⟨planned h x hx, ?_⟩, fun h q hq => ?_⟩
    · obtain ⟨fit, -, -⟩ := steady_airsAll.takeUpdates ct fits h x (record h ▸ hx)
      rw [updates_takeUpdates] at fit
      exact (show x.onAir = t.takeUpdates.airings h from fit).trans (airs h).symm
    · have there : t.record? h = some (f h q) := by rw [records, hq]; rfl
      rw [record, freed_takeUpdates fits there, (same h q).1]
      refine and_congr_right fun retiring => ?_
      obtain ⟨fit, -, news⟩ := fits h _ there
      rw [news ((same h q).1.trans retiring), (same h q).2] at fit
      have count : q.onAir = s.airings h := (counts h q hq).2
      constructor
      · rintro ⟨olds, air⟩
        refine ⟨?_, fun k hk => absurd air (airings_pos (source k ▸ hk)).ne'⟩
        by_contra none
        exact absurd (airings_eq_zero (not_exists.1 none) cs) (by omega)
      · rintro ⟨⟨k, hk⟩, off⟩
        have air := airings_eq_zero (fun k => source k ▸ off k) ct
        have before := airings_pos hk
        exact ⟨by omega, air⟩

/-! ### The slots -/

theorem reserved_bindMove (f : Nat) (x : Slot) (b : Option Binding) : (bindMove s f x b).slot.reserved = x.reserved := by
  cases b with
  | none => rfl
  | some b =>
    rw [bindMove_slot]
    repeat' split
    all_goals rfl

theorem reserved_rebind (f i : Nat) (b : Option Binding) :
    ((s.rebind f i b).slot f i).reserved = (s.slot f i).reserved := by
  unfold State.slot
  rw [slotAt_rebind_own]
  split
  · rfl
  · exact reserved_bindMove f _ b

theorem lastBinding_eq {l : List SlotEdit} {f i : Nat} (range : ∀ d ∈ l, d.slot < 16) (hi : i < 16) :
    lastBinding s l f i = (lastEdit l (slotKey f i)).getD (s.slot f i).planned := by
  have same : (l.filter fun d => decide (d.feed = f ∧ d.slot = i))
      = l.filter fun d => slotKey d.feed d.slot == slotKey f i := by
    refine List.filter_congr fun d hd => ?_
    have := range d hd
    rw [Bool.eq_iff_iff, decide_eq_true_eq, beq_iff_eq]
    unfold slotKey
    omega
  unfold lastBinding lastEdit
  rw [same]
  cases List.getLast? _ <;> rfl

/-- Each slot of the list makes its one move, to its last binding (R151). -/
theorem slot_writeBindings {l : List SlotEdit} {f i : Nat} (range : ∀ d ∈ l, d.slot < 16) (hi : i < 16) :
    (s.writeBindings l).slot f i = (s.rebind f i (lastBinding s l f i)).slot f i := by
  obtain ⟨-, moves, slot⟩ := binds_writeBindings s l
  have listed := find?_bindingsOf l (slotKey f i)
  rw [lastBinding_eq range hi]
  cases hb : lastEdit l (slotKey f i) with
  | some b =>
    have own := slot (slotKey f i) b (listed.trans hb)
    rw [slotKey_div hi, slotKey_mod hi] at own
    exact own
  | none =>
    have other : slotKey f i ∉ (bindingsOf l).map (·.1) := by
      rw [← find?_isSome_iff, listed, hb]
      nofun
    rw [Option.getD_none, rebind_of_same rfl]
    exact moves.slot _ other

/-- The slots that an entry follows are those of its edits that are PENDING (R80, R151). -/
theorem mem_pendingSlots {l : List SlotEdit} (range : ∀ d ∈ l, d.feed < 24 ∧ d.slot < 16) (f i : Nat) :
    (f, i) ∈ s.pendingSlots l
      ↔ f < 24 ∧ i < 16 ∧ (∃ d ∈ l, d.feed = f ∧ d.slot = i) ∧ (s.slot f i).onAir = .pending := by
  have listed : ∀ k, k ∈ (bindingsOf l).map (·.1) ↔ ∃ d ∈ l, slotKey d.feed d.slot = k := fun k => by
    rw [← find?_isSome_iff, find?_bindingsOf, lastEdit_isSome]
  unfold State.pendingSlots
  simp only [List.mem_map, List.mem_filter, beq_iff_eq, Prod.mk.injEq]
  constructor
  · rintro ⟨c, ⟨mem, pending⟩, rfl, rfl⟩
    obtain ⟨d, hd, key⟩ := (listed c.1).1 (List.mem_map.2 ⟨c, mem, rfl⟩)
    obtain ⟨hf, hi⟩ := range d hd
    refine ⟨?_, Nat.mod_lt _ (by decide), ⟨d, hd, ?_, ?_⟩, ?_⟩
    · rw [← key, slotKey_div hi]
      exact hf
    · rw [← key, slotKey_div hi]
    · rw [← key, slotKey_mod hi]
    · unfold State.slot
      rw [slotKey_div_mod]
      exact pending
  · rintro ⟨-, hi, ⟨d, hd, rfl, rfl⟩, pending⟩
    obtain ⟨c, mem, key⟩ := List.mem_map.1 ((listed _).2 ⟨d, hd, rfl⟩)
    refine ⟨c, ⟨mem, ?_⟩, ?_, ?_⟩
    · rw [key]
      exact pending
    · rw [key, slotKey_div hi]
    · rw [key, slotKey_mod hi]

/-! ### The acts of an execution -/

theorem writeBindings_frame (l : List SlotEdit) : s.writeBindings l = { s with
    records := (s.writeBindings l).records, slots := (s.writeBindings l).slots, updates := (s.writeBindings l).updates
    marks := (s.writeBindings l).marks, pairs := (s.writeBindings l).pairs, reports := (s.writeBindings l).reports } :=
  (binds_writeBindings s l).moves.frame

theorem executing_eq (s : State) (e : Nat) (q : Picture) : ∃ R M, s.executing e q
    = { s.writeBindings (q.applied.filterMap Edit.slotEdit?) with records := R, smap := M, updates := [] } := by
  unfold State.executing
  generalize s.writeBindings _ = w
  obtain ⟨v, hv⟩ := dropSpliceRefs_eq w (s.entry e).edits
  obtain ⟨R, M, h⟩ := takeUpdates_eq (w.dropSpliceRefs (s.entry e).edits)
  exact ⟨R, M, by rw [h, hv]⟩

theorem armReturn_eq (s : State) (e : Nat) :
    ∃ E, s.armReturn e = { s.passReservations e (s.entry e).heir with entries := E } := by
  unfold State.armReturn
  cases (s.entry e).heir with
  | none =>
    dsimp only
    generalize s.passReservations e none = t
    exact ⟨t.entries, rfl⟩
  | some n =>
    dsimp only
    generalize s.passReservations e (some n) = t
    exact ⟨_, rfl⟩

/-- The entry ends DONE when none of its slots is PENDING (R151). -/
theorem finishEntry_of_none {e : Nat} (n k : Nat) (none : s.pendingSlots (s.entry e).edits = []) :
    s.finishEntry e n k = ((s.setEntry e ((s.entry e).executed s.clock n k)).freeEntry e .done .none).raise
      .spliceDone e := by
  unfold State.finishEntry
  dsimp only
  rw [none]
  rfl

theorem finishEntry_of_some {e : Nat} (n k : Nat) (some : s.pendingSlots (s.entry e).edits ≠ []) :
    s.finishEntry e n k = s.setEntry e { (s.entry e).executed s.clock n k with
      state := .switching, tracked := s.pendingSlots (s.entry e).edits } := by
  unfold State.finishEntry
  dsimp only
  rw [if_neg (by rwa [List.isEmpty_iff])]
  rfl

theorem finishEntry_eq (s : State) (e n k : Nat) :
    ∃ E a b, s.finishEntry e n k = { s with entries := E, attention := a, attn := b } := by
  by_cases none : s.pendingSlots (s.entry e).edits = []
  · rw [finishEntry_of_none n k none]
    obtain ⟨a, b, h⟩ := raise_eq ((s.setEntry e ((s.entry e).executed s.clock n k)).freeEntry e .done .none) .spliceDone e
    rw [h]
    exact ⟨_, a, b, rfl⟩
  · rw [finishEntry_of_some n k none]
    exact ⟨_, s.attention, s.attn, rfl⟩

theorem raise_congr (attention : t.attention = s.attention) (mask : t.attMask = s.attMask) (attn : t.attn = s.attn)
    (k : AttKind) (d : Nat) : (t.raise k d).attention = (s.raise k d).attention ∧ (t.raise k d).attn = (s.raise k d).attn := by
  unfold State.raise
  rw [attention]
  cases Table.find? s.attention k.bit with
  | some _ => exact ⟨attention, attn⟩
  | none =>
    unfold State.driveAttn
    rw [mask]
    exact ⟨rfl, rfl⟩

/-! ### A passing execution -/

section
variable {e : Nat} {q : Picture}

theorem passEntry_frame (noUpdates : s.updates = []) : s.passEntry e q = { s with
    records := (s.passEntry e q).records, smap := (s.passEntry e q).smap, slots := (s.passEntry e q).slots
    entries := (s.passEntry e q).entries, marks := (s.passEntry e q).marks, pairs := (s.passEntry e q).pairs
    attention := (s.passEntry e q).attention, attn := (s.passEntry e q).attn
    reports := (s.passEntry e q).reports } := by
  obtain ⟨R, M, executing⟩ := executing_eq s e q
  obtain ⟨E, armed⟩ := armReturn_eq (s.executing e q) e
  obtain ⟨v, passed⟩ := passReservations_eq (s.executing e q) e ((s.executing e q).entry e).heir
  obtain ⟨F, a, b, finished⟩ := finishEntry_eq ((s.executing e q).armReturn e) e q.applied.length q.skipped
  rw [passEntry_eq, finished, armed, passed, executing, writeBindings_frame, ← noUpdates]

/-- What an execution keeps of the tables that it has written, once its return is to be armed. -/
theorem passEntry_tables (s : State) (e : Nat) (q : Picture) : (s.passEntry e q).records = (s.executing e q).records
    ∧ (s.passEntry e q).smap = (s.executing e q).smap ∧ (s.passEntry e q).marks = (s.executing e q).marks
    ∧ (s.passEntry e q).pairs = (s.executing e q).pairs ∧ (s.passEntry e q).reports = (s.executing e q).reports
    ∧ (s.passEntry e q).slots = ((s.executing e q).passReservations e (s.entry e).heir).slots := by
  obtain ⟨E, armed⟩ := armReturn_eq (s.executing e q) e
  obtain ⟨v, passed⟩ := passReservations_eq (s.executing e q) e ((s.executing e q).entry e).heir
  obtain ⟨F, a, b, finished⟩ := finishEntry_eq ((s.executing e q).armReturn e) e q.applied.length q.skipped
  rw [passEntry_eq, finished, armed, entry_executing] at *
  rw [passed]
  exact ⟨rfl, rfl, rfl, rfl, rfl, rfl⟩

theorem slotAt_passEntry (k : Nat) : (s.passEntry e q).slotAt k
    = let x := (s.writeBindings (q.applied.filterMap Edit.slotEdit?)).slotAt k
      if k < 384 ∧ x.reserved = some e then { x with reserved := (s.entry e).heir } else x := by
  obtain ⟨-, -, -, -, -, slots⟩ := passEntry_tables s e q
  obtain ⟨R, M, executing⟩ := executing_eq s e q
  have same : (s.executing e q).slotAt k = (s.writeBindings (q.applied.filterMap Edit.slotEdit?)).slotAt k := by
    rw [executing]
    rfl
  rw [← same, ← slotAt_passReservations]
  unfold State.slotAt
  rw [slots]

theorem slotAt_passEntry_reserved (k : Nat) : ∃ n, (s.passEntry e q).slotAt k
    = { (s.writeBindings (q.applied.filterMap Edit.slotEdit?)).slotAt k with reserved := n } := by
  rw [slotAt_passEntry]
  dsimp only
  split
  · exact ⟨_, rfl⟩
  · exact ⟨_, rfl⟩

theorem handsOn_passEntry (s : State) (e : Nat) (q : Picture) : s.handsOn (s.passEntry e q) bindingEvent := by
  obtain ⟨-, -, marks, pairs, reports, -⟩ := passEntry_tables s e q
  obtain ⟨R, M, executing⟩ := executing_eq s e q
  rw [executing] at marks pairs reports
  exact (handsOn_writeBindings s _).congr slotAt_passEntry_reserved marks pairs reports

/-- The tables with the bindings written and the references of the entry given up (R151 parts 1 and 2). -/
def State.unreferenced (s : State) (e : Nat) (q : Picture) : State :=
  (s.writeBindings (q.applied.filterMap Edit.slotEdit?)).dropSpliceRefs (s.entry e).edits

theorem record?_unreferenced (s : State) (e : Nat) (q : Picture) : ∃ g : Nat → Nat → Nat, ∀ h,
    (s.unreferenced e q).record? h = (s.record? h).map fun r =>
      { r with planned := g h r.planned, spliceRefs := r.spliceRefs - bindsOf (s.entry e).edits h } := by
  obtain ⟨g, hg⟩ := (binds_writeBindings s (q.applied.filterMap Edit.slotEdit?)).replans
  refine ⟨g, fun h => ?_⟩
  unfold State.unreferenced
  rw [record?_dropSpliceRefs, hg, Option.map_map]
  rfl

theorem record?_passEntry {h : Nat} {r : Record} (hr : (s.passEntry e q).record? h = some r) :
    ∃ x, s.record? h = some x ∧ r = { x with
      planned := r.planned, onAir := r.onAir, spliceRefs := x.spliceRefs - bindsOf (s.entry e).edits h } := by
  obtain ⟨records, -⟩ := passEntry_tables s e q
  obtain ⟨g, hg⟩ := record?_unreferenced s e q
  have taken : (s.unreferenced e q).takeUpdates.record? h = some r := by
    unfold State.record? at hr ⊢
    rw [← hr, records]
    rfl
  obtain ⟨y, hy, aired⟩ := followed_takeUpdates.kept h r taken
  rw [hg, Option.map_eq_some_iff] at hy
  obtain ⟨x, hx, rfl⟩ := hy
  exact ⟨x, hx, by rw [aired]⟩

theorem countsFollow_passEntry (c : s.canonical) (noUpdates : s.updates = []) (stage : (s.entry e).state.stage = 1)
    (judged : judgeEntry s (s.entry e) = .ok q) (p : s.countLaw) : s.countsFollow (s.passEntry e q) := by
  obtain ⟨records, smap, -⟩ := passEntry_tables s e q
  obtain ⟨g, hg⟩ := record?_unreferenced s e q
  have bound := (kept_writeBindings s (q.applied.filterMap Edit.slotEdit?)).canonical c
  obtain ⟨v, dropped⟩ := dropSpliceRefs_eq (s.writeBindings (q.applied.filterMap Edit.slotEdit?)) (s.entry e).edits
  have slotAt : ∀ k, (s.unreferenced e q).slotAt k
      = (s.writeBindings (q.applied.filterMap Edit.slotEdit?)).slotAt k := fun k => by
    unfold State.unreferenced
    rw [dropped]
    rfl
  refine countsFollow_taken (t := s.unreferenced e q) c ((kept_dropSpliceRefs _ _).canonical bound)
    ((kept_passEntry s e q).canonical c) noUpdates hg (fun _ _ => ⟨rfl, rfl⟩) ?_ (fun fits => ?_) records smap
    (fun k => ?_) fun h x hx => ?_
  · unfold State.unreferenced
    rw [dropped, writeBindings_frame]
  · exact airsAll_splices bound ((kept_dropSpliceRefs _ _).canonical bound) (splices_dropSpliceRefs _)
      (airsAll_writeBindings _ c fits)
  · obtain ⟨n, e⟩ := slotAt_passEntry_reserved (s := s) (e := e) (q := q) k
    rw [e, slotAt]
  · exact ((countLaw_passEntry c stage judged p).1 h x hx).1

end

end

end Sys2Proof.Machine
end

