-- ==== Sys2Proof/Proofs/Executions.lean ====
section
/-! The execution of a splice entry, passed or failed (R149 to R153). -/

namespace Sys2Proof.Machine

section
variable {s t u : State} {e : Nat} {q : Picture}

/-! ### The judgement (R150) -/

/-- The edits that an execution applies are the entry's. -/
theorem mem_edits_of_applied (judged : judgeEntry s (s.entry e) = .ok q) :
    ∀ d ∈ q.applied.filterMap Edit.slotEdit?, d ∈ (s.entry e).edits := by
  intro d hd
  obtain ⟨walk, -⟩ := judgeEntry_eq_ok judged
  obtain ⟨x, hx, hxd⟩ := List.mem_filterMap.1 hd
  rcases walkEntry_applied_mem walk x hx with h | ⟨y, hy, rfl⟩
  · cases h
  · cases hxd
    exact hy

theorem length_applied (judged : judgeEntry s (s.entry e) = .ok q) :
    (q.applied.filterMap Edit.slotEdit?).length = q.applied.length := by
  obtain ⟨walk, -⟩ := judgeEntry_eq_ok judged
  have slots : ∀ x ∈ q.applied, (Edit.slotEdit? x).isSome := fun x hx => by
    rcases walkEntry_applied_mem walk x hx with h | ⟨y, hy, rfl⟩
    · cases h
    · rfl
  rw [List.length_filterMap_eq_countP]
  exact List.countP_eq_length.2 slots

/-- The picture with a splice entry written. -/
def Picture.withEntry (p : Picture) (e : Nat) (y : Entry) : Picture := { p with tables := p.tables.setEntry e y }

theorem judge_withEntry (p : Picture) (e : Nat) (y : Entry) (n : Nat) (d : SlotEdit) (k : Nat) :
    (p.withEntry e y).judge n (.slot d) k = (p.judge n (.slot d) k).map (·.withEntry e y) := by
  unfold Picture.judge
  rw [show (p.withEntry e y).redundant (.slot d) = p.redundant (.slot d) from rfl,
    show (p.withEntry e y).sourceLost (.slot d) = p.sourceLost (.slot d) from rfl]
  repeat' split
  all_goals rfl

theorem walkEntry_withEntry (p : Picture) (e : Nat) (y : Entry) (n : Nat) (l : List SlotEdit) (k : Nat) :
    (p.withEntry e y).walkEntry n l k = (p.walkEntry n l k).map (·.withEntry e y) := by
  induction l generalizing p n with
  | nil => rfl
  | cons d l ih =>
    unfold Picture.walkEntry
    rw [judge_withEntry]
    cases p.judge n (.slot d) k with
    | error f => rfl
    | ok q => exact ih q (n + 1)

/-- An entry is judged by its edits and its tolerance, on tables whose entries do not matter. -/
theorem judgeEntry_setEntry (s : State) (e : Nat) (y : Entry) {x z : Entry} (edits : z.edits = x.edits)
    (tolerance : z.tolerance = x.tolerance) :
    judgeEntry (s.setEntry e y) z = (judgeEntry s x).map (·.withEntry e y) := by
  unfold judgeEntry
  rw [edits, tolerance, show Picture.start (s.setEntry e y) = (Picture.start s).withEntry e y from rfl,
    walkEntry_withEntry]
  cases (Picture.start s).walkEntry 1 x.edits (x.tolerance.getD 0) with
  | error f => rfl
  | ok p =>
    change (match legLaws p.tables with
      | some f => Except.error f
      | none => .ok (p.withEntry e y)) = _
    dsimp only
    cases legLaws p.tables <;> rfl

/-! ### The entries after a passing execution -/

theorem armed_aside (s : State) (e : Nat) (q : Picture) : ((s.executing e q).armReturn e).clock = s.clock
    ∧ ((s.executing e q).armReturn e).attention = s.attention ∧ ((s.executing e q).armReturn e).attMask = s.attMask
    ∧ ((s.executing e q).armReturn e).attn = s.attn := by
  obtain ⟨R, M, executing⟩ := executing_eq s e q
  obtain ⟨E, armed⟩ := armReturn_eq (s.executing e q) e
  obtain ⟨v, passed⟩ := passReservations_eq (s.executing e q) e ((s.executing e q).entry e).heir
  rw [armed, passed, executing, writeBindings_frame]
  exact ⟨rfl, rfl, rfl, rfl⟩

theorem entry_armed_own (stage : (s.entry e).state.stage = 1) (p : s.pairsLaw) :
    ((s.executing e q).armReturn e).entry e = s.entry e := by
  rw [entry_armReturn, entry_executing]
  exact if_neg fun h => (held_of_heir stage p h).2.2 rfl

theorem onAir_armed (f i : Nat) : (((s.executing e q).armReturn e).slot f i).onAir = ((s.passEntry e q).slot f i).onAir := by
  obtain ⟨E, a, b, finished⟩ := finishEntry_eq ((s.executing e q).armReturn e) e q.applied.length q.skipped
  rw [passEntry_eq, finished]
  rfl

/-- The slots that an executed entry is left to follow. -/
def State.waitsFor (s u : State) (e f i : Nat) : Prop :=
  (∃ d ∈ (s.entry e).edits, d.feed = f ∧ d.slot = i) ∧ (u.slot f i).onAir = .pending

theorem mem_tracked (range : ∀ d ∈ (s.entry e).edits, d.feed < 24 ∧ d.slot < 16) (f i : Nat) :
    (f, i) ∈ ((s.executing e q).armReturn e).pendingSlots (s.entry e).edits
      ↔ f < 24 ∧ i < 16 ∧ s.waitsFor (s.passEntry e q) e f i := by
  rw [mem_pendingSlots range, onAir_armed]
  rfl

theorem passEntry_done (stage : (s.entry e).state.stage = 1) (p : s.pairsLaw)
    (range : ∀ d ∈ (s.entry e).edits, d.feed < 24 ∧ d.slot < 16)
    (steady : ∀ f < 24, ∀ i < 16, ¬ s.waitsFor (s.passEntry e q) e f i) :
    (s.passEntry e q).entry e
        = ((s.entry e).executed s.clock q.applied.length q.skipped).ended .done none
      ∧ (s.passEntry e q).attention = (s.raise .spliceDone e).attention
      ∧ (s.passEntry e q).attn = (s.raise .spliceDone e).attn := by
  obtain ⟨clock, attention, mask, attn⟩ := armed_aside s e q
  have own := entry_armed_own (q := q) stage p
  have empty : ((s.executing e q).armReturn e).pendingSlots (((s.executing e q).armReturn e).entry e).edits = [] := by
    rw [own, List.eq_nil_iff_forall_not_mem]
    intro c hc
    obtain ⟨hf, hi, waits⟩ := (mem_tracked range c.1 c.2).1 hc
    exact steady c.1 hf c.2 hi waits
  rw [passEntry_eq, finishEntry_of_none _ _ empty, own, clock]
  generalize (s.executing e q).armReturn e = a at attention mask attn
  rw [entry_raise, entry_freeEntry, if_pos rfl, entry_setEntry, if_pos rfl]
  exact ⟨rfl, raise_congr (s := s) (t := (a.setEntry e _).freeEntry e .done none) attention mask attn .spliceDone e⟩

theorem passEntry_switching {f i : Nat} (stage : (s.entry e).state.stage = 1) (p : s.pairsLaw)
    (range : ∀ d ∈ (s.entry e).edits, d.feed < 24 ∧ d.slot < 16) (hf : f < 24) (hi : i < 16)
    (waits : s.waitsFor (s.passEntry e q) e f i) :
    (s.passEntry e q).attention = s.attention ∧ (s.passEntry e q).attn = s.attn
      ∧ ∃ tracked, (s.passEntry e q).entry e
          = { (s.entry e).executed s.clock q.applied.length q.skipped with state := .switching, tracked := tracked }
        ∧ ∀ g j, (g, j) ∈ tracked ↔ g < 24 ∧ j < 16 ∧ s.waitsFor (s.passEntry e q) e g j := by
  obtain ⟨clock, attention, -, attn⟩ := armed_aside s e q
  have own := entry_armed_own (q := q) stage p
  have some : ((s.executing e q).armReturn e).pendingSlots (((s.executing e q).armReturn e).entry e).edits ≠ [] := by
    rw [own]
    exact List.ne_nil_of_mem ((mem_tracked range f i).2 ⟨hf, hi, waits⟩)
  have finished := finishEntry_of_some q.applied.length q.skipped some
  rw [own, clock] at finished
  refine ⟨?_, ?_, _, ?_, mem_tracked range⟩
  · rw [passEntry_eq, finished]
    exact attention
  · rw [passEntry_eq, finished]
    exact attn
  · rw [passEntry_eq, finished, entry_setEntry, if_pos rfl]

/-- The return of an executed entry, as it is armed (R152). -/
theorem armedNow_eq (x : Entry) (now : StationTime) (at_ : Matcher → Matcher)
    (after : ∀ d, at_ (.timeAfter d) = .time (now + BitVec.ofNat 33 (90000 * d)))
    (other : ∀ m, (∀ d, m ≠ .timeAfter d) → at_ m = m) : x.armedNow now = { x with
      state := .armed, remaining := some 1
      trigger := x.trigger.map fun t => { t with a := at_ t.a, b := t.b.map at_ } } := by
  have written : at_ = Matcher.written now := by
    funext m
    cases m with
    | timeAfter d =>
      rw [after, Nat.mul_comm]
      rfl
    | time a => exact other _ nofun
    | cue a b c => exact other _ nofun
  rw [written]
  rfl

theorem executionPassed_passEntry (c : s.canonical) (noUpdates : s.updates = [])
    (stage : (s.entry e).state.stage = 1) (judged : judgeEntry s (s.entry e) = .ok q) (p : s.countLaw)
    (range : ∀ d ∈ (s.entry e).edits, d.feed < 24 ∧ d.slot < 16) :
    s.executionPassed (s.passEntry e q) e (q.applied.filterMap Edit.slotEdit?) q.skipped := by
  obtain ⟨-, pairs, -⟩ := (countLaw_iff s).1 p
  obtain ⟨marks, events, reports⟩ := handsOn_passEntry s e q
  have applied := fun d hd => (range d (mem_edits_of_applied judged d hd)).2
  refine ⟨passEntry_frame noUpdates, fun f hf i hi => ?_, fun h r hr => record?_passEntry hr,
    countsFollow_passEntry c noUpdates stage judged p, marks, events, reports, fun none => ?_, fun f hf i hi waits => ?_,
    fun n heir => ?_, fun d hd heir => ?_⟩
  · have key : slotKey f i < 384 := by unfold slotKey; omega
    have slot := slot_writeBindings (s := s) (f := f) applied hi
    have own := slotAt_passEntry (s := s) (e := e) (q := q) (slotKey f i)
    unfold State.slot at slot ⊢
    rw [own, slot]
    dsimp only
    rw [show ((s.rebind f i _).slotAt (slotKey f i)).reserved = (s.slotAt (slotKey f i)).reserved from
      reserved_rebind f i _]
    by_cases held : (s.slotAt (slotKey f i)).reserved = some e
    · rw [if_pos ⟨key, held⟩, if_pos held]
      rfl
    · rw [if_neg fun h => held h.2, if_neg held, ← show ((s.rebind f i _).slotAt (slotKey f i)).reserved
        = (s.slotAt (slotKey f i)).reserved from reserved_rebind f i _]
  · rw [length_applied judged]
    exact passEntry_done stage pairs range none
  · obtain ⟨attention, attn, tracked, own, mem⟩ := passEntry_switching stage pairs range hf hi waits
    rw [length_applied judged]
    exact ⟨attention, attn, _, _, _, tracked, own, mem⟩
  · replace heir : (s.entry e).heir = some n := heir
    have other : n ≠ e := (held_of_heir stage pairs heir).2.2
    rw [entry_passEntry q other, if_pos heir]
    obtain ⟨R, M, executing⟩ := executing_eq s e q
    have clock : (s.executing e q).clock = s.clock := by rw [executing, writeBindings_frame]
    rw [clock]
    refine armedNow_eq (s.entry n) s.clock
      (fun | .timeAfter d => .time (s.clock + BitVec.ofNat 33 (90000 * d)) | m => m) (fun d => rfl) fun m hm => ?_
    cases m with
    | timeAfter d => exact absurd rfl (hm d)
    | time a => rfl
    | cue a b c => rfl
  · rw [entry_passEntry q hd]
    exact if_neg heir

end

end Sys2Proof.Machine
end

