-- ==== Sys2Proof/Proofs/FailedExecutions.lean ====
section
/-! Executions that fail (R153). -/

namespace Sys2Proof.Machine

section
variable {s t u : State} {e : Nat}

/-! ### A failing execution -/

/-- The HELD return of a waiting original is its partner (R138). -/
theorem heldReturn_eq (stage : (s.entry e).state.stage = 1) (p : s.pairsLaw) :
    s.heldReturn (s.entry e) = (s.entry e).heir := by
  change (if _ then (s.entry e).partner.filter _ else none) = if _ then (s.entry e).partner else none
  split
  · next role =>
    cases hn : (s.entry e).partner with
    | none => rfl
    | some n =>
      have held := (held_of_heir stage p ((heir_iff _ n).2 ⟨role, hn⟩)).1
      rw [Option.filter_some, decide_eq_true held]
      rfl
  · rfl

theorem endHeldPartner_eq (s : State) (e : Nat) (r : LastResult) (c : Option Code) :
    ∃ R E, s.endHeldPartner e r c = { s with records := R, entries := E } := by
  unfold State.endHeldPartner
  split
  · next n _ =>
    split
    · obtain ⟨v, hv⟩ := dropSpliceRefs_eq s (s.entry n).edits
      rw [hv]
      exact ⟨_, _, rfl⟩
    · exact ⟨_, _, rfl⟩
  · exact ⟨_, _, rfl⟩

/-- The edits whose references end with an entry's partner. -/
def State.heirEdits (s : State) (e : Nat) : List SlotEdit := ((s.entry e).heir.map fun n => (s.entry n).edits).getD []

theorem record?_endHeldPartner (stage : (s.entry e).state.stage = 1) (p : s.pairsLaw) (r : LastResult)
    (c : Option Code) (h : Nat) : (s.endHeldPartner e r c).record? h
      = (s.record? h).map fun x => { x with spliceRefs := x.spliceRefs - bindsOf (s.heirEdits e) h } := by
  unfold State.endHeldPartner State.heirEdits
  cases hn : (s.entry e).heir with
  | none => exact (Option.map_id' ..).symm
  | some n =>
    dsimp only
    rw [if_pos (held_of_heir stage p hn).1]
    exact record?_dropSpliceRefs s (s.entry n).edits h

/-- The tables when an execution fails, before its entry goes to FREE (R153). -/
def State.releasing (s : State) (e : Nat) (c : Code) : State :=
  let u := s.endHeldPartner e .failed (some c)
  (u.dropSpliceRefs (u.entry e).edits).passReservations e none

theorem failEntry_eq (s : State) (e : Nat) (c : Code) : s.failEntry e c
    = (((s.releasing e c).setEntry e (((s.releasing e c).entry e).executed (s.releasing e c).clock 0 0)).freeEntry e
      .failed (some c)).raise .spliceFailed e := rfl

theorem releasing_frame (s : State) (e : Nat) (c : Code) : s.releasing e c = { s with
    records := (s.releasing e c).records, slots := (s.releasing e c).slots, entries := (s.releasing e c).entries } := by
  unfold State.releasing
  obtain ⟨R, E, ended⟩ := endHeldPartner_eq s e .failed (some c)
  obtain ⟨v, dropped⟩ := dropSpliceRefs_eq (s.endHeldPartner e .failed (some c))
    ((s.endHeldPartner e .failed (some c)).entry e).edits
  dsimp only
  rw [dropped, ended]
  obtain ⟨w, passed⟩ := passReservations_eq { s with records := v, entries := E } e none
  rw [passed]

theorem entry_releasing (stage : (s.entry e).state.stage = 1) (p : s.pairsLaw) (c : Code) (d : Nat) :
    (s.releasing e c).entry d = if (s.entry e).heir = some d then (s.entry d).freed .failed (some c) else s.entry d := by
  unfold State.releasing
  dsimp only
  rw [entry_passReservations, entry_dropSpliceRefs, entry_endHeldPartner stage p]

theorem record?_releasing (stage : (s.entry e).state.stage = 1) (p : s.pairsLaw) (c : Code) (h : Nat) :
    (s.releasing e c).record? h = (s.record? h).map fun x =>
      { x with spliceRefs := x.spliceRefs - bindsOf ((s.entry e).edits ++ s.heirEdits e) h } := by
  have own : (s.endHeldPartner e .failed (some c)).entry e = s.entry e := by
    rw [entry_endHeldPartner stage p]
    exact if_neg fun h => (held_of_heir stage p h).2.2 rfl
  have dropped := record?_dropSpliceRefs (s.endHeldPartner e .failed (some c)) (s.entry e).edits h
  rw [record?_endHeldPartner stage p, Option.map_map] at dropped
  unfold State.releasing
  dsimp only
  unfold State.record? at dropped ⊢
  rw [records_passReservations, own, dropped]
  congr 1
  funext x
  simp only [Function.comp, bindsOf_append, Nat.sub_sub, Nat.add_comm]

theorem slotAt_releasing (c : Code) (k : Nat) : (s.releasing e c).slotAt k
    = if k < 384 ∧ (s.slotAt k).reserved = some e then { s.slotAt k with reserved := none } else s.slotAt k := by
  obtain ⟨R, E, ended⟩ := endHeldPartner_eq s e .failed (some c)
  obtain ⟨v, dropped⟩ := dropSpliceRefs_eq (s.endHeldPartner e .failed (some c))
    ((s.endHeldPartner e .failed (some c)).entry e).edits
  have same : ((s.endHeldPartner e .failed (some c)).dropSpliceRefs
      ((s.endHeldPartner e .failed (some c)).entry e).edits).slotAt k = s.slotAt k := by
    rw [dropped, ended]
    rfl
  unfold State.releasing
  dsimp only
  rw [slotAt_passReservations, same]

theorem entry_failEntry (stage : (s.entry e).state.stage = 1) (p : s.pairsLaw) (c : Code) (d : Nat) :
    (s.failEntry e c).entry d = if d = e then ((s.entry e).executed s.clock 0 0).ended .failed (some c)
      else if (s.entry e).heir = some d then (s.entry d).ended .failed (some c) else s.entry d := by
  have own : (s.releasing e c).entry e = s.entry e := by
    rw [entry_releasing stage p]
    exact if_neg fun h => (held_of_heir stage p h).2.2 rfl
  have clock : (s.releasing e c).clock = s.clock := by rw [releasing_frame]
  rw [failEntry_eq, entry_raise, entry_freeEntry, own, clock, entry_setEntry, entry_setEntry, if_pos rfl]
  by_cases h : e = d
  · rw [if_pos h, if_pos h.symm]
    rfl
  · rw [if_neg h, if_neg h, if_neg (Ne.symm h), entry_releasing stage p]
    rfl

theorem failEntry_frame (s : State) (e : Nat) (c : Code) : s.failEntry e c = { s with
    entries := (s.failEntry e c).entries, records := (s.releasing e c).records, slots := (s.releasing e c).slots
    attention := (s.raise .spliceFailed e).attention, attn := (s.raise .spliceFailed e).attn } := by
  have frame := releasing_frame s e c
  rw [failEntry_eq]
  generalize s.releasing e c = v at frame
  obtain ⟨a, b, raised⟩ := raise_eq ((v.setEntry e ((v.entry e).executed v.clock 0 0)).freeEntry e .failed (some c))
    .spliceFailed e
  obtain ⟨attention, attn⟩ := raise_congr (s := s)
    (t := (v.setEntry e ((v.entry e).executed v.clock 0 0)).freeEntry e .failed (some c))
    (by rw [frame]; rfl) (by rw [frame]; rfl) (by rw [frame]; rfl) .spliceFailed e
  rw [← attention, ← attn, raised]
  exact congrArg (fun z : State => { z with
    entries := ((v.setEntry e ((v.entry e).executed v.clock 0 0)).freeEntry e .failed (some c)).entries
    attention := a, attn := b }) frame

theorem executionFailed_failEntry (stage : (s.entry e).state.stage = 1) (p : s.pairsLaw) (c : Code) :
    s.executionFailed (s.failEntry e c) e c := by
  have frame := failEntry_frame s e c
  have records : (s.failEntry e c).records = (s.releasing e c).records := by rw [frame]
  have slots : (s.failEntry e c).slots = (s.releasing e c).slots := by rw [frame]
  refine ⟨?_, fun d => ?_, fun h => ?_, fun f hf i hi => ?_⟩
  · rw [records, slots]
    exact frame
  · rw [heldReturn_eq stage p]
    exact entry_failEntry stage p c d
  · rw [heldReturn_eq stage p]
    have record := record?_releasing stage p c h
    unfold State.record? at record ⊢
    rw [records]
    exact record
  · have key : slotKey f i < 384 := by unfold slotKey; omega
    have slot := slotAt_releasing (s := s) (e := e) c (slotKey f i)
    simp only [key, true_and] at slot
    unfold State.slotAt at slot
    unfold State.slot State.slotAt
    rw [slots]
    exact slot

end

end Sys2Proof.Machine
end

