-- ==== Sys2Proof/Proofs/Occurrences.lean ====
section
/-! Occurrences of matchers on settled tables, and the executions that they set going (R145 to R153). -/

namespace Sys2Proof.Machine

section
variable {s t u : State} {e : Nat}

/-! ### The execution of an entry whose count an occurrence has lowered -/

/-- The entry with its remaining count as an occurrence leaves it. -/
def Entry.counted (x : Entry) (left : Option Nat) : Entry := { x with remaining := left }

theorem entry_counted_other {n : Nat} (left : Option Nat) (other : n ≠ e) :
    (s.setEntry e ((s.entry e).counted left)).entry n = s.entry n := by
  rw [entry_setEntry, if_neg (Ne.symm other)]

theorem entry_counted_own (left : Option Nat) :
    (s.setEntry e ((s.entry e).counted left)).entry e = (s.entry e).counted left := by
  rw [entry_setEntry, if_pos rfl]

theorem heldReturn_counted (own : (s.entry e).heir ≠ some e) (left : Option Nat) :
    (s.setEntry e ((s.entry e).counted left)).heldReturn ((s.entry e).counted left) = s.heldReturn (s.entry e) := by
  change (if (s.entry e).role = some .original then Option.filter _ (s.entry e).partner else none)
    = if (s.entry e).role = some .original then Option.filter _ (s.entry e).partner else none
  split
  · next role =>
    cases hn : (s.entry e).partner with
    | none => rfl
    | some n =>
      have other : n ≠ e := fun h => own ((heir_iff _ e).2 ⟨role, h ▸ hn⟩)
      rw [Option.filter_some, Option.filter_some, entry_counted_other left other]
  · rfl

theorem heldReturn_ne (own : (s.entry e).heir ≠ some e) {n : Nat} (h : s.heldReturn (s.entry e) = some n) : n ≠ e := by
  rintro rfl
  refine own ?_
  change (if (s.entry n).role = some .original then Option.filter _ (s.entry n).partner else none) = some n at h
  split at h
  · next role =>
    rw [Option.filter_eq_some_iff] at h
    exact (heir_iff _ n).2 ⟨role, h.1⟩
  · cases h

theorem executionFailed_of_counted {left : Option Nat} {c : Code} (own : (s.entry e).heir ≠ some e)
    (h : (s.setEntry e ((s.entry e).counted left)).executionFailed u e c) : s.executionFailed u e c := by
  obtain ⟨frame, entries, records, slots⟩ := h
  obtain ⟨attention, attn⟩ := raise_congr (s := s) (t := s.setEntry e ((s.entry e).counted left)) rfl rfl rfl
    .spliceFailed e
  simp only [entry_counted_own, heldReturn_counted own, attention, attn] at frame entries records
  refine ⟨frame, fun d => (entries d).trans ?_, fun h => (records h).trans ?_, slots⟩
  · split
    · rfl
    · next hd => rw [entry_counted_other left hd]
  · have same : (s.heldReturn (s.entry e)).map (fun n => ((s.setEntry e ((s.entry e).counted left)).entry n).edits)
        = (s.heldReturn (s.entry e)).map fun n => (s.entry n).edits :=
      Option.map_congr fun n hn => by rw [entry_counted_other left (heldReturn_ne own hn)]
    rw [same]
    rfl

theorem trackers_counted (left : Option Nat) (f i : Nat) :
    (s.setEntry e ((s.entry e).counted left)).trackers f i = s.trackers f i := by
  unfold State.trackers
  refine List.filter_congr fun d _ => ?_
  by_cases h : d = e
  · rw [h, entry_counted_own]
    rfl
  · rw [entry_counted_other left h]

theorem executionPassed_of_counted {left : Option Nat} {l : List SlotEdit} {k : Nat} (own : (s.entry e).heir ≠ some e)
    (h : (s.setEntry e ((s.entry e).counted left)).executionPassed u e l k) : s.executionPassed u e l k := by
  obtain ⟨frame, slots, records, follow, marks, ⟨keys, listed, pairs⟩, ⟨gone, leaving, reports⟩, ends, switching, heirs,
    others⟩ := h
  have reads : State.readsAs (s.setEntry e ((s.entry e).counted left)) s := fun _ => rfl
  obtain ⟨attention, attn⟩ := raise_congr (s := s) (t := s.setEntry e ((s.entry e).counted left)) rfl rfl rfl
    .spliceDone e
  simp only [entry_counted_own, attention, attn] at slots records ends switching heirs others
  simp only [trackers_counted] at leaving reports
  refine ⟨frame, fun f hf i hi => (slots f hf i hi).trans ?_, records, follow, marks,
    ⟨keys, listed, pairs.trans (foldl_reportEvent_readsAs reads rfl keys _ _)⟩, ⟨gone, leaving, reports⟩, ends,
    fun f hf i hi waits => ?_, fun n hn => (heirs n hn).trans ?_, fun d hd other => (others d hd other).trans ?_⟩
  · have same : ((s.setEntry e ((s.entry e).counted left)).rebind f i
        (lastBinding (s.setEntry e ((s.entry e).counted left)) l f i)).slot f i
        = (s.rebind f i (lastBinding s l f i)).slot f i :=
      slotAt_rebind_readsAs reads.symm rfl rfl rfl (lastBinding s l f i)
    rw [same]
    rfl
  · obtain ⟨a, b, left, occurredA, occurredB, tracked, switched, mem⟩ := switching f hf i hi waits
    exact ⟨a, b, left, occurredA, occurredB, tracked, switched, mem⟩
  · have other : n ≠ e := fun h => own (h ▸ hn)
    rw [entry_counted_other left other]
    rfl
  · exact entry_counted_other left hd

/-! ### Settled tables -/

theorem settled_setEntry {y : Entry} (use : y.use = (s.entry e).use) (h : s.settled) : (s.setEntry e y).settled := by
  obtain ⟨c, counts, ⟨stored, edits, planned⟩, due, noUpdates⟩ := h
  refine ⟨(kept_setEntry s e y).canonical c, lawful_countLaw.entry s e y c use counts, ⟨stored, fun d => ?_, planned⟩,
    due, noUpdates⟩
  rw [entry_setEntry]
  split
  · rw [show y.edits = (s.entry e).edits from congrArg (·.2.1) use]
    exact edits e
  · exact edits d

/-- Tables with the waiting edits of `s`, and with bindings in range, are in range. -/
theorem rangeLaw_of_edits (h : s.rangeLaw) (stored : ∀ r, t.ws r = s.ws r)
    (edits : ∀ d, (t.entry d).edits = (s.entry d).edits ∨ (t.entry d).edits = [])
    (planned : ∀ k b, (t.slotAt k).planned = some b → 0x20 ≤ b.base ∧ b.base ≤ 0x1FF7) : t.rangeLaw := by
  refine ⟨fun r => ?_, fun d => ?_, planned⟩
  · rw [stored]
    exact h.1 r
  · rcases edits d with same | none
    · rw [same]
      exact h.2.1 d
    · rw [none]
      nofun

section
variable {q : Picture}

theorem edits_passEntry (stage : (s.entry e).state.stage = 1) (p : s.pairsLaw) (d : Nat) :
    ((s.passEntry e q).entry d).edits = (s.entry d).edits ∨ ((s.passEntry e q).entry d).edits = [] := by
  by_cases own : d = e
  · rw [passEntry_eq, own]
    have entry := entry_armed_own (q := q) stage p
    generalize (s.executing e q).armReturn e = a at entry
    by_cases none : a.pendingSlots (a.entry e).edits = []
    · rw [finishEntry_of_none _ _ none, entry_raise, entry_freeEntry, if_pos rfl]
      exact .inr rfl
    · rw [finishEntry_of_some _ _ none, entry_setEntry, if_pos rfl, entry]
      exact .inl rfl
  · rw [entry_passEntry q own]
    split
    · exact .inl rfl
    · exact .inl rfl

theorem binding_of_lastEdit {l : List SlotEdit} {k : Nat} {b : Option Binding} (h : lastEdit l k = some b) :
    ∃ d ∈ l, d.binding = b := by
  unfold lastEdit at h
  rw [Option.map_eq_some_iff] at h
  obtain ⟨d, last, rfl⟩ := h
  exact ⟨d, (List.mem_filter.1 (List.mem_of_getLast? last)).1, rfl⟩

theorem rangeLaw_passEntry (noUpdates : s.updates = []) (stage : (s.entry e).state.stage = 1)
    (judged : judgeEntry s (s.entry e) = .ok q) (p : s.pairsLaw) (h : s.rangeLaw) : (s.passEntry e q).rangeLaw := by
  refine rangeLaw_of_edits h (fun r => ?_) (edits_passEntry stage p) fun k b hb => ?_
  · exact ws_of_ws ⟨by rw [passEntry_frame noUpdates], by rw [passEntry_frame noUpdates]⟩ r
  · obtain ⟨n, slot⟩ := slotAt_passEntry_reserved (s := s) (e := e) (q := q) k
    rw [slot] at hb
    replace hb := (planned_writeBindings _ k).symm.trans hb
    cases last : lastEdit (q.applied.filterMap Edit.slotEdit?) k with
    | none =>
      rw [last] at hb
      exact h.2.2 k b hb
    | some x =>
      rw [last, Option.getD_some] at hb
      obtain ⟨d, hd, binding⟩ := binding_of_lastEdit last
      exact (h.2.1 e d (mem_edits_of_applied judged d hd)).2.2 b (binding.trans hb)

theorem rangeLaw_failEntry (stage : (s.entry e).state.stage = 1) (p : s.pairsLaw) (c : Code) (h : s.rangeLaw) :
    (s.failEntry e c).rangeLaw := by
  refine rangeLaw_of_edits h (fun r => ?_) (fun d => ?_) fun k b hb => ?_
  · exact ws_of_ws ⟨by rw [failEntry_frame], by rw [failEntry_frame]⟩ r
  · rw [entry_failEntry stage p]
    repeat' split
    · exact .inr rfl
    · exact .inr rfl
    · exact .inl rfl
  · have slots : (s.failEntry e c).slots = (s.releasing e c).slots := by rw [failEntry_frame]
    have slot := slotAt_releasing (s := s) (e := e) c k
    unfold State.slotAt at hb slot
    rw [slots, slot] at hb
    refine h.2.2 k b ?_
    split at hb
    · exact hb
    · exact hb

end

/-! ### Executions (R149 to R153) -/

theorem tablesReady_of_settled (h : s.settled) : s.tablesReady = s := by
  obtain ⟨-, -, -, due, noUpdates⟩ := h
  unfold State.tablesReady
  rw [settleCtab_of_nil s due, takeUpdates_nil s noUpdates]

theorem execute_of_ok {q : Picture} (h : s.settled) (judged : judgeEntry s (s.entry e) = .ok q) :
    s.execute e = s.passEntry e q := by
  unfold State.execute
  rw [tablesReady_of_settled h]
  dsimp only
  rw [judged]

theorem execute_of_error {f : Failure} (h : s.settled) (judged : judgeEntry s (s.entry e) = .error f) :
    s.execute e = s.failEntry e f.code := by
  unfold State.execute
  rw [tablesReady_of_settled h]
  dsimp only
  rw [judged]

theorem executes_execute (h : s.settled) (stage : (s.entry e).state.stage = 1) : s.executes (s.execute e) e := by
  obtain ⟨-, pairs, -⟩ := (countLaw_iff s).1 h.2.1
  have laws := h
  obtain ⟨c, counts, ⟨-, edits, -⟩, -, noUpdates⟩ := laws
  refine ⟨fun f judged => ?_, fun q judged => ?_⟩
  · rw [execute_of_error h judged]
    exact executionFailed_failEntry stage pairs f.code
  · rw [execute_of_ok h judged]
    exact executionPassed_passEntry c noUpdates stage judged counts fun d hd =>
      ⟨(edits e d hd).1, (edits e d hd).2.1⟩

theorem settled_execute (h : s.settled) (stage : (s.entry e).state.stage = 1) : (s.execute e).settled := by
  obtain ⟨-, pairs, -⟩ := (countLaw_iff s).1 h.2.1
  have laws := h
  obtain ⟨c, counts, range, due, noUpdates⟩ := laws
  obtain ⟨kept, lawful⟩ := runs_execute s stage
  refine ⟨kept.canonical c, lawful _ lawful_countLaw c counts, ?_⟩
  cases judged : judgeEntry s (s.entry e) with
  | error f =>
    rw [execute_of_error h judged]
    refine ⟨rangeLaw_failEntry stage pairs f.code range, ?_, ?_⟩
    · rw [failEntry_frame]
      exact due
    · rw [failEntry_frame]
      exact noUpdates
  | ok q =>
    rw [execute_of_ok h judged]
    refine ⟨rangeLaw_passEntry noUpdates stage judged pairs range, ?_, ?_⟩
    · rw [passEntry_frame noUpdates]
      exact due
    · rw [passEntry_frame noUpdates]
      exact noUpdates

/-- The execution of an entry whose count the occurrence has lowered is that of the entry. -/
theorem executes_counted {left : Option Nat} (h : s.settled) (stage : (s.entry e).state.stage = 1) :
    s.executes ((s.setEntry e ((s.entry e).counted left)).execute e) e := by
  have settled : (s.setEntry e ((s.entry e).counted left)).settled := settled_setEntry rfl h
  obtain ⟨-, pairs, -⟩ := (countLaw_iff s).1 h.2.1
  have own : (s.entry e).heir ≠ some e := fun heir => (held_of_heir stage pairs heir).2.2 rfl
  have entry := entry_counted_own (s := s) (e := e) left
  obtain ⟨fails, passes⟩ := executes_execute settled (e := e) (by rw [entry]; exact stage)
  rw [entry, judgeEntry_setEntry s e _ (x := s.entry e) (z := (s.entry e).counted left) rfl rfl] at fails passes
  refine ⟨fun f judged => ?_, fun q judged => ?_⟩
  · exact executionFailed_of_counted own (fails f (by rw [judged]; rfl))
  · exact executionPassed_of_counted own (passes (q.withEntry e _) (by rw [judged]; rfl))

/-! ### Occurrences (R146 to R148) -/

section
variable {x y : Entry} {m : MatcherName}

/-- An occurrence that lowers the remaining count (R146 to R148). -/
theorem hear_of_lowers {t : Trigger} {n : Nat} (trigger : x.trigger = some t) (left : x.remaining = some n)
    (modes : t.mode = .sole ∨ t.mode = .either ∨ (t.mode = .orDeadline ∧ m = .a)
      ∨ ((t.mode = .after ∨ t.mode = .countThen) ∧ x.state = .primed)) :
    x.hear m = ({ x with remaining := some (n - 1) }, n - 1 == 0) := by
  unfold Entry.hear
  rw [trigger, left]
  dsimp only [Option.getD_some]
  rcases modes with mode | mode | ⟨mode, rfl⟩ | ⟨mode | mode, primed⟩
  · rw [mode]
  · rw [mode]
  · rw [mode]
  · rw [mode, primed]
  · rw [mode, primed]

theorem hear_of_counts (h : x.counts m y) : x.hear m = (y, false) := by
  obtain ⟨t, trigger, ⟨mode, state, rfl, rfl⟩ | ⟨n, mode, state, rfl, left, rfl⟩ | ⟨n, left, modes, rfl⟩⟩ := h
  · unfold Entry.hear
    rw [trigger]
    dsimp only
    rw [mode, state]
  · unfold Entry.hear
    rw [trigger]
    dsimp only
    rw [mode, state, left]
    dsimp only [Option.getD_some]
    by_cases last : n ≤ 1
    · rw [if_pos (by omega), if_pos last]
    · rw [if_neg (by omega), if_neg last]
  · exact hear_of_lowers trigger left modes

theorem hear_of_completes (h : x.completes m) : (x.hear m).2 = true := by
  obtain ⟨t, trigger, ⟨mode, rfl⟩ | ⟨left, modes⟩⟩ := h
  · unfold Entry.hear
    rw [trigger]
    dsimp only
    rw [mode]
  · rw [hear_of_lowers trigger left modes]
    rfl

/-- An occurrence that completes the trigger changes no more than the count. -/
theorem hear_eq_counted (h : (x.hear m).2 = true) : ∃ left, (x.hear m).1 = x.counted left := by
  obtain ⟨p, heard⟩ : ∃ p, x.hear m = p := ⟨_, rfl⟩
  rw [heard] at h ⊢
  unfold Entry.hear at heard
  split at heard
  · subst heard
    cases h
  · dsimp only at heard
    split at heard
    · subst heard
      exact ⟨x.remaining, rfl⟩
    · subst heard
      cases h
    · split at heard
      · subst heard
        cases h
      · subst heard
        cases h
    all_goals
      subst heard
      exact ⟨_, rfl⟩

end

theorem occur_of_completes {m : MatcherName} (h : ((s.entry e).hear m).2 = true) :
    s.occur e m = (s.setEntry e ((s.entry e).hear m).1).execute e := by
  unfold State.occur
  dsimp only
  exact if_pos h

theorem occur_of_counts {m : MatcherName} (h : ((s.entry e).hear m).2 = false) :
    s.occur e m = s.setEntry e ((s.entry e).hear m).1 := by
  unfold State.occur
  dsimp only
  exact if_neg (by rw [h]; nofun)

theorem occurs_occur (h : s.settled) (stage : (s.entry e).state.stage = 1) (m : MatcherName) :
    s.occurs (s.occur e m) e m := by
  refine ⟨fun y counts => ?_, fun completes => ?_⟩
  · have heard := hear_of_counts counts
    rw [occur_of_counts (by rw [heard]), heard]
  · have done := hear_of_completes completes
    obtain ⟨left, counted⟩ := hear_eq_counted done
    rw [occur_of_completes done, counted]
    exact executes_counted h stage

theorem settled_occur (h : s.settled) (stage : (s.entry e).state.stage = 1) (m : MatcherName) :
    (s.occur e m).settled := by
  have use := use_hear stage m
  have heard := settled_setEntry use h
  cases done : ((s.entry e).hear m).2 with
  | false =>
    rw [occur_of_counts done]
    exact heard
  | true =>
    rw [occur_of_completes done]
    refine settled_execute heard ?_
    rw [entry_setEntry, if_pos rfl]
    exact (congrArg (·.1) use).trans stage

end

end Sys2Proof.Machine
end

