-- ==== Sys2Proof/Proofs/ClockTests.lean ====
section
/-! Ticks of the station clock, cues that mature and TIME matchers that occur (O34). -/

namespace Sys2Proof.Machine

section
variable {s t u : State} {e : Nat} {c : Cue} {m : MatcherName}

/-! ### Cues offered (R144) -/

theorem stage_of_hearsCue (h : (s.entry e).hearsCue c m = true) : (s.entry e).state.stage = 1 := by
  unfold Entry.hearsCue at h
  rw [Bool.and_eq_true] at h
  exact stage_of_listens h.1

theorem stage_of_timeDue (h : s.timeDue e m = true) : (s.entry e).state.stage = 1 := by
  unfold State.timeDue at h
  dsimp only at h
  rw [Bool.and_eq_true, Bool.and_eq_true] at h
  exact stage_of_listens h.1.1

theorem offerTo_of_unheard (a : (s.entry e).hearsCue c .a = false) (b : (s.entry e).hearsCue c .b = false) :
    s.offerTo c e = s := by
  unfold State.offerTo
  dsimp only
  rw [a, b]

theorem offerTo_of_a (a : (s.entry e).hearsCue c .a = true) (b : (s.entry e).hearsCue c .b = false) :
    s.offerTo c e = s.occur e .a := by
  unfold State.offerTo
  dsimp only
  rw [a, b]

theorem offerTo_of_b (a : (s.entry e).hearsCue c .a = false) (b : (s.entry e).hearsCue c .b = true) :
    s.offerTo c e = s.occur e .b := by
  unfold State.offerTo
  dsimp only
  rw [a, b]

theorem offerTo_of_both (a : (s.entry e).hearsCue c .a = true) (b : (s.entry e).hearsCue c .b = true) : s.offerTo c e
    = if ((s.entry e).hear .a).2 then s.occur e .a else (s.occur e .a).occur e .b := by
  unfold State.offerTo
  dsimp only
  rw [a, b]

/-- An occurrence that does not complete the trigger leaves the entry waiting. -/
theorem stage_occur (stage : (s.entry e).state.stage = 1) (counts : ((s.entry e).hear m).2 = false) :
    ((s.occur e m).entry e).state.stage = 1 := by
  rw [occur_of_counts counts, entry_setEntry, if_pos rfl]
  exact (congrArg (·.1) (use_hear stage m)).trans stage

/-- An entry without a trigger hears nothing. -/
theorem occurs_of_no_trigger (none : (s.entry e).trigger = none) : s.occurs u e m := by
  refine ⟨fun y counts => ?_, fun completes => ?_⟩
  · obtain ⟨t, trigger, -⟩ := counts
    rw [none] at trigger
    cases trigger
  · obtain ⟨t, trigger, -⟩ := completes
    rw [none] at trigger
    cases trigger

theorem offeredTo_offerTo (h : s.settled) (c : Cue) (e : Nat) : s.offeredTo (s.offerTo c e) c e := by
  refine ⟨fun a b => offerTo_of_unheard a b, fun a b => ?_, fun a b => ?_, fun a b => ?_⟩
  · rw [offerTo_of_a a b]
    exact occurs_occur h (stage_of_hearsCue a) .a
  · rw [offerTo_of_b a b]
    exact occurs_occur h (stage_of_hearsCue b) .b
  · have stage := stage_of_hearsCue a
    rw [offerTo_of_both a b]
    cases done : ((s.entry e).hear .a).2 with
    | false =>
      refine ⟨s.occur e .a, occurs_occur h stage .a, fun completes => ?_, fun _ => ?_⟩
      · rw [hear_of_completes completes] at done
        cases done
      · exact occurs_occur (settled_occur h stage .a) (stage_occur stage done) .b
    | true =>
      by_cases completes : (s.entry e).completes .a
      · exact ⟨s.occur e .a, occurs_occur h stage .a, fun _ => rfl, fun other => absurd completes other⟩
      · -- The count stands at 0, where the statement leaves the occurrence of A open.
        refine ⟨(s.occur e .a).setEntry e .start, ⟨fun y counts => ?_, fun h => absurd h completes⟩,
          fun h => absurd h completes, fun _ => occurs_of_no_trigger ?_⟩
        · rw [hear_of_counts counts] at done
          cases done
        · rw [entry_setEntry, if_pos rfl]
          rfl

theorem settled_offerTo (h : s.settled) (c : Cue) (e : Nat) : (s.offerTo c e).settled := by
  cases a : (s.entry e).hearsCue c .a with
  | false =>
    cases b : (s.entry e).hearsCue c .b with
    | false => exact (offerTo_of_unheard a b).symm ▸ h
    | true => exact (offerTo_of_b a b).symm ▸ settled_occur h (stage_of_hearsCue b) .b
  | true =>
    have stage := stage_of_hearsCue a
    have first := settled_occur h stage .a
    cases b : (s.entry e).hearsCue c .b with
    | false => exact (offerTo_of_a a b).symm ▸ first
    | true =>
      rw [offerTo_of_both a b]
      cases done : ((s.entry e).hear .a).2 with
      | true => exact first
      | false => exact settled_occur first (stage_occur stage done) .b

/-! ### One act after another -/

section
variable {α : Type} {R : α → State → State → Prop} {f : State → α → State}

theorem settled_foldl (keeps : ∀ v a, v.settled → (f v a).settled) (l : List α) (h : s.settled) :
    (l.foldl f s).settled := by
  induction l generalizing s with
  | nil => exact h
  | cons a l ih => exact ih (keeps s a h)

theorem inTurn_foldl (step : ∀ v a, v.settled → R a v (f v a)) (keeps : ∀ v a, v.settled → (f v a).settled) (l : List α)
    (h : s.settled) : inTurn R l s (l.foldl f s) := by
  induction l generalizing s with
  | nil => rfl
  | cons a l ih => exact ⟨f s a, step s a h, ih (keeps s a h)⟩

end

theorem settled_offerCue (h : s.settled) (c : Cue) : (s.offerCue c).settled :=
  settled_foldl (fun _ e hv => settled_offerTo hv c e) _ h

theorem cueOffered_offerCue (h : s.settled) (c : Cue) : s.cueOffered (s.offerCue c) c := by
  have same : ((List.range 64).filter fun e => decide ((s.entry e).state = .armed ∨ (s.entry e).state = .primed))
      = (List.range Config.spliceEntries).filter fun e =>
        (s.entry e).state == .armed || (s.entry e).state == .primed :=
    List.filter_congr fun e _ => by
      rw [Bool.eq_iff_iff, decide_eq_true_eq, Bool.or_eq_true, beq_iff_eq, beq_iff_eq]
  unfold State.cueOffered State.offerCue
  rw [same]
  exact inTurn_foldl (fun _ e hv => offeredTo_offerTo hv c e) (fun _ e hv => settled_offerTo hv c e) _ h

/-- A cue that no entry hears changes nothing. -/
theorem offerCue_of_unheard (h : ∀ e < 64, ∀ m, (s.entry e).hearsCue c m = false) : s.offerCue c = s := by
  unfold State.offerCue
  have mem : ∀ e ∈ (List.range Config.spliceEntries).filter fun e =>
      (s.entry e).state == .armed || (s.entry e).state == .primed, e < 64 := fun e he =>
    List.mem_range.1 (List.mem_filter.1 he).1
  generalize (List.range Config.spliceEntries).filter _ = l at mem
  induction l with
  | nil => rfl
  | cons e l ih =>
    have unheard := h e (mem e (List.mem_cons_self ..))
    rw [List.foldl_cons, offerTo_of_unheard (unheard .a) (unheard .b)]
    exact ih fun d hd => mem d (List.mem_cons_of_mem _ hd)

/-! ### TIME matchers tested (R141, R145) -/

theorem timeOccurs_of_due (h : s.timeDue e m = true) :
    s.timeOccurs e m = (s.setEntry e ((s.entry e).markOccurred m)).occur e m := if_pos h

theorem timeOccurs_of_not_due (h : s.timeDue e m = false) : s.timeOccurs e m = s := if_neg (by rw [h]; nofun)

theorem use_markOccurred (x : Entry) (m : MatcherName) : (x.markOccurred m).use = x.use := by
  cases m <;> rfl

theorem settled_markOccurred (h : s.settled) (e : Nat) (m : MatcherName) :
    (s.setEntry e ((s.entry e).markOccurred m)).settled := settled_setEntry (use_markOccurred _ m) h

theorem stage_markOccurred (stage : (s.entry e).state.stage = 1) (m : MatcherName) :
    ((s.setEntry e ((s.entry e).markOccurred m)).entry e).state.stage = 1 := by
  rw [entry_setEntry, if_pos rfl]
  exact (congrArg (·.1) (use_markOccurred (s.entry e) m)).trans stage

theorem timeTested_timeOccurs (h : s.settled) (e : Nat) (m : MatcherName) : s.timeTested (s.timeOccurs e m) e m := by
  refine ⟨timeOccurs_of_not_due, fun due => ?_⟩
  rw [timeOccurs_of_due due]
  exact occurs_occur (settled_markOccurred h e m) (stage_markOccurred (stage_of_timeDue due) m) m

theorem settled_timeOccurs (h : s.settled) (e : Nat) (m : MatcherName) : (s.timeOccurs e m).settled := by
  cases due : s.timeDue e m with
  | false => exact (timeOccurs_of_not_due due).symm ▸ h
  | true =>
    rw [timeOccurs_of_due due]
    exact settled_occur (settled_markOccurred h e m) (stage_markOccurred (stage_of_timeDue due) m) m

theorem timesTested_testTimes (h : s.settled) : s.timesTested s.testTimes :=
  inTurn_foldl (R := fun (x : Nat × MatcherName) v w => v.timeTested w x.1 x.2) (f := fun s x => s.timeOccurs x.1 x.2)
    (fun _ x hv => timeTested_timeOccurs hv x.1 x.2) (fun _ x hv => settled_timeOccurs hv x.1 x.2) _ h

/-! ### The tests of the clock (R35, R141, R142) -/

theorem settled_cues (h : s.settled) (l : List Cue) : ({ s with cues := l } : State).settled := h

theorem clockTested_testClock (h : s.settled) : s.clockTested s.testClock := by
  have rest := settled_cues h (s.cues.filter fun c => !s.clockReached c.maturity)
  have matured : s.matureCues.settled := settled_foldl (fun _ c hv => settled_offerCue hv c) _ rest
  exact ⟨s.matureCues, inTurn_foldl (R := fun c v w => v.cueOffered w c) (fun _ c hv => cueOffered_offerCue hv c)
    (fun _ c hv => settled_offerCue hv c) _ rest, timesTested_testTimes matured⟩

theorem testClock_of_none (times : ∀ e m, s.timeDue e m = false) (cues : ∀ c ∈ s.cues, s.clockReached c.maturity = false) :
    s.testClock = s := by
  unfold State.testClock
  rw [matureCues_of_none cues, testTimes_of_none s times]

/-- The state as a tick finds the clock moved on. -/
def State.ticked (s : State) : State := { s with clock := s.clock + 1, uptime := s.uptime + 1 }

theorem exec_stationClockTick (awake : s.phase ≠ .asserted) (idle : s.spsIdle) :
    exec .stationClockTick s = .next s.ticked.testClock.takeReports := by
  change Host.Outcome.next (s.awake _) = _
  rw [awake_of_not_asserted awake]
  dsimp only
  rw [spsReady_of_idle s idle]
  rfl

theorem settled_ticked (h : s.settled) : s.ticked.settled := h

/-! ### The first cue that has been reached (R35) -/

theorem cueMatured_of_none (awake : s.phase ≠ .asserted) (idle : s.spsIdle)
    (waiting : ∀ c ∈ s.cues, s.clockReached c.maturity = false) : exec .cueMatured s = .next s := by
  have first : s.cues.find? (fun c => s.clockReached c.maturity) = none :=
    List.find?_eq_none.2 fun c hc => by rw [waiting c hc]; nofun
  change Host.Outcome.next (s.awake _) = _
  rw [awake_of_not_asserted awake]
  dsimp only
  rw [spsReady_of_idle s idle, first]

theorem cueMatured_of_first {l r : List Cue} (awake : s.phase ≠ .asserted) (idle : s.spsIdle) (cues : s.cues = l ++ c :: r)
    (before : ∀ d ∈ l, s.clockReached d.maturity = false) (reached : s.clockReached c.maturity = true) :
    exec .cueMatured s = .next (({ s with cues := l ++ r } : State).offerCue c).takeReports := by
  have first : s.cues.find? (fun c => s.clockReached c.maturity) = some c := by
    have none : l.find? (fun c => s.clockReached c.maturity) = none :=
      List.find?_eq_none.2 fun d hd => by rw [before d hd]; nofun
    rw [cues, List.find?_append, none, Option.none_or]
    exact List.find?_cons_of_pos reached
  have rest : s.cues.erase c = l ++ r := by
    have other : c ∉ l := fun hc => by
      rw [before c hc] at reached
      cases reached
    rw [cues, List.erase_append_right _ other, List.erase_cons_head]
  change Host.Outcome.next (s.awake _) = _
  rw [awake_of_not_asserted awake]
  dsimp only
  rw [spsReady_of_idle s idle, first]
  dsimp only
  rw [rest]

/-! ### SET STATION TIME (R142) -/

theorem core_accepted (s : State) (n : Nat) : (s.accepted n).core = s.core := by
  have site : (s.accepted n).siteWs.core = s.siteWs.core := by
    change Workspace.core (if 1 ≤ s.siteWs.depth then { s.siteWs with idle := some s.uptime } else s.siteWs) = _
    split <;> rfl
  exact congrArg (fun w => (s.records, s.smap, s.slots, s.updates, s.entries, w, s.netWs.core)) site

theorem settled_accepted (h : s.settled) (n : Nat) : (s.accepted n).settled := by
  obtain ⟨c, counts, ⟨stored, edits, planned⟩, due, noUpdates⟩ := h
  have core := core_accepted s n
  refine ⟨c, lawful_countLaw.frame s _ core.symm counts, ⟨fun r => ?_, edits, planned⟩, due, noUpdates⟩
  rw [show ((s.accepted n).ws r).edits = (s.ws r).edits from congrArg (·.2.1) (core_ws core r)]
  exact stored r

theorem settled_clock (h : s.settled) (now : StationTime) : ({ s with clock := now } : State).settled := h

theorem exec_setStationTime {n : Nat} (ready : s.ready) (range : n < 2 ^ 33) :
    exec (.setStationTime (requestFrame 0x32#8 (packed [(5, n)]))) s
      = .next (({ s.accepted 5 with clock := BitVec.ofNat 33 n } : State).testClock.takeReports.replied 0x32#8
        (.taken [])) := by
  refine exec_packed (n := 5) (owner := ownSetStationTime) ready rfl (by decide) ?_
  unfold ownSetStationTime State.setClock
  rw [fields_one (by omega)]
  dsimp only
  rw [if_pos range, spsReady_accepted s ready 5]

end

/-- Settles O34. -/
theorem ticksMoveTheClockAndCuesMature : Obligations.TicksMoveTheClockAndCuesMature := by
  refine ⟨fun s awake idle => ⟨fun h => ?_, fun times cues => ?_, cueMatured_of_none awake idle,
    fun l r c cues before reached unheard => ?_⟩, fun n s ready h range => ?_⟩
  · exact ⟨_, clockTested_testClock (settled_ticked h), exec_stationClockTick awake idle⟩
  · rw [exec_stationClockTick awake idle, testClock_of_none (s := s.ticked) times cues,
      takeReports_of_nil s.ticked idle.1]
    rfl
  · rw [cueMatured_of_first awake idle cues before reached,
      offerCue_of_unheard (s := { s with cues := l ++ r }) unheard,
      takeReports_of_nil { s with cues := l ++ r } idle.1]
  · exact ⟨_, clockTested_testClock (settled_clock (settled_accepted h 5) _), exec_setStationTime ready range⟩

end Sys2Proof.Machine
end

