-- ==== Sys2Proof/Proofs/Monitors.lean ====
section
/-! The source monitor (O37). -/

namespace Sys2Proof.Machine

section
variable {s : State} {h t : Nat} {x : Record} {d : DueAct}

/-! ### Notices of the monitor (R48, R57) -/

theorem reportLoss_eq (s : State) (h : Nat) :
    s.reportLoss h = { s.raise .sourceLost h with notices := s.notices ++ [.loss h] } := by
  obtain ⟨a, b, raised⟩ := raise_eq s .sourceLost h
  unfold State.reportLoss
  rw [raised]

theorem reportRestoration_eq (s : State) (h : Nat) :
    s.reportRestoration h = { s.raise .sourceRestored h with notices := s.notices ++ [.restoration h] } := by
  obtain ⟨a, b, raised⟩ := raise_eq s .sourceRestored h
  unfold State.reportRestoration
  rw [raised]

/-! ### The expiry of the loss window (R43) -/

theorem expireWindow_of_reached (found : s.record? h = some x) (timer : x.silence = some t)
    (reached : 90 * x.lossWindow ≤ s.uptime - t) : s.expireWindow h = s.loseSource h x := by
  unfold State.expireWindow
  rw [found]
  dsimp only
  rw [timer]
  exact if_pos ((reached_iff s t _).2 reached)

theorem expireWindow_of_early
    (early : ∀ x t, s.record? h = some x → x.silence = some t → s.uptime - t < 90 * x.lossWindow) :
    s.expireWindow h = s := by
  unfold State.expireWindow
  split
  · next x found =>
    split
    · next t timer => exact if_neg (Bool.eq_false_iff.1 ((reached_eq_false s t _).2 (early x t found timer)))
    · rfl
  · rfl

theorem loseSource_of_heard (state : x.state = .live ∨ x.state = .restoring) : s.loseSource h x
    = (s.setRecord h { x with state := .lost, silence := none, hold := none }).reportLoss h := by
  unfold State.loseSource
  rcases state with state | state <;> rw [state]

theorem loseSource_of_retiring (state : x.state = .retiring) : s.loseSource h x
    = if x.silentFlag = true then s.setRecord h { x with silence := none }
      else (s.setRecord h { x with silentFlag := true }).reportLoss h := by
  unfold State.loseSource
  rw [state]

theorem loseSource_of_unheard (state : x.state = .reserved ∨ x.state = .lost) : s.loseSource h x = s := by
  unfold State.loseSource
  rcases state with state | state <;> rw [state]

/-! ### The end of the restore hold (R44) -/

theorem endHold_of_restoring (found : s.record? h = some x) (state : x.state = .restoring) (timer : x.hold = some t) :
    s.endHold h = if 90 * x.restoreHold ≤ s.uptime - t then
      (s.setRecord h { x with state := .live, hold := none }).reportRestoration h else s := by
  unfold State.endHold
  rw [found]
  dsimp only
  rw [state, timer]
  exact if_congr (reached_iff s t _) rfl rfl

/-! ### What the monitor's acts write -/

theorem reportLoss_writes (s : State) (h : Nat) :
    ∃ n a b, s.reportLoss h = { s with notices := n, attention := a, attn := b } := by
  obtain ⟨a, b, raised⟩ := raise_eq s .sourceLost h
  exact ⟨_, a, b, by rw [reportLoss_eq, raised]⟩

theorem reportRestoration_writes (s : State) (h : Nat) :
    ∃ n a b, s.reportRestoration h = { s with notices := n, attention := a, attn := b } := by
  obtain ⟨a, b, raised⟩ := raise_eq s .sourceRestored h
  exact ⟨_, a, b, by rw [reportRestoration_eq, raised]⟩

theorem loseSource_writes (s : State) (h : Nat) (x : Record) :
    ∃ r n a b, s.loseSource h x = { s with records := r, notices := n, attention := a, attn := b } := by
  have reported : ∀ y, ∃ r n a b, (s.setRecord h y).reportLoss h
      = { s with records := r, notices := n, attention := a, attn := b } := fun y => by
    obtain ⟨n, a, b, eq⟩ := reportLoss_writes (s.setRecord h y) h
    exact ⟨_, n, a, b, eq⟩
  unfold State.loseSource
  split
  · exact reported _
  · exact reported _
  · split
    · exact ⟨_, _, _, _, rfl⟩
    · exact reported _
  · exact ⟨_, _, _, _, rfl⟩
  · exact ⟨_, _, _, _, rfl⟩

/-- An expiry or a hold's end writes records, notices and attention. -/
theorem takeDue_writes (s : State) (d : DueAct) :
    ∃ r n a b, s.takeDue d = { s with records := r, notices := n, attention := a, attn := b } := by
  cases d with
  | expiry h =>
    change ∃ r n a b, s.expireWindow h = _
    unfold State.expireWindow
    split
    · split
      · split
        · exact loseSource_writes s h _
        · exact ⟨_, _, _, _, rfl⟩
      · exact ⟨_, _, _, _, rfl⟩
    · exact ⟨_, _, _, _, rfl⟩
  | holdEnd h =>
    change ∃ r n a b, s.endHold h = _
    unfold State.endHold
    split
    · next x _ =>
      split
      · split
        · obtain ⟨n, a, b, eq⟩ :=
            reportRestoration_writes (s.setRecord h { x with state := .live, hold := none }) h
          exact ⟨_, n, a, b, eq⟩
        · exact ⟨_, _, _, _, rfl⟩
      · exact ⟨_, _, _, _, rfl⟩
    · exact ⟨_, _, _, _, rfl⟩

/-! ### Acts that a commit made due (R46) -/

/-- The first act due is taken, and then the others. -/
theorem settleCtab_cons {rest : List DueAct} (due : s.ctabDue = d :: rest) :
    s.settleCtab = ({ ({ s with ctabDue := [] } : State).takeDue d with ctabDue := rest } : State).settleCtab := by
  obtain ⟨r, n, a, b, taken⟩ := takeDue_writes { s with ctabDue := [] } d
  unfold State.settleCtab
  rw [due, List.foldl_cons, taken]

/-! ### The rows -/

theorem exec_lossWindowExpired (low : 1 ≤ h) (high : h ≤ 1023) (awake : s.phase ≠ .asserted) :
    exec (.lossWindowExpired h) s = .next (s.settleCtab.expireWindow h) := by
  refine (if_pos ((handleOk_iff h).2 ⟨low, high⟩)).trans ?_
  rw [awake_of_not_asserted awake]

theorem exec_restoreHoldEnded (low : 1 ≤ h) (high : h ≤ 1023) (awake : s.phase ≠ .asserted) :
    exec (.restoreHoldEnded h) s = .next (s.settleCtab.endHold h) := by
  refine (if_pos ((handleOk_iff h).2 ⟨low, high⟩)).trans ?_
  rw [awake_of_not_asserted awake]

/-- The rows of the monitor and of the on-air updates act on the state in which nothing is due any more. -/
theorem exec_after_due {c : Instr} (row : (∃ h, 1 ≤ h ∧ h ≤ 1023
      ∧ (c = .lossWindowExpired h ∨ c = .restoreHoldEnded h)) ∨ c = .onAirUpdate) :
    ∃ act : State → State, ∀ u : State, u.phase ≠ .asserted → exec c u = .next (act u.settleCtab) := by
  rcases row with ⟨h, low, high, rfl | rfl⟩ | rfl
  · exact ⟨fun v => v.expireWindow h, fun _ => exec_lossWindowExpired low high⟩
  · exact ⟨fun v => v.endHold h, fun _ => exec_restoreHoldEnded low high⟩
  · exact ⟨fun v => match v.updates with
      | u :: rest => { v with updates := rest }.takeUpdate u
      | [] => v, fun u awake => congrArg Host.Outcome.next (awake_of_not_asserted awake _)⟩

/-- An act that a commit made due is the first thing that such a row takes (R46). -/
theorem exec_takes_due {c : Instr} {rest : List DueAct} {act : State → State}
    (runs : ∀ u : State, u.phase ≠ .asserted → exec c u = .next (act u.settleCtab)) (awake : s.phase ≠ .asserted)
    (due : s.ctabDue = d :: rest) :
    exec c s = exec c { ({ s with ctabDue := [] } : State).takeDue d with ctabDue := rest } := by
  obtain ⟨r, n, a, b, taken⟩ := takeDue_writes { s with ctabDue := [] } d
  rw [runs s awake, settleCtab_cons due, runs]
  rw [taken]
  exact awake

/-! ### Packets of the principal component (R42, R44) -/

theorem countPacket_of_heard (found : s.record? h = some x) (state : x.state = .live ∨ x.state = .restoring) :
    s.countPacket h = s.setRecord h { x with silence := some s.uptime } := by
  unfold State.countPacket
  rw [found]
  dsimp only
  rcases state with state | state <;> rw [state]

theorem countPacket_of_lost (found : s.record? h = some x) (state : x.state = .lost) : s.countPacket h
    = if x.restoreHold = 0 then
        (s.setRecord h { x with state := .live, silence := some s.uptime }).reportRestoration h
      else s.setRecord h { x with state := .restoring, silence := some s.uptime, hold := some s.uptime } := by
  unfold State.countPacket
  rw [found]
  dsimp only
  rw [state]

theorem countPacket_of_retiring (found : s.record? h = some x) (state : x.state = .retiring) :
    s.countPacket h = s.setRecord h { x with silence := some s.uptime, silentFlag := false } := by
  unfold State.countPacket
  rw [found]
  dsimp only
  rw [state]

end

/-- Settles O37: each row and each packet is one act of the monitor, after what a commit made due. -/
theorem theMonitorFollowsItsSource : Obligations.TheMonitorFollowsItsSource := by
  refine ⟨fun h s low high awake settled => ?_, fun c d rest s awake due row g low high dueOf => ?_,
    fun h s low high awake settled => ?_, fun h x s found => ?_⟩
  · have run := exec_lossWindowExpired low high awake
    rw [settleCtab_of_nil s settled] at run
    refine ⟨fun early => by rw [run, expireWindow_of_early early], fun x t found timer reached => ?_⟩
    rw [expireWindow_of_reached found timer reached] at run
    rw [run]
    refine ⟨fun state => ?_, fun state heard => ?_, fun state silent => ?_, fun state => ?_⟩
    · rw [loseSource_of_heard state, reportLoss_eq]
    · rw [loseSource_of_retiring state, if_neg (by rw [heard]; nofun), reportLoss_eq]
    · rw [loseSource_of_retiring state, if_pos silent]
    · rw [loseSource_of_unheard state]
  · obtain ⟨act, runs⟩ := exec_after_due row
    refine ⟨({ s with ctabDue := [] } : State).takeDue d, ?_, exec_takes_due runs awake due⟩
    rcases dueOf with rfl | rfl
    · exact exec_lossWindowExpired low high awake
    · exact exec_restoreHoldEnded low high awake
  · have run := exec_restoreHoldEnded low high awake
    rw [settleCtab_of_nil s settled] at run
    refine ⟨fun x t found state timer => ?_, fun x found state none => ?_⟩
    · rw [run, endHold_of_restoring found state timer]
      exact ⟨fun ended => by rw [if_pos ended, reportRestoration_eq],
        fun early => by rw [if_neg (Nat.not_le.2 early)]⟩
    · rw [countPacket_of_lost found state, if_pos none, reportRestoration_eq]
  · exact ⟨countPacket_of_heard found,
      fun state held => (countPacket_of_lost found state).trans (if_neg held), countPacket_of_retiring found⟩

end Sys2Proof.Machine
end

