-- ==== Sys2Proof/Proofs/ForcedMoves.lean ====
section
/-! Moves that no switch point makes: what each leaves in its slot and the leg event it gives (R49, R50, R74, R79). -/

namespace Sys2Proof.Machine

section
variable {s : State}

/-! ### Leg events (R79) -/

theorem goSlated_event_forced (x : Slot) : (goSlated x).event = moveEvent .switchedForced x (goSlated x).slot := by
  unfold goSlated moveEvent
  by_cases state : x.onAir = .slated <;> simp [state]

theorem goFallback_event_forced (x : Slot) (p : Nat) :
    (goFallback s x p).event = moveEvent .switchedForced x (goFallback s x p).slot := by
  unfold goFallback
  split
  · unfold moveEvent
    by_cases state : x.onAir = .substituted <;> simp [state]
  · exact goSlated_event_forced x

theorem goSteady_event_forced {x : Slot} (off : x.onAir ≠ .steady) (p : Nat) :
    (goSteady x p (some .switchedForced)).event
      = moveEvent .switchedForced x (goSteady x p (some .switchedForced)).slot :=
  (if_neg off).symm

theorem enterPending_event_forced {x : Slot} (off : x.onAir ≠ .steady) (f p : Nat) :
    (enterPending s f x p).event = moveEvent .switchedForced x (enterPending s f x p).slot := by
  unfold enterPending
  split
  · exact (ite_self _).symm
  · exact goSteady_event_forced off p

/-! ### Slots off their planned record (R49, R50) -/

/-- The slot with nothing on air. -/
def Slot.offAir (x : Slot) : Slot := { x with onAir := .slated, source := none, outgoing := none, deadline := none }

theorem goSlated_slot (x : Slot) : (goSlated x).slot = x.offAir := rfl

/-- The slot on the usable fallback of record `p`, or off air. -/
def State.fallenBack (s : State) (p : Nat) (x : Slot) : Slot :=
  match s.usableFallback p with
  | some fb => { x with onAir := .substituted, source := some fb, outgoing := none, deadline := none }
  | none => x.offAir

theorem goFallback_fallenBack (x : Slot) (p : Nat) : (goFallback s x p).slot = s.fallenBack p x := by
  unfold goFallback State.fallenBack
  cases s.usableFallback p <;> rfl

/-! ### Many moves -/

/-- Each slot makes its own move, or stays. -/
theorem slotAt_moves {g : Nat → Slot → Option Move} (c : s.canonical) (still : ∀ j, g j Slot.start = none) (k : Nat) :
    (s.moveSlots g).slotAt k = ((g k (s.slotAt k)).map (·.slot)).getD (s.slotAt k) := by
  rw [slotAt_moveSlots s (canonical_slots_rising c) still]
  cases g k (s.slotAt k) <;> rfl

end

end Sys2Proof.Machine
end

