-- ==== Sys2Proof/Proofs/Notices.lean ====
section
/-! Loss and restoration notices (O39). -/

namespace Sys2Proof.Machine

section
variable {s : State} {X f : Nat} {x : Slot} {b : Binding}

/-! ### The moves of a loss (R50, R51) -/

theorem lossMove_of_unplanned (planned : x.planned = none) : lossMove s X x = none := by
  unfold lossMove
  rw [planned]

theorem lossMove_of_planned (planned : x.planned = some b) (own : b.handle = X) : lossMove s X x
    = if x.onAir = .steady ∨ x.onAir = .pending then some (goFallback s x X) else none := by
  unfold lossMove
  rw [planned]
  dsimp only
  rw [if_pos own]
  cases x.onAir <;> rfl

theorem lossMove_of_other (planned : x.planned = some b) (other : b.handle ≠ X) : lossMove s X x
    = if x.source = some X ∧ (x.onAir = .pending ∨ x.onAir = .substituted) then
        some (if s.usable b.handle then goSteady x b.handle (some .switchedForced)
          else if x.onAir = .pending then goFallback s x b.handle else goSlated x)
      else none := by
  unfold lossMove
  rw [planned]
  dsimp only
  rw [if_neg other]
  by_cases carried : x.source = some X
  · rw [if_pos carried]
    simp only [carried, true_and]
    cases x.onAir <;> rfl
  · rw [if_neg carried, if_neg fun h => carried h.1]

theorem keepsBinding_lossMove (s : State) (X : Nat) :
    keepsBinding (moveEvent .switchedForced) fun _ x => lossMove s X x := by
  intro k x m h
  replace h : lossMove s X x = some m := h
  cases planned : x.planned with
  | none => rw [lossMove_of_unplanned planned] at h; cases h
  | some b =>
    rw [← planned]
    by_cases own : b.handle = X
    · rw [lossMove_of_planned planned own] at h
      split at h
      · cases h
        exact ⟨planned_goFallback s x X, goFallback_event_forced x X⟩
      · cases h
    · rw [lossMove_of_other planned own] at h
      split at h
      · next carried =>
        have off : x.onAir ≠ .steady := fun steady => by rw [steady] at carried; exact absurd carried.2 (by decide)
        cases h
        split
        · exact ⟨rfl, goSteady_event_forced off b.handle⟩
        · split
          · exact ⟨planned_goFallback s x b.handle, goFallback_event_forced x b.handle⟩
          · exact ⟨rfl, goSlated_event_forced x⟩
      · cases h

/-- The slot after the loss of record `X` (R50, R51). -/
def State.slotAfterLoss (s : State) (X : Nat) (x : Slot) : Slot :=
  match x.planned with
  | none => x
  | some b =>
    if b.handle = X then
      if x.onAir = .steady ∨ x.onAir = .pending then s.fallenBack X x else x
    else if x.source = some X ∧ (x.onAir = .pending ∨ x.onAir = .substituted) then
      if s.usable b.handle then
        { x with onAir := .steady, source := some b.handle, outgoing := none, deadline := none }
      else if x.onAir = .pending then s.fallenBack b.handle x
      else x.offAir
    else x

theorem lossMove_slot (s : State) (X : Nat) (x : Slot) :
    ((lossMove s X x).map (·.slot)).getD x = s.slotAfterLoss X x := by
  unfold State.slotAfterLoss
  cases planned : x.planned with
  | none => rw [lossMove_of_unplanned planned]; rfl
  | some b =>
    dsimp only
    rw [← planned]
    by_cases own : b.handle = X
    · rw [lossMove_of_planned planned own, if_pos own]
      split
      · exact goFallback_fallenBack x X
      · rfl
    · rw [lossMove_of_other planned own, if_neg own]
      split
      · split
        · rfl
        · split
          · exact goFallback_fallenBack x b.handle
          · exact goSlated_slot x
      · rfl

/-! ### The moves of a restoration (R52, R53, R74) -/

/-- The record takes its slots back by itself (R52). -/
@[reducible] def State.returnsBySelf (s : State) (X : Nat) : Prop := ∃ r, s.record? X = some r ∧ r.autoReturn = true

theorem autoReturn_iff (s : State) (X : Nat) :
    ((s.record? X).map (·.autoReturn)).getD false = true ↔ s.returnsBySelf X := by
  unfold State.returnsBySelf
  cases s.record? X <;> simp

theorem restorationMove_of_unplanned (planned : x.planned = none) : restorationMove s X f x = none := by
  unfold restorationMove
  rw [planned]

/-- A slot of the restored record goes toward it when it is off air, or on a fallback that it gives up by itself. -/
theorem restorationMove_of_planned (planned : x.planned = some b) (own : b.handle = X) :
    (x.onAir = .slated ∨ (x.onAir = .substituted ∧ s.returnsBySelf X) →
      restorationMove s X f x = some (enterPending s f x X))
    ∧ (¬ (x.onAir = .slated ∨ (x.onAir = .substituted ∧ s.returnsBySelf X)) → restorationMove s X f x = none) := by
  unfold restorationMove
  rw [planned, ← autoReturn_iff]
  dsimp only
  rw [if_pos own]
  cases x.onAir <;> simp

theorem restorationMove_of_other (planned : x.planned = some b) (other : b.handle ≠ X) : restorationMove s X f x
    = if x.onAir = .slated ∧ s.usable b.handle = false ∧ s.fallbackOf b.handle = some X then
        some (goFallback s x b.handle)
      else none := by
  unfold restorationMove
  rw [planned]
  dsimp only
  rw [if_neg other]
  simp [and_assoc]

theorem keepsBinding_restorationMove (s : State) (X : Nat) :
    keepsBinding (moveEvent .switchedForced) fun k x => restorationMove s X (k / 16) x := by
  intro k x m h
  replace h : restorationMove s X (k / 16) x = some m := h
  cases planned : x.planned with
  | none => rw [restorationMove_of_unplanned planned] at h; cases h
  | some b =>
    rw [← planned]
    by_cases own : b.handle = X
    · obtain ⟨moves, stays⟩ := restorationMove_of_planned (s := s) (f := k / 16) planned own
      by_cases taken : x.onAir = .slated ∨ (x.onAir = .substituted ∧ s.returnsBySelf X)
      · have off : x.onAir ≠ .steady := by rcases taken with state | ⟨state, -⟩ <;> rw [state] <;> decide
        rw [moves taken] at h
        cases h
        exact ⟨planned_enterPending s _ x X, enterPending_event_forced off _ X⟩
      · rw [stays taken] at h
        cases h
    · rw [restorationMove_of_other planned own] at h
      split at h
      · cases h
        exact ⟨planned_goFallback s x b.handle, goFallback_event_forced x b.handle⟩
      · cases h

/-- The slot after the restoration of record `X` (R52, R53, R74). -/
def State.slotAfterRestoration (s : State) (X f : Nat) (x : Slot) : Slot :=
  match x.planned with
  | none => x
  | some b =>
    if b.handle = X then
      if x.onAir = .slated ∨ (x.onAir = .substituted ∧ s.returnsBySelf X) then
        if x.source.all s.onAirFit then
          { x with onAir := .pending, outgoing := x.source, deadline := some ⟨s.uptime, (s.leg f).switchWait⟩ }
        else { x with onAir := .steady, source := some X, outgoing := none, deadline := none }
      else x
    else if x.onAir = .slated ∧ s.usable b.handle = false ∧ s.fallbackOf b.handle = some X then
      { x with onAir := .substituted, source := some X, outgoing := none, deadline := none }
    else x

theorem usableFallback_of_usable {p : Nat} (fallback : s.fallbackOf p = some X) (usable : s.usable X = true) :
    s.usableFallback p = some X := by
  unfold State.usableFallback
  rw [fallback]
  exact if_pos usable

theorem restorationMove_slot (usable : s.usable X = true) (f : Nat) (x : Slot) :
    ((restorationMove s X f x).map (·.slot)).getD x = s.slotAfterRestoration X f x := by
  unfold State.slotAfterRestoration
  cases planned : x.planned with
  | none => rw [restorationMove_of_unplanned planned]; rfl
  | some b =>
    dsimp only
    rw [← planned]
    by_cases own : b.handle = X
    · obtain ⟨moves, stays⟩ := restorationMove_of_planned (s := s) (f := f) planned own
      rw [if_pos own]
      split
      · next taken =>
        have handle : x.planned.map (·.handle) = some X := by rw [planned, ← own]; rfl
        have entered := enterPending_slot (s := s) f x b planned
        rw [handle, own] at entered
        rw [moves taken]
        exact entered
      · next kept => rw [stays kept]; rfl
    · rw [restorationMove_of_other planned own, if_neg own]
      split
      · next falls =>
        refine (goFallback_fallenBack x b.handle).trans ?_
        unfold State.fallenBack
        rw [usableFallback_of_usable falls.2.2 usable]
      · rfl

/-! ### The rows (R48) -/

theorem exec_lossNotice_of_none (awake : s.phase ≠ .asserted) (none : ∀ Y more, s.notices ≠ .loss Y :: more) :
    exec .lossNotice s = .next s := by
  refine congrArg Host.Outcome.next ((awake_of_not_asserted awake _).trans ?_)
  split
  · next first => exact absurd first (none _ _)
  · rfl
  · rfl

theorem exec_lossNotice {rest : List Notice} (awake : s.phase ≠ .asserted) (first : s.notices = .loss X :: rest) :
    exec .lossNotice s = .next (({ s with notices := rest } : State).takeLoss X) := by
  refine congrArg Host.Outcome.next ((awake_of_not_asserted awake _).trans ?_)
  rw [first]

theorem exec_restorationNotice_of_none (awake : s.phase ≠ .asserted)
    (none : ∀ Y more, s.notices ≠ .restoration Y :: more) : exec .restorationNotice s = .next s := by
  refine congrArg Host.Outcome.next ((awake_of_not_asserted awake _).trans ?_)
  split
  · next first => exact absurd first (none _ _)
  · rfl
  · rfl

theorem exec_restorationNotice {rest : List Notice} (awake : s.phase ≠ .asserted)
    (first : s.notices = .restoration X :: rest) :
    exec .restorationNotice s = .next (({ s with notices := rest } : State).takeRestoration X) := by
  refine congrArg Host.Outcome.next ((awake_of_not_asserted awake _).trans ?_)
  rw [first]

/-- A loss moves the slots of its record (R50, R51). -/
theorem slotsMoved_lossMoves (s : State) (X : Nat) (c : s.canonical) :
    s.slotsMoved (s.moveSlots fun _ x => lossMove s X x) (moveEvent .switchedForced)
      ∧ ∀ k, (s.moveSlots fun _ x => lossMove s X x).slotAt k = s.slotAfterLoss X (s.slotAt k) :=
  ⟨slotsMoved_moveSlots (still_moveEvent _) (keepsBinding_lossMove s X) c, fun k =>
    (slotAt_moves c (fun _ => lossMove_of_unplanned rfl) k).trans (lossMove_slot s X _)⟩

/-- A restoration moves the slots of its record (R52, R53). -/
theorem slotsMoved_restorationMoves (c : s.canonical) (usable : s.usable X = true) :
    s.slotsMoved (s.moveSlots fun k x => restorationMove s X (k / 16) x) (moveEvent .switchedForced)
      ∧ ∀ k, (s.moveSlots fun k x => restorationMove s X (k / 16) x).slotAt k
        = s.slotAfterRestoration X (k / 16) (s.slotAt k) :=
  ⟨slotsMoved_moveSlots (still_moveEvent _) (keepsBinding_restorationMove s X) c, fun k =>
    (slotAt_moves c (fun _ => restorationMove_of_unplanned rfl) k).trans (restorationMove_slot usable _ _)⟩

end

/-- Settles O39: each slot makes the move that its notice gives it, and such moves hand on what any move does. -/
theorem noticesMoveTheSlots : Obligations.NoticesMoveTheSlots := by
  refine ⟨fun X rest s awake c => ⟨exec_lossNotice_of_none awake, fun first fit => ?_, fun first lost => ?_⟩,
    fun X rest s awake c => ⟨exec_restorationNotice_of_none awake, fun first unusable => ?_, fun first usable => ?_⟩⟩
  · exact (exec_lossNotice awake first).trans (congrArg Host.Outcome.next (if_pos fit))
  · obtain ⟨moved, slots⟩ := slotsMoved_lossMoves { s with notices := rest } X c
    refine ⟨_, (exec_lossNotice awake first).trans (congrArg Host.Outcome.next (if_neg ?_)), moved, slots⟩
    exact Bool.eq_false_iff.1 lost
  · refine (exec_restorationNotice awake first).trans (congrArg Host.Outcome.next (if_neg ?_))
    exact Bool.eq_false_iff.1 unusable
  · obtain ⟨moved, slots⟩ := slotsMoved_restorationMoves (s := { s with notices := rest }) (X := X) c usable
    exact ⟨_, (exec_restorationNotice awake first).trans (congrArg Host.Outcome.next (if_pos usable)), moved, slots⟩

end Sys2Proof.Machine
end

