-- ==== Sys2Proof/Proofs/Deadlines.lean ====
section
/-! Switch deadlines and RESUME SLOT (O40). -/

namespace Sys2Proof.Machine

section
variable {s : State} {f i : Nat} {b : Binding} {t : Timer}

/-! ### Switch deadlines (R76) -/

theorem planned_deadlineMove (s : State) (x : Slot) (p : Nat) : (deadlineMove s x p).slot.planned = x.planned :=
  (maySource_deadlineMove s x p).1

theorem deadlineMove_event_forced {x : Slot} (off : x.onAir ≠ .steady) (p : Nat) :
    (deadlineMove s x p).event = moveEvent .switchedForced x (deadlineMove s x p).slot := by
  unfold deadlineMove
  split
  · exact goSteady_event_forced off p
  · exact goFallback_event_forced x p

/-- The slot goes to its planned record, to the usable fallback, or off air. -/
theorem deadlineMove_slot (x : Slot) (p : Nat) : (deadlineMove s x p).slot = { x with
    outgoing := none
    deadline := none
    onAir := if s.usable p then .steady else if (s.usableFallback p).isSome then .substituted else .slated
    source := if s.usable p then some p else s.usableFallback p } := by
  unfold deadlineMove
  split
  · rfl
  · rw [goFallback_fallenBack]
    unfold State.fallenBack
    cases s.usableFallback p <;> rfl

theorem expireDeadline_of_reached (state : (s.slot f i).onAir = .pending) (planned : (s.slot f i).planned = some b)
    (timer : (s.slot f i).deadline = some t) (reached : 90 * t.length ≤ s.uptime - t.start) :
    s.expireDeadline f i = (s.applyMove f i (deadlineMove s (s.slot f i) b.handle)).takeReports := by
  unfold State.expireDeadline
  dsimp only
  rw [state, planned, timer]
  exact if_pos ((reached_iff s t.start t.length).2 reached)

theorem expireDeadline_of_early (early : ∀ b t, (s.slot f i).onAir = .pending → (s.slot f i).planned = some b →
      (s.slot f i).deadline = some t → s.uptime - t.start < 90 * t.length) : s.expireDeadline f i = s := by
  unfold State.expireDeadline
  dsimp only
  split
  · next b t state planned timer =>
    exact if_neg (Bool.eq_false_iff.1 ((reached_eq_false s t.start t.length).2 (early b t state planned timer)))
  · rfl

theorem exec_switchDeadlineExpired (feed : f < 24) (slot : i < 16) (awake : s.phase ≠ .asserted) :
    exec (.switchDeadlineExpired f i) s = .next (s.expireDeadline f i) := by
  refine (if_pos ?_).trans (congrArg Host.Outcome.next (awake_of_not_asserted awake _))
  rw [Bool.and_eq_true, feedOk_iff, slotOk_iff]
  exact ⟨feed, slot⟩

/-! ### One forced move -/

/-- A forced move of one slot leaves what the move says in it and moves no other. -/
theorem slotsMoved_forced {m : Move} (hi : i < 16) (same : m.slot.planned = (s.slot f i).planned)
    (forced : m.event = moveEvent .switchedForced (s.slot f i) m.slot) :
    s.slotsMoved (s.applyMove f i m) (moveEvent .switchedForced)
      ∧ (∀ k, k ≠ slotKey f i → (s.applyMove f i m).slotAt k = s.slotAt k)
      ∧ (s.applyMove f i m).slot f i = m.slot :=
  ⟨slotsMoved_applyMove hi (still_moveEvent _) same forced,
    fun k other => (slotAt_applyMove s f i k m).trans (if_neg fun e => other e.symm),
    (slotAt_applyMove s f i (slotKey f i) m).trans (if_pos rfl)⟩

/-! ### RESUME SLOT (R55) -/

/-- SITE's request is answered by the owner of the slots (R55, R171). -/
theorem exec_resumeSlot (ready : s.ready) {u : State} {a : Answer}
    (own : ownResumeSlot (s.accepted 2) .site (packed [(1, f), (1, i)]) = (u, a)) :
    exec (.resumeSlot (requestFrame 0x21#8 (packed [(1, f), (1, i)]))) s = .next (u.replied 0x21#8 a) :=
  exec_packed (n := 2) (owner := ownResumeSlot) ready rfl (by decide) own

theorem ownResumeSlot_moves {m : Move} (feed : f < 24) (slot : i < 16)
    (resumes : resumeMove s f (s.slot f i) = some m) :
    ownResumeSlot s .site (packed [(1, f), (1, i)]) = ((s.applyMove f i m).takeReports, .taken []) := by
  rw [ownResumeSlot_eq (by omega) (by omega), if_pos ⟨feed, slot⟩, if_neg (by simp), resumes]

theorem ownResumeSlot_stays (feed : f < 24) (slot : i < 16) (stays : resumeMove s f (s.slot f i) = none) :
    ownResumeSlot s .site (packed [(1, f), (1, i)]) = (s, .refused .stateRefused) := by
  rw [ownResumeSlot_eq (by omega) (by omega), if_pos ⟨feed, slot⟩, if_neg (by simp), stays]

end

/-- Settles O40: an expiry and a resume are each one forced move of one slot. -/
theorem deadlinesAndResumesSwitch : Obligations.DeadlinesAndResumesSwitch := by
  refine ⟨fun f i s hf hi awake => ⟨fun early => ?_, fun b t state planned timer reached => ?_⟩,
    fun f i s ready hf hi => ⟨fun large => ?_, fun feed slot no => ?_, fun feed slot yes => ?_⟩⟩
  · rw [exec_switchDeadlineExpired hf hi awake, expireDeadline_of_early early]
  · obtain ⟨moved, others, own⟩ := slotsMoved_forced (f := f) hi (planned_deadlineMove s (s.slot f i) b.handle)
      (deadlineMove_event_forced (by rw [state]; decide) b.handle)
    refine ⟨_, ?_, moved, others, own.trans (deadlineMove_slot _ _)⟩
    rw [exec_switchDeadlineExpired hf hi awake, expireDeadline_of_reached state planned timer reached]
  · refine exec_resumeSlot ready ?_
    rw [ownResumeSlot_eq hf hi, if_neg (by omega)]
  · exact exec_resumeSlot ready (ownResumeSlot_stays feed slot (resumeMove_eq.trans (if_neg no)))
  · obtain ⟨state, b, planned, usable⟩ := yes
    have resumes : resumeMove (s.accepted 2) f ((s.accepted 2).slot f i)
        = some (enterPending (s.accepted 2) f ((s.accepted 2).slot f i) b.handle) :=
      (resumeMove_eq.trans (if_pos ⟨state, b, planned, usable⟩)).trans (congrArg (Option.map _) planned)
    have off : ((s.accepted 2).slot f i).onAir ≠ .steady := fun steady => by cases state.symm.trans steady
    obtain ⟨moved, others, own⟩ := slotsMoved_forced (s := s.accepted 2) (f := f) slot
      (planned_enterPending _ f _ b.handle) (enterPending_event_forced off f b.handle)
    exact ⟨_, exec_resumeSlot ready (ownResumeSlot_moves feed slot resumes), moved, others,
      own.trans (enterPending_slot f _ b planned)⟩

end Sys2Proof.Machine
end

