-- ==== Sys2Proof/Proofs/SlotStart.lean ====
section
/-! The slots and legs after power-on and after the clearing act (R81). -/

namespace Sys2Proof.Machine

/-- A clearing act that finds a CLEAR ALL in flight clears the part (R180). -/
theorem exec_clearingAct_clears {s : State} (awake : s.phase ≠ .asserted) (flight : s.port.flight = some .clearAll) :
    exec .clearingAct s = .next s.clear := by
  have unfolded : exec .clearingAct s
      = .next (s.awake fun s => if s.port.flight = some .clearAll then s.clear else s) := rfl
  rw [unfolded, awake_of_not_asserted awake, if_pos flight]

/-- What a CLEAR ALL keeps is neither slot nor leg (R180). -/
theorem slotStart_clear (s : State) : s.clear.slotStart := slotStart_reset

/-- Settles O8: both acts leave the starting state of the slots. -/
theorem startingEventsEmptyEverySlot : Obligations.StartingEventsEmptyEverySlot := by
  unfold Obligations.StartingEventsEmptyEverySlot
  refine ⟨fun s asserted => ⟨{ State.reset with pending := s.pending }, ?_, slotStart_reset⟩, fun s awake flight =>
    ⟨s.clear, exec_clearingAct_clears awake flight, slotStart_clear s⟩⟩
  rw [exec_resetnReleased, if_pos asserted]

end Sys2Proof.Machine
end

