-- ==== Sys2Proof/Proofs/Standing.lean ====
section
/-! What the laws of the ranges and of the slots' fallbacks read (R60, R67, R68, R107), and the operations that leave
it as it stands: those of the carriage table, of the splice entries' ends and of the batches' ends. -/

namespace Sys2Proof.Machine

/-- What the laws read of a slot. -/
def Slot.face (x : Slot) := (x.planned, x.onAir, x.source)

/-- `t` shows the slots of `s`, and its committed records are committed in `s`, with the same fallbacks. -/
structure State.facesAs (s t : State) : Prop where
  slots : ∀ k, (t.slotAt k).face = (s.slotAt k).face
  fallbacks : ∀ h, t.committed h = true → s.committed h = true ∧ t.fallbackOf h = s.fallbackOf h

/-- Besides, `t` holds no edit that `s` does not hold. -/
structure State.standsAs (s t : State) : Prop extends faces : s.facesAs t where
  edits : ∀ e, (t.entry e).edits = (s.entry e).edits ∨ (t.entry e).edits = []
  stored : ∀ r, (t.ws r).edits = (s.ws r).edits ∨ (t.ws r).edits = []

section
variable {s t u : State}

theorem standsAs_refl (s : State) : s.standsAs s where
  slots _ := rfl
  edits _ := .inl rfl
  stored _ := .inl rfl
  fallbacks _ h := ⟨h, rfl⟩

theorem State.facesAs.trans (h : s.facesAs t) (k : t.facesAs u) : s.facesAs u where
  slots n := (k.slots n).trans (h.slots n)
  fallbacks g committed :=
    have ⟨before, same⟩ := k.fallbacks g committed
    ⟨(h.fallbacks g before).1, same.trans (h.fallbacks g before).2⟩

theorem State.standsAs.trans (h : s.standsAs t) (k : t.standsAs u) : s.standsAs u where
  faces := h.faces.trans k.faces
  edits e := (k.edits e).elim (fun same => same ▸ h.edits e) .inr
  stored r := (k.stored r).elim (fun same => same ▸ h.stored r) .inr

theorem standsAs_foldl {α : Type} {f : State → α → State} (h : ∀ s a, State.standsAs s (f s a)) (l : List α) (s : State) :
    s.standsAs (l.foldl f s) := by
  induction l generalizing s with
  | nil => exact standsAs_refl s
  | cons a l ih => exact (h s a).trans (ih _)

theorem standsAs_ite {p : Prop} [Decidable p] (ht : s.standsAs t) (hu : s.standsAs u) :
    s.standsAs (if p then t else u) := by
  split <;> assumption

/-- Committed records that come from committed ones with the same fallback. -/
theorem fallbacks_of_records (h : ∀ g y, t.record? g = some y → y.state.stage = 1 →
      ∃ x, s.record? g = some x ∧ x.state.stage = 1 ∧ y.fallback = x.fallback) (g : Nat) (committed : t.committed g = true) :
    s.committed g = true ∧ t.fallbackOf g = s.fallbackOf g := by
  obtain ⟨y, hy, stage⟩ := (committed_iff t g).1 committed
  obtain ⟨x, hx, before, same⟩ := h g y hy stage
  exact ⟨(committed_iff s g).2 ⟨x, hx, before⟩, by rw [fallbackOf_eq hy, fallbackOf_eq hx, same]⟩

/-- A change of the carriage table alone. -/
theorem standsAs_of_records (slots : t.slots = s.slots) (sides : t.sides = s.sides)
    (h : ∀ g y, t.record? g = some y → y.state.stage = 1 →
      ∃ x, s.record? g = some x ∧ x.state.stage = 1 ∧ y.fallback = x.fallback) : s.standsAs t where
  slots k := by unfold State.slotAt; rw [slots]
  edits e := .inl (by rw [entry_of_sides sides])
  stored r := .inl (congrArg (·.2.1) (ws_of_sides sides r))
  fallbacks := fallbacks_of_records h

/-- Records each changed in what the law does not read, or gone. -/
theorem standsAs_of_map {f : Nat → Record → Record} (slots : t.slots = s.slots) (sides : t.sides = s.sides)
    (h : ∀ g, t.record? g = (s.record? g).map (f g) ∨ t.record? g = none)
    (same : ∀ g x, (f g x).state.stage = 1 → x.state.stage = 1 ∧ (f g x).fallback = x.fallback) : s.standsAs t :=
  standsAs_of_records slots sides fun g y hy stage => by
    rcases h g with hg | hg
    · rw [hg, Option.map_eq_some_iff] at hy
      obtain ⟨x, hx, rfl⟩ := hy
      exact ⟨x, hx, same g x stage⟩
    · rw [hg] at hy
      cases hy

theorem standsAs_of_same (records : t.records = s.records) (slots : t.slots = s.slots) (sides : t.sides = s.sides) :
    s.standsAs t :=
  standsAs_of_map (f := fun _ x => x) slots sides (fun g => .inl (by unfold State.record?; rw [records]; simp))
    fun _ _ stage => ⟨stage, rfl⟩

theorem standsAs_of_core (h : t.core = s.core) : s.standsAs t :=
  standsAs_of_same (congrArg (·.1) h) (congrArg (·.2.2.1) h) (sides_of_core h)

/-! ### The carriage table -/

theorem standsAs_touch {h : Nat} {x y : Record} (hx : s.record? h = some x) (use : y.use = x.use) :
    s.standsAs (s.setRecord h y) := by
  simp only [Record.use, Prod.mk.injEq] at use
  obtain ⟨stage, -, -, fallback, -⟩ := use
  refine standsAs_of_records rfl rfl fun g z hz hs => ?_
  rw [record?_setRecord] at hz
  split at hz
  · next e =>
    cases hz
    exact ⟨x, e ▸ hx, stage ▸ hs, fallback⟩
  · exact ⟨z, hz, hs, rfl⟩

theorem standsAs_raise (k : AttKind) (d : Nat) : s.standsAs (s.raise k d) := standsAs_of_core (core_raise s k d)

theorem standsAs_reportLoss (h : Nat) : s.standsAs (s.reportLoss h) := by
  obtain ⟨n, a, b, eq⟩ := reportLoss_writes s h
  rw [eq]
  exact standsAs_of_core rfl

theorem standsAs_reportRestoration (h : Nat) : s.standsAs (s.reportRestoration h) := by
  obtain ⟨n, a, b, eq⟩ := reportRestoration_writes s h
  rw [eq]
  exact standsAs_of_core rfl

theorem standsAs_loseSource {h : Nat} {x : Record} (hx : s.record? h = some x) : s.standsAs (s.loseSource h x) := by
  unfold State.loseSource
  split
  case h_1 hs => exact (standsAs_touch hx (use_withState x (by rw [hs]; rfl) _ _)).trans (standsAs_reportLoss h)
  case h_2 hs => exact (standsAs_touch hx (use_withState x (by rw [hs]; rfl) _ _)).trans (standsAs_reportLoss h)
  case h_3 => exact standsAs_ite (standsAs_touch hx (by rfl)) ((standsAs_touch hx (by rfl)).trans (standsAs_reportLoss h))
  all_goals exact standsAs_refl s

theorem standsAs_expireWindow (h : Nat) : s.standsAs (s.expireWindow h) := by
  unfold State.expireWindow
  split
  · next hx =>
    split
    · exact standsAs_ite (standsAs_loseSource hx) (standsAs_refl s)
    · exact standsAs_refl s
  · exact standsAs_refl s

theorem standsAs_endHold (h : Nat) : s.standsAs (s.endHold h) := by
  unfold State.endHold
  split
  · next x hx =>
    split
    · next hs _ =>
      exact standsAs_ite ((standsAs_touch hx (use_withState x (by rw [hs]; rfl) _ _)).trans
        (standsAs_reportRestoration h)) (standsAs_refl s)
    · exact standsAs_refl s
  · exact standsAs_refl s

theorem standsAs_takeDue (d : DueAct) : s.standsAs (s.takeDue d) := by
  cases d
  · exact standsAs_expireWindow _
  · exact standsAs_endHold _

theorem standsAs_settleCtab : s.standsAs s.settleCtab :=
  (standsAs_of_core (s := s) (t := { s with ctabDue := [] }) rfl).trans (standsAs_foldl (fun _ _ => standsAs_takeDue _) _ _)

theorem standsAs_modTouch (h : Nat) (f : Record → Record) (use : ∀ r, (f r).use = r.use) :
    s.standsAs (s.modRecord h f) := by
  unfold State.modRecord
  split
  · next hx => exact standsAs_touch hx (use _)
  · exact standsAs_refl s

theorem standsAs_countPacket (h : Nat) : s.standsAs (s.countPacket h) := by
  unfold State.countPacket
  split
  · next x hx =>
    dsimp only
    split
    · exact standsAs_touch hx rfl
    · exact standsAs_touch hx rfl
    · next hs =>
      exact standsAs_ite
        ((standsAs_touch hx (use_withState x (by rw [hs]; rfl) _ _)).trans (standsAs_reportRestoration h))
        (standsAs_touch hx (use_withState x (by rw [hs]; rfl) _ _))
    · exact standsAs_touch hx rfl
    · exact standsAs_refl s
  · exact standsAs_refl s

theorem standsAs_completeProbe (h k : Nat) (p : List Byte) : s.standsAs (s.completeProbe h k p) := by
  unfold State.completeProbe
  split
  · next hx => exact standsAs_ite ((standsAs_touch hx (by rfl)).trans (standsAs_raise _ _)) (standsAs_refl s)
  · exact standsAs_refl s

theorem standsAs_notePacket (h k : Nat) (p : List Byte) : s.standsAs (s.notePacket h k p) :=
  standsAs_settleCtab.trans ((standsAs_modTouch h _ (by intro _; rfl)).trans
    ((standsAs_completeProbe h k p).trans (standsAs_ite (standsAs_countPacket h) (standsAs_refl _))))

/-- Records change their counts only, and a RETIRING one may go (R14, R18). -/
theorem standsAs_takeUpdate (u : OnAirUpdate) : s.standsAs (s.takeUpdate u) := by
  obtain ⟨v, aired, ⟨-, taken⟩ | ⟨o, -, taken⟩⟩ := takeUpdate_cases s u
  · refine standsAs_of_map (f := Record.aired u) (slots_takeUpdate u) (sides_takeUpdate u) (fun g => .inl ?_) fun _ _ stage => ⟨stage, rfl⟩
    rw [taken]
    exact aired g
  · refine standsAs_of_map (f := Record.aired u) (slots_takeUpdate u) (sides_takeUpdate u) (fun g => ?_) fun _ _ stage => ⟨stage, rfl⟩
    rw [taken, record?_freeRecord]
    split
    · exact .inr rfl
    · exact .inl (aired g)

theorem standsAs_takeUpdates : s.standsAs s.takeUpdates :=
  (standsAs_of_same (s := s) (t := { s with updates := [] }) rfl rfl rfl).trans (standsAs_foldl (fun _ _ => standsAs_takeUpdate _) _ _)

theorem standsAs_tablesReady : s.standsAs s.tablesReady := standsAs_settleCtab.trans standsAs_takeUpdates

/-! ### Splice entries -/

/-- A change of an entry that keeps its edits or ends with them. -/
theorem standsAs_setEntry {e : Nat} {y : Entry} (h : y.edits = (s.entry e).edits ∨ y.edits = []) :
    s.standsAs (s.setEntry e y) where
  slots _ := rfl
  edits d := by
    rw [entry_setEntry]
    split
    · next eq => exact eq ▸ h
    · exact .inl rfl
  stored _ := .inl rfl
  fallbacks _ committed := ⟨committed, rfl⟩

theorem standsAs_freeEntry (e : Nat) (r : LastResult) (c : Option Code) : s.standsAs (s.freeEntry e r c) :=
  standsAs_setEntry (.inr rfl)

/-- What the splice scheduler does to records and slots. -/
theorem facesAs_of_splices (h : s.splices t) : s.facesAs t where
  slots k := by
    obtain ⟨n, slot⟩ := h.slots k
    rw [slot]
    rfl
  fallbacks := by
    obtain ⟨f, records⟩ := h.records
    refine fallbacks_of_records fun g y hy stage => ?_
    rw [records, Option.map_eq_some_iff] at hy
    obtain ⟨x, hx, rfl⟩ := hy
    exact ⟨x, hx, stage, rfl⟩

theorem standsAs_of_splices (h : s.splices t)
    (edits : ∀ e, (t.entry e).edits = (s.entry e).edits ∨ (t.entry e).edits = []) : s.standsAs t where
  faces := facesAs_of_splices h
  edits := edits
  stored r := .inl (congrArg (·.2.1) (h.ws r))

theorem standsAs_dropSpliceRefs (l : List SlotEdit) : s.standsAs (s.dropSpliceRefs l) :=
  standsAs_of_splices (splices_dropSpliceRefs l) fun e => .inl (by rw [entry_dropSpliceRefs])

theorem standsAs_passReservations (e : Nat) (n : Option Nat) : s.standsAs (s.passReservations e n) :=
  standsAs_of_splices (splices_passReservations e n) fun d => .inl (by rw [entry_passReservations])

theorem standsAs_untrack (e : Nat) (p : Nat × Nat) : s.standsAs (s.untrack e p) := by
  unfold State.untrack
  dsimp only
  refine standsAs_ite ((standsAs_setEntry (.inl (by rfl))).trans (standsAs_ite ?_ (standsAs_refl _))) (standsAs_refl s)
  exact (standsAs_freeEntry e _ _).trans (standsAs_raise _ _)

theorem standsAs_takeReports : s.standsAs s.takeReports := by
  refine standsAs_ite (standsAs_refl s) ((standsAs_of_core (s := s) (t := { s with reports := [] }) rfl).trans ?_)
  exact standsAs_foldl (fun _ _ => standsAs_foldl (fun _ _ => standsAs_untrack _ _) _ _) _ _

theorem standsAs_endHeldPartner (e : Nat) (r : LastResult) (c : Option Code) : s.standsAs (s.endHeldPartner e r c) := by
  unfold State.endHeldPartner
  split
  · exact standsAs_ite ((standsAs_dropSpliceRefs _).trans (standsAs_freeEntry _ r c)) (standsAs_refl s)
  · exact standsAs_refl s

theorem standsAs_failEntry (e : Nat) (c : Code) : s.standsAs (s.failEntry e c) := by
  have released : s.standsAs (((s.endHeldPartner e .failed (some c)).dropSpliceRefs
      ((s.endHeldPartner e .failed (some c)).entry e).edits).passReservations e none) :=
    (standsAs_endHeldPartner e _ _).trans ((standsAs_dropSpliceRefs _).trans (standsAs_passReservations e none))
  unfold State.failEntry
  dsimp only
  revert released
  generalize State.passReservations _ e none = u
  intro released
  refine State.standsAs.trans ?_ (standsAs_raise _ _)
  refine State.standsAs.trans ?_ (standsAs_freeEntry e _ _)
  exact released.trans (standsAs_setEntry (.inl (by rfl)))

theorem standsAs_clearPartner (e : Nat) : s.standsAs (s.clearPartner e) := by
  unfold State.clearPartner
  split
  · exact standsAs_setEntry (.inl (by rfl))
  · exact standsAs_refl s

theorem standsAs_cancelEntry (e : Nat) : s.standsAs (s.cancelEntry e) := by
  unfold State.cancelEntry
  dsimp only
  refine State.standsAs.trans ?_ (standsAs_freeEntry e _ _)
  refine State.standsAs.trans ?_ (standsAs_passReservations e none)
  refine State.standsAs.trans ?_ (standsAs_dropSpliceRefs _)
  exact standsAs_settleCtab.trans (standsAs_ite (standsAs_clearPartner e) (standsAs_endHeldPartner e _ _))

theorem standsAs_armReturn (e : Nat) : s.standsAs (s.armReturn e) := by
  unfold State.armReturn
  split
  · exact (standsAs_passReservations _ _).trans (standsAs_setEntry (.inl (by rw [entry_passReservations])))
  · exact standsAs_passReservations _ _

theorem standsAs_finishEntry (e a k : Nat) : s.standsAs (s.finishEntry e a k) := by
  unfold State.finishEntry
  dsimp only
  refine standsAs_ite ?_ (standsAs_setEntry (.inl (by rfl)))
  refine State.standsAs.trans ?_ (standsAs_raise _ _)
  refine State.standsAs.trans ?_ (standsAs_freeEntry e _ _)
  exact standsAs_setEntry (.inl (by rfl))

/-- An execution does no more than its bindings (R151). -/
theorem standsAs_passEntry (e : Nat) (q : Picture) :
    (s.writeBindings (q.applied.filterMap Edit.slotEdit?)).standsAs (s.passEntry e q) := by
  rw [passEntry_eq]
  unfold State.executing
  refine State.standsAs.trans ?_ (standsAs_finishEntry e _ _)
  refine State.standsAs.trans ?_ (standsAs_armReturn e)
  exact (standsAs_dropSpliceRefs _).trans standsAs_takeUpdates

/-! ### Batches -/

theorem standsAs_setWs {r : Requester} {w : Workspace} (h : w.edits = (s.ws r).edits ∨ w.edits = []) :
    s.standsAs (s.setWs r w) where
  slots k := by cases r <;> rfl
  edits e := by cases r <;> exact .inl rfl
  stored q := by
    rw [ws_setWs]
    split
    · next eq => exact eq ▸ h
    · exact .inl rfl
  fallbacks h committed := by cases r <;> exact ⟨committed, rfl⟩

theorem standsAs_endBatch (r : Requester) (o : OutcomeRecord) : s.standsAs (s.endBatch r o) where
  slots k := by unfold State.slotAt; rw [slots_endBatch]
  edits e := .inl (by rw [entry_congr (entries_endBatch r o)])
  stored q := by
    rw [ws_endBatch]
    split
    · exact .inr rfl
    · exact .inl rfl
  fallbacks := by
    refine fallbacks_of_records fun g y hy stage => ?_
    rw [record?_endBatch] at hy
    split at hy
    · cases hy
    · exact ⟨y, hy, stage, rfl⟩

theorem standsAs_endEarly (r : Requester) (o : OutcomeRecord) : s.standsAs (s.endEarly r o) :=
  standsAs_settleCtab.trans (standsAs_endBatch r o)

theorem standsAs_abort (r : Requester) (f : Failure) : s.standsAs (s.abort r f) := standsAs_endEarly r _

/-- A CREATE RECORD reserves a record that was FREE (R111). -/
theorem standsAs_reserveRecord {r : Requester} {c : CreateFields} {h : Nat} (ok : s.reserveRecord r c = .ok (h, t)) :
    s.standsAs t := by
  obtain ⟨rfl, -⟩ := reserveRecord_eq_ok ok
  refine standsAs_of_records rfl rfl fun g y hy stage => ?_
  replace hy : (s.setRecord h (createdRecord r c)).record? g = some y := hy
  rw [record?_setRecord] at hy
  split at hy
  · cases hy
    cases stage
  · exact ⟨y, hy, stage, rfl⟩

/-! ### The two laws -/

theorem rangeLaw_standsAs (h : s.standsAs t) (p : s.rangeLaw) : t.rangeLaw := by
  obtain ⟨stored, edits, planned⟩ := p
  refine ⟨fun r => ?_, fun e => ?_, fun k => ?_⟩
  · rcases h.stored r with same | none
    · rw [same]; exact stored r
    · rw [none]; nofun
  · rcases h.edits e with same | none
    · rw [same]; exact edits e
    · rw [none]; nofun
  · rw [show (t.slotAt k).planned = (s.slotAt k).planned from congrArg (·.1) (h.slots k)]
    exact planned k

/-- The planned records are committed, so that their fallbacks stand too. -/
theorem fallbackLaw_of_committed (h : s.facesAs t)
    (committed : ∀ k b, (t.slotAt k).planned = some b → t.committed b.handle = true) (p : s.fallbackLaw) :
    t.fallbackLaw := by
  intro k b state planned
  have face := h.slots k
  simp only [Slot.face, Prod.mk.injEq] at face
  obtain ⟨samePlanned, sameState, sameSource⟩ := face
  rw [sameSource, (h.fallbacks b.handle (committed k b planned)).2]
  exact p k b (sameState ▸ state) (samePlanned ▸ planned)

theorem fallbackLaw_facesAs (h : s.facesAs t) (counts : t.countLaw) (p : s.fallbackLaw) : t.fallbackLaw :=
  fallbackLaw_of_committed h counts.2.1 p

end

end Sys2Proof.Machine
end

