-- ==== Sys2Proof/Proofs/Upholding.lean ====
section
/-! What every act but a commit upholds: the ranges of the edits and bindings (R60, R67, R107), and the fallback that
a SUBSTITUTED slot has on air (R68). A slot's move is judged by the slot that it leaves, a list of bindings by the slots
that they leave. -/

namespace Sys2Proof.Machine

/-- A slot that is SUBSTITUTED has its planned record's fallback on air (R68). -/
def State.sound (s : State) (x : Slot) : Prop :=
  ∀ b, x.onAir = .substituted → x.planned = some b → x.source = s.fallbackOf b.handle

section
variable {s t u : State} {x : Slot} {b : Binding} {m : Move}

theorem fallbackLaw_iff_sound : s.fallbackLaw ↔ ∀ k, s.sound (s.slotAt k) := Iff.rfl

theorem sound_of_not_substituted (h : x.onAir ≠ .substituted) : s.sound x := fun _ state => (h state).elim

theorem State.sound.congr_planned (h : ∀ b, x.planned = some b → t.fallbackOf b.handle = s.fallbackOf b.handle)
    (p : s.sound x) : t.sound x := fun b state planned => (p b state planned).trans (h b planned).symm

theorem State.sound.congr (h : t.fallbackOf = s.fallbackOf) (p : s.sound x) : t.sound x :=
  p.congr_planned fun _ _ => by rw [h]

/-! ### The slots that the moves leave -/

theorem sound_goSteady (p : Nat) (e : Option LegEvent) : s.sound (goSteady x p e).slot := sound_of_not_substituted nofun

theorem sound_goSlated : s.sound (goSlated x).slot := sound_of_not_substituted nofun

theorem sound_goFallback (planned : x.planned = some b) : s.sound (goFallback s x b.handle).slot := by
  unfold goFallback
  split
  · next fallback =>
    intro c _ same
    rw [Option.some.inj (same.symm.trans planned)]
    exact (usableFallback_eq_some s fallback).1.symm
  · exact sound_goSlated

theorem sound_enterPending (f p : Nat) : s.sound (enterPending s f x p).slot := by
  unfold enterPending
  split
  · exact sound_of_not_substituted nofun
  · exact sound_goSteady _ _

theorem State.sound.rebased (p : s.sound x) (same : x.planned.map (·.handle) = some b.handle) :
    s.sound { x with planned := some b } := by
  intro c state planned
  obtain rfl := Option.some.inj planned
  obtain ⟨a, before, handle⟩ := Option.map_eq_some_iff.1 same
  exact handle ▸ p a state before

/-- A binding to the record that was bound leaves what is on air (R72). -/
theorem sound_bindMove {f : Nat} {o : Option Binding}
    (own : ∀ b, o = some b → x.planned.map (·.handle) = some b.handle → s.sound { x with planned := some b }) :
    s.sound (bindMove s f x o).slot := by
  unfold bindMove
  split
  · exact sound_of_not_substituted nofun
  · next b =>
    dsimp only
    split
    · next same => exact own b rfl same
    · split
      · split
        · exact sound_goSteady _ _
        · exact sound_enterPending _ _
      · exact sound_goFallback rfl

theorem sound_lossMove {X : Nat} (h : lossMove s X x = some m) : s.sound m.slot := by
  unfold lossMove at h
  split at h
  · cases h
  · next b planned =>
    split at h
    · next handle =>
      subst handle
      split at h <;> cases h <;> exact sound_goFallback planned
    · split at h
      · split at h <;> cases h <;> split
        · exact sound_goSteady _ _
        · exact sound_goFallback planned
        · exact sound_goSteady _ _
        · exact sound_goSlated
      · cases h

theorem sound_restorationMove {X f : Nat} (h : restorationMove s X f x = some m) : s.sound m.slot := by
  unfold restorationMove at h
  split at h
  · cases h
  · next b planned =>
    split at h
    · split at h
      · cases h; exact sound_enterPending _ _
      · split at h
        · cases h; exact sound_enterPending _ _
        · cases h
      all_goals cases h
    · split at h
      · cases h; exact sound_goFallback planned
      · cases h

theorem sound_sightingMove {R : Nat} (h : sightingMove R x = some m) : s.sound m.slot := by
  unfold sightingMove at h
  split at h
  · cases h
  · split at h
    · cases h; exact sound_goSteady _ _
    · cases h

theorem sound_deadlineMove (planned : x.planned = some b) : s.sound (deadlineMove s x b.handle).slot := by
  unfold deadlineMove
  split
  · exact sound_goSteady _ _
  · exact sound_goFallback planned

theorem sound_resumeMove {f : Nat} (h : resumeMove s f x = some m) : s.sound m.slot := by
  unfold resumeMove at h
  split at h
  · split at h
    · cases h; exact sound_enterPending _ _
    · cases h
  · cases h

theorem sound_fallbackMove {f : Nat} {old : Option Nat} (planned : x.planned = some b)
    (h : fallbackMove s f x b.handle old = some m) : s.sound m.slot := by
  unfold fallbackMove at h
  split at h
  · split at h
    · cases h
      split
      · exact sound_enterPending _ _
      · exact sound_goFallback planned
    · cases h
  · split at h
    · cases h; exact sound_goFallback planned
    · cases h
  all_goals cases h

/-! ### What is upheld -/

/-- `t` comes from `s` by acts, which keep the ranges, and the fallbacks on air where the counts are true. -/
structure Upholds (s t : State) : Prop where
  runs : Runs s t
  range : s.rangeLaw → t.rangeLaw
  fallback : s.canonical → s.countLaw → s.fallbackLaw → t.fallbackLaw

theorem Upholds.refl (s : State) : Upholds s s := ⟨.refl s, id, fun _ _ p => p⟩

theorem Upholds.trans (h : Upholds s t) (k : Upholds t u) : Upholds s u where
  runs := h.runs.trans k.runs
  range p := k.range (h.range p)
  fallback c counts p :=
    k.fallback (h.runs.1.canonical c) (h.runs.2 _ lawful_countLaw c counts) (h.fallback c counts p)

theorem upholds_of_standsAs (runs : Runs s t) (h : s.standsAs t) : Upholds s t where
  runs := runs
  range := rangeLaw_standsAs h
  fallback c counts := fallbackLaw_facesAs h.faces (runs.2 _ lawful_countLaw c counts)

theorem Upholds.frame (k : Kept s t) (h : s.core = t.core) : Upholds s t :=
  upholds_of_standsAs (.frame k h) (standsAs_of_core h.symm)

theorem standsAs_of_stores (h : s.stores = t.stores) : s.standsAs t := by
  simp only [State.stores, Prod.mk.injEq] at h
  obtain ⟨-, -, records, -, slots, -, -, -, ⟨site, net⟩, ⟨entries, -, -⟩, -⟩ := h
  exact standsAs_of_same records.symm slots.symm (by unfold State.sides; rw [entries, site, net])

theorem Upholds.aside (h : s.stores = t.stores) (updates : s.updates = t.updates) : Upholds s t :=
  upholds_of_standsAs (.aside h updates) (standsAs_of_stores h)

theorem upholds_foldl {α : Type} {f : State → α → State} (h : ∀ s a, Upholds s (f s a)) (l : List α) (s : State) :
    Upholds s (l.foldl f s) := by
  induction l generalizing s with
  | nil => exact .refl s
  | cons a l ih => exact (h s a).trans (ih _)

theorem upholds_ite {p : Prop} [Decidable p] (ht : Upholds s t) (hu : Upholds s u) :
    Upholds s (if p then t else u) := by
  split <;> assumption

theorem edits_of_sides (sides : t.sides = s.sides) (r : Requester) : (t.ws r).edits = (s.ws r).edits :=
  congrArg (·.2.1) (ws_of_sides sides r)

theorem rangeLaw_of_planned (sides : t.sides = s.sides) (planned : ∀ k, (t.slotAt k).planned = (s.slotAt k).planned)
    (p : s.rangeLaw) : t.rangeLaw := by
  obtain ⟨stored, edits, bound⟩ := p
  refine ⟨fun r => ?_, fun e => ?_, fun k => ?_⟩
  · rw [edits_of_sides sides]
    exact stored r
  · rw [entry_of_sides sides]
    exact edits e
  · rw [planned]
    exact bound k

/-! ### The carriage table, and what is handed on to it -/

theorem upholds_raise (k : AttKind) (d : Nat) : Upholds s (s.raise k d) :=
  upholds_of_standsAs (runs_raise s k d) (standsAs_raise k d)

theorem upholds_settleCtab : Upholds s s.settleCtab := upholds_of_standsAs (runs_settleCtab s) standsAs_settleCtab

theorem upholds_tablesReady : Upholds s s.tablesReady := upholds_of_standsAs (runs_tablesReady s) standsAs_tablesReady

theorem upholds_takeReports : Upholds s s.takeReports := upholds_of_standsAs (runs_takeReports s) standsAs_takeReports

theorem upholds_abort (r : Requester) (f : Failure) : Upholds s (s.abort r f) :=
  upholds_of_standsAs (runs_abort s r f) (standsAs_abort r f)

/-! ### Moves -/

theorem fallbackOf_of_records (h : t.records = s.records) : t.fallbackOf = s.fallbackOf := by
  unfold State.fallbackOf State.record?
  rw [h]

theorem upholds_applyMove {f i : Nat} (law : (s.slot f i).law → m.slot.law) (may : s.maySource (s.slot f i) m.slot)
    (sound : s.sound m.slot) : Upholds s (s.applyMove f i m) where
  runs := runs_applyMove s law may
  range := by
    refine rangeLaw_of_planned ((sides_of_core (core_applyMove s f i m)).trans rfl) fun k => ?_
    rw [slotAt_applyMove]
    split
    · next own => exact own ▸ may.1
    · rfl
  fallback _ _ p k := by
    refine State.sound.congr (s := s) (fallbackOf_of_records (records_applyMove s f i m)) ?_
    rw [slotAt_applyMove]
    split
    · exact sound
    · exact p k

theorem upholds_moveSlots {g : Nat → Slot → Option Move} (law : ∀ k x m, g k x = some m → m.slot.law)
    (may : ∀ k x m, g k x = some m → s.maySource x m.slot) (sound : ∀ k x m, g k x = some m → s.sound m.slot) :
    Upholds s (s.moveSlots g) := by
  unfold State.moveSlots
  suffices ∀ (l : List Nat) (t : State), t.records = s.records → Upholds t (l.foldl (fun s k =>
      match g k (s.slotAt k) with
      | some m => s.applyMove (k / 16) (k % 16) m
      | none => s) t) from this _ s rfl
  intro l
  induction l with
  | nil => exact fun t _ => .refl t
  | cons k l ih =>
    intro t same
    rw [List.foldl_cons]
    cases move : g k (t.slotAt k) with
    | none => exact ih t same
    | some m =>
      refine .trans (upholds_applyMove (fun _ => law _ _ _ move) ?_ ?_) (ih _ ((records_applyMove _ _ _ _).trans same))
      · rw [State.slot, slotKey_div_mod]
        exact maySource_congr same.symm (may _ _ _ move)
      · exact (sound _ _ _ move).congr (fallbackOf_of_records same)

theorem upholds_takeLoss (X : Nat) : Upholds s (s.takeLoss X) :=
  upholds_ite (.refl s) ((upholds_moveSlots (fun _ _ _ h => law_lossMove _ h)
    (fun _ _ _ h => maySource_lossMove _ h) fun _ _ _ h => sound_lossMove h).trans upholds_takeReports)

theorem upholds_takeRestoration (X : Nat) : Upholds s (s.takeRestoration X) := by
  unfold State.takeRestoration
  split
  · next usable =>
    exact (upholds_moveSlots (fun _ _ _ h => law_restorationMove _ h)
      (fun _ _ _ h => maySource_restorationMove _ usable h) fun _ _ _ h => sound_restorationMove h).trans
      upholds_takeReports
  · exact .refl s

theorem upholds_sight (R : Nat) (point : Bool) : Upholds s (s.sight R point) := by
  unfold State.sight
  split
  · next seen =>
    obtain ⟨-, usable⟩ : point = true ∧ s.usable R = true := by simpa using seen
    exact (upholds_moveSlots (fun _ _ _ h => law_sightingMove h) (fun _ _ _ h => maySource_sightingMove _ usable h)
      fun _ _ _ h => sound_sightingMove h).trans upholds_takeReports
  · exact .refl s

theorem upholds_expireDeadline (f i : Nat) : Upholds s (s.expireDeadline f i) := by
  unfold State.expireDeadline
  dsimp only
  split
  · next b t _ planned _ =>
    exact upholds_ite ((upholds_applyMove (fun _ => law_deadlineMove _ planned) (maySource_deadlineMove s _ _)
      (sound_deadlineMove planned)).trans upholds_takeReports) (.refl s)
  · exact .refl s

/-! ### Bindings -/

/-- The planned bindings after a list of edits are those of before or of the edits (R131 part 2, R151). -/
theorem rangeLaw_writeBindings {l : List SlotEdit} (inRange : ∀ d ∈ l, d.inRange) (p : s.rangeLaw) :
    (s.writeBindings l).rangeLaw := by
  obtain ⟨stored, edits, bound⟩ := p
  refine ⟨fun r => ?_, fun e => ?_, fun k b planned => ?_⟩
  · rw [edits_of_sides (sides_writeBindings l)]
    exact stored r
  · rw [entry_of_sides (sides_writeBindings l)]
    exact edits e
  · rw [planned_writeBindings] at planned
    cases last : lastEdit l k with
    | none =>
      rw [last] at planned
      exact bound k b planned
    | some o =>
      rw [last, Option.getD_some] at planned
      obtain ⟨d, listed, binding⟩ := binding_of_lastEdit last
      exact (inRange d listed).2.2 b (binding.trans planned)

theorem slotAt_rebind_key (k : Nat) (o : Option Binding) : (s.rebind (k / 16) (k % 16) o).slotAt k
    = if (s.slotAt k).planned = o then s.slotAt k else (bindMove s (k / 16) (s.slotAt k) o).slot := by
  have own := slotAt_rebind_own (s := s) (k / 16) (k % 16) o
  rwa [slotKey_div_mod, State.slot, slotKey_div_mod] at own

theorem fallbackOf_writeBindings (l : List SlotEdit) : (s.writeBindings l).fallbackOf = s.fallbackOf :=
  fallbackOf_readsAs (readsAs_of_replans (binds_writeBindings s l).replans)

theorem slotAt_writeBindings_none {l : List SlotEdit} {k : Nat} (none : Table.find? (bindingsOf l) k = none) :
    (s.writeBindings l).slotAt k = s.slotAt k :=
  (binds_writeBindings s l).moves.slot k ((find?_isSome_iff _ k).not.1 (by rw [none]; nofun))

theorem fallbackLaw_writeBindings (l : List SlotEdit) (p : s.fallbackLaw) : (s.writeBindings l).fallbackLaw := by
  intro k
  refine State.sound.congr (s := s) (fallbackOf_writeBindings l) ?_
  cases listed : Table.find? (bindingsOf l) k with
  | none =>
    rw [slotAt_writeBindings_none listed]
    exact p k
  | some o =>
    rw [(binds_writeBindings s l).slot k o listed, slotAt_rebind_key]
    split
    · exact p k
    · exact sound_bindMove fun b _ same => State.sound.rebased (p k) same

/-! ### Splices -/

theorem runs_failEntry {e : Nat} (stage : (s.entry e).state.stage = 1) (c : Code) : Runs s (s.failEntry e c) :=
  ⟨kept_failEntry s e c, fun _ l canonical p => l.fail s e c canonical stage p⟩

theorem upholds_failEntry {e : Nat} (stage : (s.entry e).state.stage = 1) (c : Code) : Upholds s (s.failEntry e c) :=
  upholds_of_standsAs (runs_failEntry stage c) (standsAs_failEntry e c)

/-- An execution's bindings are those of its entry's edits (R149, R151). -/
theorem upholds_passEntry {e : Nat} {q : Picture} (noUpdates : s.updates = []) (stage : (s.entry e).state.stage = 1)
    (judged : judgeEntry s (s.entry e) = .ok q) : Upholds s (s.passEntry e q) := by
  have runs : Runs s (s.passEntry e q) :=
    ⟨kept_passEntry s e q, fun _ l c p => l.pass s e q c noUpdates stage judged p⟩
  refine ⟨runs, fun p => ?_, fun c counts p => ?_⟩
  · exact rangeLaw_standsAs (standsAs_passEntry e q)
      (rangeLaw_writeBindings (fun d applied => p.2.1 e d (mem_edits_of_applied judged d applied)) p)
  · exact fallbackLaw_facesAs (standsAs_passEntry e q).faces (runs.2 _ lawful_countLaw c counts)
      (fallbackLaw_writeBindings _ p)

theorem upholds_execute {e : Nat} (stage : (s.entry e).state.stage = 1) : Upholds s (s.execute e) := by
  have ready : (s.tablesReady.entry e).state.stage = 1 := by rw [entry_tablesReady]; exact stage
  have noUpdates : s.tablesReady.updates = [] := updates_takeUpdates _
  unfold State.execute
  dsimp only
  refine upholds_tablesReady.trans ?_
  split
  · next judged => exact upholds_passEntry noUpdates ready judged
  · exact upholds_failEntry ready _

end

end Sys2Proof.Machine
end

