-- ==== Sys2Proof/Proofs/UpholdingRequests.lean ====
section
/-! What the splice scheduler, the workspaces and the direct requests uphold: the walk of `runs_exec` with `Upholds` in the
place of `Runs`, up to the port. An edit that is held has passed its field check (R107). -/

namespace Sys2Proof.Machine

section
variable {s t : State}

/-! ### Triggers, cues and the clock -/

theorem upholds_setEntry {e : Nat} {y : Entry} (use : y.use = (s.entry e).use) : Upholds s (s.setEntry e y) :=
  upholds_of_standsAs (runs_setEntry s use) (standsAs_setEntry (.inl (congrArg (·.2.1) use)))

theorem upholds_occur {e : Nat} (stage : (s.entry e).state.stage = 1) (m : MatcherName) : Upholds s (s.occur e m) := by
  have use := use_hear stage m
  unfold State.occur
  dsimp only
  refine (upholds_setEntry use).trans (upholds_ite (upholds_execute ?_) (.refl _))
  rw [entry_setEntry, if_pos rfl]
  exact (congrArg Prod.fst use).trans stage

theorem upholds_offerTo (c : Cue) (e : Nat) : Upholds s (s.offerTo c e) := by
  have stage : ∀ {m}, (s.entry e).hearsCue c m = true → (s.entry e).state.stage = 1 := fun hears =>
    stage_of_listens ((Bool.and_eq_true ..).mp hears).1
  unfold State.offerTo
  dsimp only
  split
  · next first _ =>
    split
    · exact upholds_occur (stage first) _
    · next waits =>
      refine (upholds_occur (stage first) _).trans (upholds_occur ?_ _)
      have heard : (s.occur e .a).entry e = ((s.entry e).hear .a).1 := by
        unfold State.occur
        simp [waits]
      rw [heard]
      exact (congrArg (·.1) (use_hear (stage first) .a)).trans (stage first)
  · next first _ => exact upholds_occur (stage first) _
  · next second => exact upholds_occur (stage second) _
  · exact .refl s

theorem upholds_offerCue (c : Cue) : Upholds s (s.offerCue c) := upholds_foldl (fun _ _ => upholds_offerTo _ _) _ _

theorem upholds_cues {l : List Cue} (h : l.length ≤ s.cues.length ∨ l.length ≤ Config.cuePlaces) :
    Upholds s { s with cues := l } := .frame (kept_cues s h) rfl

theorem upholds_matureCues : Upholds s s.matureCues :=
  (upholds_cues (.inl (List.length_filter_le _ _))).trans (upholds_foldl (fun _ _ => upholds_offerCue _) _ _)

theorem upholds_timeOccurs (e : Nat) (m : MatcherName) : Upholds s (s.timeOccurs e m) := by
  unfold State.timeOccurs
  split
  · next due =>
    have stage : (s.entry e).state.stage = 1 := by
      unfold State.timeDue at due
      simp only [Bool.and_eq_true] at due
      exact stage_of_listens due.1.1
    have use : ((s.entry e).markOccurred m).use = (s.entry e).use := by cases m <;> rfl
    refine (upholds_setEntry use).trans (upholds_occur ?_ _)
    rw [entry_setEntry, if_pos rfl]
    exact (congrArg Prod.fst use).trans stage
  · exact .refl s

theorem upholds_testTimes : Upholds s s.testTimes := upholds_foldl (fun _ _ => upholds_timeOccurs _ _) _ _

theorem upholds_spsReady : Upholds s s.spsReady :=
  upholds_testTimes.trans (upholds_testTimes.trans upholds_takeReports)

theorem upholds_testClock : Upholds s s.testClock := upholds_matureCues.trans upholds_testTimes

theorem upholds_countInput (i : Nat) (f : InputCounters → InputCounters) : Upholds s (s.countInput i f) :=
  .frame (kept_countInput s i f) rfl

theorem upholds_takeCue (c : Cue) : Upholds s (s.takeCue c) := by
  unfold State.takeCue
  dsimp only
  refine upholds_spsReady.trans (upholds_ite ((upholds_offerCue _).trans upholds_takeReports) ?_)
  split
  · exact upholds_countInput _ _
  · exact upholds_cues (.inr (by rw [length_placeCue]; omega))

theorem upholds_setClock (c : StationTime) : Upholds s (s.setClock c) := by
  refine upholds_spsReady.trans (.trans ?_ (upholds_testClock.trans upholds_takeReports))
  exact .aside rfl rfl

theorem upholds_cancelEntry {e : Nat} (h : (s.entry e).state.stage = 1 ∨ (s.entry e).state = .held) :
    Upholds s (s.cancelEntry e) := upholds_of_standsAs (runs_cancelEntry s h) (standsAs_cancelEntry e)

/-! ### Edits in range -/

/-- A slot edit is in range. -/
def Edit.inRange (e : Edit) : Prop := ∀ d, e = .slot d → d.inRange

theorem inRange_of_checkBind {f i h n base : Nat} {e : Edit} (parsed : checkBind f i h n base = some e) : e.inRange := by
  unfold checkBind at parsed
  split at parsed
  · next passes =>
    cases parsed
    simp only [Bool.and_eq_true, feedOk, slotOk, within, decide_eq_true_eq] at passes
    obtain ⟨⟨⟨⟨feed, slot⟩, -⟩, -⟩, low, high⟩ := passes
    rintro _ ⟨⟩
    exact ⟨feed, slot, fun b same => by cases same; exact ⟨low, high⟩⟩
  · cases parsed

theorem inRange_of_checkUnbind {f i : Nat} {e : Edit} (parsed : checkUnbind f i = some e) : e.inRange := by
  unfold checkUnbind at parsed
  split at parsed
  · next passes =>
    cases parsed
    simp only [Bool.and_eq_true, feedOk, slotOk, decide_eq_true_eq] at passes
    rintro _ ⟨⟩
    exact ⟨passes.1, passes.2, nofun⟩
  · cases parsed

theorem inRange_of_checkCreate {a i n c g k : Nat} {l : List (Nat × Nat)} {fb lw rh ar : Option Nat} {e : Edit}
    (parsed : checkCreate a i n c g l k fb lw rh ar = some e) : e.inRange := by
  simp only [checkCreate, Option.bind_eq_bind, Option.bind_eq_some_iff] at parsed
  obtain ⟨cls, -, cs, -, ret, -, parsed⟩ := parsed
  split at parsed <;> cases parsed
  nofun

theorem inRange_of_checkSetLeg {a f : Nat} {st ac ca si dp de wa : Option Nat} {e : Edit}
    (parsed : checkSetLeg a f st ac ca si dp de wa = some e) : e.inRange := by
  unfold checkSetLeg at parsed
  cases st
  all_goals
    obtain ⟨_, -, parsed⟩ := Option.bind_eq_some_iff.1 parsed
    split at parsed <;> cases parsed
    nofun

/-- The parameters of an edit spell one in range, or none (R107). -/
theorem inRange_getEdit {k : Nat} {p q : List Byte} {e : SentEdit} (h : getEdit k p = some (e, q)) :
    ∀ d, e.edit = some d → d.inRange := by
  intro d hd
  unfold getEdit at h
  split at h
  · unfold getCreate at h
    iterate 12 obtain ⟨_, -, h⟩ := Option.bind_eq_some_iff.1 h
    cases h
    exact inRange_of_checkCreate hd
  · simp only [getAmend, Option.bind_eq_bind, Option.bind_eq_some_iff] at h
    obtain ⟨_, -, _, -, _, -, _, -, _, -, _, -, _, -, _, -, h⟩ := h
    cases h
    simp only [checkAmend, Option.bind_eq_bind, Option.bind_eq_some_iff] at hd
    obtain ⟨_, -, hd⟩ := hd
    split at hd <;> cases hd
    nofun
  · simp only [getRetire, Option.bind_eq_bind, Option.bind_eq_some_iff] at h
    obtain ⟨_, -, h⟩ := h
    cases h
    dsimp only at hd
    split at hd <;> cases hd
    nofun
  · simp only [getBind, Option.bind_eq_bind, Option.bind_eq_some_iff] at h
    obtain ⟨_, -, _, -, _, -, _, -, _, -, h⟩ := h
    cases h
    exact inRange_of_checkBind hd
  · simp only [getUnbind, Option.bind_eq_bind, Option.bind_eq_some_iff] at h
    obtain ⟨_, -, _, -, h⟩ := h
    cases h
    exact inRange_of_checkUnbind hd
  · unfold getSetLeg at h
    iterate 9 obtain ⟨_, -, h⟩ := Option.bind_eq_some_iff.1 h
    cases h
    exact inRange_of_checkSetLeg hd
  · cases h

theorem inRange_parseEdit {k : Nat} {p : List Byte} {d : Edit} (h : parseEdit k p = some d) : d.inRange := by
  unfold parseEdit at h
  split at h
  · next read => exact inRange_getEdit read _ h
  · cases h

theorem inRange_getEdits {n : Nat} {p q : List Byte} {l : List SentEdit} (h : getEdits n p = some (l, q)) :
    ∀ e ∈ l, ∀ d, e.edit = some d → d.inRange := by
  induction n generalizing p q l with
  | zero => cases h; nofun
  | succ n ih =>
    simp only [getEdits, Option.bind_eq_bind, Option.bind_eq_some_iff] at h
    obtain ⟨_, -, ⟨e, _⟩, read, ⟨l, _⟩, reads, h⟩ := h
    cases h
    rintro x (_ | ⟨_, listed⟩)
    · exact inRange_getEdit read
    · exact ih reads x listed

theorem inRange_parseApply {p : List Byte} {l : List SentEdit} (h : parseApply p = some l) :
    ∀ e ∈ l, ∀ d, e.edit = some d → d.inRange := by
  unfold parseApply at h
  split at h
  · split at h
    · split at h
      · next reads => cases h; exact inRange_getEdits reads
      · cases h
    · cases h
  · cases h

/-! ### Workspaces -/

theorem fallbackLaw_setWs (r : Requester) (w : Workspace) (p : s.fallbackLaw) : (s.setWs r w).fallbackLaw := by
  cases r <;> exact p

/-- A workspace that holds one edit more, in range. -/
theorem rangeLaw_setWs {r : Requester} {w : Workspace} {c : Edit × Nat} (edits : w.edits = (s.ws r).edits ++ [c])
    (inRange : c.1.inRange) (p : s.rangeLaw) : (s.setWs r w).rangeLaw := by
  obtain ⟨stored, waiting, bound⟩ := p
  refine ⟨fun q => ?_, fun e => ?_, fun k => ?_⟩
  · rw [ws_setWs]
    split
    · rw [edits]
      intro d held
      rcases List.mem_append.1 held with before | new
      · exact stored r d before
      · rw [List.mem_singleton.1 new]
        exact inRange
    · exact stored q
  · cases r <;> exact waiting e
  · cases r <;> exact bound k

theorem upholds_setWs {r : Requester} {w : Workspace} (runs : Runs s (s.setWs r w))
    (h : w.edits = (s.ws r).edits ∨ w.edits = []) : Upholds s (s.setWs r w) :=
  upholds_of_standsAs runs (standsAs_setWs h)

theorem upholds_setWs_core {r : Requester} {w : Workspace} (bounded : (s.ws r).bounded → w.bounded)
    (core : w.core = (s.ws r).core) : Upholds s (s.setWs r w) :=
  upholds_setWs (runs_setWs_core s bounded core) (.inl (congrArg (·.2.1) core))

theorem upholds_opened {r : Requester} {w : Workspace} (bounded : w.bounded) (edits : w.edits = [])
    (handles : w.handles = []) : Upholds s (s.setWs r w) :=
  upholds_setWs (runs_opened s bounded edits handles) (.inr edits)

theorem upholds_restartIdle (r : Requester) : Upholds s (s.restartIdle r) :=
  upholds_ite (upholds_setWs_core (Workspace.bounded_of rfl rfl rfl) rfl) (.refl s)

theorem upholds_expireIdle (r : Requester) : Upholds s (s.expireIdle r) := by
  unfold State.expireIdle
  split
  · exact upholds_ite (upholds_abort r _) (.refl s)
  · exact .refl s

theorem upholds_settleIdle : Upholds s s.settleIdle := by
  refine .trans ?_ (upholds_foldl (fun _ _ => upholds_expireIdle _) _ _)
  exact .aside rfl rfl

theorem upholds_claim {r : Requester} {l : List Nat} (h : s.claim r l = .ok t) : Upholds s t :=
  .frame (kept_claim s h) (core_claim s h).symm

theorem upholds_ownOpenBatch (r : Requester) (p : List Byte) : Upholds s (ownOpenBatch s r p).1 := by
  have kept := kept_ownOpenBatch s r p
  unfold ownOpenBatch at kept ⊢
  dsimp only at kept ⊢
  split
  · unfold ownOpenFirst
    split
    · split
      · next claimed =>
        exact (upholds_claim claimed).trans (upholds_opened (bounded_openedWorkspace _ _ _) rfl rfl)
      · exact .refl s
    · exact .refl s
  · next running =>
    rw [if_neg running] at kept
    split
    · exact upholds_abort r _
    · next room =>
      rw [if_neg room] at kept
      split
      · next read =>
        rw [read] at kept
        exact .frame kept (core_setWs s (by rfl)).symm
      · exact upholds_abort r _

theorem upholds_ownCloseBatch (r : Requester) (p : List Byte) : Upholds s (ownCloseBatch s r p).1 := by
  refine .frame (kept_ownCloseBatch s r p) ?_
  unfold ownCloseBatch
  dsimp only
  split
  · rfl
  · split
    · rfl
    · split <;> exact (core_setWs s (by rfl)).symm

theorem upholds_ownAbandonBatch (r : Requester) (p : List Byte) : Upholds s (ownAbandonBatch s r p).1 := by
  unfold ownAbandonBatch
  dsimp only
  split
  · exact .refl s
  · split
    · split
      · exact upholds_of_standsAs (runs_endEarly s r _) (standsAs_endEarly r _)
      · exact .refl s
    · exact .refl s

/-- One edit more is held, after acts that the laws do not read. -/
theorem upholds_held {r : Requester} {w : Workspace} {c : Edit × Nat} (runs : Runs s (t.setWs r w))
    (stands : s.standsAs t) (edits : w.edits = (t.ws r).edits ++ [c]) (inRange : c.1.inRange) :
    Upholds s (t.setWs r w) where
  runs := runs
  range p := rangeLaw_setWs edits inRange (rangeLaw_standsAs stands p)
  fallback canonical counts p := by
    obtain ⟨-, committed, -⟩ := runs.2 _ lawful_countLaw canonical counts
    refine fallbackLaw_setWs r w (fallbackLaw_of_committed stands.faces (fun k b planned => ?_) p)
    cases r <;> exact committed k b planned

/-- An arrival holds its edit, and reserves a record for a CREATE RECORD (R106 to R112). -/
theorem upholds_arrive {r : Requester} {a : Bool} {e : Edit} (distinct : e.distinct) (inRange : e.inRange)
    {x : Nat × State} (h : s.arrive r a e = .ok x) : Upholds s x.2 := by
  have runs := runs_arrive s distinct h
  unfold State.arrive at h
  dsimp only at h
  split at h
  · cases h
  · split at h
    · cases h
    · split at h
      · cases h
      · split at h
        · split at h
          · cases h
          · next reserved =>
            cases h
            refine upholds_held runs (standsAs_settleCtab.trans (standsAs_reserveRecord reserved))
              (by rw [ws_reserveRecord _ reserved, ws_settleCtab]; rfl) ?_
            exact fun d same => by cases same
        all_goals
          cases h
          exact ⟨runs, rangeLaw_setWs rfl inRange, fun _ _ => fallbackLaw_setWs _ _⟩

theorem upholds_arriveSent {r : Requester} {a : Bool} {e : Option Edit} (distinct : ∀ d, e = some d → d.distinct)
    (inRange : ∀ d, e = some d → d.inRange) {x : Nat × State} (h : s.arriveSent r a e = .ok x) : Upholds s x.2 := by
  unfold State.arriveSent at h
  split at h
  · cases h
  · split at h
    · next arrived => cases h; exact upholds_arrive (distinct _ rfl) (inRange _ rfl) arrived
    · cases h

theorem upholds_ownEdit (k : Nat) (r : Requester) (p : List Byte) : Upholds s (ownEdit k s r p).1 := by
  unfold ownEdit
  split
  · exact .refl s
  · split
    · exact upholds_abort r _
    · next arrived => exact upholds_arriveSent (fun _ => distinct_parseEdit) (fun _ => inRange_parseEdit) arrived

theorem upholds_arriveAll (r : Requester) (l : List SentEdit) (distinct : ∀ e ∈ l, ∀ d, e.edit = some d → d.distinct)
    (inRange : ∀ e ∈ l, ∀ d, e.edit = some d → d.inRange) (hs : List Nat) : Upholds s (s.arriveAll r l hs).1 := by
  induction l generalizing s hs with
  | nil => exact .refl s
  | cons e l ih =>
    unfold State.arriveAll
    split
    · exact .refl s
    · next arrived =>
      exact (upholds_arriveSent (distinct e (List.mem_cons_self ..)) (inRange e (List.mem_cons_self ..)) arrived).trans
        (ih (fun e later => distinct e (List.mem_cons_of_mem _ later))
          (fun e later => inRange e (List.mem_cons_of_mem _ later)) _)

theorem upholds_ownApply (r : Requester) (p : List Byte) : Upholds s (ownApply s r p).1 := by
  have all : ∀ {t u : State} {l o hs}, parseApply p = some l → t.arriveAll r l [] = (u, o, hs) → Upholds t u :=
    fun {t _ l _ _} parsed arrived => by
      have h := upholds_arriveAll (s := t) r l (distinct_parseApply parsed) (inRange_parseApply parsed) []
      rwa [arrived] at h
  unfold ownApply
  split
  · unfold ownApplyAlone
    split
    · exact .refl s
    · next l parsed =>
      split
      · exact .refl s
      · dsimp only
        split
        · exact .refl s
        · next t claimed =>
          have opens : Upholds t (t.setWs r (applyWorkspace (feedsNamed l))) :=
            upholds_opened (bounded_applyWorkspace _) rfl rfl
          refine (upholds_claim claimed).trans (opens.trans ?_)
          split
          · next arrived => exact (all parsed arrived).trans (upholds_abort r _)
          · next arrived =>
            exact (all parsed arrived).trans (upholds_setWs_core (Workspace.bounded_of rfl rfl rfl) rfl)
  · unfold ownApplyInside
    split
    · exact upholds_abort r _
    · next parsed =>
      split
      · next arrived => exact (all parsed arrived).trans (upholds_abort r _)
      · next arrived => exact all parsed arrived

end

end Sys2Proof.Machine
end

