-- ==== Sys2Proof/Proofs/UpholdingCommands.lean ====
section
/-! Every command but the commit act upholds the ranges and the slots' fallbacks (R60, R67, R68, R107): the rest of the walk,
from the owners of the direct requests to `exec`. -/

namespace Sys2Proof.Machine

section
variable {s t : State}

/-! ### Direct requests -/

/-- An owner that upholds the laws, whatever it is sent. -/
def UpholdsOwner (o : Owner) : Prop := ∀ s r p, Upholds s (o s r p).1

theorem upholds_cancelSplice : UpholdsOwner ownCancelSplice := by
  intro s r p
  unfold ownCancelSplice
  split
  · split
    · dsimp only
      split
      · exact upholds_spsReady
      · split
        · exact upholds_spsReady
        · next e _ _ _ waits =>
          refine upholds_spsReady.trans (upholds_cancelEntry ?_)
          generalize (s.spsReady.entry e).state = state at waits ⊢
          cases state <;> simp_all [EntryState.stage]
    · exact .refl s
  · exact .refl s

theorem upholds_resumeSlot : UpholdsOwner ownResumeSlot := by
  intro s r p
  unfold ownResumeSlot
  split
  · split
    · split
      · exact .refl s
      · split
        · next move =>
          exact (upholds_applyMove (fun _ => law_resumeMove _ move) (maySource_resumeMove _ move)
            (sound_resumeMove move)).trans upholds_takeReports
        · exact .refl s
    · exact .refl s
  · exact .refl s

theorem upholds_armProbe : UpholdsOwner ownArmProbe := by
  intro s r p
  unfold ownArmProbe
  split
  · split
    · dsimp only
      split
      · next found =>
        split
        · exact upholds_settleCtab
        · exact upholds_settleCtab.trans (upholds_of_standsAs (runs_touch _ found rfl) (standsAs_touch found rfl))
      · exact upholds_settleCtab
    · exact .refl s
  · exact .refl s

theorem upholds_setStationTime : UpholdsOwner ownSetStationTime := by
  intro s r p
  unfold ownSetStationTime
  split
  · split
    · exact upholds_setClock _
    · exact .refl s
  · exact .refl s

theorem upholds_readRecord : UpholdsOwner ownReadRecord := by
  intro s r p
  unfold ownReadRecord
  split
  · refine upholds_settleCtab.trans (upholds_ite ?_ (.refl _))
    exact upholds_of_standsAs (runs_modTouch _ _ _ (by intro _; rfl)) (standsAs_modTouch _ _ (by intro _; rfl))
  · exact .refl s

theorem upholds_findRecord : UpholdsOwner ownFindRecord := by
  intro s r p
  unfold ownFindRecord
  repeat' split
  · exact upholds_settleCtab
  · exact .refl s
  · exact .refl s

theorem upholds_listRecords : UpholdsOwner ownListRecords := by
  intro s r p
  unfold ownListRecords
  repeat' split
  · exact upholds_settleCtab
  · exact .refl s
  · exact .refl s

theorem upholds_readSplice : UpholdsOwner ownReadSplice := by
  intro s r p
  unfold ownReadSplice
  repeat' split
  · exact upholds_spsReady
  · exact .refl s
  · exact .refl s

/-- The owners that set and read stores which the laws do not read. -/
def plainOwners : List Owner :=
  [ownSetInput, ownSetLegOwner, ownSetBatchLimit, ownSetRelay, ownSetCounterPair, ownSetAttentionMask,
    ownClearAttention, ownReadLeg, ownReadSlot, ownReadOutcome, ownReadCounters, ownReadInput, ownQueryCarriage,
    ownReadAttention, ownReadRelay]

theorem keeps_plainOwners : ∀ o ∈ plainOwners, KeepsOwner o := by
  simp [plainOwners, keeps_setInput, keeps_setLegOwner, keeps_setBatchLimit, keeps_setRelay, keeps_setCounterPair,
    keeps_setAttentionMask, keeps_clearAttention, keeps_readLeg, keeps_readSlot, keeps_readOutcome, keeps_readCounters,
    keeps_readInput, keeps_queryCarriage, keeps_readAttention, keeps_readRelay]

theorem core_plainOwners (s : State) (r : Requester) (p : List Byte) : ∀ o ∈ plainOwners, (o s r p).1.core = s.core := by
  simp only [plainOwners, List.forall_mem_cons, List.not_mem_nil, false_implies, implies_true, and_true, ownSetInput,
    ownSetLegOwner, ownSetBatchLimit, ownSetRelay, ownSetCounterPair, ownSetAttentionMask, ownClearAttention, ownReadLeg,
    ownReadSlot, ownReadOutcome, ownReadCounters, ownReadInput, ownQueryCarriage, ownReadAttention, ownReadRelay]
  refine ⟨?_, ?_, ?_, ?_, ?_, ?_, ?_, ?_, ?_, ?_, ?_, ?_, ?_, ?_, ?_⟩
  case refine_11 =>
    repeat' split
    · exact core_clearPairs s _
    all_goals rfl
  all_goals
    repeat' split
    all_goals rfl

theorem upholds_plainOwners : ∀ o ∈ plainOwners, UpholdsOwner o := fun o listed s r p =>
  .frame (keeps_plainOwners o listed s r p) (core_plainOwners s r p o listed).symm

/-! ### The port -/

theorem upholds_post (q : NetFlight) (y : Reply) : Upholds s (s.post q y) := by
  unfold State.post
  dsimp only
  split
  · refine .trans ?_ (upholds_raise _ _)
    exact .aside rfl rfl
  · exact .aside rfl rfl

theorem upholds_answer (r : Requester) (k : Byte) (a : Answer) : Upholds s (s.answer r k a) := by
  unfold State.answer
  split
  · exact .aside rfl rfl
  · split
    · exact upholds_post _ _
    · exact .refl s

theorem upholds_takeRequest (r : Requester) : Upholds s (s.takeRequest r) :=
  upholds_settleIdle.trans (upholds_restartIdle r)

theorem upholds_handBatch (r : Requester) (k : Byte) {o : State → Requester → List Byte → State × Option Answer}
    (owner : ∀ s r p, Upholds s (o s r p).1) (p : List Byte) : Upholds s (s.handBatch r k o p) := by
  unfold State.handBatch
  have act := (upholds_takeRequest r).trans (owner (s.takeRequest r) r p)
  split
  · next same =>
    rw [same] at act
    exact act.trans (upholds_answer r k _)
  · next same =>
    rw [same] at act
    split
    · exact act.trans (.aside rfl rfl)
    · exact act

theorem upholds_handDirect (r : Requester) (k : Byte) {o : Owner} (owner : UpholdsOwner o) (p : List Byte) :
    Upholds s (s.handDirect r k o p) :=
  ((upholds_takeRequest r).trans (owner _ _ _)).trans (upholds_answer r k _)

theorem upholds_transact (k : Byte) (f : Frame) {hand : State → List Byte → State} (act : ∀ s p, Upholds s (hand s p)) :
    Upholds s (s.transact k f hand) := by
  unfold State.transact State.whenRunning
  split
  · dsimp only
    split
    · exact .aside rfl rfl
    · exact .aside rfl rfl
    · exact .aside rfl rfl
    · refine .trans ?_ (act _ _)
      exact .aside rfl rfl
  · exact .refl s

theorem upholds_siteBatch (k : Byte) {o : State → Requester → List Byte → State × Option Answer}
    (owner : ∀ s r p, Upholds s (o s r p).1) (f : Frame) : Upholds s (siteBatch k o f s) :=
  upholds_transact k f fun _ _ => upholds_handBatch _ k owner _

theorem upholds_siteDirect (k : Byte) {o : Owner} (owner : UpholdsOwner o) (f : Frame) :
    Upholds s (siteDirect k o f s) := upholds_transact k f fun _ _ => upholds_handDirect _ k owner _

theorem upholds_handNetwork (k : Byte) (p : List Byte) : Upholds s (s.handNetwork k p) := by
  have edit : ∀ n, Upholds s (s.handBatch .network k (ownEdit n) p) := fun n =>
    upholds_handBatch _ k (fun _ => upholds_ownEdit n) p
  unfold State.handNetwork
  split
  · exact upholds_handBatch _ k (fun _ => upholds_ownOpenBatch) p
  · exact upholds_handBatch _ k (fun _ => upholds_ownCloseBatch) p
  · exact upholds_handBatch _ k (fun _ => upholds_ownAbandonBatch) p
  · exact upholds_handBatch _ k (fun _ => upholds_ownApply) p
  iterate 6 exact edit _
  · exact upholds_handDirect _ k upholds_cancelSplice p
  · exact upholds_handDirect _ k upholds_resumeSlot p
  · exact upholds_handDirect _ k (upholds_plainOwners ownQueryCarriage (by simp [plainOwners])) p
  · exact upholds_handDirect _ k (fun s _ _ => .refl s) p

theorem upholds_queue {q : List Command} (h : q.length ≤ s.netQueue.length ∨ q.length ≤ Config.queuePlaces) :
    Upholds s { s with netQueue := q } := .frame (kept_queue s h) rfl

theorem upholds_runCommand (c : Command) : Upholds s (s.runCommand c) := by
  unfold State.runCommand
  dsimp only
  split
  · refine .trans ?_ (upholds_handNetwork _ _)
    exact .aside rfl rfl
  · refine .trans ?_ (upholds_post _ _)
    exact .aside rfl rfl

theorem upholds_takeHead : Upholds s s.takeHead := by
  unfold State.takeHead
  split
  · next queued =>
    exact upholds_ite ((upholds_queue (.inl (by simp [queued]))).trans (upholds_runCommand _)) (.refl s)
  · exact .refl s

theorem upholds_awake {act : State → State} (h : ∀ s, Upholds s (act s)) : Upholds s (s.awake act) :=
  upholds_ite (.refl s) (h s)

/-! ### Inputs -/

theorem upholds_forgetCounts (i : Nat) : Upholds s (s.forgetCounts i) := by
  refine upholds_of_standsAs (runs_forgetCounts s i) ?_
  rw [forgetCounts_eq]
  exact standsAs_of_same rfl rfl rfl

theorem upholds_setInput {i : Nat} {x : Input} (law : (s.input i).law → x.law) : Upholds s (s.setInput i x) :=
  .frame (kept_setInput s law) rfl

theorem upholds_examineBytes (i : Nat) (l : List Byte) : Upholds s (s.examineBytes i l) := by
  unfold State.examineBytes
  dsimp only
  split
  · next searching =>
    obtain ⟨enabled, -⟩ := (Bool.and_eq_true ..).mp searching
    split
    · exact upholds_setInput fun law => law_examines l law enabled
    · have first : Upholds s (s.setInput i { l.foldl Input.examine (s.input i) with lost := false }) :=
        upholds_setInput fun law => law_examines l law enabled
      exact upholds_ite (first.trans (upholds_forgetCounts i)) first
  · exact .refl s

theorem upholds_missSync (i : Nat) (l : List Byte) : Upholds s (s.missSync i l) := by
  unfold State.missSync
  dsimp only
  split
  · next locked =>
    simp only [Bool.and_eq_true, beq_iff_eq] at locked
    split
    · exact (upholds_setInput fun _ => law_lostSync _).trans (upholds_examineBytes _ _)
    · exact upholds_setInput fun law => ⟨law.1, law.2.1, law.2.2.1, fun _ => locked.2⟩
  · exact .refl s

theorem upholds_cuePacket (i : Nat) (p : List Byte) : Upholds s (s.cuePacket i p) := by
  unfold State.cuePacket
  repeat' split
  · exact (upholds_countInput _ _).trans (upholds_takeCue _)
  · exact upholds_countInput _ _
  · exact .refl s

theorem core_commandPacket (i : Nat) (p : List Byte) : (s.commandPacket i p).core = s.core := by
  unfold State.commandPacket
  repeat' split
  · exact core_raise (s.countInput i InputCounters.incCommandsDropped) .networkQueueFull i
  all_goals rfl

theorem upholds_continuity {i k : Nat} {m : MapEntry} (p : List Byte) (found : Table.find? s.smap k = some m) :
    Upholds s (s.continuity i k m p) := by
  refine upholds_of_standsAs (runs_continuity s p found) ?_
  unfold State.continuity
  split
  · exact standsAs_ite (standsAs_of_same rfl rfl rfl) (standsAs_of_same rfl rfl rfl)
  · exact standsAs_refl s

theorem upholds_matchedPacket (h k : Nat) (p : List Byte) : Upholds s (s.matchedPacket h k p) := by
  unfold State.matchedPacket
  dsimp only
  refine (upholds_of_standsAs (runs_notePacket s h k p) (standsAs_notePacket h k p)).trans ?_
  split
  · exact (upholds_sight _ _).trans (.frame (kept_makeCopies _ _ _ _ _) (core_makeCopies _ _ _ _ _).symm)
  · exact .refl _

theorem upholds_lookup (i : Nat) (p : List Byte) : Upholds s (s.lookup i p) := by
  unfold State.lookup
  dsimp only
  split
  · next found =>
    exact (upholds_continuity _ (Option.filter_eq_some_iff.1 found).1).trans (upholds_matchedPacket _ _ _)
  · exact upholds_countInput _ _

theorem upholds_classify (i : Nat) (p : List Byte) : Upholds s (s.classify i p) := by
  unfold State.classify
  dsimp only
  refine upholds_ite (upholds_countInput _ _) (upholds_ite (.refl s) (upholds_ite (upholds_cuePacket _ _) ?_))
  exact upholds_ite (.frame (kept_commandPacket s i p) (core_commandPacket i p).symm) (upholds_lookup _ _)

theorem upholds_deliver (i : Nat) (p : List Byte) : Upholds s (s.deliver i p) :=
  upholds_ite ((upholds_setInput (law_clearMiss _)).trans (upholds_classify _ _)) (.refl s)

/-! ### Every command but the commit act -/

theorem core_expirePeriod (f : Nat) : (s.expirePeriod f).core = s.core := by
  unfold State.expirePeriod
  repeat' split
  · exact core_startDirectory s f
  all_goals rfl

theorem upholds_notices (l : List Notice) : Upholds s { s with notices := l } := .aside rfl rfl

theorem upholds_takeFirst {u : OnAirUpdate} {l : List OnAirUpdate} (waits : s.updates = u :: l) :
    Upholds s ({ s with updates := l }.takeUpdate u) := by
  refine upholds_of_standsAs (runs_takeFirst s waits) (.trans ?_ (standsAs_takeUpdate u))
  exact standsAs_of_same rfl rfl rfl

/-- A starting event leaves no edits and nothing on air (R81, R98, R181). -/
theorem upholds_reset (h : State.stores { State.reset with pending := s.pending } = t.stores) (updates : t.updates = []) :
    Upholds s t where
  runs := runs_reset s h updates
  range _ := rangeLaw_standsAs (standsAs_of_stores h) rangeLaw_reset
  fallback _ _ _ := by
    have empty : ∀ k, (t.slotAt k).planned = none := fun k => congrArg (·.1) ((standsAs_of_stores h).slots k)
    intro k b _ planned
    rw [empty k] at planned
    cases planned

theorem upholds_exec {c : Instr} (other : ∀ r, c ≠ .commitAct r) (h : exec c s = .next t) : Upholds s t := by
  have ok : ∀ {a b : State}, (.next a : Host.Outcome State Fault Refusal) = .next b → Upholds s a → Upholds s b :=
    fun e k => by injection e with e; exact e ▸ k
  have edit : ∀ k n f, Upholds s (siteBatch k (ownEdit n) f s) := fun k n f =>
    upholds_siteBatch k (fun _ => upholds_ownEdit n) f
  have plain : ∀ o ∈ plainOwners, ∀ k f, Upholds s (siteDirect k o f s) := fun o listed k f =>
    upholds_siteDirect k (upholds_plainOwners o listed) f
  cases c <;> simp only [exec] at h
  case openBatch => exact ok h (upholds_siteBatch _ (fun _ => upholds_ownOpenBatch) _)
  case closeBatch => exact ok h (upholds_siteBatch _ (fun _ => upholds_ownCloseBatch) _)
  case abandonBatch => exact ok h (upholds_siteBatch _ (fun _ => upholds_ownAbandonBatch) _)
  case apply => exact ok h (upholds_siteBatch _ (fun _ => upholds_ownApply) _)
  case createRecord => exact ok h (edit _ _ _)
  case amendRecord => exact ok h (edit _ _ _)
  case retireRecord => exact ok h (edit _ _ _)
  case bindSlot => exact ok h (edit _ _ _)
  case unbindSlot => exact ok h (edit _ _ _)
  case setLeg => exact ok h (edit _ _ _)
  case batchIdleExpired => exact ok h (upholds_awake fun _ => upholds_settleIdle.trans (upholds_expireIdle _))
  case commitAct r => exact (other r rfl).elim
  case cancelSplice => exact ok h (upholds_siteDirect _ upholds_cancelSplice _)
  case resumeSlot => exact ok h (upholds_siteDirect _ upholds_resumeSlot _)
  case armProbe => exact ok h (upholds_siteDirect _ upholds_armProbe _)
  case setStationTime => exact ok h (upholds_siteDirect _ upholds_setStationTime _)
  case readRecord => exact ok h (upholds_siteDirect _ upholds_readRecord _)
  case findRecord => exact ok h (upholds_siteDirect _ upholds_findRecord _)
  case listRecords => exact ok h (upholds_siteDirect _ upholds_listRecords _)
  case readSplice => exact ok h (upholds_siteDirect _ upholds_readSplice _)
  case setInput => exact ok h (plain _ (by simp [plainOwners]) _ _)
  case setLegOwner => exact ok h (plain _ (by simp [plainOwners]) _ _)
  case setBatchLimit => exact ok h (plain _ (by simp [plainOwners]) _ _)
  case setRelay => exact ok h (plain _ (by simp [plainOwners]) _ _)
  case setCounterPair => exact ok h (plain _ (by simp [plainOwners]) _ _)
  case setAttentionMask => exact ok h (plain _ (by simp [plainOwners]) _ _)
  case clearAttention => exact ok h (plain _ (by simp [plainOwners]) _ _)
  case readLeg => exact ok h (plain _ (by simp [plainOwners]) _ _)
  case readSlot => exact ok h (plain _ (by simp [plainOwners]) _ _)
  case readOutcome => exact ok h (plain _ (by simp [plainOwners]) _ _)
  case readCounters => exact ok h (plain _ (by simp [plainOwners]) _ _)
  case readInput => exact ok h (plain _ (by simp [plainOwners]) _ _)
  case queryCarriage => exact ok h (plain _ (by simp [plainOwners]) _ _)
  case readAttention => exact ok h (plain _ (by simp [plainOwners]) _ _)
  case readRelay => exact ok h (plain _ (by simp [plainOwners]) _ _)
  case clearAll =>
    refine ok h (upholds_transact _ _ fun s p => ?_)
    dsimp only
    split
    · exact (upholds_takeRequest _).trans (.aside rfl rfl)
    · exact (upholds_takeRequest _).trans (upholds_answer _ _ _)
  case clearingAct => exact ok h (upholds_awake fun s => upholds_ite (upholds_reset rfl rfl) (.refl s))
  case unknownRequest =>
    unfold execUnknownRequest at h
    split at h
    · cases h
    · exact ok h (upholds_transact _ _ fun s p => .aside rfl rfl)
  case statusPoll =>
    unfold execStatusPoll at h
    split at h
    · exact ok h (upholds_ite (.aside rfl rfl) (.refl s))
    · cases h
  case replyRead => exact ok h (upholds_ite (.aside rfl rfl) (.refl s))
  case resetnAsserted => exact ok h (upholds_reset rfl rfl)
  case resetnReleased => exact ok h (upholds_ite (upholds_reset rfl rfl) (.refl s))
  case resetReleaseTimeElapsed => exact ok h (upholds_ite (.aside rfl rfl) (.refl s))
  case queueHeadTaken => exact ok h (upholds_awake fun _ => upholds_takeHead)
  case syncAcquired =>
    unfold execSyncAcquired at h
    split at h
    · exact ok h (upholds_awake fun _ => upholds_examineBytes _ _)
    · cases h
  case syncCandidateGivenUp =>
    unfold execSyncCandidateGivenUp at h
    split at h
    · exact ok h (upholds_awake fun _ => upholds_examineBytes _ _)
    · cases h
  case missingSyncByte =>
    unfold execMissingSyncByte at h
    split at h
    · split at h
      · exact ok h (upholds_awake fun _ => upholds_missSync _ _)
      · cases h
    · cases h
  case packetReceived =>
    unfold execPacketReceived at h
    split at h
    · split at h
      · exact ok h (upholds_awake fun _ => upholds_deliver _ _)
      · cases h
    · cases h
  case lossWindowExpired =>
    unfold execLossWindowExpired at h
    split at h
    · exact ok h (upholds_awake fun _ => upholds_settleCtab.trans
        (upholds_of_standsAs (runs_expireWindow _ _) (standsAs_expireWindow _)))
    · cases h
  case restoreHoldEnded =>
    unfold execRestoreHoldEnded at h
    split at h
    · exact ok h (upholds_awake fun _ => upholds_settleCtab.trans
        (upholds_of_standsAs (runs_endHold _ _) (standsAs_endHold _)))
    · cases h
  case lossNotice =>
    refine ok h (upholds_awake fun s => ?_)
    split
    · exact (upholds_notices _).trans (upholds_takeLoss _)
    all_goals exact .refl s
  case restorationNotice =>
    refine ok h (upholds_awake fun s => ?_)
    split
    · exact (upholds_notices _).trans (upholds_takeRestoration _)
    all_goals exact .refl s
  case onAirUpdate =>
    refine ok h (upholds_awake fun s => upholds_settleCtab.trans ?_)
    dsimp only
    split
    · next waits => exact upholds_takeFirst waits
    · exact .refl _
  case switchDeadlineExpired =>
    unfold execSwitchDeadlineExpired at h
    split at h
    · exact ok h (upholds_awake fun _ => upholds_expireDeadline _ _)
    · cases h
  case outputOpportunity =>
    unfold execOutputOpportunity at h
    split at h
    · exact ok h (upholds_awake fun s =>
        upholds_ite (.refl s) (.frame (kept_sendPacket _ _) (core_sendPacket _ _).symm))
    · cases h
  case directoryPeriodExpired =>
    unfold execDirectoryPeriodExpired at h
    split at h
    · exact ok h (upholds_awake fun s => .frame (kept_expirePeriod _ _) (core_expirePeriod _).symm)
    · cases h
  case stationClockTick =>
    refine ok h (upholds_awake fun s => upholds_spsReady.trans (.trans ?_
      (upholds_testClock.trans upholds_takeReports)))
    exact .aside rfl rfl
  case cueMatured =>
    refine ok h (upholds_awake fun s => upholds_spsReady.trans ?_)
    dsimp only
    split
    · exact (upholds_cues (.inl (List.length_erase_le ..))).trans ((upholds_offerCue _).trans upholds_takeReports)
    · exact .refl _
  case timeMatcherOccurs =>
    unfold execTimeMatcherOccurs at h
    split at h
    · exact ok h (upholds_awake fun s =>
        upholds_ite ((upholds_timeOccurs _ _).trans upholds_takeReports) (.refl s))
    · cases h

end

end Sys2Proof.Machine
end

