-- ==== Sys2Proof/Proofs/UpholdingCommits.lean ====
section
/-! Commits keep the ranges, and the fallbacks on air where no batch both binds a slot to a record and changes that record's
fallback (R60, R67, R68, R131, R136; log entry 21): and so O55 and O59. -/

namespace Sys2Proof.Machine

section
variable {s t u : State} {r : Requester} {p q : Prop}

/-- As `Upholds`, with the fallbacks on air kept under a condition. -/
structure UpholdsIf (p : Prop) (s t : State) : Prop where
  runs : Runs s t
  range : s.rangeLaw → t.rangeLaw
  fallback : p → s.canonical → s.countLaw → s.fallbackLaw → t.fallbackLaw

theorem Upholds.always (h : Upholds s t) : UpholdsIf p s t := ⟨h.runs, h.range, fun _ => h.fallback⟩

theorem UpholdsIf.trans (h : UpholdsIf p s t) (k : UpholdsIf q t u) (pq : p → q) : UpholdsIf p s u where
  runs := h.runs.trans k.runs
  range l := k.range (h.range l)
  fallback hp c counts l :=
    k.fallback (pq hp) (h.runs.1.canonical c) (h.runs.2 _ lawful_countLaw c counts) (h.fallback hp c counts l)

/-- The batch of `r` does not both bind a slot to a record and change that record's fallback (log entry 21). -/
def State.apart (s : State) (r : Requester) : Prop :=
  ∀ d b a m n, (Edit.slot d, m) ∈ (s.ws r).edits → (Edit.amend a, n) ∈ (s.ws r).edits → d.binding = some b →
    a.handle = b.handle → a.setFallback = none ∧ a.clearFallback = false

theorem apart_standsAs (h : s.standsAs t) (apart : s.apart r) : t.apart r := by
  intro d b a m n hd
  rcases h.stored r with same | none
  · rw [same] at hd ⊢
    exact apart d b a m n hd
  · rw [none] at hd
    cases hd

/-! ### What is applied -/

theorem mem_ws_of_applied {w : Workspace} {q : Picture} (judged : (Picture.start s).walk 1 w.edits = .ok q) {d : SlotEdit}
    (applied : d ∈ q.applied.filterMap Edit.slotEdit?) : Edit.slot d ∈ q.applied ∧ ∃ n, (Edit.slot d, n) ∈ w.edits := by
  obtain ⟨e, listed, slot⟩ := List.mem_filterMap.1 applied
  cases e with
  | slot x =>
    cases slot
    exact ⟨listed, walk_applied_mem judged _ listed⟩
  | create _ _ | amend _ | retire _ | setLeg _ => cases slot

theorem inRange_of_applied {q : Picture} (judged : (Picture.start s).walk 1 (s.ws r).edits = .ok q) (l : s.rangeLaw) :
    ∀ d ∈ q.applied.filterMap Edit.slotEdit?, d.inRange := fun d applied => by
  obtain ⟨-, n, held⟩ := mem_ws_of_applied judged applied
  exact l.1 r _ held d rfl

/-! ### The parts of an IMMEDIATE commit (R131) -/

theorem fallbackOf_writeRecord {e : Edit} {h : Nat}
    (apart : ∀ a, e = .amend a → a.handle = h → a.setFallback = none ∧ a.clearFallback = false) :
    (s.writeRecord e).fallbackOf h = s.fallbackOf h := by
  cases e with
  | create g c => exact fallbackOf_commitRecord g h
  | amend a =>
    show (s.amendRecord a).fallbackOf h = _
    unfold State.fallbackOf
    rw [record?_amendRecord]
    cases s.record? h with
    | none => rfl
    | some x =>
      by_cases own : a.handle = h
      · obtain ⟨set, clear⟩ := apart a rfl own
        simp [own, AmendFields.apply, set, clear]
      · simp [own]
  | retire _ | slot _ | setLeg _ => rfl

theorem fallbackOf_writeRecords {l : List Edit} {h : Nat}
    (apart : ∀ a, Edit.amend a ∈ l → a.handle = h → a.setFallback = none ∧ a.clearFallback = false) :
    (l.foldl State.writeRecord s).fallbackOf h = s.fallbackOf h := by
  induction l generalizing s with
  | nil => rfl
  | cons e l ih =>
    rw [List.foldl_cons, ih fun a listed => apart a (List.mem_cons_of_mem _ listed),
      fallbackOf_writeRecord fun a same => apart a (same ▸ List.mem_cons_self ..)]

/-- The tables with the records and legs of a commit written. -/
def State.written (s : State) (l : List Edit) : State := l.foldl State.writeLeg (l.foldl State.writeRecord s)

theorem sides_written (l : List Edit) : (s.written l).sides = s.sides :=
  (sides_of_core (core_foldl_writeLeg _ l)).trans (sides_writeRecords l)

theorem slotAt_written (l : List Edit) (k : Nat) : (s.written l).slotAt k = s.slotAt k := by
  unfold State.written
  obtain ⟨v, w, h⟩ := foldl_writeRecord_eq s l
  rw [core_slots (core_foldl_writeLeg _ l), h]
  rfl

theorem fallbackOf_written (l : List Edit) : (s.written l).fallbackOf = (l.foldl State.writeRecord s).fallbackOf :=
  fallbackOf_of_records (congrArg (·.1) (core_foldl_writeLeg _ l))

/-- The tables with the bindings of a commit written too. -/
def State.withBindings (s : State) (q : Picture) : State :=
  (s.written q.applied).writeBindings (q.applied.filterMap Edit.slotEdit?)

theorem fallbackOf_moveSlots (g : Nat → Slot → Option Move) : (s.moveSlots g).fallbackOf = s.fallbackOf := by
  obtain ⟨a, u, v, w, x, h⟩ := moveSlots_eq s g
  rw [h]
  rfl

theorem planned_moveSlots {g : Nat → Slot → Option Move} (keeps : ∀ k x m, g k x = some m → m.slot.planned = x.planned)
    (k : Nat) : ((s.moveSlots g).slotAt k).planned = (s.slotAt k).planned := by
  unfold State.moveSlots
  refine foldl_same (fun t => (t.slotAt k).planned) _ (fun t j => ?_) _ _
  cases move : g j (t.slotAt j) with
  | none => rfl
  | some m =>
    dsimp only
    rw [slotAt_applyMove, slotKey_div_mod]
    split
    · next own => exact own ▸ keeps _ _ _ move
    · rfl

theorem rangeLaw_refallbacks {q : Picture} (inRange : ∀ d ∈ q.applied.filterMap Edit.slotEdit?, d.inRange)
    (l : s.rangeLaw) : ((s.withBindings q).moveSlots (refallback s (s.withBindings q))).rangeLaw := by
  refine rangeLaw_of_planned (sides_moveSlots _)
    (planned_moveSlots fun _ _ _ move => (refallback_keeps move).1) (rangeLaw_writeBindings inRange ?_)
  exact rangeLaw_of_planned (sides_written _) (fun k => by rw [slotAt_written]) l

/-- The move of a changed fallback puts the new one on air (R54). -/
theorem sound_refallback {before : State} {k : Nat} {x : Slot} {m : Move} (move : refallback before s k x = some m) :
    s.sound m.slot := by
  unfold refallback at move
  split at move
  · next b planned =>
    split at move
    · cases move
    · exact sound_fallbackMove planned move
  · cases move

/-- A slot whose binding is as it was, and that has no move to make, had the fallback that stands (R54). -/
theorem sound_of_refallback_none {before : State} {k : Nat} (l : before.fallbackLaw)
    (none : refallback before s k (before.slotAt k) = none) : s.sound (before.slotAt k) := by
  intro b state planned
  have source := l k b state planned
  unfold refallback at none
  rw [planned] at none
  simp only [bne_self_eq_false, Bool.false_or, beq_iff_eq] at none
  split at none
  · next same => exact source.trans same
  · unfold fallbackMove at none
    rw [state] at none
    simp only [source, if_pos] at none
    cases none

/-- The slots after the bindings of a commit, each before the move of a changed fallback. -/
theorem sound_withBindings {q : Picture} (judged : (Picture.start s).walk 1 (s.ws r).edits = .ok q) (apart : s.apart r)
    (l : s.fallbackLaw) {k : Nat} (none : refallback s (s.withBindings q) k ((s.withBindings q).slotAt k) = none) :
    (s.withBindings q).sound ((s.withBindings q).slotAt k) := by
  have unchanged : (s.withBindings q).slotAt k = s.slotAt k → (s.withBindings q).sound ((s.withBindings q).slotAt k) := by
    intro same
    rw [same] at none ⊢
    exact sound_of_refallback_none l none
  cases listed : Table.find? (bindingsOf (q.applied.filterMap Edit.slotEdit?)) k with
  | none => exact unchanged ((slotAt_writeBindings_none listed).trans (slotAt_written _ k))
  | some o =>
    have slot : (s.withBindings q).slotAt k = _ := (binds_writeBindings _ _).slot k o listed
    rw [slotAt_rebind_key, slotAt_written] at slot
    split at slot
    · exact unchanged slot
    · rw [slot]
      refine State.sound.congr (fallbackOf_writeBindings _) (sound_bindMove fun b bound same => ?_)
      subst bound
      refine State.sound.congr_planned (s := s) (fun c planned => ?_) (State.sound.rebased (l k) same)
      obtain rfl := Option.some.inj planned
      rw [fallbackOf_written]
      rw [find?_bindingsOf] at listed
      obtain ⟨d, applied, binding⟩ := binding_of_lastEdit listed
      obtain ⟨-, m, held⟩ := mem_ws_of_applied judged applied
      refine fallbackOf_writeRecords fun a amends own => ?_
      obtain ⟨n, amended⟩ := walk_applied_mem judged _ amends
      exact apart d b a m n held amended binding own

/-- After the moves of the changed fallbacks (R54, R68, R131 part 3). -/
theorem fallbackLaw_refallbacks {q : Picture} (judged : (Picture.start s).walk 1 (s.ws r).edits = .ok q)
    (apart : s.apart r) (c : s.canonical) (l : s.fallbackLaw) :
    ((s.withBindings q).moveSlots (refallback s (s.withBindings q))).fallbackLaw := by
  have canonical : (s.withBindings q).canonical :=
    (((kept_writeRecords s _).trans (kept_writeLegs _ _)).trans (kept_writeBindings _ _)).canonical c
  intro k
  refine State.sound.congr (fallbackOf_moveSlots _) ?_
  rw [slotAt_refallbacks s canonical]
  cases move : refallback s (s.withBindings q) k ((s.withBindings q).slotAt k) with
  | none => exact sound_withBindings judged apart l move
  | some m => exact sound_refallback move

theorem standsAs_retireRecord (h : Nat) : s.standsAs (s.retireRecord h) := by
  obtain ⟨v, records, ⟨-, retired⟩ | ⟨x, found, ⟨-, retired⟩ | ⟨-, retired⟩⟩⟩ := retireRecord_cases s h
  all_goals rw [retired]
  · exact standsAs_of_map (f := fun g r => { r with fallbackRefs := r.fallbackRefs - names1 (s.fallbackOf h) g }) rfl rfl (fun g => .inl (records g))
      fun _ _ stage => ⟨stage, rfl⟩
  · refine standsAs_of_map (f := fun g r => { r with fallbackRefs := r.fallbackRefs - names1 (s.fallbackOf h) g }) rfl rfl (fun g => ?_)
      fun _ _ stage => ⟨stage, rfl⟩
    rw [record?_freeRecord]
    split
    · exact .inr rfl
    · exact .inl (records g)
  · refine standsAs_of_records rfl rfl fun g y hy stage => ?_
    rw [record?_setRecord] at hy
    split at hy
    · cases hy
      cases stage
    · rw [records, Option.map_eq_some_iff] at hy
      obtain ⟨z, hz, rfl⟩ := hy
      exact ⟨z, hz, stage, rfl⟩

/-- What an IMMEDIATE commit does after its bindings and their moves. -/
theorem standsAs_writePicture (q : Picture) :
    ((s.withBindings q).moveSlots (refallback s (s.withBindings q))).standsAs (s.writePicture q) :=
  standsAs_takeUpdates.trans ((standsAs_foldl (fun _ _ => standsAs_retireRecord _) _ _).trans
    (standsAs_of_core (core_writePicture s q)))

theorem upholds_endBatch (r : Requester) (o : OutcomeRecord) : Upholds s (s.endBatch r o) :=
  upholds_of_standsAs (runs_endBatch s r o) (standsAs_endBatch r o)

theorem upholds_commitImmediate (mode : (s.ws r).mode = .immediate) (noUpdates : s.updates = []) :
    UpholdsIf (s.apart r) s (s.commitImmediate r) := by
  have runs := runs_commitImmediate s mode noUpdates
  unfold State.commitImmediate at runs ⊢
  dsimp only at runs ⊢
  split
  · exact (upholds_abort r _).always
  · next q judged =>
    rw [judged] at runs
    obtain ⟨walk, -, -, -⟩ := judgeImmediate_eq_ok judged
    have stands := (standsAs_writePicture (s := s) q).trans (standsAs_endBatch r (committedOutcome (s.ws r) q))
    exact ⟨runs, fun l => rangeLaw_standsAs stands (rangeLaw_refallbacks (inRange_of_applied walk l) l),
      fun apart c counts l => fallbackLaw_facesAs stands.faces (runs.2 _ lawful_countLaw c counts)
        (fallbackLaw_refallbacks walk apart c l)⟩

/-! ### A DEFERRED commit (R134 to R136) -/

theorem edits_of_splices (h : s.splices t) (r : Requester) : (t.ws r).edits = (s.ws r).edits := congrArg (·.2.1) (h.ws r)

theorem inRange_inverse {l : List SlotEdit} (inRange : ∀ d ∈ l, d.inRange) (p : s.rangeLaw) :
    ∀ d ∈ inverseEdits s l, d.inRange := by
  intro d inverse
  obtain ⟨c, listed, rfl⟩ := List.mem_map.1 inverse
  obtain ⟨x, given, key, -⟩ := mem_bindingsOf listed
  obtain ⟨feed, slot, -⟩ := inRange x given
  unfold slotKey at key
  exact ⟨by show c.1 / 16 < 24; omega, by show c.1 % 16 < 16; omega, fun b planned => p.2.2 c.1 b planned⟩

/-- The entries of a DEFERRED commit hold the stored edits and their inverse, or what they held. -/
theorem edits_armEntries {w : Workspace} {t : Trigger} {a b : List SlotEdit} {o : Nat} {n : Option Nat}
    (h : allocate s a.length b.length w.returnOpt.isSome = .ok (o, n)) (e : Nat) :
    ((s.armEntries r w t a b o n).entry e).edits = (s.entry e).edits ∨ ((s.armEntries r w t a b o n).entry e).edits = a
      ∨ ((s.armEntries r w t a b o n).entry e).edits = b := by
  obtain ⟨-, ⟨rfl, -⟩ | ⟨m, rfl, returns, -⟩⟩ := allocate_eq_ok h
  · rw [armEntries_none, entry_arm, entry_reserve]
    split
    · exact .inr (.inl rfl)
    · exact .inl rfl
  · obtain ⟨ro, option⟩ := Option.isSome_iff_exists.1 returns
    rw [armEntries_some _ _ _ _ _ _ option, entry_arm, entry_arm, entry_reserve]
    split
    · exact .inr (.inr rfl)
    · split
      · exact .inr (.inl rfl)
      · exact .inl rfl

theorem rangeLaw_armEntries {w : Workspace} {t : Trigger} {a b : List SlotEdit} {o : Nat} {n : Option Nat}
    (h : allocate s a.length b.length w.returnOpt.isSome = .ok (o, n)) (stored : ∀ d ∈ a, d.inRange)
    (inverse : ∀ d ∈ b, d.inRange) (p : s.rangeLaw) : (s.armEntries r w t a b o n).rangeLaw := by
  have splices := splices_armEntries (r := r) (t := t) h
  obtain ⟨held, waiting, bound⟩ := p
  refine ⟨fun q => ?_, fun e => ?_, fun k => ?_⟩
  · rw [edits_of_splices splices]
    exact held q
  · rcases edits_armEntries (r := r) (t := t) h e with same | same | same
    all_goals rw [same]
    · exact waiting e
    · exact stored
    · exact inverse
  · rw [planned_of_splices splices]
    exact bound k

theorem upholds_commitDeferred (mode : (s.ws r).mode = .deferred) : Upholds s (s.commitDeferred r) := by
  have runs := runs_commitDeferred s mode
  unfold State.commitDeferred at runs ⊢
  dsimp only at runs ⊢
  split
  · exact upholds_abort r _
  · exact upholds_endBatch r _
  · next q t judged trigger =>
    split
    · exact upholds_endBatch r _
    · next some =>
      split
      · exact upholds_abort r _
      · next o n allocated =>
        have splices := splices_armEntries (r := r) (t := t) allocated
        have ended := standsAs_endBatch (s := s.armEntries r (s.ws r) t
          (q.applied.filterMap Edit.slotEdit?) (inverseEdits s (q.applied.filterMap Edit.slotEdit?)) o n)
          r (deferredOutcome (s.ws r) q o n)
        rw [judged, trigger] at runs
        dsimp only at runs
        rw [if_neg some, allocated] at runs
        have stored := fun l : s.rangeLaw => inRange_of_applied (judgeDeferred_eq_ok judged) l
        exact ⟨runs, fun l => rangeLaw_standsAs ended
            (rangeLaw_armEntries allocated (stored l) (inRange_inverse (stored l) l) l),
          fun c counts l => fallbackLaw_facesAs ((facesAs_of_splices splices).trans ended.faces)
            (runs.2 _ lawful_countLaw c counts) l⟩

/-! ### The commit act -/

theorem upholds_commit (r : Requester) : UpholdsIf (s.apart r) s (s.commit r) := by
  have ready : s.apart r → s.tablesReady.apart r := apart_standsAs standsAs_tablesReady
  unfold State.commit
  dsimp only
  refine upholds_tablesReady.always.trans ?_ ready
  split
  · next mode =>
    exact (upholds_commitImmediate mode (updates_takeUpdates _)).trans (upholds_takeReports.always (p := True))
      fun _ => trivial
  · next mode => exact (upholds_commitDeferred mode).always

/-- An execution leaves the workspaces as they are. -/
theorem core_ws_execute (e : Nat) (r : Requester) : ((s.execute e).ws r).core = (s.ws r).core := by
  have ready : (s.tablesReady.ws r).core = (s.ws r).core :=
    (ws_of_sides sides_takeUpdates r).trans (congrArg Workspace.core (ws_settleCtab s r))
  have noUpdates : s.tablesReady.updates = [] := updates_takeUpdates _
  unfold State.execute
  dsimp only
  refine Eq.trans ?_ ready
  split
  · exact congrArg Workspace.core (ws_of_ws ⟨by rw [passEntry_frame noUpdates], by rw [passEntry_frame noUpdates]⟩ r)
  · exact congrArg Workspace.core (ws_of_ws ⟨by rw [failEntry_frame], by rw [failEntry_frame]⟩ r)

theorem core_ws_timeOccurs (e : Nat) (m : MatcherName) (r : Requester) : ((s.timeOccurs e m).ws r).core = (s.ws r).core := by
  have written : ∀ (s : State) (x : Entry), ((s.setEntry e x).ws r).core = (s.ws r).core := fun s x => by cases r <;> rfl
  unfold State.timeOccurs State.occur
  dsimp only
  repeat' split
  · rw [core_ws_execute, written, written]
  · rw [written, written]
  · rfl

theorem core_ws_testTimes (r : Requester) : (s.testTimes.ws r).core = (s.ws r).core :=
  foldl_same (fun t => (t.ws r).core) _ (fun _ _ => core_ws_timeOccurs _ _ r) _ _

theorem core_ws_spsReady (r : Requester) : (s.spsReady.ws r).core = (s.ws r).core := by
  have reported : (s.testTimes.testTimes.takeReports.ws r).core = (s.testTimes.testTimes.ws r).core := by
    obtain ⟨E, a, b, c, taken⟩ := takeReports_eq s.testTimes.testTimes
    rw [taken]
    cases r <;> rfl
  exact reported.trans ((core_ws_testTimes r).trans (core_ws_testTimes r))

theorem upholds_commitAct (r : Requester) : UpholdsIf (s.apart r) s (s.commitAct r) := by
  unfold State.commitAct
  split
  · exact upholds_commit r
  · next mode =>
    have edits : (s.spsReady.ws r).edits = (s.ws r).edits := congrArg (·.2.1) (core_ws_spsReady r)
    exact upholds_spsReady.always.trans (upholds_commit r) fun apart => by unfold State.apart; rwa [edits]

theorem standsAs_settleIdle : s.standsAs s.settleIdle := by
  refine (standsAs_of_core (s := s) (t := { s with idleDue := [] }) rfl).trans
    (standsAs_foldl (f := State.expireIdle) (fun s r => ?_) _ _)
  unfold State.expireIdle
  split
  · exact standsAs_ite (standsAs_abort r _) (standsAs_refl s)
  · exact standsAs_refl s

theorem upholds_commitAnswered (r : Requester) : UpholdsIf (s.apart r) s (s.commitAnswered r) := by
  have settled : s.apart r → s.settleIdle.apart r := apart_standsAs standsAs_settleIdle
  unfold State.commitAnswered
  dsimp only
  split
  · refine upholds_settleIdle.always.trans (.trans (upholds_commitAct r) (upholds_answer r _ _).always id) settled
  · exact upholds_settleIdle.always

/-- Every command, the commit act under its condition. -/
theorem upholds_command {c : Instr} (h : exec c s = .next t) :
    UpholdsIf (∀ r, c = .commitAct r → s.apart r) s t := by
  cases c
  case commitAct r =>
    unfold exec execCommitAct at h
    injection h with h
    subst h
    unfold State.awake
    split
    · exact (Upholds.refl s).always
    · exact (Upholds.refl s).always.trans (upholds_commitAnswered r) fun apart => apart r rfl
  all_goals exact (upholds_exec (fun r same => by cases same) h).always

theorem step_of_pending {c : Instr} {rest : List Instr} (first : s.pending = c :: rest) :
    step s = exec c { s with pending := rest } := by
  unfold step
  rw [first]

/-- A step executes the first pending command, if one is pending; the laws do not read what else is. -/
theorem upholds_step (h : step s = .next t) : ∃ rest, UpholdsIf s.bindsApart { s with pending := rest } t := by
  cases first : s.pending with
  | nil =>
    unfold step at h
    rw [first] at h
    injection h with h
    exact ⟨s.pending, h ▸ (Upholds.refl s).always⟩
  | cons c rest =>
    rw [step_of_pending first] at h
    obtain ⟨runs, range, fallback⟩ := upholds_command h
    refine ⟨rest, runs, range, fun apart => fallback fun r commits => ?_⟩
    subst commits
    exact apart r rest first

end

/-- Settles O55: the on-air states by the walk of `Kept`, the fallbacks on air by that of `Upholds`. -/
theorem everyStepKeepsTheSlotLaw : Obligations.EveryStepKeepsTheSlotLaw := by
  unfold Obligations.EveryStepKeepsTheSlotLaw
  refine ⟨fun s t law h => kept_step s closed_slotLaw (fun _ _ p => p) law h, fun s t canonical counts _ law apart h => ?_⟩
  obtain ⟨rest, upholds⟩ := upholds_step h
  exact upholds.fallback apart canonical counts law

/-- Settles O59: an edit is in range when it is held, and from then on it is stored, inverted and bound as it is. -/
theorem everyStepKeepsTheRanges : Obligations.EveryStepKeepsTheRanges := by
  unfold Obligations.EveryStepKeepsTheRanges
  intro s t law h
  obtain ⟨rest, upholds⟩ := upholds_step h
  exact upholds.range law

end Sys2Proof.Machine
end

