-- ==== Sys2Proof/Proofs/Reports.lean ====
section
/-! The reports that slots left PENDING, taken one entry and one slot at a time (R80, R155), and so what a completed
trigger does within its row (R144 to R153). -/

namespace Sys2Proof.Machine

/-- A SWITCHING entry loses a tracked slot; left with none, it ends (R155). -/
def Entry.untracked (x : Entry) (p : Nat × Nat) : Entry :=
  if x.state = .switching && x.tracked.contains p then
    if x.tracked.filter (· != p) = [] then x.ended .done none else { x with tracked := x.tracked.filter (· != p) }
  else x

/-- What a list of slots leaves of an entry: the slots it tracks are those that the list does not name (R155). -/
def Entry.untrackedAll (x : Entry) (l : List (Nat × Nat)) : Entry :=
  if x.state = .switching ∧ ∃ p ∈ x.tracked, p ∈ l then
    if (x.tracked.filter fun p => !l.contains p) = [] then x.ended .done none
    else { x with tracked := x.tracked.filter fun p => !l.contains p }
  else x

theorem untracked_of_not_switching {x : Entry} (h : x.state ≠ .switching) (p : Nat × Nat) : x.untracked p = x := by
  unfold Entry.untracked
  rw [if_neg (by simp [h])]

theorem foldl_untracked_of_not_switching {x : Entry} (h : x.state ≠ .switching) (l : List (Nat × Nat)) :
    l.foldl Entry.untracked x = x := by
  induction l with
  | nil => rfl
  | cons p l ih => rw [List.foldl_cons, untracked_of_not_switching h, ih]

theorem untrackedAll_of_not_switching {x : Entry} (h : x.state ≠ .switching) (l : List (Nat × Nat)) :
    x.untrackedAll l = x := if_neg fun hit => h hit.1

theorem filter_not_cons (tracked : List (Nat × Nat)) (p : Nat × Nat) (l : List (Nat × Nat)) :
    (tracked.filter fun q => !(p :: l).contains q) = (tracked.filter (· != p)).filter fun q => !l.contains q := by
  rw [List.filter_filter]
  congr 1
  funext q
  rw [Bool.eq_iff_iff]
  simp [and_comm]

/-- One slot, and then those of a list. -/
theorem untrackedAll_cons (x : Entry) (p : Nat × Nat) (l : List (Nat × Nat)) :
    x.untrackedAll (p :: l) = (x.untracked p).untrackedAll l := by
  by_cases switching : x.state = .switching
  · by_cases tracks : p ∈ x.tracked
    · have hit : x.state = .switching ∧ ∃ q ∈ x.tracked, q ∈ p :: l := ⟨switching, p, tracks, List.mem_cons_self ..⟩
      have first : x.untracked p = if x.tracked.filter (· != p) = [] then x.ended .done none
          else { x with tracked := x.tracked.filter (· != p) } := if_pos (by simp [switching, tracks])
      rw [Entry.untrackedAll, if_pos hit, filter_not_cons, first]
      by_cases gone : x.tracked.filter (· != p) = []
      · rw [if_pos gone, gone, untrackedAll_of_not_switching (by nofun)]
        rfl
      · rw [if_neg gone]
        by_cases more : ∃ q ∈ x.tracked.filter (· != p), q ∈ l
        · exact (if_pos (⟨switching, more⟩ : _ ∧ _)).symm
        · have all : ((x.tracked.filter (· != p)).filter fun q => !l.contains q) = x.tracked.filter (· != p) :=
            List.filter_eq_self.2 fun q hq => by simpa using fun listed => more ⟨q, hq, listed⟩
          rw [all, if_neg gone]
          exact (if_neg fun h => more h.2).symm
    · have kept : x.tracked.filter (· != p) = x.tracked :=
        List.filter_eq_self.2 fun q hq => by
          rw [bne_iff_ne]
          exact fun same => tracks (same ▸ hq)
      have still : x.untracked p = x := if_neg (by simp [tracks])
      have named : (∃ q ∈ x.tracked, q ∈ p :: l) ↔ ∃ q ∈ x.tracked, q ∈ l :=
        exists_congr fun q => and_congr_right fun hq => by
          rw [List.mem_cons]
          exact or_iff_right fun same => tracks (same ▸ hq)
      rw [still, Entry.untrackedAll, Entry.untrackedAll, filter_not_cons, kept]
      simp only [named]
  · rw [untracked_of_not_switching switching, untrackedAll_of_not_switching switching,
      untrackedAll_of_not_switching switching]

/-- One slot after another is all of them at once. -/
theorem foldl_untracked (x : Entry) (l : List (Nat × Nat)) : l.foldl Entry.untracked x = x.untrackedAll l := by
  induction l generalizing x with
  | nil => simp [Entry.untrackedAll]
  | cons p l ih => rw [List.foldl_cons, ih, untrackedAll_cons]

section
variable {s t v : State}

/-! ### The SPS takes reports entry by entry -/

theorem isEmpty_entry_setEntry (e : Nat) (y : Entry) : ((s.setEntry e y).entry e).tracked.isEmpty = y.tracked.isEmpty := by
  rw [entry_setEntry, if_pos rfl]

theorem entry_untrack (e : Nat) (p : Nat × Nat) (d : Nat) :
    (s.untrack e p).entry d = if e = d then (s.entry e).untracked p else s.entry d := by
  unfold State.untrack Entry.untracked
  dsimp only
  split
  · rw [isEmpty_entry_setEntry]
    by_cases gone : (s.entry e).tracked.filter (· != p) = []
    · rw [if_pos gone, if_pos (by simpa using gone), entry_raise, entry_freeEntry]
      by_cases own : e = d
      · rw [if_pos own, if_pos own, entry_setEntry, if_pos rfl]
        rfl
      · rw [if_neg own, if_neg own, entry_setEntry, if_neg own]
    · rw [if_neg gone, if_neg (by simpa using gone), entry_setEntry]
  · split
    · next own => rw [own]
    · rfl

theorem find?_raise (k : AttKind) (d : Nat) :
    Table.find? (s.raise k d).attention k.bit = some ((Table.find? s.attention k.bit).getD d) := by
  unfold State.raise
  cases raised : Table.find? s.attention k.bit with
  | some c => exact raised
  | none => exact (Table.find?_put _ _ _ _).trans (if_pos rfl)

/-- SPLICE_DONE is raised for an entry that ends, and nothing else is (R155, R165). -/
theorem attention_untrack (e : Nat) (p : Nat × Nat) :
    ((s.untrack e p).attention = s.attention ∧ (s.untrack e p).attn = s.attn
        ∧ ((s.entry e).untracked p).state = (s.entry e).state)
      ∨ (s.entry e).state = .switching ∧ ((s.entry e).untracked p).state ≠ .switching
        ∧ Table.find? (s.untrack e p).attention 0 = some ((Table.find? s.attention 0).getD e) := by
  unfold State.untrack Entry.untracked
  dsimp only
  split
  · next hit =>
    rw [isEmpty_entry_setEntry]
    by_cases gone : (s.entry e).tracked.filter (· != p) = []
    · rw [if_pos gone, if_pos (by simpa using gone)]
      obtain ⟨switching, -⟩ := (Bool.and_eq_true ..).mp hit
      exact .inr ⟨of_decide_eq_true switching, by nofun, find?_raise .spliceDone e⟩
    · rw [if_neg (by simpa using gone), if_neg gone]
      exact .inl ⟨rfl, rfl, rfl⟩
  · exact .inl ⟨rfl, rfl, rfl⟩

/-- Each report's slot, once for each entry that it names. -/
def State.reported (s : State) : List (Nat × (Nat × Nat)) :=
  s.reports.flatMap fun y => y.entries.map fun e => (e, (y.feed, y.slot))

/-- The slots of a list are taken from their entries. -/
def State.untrackAll (s : State) (l : List (Nat × (Nat × Nat))) : State := l.foldl (fun s x => s.untrack x.1 x.2) s

theorem drainReports_reported (s : State) : s.drainReports = ({ s with reports := [] } : State).untrackAll s.reported := by
  unfold State.drainReports State.untrackAll State.reported
  rw [List.foldl_flatMap]
  simp only [List.foldl_map]
  rfl

theorem entry_untrackAll (l : List (Nat × (Nat × Nat))) (e : Nat) : (s.untrackAll l).entry e
    = (s.entry e).untrackedAll ((l.filter fun x => x.1 == e).map (·.2)) := by
  rw [← foldl_untracked]
  unfold State.untrackAll
  induction l generalizing s with
  | nil => rfl
  | cons x l ih =>
    rw [List.foldl_cons, ih, entry_untrack]
    by_cases own : x.1 = e
    · simp [own]
    · simp [own]

/-- An entry that leaves SWITCHING. -/
def State.stopsSwitching (s t : State) (e : Nat) : Prop := (s.entry e).state = .switching ∧ (t.entry e).state ≠ .switching

theorem switching_of_untrackAll {l : List (Nat × (Nat × Nat))} {e : Nat} (h : ((s.untrackAll l).entry e).state = .switching) :
    (s.entry e).state = .switching := by
  rw [entry_untrackAll] at h
  unfold Entry.untrackedAll at h
  split at h
  · next hit => exact hit.1
  · exact h

theorem untrackAll_cons (x : Nat × (Nat × Nat)) (l : List (Nat × (Nat × Nat))) :
    s.untrackAll (x :: l) = (s.untrack x.1 x.2).untrackAll l := rfl

/-- An entry that the first of the slots leaves without one has stopped for good. -/
theorem stops_of_untracked {e : Nat} {p : Nat × Nat} (switching : (s.entry e).state = .switching)
    (stopped : ((s.entry e).untracked p).state ≠ .switching) (l : List (Nat × (Nat × Nat))) :
    s.stopsSwitching ((s.untrack e p).untrackAll l) e := by
  refine ⟨switching, fun later => stopped ?_⟩
  have first := switching_of_untrackAll later
  rwa [entry_untrack, if_pos rfl] at first

/-- What stops after the first slot has stopped since the start. -/
theorem stops_after_untrack {e d : Nat} {p : Nat × Nat} (h : (s.untrack e p).stopsSwitching t d) : s.stopsSwitching t d := by
  obtain ⟨switching, stopped⟩ := h
  exact ⟨switching_of_untrackAll (l := [(e, p)]) switching, stopped⟩

/-- With no entry left without a tracked slot nothing is raised. -/
theorem attention_untrackAll_none {l : List (Nat × (Nat × Nat))} (none : ∀ e, ¬ s.stopsSwitching (s.untrackAll l) e) :
    (s.untrackAll l).attention = s.attention ∧ (s.untrackAll l).attn = s.attn := by
  induction l generalizing s with
  | nil => exact ⟨rfl, rfl⟩
  | cons x l ih =>
    obtain ⟨e, p⟩ := x
    rw [untrackAll_cons] at none ⊢
    obtain ⟨attention, attn⟩ := ih (s := s.untrack e p) fun d stops => none d (stops_after_untrack stops)
    rcases attention_untrack (s := s) e p with ⟨sameAttention, sameAttn, -⟩ | ⟨switching, stopped, -⟩
    · exact ⟨attention.trans sameAttention, attn.trans sameAttn⟩
    · exact (none e (stops_of_untracked switching stopped l)).elim

theorem attention_untrackAll_some {l : List (Nat × (Nat × Nat))} {d : Nat} (raised : Table.find? s.attention 0 = some d) :
    Table.find? (s.untrackAll l).attention 0 = some d := by
  induction l generalizing s with
  | nil => exact raised
  | cons x l ih =>
    obtain ⟨e, p⟩ := x
    refine ih (s := s.untrack e p) ?_
    rcases attention_untrack (s := s) e p with ⟨same, -⟩ | ⟨-, -, done⟩
    · rw [same, raised]
    · rw [done, raised]
      rfl

/-- The first entry that ends raises SPLICE_DONE, unless it stands raised (R165). -/
theorem attention_untrackAll {l : List (Nat × (Nat × Nat))} {e : Nat} (ends : s.stopsSwitching (s.untrackAll l) e) :
    ∃ d, Table.find? (s.untrackAll l).attention 0 = some d
      ∧ (Table.find? s.attention 0 = some d ∨ Table.find? s.attention 0 = none ∧ s.stopsSwitching (s.untrackAll l) d) := by
  induction l generalizing s with
  | nil => exact (ends.2 ends.1).elim
  | cons x l ih =>
    obtain ⟨i, p⟩ := x
    rw [untrackAll_cons] at ends ⊢
    rcases attention_untrack (s := s) i p with ⟨same, -, state⟩ | ⟨switching, stopped, done⟩
    · have later : ((s.untrack i p).entry e).state = .switching := by
        rw [entry_untrack]
        split
        · next own => rw [state, own, ends.1]
        · exact ends.1
      obtain ⟨d, raised, before | ⟨before, stops⟩⟩ := ih (s := s.untrack i p) ⟨later, ends.2⟩
      · exact ⟨d, raised, .inl (same ▸ before)⟩
      · exact ⟨d, raised, .inr ⟨same ▸ before, stops_after_untrack stops⟩⟩
    · have stops := stops_of_untracked switching stopped l
      have raised := attention_untrackAll_some (l := l) done
      cases before : Table.find? s.attention 0 with
      | none => exact ⟨i, by rw [raised, before]; rfl, .inr ⟨rfl, stops⟩⟩
      | some d => exact ⟨d, by rw [raised, before]; rfl, .inl rfl⟩

/-! ### Every report (R155) -/

/-- The slots that the reports take from an entry. -/
def State.reportedOf (s : State) (e : Nat) : List (Nat × Nat) := (s.reported.filter fun x => x.1 == e).map (·.2)

theorem contains_reportedOf (e : Nat) (p : Nat × Nat) : (s.reports.any fun y => y.entries.contains e && p == (y.feed, y.slot))
    = (s.reportedOf e).contains p := by
  rw [Bool.eq_iff_iff]
  unfold State.reportedOf State.reported
  simp only [List.mem_map, List.mem_filter, List.mem_flatMap, List.any_eq_true, Bool.and_eq_true, List.contains_iff_mem,
    beq_iff_eq]
  constructor
  · rintro ⟨y, reported, named, rfl⟩
    exact ⟨_, ⟨⟨y, reported, e, named, rfl⟩, rfl⟩, rfl⟩
  · rintro ⟨_, ⟨⟨y, reported, d, named, rfl⟩, rfl⟩, rfl⟩
    exact ⟨y, reported, named, rfl⟩

theorem entry_drainReports (e : Nat) : s.drainReports.entry e = (s.entry e).untrackedAll (s.reportedOf e) := by
  rw [drainReports_reported, entry_untrackAll]
  rfl

/-- A tracked slot of the entry is among those that the reports take from it. -/
def State.reportsHit (s : State) (e : Nat) : Prop :=
  (s.entry e).state = .switching ∧ ∃ p ∈ (s.entry e).tracked, p ∈ s.reportedOf e

/-- The tracked slots that the reports leave to an entry. -/
def State.trackedStill (s : State) (e : Nat) : List (Nat × Nat) :=
  (s.entry e).tracked.filter fun p => !(s.reportedOf e).contains p

theorem entry_drainReports_hit {e : Nat} (hit : s.reportsHit e) : s.drainReports.entry e
    = if s.trackedStill e = [] then (s.entry e).ended .done none else { s.entry e with tracked := s.trackedStill e } :=
  (entry_drainReports e).trans (if_pos hit)

theorem entry_drainReports_of_not_hit {e : Nat} (free : ¬ s.reportsHit e) : s.drainReports.entry e = s.entry e :=
  (entry_drainReports e).trans (if_neg free)

/-- An entry that leaves SWITCHING is one that the reports leave without a tracked slot. -/
theorem stops_iff_none_left (e : Nat) :
    s.stopsSwitching s.drainReports e ↔ s.reportsHit e ∧ s.trackedStill e = [] := by
  unfold State.stopsSwitching
  by_cases hit : s.reportsHit e
  · rw [entry_drainReports_hit hit]
    by_cases none : s.trackedStill e = []
    · rw [if_pos none]
      exact ⟨fun _ => ⟨hit, none⟩, fun _ => ⟨hit.1, nofun⟩⟩
    · rw [if_neg none]
      exact ⟨fun h => (h.2 hit.1).elim, fun h => (none h.2).elim⟩
  · rw [entry_drainReports_of_not_hit hit]
    exact ⟨fun h => (h.2 h.1).elim, fun h => (hit h.1).elim⟩

theorem reportsTaken_drainReports : s.reportsTaken s.drainReports := by
  have stops := stops_iff_none_left (s := s)
  have raisedNone := attention_untrackAll_none (s := { s with reports := [] }) (l := s.reported)
  have raisedSome := fun e => attention_untrackAll (s := { s with reports := [] }) (l := s.reported) (e := e)
  rw [← drainReports_reported] at raisedNone raisedSome
  unfold State.reportsTaken
  simp only [contains_reportedOf, List.contains_iff_mem]
  refine ⟨?_, fun e => ⟨entry_drainReports_hit, entry_drainReports_of_not_hit⟩, fun left => ?_, fun e hit none => ?_⟩
  · obtain ⟨E, a, b, drained⟩ := drainReports_eq s
    rw [drained]
  · exact raisedNone fun e ended => left e ((stops e).1 ended).1 ((stops e).1 ended).2
  · obtain ⟨d, raised, before | ⟨before, ended⟩⟩ := raisedSome e ((stops e).2 ⟨hit, none⟩)
    · exact ⟨d, raised, .inl before⟩
    · exact ⟨d, raised, .inr ⟨before, (stops d).1 ended⟩⟩

theorem timeWaits_iff : s.timeWaits = true ↔ ∃ e < 64, ∃ m, s.timeDue e m = true := by
  unfold State.timeWaits allMatchers
  simp only [List.any_eq_true, List.mem_flatMap, List.mem_range]
  constructor
  · rintro ⟨⟨d, m⟩, ⟨e, small, listed⟩, due⟩
    have own : d = e := by
      rcases List.mem_cons.1 listed with same | same
      · exact congrArg Prod.fst same
      · exact congrArg Prod.fst (List.mem_singleton.1 same)
    exact ⟨e, small, m, own ▸ due⟩
  · rintro ⟨e, small, m, due⟩
    exact ⟨(e, m), ⟨e, small, by cases m <;> simp⟩, due⟩

theorem takeReports_of_waits (h : s.timeWaits = true) : s.takeReports = s := if_pos h

theorem takeReports_of_not_waits (h : s.timeWaits ≠ true) : s.takeReports = s.drainReports := if_neg h

theorem exec_timeMatcherOccurs {e : Nat} {m : MatcherName} (small : e < 64) (awake : s.phase ≠ .asserted)
    (due : s.timeDue e m = true) : exec (.timeMatcherOccurs e m) s = .next (s.timeOccurs e m).takeReports := by
  change execTimeMatcherOccurs e m s = _
  unfold execTimeMatcherOccurs
  rw [if_pos (show e < Config.spliceEntries from small), awake_of_not_asserted awake, if_pos due]

end

/-- Settles O33: the matcher's occurrence and the cue's offer as the tests of the clock have them, and the reports by one
slot after another. -/
theorem completedTriggersExecute : Obligations.CompletedTriggersExecute := by
  unfold Obligations.CompletedTriggersExecute
  refine ⟨fun e m s small awake settled due => ?_, fun c s settled => cueOffered_offerCue settled c,
    fun l r c s awake idle cues before reached => cueMatured_of_first awake idle cues before reached,
    fun s _ => ⟨fun waits => takeReports_of_waits (timeWaits_iff.2 waits), fun none => ?_⟩⟩
  · rw [exec_timeMatcherOccurs small awake due, timeOccurs_of_due due]
    exact ⟨_, occurs_occur (settled_markOccurred settled e m) (stage_markOccurred (stage_of_timeDue due) m) m, rfl⟩
  · have quiet : s.timeWaits ≠ true := fun waits => by
      obtain ⟨e, -, m, due⟩ := timeWaits_iff.1 waits
      rw [none e m] at due
      cases due
    rw [takeReports_of_not_waits quiet]
    exact reportsTaken_drainReports

end Sys2Proof.Machine
end

