-- ==== Sys2Proof/Proofs/Reads.lean ====
section
/-! The requests that read (R82, R101, R158, R165, R168, R178, R179): each owner answers with what stands. -/

namespace Sys2Proof.Machine

section
variable {s : State} {r : Requester}

/-! ### Reads of one thing (R82, R101, R158, R165, R168) -/

theorem ownReadLeg_eq {f : Nat} (small : f < 24) : ownReadLeg s r (packed [(1, f)]) = (s, .taken (encLeg s f)) := by
  unfold ownReadLeg
  rw [fields_one (by omega)]
  exact if_pos ((feedOk_iff f).2 small)

theorem ownReadSlot_eq {f i : Nat} (feed : f < 24) (slot : i < 16) :
    ownReadSlot s r (packed [(1, f), (1, i)]) = (s, .taken (encSlot s f i)) := by
  unfold ownReadSlot
  rw [fields_two (by omega) (by omega)]
  exact if_pos (by rw [Bool.and_eq_true, feedOk_iff, slotOk_iff]; exact ⟨feed, slot⟩)

theorem ownReadSplice_eq {e : Nat} (small : e < 64) (ready : s.spsReady = s) :
    ownReadSplice s r (packed [(1, e)]) = (s, .taken (encEntry s e)) := by
  unfold ownReadSplice
  rw [fields_one (by omega)]
  dsimp only
  rw [ready]
  exact if_pos small

theorem ownReadOutcome_eq (q : Requester) :
    ownReadOutcome s r (packed [(1, requesterNum q)]) = (s, .taken (encOutcome (s.outcome q))) := by
  unfold ownReadOutcome
  rw [fields_one (by cases q <;> decide)]
  cases q <;> rfl

theorem ownReadInput_eq {i : Nat} (small : i < 8) :
    ownReadInput s r (packed [(1, i)]) = (s, .taken (encInput (s.input i))) := by
  unfold ownReadInput
  rw [fields_one (by omega)]
  exact if_pos small

/-! ### FIND RECORD and LIST RECORDS (R178) -/

/-- The body of a FIND RECORD that finds a record, or none. -/
def encFound (o : Option (Nat × Record)) : List Byte :=
  packed [(2, (o.map (·.1)).getD 0), (1, (o.map (·.2.state.num)).getD 0)]

theorem ownFindRecord_eq {i n : Nat} (settled : s.settleCtab = s) (input : i < 8) (low : 1 ≤ n) (high : n ≤ 65535) :
    ownFindRecord s r (packed [(1, i), (2, n)])
      = (s, .taken (encFound (s.records.find? fun c => c.2.key == ⟨i, n⟩))) := by
  unfold ownFindRecord
  rw [fields_two (by omega) (by omega)]
  dsimp only
  rw [settled, if_pos (by simp [within, input, low, high])]
  cases s.records.find? fun c => c.2.key == ⟨i, n⟩ <;> simp [encFound, packed]

theorem record?_of_mem (canonical : s.canonical) {c : Nat × Record} (listed : c ∈ s.records) :
    s.record? c.1 = some c.2 := Table.find?_of_mem _ canonical.records_rising c listed

/-- Keys are distinct, so that the record found is the one with the key (R4). -/
theorem find?_key {i n h : Nat} {x : Record} (canonical : s.canonical) (distinct : s.keysDistinct)
    (found : s.record? h = some x) (key : x.key = ⟨i, n⟩) :
    (s.records.find? fun c => c.2.key == ⟨i, n⟩) = some (h, x) := by
  have listed : (h, x) ∈ s.records := Table.find?_mem _ _ _ found
  cases first : s.records.find? fun c => c.2.key == ⟨i, n⟩ with
  | none => exact (List.find?_eq_none.1 first _ listed (by simp [key])).elim
  | some c =>
    have other := record?_of_mem canonical (List.mem_of_find?_eq_some first)
    have same : c.2.key = ⟨i, n⟩ := by simpa using List.find?_some first
    have handle : c.1 = h := distinct _ _ _ _ other found (same.trans key.symm)
    rw [handle, found] at other
    rw [← handle, Option.some.inj other]

theorem find?_key_none {i n : Nat} (canonical : s.canonical) (free : ∀ h x, s.record? h = some x → x.key ≠ ⟨i, n⟩) :
    (s.records.find? fun c => c.2.key == ⟨i, n⟩) = none :=
  List.find?_eq_none.2 fun c listed => by simpa using free _ _ (record?_of_mem canonical listed)

theorem ownListRecords_eq {h : Nat} (settled : s.settleCtab = s) (low : 1 ≤ h) (high : h ≤ 1023) :
    ownListRecords s r (packed [(2, h)])
      = (s, .taken ((listedFrom s.records h).flatMap encListed ++ bytesOf 2 (nextListed (listedFrom s.records h)))) := by
  unfold ownListRecords
  rw [fields_one (by omega)]
  dsimp only
  rw [settled]
  exact if_pos ((handleOk_iff h).2 ⟨low, high⟩)

/-! ### QUERY CARRIAGE (R179) -/

theorem carries_iff {h f : Nat} : s.carries h f = true ↔ ∃ i < 16, (s.slot f i).source = some h := by
  simp [State.carries, Config.slotsPerLeg]

theorem mem_feedsOf {feeds : FeedSet} {f : Nat} : f ∈ feedsOf feeds ↔ f < 24 ∧ feeds.getLsbD f = true := by
  simp [feedsOf, Config.feeds]

/-- The first of the listed feeds is the lowest of the set. -/
theorem lowest_of_feedsOf {feeds : FeedSet} {a : Nat} {l : List Nat} (listed : feedsOf feeds = a :: l) (f : Nat)
    (lower : f < a) : ¬ feeds.getLsbD f = true := by
  intro named
  have rising : (feedsOf feeds).Pairwise (· < ·) := List.pairwise_lt_range.filter _
  have first : a ∈ feedsOf feeds := by rw [listed]; exact List.mem_cons_self ..
  obtain ⟨small, -⟩ := mem_feedsOf.1 first
  have mem : f ∈ feedsOf feeds := mem_feedsOf.2 ⟨by omega, named⟩
  rw [listed, List.pairwise_cons] at rising
  rw [listed] at mem
  rcases List.mem_cons.1 mem with same | later
  · omega
  · have := rising.1 f later
    omega

theorem carriageCode_carriage (h : Nat) (feeds : FeedSet) : s.carriageCode h feeds (s.carriage h (feedsOf feeds)) := by
  unfold State.carriageCode State.carriage
  simp only [← carries_iff]
  split
  · next noneHas =>
    refine .inl ⟨rfl, fun f small named has => ?_⟩
    have any : (feedsOf feeds).any (s.carries h) = true := List.any_eq_true.2 ⟨f, mem_feedsOf.2 ⟨small, named⟩, has⟩
    rw [any] at noneHas
    cases noneHas
  · next someHas =>
    obtain ⟨g, listed, has⟩ : ∃ g ∈ feedsOf feeds, s.carries h g = true := by simpa using someHas
    split
    · next allHave =>
      exact .inr (.inl ⟨rfl, ⟨g, mem_feedsOf.1 listed⟩, fun f small named =>
        List.all_eq_true.1 allHave f (mem_feedsOf.2 ⟨small, named⟩)⟩)
    · next notAll =>
      obtain ⟨k, other, lacks⟩ : ∃ k ∈ feedsOf feeds, ¬ s.carries h k = true := by simpa using notAll
      have mixed : (∃ f < 24, feeds.getLsbD f ∧ s.carries h f = true) ∧ ∃ f < 24, feeds.getLsbD f ∧ ¬ s.carries h f = true :=
        ⟨⟨g, (mem_feedsOf.1 listed).1, (mem_feedsOf.1 listed).2, has⟩,
          ⟨k, (mem_feedsOf.1 other).1, (mem_feedsOf.1 other).2, lacks⟩⟩
      refine .inr (.inr ⟨mixed.1, mixed.2, ?_⟩)
      cases all : feedsOf feeds with
      | nil => rw [all] at listed; cases listed
      | cons a l =>
        obtain ⟨small, named⟩ := mem_feedsOf.1 (all ▸ List.mem_cons_self .. : a ∈ feedsOf feeds)
        refine ⟨a, small, named, lowest_of_feedsOf all, ?_⟩
        rw [List.head?_cons, Option.any_some]
        split
        · next has => exact .inl ⟨rfl, has⟩
        · next lacks => exact .inr ⟨rfl, lacks⟩

theorem ownQueryCarriage_eq {h : Nat} (feeds : FeedSet) (low : 1 ≤ h) (high : h ≤ 1023) :
    ownQueryCarriage s r (packed [(2, h), (3, feeds.toNat)])
      = (s, .taken (packed [(1, s.carriage h (feedsOf feeds))])) := by
  unfold ownQueryCarriage
  rw [fields_two (by omega) feeds.isLt]
  dsimp only
  rw [if_pos ((handleOk_iff h).2 ⟨low, high⟩), BitVec.ofNat_toNat, BitVec.setWidth_eq]
  simp [packed]

end

/-- Settles O11: every owner's answer, at a port that is ready and with nothing that is due before it. -/
theorem readsGiveWhatStands : Obligations.ReadsGiveWhatStands := by
  unfold Obligations.ReadsGiveWhatStands
  refine ⟨⟨fun i n s ready canonical distinct input low high => ⟨fun h x found key => ?_, fun free => ?_⟩,
    fun h s ready low high => ?_⟩, fun s ready => ⟨fun f small => ?_, fun f feed i slot => ?_, fun e small => ?_, fun q => ?_,
    fun i small => ?_, ?_, fun h feeds low high => ?_⟩⟩
  · refine exec_packed (n := 3) ready rfl (by decide)
      ((ownFindRecord_eq (settleCtab_accepted s ready 3) input low high).trans ?_)
    rw [show (s.accepted 3).records = s.records from rfl, find?_key canonical distinct found key]
    rfl
  · refine exec_packed (n := 3) ready rfl (by decide)
      ((ownFindRecord_eq (settleCtab_accepted s ready 3) input low high).trans ?_)
    rw [show (s.accepted 3).records = s.records from rfl, find?_key_none canonical free]
    rfl
  · refine ⟨listedFrom s.records h, nextListed (listedFrom s.records h), rfl, fun short => ?_, fun c last => ?_, ?_⟩
    · unfold nextListed
      rw [List.getElem?_eq_none (by omega)]
    · unfold nextListed
      rw [last]
      rfl
    · exact exec_packed (n := 2) ready rfl (by decide) (ownListRecords_eq (settleCtab_accepted s ready 2) low high)
  · exact exec_packed (n := 1) ready rfl (by decide) (ownReadLeg_eq small)
  · exact exec_packed (n := 2) ready rfl (by decide) (ownReadSlot_eq feed slot)
  · exact exec_packed (n := 1) ready rfl (by decide) (ownReadSplice_eq small (spsReady_accepted s ready 1))
  · exact exec_packed (n := 1) ready rfl (by decide) (ownReadOutcome_eq q)
  · exact exec_packed (n := 1) ready rfl (by decide) (ownReadInput_eq small)
  · exact exec_direct (owner := ownReadAttention) ready (by decide) rfl
  · exact ⟨_, carriageCode_carriage h feeds, exec_packed (n := 5) ready rfl (by decide) (ownQueryCarriage_eq feeds low high)⟩

end Sys2Proof.Machine
end

