-- ==== Sys2Proof/Proofs/BatchOwners.lean ====
section
/-! The owners of the batch requests, for either requester: what a claim takes (R62), and what OPEN BATCH, CLOSE BATCH and
ABANDON BATCH come to (R102 to R105, R116). -/

namespace Sys2Proof.Machine

section
variable {s t u : State} {r : Requester} {p : List Byte}

/-! ### Claims (R62) -/

/-- The zone of the other requester. -/
def barredZone : Requester → Zone
  | .site => .network
  | .network => .site

theorem zoneAllows_eq_false_iff (r : Requester) (z : Zone) : zoneAllows r z = false ↔ z = barredZone r := by
  cases r <;> cases z <;> decide

section
variable {named : Nat → Bool} {f : Nat}

/-- The lowest of the named feeds with a property. -/
theorem find?_feeds {q : Nat → Bool} (small : f < 24) (own : named f = true) (has : q f = true)
    (first : ∀ g < f, named g = true → q g = false) : ((List.range 24).filter named).find? q = some f := by
  rw [List.find?_filter, List.find?_range_eq_some]
  refine ⟨by simp [own, has], List.mem_range.2 small, fun g lower => ?_⟩
  cases other : named g with
  | false => rfl
  | true => simp [first g lower other]

theorem find?_feeds_none {q : Nat → Bool} (lacks : ∀ f < 24, named f = true → q f = false) :
    ((List.range 24).filter named).find? q = none :=
  List.find?_eq_none.2 fun f listed => by
    obtain ⟨small, own⟩ := List.mem_filter.1 listed
    rw [lacks f (List.mem_range.1 small) own]
    nofun

theorem claim_zoneRefused (small : f < 24) (own : named f = true) (zone : (s.leg f).zone = barredZone r)
    (first : ∀ g < f, ¬ (named g = true ∧ (s.leg g).zone = barredZone r)) :
    s.claim r ((List.range 24).filter named) = .error (.zoneRefused, f) := by
  have found : ((List.range 24).filter named).find? (fun f => !zoneAllows r (s.leg f).zone) = some f := by
    refine find?_feeds small own (by rw [(zoneAllows_eq_false_iff r _).2 zone]; rfl) fun g lower other => ?_
    have allows : zoneAllows r (s.leg g).zone ≠ false := fun bars => first g lower ⟨other, (zoneAllows_eq_false_iff r _).1 bars⟩
    simpa using allows
  unfold State.claim
  rw [found]

theorem find?_barred_none (zones : ∀ f < 24, ¬ (named f = true ∧ (s.leg f).zone = barredZone r)) :
    ((List.range 24).filter named).find? (fun f => !zoneAllows r (s.leg f).zone) = none :=
  find?_feeds_none fun f small own => by
    have allows : zoneAllows r (s.leg f).zone ≠ false := fun bars => zones f small ⟨own, (zoneAllows_eq_false_iff r _).1 bars⟩
    simpa using allows

theorem claim_claimed (zones : ∀ f < 24, ¬ (named f = true ∧ (s.leg f).zone = barredZone r)) (small : f < 24)
    (own : named f = true) (held : (s.leg f).claim ≠ none) (first : ∀ g < f, ¬ (named g = true ∧ (s.leg g).claim ≠ none)) :
    s.claim r ((List.range 24).filter named) = .error (.claimed, f) := by
  have found : ((List.range 24).filter named).find? (fun f => (s.leg f).claim.isSome) = some f := by
    refine find?_feeds small own (Option.isSome_iff_ne_none.2 held) fun g lower other => ?_
    by_contra taken
    exact first g lower ⟨other, by simpa using taken⟩
  unfold State.claim
  rw [find?_barred_none zones, found]

/-- Every named leg is claimed, and nothing else changes. -/
theorem claim_ok (zones : ∀ f < 24, ¬ (named f = true ∧ (s.leg f).zone = barredZone r))
    (free : ∀ f < 24, ¬ (named f = true ∧ (s.leg f).claim ≠ none)) :
    ∃ legs, s.claim r ((List.range 24).filter named) = .ok { s with legs := legs }
      ∧ ∀ f, Table.look (Leg.start f) legs f
        = if f < 24 ∧ named f = true then { s.leg f with claim := some r } else s.leg f := by
  have allFree : ((List.range 24).filter named).find? (fun f => (s.leg f).claim.isSome) = none :=
    find?_feeds_none fun f small own => by
      by_contra taken
      exact free f small ⟨own, by simpa using taken⟩
  obtain ⟨legs, claimed⟩ := foldl_setLeg_eq (f := fun s f => s.setLeg f { s.leg f with claim := some r })
    (fun _ _ => ⟨_, rfl⟩) ((List.range 24).filter named) s
  refine ⟨legs, ?_, fun f => ?_⟩
  · unfold State.claim
    rw [find?_barred_none zones, allFree]
    exact congrArg Except.ok claimed
  · have leg := leg_foldl_setLeg (fun x => { x with claim := some r }) (fun _ => rfl) ((List.range 24).filter named) s f
    rw [claimed] at leg
    simp only [List.mem_filter, List.mem_range] at leg
    exact leg

end

/-! ### The port's side of a request: nothing that an owner does -/

theorem netFlight_endEarly (settled : s.ctabDue = []) (r : Requester) (o : OutcomeRecord) :
    (s.endEarly r o).netFlight = s.netFlight := by
  rw [endEarly_of_nil s settled, (batchEnded_endBatch s r o).1]
  simp

theorem netFlight_abort (settled : s.ctabDue = []) (r : Requester) (f : Failure) : (s.abort r f).netFlight = s.netFlight :=
  netFlight_endEarly settled r _

/-- A claim keeps what the setting of a leg keeps. -/
theorem same_claim {α : Type} (g : State → α) (kept : ∀ (s : State) f x, g (s.setLeg f x) = g s) {l : List Nat}
    (h : s.claim r l = .ok t) : g t = g s := by
  unfold State.claim at h
  split at h
  · cases h
  · split at h
    · cases h
    · cases h
      exact foldl_same g (fun s f => s.setLeg f { s.leg f with claim := some r }) (fun _ _ => kept ..) _ _

/-! ### OPEN BATCH (R102, R104) -/

section
variable {l : Level} {b : BatchParams}

theorem ownOpenBatch_claimed (closed : (s.ws r).depth = 0) (parsed : parseOpen p = some ⟨some l, some b⟩)
    (claimed : s.claim r (feedsOf b.claims) = .ok t) :
    ownOpenBatch s r p = (t.setWs r (openedWorkspace t.uptime l b), some (.taken [])) := by
  unfold ownOpenBatch ownOpenFirst
  dsimp only
  rw [if_pos closed, parsed]
  dsimp only [Option.bind_some]
  rw [claimed]

theorem ownOpenBatch_refused {c : Code} {f : Nat} (closed : (s.ws r).depth = 0)
    (parsed : parseOpen p = some ⟨some l, some b⟩) (refused : s.claim r (feedsOf b.claims) = .error (c, f)) :
    ownOpenBatch s r p = (s, some (.refusedAt c f)) := by
  unfold ownOpenBatch ownOpenFirst
  dsimp only
  rw [if_pos closed, parsed]
  dsimp only [Option.bind_some]
  rw [refused]

theorem ownOpenBatch_badField (closed : (s.ws r).depth = 0) (bad : ∀ l b, parseOpen p ≠ some ⟨some l, some b⟩) :
    ownOpenBatch s r p = (s, some (.refused .badField)) := by
  unfold ownOpenBatch ownOpenFirst
  dsimp only
  rw [if_pos closed]
  split
  · next level batch =>
    obtain ⟨⟨_, _⟩, parsed, rfl⟩ := Option.bind_eq_some_iff.1 level
    rw [parsed] at batch
    obtain rfl : _ = some _ := batch
    exact (bad _ _ parsed).elim
  · rfl

theorem ownOpenBatch_level (opened : 1 ≤ (s.ws r).depth) (room : (s.ws r).depth < 4) {b : Option BatchParams}
    (parsed : parseOpen p = some ⟨some l, b⟩) : ownOpenBatch s r p
      = (s.setWs r { s.ws r with depth := (s.ws r).depth + 1, levels := (s.ws r).levels ++ [l] }, some (.taken [])) := by
  unfold ownOpenBatch
  dsimp only
  rw [if_neg (by omega), if_neg (show ¬ Config.maxDepth ≤ (s.ws r).depth from Nat.not_le.2 room), parsed]
  rfl

theorem ownOpenBatch_badLevel (opened : 1 ≤ (s.ws r).depth) (room : (s.ws r).depth < 4)
    (bad : ∀ l b, parseOpen p ≠ some ⟨some l, b⟩) : ownOpenBatch s r p = s.abortAnswered r (.plain .badField) [] := by
  have none : (parseOpen p).bind (·.level) = none := by
    refine Option.eq_none_iff_forall_ne_some.2 fun l level => ?_
    obtain ⟨⟨_, b⟩, parsed, rfl⟩ := Option.bind_eq_some_iff.1 level
    exact bad l b parsed
  unfold ownOpenBatch
  dsimp only
  rw [if_neg (by omega), if_neg (show ¬ Config.maxDepth ≤ (s.ws r).depth from Nat.not_le.2 room), none]

theorem ownOpenBatch_deep (deep : 4 ≤ (s.ws r).depth) :
    ownOpenBatch s r p = s.abortAnswered r (.plain .depthExceeded) [] := by
  unfold ownOpenBatch
  dsimp only
  rw [if_neg (by omega)]
  exact if_pos deep

/-! ### What an OPEN BATCH at depth 0 comes to (R102) -/

section
variable (closed : (s.ws r).depth = 0) (parsed : parseOpen p = some ⟨some l, some b⟩)
include closed parsed

theorem open_taken (zones : ∀ f < 24, ¬ (b.claims.getLsbD f = true ∧ (s.leg f).zone = barredZone r))
    (free : ∀ f < 24, ¬ (b.claims.getLsbD f = true ∧ (s.leg f).claim ≠ none)) :
    ∃ legs, ownOpenBatch s r p = (({ s with legs := legs } : State).setWs r (openedWorkspace s.uptime l b), some (.taken []))
      ∧ ∀ f, Table.look (Leg.start f) legs f
        = if b.claims.getLsbD f then { s.leg f with claim := some r } else s.leg f := by
  obtain ⟨legs, claimed, look⟩ := claim_ok zones free
  refine ⟨legs, ownOpenBatch_claimed closed parsed claimed, fun f => (look f).trans ?_⟩
  by_cases named : b.claims.getLsbD f = true
  · rw [if_pos ⟨BitVec.lt_of_getLsbD named, named⟩, if_pos named]
  · rw [if_neg fun both => named both.2, if_neg named]

theorem open_zoneRefused {f : Nat} (small : f < 24) (barred : b.claims.getLsbD f = true ∧ (s.leg f).zone = barredZone r)
    (first : ∀ g < f, ¬ (b.claims.getLsbD g = true ∧ (s.leg g).zone = barredZone r)) :
    ownOpenBatch s r p = (s, some (.refusedAt .zoneRefused f)) :=
  ownOpenBatch_refused closed parsed (claim_zoneRefused small barred.1 barred.2 first)

theorem open_heldRefused {f : Nat} (zones : ∀ f < 24, ¬ (b.claims.getLsbD f = true ∧ (s.leg f).zone = barredZone r))
    (small : f < 24) (held : b.claims.getLsbD f = true ∧ (s.leg f).claim ≠ none)
    (first : ∀ g < f, ¬ (b.claims.getLsbD g = true ∧ (s.leg g).claim ≠ none)) :
    ownOpenBatch s r p = (s, some (.refusedAt .claimed f)) :=
  ownOpenBatch_refused closed parsed (claim_claimed zones small held.1 held.2 first)

end

end

/-! ### CLOSE BATCH (R105) -/

theorem ownCloseBatch_noBatch (closed : (s.ws r).depth = 0) : ownCloseBatch s r p = (s, some (.refused .noBatch)) :=
  if_pos closed

theorem ownCloseBatch_commit (last : (s.ws r).depth = 1) :
    ownCloseBatch s r [] = (s.setWs r { s.ws r with idle := none, flight := some ⟨0x02, []⟩ }, none) := by
  unfold ownCloseBatch
  dsimp only
  rw [if_neg (by omega), if_neg (by simp), if_pos last]

theorem ownCloseBatch_level (deeper : 2 ≤ (s.ws r).depth) : ownCloseBatch s r []
    = (s.setWs r { s.ws r with depth := (s.ws r).depth - 1, levels := (s.ws r).levels.dropLast }, some (.taken [])) := by
  unfold ownCloseBatch
  dsimp only
  rw [if_neg (by omega), if_neg (by simp), if_neg (by omega)]

section
variable (opened : 1 ≤ (s.ws r).depth)
include opened

theorem ownCloseBatch_badField (bytes : p ≠ []) : ownCloseBatch s r p = (s, some (.refused .badField)) := by
  unfold ownCloseBatch
  dsimp only
  rw [if_neg (by omega), if_pos bytes]

/-! ### ABANDON BATCH (R116) -/

theorem ownAbandonBatch_length (length : p.length ≠ 1) : ownAbandonBatch s r p = (s, some (.refused .badField)) := by
  unfold ownAbandonBatch
  dsimp only
  rw [if_neg (by omega), fieldsOf_of_length_ne (by simpa using length)]

theorem ownAbandonBatch_badField {n : Nat} (low : n < 32) :
    ownAbandonBatch s r (packed [(1, n)]) = (s, some (.refused .badField)) := by
  unfold ownAbandonBatch
  dsimp only
  rw [if_neg (by omega), fields_one (by omega)]
  exact if_neg (Nat.not_le.2 low)

theorem ownAbandonBatch_ended {n : Nat} (byte : n < 256) (high : 32 ≤ n) :
    ownAbandonBatch s r (packed [(1, n)]) = (s.endEarly r (abandonedOutcome (s.ws r) n),
      some (.ended [] ((s.endEarly r (abandonedOutcome (s.ws r) n)).outcome r))) := by
  unfold ownAbandonBatch
  dsimp only
  rw [if_neg (by omega), fields_one (by omega)]
  exact if_pos high

end

theorem ownAbandonBatch_noBatch (closed : (s.ws r).depth = 0) : ownAbandonBatch s r p = (s, some (.refused .noBatch)) :=
  if_pos closed

end

/-! ### OPEN BATCH as a request of SITE (O15) -/

section
variable {s : State} {p : List Byte} (ready : s.ready) (hp : p.length ≤ 507)
include ready hp

theorem exec_openBatch {u : State} {a : Answer} (own : ownOpenBatch (s.accepted p.length) .site p = (u, some a)) :
    exec (.openBatch (requestFrame 0x01#8 p)) s = .next (u.replied 0x01#8 a) := by
  change Host.Outcome.next (siteBatch 0x01#8 ownOpenBatch _ s) = _
  rw [siteBatch_ready s ready hp, own]

theorem answersAbort_openBatch {f : Failure} (own : ownOpenBatch (s.accepted p.length) .site p
      = (s.accepted p.length).abortAnswered .site f []) :
    s.answersAbort (exec (.openBatch (requestFrame 0x01#8 p)) s) 0x01#8 p.length [] f.code f.index f.subject :=
  ⟨_, batchAborted_abort _ (ctabDue_accepted ready _) .site f, exec_openBatch ready hp own⟩

end

/-- Settles O15. -/
theorem batchesAreOpened : Obligations.BatchesAreOpened := by
  unfold Obligations.BatchesAreOpened
  refine ⟨fun p s ready hp closed => ?_, fun p s ready hp opened => ?_⟩
  · have shut : ((s.accepted p.length).ws .site).depth = 0 := (depth_accepted _).trans closed
    refine ⟨fun l b parsed => ⟨fun clear => ?_, fun f small barred first => ?_, fun zones f small held first => ?_⟩,
      fun bad => exec_openBatch ready hp (ownOpenBatch_badField shut bad)⟩
    · obtain ⟨legs, own, look⟩ := open_taken (s := s.accepted p.length) shut parsed (fun f small => (clear f small).1)
        fun f small => (clear f small).2
      exact ⟨legs, exec_openBatch ready hp own, look⟩
    · exact exec_openBatch ready hp (open_zoneRefused shut parsed small barred first)
    · exact exec_openBatch ready hp (open_heldRefused shut parsed zones small held first)
  · have deep : ((s.accepted p.length).ws .site).depth = s.siteWs.depth := depth_accepted _
    have opens : 1 ≤ ((s.accepted p.length).ws .site).depth := deep ▸ opened
    refine ⟨fun room l b parsed => exec_openBatch ready hp (ownOpenBatch_level opens room parsed),
      fun room bad => answersAbort_openBatch ready hp (ownOpenBatch_badLevel opens room bad),
      fun full => answersAbort_openBatch ready hp (ownOpenBatch_deep full)⟩

end Sys2Proof.Machine
end

