-- ==== Sys2Proof/Proofs/BatchArrivals.lean ====
section
/-! An edit that arrives either fails one of its checks or joins the workspace (R106 to R112), and so the edits of an APPLY
arrive up to the first that fails (R113, R114). -/

namespace Sys2Proof.Machine

section
variable {s v : State} {r : Requester} {e : Edit} {inApply : Bool}

/-! ### An edit that does not pass fails (R106 to R111) -/

/-- The first of a list that lacks a property. -/
theorem exists_first_not {α : Type} {P : α → Prop} {l : List α} (h : ¬ ∀ a ∈ l, P a) :
    ∃ before a after, l = before ++ a :: after ∧ (∀ b ∈ before, P b) ∧ ¬ P a := by
  induction l with
  | nil => exact (h nofun).elim
  | cons b l ih =>
    by_cases has : P b
    · obtain ⟨before, a, after, rfl, all, lacks⟩ := ih fun all => h fun c listed => by
        rcases List.mem_cons.1 listed with rfl | later
        · exact has
        · exact all c later
      refine ⟨b :: before, a, after, rfl, fun c listed => ?_, lacks⟩
      rcases List.mem_cons.1 listed with rfl | later
      · exact has
      · exact all c later
    · exact ⟨[], b, l, rfl, nofun, has⟩

/-- Checks 2 to 5. -/
theorem failsArrival_of_not_allows (h : ¬ s.allows r inApply e) : ∃ c x, s.failsArrival r inApply e c x := by
  by_cases deferrable : (s.ws r).mode = .immediate ∨ ∃ d, e = .slot d
  · by_cases claimed : ∀ f, e.feed? = some f → (s.ws r).claims.getLsbD f = true
    · by_cases levels : ∀ l, e = .setLeg l → ∀ v ∈ (s.ws r).levels, v.legEdits = true
      · have retires : ¬ ∀ g, e = .retire g → inApply = false ∧ ∀ v ∈ (s.ws r).levels, v.retire = true := fun all =>
          h ⟨deferrable, claimed, levels, all⟩
        push Not at retires
        obtain ⟨g, rfl, forbids⟩ := retires
        refine ⟨_, _, .inr (.inl ⟨deferrable, .inr (.inr ⟨g, rfl, ?_, rfl, rfl⟩)⟩)⟩
        cases inApply with
        | true => exact .inl rfl
        | false =>
          obtain ⟨v, listed, no⟩ := forbids rfl
          exact .inr ⟨v, listed, Bool.eq_false_iff.2 no⟩
      · push Not at levels
        obtain ⟨l, rfl, v, listed, no⟩ := levels
        exact ⟨_, _, .inr (.inl ⟨deferrable, .inr (.inl ⟨l, rfl, claimed _ rfl, ⟨v, listed, Bool.eq_false_iff.2 no⟩, rfl, rfl⟩)⟩)⟩
    · push Not at claimed
      obtain ⟨f, feed, no⟩ := claimed
      exact ⟨_, _, .inr (.inl ⟨deferrable, .inl ⟨f, feed, Bool.eq_false_iff.2 no, rfl, rfl⟩⟩)⟩
  · have mode : (s.ws r).mode = .deferred := by
      cases mode : (s.ws r).mode with
      | deferred => rfl
      | immediate => exact (deferrable (.inl mode)).elim
    exact ⟨_, _, .inl ⟨mode, fun d slot => deferrable (.inr ⟨d, slot⟩), rfl, rfl⟩⟩

/-- Checks 6 to 9. -/
theorem failsArrival_of_not_admits (allows : s.allows r inApply e) (h : ¬ s.admits r e) :
    ∃ c x, s.failsArrival r inApply e c x := by
  by_cases named : ∀ g ∈ e.named, s.names r g
  · by_cases bound : ∀ g ∈ e.bound, s.bindable g
    · by_cases owned : ∀ g, e.owned = some g → ∀ x, s.record? g = some x → x.owner = r
      · have free : ¬ ∀ d, e = .slot d → (s.slot d.feed d.slot).reserved = none := fun all => h ⟨named, bound, owned, all⟩
        push Not at free
        obtain ⟨d, rfl, reserved⟩ := free
        obtain ⟨n, reserved⟩ := Option.ne_none_iff_exists'.1 reserved
        exact ⟨_, _, .inr (.inr (.inl ⟨allows, .inr (.inl ⟨named, .inr ⟨bound, .inr ⟨d, n, rfl, reserved, rfl, rfl⟩⟩⟩)⟩))⟩
      · push Not at owned
        obtain ⟨g, own, y, found, other⟩ := owned
        exact ⟨_, _, .inr (.inr (.inl ⟨allows, .inr (.inl ⟨named, .inr ⟨bound, .inl ⟨g, y, own, found, other, rfl, rfl⟩⟩⟩)⟩))⟩
    · obtain ⟨before, g, after, list, all, lacks⟩ := exists_first_not bound
      exact ⟨_, _, .inr (.inr (.inl ⟨allows, .inr (.inl ⟨named, .inl ⟨before, g, after, list, all, lacks, rfl, rfl⟩⟩)⟩))⟩
  · obtain ⟨before, g, after, list, all, lacks⟩ := exists_first_not named
    exact ⟨_, _, .inr (.inr (.inl ⟨allows, .inl ⟨before, g, after, list, all, lacks, rfl, rfl⟩⟩))⟩

/-- Checks 2 to 10. -/
theorem failsArrival_of_not_mayArrive (h : ¬ s.mayArrive r inApply e) : ∃ c x, s.failsArrival r inApply e c x := by
  by_cases allows : s.allows r inApply e
  · by_cases admits : s.admits r e
    · exact ⟨_, _, .inr (.inr (.inl ⟨allows, .inr (.inr ⟨admits, Nat.not_lt.1 fun room => h ⟨allows, admits, room⟩, rfl, rfl⟩)⟩))⟩
    · exact failsArrival_of_not_admits allows admits
  · exact failsArrival_of_not_allows allows

/-- Checks 11 to 13: a CREATE RECORD fails, or it has a handle and room for what it reserves. -/
theorem create_failsArrival_or {n : Nat} {c : CreateFields} (may : s.mayArrive r inApply (.create n c)) :
    (∃ cd x, s.failsArrival r inApply (.create n c) cd x)
      ∨ s.keyFree c.key ∧ (∃ h, s.lowestIs h) ∧ s.pidsFree c ∧ s.smap.length + c.components.length ≤ 4096 := by
  by_cases key : s.keyFree c.key
  · by_cases low : ∃ h, s.lowestIs h
    · by_cases pids : s.pidsFree c
      · by_cases room : s.smap.length + c.components.length ≤ 4096
        · exact .inr ⟨key, low, pids, room⟩
        · exact .inl ⟨_, _, .inr (.inr (.inr ⟨may, rfl, n, c, rfl, .inr (.inr (.inr ⟨key, low, pids, Nat.not_le.1 room, rfl⟩))⟩))⟩
      · exact .inl ⟨_, _, .inr (.inr (.inr ⟨may, rfl, n, c, rfl, .inr (.inr (.inl ⟨key, low, pids, rfl⟩))⟩))⟩
    · exact .inl ⟨_, _, .inr (.inr (.inr ⟨may, rfl, n, c, rfl, .inr (.inl ⟨key, not_exists.1 low, rfl⟩)⟩))⟩
  · exact .inl ⟨_, _, .inr (.inr (.inr ⟨may, rfl, n, c, rfl, .inl ⟨key, rfl⟩⟩))⟩

/-! ### What joins -/

/-- What an edit that joins leaves as it was. -/
theorem kept_of_joins {h : Nat} (joins : s.joins v r inApply e h) : v.ctabDue = s.ctabDue ∧ v.netFlight = s.netFlight := by
  obtain ⟨-, ⟨-, -, stamp, -, rfl⟩ | ⟨n, c, -, -, -, -, -, stamp, -, made, -⟩⟩ := joins
  · exact ⟨setWs_ctabDue .., setWs_netFlight ..⟩
  · exact ⟨(congrArg State.ctabDue made).trans (setWs_ctabDue ..), (congrArg State.netFlight made).trans (setWs_netFlight ..)⟩

section
variable {permitted : Bool} (permits : (s.ws r).permits inApply permitted)
include permits

theorem joins_other (may : s.mayArrive r inApply e) (other : ∀ n c, e ≠ .create n c) :
    ∃ v, s.joins v r inApply e 0 ∧ s.arrive r permitted e = .ok (0, v) :=
  ⟨_, ⟨may, .inl ⟨other, rfl, (s.ws r).tolerance, stampIs_tolerance _, rfl⟩⟩, arrive_other_of_mayArrive permits may other⟩

variable (settled : s.ctabDue = []) (canonical : s.canonical) (distinct : e.distinct)
include settled canonical distinct

theorem joins_create {n h : Nat} {c : CreateFields} (create : e = .create n c) (may : s.mayArrive r inApply e)
    (key : s.keyFree c.key) (low : s.lowestIs h) (pids : s.pidsFree c) (room : s.smap.length + c.components.length ≤ 4096) :
    ∃ v, s.joins v r inApply e h ∧ s.arrive r permitted e = .ok (h, v) := by
  subst create
  have reserved := reserveRecord_ok (r := r) canonical.records_rising key low pids room
  exact ⟨_, ⟨may, .inr ⟨n, c, rfl, key, pids, room, reserves_of_reserved low distinct⟩⟩,
    (arrive_create_of_mayArrive permits settled may).2 _ _ reserved⟩

/-- An edit that may join does (R106, R111, R112). -/
theorem arrive_of_joins {h : Nat} (joins : s.joins v r inApply e h) :
    ∃ v, s.joins v r inApply e h ∧ s.arrive r permitted e = .ok (h, v) := by
  obtain ⟨may, ⟨other, rfl, -⟩ | ⟨n, c, create, key, pids, room, low, -⟩⟩ := joins
  · exact joins_other permits may other
  · exact joins_create permits settled canonical distinct create may key low pids room

/-- An edit fails its arrival or joins. -/
theorem arrive_fails_or_joins : (∃ c x, s.failsArrival r inApply e c x ∧ s.arrive r permitted e = .error (c, x))
      ∨ ∃ h v, s.joins v r inApply e h ∧ s.arrive r permitted e = .ok (h, v) := by
  have fails : (∃ c x, s.failsArrival r inApply e c x) →
      ∃ c x, s.failsArrival r inApply e c x ∧ s.arrive r permitted e = .error (c, x) := fun ⟨c, x, failed⟩ =>
    ⟨c, x, failed, arrive_of_failsArrival permits settled canonical.records_rising failed⟩
  by_cases may : s.mayArrive r inApply e
  · by_cases create : ∃ n c, e = .create n c
    · obtain ⟨n, c, rfl⟩ := create
      rcases create_failsArrival_or may with failed | ⟨key, ⟨h, low⟩, pids, room⟩
      · exact .inl (fails failed)
      · exact .inr ⟨h, joins_create permits settled canonical distinct rfl may key low pids room⟩
    · exact .inr ⟨0, joins_other permits may fun n c same => create ⟨n, c, same⟩⟩
  · exact .inl (fails (failsArrival_of_not_mayArrive may))

end

end

/-! ### The edits of an APPLY (R113, R114) -/

section
variable {s : State} {r : Requester}

theorem arriveSent_fails_or_joins (settled : s.ctabDue = []) (canonical : s.canonical) {e : SentEdit}
    (distinct : ∀ d, e.edit = some d → d.distinct) :
    (∃ c x, s.failsSent r e c x ∧ s.arriveSent r false e.edit = .error ⟨c, (s.ws r).failsAt c, x⟩)
      ∨ ∃ d h v, e.edit = some d ∧ s.joins v r true d h ∧ s.arriveSent r false e.edit = .ok (h, v) := by
  unfold State.arriveSent
  cases sent : e.edit with
  | none => exact .inl ⟨_, _, .inl ⟨sent, rfl, rfl⟩, rfl⟩
  | some d =>
    rcases arrive_fails_or_joins (permits_apply (s.ws r)) settled canonical (distinct d sent) with
      ⟨c, x, fails, arrives⟩ | ⟨h, v, joins, arrives⟩
    · exact .inl ⟨c, x, .inr ⟨d, sent, fails⟩, by dsimp only; rw [arrives]; rfl⟩
    · exact .inr ⟨d, h, v, rfl, joins, by dsimp only; rw [arrives]⟩

/-- The edits of an APPLY arrive up to the first that fails. -/
theorem arriveAll_eq (settled : s.ctabDue = []) (canonical : s.canonical) {es : List SentEdit}
    (distinct : ∀ e ∈ es, ∀ d, e.edit = some d → d.distinct) (first : List Nat) :
    ∃ l rest u hs, es = l ++ rest ∧ State.arrivals r l s u hs ∧ (u.ctabDue = [] ∧ u.netFlight = s.netFlight)
      ∧ ((rest = [] ∧ s.arriveAll r es first = (u, first ++ hs, none))
        ∨ ∃ e more c x, rest = e :: more ∧ u.failsSent r e c x
          ∧ s.arriveAll r es first = (u, first ++ hs, some ⟨c, (u.ws r).failsAt c, x⟩)) := by
  induction es generalizing s first with
  | nil => exact ⟨[], [], s, [], rfl, ⟨rfl, rfl⟩, ⟨settled, rfl⟩, .inl ⟨rfl, by rw [List.append_nil]; rfl⟩⟩
  | cons e es ih =>
    unfold State.arriveAll
    rcases arriveSent_fails_or_joins (r := r) settled canonical (distinct e (List.mem_cons_self ..)) with
      ⟨c, x, fails, arrives⟩ | ⟨d, h, v, sent, joins, arrives⟩
    · refine ⟨[], e :: es, s, [], rfl, ⟨rfl, rfl⟩, ⟨settled, rfl⟩, .inr ⟨e, es, c, x, rfl, fails, ?_⟩⟩
      rw [arrives, List.append_nil]
    · obtain ⟨due, flight⟩ := kept_of_joins joins
      have kept : v.canonical := (kept_arriveSent _ arrives).canonical canonical
      obtain ⟨l, rest, u, hs, rfl, arrived, ⟨later, same⟩, ends⟩ := ih (s := v) (due.trans settled) kept
        (fun e listed => distinct e (List.mem_cons_of_mem _ listed)) (first ++ [h])
      refine ⟨e :: l, rest, u, h :: hs, rfl, ⟨d, h, v, hs, sent, joins, arrived, rfl⟩, ⟨later, same.trans flight⟩, ?_⟩
      rw [arrives]
      simpa [List.append_assoc] using ends

end

end Sys2Proof.Machine
end

