-- ==== Sys2Proof/Proofs/Applies.lean ====
section
/-! What an APPLY comes to, for either requester (R62, R113 to R115), and as a request of SITE (O22). -/

namespace Sys2Proof.Machine

section
variable {t : State} {r : Requester} {p : List Byte} {es : List SentEdit}

/-! ### The feeds that an APPLY names (R62, R113) -/

/-- Some edit names the feed. -/
def namesFeed (es : List SentEdit) (f : Nat) : Bool := es.any fun e => e.feed == some f

theorem namesFeed_iff {f : Nat} : namesFeed es f = true ↔ ∃ e ∈ es, e.feed = some f := by simp [namesFeed]

theorem feedsNamed_eq (es : List SentEdit) : feedsNamed es = (List.range 24).filter (namesFeed es) := rfl

theorem mem_feedsNamed {f : Nat} : f ∈ feedsNamed es ↔ f < 24 ∧ ∃ e ∈ es, e.feed = some f := by
  rw [feedsNamed_eq, List.mem_filter, List.mem_range, namesFeed_iff]

theorem getLsbD_foldl_twoPow (l : List Nat) (c : FeedSet) (f : Nat) :
    (l.foldl (fun c f => c ||| BitVec.twoPow 24 f) c).getLsbD f = (c.getLsbD f || decide (f < 24 ∧ f ∈ l)) := by
  induction l generalizing c with
  | nil => simp
  | cons a l ih =>
    rw [List.foldl_cons, ih, BitVec.getLsbD_or, BitVec.getLsbD_twoPow, Bool.eq_iff_iff]
    simp only [Bool.or_eq_true, Bool.and_eq_true, decide_eq_true_iff, List.mem_cons]
    constructor
    · rintro ((set | ⟨small, rfl⟩) | ⟨small, listed⟩)
      · exact .inl set
      · exact .inr ⟨small, .inl rfl⟩
      · exact .inr ⟨small, .inr listed⟩
    · rintro (set | ⟨small, rfl | listed⟩)
      · exact .inl (.inl set)
      · exact .inl (.inr ⟨small, rfl⟩)
      · exact .inr ⟨small, listed⟩

theorem claims_applyWorkspace (small : ∀ f, (∃ e ∈ es, e.feed = some f) → f < 24) (f : Nat) :
    (applyWorkspace (feedsNamed es)).claims.getLsbD f = true ↔ ∃ e ∈ es, e.feed = some f := by
  unfold applyWorkspace
  dsimp only
  rw [getLsbD_foldl_twoPow, show (0 : FeedSet) = 0#24 from rfl, BitVec.getLsbD_zero, Bool.false_or, decide_eq_true_iff,
    mem_feedsNamed]
  exact ⟨fun h => h.2.2, fun named => ⟨small f named, small f named, named⟩⟩

theorem feeds_outOfRange_iff : (es.any fun e => e.feed.any fun f => !feedOk f) = true
    ↔ ∃ f, 24 ≤ f ∧ ∃ e ∈ es, e.feed = some f := by
  simp only [List.any_eq_true, Option.any_eq_true, Bool.not_eq_true', ← Bool.not_eq_true, feedOk_iff, Nat.not_lt]
  constructor
  · rintro ⟨e, listed, f, feed, high⟩
    exact ⟨f, high, e, listed, feed⟩
  · rintro ⟨f, high, e, listed, feed⟩
    exact ⟨e, listed, f, feed, high⟩

theorem feeds_inRange (small : ∀ f, (∃ e ∈ es, e.feed = some f) → f < 24) :
    ¬ (es.any fun e => e.feed.any fun f => !feedOk f) = true := fun bad => by
  obtain ⟨f, high, named⟩ := feeds_outOfRange_iff.1 bad
  exact absurd (small f named) (Nat.not_lt.2 high)

/-! ### The owner's cases -/

theorem ownApply_badForm (bad : parseApply p = none) (closed : (t.ws r).depth = 0) :
    ownApply t r p = (t, some (.refused .badField)) := by
  unfold ownApply ownApplyAlone
  rw [if_pos closed, bad]

theorem ownApply_badForm_inside (bad : parseApply p = none) (opened : 1 ≤ (t.ws r).depth) :
    ownApply t r p = t.abortAnswered r (.plain .badField) (applyHandles []) := by
  unfold ownApply ownApplyInside
  rw [if_neg (by omega), bad]

section
variable {u : State} {hs : List Nat} (parsed : parseApply p = some es)
include parsed

section
variable (opened : 1 ≤ (t.ws r).depth)
include opened

theorem ownApply_inside_passes (all : t.arriveAll r es [] = (u, hs, none)) :
    ownApply t r p = (u, some (.taken (applyHandles hs))) := by
  unfold ownApply ownApplyInside
  rw [if_neg (by omega), parsed]
  dsimp only
  rw [all]

theorem ownApply_inside_aborts {f : Failure} (first : t.arriveAll r es [] = (u, hs, some f)) :
    ownApply t r p = u.abortAnswered r f (applyHandles hs) := by
  unfold ownApply ownApplyInside
  rw [if_neg (by omega), parsed]
  dsimp only
  rw [first]

end

section
variable (closed : (t.ws r).depth = 0)
include closed

theorem ownApply_badFeed (high : ∃ f, 24 ≤ f ∧ ∃ e ∈ es, e.feed = some f) :
    ownApply t r p = (t, some (.refused .badField)) := by
  unfold ownApply ownApplyAlone
  rw [if_pos closed, parsed]
  exact if_pos (feeds_outOfRange_iff.2 high)

variable (small : ∀ f, (∃ e ∈ es, e.feed = some f) → f < 24)
include small

theorem ownApply_refused {c : Code} {f : Nat} (refused : t.claim r (feedsNamed es) = .error (c, f)) :
    ownApply t r p = (t, some (.refusedAt c f)) := by
  unfold ownApply ownApplyAlone
  rw [if_pos closed, parsed]
  dsimp only
  rw [if_neg (feeds_inRange small), refused]

variable {v : State} (claimed : t.claim r (feedsNamed es) = .ok v)
include claimed

theorem ownApply_passes (all : (v.setWs r (applyWorkspace (feedsNamed es))).arriveAll r es [] = (u, hs, none)) :
    ownApply t r p = (u.setWs r { u.ws r with flight := some ⟨0x04, hs⟩ }, none) := by
  unfold ownApply ownApplyAlone
  rw [if_pos closed, parsed]
  dsimp only
  rw [if_neg (feeds_inRange small), claimed]
  dsimp only
  rw [all]

theorem ownApply_aborts {f : Failure}
    (first : (v.setWs r (applyWorkspace (feedsNamed es))).arriveAll r es [] = (u, hs, some f)) :
    ownApply t r p = u.abortAnswered r f (applyHandles hs) := by
  unfold ownApply ownApplyAlone
  rw [if_pos closed, parsed]
  dsimp only
  rw [if_neg (feeds_inRange small), claimed]
  dsimp only
  rw [first]

end

end

/-! ### What it comes to -/

section
variable {answers : State → Answer → Prop} {flies : State → Prop}

/-- The edits arrive, and all pass, or the first that fails aborts the batch (R114, R115). -/
theorem arriveAll_runs {v : State} {passes : State → List Nat → Prop} (settled : v.ctabDue = []) (canonical : v.canonical)
    (distinct : ∀ e ∈ es, ∀ d, e.edit = some d → d.distinct)
    (pass : ∀ u hs, v.arriveAll r es [] = (u, hs, none) → passes u hs)
    (abort : ∀ u hs f, v.arriveAll r es [] = (u, hs, some f) →
      answers (u.abort r f) (.ended (applyHandles hs) ((u.abort r f).outcome r))) :
    ∃ l rest u hs, es = l ++ rest ∧ State.arrivals r l v u hs
      ∧ ((rest = [] ∧ passes u hs) ∨ ∃ e more c x, rest = e :: more ∧ u.failsSent r e c x
        ∧ ∃ w, u.batchAborted w r c ((u.ws r).failsAt c) x ∧ answers w (.ended (applyHandles hs) (w.outcome r))) := by
  obtain ⟨l, rest, u, hs, split, arrived, ⟨due, -⟩, ⟨last, all⟩ | ⟨e, more, c, x, last, fails, first⟩⟩ :=
    arriveAll_eq (r := r) settled canonical distinct []
  · exact ⟨l, rest, u, hs, split, arrived, .inl ⟨last, pass u hs all⟩⟩
  · exact ⟨l, rest, u, hs, split, arrived, .inr ⟨e, more, c, x, last, fails, _, batchAborted_abort u due r _,
      abort u hs _ first⟩⟩

variable (canonical : t.canonical) (answered : ∀ u a, ownApply t r p = (u, some a) → answers u a)
include canonical answered

/-- Alone, an APPLY that claims its feeds runs as a one-level batch of its own (R113). -/
theorem applies_alone (flying : ∀ u, ownApply t r p = (u, none) → flies u) (parsed : parseApply p = some es)
    (closed : (t.ws r).depth = 0) (small : ∀ f, (∃ e ∈ es, e.feed = some f) → f < 24) {v : State}
    (claimed : t.claim r (feedsNamed es) = .ok v) (due : v.ctabDue = []) :
    ∃ l rest u hs, es = l ++ rest ∧ State.arrivals r l (v.setWs r (applyWorkspace (feedsNamed es))) u hs
      ∧ ((rest = [] ∧ flies (u.setWs r { u.ws r with flight := some ⟨0x04#8, hs⟩ }))
        ∨ ∃ e more c x, rest = e :: more ∧ u.failsSent r e c x
          ∧ ∃ w, u.batchAborted w r c ((u.ws r).failsAt c) x ∧ answers w (.ended (applyHandles hs) (w.outcome r))) := by
  have kept : (v.setWs r (applyWorkspace (feedsNamed es))).canonical :=
    ((kept_claim _ claimed).trans (kept_setWs _ fun _ => bounded_applyWorkspace _)).canonical canonical
  exact arriveAll_runs ((setWs_ctabDue ..).trans due) kept (distinct_parseApply parsed)
    (fun u hs all => flying _ (ownApply_passes parsed closed small claimed all))
    fun u hs f first => answered _ _ (ownApply_aborts parsed closed small claimed first)

variable (settled : t.ctabDue = [])
include settled

theorem applies_inside (parsed : parseApply p = some es) (opened : 1 ≤ (t.ws r).depth) :
    ∃ l rest u hs, es = l ++ rest ∧ State.arrivals r l t u hs
      ∧ ((rest = [] ∧ answers u (.taken (applyHandles hs))) ∨ ∃ e more c x, rest = e :: more ∧ u.failsSent r e c x
        ∧ ∃ w, u.batchAborted w r c ((u.ws r).failsAt c) x ∧ answers w (.ended (applyHandles hs) (w.outcome r))) := by
  exact arriveAll_runs settled canonical (distinct_parseApply parsed)
    (fun u hs all => answered _ _ (ownApply_inside_passes parsed opened all))
    fun u hs f first => answered _ _ (ownApply_inside_aborts parsed opened first)

theorem applies_ownApply (flying : ∀ u, ownApply t r p = (u, none) → flies u) : t.applies r p answers flies := by
  unfold State.applies
  refine ⟨fun bad closed => answered _ _ (ownApply_badForm bad closed), fun bad opened => ?_, fun es parsed =>
    ⟨fun opened => applies_inside canonical answered settled parsed opened,
      fun closed high => answered _ _ (ownApply_badFeed parsed closed high), fun closed small => ?_⟩⟩
  · exact ⟨_, batchAborted_abort t settled r (.plain .badField), answered _ _ (ownApply_badForm_inside bad opened)⟩
  · have refused := fun {c f} refused => answered _ _ (ownApply_refused (c := c) (f := f) parsed closed small refused)
    simp only [← namesFeed_iff] at small ⊢
    refine ⟨fun f barred first => ?_, fun zones f held first => ?_, fun free => ?_⟩
    · exact refused (claim_zoneRefused (small f barred.1) barred.1 barred.2 first)
    · exact refused (claim_claimed (fun f _ => zones f) (small f held.1) held.1 held.2 first)
    · obtain ⟨legs, claimed, look⟩ := claim_ok (r := r) (named := namesFeed es) (fun f _ => (free f).1) fun f _ => (free f).2
      have bits := claims_applyWorkspace fun f named => small f (namesFeed_iff.2 named)
      refine ⟨legs, (applyWorkspace (feedsNamed es)).claims, fun f => (bits f).trans namesFeed_iff.symm, fun f => ?_,
        applies_alone canonical answered flying parsed closed (fun f named => small f (namesFeed_iff.2 named)) claimed
          settled⟩
      rw [look f]
      simp only [bits, ← namesFeed_iff]
      by_cases named : namesFeed es f = true
      · rw [if_pos ⟨small f named, named⟩, if_pos named]
      · rw [if_neg fun both => named both.2, if_neg named]

end

end

/-- Settles O22: what the owner of APPLY answers, at a port that is ready. -/
theorem anApplyRunsItsEdits : Obligations.AnApplyRunsItsEdits := by
  intro p s ready canonical hp run
  have exec_eq : run = .next (siteBatch 0x04#8 ownApply (requestFrame 0x04#8 p) s) := rfl
  rw [siteBatch_ready s ready hp] at exec_eq
  have kept : (s.accepted p.length).canonical := by
    obtain ⟨m, q, i, accepted⟩ := accepted_frame s p.length
    rw [accepted]
    exact canonical
  refine applies_ownApply kept (fun u a own => ?_) (ctabDue_accepted ready _) fun u own => ?_ <;> rw [exec_eq, own]

end Sys2Proof.Machine
end

