-- ==== Sys2Proof/Proofs/NetworkBatches.lean ====
section
/-! NETWORK's batch requests, edits and APPLY, from the head of its queue to the posted answer (O52; R175, R176). -/

namespace Sys2Proof.Machine

/-! ### No owner ends the flight of NETWORK's request -/

section
variable {t : State} (settled : t.ctabDue = []) (r : Requester) (p : List Byte)
include settled

theorem netFlight_abortAnswered (f : Failure) (before : List Byte) :
    (t.abortAnswered r f before).1.netFlight = t.netFlight := netFlight_abort settled r f

theorem netFlight_ownOpenBatch : (ownOpenBatch t r p).1.netFlight = t.netFlight := by
  unfold ownOpenBatch
  dsimp only
  split
  · unfold ownOpenFirst
    split
    · split
      · next claimed => exact (setWs_netFlight ..).trans (same_claim State.netFlight (fun _ _ _ => rfl) claimed)
      · rfl
    · rfl
  · split
    · exact netFlight_abortAnswered settled r _ _
    · split
      · exact setWs_netFlight ..
      · exact netFlight_abortAnswered settled r _ _

omit settled in
theorem netFlight_ownCloseBatch : (ownCloseBatch t r p).1.netFlight = t.netFlight := by
  unfold ownCloseBatch
  dsimp only
  split
  · rfl
  · split
    · rfl
    · split <;> exact setWs_netFlight ..

theorem netFlight_ownAbandonBatch : (ownAbandonBatch t r p).1.netFlight = t.netFlight := by
  unfold ownAbandonBatch
  dsimp only
  split
  · rfl
  · split
    · split
      · exact netFlight_endEarly settled r _
      · rfl
    · rfl

theorem netFlight_arriveAll (canonical : t.canonical) {es : List SentEdit}
    (distinct : ∀ e ∈ es, ∀ d, e.edit = some d → d.distinct) {u : State} {hs : List Nat} {o : Option Failure}
    (arrives : t.arriveAll r es [] = (u, hs, o)) : u.ctabDue = [] ∧ u.netFlight = t.netFlight := by
  obtain ⟨l, rest, v, gs, -, -, kept, ⟨-, ends⟩ | ⟨e, more, c, x, -, -, ends⟩⟩ :=
    arriveAll_eq (r := r) settled canonical distinct []
  · obtain rfl : v = u := congrArg Prod.fst (ends.symm.trans arrives)
    exact kept
  · obtain rfl : v = u := congrArg Prod.fst (ends.symm.trans arrives)
    exact kept

theorem netFlight_ownApply (canonical : t.canonical) : (ownApply t r p).1.netFlight = t.netFlight := by
  unfold ownApply
  split
  · unfold ownApplyAlone
    split
    · rfl
    · next es parsed =>
      split
      · rfl
      · dsimp only
        split
        · rfl
        · next v claimed =>
          have kept : (v.setWs r (applyWorkspace (feedsNamed es))).canonical :=
            ((kept_claim _ claimed).trans (kept_setWs _ fun _ => bounded_applyWorkspace _)).canonical canonical
          have due : (v.setWs r (applyWorkspace (feedsNamed es))).ctabDue = [] :=
            (setWs_ctabDue ..).trans ((same_claim State.ctabDue (fun _ _ _ => rfl) claimed).trans settled)
          have same : (v.setWs r (applyWorkspace (feedsNamed es))).netFlight = t.netFlight :=
            (setWs_netFlight ..).trans (same_claim State.netFlight (fun _ _ _ => rfl) claimed)
          split
          · next arrives =>
            obtain ⟨still, flight⟩ := netFlight_arriveAll due r kept (distinct_parseApply parsed) arrives
            exact (netFlight_abortAnswered still r _ _).trans (flight.trans same)
          · next arrives =>
            obtain ⟨-, flight⟩ := netFlight_arriveAll due r kept (distinct_parseApply parsed) arrives
            exact (setWs_netFlight ..).trans (flight.trans same)
  · unfold ownApplyInside
    split
    · exact netFlight_abortAnswered settled r _ _
    · next es parsed =>
      split
      · next arrives =>
        obtain ⟨still, flight⟩ := netFlight_arriveAll settled r canonical (distinct_parseApply parsed) arrives
        exact (netFlight_abortAnswered still r _ _).trans flight
      · next arrives => exact (netFlight_arriveAll settled r canonical (distinct_parseApply parsed) arrives).2

end

/-! ### Edits (R106, R115) -/

section
variable {t : State} {r : Requester} {k : Nat} {p : List Byte} {e : Edit}

theorem ownEdit_noBatch (closed : (t.ws r).depth = 0) : ownEdit k t r p = (t, some (.refused .noBatch)) := if_pos closed

section
variable (opened : 1 ≤ (t.ws r).depth)
include opened

theorem ownEdit_badField (bad : parseEdit k p = none) :
    ownEdit k t r p = t.abortAnswered r ⟨.badField, (t.ws r).failsAt .badField, .none⟩ [] := by
  unfold ownEdit
  rw [if_neg (by omega), bad]
  rfl

theorem ownEdit_fails {c : Code} {x : Subject} (parsed : parseEdit k p = some e)
    (arrives : t.arrive r (t.ws r).retire e = .error (c, x)) :
    ownEdit k t r p = t.abortAnswered r ⟨c, (t.ws r).failsAt c, x⟩ [] := by
  unfold ownEdit State.arriveSent
  rw [if_neg (by omega), parsed]
  dsimp only
  rw [arrives]
  rfl

theorem ownEdit_joins {h : Nat} {v : State} (parsed : parseEdit k p = some e)
    (arrives : t.arrive r (t.ws r).retire e = .ok (h, v)) :
    ownEdit k t r p = (v, some (.taken (if k = 0x10 then bytesOf 2 h else []))) := by
  unfold ownEdit State.arriveSent
  rw [if_neg (by omega), parsed]
  dsimp only
  rw [arrives]

end

theorem netFlight_ownEdit (settled : t.ctabDue = []) (canonical : t.canonical) :
    (ownEdit k t r p).1.netFlight = t.netFlight := by
  rcases Nat.eq_zero_or_pos (t.ws r).depth with closed | opened
  · rw [ownEdit_noBatch closed]
  · cases parsed : parseEdit k p with
    | none =>
      rw [ownEdit_badField opened parsed]
      exact netFlight_abortAnswered settled r _ _
    | some e =>
      rcases arrive_fails_or_joins (permits_request (t.ws r)) settled canonical (distinct_parseEdit parsed) with
        ⟨c, x, -, arrives⟩ | ⟨h, v, joins, arrives⟩
      · rw [ownEdit_fails opened parsed arrives]
        exact netFlight_abortAnswered settled r _ _
      · rw [ownEdit_joins opened parsed arrives]
        exact (kept_of_joins joins).2

end

/-! ### From the head of the queue to the posting (R175, R176) -/

section
variable {s : State} {c : Command} {rest : List Command} {kind : Byte} {p : List Byte}

theorem takeRequest_begun (ready : s.networkReady c rest kind p) :
    State.takeRequest { s with netQueue := rest, netFlight := some ⟨c.seq, c.input, kind⟩ } .network = s.begun c rest kind :=
  takeRequest_network (by exact ready.2.1)

section
variable {owner : State → Requester → List Byte → State × Option Answer}
  (ready : s.networkReady c rest kind p) (listed : catalogue.contains kind.toNat = true)
  (batch : ∀ t : State, t.handNetwork kind p = t.handBatch .network kind owner p)
include ready listed batch

/-- An answer is posted. -/
theorem exec_networkBatch_answers
    (keeps : (owner (s.begun c rest kind) .network p).1.netFlight = (s.begun c rest kind).netFlight)
    {u : State} {a : Answer} (own : owner (s.begun c rest kind) .network p = (u, some a)) :
    exec .queueHeadTaken s = .next (u.networkReplied c kind a) := by
  have flight : u.netFlight = some ⟨c.seq, c.input, kind⟩ := by
    rw [own] at keeps
    exact keeps
  rw [runsHead ready listed, batch]
  unfold State.handBatch
  rw [takeRequest_begun ready, own]
  unfold State.answer
  dsimp only
  rw [flight]
  rfl

/-- Without one the request stays in flight. -/
theorem exec_networkBatch_flies {u : State} (own : owner (s.begun c rest kind) .network p = (u, none)) :
    exec .queueHeadTaken s = .next u := by
  rw [runsHead ready listed, batch]
  unfold State.handBatch
  rw [takeRequest_begun ready, own]

end

/-- The requests that are edits reach the owner of edits. -/
theorem handNetwork_edit {row : Byte × (Frame → Instr)} (hrow : row ∈ editRows) :
    catalogue.contains row.1.toNat = true
      ∧ ∀ t : State, t.handNetwork row.1 p = t.handBatch .network row.1 (ownEdit row.1.toNat) p := by
  simp only [editRows, List.mem_cons, List.not_mem_nil, or_false] at hrow
  rcases hrow with rfl | rfl | rfl | rfl | rfl | rfl <;> exact ⟨by decide, fun _ => rfl⟩

end

/-- Settles O52: each owner's cases, as they are answered to NETWORK. -/
theorem networkBatchesRunAsSites : Obligations.NetworkBatchesRunAsSites := by
  intro s c rest kind p ready settled canonical t w run answers aborts
  have aborted : ∀ f : Failure, answers (t.abort .network f) (.ended [] ((t.abort .network f).outcome .network)) →
      aborts f.code f.index f.subject := fun f answered => ⟨_, batchAborted_abort t settled .network f, answered⟩
  refine ⟨?_, ?_, ?_, ?_, ?_, ?_, ?_⟩
  · rintro rfl closed l b parsed barred held
    have answered := fun {u a} => exec_networkBatch_answers (u := u) (a := a) ready (by decide) (fun _ => rfl)
      (netFlight_ownOpenBatch (t := t) settled .network p)
    refine ⟨fun clear => ?_, fun f small barred first => ?_, fun zones f small held first => ?_⟩
    · obtain ⟨legs, own, look⟩ := open_taken (s := t) (r := .network) closed parsed (fun f small => (clear f small).1)
        fun f small => (clear f small).2
      exact ⟨legs, answered own, look⟩
    · exact answered (open_zoneRefused (s := t) (r := .network) closed parsed small barred first)
    · exact answered (open_heldRefused (s := t) (r := .network) closed parsed zones small held first)
  · rintro rfl closed bad
    exact exec_networkBatch_answers ready (by decide) (fun _ => rfl) (netFlight_ownOpenBatch (t := t) settled .network p)
      (ownOpenBatch_badField (s := t) (r := .network) closed bad)
  · rintro rfl opened
    have answered := fun {u a} => exec_networkBatch_answers (u := u) (a := a) ready (by decide) (fun _ => rfl)
      (netFlight_ownOpenBatch (t := t) settled .network p)
    exact ⟨fun room l b parsed => answered (ownOpenBatch_level (s := t) (r := .network) opened room parsed),
      fun room bad => aborted _ (answered (ownOpenBatch_badLevel (s := t) (r := .network) opened room bad)),
      fun deep => aborted _ (answered (ownOpenBatch_deep (s := t) (r := .network) deep))⟩
  · rintro rfl
    have answered := fun {u a} => exec_networkBatch_answers (u := u) (a := a) ready (by decide) (fun _ => rfl)
      (netFlight_ownCloseBatch (t := t) .network p)
    refine ⟨fun closed => answered (ownCloseBatch_noBatch (s := t) (r := .network) closed),
      fun opened bytes => answered (ownCloseBatch_badField (s := t) (r := .network) opened bytes), ?_, ?_⟩
    · rintro last rfl
      exact exec_networkBatch_flies ready (by decide) (fun _ => rfl) (ownCloseBatch_commit (s := t) (r := .network) last)
    · rintro deeper rfl
      exact answered (ownCloseBatch_level (s := t) (r := .network) deeper)
  · rintro rfl
    have answered := fun {u a} => exec_networkBatch_answers (u := u) (a := a) ready (by decide) (fun _ => rfl)
      (netFlight_ownAbandonBatch (t := t) settled .network p)
    refine ⟨fun closed => answered (ownAbandonBatch_noBatch (s := t) (r := .network) closed),
      fun opened length => answered (ownAbandonBatch_length (s := t) (r := .network) opened length), ?_, ?_⟩
    · rintro opened n low rfl
      exact answered (ownAbandonBatch_badField (s := t) (r := .network) opened low)
    · rintro opened n byte rfl high
      refine ⟨_, ?_, answered (ownAbandonBatch_ended (s := t) (r := .network) opened byte high)⟩
      rw [endEarly_of_nil t settled]
      exact batchEnded_endBatch t .network _
  · rintro row hrow rfl
    obtain ⟨listed, batch⟩ := handNetwork_edit (p := p) hrow
    have answered := fun {u a} => exec_networkBatch_answers (u := u) (a := a) ready listed batch
      (netFlight_ownEdit (t := t) settled canonical)
    refine ⟨fun closed => answered (ownEdit_noBatch (t := t) (r := .network) closed),
      fun opened bad => aborted _ (answered (ownEdit_badField (t := t) (r := .network) opened bad)),
      fun opened e parsed => ⟨fun code x fails => ?_, fun h u joins => ?_⟩⟩
    · exact aborted ⟨code, w.failsAt code, x⟩ (answered (ownEdit_fails (t := t) (r := .network) opened parsed
        (arrive_of_failsArrival (s := t) (permits_request _) settled canonical.records_rising fails)))
    · obtain ⟨v, joined, arrives⟩ := arrive_of_joins (permits_request (t.ws .network)) settled canonical
        (distinct_parseEdit parsed) joins
      have gives : (if row.1.toNat = 0x10 then bytesOf 2 h else []) = if row.1 = 0x10#8 then bytesOf 2 h else [] :=
        if_congr (BitVec.toNat_inj (y := 0x10#8)) rfl rfl
      refine ⟨v, joined, ?_⟩
      rw [← gives]
      exact answered (ownEdit_joins (t := t) (r := .network) opened parsed arrives)
  · rintro rfl
    exact applies_ownApply canonical (fun u a => exec_networkBatch_answers ready (by decide) (fun _ => rfl)
      (netFlight_ownApply (t := t) settled .network p canonical)) settled
      fun u => exec_networkBatch_flies ready (by decide) fun _ => rfl

end Sys2Proof.Machine
end
